-- ==== Sys2Proof/Word.lean ====
section
/-! DEFINITION. The plain words and fixed-size groups the Esharo 540's manual counts in. -/

namespace Sys2Proof

/-- One byte of host memory, of a pack or of a record (11.1). -/
abbrev Byte := BitVec 8

/-- A part time: a 48-bit count of microseconds (R3). -/
abbrev Time := BitVec 48

/-- An angle: a 32-bit two's-complement count of 2^-24 radian (R20). -/
abbrev Angle := BitVec 32

/-- A 32-bit word or 32-bit counter. -/
abbrev Word := BitVec 32

/-- A value for each of the three image axes (chapter 2). -/
structure Axes (α : Type) where
  yaw : α
  pitch : α
  roll : α
  deriving DecidableEq, Repr

/-- The same function on each axis. -/
def Axes.map {α β : Type} (f : α → β) (a : Axes α) : Axes β :=
  { yaw := f a.yaw, pitch := f a.pitch, roll := f a.roll }

/-- The same two-argument function on each axis of two groups. -/
def Axes.map₂ {α β γ : Type} (f : α → β → γ) (a : Axes α) (b : Axes β) : Axes γ :=
  { yaw := f a.yaw b.yaw, pitch := f a.pitch b.pitch, roll := f a.roll b.roll }

/-- The same value on each axis. -/
def Axes.all {α : Type} (x : α) : Axes α := { yaw := x, pitch := x, roll := x }

/-- Four like things: input lines, output lines, timers, pack buffers (section 0.6). -/
structure Four (α : Type) where
  a0 : α
  a1 : α
  a2 : α
  a3 : α
  deriving DecidableEq, Repr

/-- The same value four times. -/
def Four.all {α : Type} (x : α) : Four α := { a0 := x, a1 := x, a2 := x, a3 := x }

/-- The thing with index `i`. -/
def Four.get {α : Type} (v : Four α) (i : Fin 4) : α :=
  match i with
  | 0 => v.a0
  | 1 => v.a1
  | 2 => v.a2
  | 3 => v.a3

/-- The group with the thing of index `i` replaced. -/
def Four.set {α : Type} (v : Four α) (i : Fin 4) (x : α) : Four α :=
  match i with
  | 0 => { v with a0 := x }
  | 1 => { v with a1 := x }
  | 2 => { v with a2 := x }
  | 3 => { v with a3 := x }

/-- The same function on each of the four. -/
def Four.map {α β : Type} (f : α → β) (v : Four α) : Four β :=
  { a0 := f v.a0, a1 := f v.a1, a2 := f v.a2, a3 := f v.a3 }

/-- The four in index order. -/
def Four.toList {α : Type} (v : Four α) : List α := [v.a0, v.a1, v.a2, v.a3]

/-- A value for each of the six unit streams, in stream code order (R194). -/
structure Six (α : Type) where
  main : α
  proxy : α
  audio : α
  motion : α
  marker : α
  filler : α
  deriving DecidableEq, Repr

/-- The same value six times. -/
def Six.all {α : Type} (x : α) : Six α :=
  { main := x, proxy := x, audio := x, motion := x, marker := x, filler := x }

/-- The six in stream code order. -/
def Six.toList {α : Type} (v : Six α) : List α :=
  [v.main, v.proxy, v.audio, v.motion, v.marker, v.filler]

end Sys2Proof
end

