-- ==== Sys2Proof/Syntax.lean ====
section
/-! DEFINITION. The commands of spec/opcode_table.json, one constructor per row in the table's order, and the data their operands carry. -/

namespace Sys2Proof

/-- The three frame chains (section 5.3). -/
inductive Lane where
  | control
  | chunk
  | recovery
  deriving DecidableEq, Repr

/-- The 18 sinks of the route table (section 4.2), each named by its owner's chapter. -/
inductive Sink where
  | frameStart
  | frameEnd
  | recentre
  | incident
  | cut
  | close
  | pause
  | resume
  | setLine (n : Fin 4)
  | clearLine (n : Fin 4)
  | wakeA
  | wakeB
  deriving DecidableEq, Repr

/-- One write of the host into its own memory: bytes from an address upward. -/
structure HostWrite where
  address : Nat
  bytes : List Byte
  deriving DecidableEq, Repr

/-- A run of host-memory addresses. -/
structure Span where
  first : Nat
  length : Nat
  deriving DecidableEq, Repr

/-- What the world did since the command before, carried by every command (DESIGN CHOICE, log entries 1, 3 and 8).
`elapsed` is the part time passed in microseconds; `hostWrites` are the host's writes into its memory, oldest first;
`badReads` are the host-memory addresses whose reads the link completes with an error during this command (R86);
`laneOrder`, `sinkOrder` and `directFirst` settle, for this command, the orders the manual leaves open. -/
structure Ambient where
  elapsed : Nat
  hostWrites : List HostWrite
  badReads : List Span
  laneOrder : List Lane
  sinkOrder : List Sink
  directFirst : Bool
  deriving DecidableEq, Repr

/-- The content of one IMU reading: three gyro rates and three accelerations, signed 16-bit (section 1.4). -/
structure Sample where
  gx : BitVec 16
  gy : BitVec 16
  gz : BitVec 16
  ax : BitVec 16
  ay : BitVec 16
  az : BitVec 16
  deriving DecidableEq, Repr

/-- One ADC measurement (R160). `ibat` and the temperatures are signed. -/
structure Measurement where
  vbat : BitVec 16
  ibat : BitVec 16
  vin : BitVec 16
  iin : BitVec 16
  temp : BitVec 16
  die : BitVec 16
  deriving DecidableEq, Repr

/-- The two path switches (section 10.1). -/
inductive Switch where
  | inSw
  | batSw
  deriving DecidableEq, Repr

/-- The commands: one constructor per row of the table. A frame command carries out the frame its lane has in hand
(log entry 2), whose fields the lane read from host memory when it took the frame (R84). -/
inductive Instr where
  | powerOnReset (a : Ambient) (levels : BitVec 4)
  | brownoutReset (a : Ambient)
  | brownoutRelease (a : Ambient)
  | linkDown (a : Ambient)
  | linkReset (a : Ambient) (alsoStart : Bool)
  | start (a : Ambient)
  | anchorReadComplete (a : Ambient)
  | nudge (a : Ambient)
  | causeWrite (a : Ambient) (value : Word)
  | causeMaskWrite (a : Ambient) (value : Word)
  | registerWrite (a : Ambient) (offset : Nat) (width : Nat) (value : Word)
  | scanTick (a : Ambient)
  | statusRefresh (a : Ambient)
  | motionSetup (a : Ambient)
  | reference (a : Ambient)
  | exposure (a : Ambient)
  | statusAck (a : Ambient)
  | route (a : Ambient)
  | lineSetup (a : Ambient)
  | timerSetup (a : Ambient)
  | outputWrite (a : Ambient)
  | clipOpen (a : Ambient)
  | clipClose (a : Ambient)
  | chunk (a : Ambient)
  | cardAttach (a : Ambient)
  | cardRead (a : Ambient)
  | cardWrite (a : Ambient)
  | extentAdd (a : Ambient)
  | extentWithdraw (a : Ambient)
  | protect (a : Ambient)
  | chargeSetup (a : Ambient)
  | inputLimit (a : Ambient)
  | loadClass (a : Ambient)
  | pathSet (a : Ambient)
  | powerState (a : Ambient)
  | resume (a : Ambient)
  | abandon (a : Ambient)
  | dataReadyEdge (a : Ambient)
  | sampleReadComplete (a : Ambient) (sample : Sample)
  | imuSettleEnd (a : Ambient)
  | lossDeadline (a : Ambient)
  | lostPowerOffEnd (a : Ambient)
  | runningOneSecond (a : Ambient)
  | inputLineEdge (a : Ambient) (line : Fin 4) (level : Bool)
  | timerExpiry (a : Ambient) (timer : Fin 4)
  | extrapolationDeadline (a : Ambient)
  | chunkCopyComplete (a : Ambient)
  | chunkPieceReadError (a : Ambient) (good : Nat)
  | cardDetectChange (a : Ambient)
  | attachComplete (a : Ambient) (capacity : Word) (usable : Bool)
  | attachTimeout (a : Ambient)
  | cardProgramming (a : Ambient)
  | cardWriteAccepted (a : Ambient)
  | cardWriteError (a : Ambient)
  | cardBusyTimeout (a : Ambient)
  | rawBufferReadComplete (a : Ambient)
  | rawReadComplete (a : Ambient) (ok : Bool) (data : List Host.Cell)
  | graceExpiry (a : Ambient)
  | drainEnd (a : Ambient)
  | measurement (a : Ambient) (values : Measurement)
  | periodicEvaluation (a : Ambient)
  | safetyTimerLimit (a : Ambient)
  | switchConfirm (a : Ambient) (switch : Switch)
  | switchConfirmTimeout (a : Ambient)
  | vinCollapse (a : Ambient)
  deriving DecidableEq, Repr

/-- The outside world's part of a command. -/
def Instr.ambient : Instr → Ambient
  | .powerOnReset a _ | .brownoutReset a | .brownoutRelease a | .linkDown a | .linkReset a _ | .start a
  | .anchorReadComplete a | .nudge a | .causeWrite a _ | .causeMaskWrite a _ | .registerWrite a _ _ _ | .scanTick a
  | .statusRefresh a | .motionSetup a | .reference a | .exposure a | .statusAck a | .route a | .lineSetup a
  | .timerSetup a | .outputWrite a | .clipOpen a | .clipClose a | .chunk a | .cardAttach a | .cardRead a
  | .cardWrite a | .extentAdd a | .extentWithdraw a | .protect a | .chargeSetup a | .inputLimit a | .loadClass a
  | .pathSet a | .powerState a | .resume a | .abandon a | .dataReadyEdge a | .sampleReadComplete a _
  | .imuSettleEnd a | .lossDeadline a | .lostPowerOffEnd a | .runningOneSecond a | .inputLineEdge a _ _
  | .timerExpiry a _ | .extrapolationDeadline a | .chunkCopyComplete a | .chunkPieceReadError a _
  | .cardDetectChange a | .attachComplete a _ _ | .attachTimeout a | .cardProgramming a | .cardWriteAccepted a
  | .cardWriteError a | .cardBusyTimeout a | .rawBufferReadComplete a | .rawReadComplete a _ _ | .graceExpiry a
  | .drainEnd a | .measurement a _ | .periodicEvaluation a | .safetyTimerLimit a | .switchConfirm a _
  | .switchConfirmTimeout a | .vinCollapse a => a

end Sys2Proof
end

