-- ==== Sys2Proof/Decode.lean ====
section
/-! DEFINITION. The commands that words spell: none, for no row of spec/opcode_table.json has bits. -/

namespace Sys2Proof

/-- The command that a word spells by the table's bits. A command of this block is a write of a register, the carrying
out of a frame, or an event; every row of the table has an empty field list, so no word spells any of them. -/
def decodeTableWord (_nbits _w : Nat) : Option Instr := none

end Sys2Proof
end

