-- ==== Sys2Proof/Config.lean ====
section
/-! DEFINITION. The fixed numbers of the manual (section 0.6 and the rules named below), the free values, and the three bounds of the model. -/

namespace Sys2Proof.Config

/-- History ring entries (R12). -/
def ringSize : Nat := 64
/-- Largest dt, and largest extrapolation, in microseconds (R9, R29). -/
def maxDt : Nat := 4095
/-- IMU settle time (R4). -/
def settleTime : Nat := 50000
/-- IMU power-off time in LOST (R5). -/
def lostTime : Nat := 10000
/-- The run that clears the restart count (R5). -/
def steadyRun : Nat := 1000000
/-- Nominal period at 100 Hz (R16). -/
def parkedPeriod : Nat := 10000
/-- Reach of SHOCK_HIGH and QUIET_LOW (R13). -/
def maxProxy : Nat := 98304
/-- Bytes of a pack (R108). -/
def packBytes : Nat := 65536
/-- Blocks of a pack (section 0.6). -/
def packBlocks : Nat := 128
/-- Pending card writes (R124). -/
def maxWrites : Nat := 3
/-- Motion-unit queue (R111). -/
def unitQueue : Nat := 4
/-- Extent pool (R142). -/
def poolSize : Nat := 64
/-- Segment table (section 8.2). -/
def tableSize : Nat := 16
/-- Extents of one segment (R147). -/
def segExtents : Nat := 8
/-- Incidents listed in one segment (R153). -/
def segIncidents : Nat := 8
/-- Protected segments (R154). -/
def maxProtected : Nat := 8
/-- Internal report queue (R158). -/
def reportQueue : Nat := 8
/-- Card busy limit (R126). -/
def busyLimit : Nat := 500000
/-- Attach limit (R123). -/
def attachLimit : Nat := 1000000
/-- Time a card-detect level must hold (R122). -/
def detectTime : Nat := 10000
/-- Grace of a card record (R138). -/
def graceTime : Nat := 2000000
/-- Switch confirmation limit (R180). -/
def confirmTime : Nat := 2000
/-- Measurement period (R160). -/
def measurePeriod : Nat := 10000
/-- Periodic evaluation period (R167). -/
def evalPeriod : Nat := 100000
/-- Status refresh period (R92). -/
def refreshPeriod : Nat := 100000
/-- The fault area in use is at most this large (R81). -/
def faultAreaMax : Nat := 4096
/-- Precharge timer limit in seconds (R173). -/
def prechargeLimit : Nat := 1800
/-- Droop level of the input (R172). -/
def vinMin : Nat := 4400

/-! ## Free values -/

/-- The value half of a NARROW result word when the result value does not fit it: the manual gives none (log entry 18). -/
opaque narrowValue : Nat → BitVec 16
/-- Whether a record carries OVERRUN, by its frame number, while the part has no consumed copy: the manual does not say (log
entry 20). -/
opaque overrunUncopied : BitVec 32 → Bool
/-- Whether the report ring has room, by the write count, while the part has no copy of the read count: the manual does not say
(log entry 20). -/
opaque roomUncopied : BitVec 32 → Bool
/-- Whether a FAILED port stays FAILED at an entry to SLEEP, as R6 has it, or becomes OFF, as R17 has it: nothing settles it (log
entry 50). -/
opaque failedInSleep : Bool

/-! ## Bounds of the model -/

/-- DESIGN CHOICE (log entry 7): how deep a chain of events is delivered at once. -/
def eventDepth : Nat := 12
/-- DESIGN CHOICE (log entry 7): how many pieces of block work one command carries on. -/
def settleBound : Nat := 400
/-- DESIGN CHOICE (log entry 7): how many frames of one chain one command follows beyond eight for each listed byte of host
memory. -/
def chainBound : Nat := 64

end Sys2Proof.Config
end

