-- ==== Sys2Proof/Machine/State.lean ====
section
/-! DEFINITION. The state of the Esharo 540 as plain data, block by block, and the state right after power-on reset. -/

namespace Sys2Proof.Machine

/-- Sparse bytes: cells by strictly rising address, none of them 0; an unlisted byte reads 0 (DESIGN CHOICE, log entry 5). -/
abbrev Mem := List Host.Cell

/-! ## Exchange engine (chapter 5) -/

/-- Exchange states (R78). -/
inductive XState where
  | off
  | running
  | anchorBad
  | stopped
  deriving DecidableEq, Repr

/-- The anchor check of PART_STATE (R79, R80). -/
inductive AnchorCheck where
  | none
  | zeroAddress
  | readError
  | version
  | laneAddress
  | form
  | warpSlots
  | reportEntries
  | faultArea
  deriving DecidableEq, Repr

/-- The two forms of a frame (R83). -/
inductive Form where
  | narrow
  | wide
  deriving DecidableEq, Repr

/-- One lane descriptor as the host wrote it (section 5.2). -/
structure LaneDesc where
  first : Nat
  form : Form
  notifyAll : Bool
  deriving DecidableEq, Repr

/-- The engine's copy of the descriptors (R81). `faultSize` is the size in use. -/
structure AnchorCopy where
  base : Nat
  scanPeriod : Nat
  control : LaneDesc
  chunk : LaneDesc
  recovery : LaneDesc
  warpBase : Nat
  warpSlots : Nat
  reportBase : Nat
  reportEntries : Nat
  faultTop : Nat
  faultSize : Nat
  deriving DecidableEq, Repr

/-- The fields of MOTION_SETUP as read (section 11.3). -/
structure MotionFields where
  rate : Nat
  fullScale : Nat
  q : Nat
  bands : Nat
  axes : Axes Nat
  signs : Axes Nat
  shifts : Axes Nat
  alert : BitVec 16
  shockHigh : Nat
  quietLow : Nat
  gain : Nat
  focal : Nat
  mx : Nat
  my : Nat
  rl : Nat
  readout : Nat
  deriving DecidableEq, Repr

/-- The fields of CLIP_OPEN as read. -/
structure ClipFields where
  number : Word
  streams : BitVec 8
  loop : Bool
  watermark : Nat
  duration : Nat
  pre : Nat
  post : Nat
  deriving DecidableEq, Repr

/-- One entry of a CHUNK frame's piece list. -/
structure Piece where
  address : Nat
  length : Nat
  deriving DecidableEq, Repr

/-- The fields of CHUNK as read; the pieces are those the piece count names, at most 4. -/
structure ChunkFields where
  stream : Nat
  flags : Byte
  count : Nat
  time : Time
  pieces : List Piece
  deriving DecidableEq, Repr

/-- The charge profile (R174). -/
structure Profile where
  vreg : Nat
  ichgMax : Nat
  iterm : Nat
  fastLimit : Nat
  lcard : Nat
  baseActive : Nat
  baseParked : Nat
  baseSleep : Nat
  classes : Four Nat
  deriving DecidableEq, Repr

/-- A frame's body by format (section 11.3), every field as the part reads it. -/
inductive Body where
  | motionSetup (m : MotionFields)
  | reference (values : Axes Angle)
  | exposure (us : Nat)
  | statusAck
  | route (sink : Nat) (number : BitVec 16)
  | lineSetup (line : Nat) (rise fall : Bool) (holdoff : Nat)
  | timerSetup (timer mode run period : Nat)
  | outputWrite (drives : Four Nat) (present : Bool) (sets clears : Byte)
  | clipOpen (c : ClipFields)
  | clipClose
  | chunk (c : ChunkFields)
  | cardAttach
  | cardRead (first count address : Nat)
  | cardWrite (first count address : Nat)
  | extentAdd (first count : Nat)
  | extentWithdraw (first : Nat)
  | protect (serial : Word) (action : Nat)
  | chargeSetup (p : Profile) (clear : Bool)
  | inputLimit (ma : Nat)
  | loadClass (c : Nat)
  | pathSet (mode : Nat)
  | powerState (target : Nat)
  | resume
  | abandon
  deriving DecidableEq, Repr

/-- A frame taken and not finished (R84). `started` is set once its owner carries it out and it waits for its end. -/
structure Taken where
  address : Nat
  form : Form
  notify : Bool
  tag : BitVec 16
  code : BitVec 16
  body : Body
  started : Bool
  deriving DecidableEq, Repr

/-- Where a lane stands in its chain: at the link of its last finished frame (with that frame's form, format code and tag), or
before a frame still to be taken (R86, R88). -/
inductive Place where
  | nowhere
  | link (frame : Nat) (form : Form) (code tag : BitVec 16)
  | take (frame : Nat)
  deriving DecidableEq, Repr

/-- A frame that a format-1 record with point FRAME holds, with what finishing it needs (R96, R100). -/
structure HeldFrame where
  address : Nat
  form : Form
  notify : Bool
  code : BitVec 16
  tag : BitVec 16
  deriving DecidableEq, Repr

/-- One lane of the engine. `retake` is the waiting step of R96: the held frame to take again at the last release. -/
structure LaneSt where
  hand : Option Taken
  place : Place
  held : Option HeldFrame
  retake : Option Nat
  retire : Nat
  taken : Word
  deriving DecidableEq, Repr

/-- The point of a frame fault (R96). -/
inductive Point where
  | frame
  | link
  deriving DecidableEq, Repr

/-- The reason of a frame fault (R96). -/
inductive FrameReason where
  | unknownFormat
  | fetchError
  | dataError
  deriving DecidableEq, Repr

/-- The outcome of a card transfer (chapter 7). -/
inductive CardOutcome where
  | accepted
  | writeError
  | timeout
  | removed
  deriving DecidableEq, Repr

/-- What a card write carries: a pack buffer or the tail buffer (R124). -/
inductive Source where
  | buf (n : Fin 4)
  | tail
  deriving DecidableEq, Repr

/-- The continuation of a card record (section 7.5). -/
inductive Continuation where
  | retry
  | nextExtent
  | close
  deriving DecidableEq, Repr

/-- One write entry of a card record. -/
structure RecEntry where
  valid : Bool
  source : Source
  block : Nat
  count : Nat
  deriving DecidableEq, Repr

/-- The internal copy of one fault record (R94): formats 1 (R96), 2 (section 7.5) and 3 (R98). A record of format 2 holds
one to three entries; the entries it lacks have no write behind them. -/
inductive FaultRec where
  | frame (lane : Lane) (point : Point) (address : Nat) (code tag : BitVec 16) (reason : FrameReason) (time : Time)
  | card (reason : CardOutcome) (block : Nat) (serial clip : Word) (entries : List RecEntry) (cont : Continuation)
      (live : Bool) (time : Time)
  | record (codeWas3 : Bool) (code : BitVec 16) (depth : Nat) (address : Nat) (time : Time)
  deriving DecidableEq, Repr

/-- The exchange engine, and the host memory it works in. -/
structure Exchange where
  anchorLow : Word
  anchorHigh : Word
  state : XState
  check : AnchorCheck
  starting : Option Nat
  cause : BitVec 9
  mask : BitVec 9
  anchor : Option AnchorCopy
  consumed : Option Word
  readCopy : Option Word
  writeCount : Word
  control : LaneSt
  chunk : LaneSt
  recovery : LaneSt
  stack : List FaultRec
  nextScan : Option Time
  nextRefresh : Option Time
  refreshCount : Word
  recErrors : Word
  linkUp : Bool
  messages : Nat
  refreshAsked : Bool
  mem : Mem
  badReads : List Span
  deriving DecidableEq, Repr

/-! ## Motion front end (chapter 1) -/

/-- IMU port states (section 1.2). -/
inductive PortState where
  | off
  | starting
  | running
  | lost
  | failed
  deriving DecidableEq, Repr

/-- Rate codes (R7). -/
inductive Rate where
  | hz400
  | hz800
  | hz1600
  | hz3200
  deriving DecidableEq, Repr

/-- One entry of the history ring (section 1.5). -/
structure RingEntry where
  time : Time
  dt : Nat
  gx : BitVec 16
  gy : BitVec 16
  gz : BitVec 16
  angles : Axes Angle
  gap : Bool
  clipX : Bool
  clipY : Bool
  clipZ : Bool
  deriving DecidableEq, Repr

/-- The motion front end. `dps2000` is full-scale code 1; `parked` says that 100 Hz is programmed (R16). -/
structure Motion where
  port : PortState
  imuPower : Bool
  restarts : Nat
  rate : Rate
  dps2000 : Bool
  parked : Bool
  settleEnd : Option Time
  offEnd : Option Time
  runEntry : Time
  lossDeadline : Option Time
  prev : Option Time
  average : Nat
  reading : Option Time
  waiting : Option Time
  ring : List RingEntry
  samples : Word
  gaps : Word
  clipped : Word
  losses : Word
  armed : Bool
  quiet : Nat
  shockTime : Time
  shockPeak : Nat
  shockHigh : Nat
  quietLow : Nat
  q : Nat
  deriving DecidableEq, Repr

/-! ## Path unit (chapters 2 and 3) -/

/-- A gyro axis of the mount map (section 2.2). -/
inductive GyroAxis where
  | x
  | y
  | z
  deriving DecidableEq, Repr

/-- One entry of the mount map. -/
structure MapEntry where
  axis : GyroAxis
  minus : Bool
  deriving DecidableEq, Repr

/-- The times and marks an entry gains when it becomes ENDED (R47, R48). -/
structure Ending where
  stop : Time
  bands : List Time
  centre : Time
  deadline : Time
  noMotion : Bool
  deriving DecidableEq, Repr

/-- A pending video frame (section 3.1). It is OPEN while `ended` is none. -/
structure VFrame where
  number : Word
  start : Time
  ended : Option Ending
  assumed : Bool
  exposure : Nat
  bands : Nat
  readout : Nat
  shifts : Axes Nat
  focal : Nat
  mx : Nat
  my : Nat
  rl : Nat
  alert : BitVec 10
  recentre : Option (Axes Angle)
  ref : Option (Axes Angle)
  deriving DecidableEq, Repr

/-- The path unit. -/
structure Path where
  acc : Axes Angle
  swref : Axes Angle
  pendingRef : Option (Axes Angle)
  hwref : Axes Angle
  recentre : Bool
  smooth : Axes Angle
  accrued : BitVec 10
  recentred : Bool
  mount : Axes MapEntry
  gain : Nat
  shifts : Axes Nat
  focal : Nat
  mx : Nat
  my : Nat
  rl : Nat
  alert : BitVec 10
  bands : Nat
  readout : Nat
  exposure : Nat
  frames : List VFrame
  counter : Word
  overrun : Word
  stray : Word
  unpublished : Word
  forced : Word
  clipCount : Word
  deriving DecidableEq, Repr

/-- One band entry of a warp record (R53). -/
structure Band where
  yaw : Int
  pitch : Int
  roll : Int
  deriving DecidableEq, Repr

/-- A warp record (R53). `bands` holds the entries 0..B-1. -/
structure WarpRecord where
  number : Word
  flags : BitVec 10
  exposure : Nat
  start : Time
  stop : Time
  centre : Time
  span : Nat
  smooth : Axes Angle
  corrections : Band
  bands : List Band
  deriving DecidableEq, Repr

/-! ## Event router (chapter 4) -/

/-- The argument an event carries (section 4.1): a number, or a video frame's number with flags or axes. -/
inductive EvArg where
  | num (n : Int)
  | frame (number : Word) (bits : BitVec 10)
  deriving DecidableEq, Repr

/-- An emitted event (R60). -/
structure Event where
  number : BitVec 16
  time : Time
  arg : EvArg
  deriving DecidableEq, Repr

/-- The route table (R62). -/
structure Routes where
  frameStart : BitVec 16
  frameEnd : BitVec 16
  recentre : BitVec 16
  incident : BitVec 16
  cut : BitVec 16
  close : BitVec 16
  pause : BitVec 16
  resume : BitVec 16
  setLine : Four (BitVec 16)
  clearLine : Four (BitVec 16)
  wakeA : BitVec 16
  wakeB : BitVec 16
  deriving DecidableEq, Repr

/-- An input line (section 4.3). `since` is the time of its last change of level, which card detection reads (R122). -/
structure InLine where
  level : Bool
  rise : Bool
  fall : Bool
  holdoff : Nat
  lastRise : Option Time
  lastFall : Option Time
  suppressed : Word
  since : Time
  deriving DecidableEq, Repr

/-- A timer (section 4.4). It is RUNNING while it has a next expiry. -/
structure TimerSt where
  period : Nat
  periodic : Bool
  next : Option Time
  deriving DecidableEq, Repr

/-- An output line (section 4.5). -/
structure OutLine where
  high : Bool
  hostSet : Bool
  hostClear : Bool
  deriving DecidableEq, Repr

/-- The event router. -/
structure Router where
  routes : Routes
  lines : Four InLine
  timers : Four TimerSt
  outs : Four OutLine
  deriving DecidableEq, Repr

/-! ## Clip assembler (chapter 6) -/

/-- Writer states (section 6.1). -/
inductive WriterState where
  | idle
  | opened
  | closing
  deriving DecidableEq, Repr

/-- The unit streams (R194). -/
inductive Stream where
  | main
  | proxy
  | audio
  | motion
  | marker
  | filler
  deriving DecidableEq, Repr

/-- Close reasons (section 6.8). -/
inductive CloseReason where
  | none
  | host
  | closeSink
  | lowBattery
  | dieHot
  | storageFull
  | card
  deriving DecidableEq, Repr

/-- The tail's cut reasons (R115, R117). -/
inductive CutReason where
  | time
  | forced
  | host
  | extents
  | close
  deriving DecidableEq, Repr

/-- The open clip's settings (section 6.2), clamped. -/
structure ClipSet where
  number : Word
  streams : BitVec 4
  loop : Bool
  watermark : Nat
  duration : Nat
  pre : Nat
  post : Nat
  deriving DecidableEq, Repr

/-- Pack buffer states (R108). -/
inductive BufState where
  | empty
  | filling
  | queued
  | writing
  deriving DecidableEq, Repr

/-- A pack buffer. -/
structure Buf where
  st : BufState
  fill : Nat
  pos : Option Nat
  data : Mem
  deriving DecidableEq, Repr

/-- The tail buffer's states: EMPTY, built and waiting for the list, QUEUED, WRITING (R116). -/
inductive TailState where
  | empty
  | built
  | queued
  | writing
  deriving DecidableEq, Repr

/-- The tail buffer, with the position and the segment of the tail it holds. -/
structure TailBuf where
  st : TailState
  pos : Nat
  serial : Word
  data : Mem
  deriving DecidableEq, Repr

/-- A complete MOTION or MARKER unit without its sequence number (section 6.6). -/
structure QUnit where
  motion : Bool
  time : Time
  payload : List Byte
  deriving DecidableEq, Repr

/-- A run of bytes still to be placed into packs: given bytes, bytes read from host memory, or zeros. -/
inductive Src where
  | bytes (l : List Byte)
  | host (address length : Nat)
  | zeros (n : Nat)
  deriving DecidableEq, Repr

/-- How far the CHUNK frame being carried out has come (R114): checked; its cut decided or staging judged, so that it is to be
copied; being copied. -/
inductive JobStage where
  | arrived
  | judged
  | copying
  deriving DecidableEq, Repr

/-- The CHUNK frame being carried out. -/
structure ChunkJob where
  stream : Stream
  flags : Byte
  time : Time
  pieces : List Piece
  length : Nat
  seq : BitVec 16
  stage : JobStage
  deriving DecidableEq, Repr

/-- The steps of a cut (R116). -/
inductive CutStage where
  | place
  | queue
  | askClose
  | waitClose
  | handTail
  | askOpen
  | waitOpen
  deriving DecidableEq, Repr

/-- A cut in progress. `outer` is the time, forced or host cut whose step 1 an extent cut has come into: it goes on in the new
segment (R116). -/
structure Cut where
  reason : CutReason
  stage : CutStage
  outer : Option CutReason
  deriving DecidableEq, Repr

/-- The steps of a close (R119). -/
inductive CloseStage where
  | drain
  | queue
  | waitWrites
  | askTail
  | waitTail
  | handTail
  | waitTailWrite
  | finish
  deriving DecidableEq, Repr

/-- Who writes the tail of a close: the assembler; the card port under a CLOSE continuation (R135), where a failure makes a
fresh record; or the card port in a settlement or for ABANDON (R137, R139), where a failure closes the segment NO_TAIL. -/
inductive TailBy where
  | assembler
  | resumption
  | settlement
  deriving DecidableEq, Repr

/-- The open segment as the assembler knows it: serial, index in the clip, and the units whose header lies in it (R117). -/
structure SegInfo where
  serial : Word
  index : Nat
  counts : Six Word
  deriving DecidableEq, Repr

/-- The sequence numbers that a data error left for the retaken frame of each chunk stream (R107). -/
structure Repeats where
  main : Option (BitVec 16)
  proxy : Option (BitVec 16)
  audio : Option (BitVec 16)
  deriving DecidableEq, Repr

/-- The clip assembler. -/
structure Writer where
  state : WriterState
  clip : Option ClipSet
  reason : CloseReason
  gate : Bool
  cutRequest : Bool
  seqs : Six (BitVec 16)
  placed : Six Word
  chunksDropped : Word
  motionDropped : Word
  markersDropped : Word
  repeats : Repeats
  bufs : Four Buf
  tail : TailBuf
  queue : List QUnit
  feed : List Src
  job : Option ChunkJob
  cut : Option Cut
  closing : CloseStage
  tailBy : TailBy
  seg : Option SegInfo
  lastIndex : Nat
  deriving DecidableEq, Repr

/-! ## Card port (chapter 7) -/

/-- Card states (section 7.1). -/
inductive CardState where
  | absent
  | present
  | ready
  | writing
  | busy
  | failed
  deriving DecidableEq, Repr

/-- Attach results (section 7.1). -/
inductive AttachResult where
  | none
  | ok
  | noAnswer
  | unusable
  | removed
  deriving DecidableEq, Repr

/-- An entry of the pending-write list (R124), with the segment and clip its write belongs to, and the marks of a
resumption: `resumed` while it belongs to one (R132), `awaiting` while it waits for a new position (R134), `settling`
when its failure makes no record (R137, R139). -/
structure Entry where
  source : Source
  block : Nat
  count : Nat
  serial : Word
  clip : Word
  begun : Bool
  resumed : Bool
  awaiting : Bool
  settling : Bool
  deriving DecidableEq, Repr

/-- The raw slot (R128). `ready` says that the frame may claim the card. -/
structure RawJob where
  isWrite : Bool
  first : Nat
  count : Nat
  address : Nat
  ready : Bool
  inFlight : Bool
  data : Mem
  deriving DecidableEq, Repr

/-- The card port. `resumption` holds, while a RESUME frame waits for its resumption to end, whether it is a CLOSE. -/
structure Card where
  state : CardState
  attaching : Bool
  attachStart : Option Time
  attachResult : AttachResult
  capacity : Nat
  list : List Entry
  raw : Option RawJob
  busySince : Option Time
  draining : Bool
  drainSource : Option Source
  grace : Option Time
  resumption : Option Bool
  accepted : Word
  writeErrors : Word
  timeouts : Word
  removals : Word
  deriving DecidableEq, Repr

/-! ## Storage map (chapter 8) -/

/-- An extent: a run of card blocks (section 8.1). -/
structure Extent where
  first : Nat
  count : Nat
  deriving DecidableEq, Repr

/-- Segment phases (section 8.2). -/
inductive SegPhase where
  | opened
  | ending
  | complete
  deriving DecidableEq, Repr

/-- The owner of a protection (section 8.2). -/
inductive Owner where
  | incident (n : Word)
  | host
  deriving DecidableEq, Repr

/-- The tail of a segment (section 8.2). -/
inductive SegTail where
  | noneYet
  | pending (block : Nat)
  | written (block : Nat)
  | missing
  deriving DecidableEq, Repr

/-- A listed incident (section 8.2). -/
structure Incident where
  time : Time
  peak : Nat
  source : BitVec 16
  deriving DecidableEq, Repr

/-- An entry of the segment table (section 8.2). `timed` is set once a unit's time has been taken (R145). `returned` is the model's
own: a pack given back unused behind packs taken later, the next pack before `next` (R147, DESIGN CHOICE, log entry 76). -/
structure Seg where
  serial : Word
  clip : Word
  index : Nat
  phase : SegPhase
  owner : Option Owner
  start : Time
  stop : Time
  timed : Bool
  exts : List Extent
  next : Option Nat
  returned : Option Nat
  used : Nat
  unwritten : Nat
  tail : SegTail
  incidents : List Incident
  incidentCount : Word
  loop : Bool
  deriving DecidableEq, Repr

/-- The content of a report (section 11.6). -/
inductive ReportBody where
  | segmentOpened (serial clip : Word) (index : Nat) (position : Nat) (owner : Option Owner) (partialMark : Bool)
  | segmentClosed (serial clip : Word) (index : Nat) (start stop : Time) (used unwritten tail : Nat) (noTail : Bool)
      (incidents : Word) (exts : List Extent)
  | segmentReleased (serial clip : Word) (index : Nat) (exts : List Extent)
  | incident (number : Word) (time : Time) (peak : Nat) (source : BitVec 16) (serial : Word) (count : Nat)
      (until_ : Option Time) (partialMark : Bool)
  | storageLow (free watermark : Nat)
  | storageFull (clip : Word) (free : Nat)
  | clipClosed (clip : Word) (reason : CloseReason) (placed : Six Word) (chunks motion markers : Word)
  | badExtent (serial : Word) (first count : Nat)
  | chargerFault (reason : Nat) (timer : Nat) (left : Nat) (m : Measurement) (vreg veff precharge fast : Nat)
  deriving DecidableEq, Repr

/-- A report with the part time at which it was made. -/
structure Report where
  time : Time
  body : ReportBody
  deriving DecidableEq, Repr

/-- The producers of R158. -/
inductive Producer where
  | segment
  | incident
  | level
  | clip
  | charger
  deriving DecidableEq, Repr

/-- A report in a producer's waiting place. The place of segment work holds no made report: the work makes it when the
queue has room (DESIGN CHOICE, log entry 15). -/
inductive Waiting where
  | segmentWork
  | held (p : Producer) (r : Report)
  deriving DecidableEq, Repr

/-- A matter asked of the storage map and not yet answered; matters are answered in the order asked (R158). A removal is `asked` while
the resumption that asks it stands, and then re-places the record's entries (R150). A re-placement is `settled` when it is asked for a
tail that a CLOSE settles (R135), and `first` when it is asked for entry 1 of the record. -/
inductive Matter where
  | opening (serial clip : Word) (index : Nat)
  | position (b : Fin 4)
  | closing (forCut : Bool) (noTail : Bool)
  | closed (serial : Word)
  | removal (serial : Word) (block : Nat) (asked : Bool)
  | replace (source : Source) (settled first : Bool)
  | replaceFilling (b : Fin 4)
  deriving DecidableEq, Repr

/-- The loop settings (section 8.3). -/
structure LoopSet where
  loop : Bool
  pre : Nat
  post : Nat
  watermark : Nat
  deriving DecidableEq, Repr

/-- The storage map. `openIncidents`, `openIncidentCount` and `openMark` belong to a segment whose opening has been asked
for and not completed (R153). -/
structure Store where
  pool : List Extent
  table : List Seg
  nextSerial : Word
  nextIncident : Word
  protectUntil : Option Time
  untilOwner : Option Word
  loops : LoopSet
  lowArmed : Bool
  queue : List Report
  waiting : List Waiting
  lost : Word
  matters : List Matter
  openIncidents : List Incident
  openIncidentCount : Word
  openMark : Option Word
  deriving DecidableEq, Repr

/-! ## Charger (chapter 9) -/

/-- Pause reasons in their order of precedence (R164). -/
inductive PauseReason where
  | host
  | path
  | dieHot
  | hot
  | cold
  | budget
  deriving DecidableEq, Repr

/-- Fault reasons of the charger (R165). -/
inductive FaultReason where
  | timer
  | overvolt
  | thermistor
  deriving DecidableEq, Repr

/-- Charger states (section 9.2). -/
inductive ChState where
  | absent
  | qualify (count : Nat)
  | precharge
  | fast
  | taper
  | full
  | paused (r : PauseReason)
  | fault (r : FaultReason)
  deriving DecidableEq, Repr

/-- Thermal bands (R170). -/
inductive ThermalBand where
  | cold
  | cool
  | normal
  | warm
  | hot
  deriving DecidableEq, Repr

/-- The terms of the newest evaluation (R167, R168, R169). -/
structure Terms where
  lp : Nat
  lc : Nat
  lcard : Nat
  available : Nat
  budget : Nat
  phaseLimit : Nat
  cap : Nat
  computed : Nat
  deriving DecidableEq, Repr

/-- The charger. The safety timers count microseconds (log entry 38); `fresh` says that no measurement has been made since the
reset (R179). -/
structure Charger where
  meas : Measurement
  fresh : Bool
  state : ChState
  profile : Profile
  iinLimit : Nat
  limitGiven : Bool
  hostPause : Bool
  band : ThermalBand
  dieCap : Bool
  droop : Nat
  hold : Bool
  term : Nat
  prechargeUs : Nat
  fastUs : Nat
  driven : Nat
  terms : Terms
  nextMeasure : Time
  nextEval : Time
  deriving DecidableEq, Repr

/-! ## Supply manager (chapter 10) -/

/-- Path modes (section 10.1). -/
inductive PathMode where
  | normal
  | inputSuspend
  | batteryIsolate
  deriving DecidableEq, Repr

/-- Power states (section 10.3). -/
inductive PowerState where
  | active
  | parked
  | sleep
  deriving DecidableEq, Repr

/-- Wake reasons (R190). -/
inductive WakeReason where
  | none
  | button
  | inputAttach
  | shock
  | timer
  | routed
  deriving DecidableEq, Repr

/-- Reset causes (R79). -/
inductive ResetCause where
  | powerOn
  | brownout
  | link
  deriving DecidableEq, Repr

/-- What a change of switches under way is for: an attach (R180) or a change of path mode (R182). -/
inductive ChangeFor where
  | attach
  | mode (m : PathMode)
  deriving DecidableEq, Repr

/-- A change of switches under way: the switch driven closed and not yet confirmed, and the time limit of its confirmation. `owed`
says that the close of IN_SW which an attach in NORMAL calls for (R180) waits for the end of this change (log entry 25). -/
structure Change where
  goal : ChangeFor
  switch : Switch
  deadline : Time
  owed : Bool
  deriving DecidableEq, Repr

/-- The supply manager. `inSw` and `batSw` are true for CLOSED; `held` says that the brownout reset is held (R186); `entered`, the
model's own, is the part time of the newest entry to PARKED or SLEEP (R188, log entry 60). -/
structure Supply where
  inSw : Bool
  batSw : Bool
  mode : PathMode
  present : Bool
  change : Option Change
  loadClass : Nat
  lowBattery : Bool
  lowRun : Nat
  highRun : Nat
  shutArmed : Bool
  deepRun : Nat
  rearmRun : Nat
  dieHot : Bool
  switchFails : Word
  power : PowerState
  hostPower : Bool
  wake : WakeReason
  cause : ResetCause
  held : Bool
  entered : Option Time
  deriving DecidableEq, Repr

/-- The orders the current command's operand supplies where the manual leaves one open (DESIGN CHOICE, log entry 8). -/
structure Race where
  lanes : List Lane
  sinks : List Sink
  directFirst : Bool
  deriving DecidableEq, Repr

/-- The whole part, and the queue of commands that wait for it, first in, first out. `race`, `events` and `backlog` are the
model's own (log entries 7, 8, 10). -/
structure State where
  time : Time
  xchg : Exchange
  motion : Motion
  path : Path
  router : Router
  writer : Writer
  card : Card
  store : Store
  charger : Charger
  supply : Supply
  race : Race
  events : List Event
  backlog : List Event
  pending : List Instr
  deriving DecidableEq, Repr

/-- Why a step stops with a fault. Nothing raises one (safe): every command of the table has an effect in every state, and what the
manual calls a fault (frame, card, record and charger faults) is state. The constructor stands only because a closed type of
reasons is asked for. -/
inductive Fault where
  | unraised
  deriving DecidableEq, Repr

/-- Why a step is refused. -/
inductive Refusal where
  /-- `exec` raises it, in the arm of a command that has no meaning yet (safe); no arm does. -/
  | notModelled (mnemonic : String)
  deriving DecidableEq, Repr

/-! ## The values after power-on reset -/

/-- A lane with nothing in hand (R82). -/
def LaneSt.reset : LaneSt := { hand := none, place := .nowhere, held := none, retake := none, retire := 0, taken := 0 }

/-- R77, R79, R82, R90, R91; host memory with nothing listed (log entry 5). The link is up after a power-on reset (DESIGN CHOICE, log
entry 21). -/
def Exchange.reset : Exchange where
  anchorLow := 0
  anchorHigh := 0
  state := .off
  check := .none
  starting := none
  cause := 0
  mask := 0
  anchor := none
  consumed := none
  readCopy := none
  writeCount := 0
  control := .reset
  chunk := .reset
  recovery := .reset
  stack := []
  nextScan := none
  nextRefresh := none
  refreshCount := 0
  recErrors := 0
  linkUp := true
  messages := 0
  refreshAsked := false
  mem := []
  badReads := []

/-- R13, R19. -/
def Motion.reset : Motion where
  port := .off
  imuPower := false
  restarts := 0
  rate := .hz1600
  dps2000 := true
  parked := false
  settleEnd := none
  offEnd := none
  runEntry := 0
  lossDeadline := none
  prev := none
  average := 625
  reading := none
  waiting := none
  ring := []
  samples := 0
  gaps := 0
  clipped := 0
  losses := 0
  armed := true
  quiet := 0
  shockTime := 0
  shockPeak := 0
  shockHigh := 16384
  quietLow := 4096
  q := 64

/-- R41, R59. -/
def Path.reset : Path where
  acc := .all 0
  swref := .all 0
  pendingRef := none
  hwref := .all 0
  recentre := false
  smooth := .all 0
  accrued := 0
  recentred := false
  mount := { yaw := { axis := .z, minus := false }, pitch := { axis := .x, minus := false }, roll := { axis := .y, minus := false } }
  gain := 1171
  shifts := { yaw := 5, pitch := 5, roll := 4 }
  focal := 1600
  mx := 3072
  my := 1728
  rl := 1464097
  alert := 0
  bands := 8
  readout := 16000
  exposure := 0
  frames := []
  counter := 0
  overrun := 0
  stray := 0
  unpublished := 0
  forced := 0
  clipCount := 0

/-- The default routes (R62). -/
def Routes.default : Routes where
  frameStart := 0x0100
  frameEnd := 0x0101
  recentre := 0
  incident := 0x0300
  cut := 0
  close := 0
  pause := 0
  resume := 0
  setLine := .all 0
  clearLine := .all 0
  wakeA := 0x0105
  wakeB := 0

/-- An input line as reset leaves it (R76), at a given level. -/
def InLine.reset (level : Bool) (since : Time) : InLine :=
  { level, rise := true, fall := true, holdoff := 0, lastRise := none, lastFall := none, suppressed := 0, since }

/-- A timer as reset leaves it (R76). -/
def TimerSt.reset : TimerSt := { period := 1000000, periodic := false, next := none }

/-- R76, with all four input lines low (DESIGN CHOICE, log entry 34). -/
def Router.reset : Router where
  routes := .default
  lines := .all (.reset false 0)
  timers := .all .reset
  outs := .all { high := false, hostSet := false, hostClear := false }

/-- An EMPTY pack buffer. -/
def Buf.empty : Buf := { st := .empty, fill := 0, pos := none, data := [] }

/-- The EMPTY tail buffer. -/
def TailBuf.empty : TailBuf := { st := .empty, pos := 0, serial := 0, data := [] }

/-- No repeat sequence (R107). -/
def Repeats.empty : Repeats := { main := none, proxy := none, audio := none }

/-- R121. -/
def Writer.reset : Writer where
  state := .idle
  clip := none
  reason := .none
  gate := true
  cutRequest := false
  seqs := .all 0
  placed := .all 0
  chunksDropped := 0
  motionDropped := 0
  markersDropped := 0
  repeats := .empty
  bufs := .all .empty
  tail := .empty
  queue := []
  feed := []
  job := none
  cut := none
  closing := .drain
  tailBy := .assembler
  seg := none
  lastIndex := 0

/-- R141, with the card detected or not. -/
def Card.reset (detected : Bool) : Card where
  state := if detected then .present else .absent
  attaching := false
  attachStart := none
  attachResult := .none
  capacity := 0
  list := []
  raw := none
  busySince := none
  draining := false
  drainSource := none
  grace := none
  resumption := none
  accepted := 0
  writeErrors := 0
  timeouts := 0
  removals := 0

/-- R159. -/
def Store.reset : Store where
  pool := []
  table := []
  nextSerial := 1
  nextIncident := 1
  protectUntil := none
  untilOwner := none
  loops := { loop := false, pre := 0, post := 0, watermark := 0 }
  lowArmed := true
  queue := []
  waiting := []
  lost := 0
  matters := []
  openIncidents := []
  openIncidentCount := 0
  openMark := none

/-- The default charge profile (R174). -/
def Profile.default : Profile where
  vreg := 4200
  ichgMax := 1000
  iterm := 100
  fastLimit := 18000
  lcard := 300
  baseActive := 350
  baseParked := 40
  baseSleep := 10
  classes := { a0 := 0, a1 := 250, a2 := 450, a3 := 700 }

/-- R179. The newest measurement and the terms read 0 until the first is made (DESIGN CHOICE, log entry 9). -/
def Charger.reset : Charger where
  meas := { vbat := 0, ibat := 0, vin := 0, iin := 0, temp := 0, die := 0 }
  fresh := true
  state := .absent
  profile := .default
  iinLimit := 500
  limitGiven := false
  hostPause := false
  band := .normal
  dieCap := false
  droop := 0
  hold := false
  term := 0
  prechargeUs := 0
  fastUs := 0
  driven := 0
  terms := { lp := 0, lc := 0, lcard := 0, available := 0, budget := 0, phaseLimit := 0, cap := 0, computed := 0 }
  nextMeasure := 10000
  nextEval := 100000

/-- R192. -/
def Supply.reset (cause : ResetCause) : Supply where
  inSw := false
  batSw := true
  mode := .normal
  present := false
  change := none
  loadClass := 0
  lowBattery := false
  lowRun := 0
  highRun := 0
  shutArmed := true
  deepRun := 0
  rearmRun := 0
  dieHot := false
  switchFails := 0
  power := .active
  hostPower := true
  wake := .none
  cause
  held := false
  entered := none

/-- The part right after power-on reset, its queue empty (R2 and the reset rule of each chapter). -/
def State.reset : State where
  time := 0
  xchg := .reset
  motion := .reset
  path := .reset
  router := .reset
  writer := .reset
  card := .reset false
  store := .reset
  charger := .reset
  supply := .reset .powerOn
  race := { lanes := [], sinks := [], directFirst := true }
  events := []
  backlog := []
  pending := []

end Sys2Proof.Machine
end

