-- ==== Sys2Proof/Machine/Ops.lean ====
section
/-! DEFINITION. The shared operations: part time, sparse bytes, the state's blocks, the arrival of a command, and resets' parts. -/

namespace Sys2Proof.Machine

/-! ## Part time -/

/-- The microseconds from `t0` to `t`, modulo 2^48 (R3). -/
def timeSince (t t0 : Time) : Nat := (t - t0).toNat

/-- A part time `us` microseconds after `t`. -/
def timeAfter (t : Time) (us : Nat) : Time := t + BitVec.ofNat 48 us

/-- `t` lies at or after `t0`: the difference modulo 2^48 is below 2^47 (DESIGN CHOICE, log entry 3). -/
def timeReached (t t0 : Time) : Bool := decide (timeSince t t0 < 140737488355328)

/-- `t` lies later than `t0`. -/
def timeLater (t t0 : Time) : Bool := timeReached t t0 && t != t0

/-- A deadline stands and part time has reached it. -/
def dueAt (now : Time) (deadline : Option Time) : Bool :=
  match deadline with
  | none => false
  | some d => timeReached now d

/-! ## Signed fields -/

/-- The signed value of an angle difference (R20). -/
def angleInt (a : Angle) : Int := a.toInt

/-- The angle of an exact integer, modulo 2^32 (R20). -/
def angleOf (i : Int) : Angle := BitVec.ofInt 32 i

/-- A value held between two ends (R1, clamped). -/
def clampTo (lo hi x : Nat) : Nat := max lo (min hi x)

/-- A signed value held between two ends. -/
def clampInt (lo hi x : Int) : Int := max lo (min hi x)

/-! ## Sparse bytes -/

/-- The byte at an address; an unlisted one reads 0 (DESIGN CHOICE, log entry 5). -/
def memByte : Mem → Nat → Byte
  | [], _ => 0
  | (k, b) :: m, a => if k = a then b else memByte m a

/-- `n` bytes from an address upward. -/
def memBytes (m : Mem) (a : Nat) : Nat → List Byte
  | 0 => []
  | n + 1 => memByte m a :: memBytes m (a + 1) n

/-- The little-endian number of a list of bytes (11.1). -/
def leNat : List Byte → Nat
  | [] => 0
  | b :: l => b.toNat + 256 * leNat l

/-- A little-endian field of `n` bytes. -/
def memNat (m : Mem) (a n : Nat) : Nat := leNat (memBytes m a n)

/-- The cells of bytes laid from an address upward, less the zeros. -/
def memCells (a : Nat) : List Byte → Mem
  | [] => []
  | b :: l => if b = 0 then memCells (a + 1) l else (a, b) :: memCells (a + 1) l

/-- The `n` bytes from `a` replaced by a block of cells that lie among them. -/
def memSplice (m : Mem) (a n : Nat) (block : Mem) : Mem :=
  m.takeWhile (fun c => decide (c.1 < a)) ++ block ++ m.dropWhile (fun c => decide (c.1 < a + n))

/-- Bytes written from an address upward. -/
def memWrite (m : Mem) (a : Nat) (l : List Byte) : Mem := memSplice m a l.length (memCells a l)

/-- The cells of `n` bytes from `a`, moved to stand from `b` upward. -/
def memMove (m : Mem) (a n b : Nat) : Mem :=
  (m.filter (fun c => decide (a ≤ c.1) && decide (c.1 < a + n))).map (fun c => (c.1 - a + b, c.2))

/-- `n` bytes copied from `src` at `a` to `dst` at `b`. -/
def memCopy (dst : Mem) (b : Nat) (src : Mem) (a n : Nat) : Mem := memSplice dst b n (memMove src a n b)

/-- `n` bytes made zero. -/
def memZero (m : Mem) (a n : Nat) : Mem := memSplice m a n []

/-- Addresses strictly rising from a bound, no cell holding what an unlisted byte reads as. -/
def memWfFrom : Nat → Mem → Bool
  | _, [] => true
  | lo, (k, b) :: m => decide (lo ≤ k) && b != 0 && memWfFrom (k + 1) m

/-- The canonical form of sparse bytes. -/
def memWf (m : Mem) : Bool := memWfFrom 0 m

/-- A list of cells brought to the canonical form, a later cell winning over an earlier one. -/
def memOfCells (l : List Host.Cell) : Mem := l.foldl (fun m c => memWrite m c.1 [c.2]) []

/-- A little-endian field of `n` bytes of a number. -/
def leBytes : Nat → Nat → List Byte
  | 0, _ => []
  | n + 1, x => BitVec.ofNat 8 x :: leBytes n (x / 256)

/-- A little-endian two's-complement field of `n` bytes. -/
def leInt (n : Nat) (i : Int) : List Byte := leBytes n ((i % (256 : Int) ^ n).toNat)

/-- A flag's byte: 1 for set, 0 for clear. -/
def flagByte (b : Bool) : List Byte := [if b then 1 else 0]

/-- `n` zero bytes. -/
def zeroBytes (n : Nat) : List Byte := List.replicate n 0

/-! ## Choosing an open order -/

/-- `all` in the order a preference gives: its members first in their order, then the rest (log entry 8). -/
def arrange {α : Type} [DecidableEq α] (pref all : List α) : List α :=
  let chosen := (pref.filter (fun x => all.contains x)).dedup
  chosen ++ all.filter (fun x => !chosen.contains x)

/-! ## The blocks of the state -/

/-- The exchange engine changed, every other block left. -/
def State.onXchg (s : State) (f : Exchange → Exchange) : State := { s with xchg := f s.xchg }
/-- The motion front end changed, every other block left. -/
def State.onMotion (s : State) (f : Motion → Motion) : State := { s with motion := f s.motion }
/-- The path unit changed, every other block left. -/
def State.onPath (s : State) (f : Path → Path) : State := { s with path := f s.path }
/-- The router changed, every other block left. -/
def State.onRouter (s : State) (f : Router → Router) : State := { s with router := f s.router }
/-- The clip assembler changed, every other block left. -/
def State.onWriter (s : State) (f : Writer → Writer) : State := { s with writer := f s.writer }
/-- The card port changed, every other block left. -/
def State.onCard (s : State) (f : Card → Card) : State := { s with card := f s.card }
/-- The storage map changed, every other block left. -/
def State.onStore (s : State) (f : Store → Store) : State := { s with store := f s.store }
/-- The charger changed, every other block left. -/
def State.onCharger (s : State) (f : Charger → Charger) : State := { s with charger := f s.charger }
/-- The supply manager changed, every other block left. -/
def State.onSupply (s : State) (f : Supply → Supply) : State := { s with supply := f s.supply }

/-! ## The arrival of a command -/

/-- The host's writes reach its memory, oldest first. -/
def applyWrites (m : Mem) (ws : List HostWrite) : Mem :=
  ws.foldl (fun m w => memWrite m w.address w.bytes) m

/-- The safety timer that counts in the charger's state counts on (R173). -/
def Charger.pass (c : Charger) (us : Nat) : Charger :=
  match c.state with
  | .precharge => { c with prechargeUs := c.prechargeUs + us }
  | .fast => { c with fastUs := c.fastUs + us }
  | .taper => { c with fastUs := c.fastUs + us }
  | _ => c

/-- What a command brings before its own effect (log entries 1 and 3): part time has passed (R3), the counting safety timer
with it (R173), the host has written its memory, the link's failing reads and the open orders are known, and no event of
this command has been emitted yet. -/
def State.arrive (s : State) (a : Ambient) : State :=
  { s with
    time := timeAfter s.time a.elapsed
    xchg := { s.xchg with mem := applyWrites s.xchg.mem a.hostWrites, badReads := a.badReads, refreshAsked := false }
    charger := s.charger.pass a.elapsed
    race := { lanes := a.laneOrder, sinks := a.sinkOrder, directFirst := a.directFirst }
    events := [] }

/-- What a command brings while the brownout reset is held (R186, log entry 35): the host's writes reach its memory; the
part does nothing. -/
def State.arriveHeld (s : State) (a : Ambient) : State :=
  { s with xchg := { s.xchg with mem := applyWrites s.xchg.mem a.hostWrites }, events := [] }

/-- The form of every meaning: after the arrival the command's effect, or nothing while the brownout reset is held. -/
def perform (a : Ambient) (s : State) (effect : State → State) : Host.Outcome State Fault Refusal :=
  .next (if s.supply.held then s.arriveHeld a else effect (s.arrive a))

/-- A block asks for a refresh of the status block in this step (R92, log entry 11). -/
def State.askRefresh (s : State) : State := s.onXchg fun x => { x with refreshAsked := true }

/-- The camera is input-supplied: an input is present and IN_SW is CLOSED (section 10.1). -/
def Supply.supplied (u : Supply) : Bool := u.present && u.inSw

end Sys2Proof.Machine
end

