-- ==== Sys2Proof/Machine/Flags.lean ====
section
/-! DEFINITION. The flag words: the nine cause flags with their interrupt messages (R90, R91), the ten record flags (11.4), and the codes of results and statuses (11.3). -/

namespace Sys2Proof.Machine

/-! ## Cause flags (11.2) -/

/-- CONTROL_DONE. -/
def causeControlDone : BitVec 9 := 0x001
/-- CHUNK_DONE. -/
def causeChunkDone : BitVec 9 := 0x002
/-- RECOVERY_DONE. -/
def causeRecoveryDone : BitVec 9 := 0x004
/-- WARP. -/
def causeWarp : BitVec 9 := 0x008
/-- REPORT. -/
def causeReport : BitVec 9 := 0x010
/-- FAULT. -/
def causeFault : BitVec 9 := 0x020
/-- ALERT. -/
def causeAlert : BitVec 9 := 0x040
/-- SUPPLY. -/
def causeSupply : BitVec 9 := 0x080
/-- STOPPED. -/
def causeStopped : BitVec 9 := 0x100

/-- The flag a finished frame of the lane may set (R87). -/
def laneFlag : Lane → BitVec 9
  | .control => causeControlDone
  | .chunk => causeChunkDone
  | .recovery => causeRecoveryDone

/-- Request and write take flags only in these exchange states (R90, R92). -/
def XState.live (x : XState) : Bool := x == .running || x == .stopped

/-- One interrupt message, when the condition holds and the link is up (R91). -/
def Exchange.message (x : Exchange) (send : Bool) : Exchange :=
  if send && x.linkUp then { x with messages := x.messages + 1 } else x

/-- A block's request to set cause flags (R90), with at most one message (R91). It is taken in RUNNING and STOPPED; R185, which drops
the low-battery filter's own requests in STOPPED, stands at `State.lowSupplyFlag` (log entry 71). -/
def Exchange.request (x : Exchange) (flags : BitVec 9) : Exchange :=
  if x.state.live then
    { (x.message ((flags &&& ~~~x.cause &&& x.mask) != 0)) with cause := x.cause ||| flags }
  else x

/-- A host write to CAUSE clears each flag written 1 (R90). -/
def Exchange.clearCause (x : Exchange) (value : Word) : Exchange :=
  { x with cause := x.cause &&& ~~~(value.setWidth 9) }

/-- A host write to CAUSE_MASK replaces the nine mask bits, with at most one message (R91). -/
def Exchange.writeMask (x : Exchange) (value : Word) : Exchange :=
  { (x.message ((value.setWidth 9 &&& ~~~x.mask &&& x.cause) != 0)) with mask := value.setWidth 9 }

/-! ## Record flags (11.4) -/

/-- CLAMPED_X. -/
def flagClampedX : BitVec 10 := 0x001
/-- CLAMPED_Y. -/
def flagClampedY : BitVec 10 := 0x002
/-- CLAMPED_R. -/
def flagClampedR : BitVec 10 := 0x004
/-- GYRO_CLIPPED. -/
def flagGyroClipped : BitVec 10 := 0x008
/-- GAP. -/
def flagGap : BitVec 10 := 0x010
/-- EXTRAPOLATED. -/
def flagExtrapolated : BitVec 10 := 0x020
/-- HISTORY_SHORT. -/
def flagHistoryShort : BitVec 10 := 0x040
/-- END_ASSUMED. -/
def flagEndAssumed : BitVec 10 := 0x080
/-- NO_MOTION. -/
def flagNoMotion : BitVec 10 := 0x100
/-- OVERRUN. -/
def flagOverrun : BitVec 10 := 0x200

/-- A flag when its condition holds. -/
def flagIf (c : Bool) (f : BitVec 10) : BitVec 10 := if c then f else 0

/-! ## Statuses and result codes (11.3) -/

/-- How a frame is finished (section 0.5). -/
inductive Status where
  | done
  | refused
  | dropped
  | faulted
  deriving DecidableEq, Repr

/-- The status word's code. -/
def Status.code : Status → Nat
  | .done => 2
  | .refused => 3
  | .dropped => 4
  | .faulted => 5

/-- Results, in the order of their codes. -/
inductive Result where
  | ok
  | busy
  | badField
  | wrongLane
  | badFormat
  | selfRoute
  | masked
  | noClip
  | streamOff
  | closing
  | stagingFull
  | noCard
  | lowPower
  | noSpace
  | notOpen
  | faultPending
  | attaching
  | alreadyReady
  | outOfRange
  | overlap
  | cardError
  | refaulted
  | superseded
  | misaligned
  | poolFull
  | notFound
  | protectFull
  | cleared
  | lowBattery
  | noInput
  | switchFailed
  | inputLost
  | noChange
  | nothingPending
  | notResumable
  | badRecord
  | fetchError
  | unknownFormat
  | dataError
  deriving DecidableEq, Repr

/-- The result code: results are numbered from 0 in their order. -/
def Result.code : Result → Nat
  | .ok => 0
  | .busy => 1
  | .badField => 2
  | .wrongLane => 3
  | .badFormat => 4
  | .selfRoute => 5
  | .masked => 6
  | .noClip => 7
  | .streamOff => 8
  | .closing => 9
  | .stagingFull => 10
  | .noCard => 11
  | .lowPower => 12
  | .noSpace => 13
  | .notOpen => 14
  | .faultPending => 15
  | .attaching => 16
  | .alreadyReady => 17
  | .outOfRange => 18
  | .overlap => 19
  | .cardError => 20
  | .refaulted => 21
  | .superseded => 22
  | .misaligned => 23
  | .poolFull => 24
  | .notFound => 25
  | .protectFull => 26
  | .cleared => 27
  | .lowBattery => 28
  | .noInput => 29
  | .switchFailed => 30
  | .inputLost => 31
  | .noChange => 32
  | .nothingPending => 33
  | .notResumable => 34
  | .badRecord => 35
  | .fetchError => 36
  | .unknownFormat => 37
  | .dataError => 38

/-- The code of a card transfer's outcome where one is reported: ACCEPTED 0, WRITE_ERROR 1, TIMEOUT 2, REMOVED 3
(DESIGN CHOICE, log entry 45: the manual numbers only the three reasons of a fault record). -/
def CardOutcome.code : CardOutcome → Nat
  | .accepted => 0
  | .writeError => 1
  | .timeout => 2
  | .removed => 3

end Sys2Proof.Machine
end

