-- ==== Sys2Proof/Machine/Operands.lean ====
section
/-! DEFINITION. The operand forms: how a frame's head, link and body are read from host memory in its effective form (R83, 11.3), and the anchor's descriptors (11.2). -/

namespace Sys2Proof.Machine

/-- A read of `n` bytes from `a` completes without error: it meets none of the failing addresses (R86). A read of no bytes is
never made and cannot fail. -/
def readOk (bad : List Span) (a n : Nat) : Bool :=
  bad.all fun r => decide (a + n ≤ r.first) || decide (r.first + r.length ≤ a) || r.length == 0 || n == 0

/-- The bytes of a run of `n` from `a` that lie before the first failing address. -/
def goodBytes (bad : List Span) (a n : Nat) : Nat :=
  bad.foldl (fun k r => if r.length = 0 ∨ r.first + r.length ≤ a then k else min k (r.first - a)) n

/-- The reads of several fields of one structure, each an offset and a size, complete without error; the bytes between the
fields are reserved and are not read (R193). -/
def readsOk (bad : List Span) (base : Nat) (fields : List (Nat × Nat)) : Bool :=
  fields.all fun f => readOk bad (base + f.1) f.2

/-- The format codes (11.3). -/
inductive Format where
  | motionSetup
  | reference
  | exposure
  | statusAck
  | route
  | lineSetup
  | timerSetup
  | outputWrite
  | clipOpen
  | clipClose
  | chunk
  | cardAttach
  | cardRead
  | cardWrite
  | extentAdd
  | extentWithdraw
  | protect
  | chargeSetup
  | inputLimit
  | loadClass
  | pathSet
  | powerState
  | resume
  | abandon
  deriving DecidableEq, Repr

/-- The format a code names, if any (11.3). -/
def formatOf (code : BitVec 16) : Option Format :=
  match code.toNat with
  | 0x01 => some .motionSetup
  | 0x02 => some .reference
  | 0x03 => some .exposure
  | 0x04 => some .statusAck
  | 0x10 => some .route
  | 0x11 => some .lineSetup
  | 0x12 => some .timerSetup
  | 0x13 => some .outputWrite
  | 0x20 => some .clipOpen
  | 0x21 => some .clipClose
  | 0x22 => some .chunk
  | 0x30 => some .cardAttach
  | 0x31 => some .cardRead
  | 0x32 => some .cardWrite
  | 0x40 => some .extentAdd
  | 0x41 => some .extentWithdraw
  | 0x42 => some .protect
  | 0x50 => some .chargeSetup
  | 0x51 => some .inputLimit
  | 0x52 => some .loadClass
  | 0x60 => some .pathSet
  | 0x61 => some .powerState
  | 0x70 => some .resume
  | 0x71 => some .abandon
  | _ => none

/-- The lane a format belongs to (section 5.3). -/
def Format.lane : Format → Lane
  | .chunk => .chunk
  | .resume => .recovery
  | .abandon => .recovery
  | _ => .control

/-- The other form. -/
def Form.flip : Form → Form
  | .narrow => .wide
  | .wide => .narrow

/-- The effective form of a frame (R83): WIDE for RESUME and ABANDON, otherwise the default form, flipped by ALT. -/
def effectiveForm (dflt : Form) (alt : Bool) (code : BitVec 16) : Form :=
  match formatOf code with
  | some .resume => .wide
  | some .abandon => .wide
  | _ => if alt then dflt.flip else dflt

/-- The width in bytes of an address (R83). -/
def Form.addressBytes : Form → Nat
  | .narrow => 4
  | .wide => 8

/-- The width in bytes of a length (R83). -/
def Form.lengthBytes : Form → Nat
  | .narrow => 2
  | .wide => 4

/-- The bytes one piece of a CHUNK body takes (11.3). -/
def Form.pieceBytes : Form → Nat
  | .narrow => 8
  | .wide => 16

/-- The address a link word names: its low six bits are read as 0 (R83). -/
def linkAddress (word : Nat) : Nat := word / 64 * 64

/-- The fields of a frame's head: format, ALT and notify, host tag (11.3). -/
def headFields : List (Nat × Nat) := [(8, 2), (10, 1), (12, 2)]

/-- The fields of a body by format and form, neighbours taken together (11.3). -/
def Format.bodyFields (f : Format) (form : Form) : List (Nat × Nat) :=
  match f with
  | .motionSetup => [(24, 13), (38, 34)]
  | .reference => [(24, 12)]
  | .exposure => [(24, 4)]
  | .statusAck => []
  | .route => [(24, 1), (26, 2)]
  | .lineSetup => [(24, 3), (28, 2)]
  | .timerSetup => [(24, 3), (28, 4)]
  | .outputWrite => [(24, 7)]
  | .clipOpen => [(24, 20)]
  | .clipClose => []
  | .chunk => [(24, 3), (32, 8)] ++
      (List.range 4).map fun i => (40 + i * form.pieceBytes, form.addressBytes + form.lengthBytes)
  | .cardAttach => []
  | .cardRead => [(24, 8 + form.addressBytes)]
  | .cardWrite => [(24, 8 + form.addressBytes)]
  | .extentAdd => [(24, 8)]
  | .extentWithdraw => [(24, 4)]
  | .protect => [(24, 5)]
  | .chargeSetup => [(24, 27)]
  | .inputLimit => [(24, 2)]
  | .loadClass => [(24, 1)]
  | .pathSet => [(24, 1)]
  | .powerState => [(24, 1)]
  | .resume => []
  | .abandon => []

/-- A flag byte of a body is clear when it reads 0 and set otherwise (11.3). -/
def readFlag (m : Mem) (a : Nat) : Bool := memByte m a != 0

/-- The pieces of a CHUNK body from an offset on. -/
def readPieces (m : Mem) (form : Form) : Nat → Nat → List Piece
  | _, 0 => []
  | a, n + 1 =>
    { address := memNat m a form.addressBytes, length := memNat m (a + form.addressBytes) form.lengthBytes }
      :: readPieces m form (a + form.pieceBytes) n

/-- Three one-byte fields. -/
def readAxes (m : Mem) (a step : Nat) : Axes Nat :=
  { yaw := memNat m a 1, pitch := memNat m (a + step) 1, roll := memNat m (a + 2 * step) 1 }

/-- The body of the frame at `f`, by format and effective form (11.3). -/
def readBody (m : Mem) (f : Nat) (fmt : Format) (form : Form) : Body :=
  match fmt with
  | .motionSetup => .motionSetup
      { rate := memNat m (f + 24) 1
        fullScale := memNat m (f + 25) 1
        q := memNat m (f + 26) 1
        bands := memNat m (f + 27) 1
        axes := readAxes m (f + 28) 2
        signs := readAxes m (f + 29) 2
        shifts := readAxes m (f + 34) 1
        alert := BitVec.ofNat 16 (memNat m (f + 38) 2)
        shockHigh := memNat m (f + 40) 4
        quietLow := memNat m (f + 44) 4
        gain := memNat m (f + 48) 4
        focal := memNat m (f + 52) 4
        mx := memNat m (f + 56) 4
        my := memNat m (f + 60) 4
        rl := memNat m (f + 64) 4
        readout := memNat m (f + 68) 4 }
  | .reference => .reference
      { yaw := BitVec.ofNat 32 (memNat m (f + 24) 4)
        pitch := BitVec.ofNat 32 (memNat m (f + 28) 4)
        roll := BitVec.ofNat 32 (memNat m (f + 32) 4) }
  | .exposure => .exposure (memNat m (f + 24) 4)
  | .statusAck => .statusAck
  | .route => .route (memNat m (f + 24) 1) (BitVec.ofNat 16 (memNat m (f + 26) 2))
  | .lineSetup => .lineSetup (memNat m (f + 24) 1) (readFlag m (f + 25)) (readFlag m (f + 26)) (memNat m (f + 28) 2)
  | .timerSetup => .timerSetup (memNat m (f + 24) 1) (memNat m (f + 25) 1) (memNat m (f + 26) 1) (memNat m (f + 28) 4)
  | .outputWrite => .outputWrite
      { a0 := memNat m (f + 24) 1, a1 := memNat m (f + 25) 1, a2 := memNat m (f + 26) 1, a3 := memNat m (f + 27) 1 }
      (readFlag m (f + 28)) (memByte m (f + 29)) (memByte m (f + 30))
  | .clipOpen => .clipOpen
      { number := BitVec.ofNat 32 (memNat m (f + 24) 4)
        streams := memByte m (f + 28)
        loop := readFlag m (f + 29)
        watermark := memNat m (f + 30) 2
        duration := memNat m (f + 32) 4
        pre := memNat m (f + 36) 4
        post := memNat m (f + 40) 4 }
  | .clipClose => .clipClose
  | .chunk => .chunk
      { stream := memNat m (f + 24) 1
        flags := memByte m (f + 25)
        count := memNat m (f + 26) 1
        time := BitVec.ofNat 48 (memNat m (f + 32) 8)
        pieces := readPieces m form (f + 40) (min 4 (memNat m (f + 26) 1)) }
  | .cardAttach => .cardAttach
  | .cardRead => .cardRead (memNat m (f + 24) 4) (memNat m (f + 28) 4) (memNat m (f + 32) form.addressBytes)
  | .cardWrite => .cardWrite (memNat m (f + 24) 4) (memNat m (f + 28) 4) (memNat m (f + 32) form.addressBytes)
  | .extentAdd => .extentAdd (memNat m (f + 24) 4) (memNat m (f + 28) 4)
  | .extentWithdraw => .extentWithdraw (memNat m (f + 24) 4)
  | .protect => .protect (BitVec.ofNat 32 (memNat m (f + 24) 4)) (memNat m (f + 28) 1)
  | .chargeSetup => .chargeSetup
      { vreg := memNat m (f + 24) 2
        ichgMax := memNat m (f + 26) 2
        iterm := memNat m (f + 28) 2
        lcard := memNat m (f + 30) 2
        fastLimit := memNat m (f + 32) 4
        baseActive := memNat m (f + 36) 2
        baseParked := memNat m (f + 38) 2
        baseSleep := memNat m (f + 40) 2
        classes := { a0 := memNat m (f + 42) 2, a1 := memNat m (f + 44) 2,
                     a2 := memNat m (f + 46) 2, a3 := memNat m (f + 48) 2 } }
      (readFlag m (f + 50))
  | .inputLimit => .inputLimit (memNat m (f + 24) 2)
  | .loadClass => .loadClass (memNat m (f + 24) 1)
  | .pathSet => .pathSet (memNat m (f + 24) 1)
  | .powerState => .powerState (memNat m (f + 24) 1)
  | .resume => .resume
  | .abandon => .abandon

/-! ## The anchor (11.2) -/

/-- The offset of a lane's descriptor in the anchor. -/
def descOffset : Lane → Nat
  | .control => 0x10
  | .chunk => 0x30
  | .recovery => 0x50

/-- The fields of the descriptor part of the anchor, neighbours taken together (11.2). -/
def anchorFields : List (Nat × Nat) :=
  [(0x00, 8), (0x10, 11), (0x1C, 12), (0x30, 11), (0x3C, 12), (0x50, 11), (0x5C, 12), (0x70, 16), (0x80, 20), (0x98, 16)]

/-- A default-form code names NARROW 0 or WIDE 1. -/
def formOf : Nat → Option Form
  | 0 => some .narrow
  | 1 => some .wide
  | _ => none

/-- The scan period in use (R80): 0 for none, 65,535 for the default, every other value clamped. -/
def scanPeriodOf (p : Nat) : Nat :=
  if p = 0 then 0
  else if p = 65535 then 2000
  else clampTo 250 20000 p

/-- A first-frame address the check of R80 takes. -/
def laneAddressOk (a : Nat) : Bool := a != 0 && a % 64 == 0

/-- The checks of R80 in their order, over the anchor at `base`; the copy when none fails. -/
def checkAnchor (m : Mem) (bad : List Span) (base : Nat) : AnchorCheck ⊕ AnchorCopy :=
  let d (l : Lane) := base + descOffset l
  let first (l : Lane) := memNat m (d l) 8
  let form (l : Lane) := formOf (memNat m (d l + 8) 1)
  let all (l : Lane) := readFlag m (d l + 9)
  let slots := memNat m (base + 0x78) 4
  let entries := memNat m (base + 0x88) 4
  let area := memNat m (base + 0xA0) 4
  if base = 0 then .inl .zeroAddress
  else if !readsOk bad base anchorFields then .inl .readError
  else if memNat m base 4 ≠ 1 then .inl .version
  else if !(laneAddressOk (first .control) && laneAddressOk (first .chunk) && laneAddressOk (first .recovery)) then
    .inl .laneAddress
  else
    match form .control, form .chunk, form .recovery with
    | some fc, some fk, some fr =>
      if !(slots == 16 || slots == 32 || slots == 64) then .inl .warpSlots
      else if !(entries == 16 || entries == 32 || entries == 64 || entries == 128 || entries == 256) then
        .inl .reportEntries
      else if area < 512 then .inl .faultArea
      else .inr
        { base
          scanPeriod := scanPeriodOf (memNat m (base + 4) 4)
          control := { first := first .control, form := fc, notifyAll := all .control }
          chunk := { first := first .chunk, form := fk, notifyAll := all .chunk }
          recovery := { first := first .recovery, form := fr, notifyAll := all .recovery }
          warpBase := memNat m (base + 0x70) 8
          warpSlots := slots
          reportBase := memNat m (base + 0x80) 8
          reportEntries := entries
          faultTop := memNat m (base + 0x98) 8
          faultSize := min area Config.faultAreaMax }
    | _, _, _ => .inl .form

/-- A lane's descriptor in the copy. -/
def AnchorCopy.desc (a : AnchorCopy) : Lane → LaneDesc
  | .control => a.control
  | .chunk => a.chunk
  | .recovery => a.recovery

end Sys2Proof.Machine
end

