-- ==== Sys2Proof/Machine/Layout.lean ====
section
/-! DEFINITION. The byte layouts of the records the part writes into host memory and onto the card (11.4 to 11.6, R194), reserved bytes 0 (R193). -/

namespace Sys2Proof.Machine

/-- A bit vector as a little-endian field. -/
def leWord {w : Nat} (n : Nat) (v : BitVec w) : List Byte := leBytes n v.toNat

/-! ## Warp record (11.4) -/

/-- Bytes 0..59: the header, which opens with the head frame number. -/
def warpHeader (r : WarpRecord) : List Byte :=
  leWord 4 r.number ++ leWord 2 r.flags ++ leBytes 1 r.bands.length ++ leBytes 1 r.span
    ++ leWord 8 r.start ++ leWord 8 r.stop ++ leWord 8 r.centre ++ leBytes 4 r.exposure
    ++ leWord 4 r.smooth.yaw ++ leWord 4 r.smooth.pitch ++ leWord 4 r.smooth.roll
    ++ leInt 2 r.corrections.yaw ++ leInt 2 r.corrections.pitch ++ leInt 4 r.corrections.roll ++ zeroBytes 4

/-- Bytes 60..187: sixteen band entries, those beyond the band count 0 (R53). -/
def warpBands (r : WarpRecord) : List Byte :=
  ((r.bands ++ List.replicate (16 - r.bands.length) ({ yaw := 0, pitch := 0, roll := 0 } : Band)).take 16).flatMap
    fun (b : Band) => leInt 2 b.yaw ++ leInt 2 b.pitch ++ leInt 4 b.roll

/-- Bytes 188..191: the tail frame number. -/
def warpTail (r : WarpRecord) : List Byte := leWord 4 r.number

/-- The whole record, 192 bytes. -/
def warpBytes (r : WarpRecord) : List Byte := warpHeader r ++ warpBands r ++ warpTail r

/-! ## Fault records (11.5) -/

/-- The size of a record by its format (section 5.7). -/
def FaultRec.size : FaultRec → Nat
  | .frame .. => 32
  | .card .. => 96
  | .record .. => 32

/-- The code of a lane in a format-1 record. -/
def laneCode : Lane → Nat
  | .control => 0
  | .chunk => 1
  | .recovery => 2

/-- The code of a point. -/
def Point.code : Point → Nat
  | .frame => 0
  | .link => 1

/-- The code of a frame fault's reason. -/
def FrameReason.code : FrameReason → Nat
  | .unknownFormat => 0
  | .fetchError => 1
  | .dataError => 2

/-- The code of a card fault's reason: WRITE_ERROR 0, TIMEOUT 1, REMOVED 2. -/
def CardOutcome.reasonCode : CardOutcome → Nat
  | .accepted => 0
  | .writeError => 0
  | .timeout => 1
  | .removed => 2

/-- The continuation flags: bit 0 RETRY, bit 1 NEXT_EXTENT, bit 2 CLOSE. -/
def Continuation.code : Continuation → Nat
  | .retry => 1
  | .nextExtent => 2
  | .close => 4

/-- The code of a source: buffers 0..3, TAIL 4. -/
def Source.code : Source → Nat
  | .buf n => n.val
  | .tail => 4

/-- One entry of a format-2 record, 16 bytes; absent ones read 0. -/
def recEntryBytes : Option RecEntry → List Byte
  | none => zeroBytes 16
  | some e => flagByte e.valid ++ leBytes 1 e.source.code ++ zeroBytes 2 ++ leBytes 4 e.block ++ leBytes 4 e.count ++ zeroBytes 4

/-- A fault record's bytes (11.5). -/
def faultBytes : FaultRec → List Byte
  | .frame lane point address code tag reason time =>
      leBytes 1 1 ++ leBytes 1 (laneCode lane) ++ leBytes 1 point.code ++ leBytes 1 reason.code
        ++ leWord 2 code ++ leWord 2 tag ++ leBytes 8 address ++ leWord 8 time ++ zeroBytes 8
  | .card reason block serial clip entries cont live time =>
      leBytes 1 2 ++ leBytes 1 reason.reasonCode ++ leBytes 1 cont.code ++ flagByte (!live)
        ++ leWord 4 serial ++ leWord 4 clip ++ leBytes 4 block ++ leWord 8 time
        ++ recEntryBytes entries[0]? ++ recEntryBytes entries[1]? ++ recEntryBytes entries[2]? ++ zeroBytes 24
  | .record was3 code depth address time =>
      leBytes 1 3 ++ flagByte was3 ++ leWord 2 code ++ leBytes 4 depth ++ leBytes 8 address ++ leWord 8 time ++ zeroBytes 8

/-! ## Reports (11.6) -/

/-- The code of a close reason (R194). -/
def CloseReason.code : CloseReason → Nat
  | .none => 0
  | .host => 1
  | .closeSink => 2
  | .lowBattery => 3
  | .dieHot => 4
  | .storageFull => 5
  | .card => 6

/-- An extent list of up to eight entries, 64 bytes, unused entries 0. -/
def extentsBytes (l : List Extent) : List Byte :=
  ((l.take 8).flatMap fun e => leBytes 4 e.first ++ leBytes 4 e.count) ++ zeroBytes (64 - 8 * (l.take 8).length)

/-- The protection owner of a SEGMENT_OPENED report. -/
def ownerWord : Option Owner → Nat
  | none => 0
  | some (.incident n) => n.toNat
  | some .host => 0xFFFFFFFF

/-- Six 4-byte counts in stream code order. -/
def sixBytes (v : Six Word) : List Byte := v.toList.flatMap (leWord 4)

/-- A part time, 0 for none. -/
def optTime : Option Time → List Byte
  | none => zeroBytes 8
  | some t => leWord 8 t

/-- The kind of a report. -/
def ReportBody.kind : ReportBody → Nat
  | .segmentOpened .. => 1
  | .segmentClosed .. => 2
  | .segmentReleased .. => 3
  | .incident .. => 4
  | .storageLow .. => 5
  | .storageFull .. => 6
  | .clipClosed .. => 7
  | .badExtent .. => 8
  | .chargerFault .. => 9

/-- The marks of a report: bit 0 NO_TAIL, bit 1 PARTIAL. -/
def ReportBody.marks : ReportBody → Nat
  | .segmentOpened _ _ _ _ _ p => if p then 2 else 0
  | .segmentClosed _ _ _ _ _ _ _ _ n _ _ => if n then 1 else 0
  | .incident _ _ _ _ _ _ _ p => if p then 2 else 0
  | _ => 0

/-- The fields from offset 16 on. -/
def ReportBody.fields : ReportBody → List Byte
  | .segmentOpened serial clip index position owner _ =>
      leWord 4 serial ++ leWord 4 clip ++ leBytes 2 index ++ zeroBytes 2 ++ leBytes 4 position ++ leBytes 4 (ownerWord owner)
  | .segmentClosed serial clip index start stop used unwritten tail _ incidents exts =>
      leWord 4 serial ++ leWord 4 clip ++ leBytes 2 index ++ leBytes 1 exts.length ++ zeroBytes 1
        ++ leBytes 4 used ++ leBytes 4 unwritten ++ leBytes 4 tail ++ leWord 4 incidents ++ zeroBytes 4
        ++ leWord 8 start ++ leWord 8 stop ++ extentsBytes exts
  | .segmentReleased serial clip index exts =>
      leWord 4 serial ++ leWord 4 clip ++ leBytes 2 index ++ leBytes 1 exts.length ++ zeroBytes 37 ++ extentsBytes exts
  | .incident number time peak source serial count until_ _ =>
      leWord 4 number ++ leBytes 4 peak ++ leWord 8 time ++ leWord 4 serial ++ leWord 2 source ++ leBytes 1 count
        ++ zeroBytes 1 ++ optTime until_
  | .storageLow free watermark => leBytes 4 free ++ leBytes 4 watermark
  | .storageFull clip free => leWord 4 clip ++ leBytes 4 free
  | .clipClosed clip reason placed chunks motion markers =>
      leWord 4 clip ++ leBytes 1 reason.code ++ zeroBytes 3 ++ sixBytes placed
        ++ leWord 4 chunks ++ leWord 4 motion ++ leWord 4 markers
  | .badExtent serial first count => leWord 4 serial ++ leBytes 4 first ++ leBytes 4 count
  | .chargerFault reason timer left m vreg veff precharge fast =>
      leBytes 1 reason ++ leBytes 1 timer ++ leBytes 1 left ++ zeroBytes 1
        ++ leWord 2 m.vbat ++ leWord 2 m.ibat ++ leWord 2 m.vin ++ leWord 2 m.iin ++ leWord 2 m.temp ++ leWord 2 m.die
        ++ leBytes 2 vreg ++ leBytes 2 veff ++ leBytes 4 precharge ++ leBytes 4 fast

/-- A report entry's 128 bytes. -/
def reportBytes (r : Report) : List Byte :=
  let body := leBytes 2 r.body.kind ++ leBytes 2 r.body.marks ++ zeroBytes 4 ++ leWord 8 r.time ++ r.body.fields
  body ++ zeroBytes (128 - body.length)

/-! ## Units, segment heads and tails (R194) -/

/-- The code of a stream. -/
def Stream.code : Stream → Nat
  | .main => 0
  | .proxy => 1
  | .audio => 2
  | .motion => 3
  | .marker => 4
  | .filler => 5

/-- A unit header's 16 bytes. -/
def unitHeader (stream : Stream) (flags : Byte) (seq : BitVec 16) (length : Nat) (time : Time) : List Byte :=
  leBytes 1 stream.code ++ [flags] ++ leWord 2 seq ++ leBytes 4 length ++ leWord 8 time

/-- A MARKER payload's 20 bytes. -/
def markerPayload (time : Time) (peak : Nat) (serial : Word) (source : BitVec 16) : List Byte :=
  leWord 8 time ++ leBytes 4 peak ++ leWord 4 serial ++ leWord 2 source ++ zeroBytes 2

/-- A MOTION payload's 200 bytes: the record, the sample count and the clip count (R58). -/
def motionPayload (r : WarpRecord) (clipCount : Word) : List Byte :=
  warpBytes r ++ leBytes 4 r.span ++ leWord 4 clipCount

/-- A segment head's 512 bytes (R117). -/
def headBytes (clip serial : Word) (index : Nat) (streams : BitVec 4) (duration continuation : Nat) : List Byte :=
  leBytes 4 1 ++ leWord 4 clip ++ leWord 4 serial ++ leBytes 4 index ++ leWord 1 streams ++ zeroBytes 3
    ++ leBytes 4 duration ++ leBytes 4 continuation ++ zeroBytes 484

/-- The code of a cut reason (R194). -/
def CutReason.code : CutReason → Nat
  | .time => 0
  | .forced => 1
  | .host => 2
  | .extents => 3
  | .close => 4

/-- A tail block's 512 bytes (R117). -/
def tailBytes (clip serial : Word) (index : Nat) (cut : CutReason) (close : CloseReason) (packs : Nat)
    (counts : Six Word) (nexts : Six (BitVec 16)) (start stop : Time) : List Byte :=
  leBytes 4 2 ++ leWord 4 clip ++ leWord 4 serial ++ leBytes 4 index ++ leBytes 1 cut.code
    ++ leBytes 1 (if cut = .close then close.code else 0) ++ zeroBytes 2 ++ leBytes 4 packs
    ++ sixBytes counts ++ nexts.toList.flatMap (leWord 2) ++ zeroBytes 4
    ++ leWord 8 start ++ leWord 8 stop ++ zeroBytes 432

end Sys2Proof.Machine
end

