-- ==== Sys2Proof/Machine/Engine.lean ====
section
/-! DEFINITION. The exchange engine: the fault stack, taking, finishing, holding and releasing frames, following the chains (R81 to R89, R94 to R100). -/

namespace Sys2Proof.Machine

/-! ## Lanes and what the anchor shows of them -/

/-- The lane states of a descriptor (section 5.2). -/
inductive LaneState where
  | idle
  | running
  | held
  | stopped
  deriving DecidableEq, Repr

/-- The code of a lane state (11.2). -/
def LaneState.code : LaneState → Nat
  | .idle => 0
  | .running => 1
  | .held => 2
  | .stopped => 3

/-- One lane of the engine. -/
def Exchange.lane (x : Exchange) : Lane → LaneSt
  | .control => x.control
  | .chunk => x.chunk
  | .recovery => x.recovery

/-- The engine with one lane replaced. -/
def Exchange.setLane (x : Exchange) (l : Lane) (v : LaneSt) : Exchange :=
  match l with
  | .control => { x with control := v }
  | .chunk => { x with chunk := v }
  | .recovery => { x with recovery := v }

/-- The frame a lane has in hand. -/
def Exchange.hand (x : Exchange) (l : Lane) : Option Taken := (x.lane l).hand

/-- The bytes of the fault area occupied by records (R94). -/
def Exchange.depth (x : Exchange) : Nat := (x.stack.map FaultRec.size).sum

/-- A record holds a lane: format 1 its own, a LIVE format 2 the CHUNK lane, format 3 none (R96). -/
def FaultRec.holds (r : FaultRec) (l : Lane) : Bool :=
  match r with
  | .frame lane .. => lane == l
  | .card _ _ _ _ _ _ live _ => live && l == .chunk
  | .record .. => false

/-- Some record of the stack holds the lane. -/
def Exchange.holds (x : Exchange) (l : Lane) : Bool := x.stack.any (·.holds l)

/-- The lane state of section 5.2. -/
def Exchange.laneState (x : Exchange) (l : Lane) : LaneState :=
  if x.state = .stopped then .stopped
  else if x.holds l then .held
  else if (x.hand l).isSome then .running
  else .idle

/-- Bytes written into host memory. -/
def Exchange.put (x : Exchange) (a : Nat) (l : List Byte) : Exchange := { x with mem := memWrite x.mem a l }

/-- Bytes written into the anchor, while it is known. -/
def Exchange.putAnchor (x : Exchange) (off : Nat) (l : List Byte) : Exchange :=
  match x.anchor with
  | none => x
  | some a => x.put (a.base + off) l

/-- The lane state written into its descriptor. -/
def Exchange.showLane (x : Exchange) (l : Lane) : Exchange :=
  x.putAnchor (descOffset l + 10) (leBytes 1 (x.laneState l).code)

/-- All three lane states written. -/
def Exchange.showLanes (x : Exchange) : Exchange := ((x.showLane .control).showLane .chunk).showLane .recovery

/-! ## The fault stack (R94, R95) -/

/-- The exchange is RUNNING and the push of the record fits (R94). -/
def Exchange.fits (x : Exchange) (r : FaultRec) : Bool :=
  match x.anchor with
  | none => false
  | some a => x.state == .running && decide (x.depth + r.size ≤ a.faultSize)

/-- The exchange STOPS (R95). -/
def Exchange.stop (x : Exchange) : Exchange :=
  (({ x with state := .stopped, nextScan := none } : Exchange).showLanes).request causeStopped

/-- A record pushed (R94), or the exchange stopped by it (R95); while the exchange is not RUNNING nothing is pushed. -/
def Exchange.push (x : Exchange) (r : FaultRec) : Exchange :=
  match x.anchor with
  | none => x
  | some a =>
    if x.state ≠ .running then x
    else if x.fits r then
      let y := x.put (a.faultTop - x.depth - r.size) (faultBytes r)
      let z : Exchange := { y with stack := r :: y.stack }
      ((z.putAnchor 0xA4 (leBytes 4 z.depth)).showLanes).request causeFault
    else x.stop

/-- The top record removed and the depth written; its bytes stay (R94). -/
def Exchange.pop (x : Exchange) : Exchange :=
  let z : Exchange := { x with stack := x.stack.tail }
  z.putAnchor 0xA4 (leBytes 4 z.depth)

/-- The address of the top record: the newest record lies at top minus depth (R94). -/
def Exchange.topAddress (x : Exchange) : Nat :=
  match x.anchor with
  | none => 0
  | some a => a.faultTop - x.depth

/-! ## Finishing a frame (R87) -/

/-- The value half of a NARROW result word: the value where it fits, a free value otherwise (log entry 18). -/
def narrowHalf (value : Nat) : Nat := if value < 65536 then value else (Config.narrowValue value).toNat

/-- The result word: code below, value above, at the width of the form (R83). -/
def resultBytes (form : Form) (r : Result) (value : Nat) : List Byte :=
  match form with
  | .narrow => leBytes 4 (r.code + 65536 * narrowHalf value)
  | .wide => leBytes 8 (r.code + 65536 * value)

/-- The finish of a frame on a RUNNING exchange: result word, status word, retire mark, lane state when no record holds the
lane, the lane's cause flag when notify or notify-all is set (R87). The lane now stands at the frame's link. -/
def Exchange.complete (x : Exchange) (l : Lane) (f : HeldFrame) (st : Status) (r : Result) (value : Nat) : Exchange :=
  let y := (x.put (f.address + 16) (resultBytes f.form r value)).put (f.address + 14) (leBytes 2 st.code)
  let z := y.setLane l { (y.lane l) with hand := none, place := .link f.address f.form f.code f.tag, retire := f.address }
  let w := (z.putAnchor (descOffset l + 16) (leBytes 8 f.address)).showLane l
  let all := match x.anchor with
    | none => false
    | some a => (a.desc l).notifyAll
  if f.notify || all then w.request (laneFlag l) else w

/-- What a frame in hand needs for its finish. -/
def Taken.toHeld (f : Taken) : HeldFrame :=
  { address := f.address, form := f.form, notify := f.notify, code := f.code, tag := f.tag }

/-! ## Taking a frame (R84 to R86) -/

/-- A frame fault (R86, R96): the lane loses its hand, keeps the frame if the point is FRAME, and a format-1 record is pushed.
While the exchange is not RUNNING the fault is dropped (R95). -/
def Exchange.frameFault (now : Time) (l : Lane) (point : Point) (f : HeldFrame) (reason : FrameReason)
    (x : Exchange) : Exchange :=
  let held := match point with
    | .frame => some f
    | .link => (x.lane l).held
  let place := match point with
    | .frame => Place.nowhere
    | .link => Place.link f.address f.form f.code f.tag
  (x.setLane l { (x.lane l) with hand := none, held, place }).push
    (.frame l point f.address f.code f.tag reason now)

/-- The frame in hand faults with DATA_ERROR (R86). -/
def Exchange.dataFault (now : Time) (l : Lane) (x : Exchange) : Exchange :=
  match x.hand l with
  | none => x
  | some f => x.frameFault now l .frame f.toHeld .dataError

/-- The default form of a lane. -/
def Exchange.defaultForm (x : Exchange) (l : Lane) : Form :=
  match x.anchor with
  | none => .narrow
  | some a => (a.desc l).form

/-- Step 2 of R84: TAKEN into the status word, the taken count (not for a held frame taken again, R99), state RUNNING. -/
def Exchange.markTaken (x : Exchange) (l : Lane) (addr : Nat) (again : Bool) : Exchange :=
  let count := if again then (x.lane l).taken else (x.lane l).taken + 1
  let y := (x.put (addr + 14) (leBytes 2 1)).setLane l { (x.lane l) with taken := count }
  (y.putAnchor (descOffset l + 12) (leWord 4 count)).putAnchor (descOffset l + 10) (leBytes 1 LaneState.running.code)

/-- The lane takes the frame at an address (R84), with the format check (R85) and the read errors (R86). -/
def Exchange.takeFrame (now : Time) (l : Lane) (addr : Nat) (again : Bool) (x : Exchange) : Exchange :=
  let dflt := x.defaultForm l
  if !readsOk x.badReads addr headFields then
    if l = .recovery then
      { (x.setLane l { (x.lane l) with place := .take addr }) with recErrors := x.recErrors + 1 }
    else x.frameFault now l .frame { address := addr, form := dflt, notify := false, code := 0, tag := 0 } .fetchError
  else
    let code := BitVec.ofNat 16 (memNat x.mem (addr + 8) 2)
    let opts := memByte x.mem (addr + 10)
    let tag := BitVec.ofNat 16 (memNat x.mem (addr + 12) 2)
    let form := effectiveForm dflt (opts.getLsbD 0) code
    let f : HeldFrame := { address := addr, form, notify := opts.getLsbD 1, code, tag }
    let y := x.markTaken l addr again
    match formatOf code with
    | none =>
      if l = .recovery then y.complete l f .refused .badFormat 0
      else y.frameFault now l .frame f .unknownFormat
    | some fmt =>
      if fmt.lane ≠ l then y.complete l f .refused .wrongLane 0
      else if !readsOk y.badReads addr (fmt.bodyFields form) then
        y.frameFault now l .frame f .fetchError
      else
        (y.setLane l { (y.lane l) with
          hand := some { address := addr, form, notify := f.notify, tag, code, body := readBody y.mem addr fmt form, started := false }
          held := none
          place := .nowhere }).showLane l

/-! ## Following a chain (R88, R105) -/

/-- The lane may look for a frame: RUNNING exchange, none in hand, no record holding it, the chunk gate open on CHUNK. -/
def Exchange.mayLook (gate : Bool) (l : Lane) (x : Exchange) : Bool :=
  x.state == .running && (x.hand l).isNone && !x.holds l && (gate || l != .chunk)

/-- A failed link read: a frame fault with point LINK, or on RECOVERY one more read error (R86). -/
def Exchange.linkFault (now : Time) (l : Lane) (f : HeldFrame) (x : Exchange) : Exchange :=
  if l = .recovery then { x with recErrors := x.recErrors + 1 }
  else x.frameFault now l .link f .fetchError

/-- One move of a lane along its chain, and whether it may make another. -/
def Exchange.laneMove (gate : Bool) (now : Time) (l : Lane) (x : Exchange) : Exchange × Bool :=
  if !x.mayLook gate l then (x, false)
  else
    match (x.lane l).place with
    | .nowhere => (x, false)
    | .take a =>
      let y := x.takeFrame now l a false
      (y, (y.lane l).place != .take a)
    | .link f form code tag =>
      if !readOk x.badReads f form.addressBytes then
        (x.linkFault now l { address := f, form, notify := false, code, tag }, false)
      else
        let a := linkAddress (memNat x.mem f form.addressBytes)
        if a = 0 then (x, false)
        else (x.setLane l { (x.lane l) with place := .take a }, true)

/-- The lane follows its chain until it has a frame in hand or nothing more to take (R88; log entry 7 for the bound). -/
def Exchange.follow (gate : Bool) (now : Time) (l : Lane) : Nat → Exchange → Exchange
  | 0, x => x
  | n + 1, x =>
    let (y, more) := x.laneMove gate now l
    if more then y.follow gate now l n else y

/-- The frames of one chain that one look follows: each frame but the last has a link that is not 0, and one listed byte of host
memory lies in the links of at most 8 frames, so that only a chain which comes back to a frame it has finished is longer (DESIGN
CHOICE, log entry 7). -/
def Exchange.chainLength (x : Exchange) : Nat := 8 * x.mem.length + Config.chainBound

/-- `follow` with the model's bound. -/
def Exchange.look (gate : Bool) (now : Time) (l : Lane) (x : Exchange) : Exchange :=
  x.follow gate now l (2 * x.chainLength)

/-- The owner finishes the frame in hand (R87). On an exchange that is not RUNNING nothing is written (R95). -/
def Exchange.finish (gate : Bool) (now : Time) (l : Lane) (st : Status) (r : Result) (value : Nat) (x : Exchange) : Exchange :=
  match x.hand l with
  | none => x
  | some f =>
    if x.state ≠ .running then x.setLane l { (x.lane l) with hand := none }
    else (x.complete l f.toHeld st r value).look gate now l

/-- The finish of a frame whose owner leaves its link unread, because a link reset follows (log entry 22). -/
def Exchange.finishOnly (l : Lane) (st : Status) (r : Result) (value : Nat) (x : Exchange) : Exchange :=
  match x.hand l with
  | none => x
  | some f =>
    if x.state ≠ .running then x.setLane l { (x.lane l) with hand := none }
    else x.complete l f.toHeld st r value

/-- The lane's last release makes it take its held frame again, and the frame is finished as it is taken (R85, R99). -/
def Exchange.retakeEnds (now : Time) (l : Lane) (x : Exchange) : Bool :=
  match (x.lane l).retake with
  | some a =>
    let y := (x.setLane l { (x.lane l) with retake := none }).takeFrame now l a true
    !x.holds l && y.state == .running && (y.hand l).isNone && !y.holds l
  | none => false

/-- The lane is released from a record that has been popped or superseded (R96): while another holds it nothing is done; at
the last release it takes the waiting step. -/
def Exchange.release (gate : Bool) (now : Time) (l : Lane) (x : Exchange) : Exchange :=
  if x.holds l || x.state != .running then x
  else
    match (x.lane l).retake with
    | some a =>
      ((x.setLane l { (x.lane l) with retake := none }).takeFrame now l a true).look gate now l
    | none => (x.showLane l).look gate now l

/-- The frame in hand is marked as carried out and waiting for its end. -/
def Exchange.startHand (l : Lane) (x : Exchange) : Exchange :=
  match x.hand l with
  | none => x
  | some f => x.setLane l { (x.lane l) with hand := some { f with started := true } }

/-! ## Counts, START, nudge, scan (R80, R81, R89) -/

/-- The consumed number and the read count read again; an error leaves both copies (R89). -/
def Exchange.readCounts (x : Exchange) : Exchange :=
  match x.anchor with
  | none => x
  | some a =>
    if readOk x.badReads (a.base + 0x7C) 4 && readOk x.badReads (a.base + 0x8C) 4 then
      { x with
        consumed := some (BitVec.ofNat 32 (memNat x.mem (a.base + 0x7C) 4))
        readCopy := some (BitVec.ofNat 32 (memNat x.mem (a.base + 0x8C) 4)) }
    else x

/-- The lanes look for frames in a given order. -/
def Exchange.lookAll (gate : Bool) (now : Time) (order : List Lane) (x : Exchange) : Exchange :=
  order.foldl (fun y l => y.look gate now l) x

/-- The three lanes. -/
def allLanes : List Lane := [.control, .chunk, .recovery]

/-- A nudge, or the work of a scan tick: the counts are read, then the links of the idle lanes (R88, R89). -/
def Exchange.poll (gate : Bool) (now : Time) (order : List Lane) (x : Exchange) : Exchange :=
  if x.state = .running then (x.readCounts).lookAll gate now order else x

/-- Step 1 of R81 and the values a START sets: everything but the refresh and the first takes. -/
def Exchange.enterRunning (now : Time) (a : AnchorCopy) (x : Exchange) : Exchange :=
  let fresh (l : Lane) : LaneSt := { LaneSt.reset with place := .take (a.desc l).first }
  let y : Exchange := { x with
    state := .running
    check := .none
    starting := none
    anchor := some a
    consumed := none
    readCopy := none
    writeCount := 0
    control := fresh .control
    chunk := fresh .chunk
    recovery := fresh .recovery
    stack := []
    nextScan := if a.scanPeriod = 0 then none else some (timeAfter now a.scanPeriod)
    nextRefresh := some (timeAfter now Config.refreshPeriod)
    refreshCount := 0
    recErrors := 0 }
  let clear (l : Lane) (z : Exchange) : Exchange :=
    ((z.putAnchor (descOffset l + 16) (leBytes 8 0)).putAnchor (descOffset l + 12) (leBytes 4 0)).showLane l
  ((((clear .recovery (clear .chunk (clear .control y))).putAnchor 0x90 (leBytes 4 0)).putAnchor 0xA4 (leBytes 4 0))).readCounts

/-- The engine after a link reset (R82); host memory keeps what was last written, and the write count is set to 0 by START
alone (R159). -/
def Exchange.linkReset (x : Exchange) : Exchange :=
  { x with
    state := .off
    check := .none
    starting := none
    cause := 0
    mask := 0
    anchor := none
    consumed := none
    readCopy := none
    control := .reset
    chunk := .reset
    recovery := .reset
    stack := []
    nextScan := none
    nextRefresh := none
    recErrors := 0 }

/-! ## Validation of the top record (R97, R131) -/

/-- What the top record, read from host memory, comes to against the internal copy. -/
inductive Checked where
  | frameGood
  | cardGood (entries : List RecEntry) (cont : Continuation)
  | bad
  deriving DecidableEq, Repr

/-- One entry of a card record as read: its block, count and source equal, its valid flag not newly set; its valid flag. -/
def checkEntry (m : Mem) (a : Nat) (e : Option RecEntry) : Option Bool :=
  let valid := memByte m a != 0
  match e with
  | none => if !valid && memNat m (a + 1) 1 == 0 && memNat m (a + 4) 4 == 0 && memNat m (a + 8) 4 == 0 then some false else none
  | some e =>
    if memNat m (a + 1) 1 == e.source.code && memNat m (a + 4) 4 == e.block && memNat m (a + 8) 4 == e.count
        && (!valid || e.valid) then some valid else none

/-- Exactly one of the three continuation flags reads set (R131). -/
def contOf (b : Byte) : Option Continuation :=
  match b.getLsbD 0, b.getLsbD 1, b.getLsbD 2 with
  | true, false, false => some .retry
  | false, true, false => some .nextExtent
  | false, false, true => some .close
  | _, _, _ => none

/-- Step 4 of R97 for a record of format 1 or of format 2 that is LIVE (R131). -/
def checkRecord (m : Mem) (a : Nat) (r : FaultRec) : Checked :=
  match r with
  | .frame .. => if memBytes m a 24 == (faultBytes r).take 24 then .frameGood else .bad
  | .record .. => .bad
  | .card _ _ _ _ entries _ _ _ =>
    let want := faultBytes r
    if memByte m a == 2 && memBytes m (a + 1) 1 == (want.drop 1).take 1 && memBytes m (a + 3) 21 == (want.drop 3).take 21 then
      match contOf (memByte m (a + 2)), checkEntry m (a + 24) entries[0]?, checkEntry m (a + 40) entries[1]?,
          checkEntry m (a + 56) entries[2]? with
      | some cont, some v1, some v2, some v3 =>
        .cardGood ((entries.zip [v1, v2, v3]).map fun (e, v) => { e with valid := v }) cont
      | _, _, _, _ => .bad
    else .bad

end Sys2Proof.Machine
end

