-- ==== Sys2Proof/Machine/MotionFront.lean ====
section
/-! DEFINITION. The motion front end: IMU port states, marks and period average, shock comparator, resets (chapter 1). -/

namespace Sys2Proof.Machine

/-! ## Settings (R7) -/

/-- The rate of a code, clamped (R7). -/
def rateOf : Nat → Rate
  | 0 => .hz400
  | 1 => .hz800
  | 2 => .hz1600
  | _ => .hz3200

/-- The nominal period of a rate in µs (R7). -/
def Rate.nominal : Rate → Nat
  | .hz400 => 2500
  | .hz800 => 1250
  | .hz1600 => 625
  | .hz3200 => 312

/-- The nominal period programmed: 10,000 µs at 100 Hz (R16). -/
def Motion.nominal (m : Motion) : Nat := if m.parked then Config.parkedPeriod else m.rate.nominal

/-! ## Port states (R4, R5) -/

/-- Entry to STARTING: power up, settle for 50 ms, the read in progress and the waiting time discarded (R4, R8). -/
def Motion.enterStarting (now : Time) (m : Motion) : Motion :=
  { m with
    port := .starting
    imuPower := true
    settleEnd := some (timeAfter now Config.settleTime)
    offEnd := none
    lossDeadline := none
    reading := none
    waiting := none }

/-- The settle ends: RUNNING entry (R4). -/
def Motion.enterRunning (now : Time) (m : Motion) : Motion :=
  { m with
    port := .running
    settleEnd := none
    runEntry := now
    prev := none
    average := m.nominal
    lossDeadline := some (timeAfter now (8 * m.nominal)) }

/-- The comparator must emit SHOCK_FALSE when the port leaves RUNNING now (R15). -/
def Motion.owesShockFalse (m : Motion) : Bool := m.port == .running && !m.armed

/-- The comparator as the port leaves RUNNING: ARMED, quiet run 0 (R15). -/
def Motion.rearm (m : Motion) : Motion :=
  if m.port = .running then { m with armed := true, quiet := if m.armed then m.quiet else 0 } else m

/-- The loss deadline passes (R5): LOST with one restart counted, or FAILED when three are. -/
def Motion.lose (now : Time) (m : Motion) : Motion :=
  let c := { m.rearm with
    losses := m.losses + 1
    imuPower := false
    settleEnd := none
    lossDeadline := none
    reading := none
    waiting := none }
  if m.restarts < 3 then
    { c with port := .lost, restarts := m.restarts + 1, offEnd := some (timeAfter now Config.lostTime) }
  else { c with port := .failed, offEnd := none }

/-- A data-ready edge in RUNNING latches its time; the newest waiting time is kept (R8). -/
def Motion.edge (now : Time) (m : Motion) : Motion :=
  if m.port ≠ .running then m
  else match m.reading with
    | none => { m with reading := some now }
    | some _ => { m with waiting := some now }

/-- The completed read leaves the port, and the read of a waiting time begins (R8). -/
def Motion.nextRead (m : Motion) : Motion := { m with reading := m.waiting, waiting := none }

/-! ## Intervals, marks, average (R9 to R11) -/

/-- The raw interval, when a previous sample exists (R9). -/
def Motion.raw (m : Motion) (t : Time) : Option Nat := m.prev.map (timeSince t)

/-- dt (R9). -/
def Motion.dt (m : Motion) (t : Time) : Nat :=
  match m.raw t with
  | none => m.average
  | some r => clampTo 1 Config.maxDt r

/-- The recorded time (R9). -/
def Motion.recorded (m : Motion) (t : Time) : Time :=
  match m.prev, m.raw t with
  | some p, some 0 => p + 1
  | _, _ => t

/-- The GAP mark (R10). -/
def Motion.gapMark (m : Motion) (t : Time) : Bool :=
  match m.raw t with
  | none => true
  | some r => decide (Config.maxDt < r) || decide (4 * m.average < r)

/-- A gyro reading at an end of its range (R10). -/
def clippedReading (g : BitVec 16) : Bool := g == 0x7FFF || g == 0x8000

/-- The average moved by a dt: the difference divided by 16, truncated toward zero (R11). -/
def moveAverage (average dt : Nat) : Nat := ((average : Int) + ((dt : Int) - average).tdiv 16).toNat

/-- The ring entry a sample makes, with the angles it integrates to. -/
def Motion.entryOf (m : Motion) (t : Time) (s : Sample) (angles : Axes Angle) : RingEntry :=
  { time := m.recorded t
    dt := m.dt t
    gx := s.gx
    gy := s.gy
    gz := s.gz
    angles
    gap := m.gapMark t
    clipX := clippedReading s.gx
    clipY := clippedReading s.gy
    clipZ := clippedReading s.gz }

/-- The entry joins the ring, the oldest leaving at 64 (R12). -/
def joinRing (ring : List RingEntry) (e : RingEntry) : List RingEntry :=
  (if ring.length ≥ Config.ringSize then ring.tail else ring) ++ [e]

/-- The front end after an ACTIVE sample: counts, average, deadline, previous time and ring (R5, R9 to R12). -/
def Motion.takeSample (m : Motion) (e : RingEntry) : Motion :=
  let average := if e.gap then m.average else moveAverage m.average e.dt
  { m with
    prev := some e.time
    average
    lossDeadline := some (timeAfter e.time (8 * average))
    ring := joinRing m.ring e
    samples := m.samples + 1
    gaps := if e.gap then m.gaps + 1 else m.gaps
    clipped := if e.clipX || e.clipY || e.clipZ then m.clipped + 1 else m.clipped }

/-- The front end after a PARKED sample: only its deadline moves (R16). -/
def Motion.takeParked (m : Motion) (t : Time) : Motion :=
  { m with lossDeadline := some (timeAfter t (8 * Config.parkedPeriod)) }

/-! ## Shock comparator (R13, R14) -/

/-- The magnitude proxy M (R14). -/
def magnitude (s : Sample) : Nat := s.ax.toInt.natAbs + s.ay.toInt.natAbs + s.az.toInt.natAbs

/-- SHOCK_HIGH as clamped (R13). -/
def clampShockHigh (v : Nat) : Nat := clampTo 1 Config.maxProxy v

/-- QUIET_LOW as clamped, at most SHOCK_HIGH − 1 (R13). -/
def clampQuietLow (high v : Nat) : Nat := min (clampTo 0 Config.maxProxy v) (clampShockHigh high - 1)

/-- What the comparator emits at a sample. -/
inductive Shock where
  | nothing
  | begins
  | ends
  deriving DecidableEq, Repr

/-- The comparator at a sample with proxy `M` and recorded time `t` (R14). -/
def Motion.compare (m : Motion) (t : Time) (M : Nat) : Motion × Shock :=
  if m.armed then
    if m.shockHigh ≤ M then ({ m with armed := false, quiet := 0, shockTime := t, shockPeak := M }, .begins)
    else (m, .nothing)
  else if m.quietLow < M then ({ m with quiet := 0, shockPeak := max m.shockPeak M }, .nothing)
  else if m.q ≤ m.quiet + 1 then ({ m with armed := true, quiet := 0 }, .ends)
  else ({ m with quiet := m.quiet + 1 }, .nothing)

/-! ## Power states and resets (R16 to R19) -/

/-- Entry to PARKED, and a link reset in PARKED: 100 Hz programmed, FAILED kept (R16). -/
def Motion.park (now : Time) (m : Motion) : Motion :=
  let p := { m with parked := true }
  if m.port = .failed then p else p.enterStarting now

/-- Entry to SLEEP: OFF and unpowered, from whatever state (R17). R6 says that a FAILED port stays FAILED here, and which of the two a
FAILED port does is a free value (DESIGN CHOICE, log entry 50). -/
def Motion.sleep (m : Motion) : Motion :=
  { m with
    port := if m.port == .failed && Config.failedInSleep then .failed else .off
    imuPower := false
    parked := false
    settleEnd := none
    offEnd := none
    lossDeadline := none
    reading := none
    waiting := none }

/-- The return to ACTIVE: STARTING at the settings in effect, restart count 0 (R18). -/
def Motion.wake (now : Time) (m : Motion) : Motion :=
  { ({ m.rearm with parked := false } : Motion).enterStarting now with restarts := 0 }

/-- A link reset (R19); a powered port settles again, at 100 Hz while the part is PARKED (R16). -/
def Motion.linkReset (now : Time) (inParked : Bool) (m : Motion) : Motion :=
  let base := { Motion.reset with
    port := m.port, imuPower := m.imuPower, restarts := m.restarts, parked := inParked, runEntry := m.runEntry }
  match m.port with
  | .starting | .running | .lost => { base.enterStarting now with restarts := 0 }
  | .off => base
  | .failed => base

end Sys2Proof.Machine
end

