-- ==== Sys2Proof/Machine/PathUnit.lean ====
section
/-! DEFINITION. The path unit's arithmetic: mount map, integration, references, interpolation, smoothing, conversion, margins, flags, band times, the computed record (chapters 2 and 3). -/

namespace Sys2Proof.Machine

/-! ## Mount map and integration (R21 to R24) -/

/-- The gyro axis a code names (R21). -/
def gyroAxisOf : Nat → Option GyroAxis
  | 0 => some .x
  | 1 => some .y
  | 2 => some .z
  | _ => none

/-- The mount map of a frame, when it passes both checks of R21. -/
def mountOf (axes signs : Axes Nat) : Option (Axes MapEntry) :=
  match gyroAxisOf axes.yaw, gyroAxisOf axes.pitch, gyroAxisOf axes.roll with
  | some a, some p, some r =>
    if a = p ∨ a = r ∨ p = r then none
    else some { yaw := { axis := a, minus := signs.yaw != 0 }
                pitch := { axis := p, minus := signs.pitch != 0 }
                roll := { axis := r, minus := signs.roll != 0 } }
  | _, _, _ => none

/-- The mapped rate of one axis: the negation of -32768 saturates (R22). -/
def mappedRate (e : MapEntry) (gx gy gz : BitVec 16) : Int :=
  let g := match e.axis with
    | .x => gx.toInt
    | .y => gy.toInt
    | .z => gz.toInt
  if e.minus then min 32767 (-g) else g

/-- The rotation of one sample on one axis: r × dt × GAIN / 65,536, to nearest, ties toward plus infinity (R23). -/
def rotation (r : Int) (dt gain : Nat) : Int := (r * dt * gain + 32768).fdiv 65536

/-- The accumulators after a sample (R23). -/
def Path.integrate (p : Path) (dt : Nat) (s : Sample) : Path :=
  { p with acc := Axes.map₂ (fun a e => a + angleOf (rotation (mappedRate e s.gx s.gy s.gz) dt p.gain)) p.acc p.mount }

/-! ## References (R25 to R27) -/

/-- The largest reference, 2^26 units (R25). -/
def clampReference (a : Angle) : Angle := angleOf (clampInt (-67108864) 67108864 a.toInt)

/-- The references applied at the start of a video frame's computation (R27). -/
def Path.applyReferences (p : Path) (f : VFrame) : Path :=
  let swref := f.ref.getD p.swref
  match f.recentre with
  | none => { p with swref }
  | some a => { p with swref, hwref := a, smooth := swref, recentred := true }

/-- The path value of accumulated angles (section 2.4). -/
def Path.value (p : Path) (a : Axes Angle) : Axes Angle :=
  Axes.map₂ (fun x h => x - h) (Axes.map₂ (fun x s => x + s) a p.swref) p.hwref

/-! ## Reading the path between samples (R28 to R30) -/

/-- Where a time sought lay. -/
inductive Sought where
  | inside
  | after
  | before
  deriving DecidableEq, Repr

/-- The newest entry at or before `t` and the entry after it. -/
def bracket : List RingEntry → Time → Option (RingEntry × Option RingEntry)
  | [], _ => none
  | [e], t => if timeReached t e.time then some (e, none) else none
  | e :: e' :: l, t =>
    if timeReached t e'.time then bracket (e' :: l) t
    else if timeReached t e.time then some (e, some e')
    else none

/-- Interpolation on one axis: the signed difference times the elapsed part, truncated toward zero (R28). -/
def interpolate (a b : Angle) (elapsed whole : Nat) : Angle :=
  a + angleOf ((angleInt (b - a) * elapsed).tdiv whole)

/-- Extrapolation on one axis at the newest rate, at most 4,095 µs (R29). -/
def extrapolate (a : Angle) (r : Int) (elapsed gain : Nat) : Angle :=
  a + angleOf ((r * (min elapsed Config.maxDt : Nat) * gain).tdiv 65536)

/-- The path values at a time, from the ring (R28 to R30). -/
def Path.at (p : Path) (ring : List RingEntry) (t : Time) : Axes Angle × Sought :=
  match bracket ring t with
  | none =>
    match ring.head? with
    | none => (p.value p.acc, .before)
    | some e => (p.value e.angles, .before)
  | some (e, none) =>
    if t = e.time then (p.value e.angles, .inside)
    else
      (Axes.map₂ (fun a (m : MapEntry) => extrapolate a (mappedRate m e.gx e.gy e.gz) (timeSince t e.time) p.gain)
        (p.value e.angles) p.mount, .after)
  | some (e, some e') =>
    if t = e.time ∨ e'.gap then (p.value e.angles, .inside)
    else (Axes.map₂ (fun a b => interpolate a b (timeSince t e.time) (timeSince e'.time e.time))
            (p.value e.angles) (p.value e'.angles), .inside)

/-! ## Smoothing, conversion, margins (R33 to R37) -/

/-- The smoothed path moved toward the path value, the difference shifted right by `k` (R33). -/
def smoothed (s a : Angle) (k : Nat) : Angle := s + angleOf ((angleInt (a - s)).fdiv ((2 : Int) ^ k))

/-- Division to nearest, ties away from zero. -/
def divNearest (x : Int) (d : Nat) : Int :=
  if 0 ≤ x then (2 * x + d) / (2 * (d : Int)) else -((2 * (-x) + d) / (2 * (d : Int)))

/-- A correction in sixteenths of a pixel: C × F / 2^20 (R34). -/
def toPixels (c : Int) (f : Nat) : Int := divNearest (c * f) 1048576

/-- The margin angle of yaw and pitch (R36). -/
def marginAngle (m f : Nat) : Nat := m * 1048576 / f

/-- The margin check at the centre on one axis: the smoothed path after it, and whether it was pushed (R36). -/
def pushAxis (s a : Angle) (checked : Int) (margin angle : Nat) : Angle × Bool :=
  if (margin : Int) < (checked.natAbs : Int) then
    (if 0 < angleInt (s - a) then a + angleOf angle else a - angleOf angle, true)
  else (s, false)

/-- A value held to plus or minus its margin (R37). -/
def clampMargin (m : Nat) (x : Int) : Int := clampInt (-(m : Int)) m x

/-! ## Times of a video frame (R47) -/

/-- Band time `b` of `count` (R47). -/
def bandTime (start : Time) (d exposure count b : Nat) : Time :=
  start + BitVec.ofNat 48 ((2 * b + 1) * d / (2 * count)) - BitVec.ofNat 48 (exposure / 2)

/-- The centre time (R47). -/
def centreTime (start : Time) (d exposure : Nat) : Time :=
  start + BitVec.ofNat 48 (d / 2) - BitVec.ofNat 48 (exposure / 2)

/-- The times an entry gains when it becomes ENDED (R47), and its NO_MOTION mark (R48). -/
def VFrame.endAt (f : VFrame) (stop : Time) (average : Nat) (noMotion assumed : Bool) : VFrame :=
  let d := timeSince stop f.start
  let bands := (List.range f.bands).map (bandTime f.start d f.exposure f.bands)
  let last := bandTime f.start d f.exposure f.bands (f.bands - 1)
  { f with
    assumed
    ended := some
      { stop, bands, centre := centreTime f.start d f.exposure
        deadline := timeAfter last (3 * average), noMotion } }

/-- The last band time. -/
def Ending.last (e : Ending) : Time := e.bands.getLastD e.centre

/-- The earliest time sought: band 0 (R47). -/
def Ending.first (e : Ending) : Time := e.bands.headD e.centre

/-- An ENDED entry may be produced once it is the oldest (R48, R49). -/
def Ending.ready (e : Ending) (ring : List RingEntry) (now : Time) : Bool :=
  e.noMotion || ring.any (fun r => timeLater r.time e.last) || timeReached now e.deadline

/-! ## The span and its flags (section 2.7, R38) -/

/-- Entries up to and with the first at or after a time. -/
def takeThrough (t : Time) : List RingEntry → List RingEntry
  | [] => []
  | e :: l => if timeReached e.time t then [e] else e :: takeThrough t l

/-- The span of a video frame. -/
def spanOf (ring : List RingEntry) (first last : Time) : List RingEntry :=
  takeThrough last (ring.dropWhile fun e => !timeReached e.time first)

/-! ## The computation of one video frame (R32, R52, R53) -/

/-- What a computation hands on: the path unit after it, the record without OVERRUN, the axes pushed. -/
structure Computed where
  path : Path
  record : WarpRecord
  pushed : BitVec 10

/-- A NO_MOTION record (R52). -/
def noMotionRecord (p : Path) (f : VFrame) (e : Ending) : WarpRecord :=
  { number := f.number
    flags := flagNoMotion ||| flagIf f.assumed flagEndAssumed
    exposure := f.exposure
    start := f.start
    stop := e.stop
    centre := e.centre
    span := 0
    smooth := p.smooth
    corrections := { yaw := 0, pitch := 0, roll := 0 }
    bands := List.replicate f.bands { yaw := 0, pitch := 0, roll := 0 } }

/-- One band's offsets before the margins (R34). -/
def bandOf (s a : Axes Angle) (focal : Nat) : Band :=
  { yaw := toPixels (angleInt (s.yaw - a.yaw)) focal
    pitch := toPixels (angleInt (s.pitch - a.pitch)) focal
    roll := angleInt (s.roll - a.roll) }

/-- One band's offsets held to the margins (R37). -/
def Band.clamp (b : Band) (mx my rl : Nat) : Band :=
  { yaw := clampMargin mx b.yaw, pitch := clampMargin my b.pitch, roll := clampMargin rl b.roll }

/-- The flags of a change of some value on each axis. -/
def axisFlags (x y r : Bool) : BitVec 10 := flagIf x flagClampedX ||| flagIf y flagClampedY ||| flagIf r flagClampedR

/-- The computation of a video frame (R32): references, centre, smoothing, push, bands, flags. -/
def Path.compute (p0 : Path) (ring : List RingEntry) (f : VFrame) (e : Ending) : Computed :=
  let p := p0.applyReferences f
  if e.noMotion then { path := p, record := noMotionRecord p f e, pushed := 0 }
  else
    let (centre, sought) := p.at ring e.centre
    let s := { yaw := smoothed p.smooth.yaw centre.yaw f.shifts.yaw
               pitch := smoothed p.smooth.pitch centre.pitch f.shifts.pitch
               roll := smoothed p.smooth.roll centre.roll f.shifts.roll : Axes Angle }
    let c := bandOf s centre f.focal
    let (sy, py) := pushAxis s.yaw centre.yaw c.yaw f.mx (marginAngle f.mx f.focal)
    let (sp, pp) := pushAxis s.pitch centre.pitch c.pitch f.my (marginAngle f.my f.focal)
    let (sr, pr) := pushAxis s.roll centre.roll c.roll f.rl f.rl
    let s' : Axes Angle := { yaw := sy, pitch := sp, roll := sr }
    let found := e.bands.map (p.at ring)
    let raw := found.map fun r => bandOf s' r.1 f.focal
    let bands := raw.map fun b => b.clamp f.mx f.my f.rl
    let soughts := sought :: found.map Prod.snd
    let span := spanOf ring e.first e.last
    let pushed := axisFlags py pp pr
    let flags := pushed
      ||| axisFlags (raw.any fun b => clampMargin f.mx b.yaw != b.yaw) (raw.any fun b => clampMargin f.my b.pitch != b.pitch)
            (raw.any fun b => clampMargin f.rl b.roll != b.roll)
      ||| flagIf (span.any fun r => r.clipX || r.clipY || r.clipZ) flagGyroClipped
      ||| flagIf (span.any fun r => r.gap) flagGap
      ||| flagIf (soughts.contains .after) flagExtrapolated
      ||| flagIf (soughts.contains .before) flagHistoryShort
      ||| flagIf f.assumed flagEndAssumed
    { path := { p with smooth := s' }
      record :=
        { number := f.number
          flags
          exposure := f.exposure
          start := f.start
          stop := e.stop
          centre := e.centre
          span := span.length
          smooth := s'
          corrections := bandOf s' centre f.focal
          bands }
      pushed }

/-! ## Overrun and the warp area (R54, R56) -/

/-- The record would overwrite a slot the host has not finished with (R56). Without a consumed copy a free value decides (log entry 20). -/
def overruns (consumed : Option Word) (number : Word) (slots : Nat) : Bool :=
  match consumed with
  | none => Config.overrunUncopied number
  | some c => decide (slots ≤ (number - c).toNat)

/-- The record with OVERRUN as R56 decides. -/
def WarpRecord.withOverrun (r : WarpRecord) (o : Bool) : WarpRecord := { r with flags := r.flags ||| flagIf o flagOverrun }

/-- The address of a record's slot (R54). -/
def AnchorCopy.warpSlot (a : AnchorCopy) (number : Word) : Nat := a.warpBase + 192 * (number.toNat % a.warpSlots)

/-! ## Frame bookkeeping (R42, R43) -/

/-- A new OPEN entry with everything bound to it (R43). -/
def Path.openFrame (p : Path) (start : Time) : Path :=
  let number := p.counter + 1
  let f : VFrame :=
    { number, start, ended := none, assumed := false, exposure := p.exposure, bands := p.bands, readout := p.readout
      shifts := p.shifts, focal := p.focal, mx := p.mx, my := p.my, rl := p.rl, alert := p.alert
      recentre := if p.recentre then some p.acc else none
      ref := p.pendingRef }
  { p with counter := number, frames := p.frames ++ [f], pendingRef := none, recentre := false }

/-- Every OPEN entry becomes ENDED: observed at `stop`, or assumed at its nominal readout time (R44, R50). -/
def Path.endOpen (p : Path) (stop : Option Time) (average : Nat) (noMotion : Bool) : Path :=
  { p with frames := p.frames.map fun f =>
      match f.ended with
      | some _ => f
      | none =>
        match stop with
        | some t => f.endAt t average noMotion false
        | none => f.endAt (timeAfter f.start f.readout) average noMotion true }

/-- The list holds an OPEN entry. -/
def Path.hasOpen (p : Path) : Bool := p.frames.any fun f => f.ended.isNone

end Sys2Proof.Machine
end

