-- ==== Sys2Proof/Machine/StoreMap.lean ====
section
/-! DEFINITION. The storage map: extents, segments, positions, releases, protection, reports (chapter 8). -/

namespace Sys2Proof.Machine

/-! ## Extents (section 8.1) -/

/-- Packs of an extent. -/
def Extent.packs (e : Extent) : Nat := e.count / Config.packBlocks

/-- The block after an extent. -/
def Extent.stop (e : Extent) : Nat := e.first + e.count

/-- Two runs of blocks share a block. -/
def runsMeet (a n b m : Nat) : Bool := decide (a < b + m) && decide (b < a + n)

/-- The packs of a segment not yet taken: those of its last extent from the next pack on (section 8.2), and one returned unused
behind packs taken later. -/
def Seg.untaken (g : Seg) : Nat :=
  g.returned.toList.length + match g.next, g.exts.getLast? with
    | some n, some e => (e.stop - n) / Config.packBlocks
    | _, _ => 0

/-- The open segment: the one in the OPEN phase (section 8.2). -/
def Store.openSeg (st : Store) : Option Seg := st.table.find? fun g => g.phase == .opened

/-- The segment with a serial. -/
def Store.seg (st : Store) (serial : Word) : Option Seg := st.table.find? fun g => g.serial == serial

/-- A table with its oldest segment of a property changed. -/
def mapFirst (p : Seg → Bool) (f : Seg → Seg) : List Seg → List Seg
  | [] => []
  | g :: l => if p g then f g :: l else g :: mapFirst p f l

/-- The map with the segment of a serial changed. -/
def Store.mapSeg (st : Store) (serial : Word) (f : Seg → Seg) : Store :=
  { st with table := mapFirst (fun g => g.serial == serial) f st.table }

/-- Free packs (R142). -/
def Store.freePacks (st : Store) : Nat :=
  (st.pool.map Extent.packs).sum + ((st.openSeg).map Seg.untaken).getD 0

/-- Every extent the storage map knows. -/
def Store.known (st : Store) : List Extent := st.pool ++ st.table.flatMap (·.exts)

/-- A run of blocks meets an extent the storage map knows (R128, R143). -/
def Store.meets (st : Store) (first count : Nat) : Bool := st.known.any fun e => runsMeet first count e.first e.count

/-- STORAGE_LOW is armed again where an EXTENT_ADD, a split at a close or a release leaves the free packs at the watermark or
above (R152). -/
def Store.rearm (st : Store) : Store :=
  { st with lowArmed := st.lowArmed || decide (st.loops.watermark ≤ st.freePacks) }

/-- EXTENT_ADD's checks in order, and the pool after it (R143). -/
def Store.addExtent (st : Store) (capacity : Option Nat) (first count : Nat) : Result ⊕ Store :=
  if first % Config.packBlocks ≠ 0 ∨ count = 0 ∨ count % Config.packBlocks ≠ 0 then .inl .misaligned
  else if first + count > 4294967296 ∨ (capacity.any fun c => decide (c < first + count)) then .inl .outOfRange
  else if st.meets first count then .inl .overlap
  else if st.pool.length ≥ Config.poolSize then .inl .poolFull
  else .inr ({ st with pool := st.pool ++ [{ first, count }] } : Store).rearm

/-- EXTENT_WITHDRAW (R144). -/
def Store.withdraw (st : Store) (first : Nat) : Result ⊕ Store :=
  if st.pool.any (fun e => e.first == first) then .inr { st with pool := st.pool.filter fun e => e.first != first }
  else if st.table.any (fun g => g.exts.any fun e => e.first == first) then .inl .busy
  else .inl .notFound

/-! ## Reports (R158) -/

/-- Segment work finds room in the queue: its place is the first of those that wait, or none waits. -/
def Store.segmentRoom (st : Store) : Bool :=
  decide (st.queue.length < Config.reportQueue) &&
    (match st.waiting.head? with
     | none => true
     | some .segmentWork => true
     | some (.held ..) => false)

/-- Segment work's place vacated. -/
def Store.clearWork (st : Store) : Store := { st with waiting := st.waiting.filter fun w => w != .segmentWork }

/-- Segment work's place taken, behind those already waiting. -/
def Store.blockWork (st : Store) : Store :=
  if st.waiting.contains .segmentWork then st else { st with waiting := st.waiting ++ [.segmentWork] }

/-- Matters dropped; the waiting place falls free with the matter that held it, the oldest. -/
def Store.dropMatters (drop : Matter → Bool) (st : Store) : Store :=
  let t := if (st.matters.head?.map drop).getD false then st.clearWork else st
  { t with matters := st.matters.filter fun m => !drop m }

/-- A report of segment work joins the queue. -/
def Store.segmentReport (now : Time) (body : ReportBody) (st : Store) : Store :=
  { st.clearWork with queue := st.queue ++ [{ time := now, body }] }

/-- The producer of a waiting place. -/
def Waiting.producer : Waiting → Producer
  | .segmentWork => .segment
  | .held p _ => p

/-- A report is a STORAGE_LOW. -/
def ReportBody.isLow : ReportBody → Bool
  | .storageLow .. => true
  | _ => false

/-- A report is a STORAGE_FULL. -/
def ReportBody.isFull : ReportBody → Bool
  | .storageFull .. => true
  | _ => false

/-- A STORAGE_LOW waits in the place. -/
def Waiting.isLow : Waiting → Bool
  | .segmentWork => false
  | .held _ r => r.body.isLow

/-- A report of another producer joins, waits in its producer's place, replaces a waiting STORAGE_LOW, or is lost (R158). A
STORAGE_FULL that replaces a STORAGE_LOW keeps its turn among those that wait, and the STORAGE_LOW is not counted lost (DESIGN
CHOICE, log entry 77). -/
def Store.offer (now : Time) (p : Producer) (body : ReportBody) (st : Store) : Store :=
  let r : Report := { time := now, body }
  if st.queue.length < Config.reportQueue && st.waiting.isEmpty then { st with queue := st.queue ++ [r] }
  else if st.waiting.any (fun w => w.producer == p) then
    if body.isFull && st.waiting.any Waiting.isLow then
      { st with waiting := st.waiting.map fun w => if w.isLow then .held p r else w }
    else { st with lost := st.lost + 1 }
  else { st with waiting := st.waiting ++ [.held p r] }

/-! ## Release and positions (R147, R151) -/

/-- A segment is releasable: CLOSED (R151). -/
def Seg.releasable (g : Seg) : Bool := g.phase == .complete && g.owner.isNone

/-- What a step of segment work comes to: it waits for report room, it has moved and is asked again, or it has its answer. -/
inductive Reply (α : Type) where
  | blocked
  | moved (st : Store)
  | answer (st : Store) (a : α)
  deriving DecidableEq, Repr

/-- A release (R151): blocked, made, or (`.answer`) not to be had. -/
def Store.release (now : Time) (st : Store) : Reply Unit :=
  if !st.loops.loop then .answer st ()
  else match st.table.find? Seg.releasable with
    | none => .answer st ()
    | some g =>
      if st.pool.length + g.exts.length > Config.poolSize then .answer st ()
      else if !st.segmentRoom then .blocked
      else
        let t := st.segmentReport now (.segmentReleased g.serial g.clip g.index g.exts)
        .moved ({ t with pool := t.pool ++ g.exts, table := t.table.filter fun h => h.serial != g.serial } : Store).rearm

/-- The answers to a position request (R110). -/
inductive PosAnswer where
  | position (block : Nat)
  | extentsFull
  | none
  deriving DecidableEq, Repr

/-- The next pack after one is taken in an extent. -/
def nextAfter (e : Extent) (block : Nat) : Option Nat :=
  if block + Config.packBlocks < e.stop then some (block + Config.packBlocks) else none

/-- The answer would leave the segment no pack for its tail (R147). -/
def Store.leavesNoTail (st : Store) (g : Seg) : Bool :=
  (g.exts.length == Config.segExtents && decide (g.untaken ≤ 1))
    || (g.untaken == 0 && g.exts.length == Config.segExtents - 1
        && (match st.pool.head? with
            | some e => e.packs == 1
            | none => false))

/-- The next pack of a segment (R147). `forTail` leaves the extents-full case out: for the tail of a close (R148) and for a tail
that a CLOSE settles (R135). -/
def Store.nextPack (now : Time) (forTail : Bool) (serial : Word) (st : Store) : Reply PosAnswer :=
  match st.seg serial with
  | none => .answer st .none
  | some g =>
    if !forTail && st.leavesNoTail g then .answer st .extentsFull
    else match g.returned with
      | some n => .answer (st.mapSeg serial fun h => { h with returned := none, used := h.used + 1 }) (.position n)
      | none =>
        match g.next, g.exts.getLast? with
        | some n, some e =>
          .answer (st.mapSeg serial fun h => { h with next := nextAfter e n, used := h.used + 1 }) (.position n)
        | _, _ =>
          if g.exts.length ≥ Config.segExtents then .answer st .none
          else match st.pool with
            | e :: rest =>
              .answer ({ st with pool := rest }.mapSeg serial fun h =>
                { h with exts := h.exts ++ [e], next := nextAfter e e.first, used := h.used + 1 }) (.position e.first)
            | [] =>
              match st.release now with
              | .blocked => .blocked
              | .moved t => .moved t
              | .answer t _ => .answer t .none

/-- A block is the pack taken last from the segment's last extent. -/
def Seg.tookLast (g : Seg) (block : Nat) : Bool :=
  match g.exts.getLast? with
  | some e => decide (e.first ≤ block) && decide (block < e.stop) && nextAfter e block == g.next
  | none => false

/-- A position returned unused becomes the next pack again (R147). Where re-placements of R150 have taken later packs meanwhile, it is
the next pack by itself, and the packs after those taken follow it (DESIGN CHOICE, log entry 76). -/
def Store.returnPack (serial : Word) (block : Nat) (st : Store) : Store :=
  st.mapSeg serial fun g =>
    if g.tookLast block then { g with next := some block, used := g.used - 1 }
    else { g with returned := some block, used := g.used - 1 }

/-! ## Protection (R154, R155) -/

/-- Protected segments (section 8.4). -/
def Store.protectedCount (st : Store) : Nat := (st.table.filter fun g => g.owner.isSome).length

/-- A segment is protected for an incident numbered below `n`. -/
def Seg.ownedBefore (g : Seg) (n : Word) : Bool :=
  match g.owner with
  | some (.incident m) => decide (m.toNat < n.toNat)
  | _ => false

/-- The protection of a segment that enters the table: its owner, the table after a displacement, PARTIAL (R155). The mark of
R153 protects whatever the loop flag, and where both reasons hold the protect-until owner is the owner (DESIGN CHOICE, log
entry 55). -/
def Store.entryProtection (now : Time) (st : Store) : Option Owner × List Seg × Bool :=
  let owner : Option Word :=
    match st.protectUntil, st.untilOwner with
    | some t, some o => if now.toNat < t.toNat then some o else st.openMark
    | _, _ => st.openMark
  match owner with
  | none => (none, st.table, false)
  | some o =>
    if st.protectedCount < Config.maxProtected then (some (.incident o), st.table, false)
    else if st.table.any (fun g => g.ownedBefore o) then
      (some (.incident o), mapFirst (fun g => g.ownedBefore o) (fun g => { g with owner := none }) st.table, false)
    else (none, st.table, true)

/-- A segment lies in the window of an incident (R154). -/
def Seg.inWindow (g : Seg) (from_ : Nat) : Bool := decide (from_ ≤ g.stop.toNat) || g.phase == .opened

/-- The second pass of R154 over serials newest first: the table, how many it protected, whether it stopped short. -/
def protectPass (n : Word) (from_ : Nat) : List Word → List Seg → Nat → List Seg × Nat × Bool
  | [], table, k => (table, k, false)
  | serial :: more, table, k =>
    let claim := mapFirst (fun g => g.serial == serial) fun g => { g with owner := some (.incident n) }
    let displaced (g : Seg) : Bool := g.ownedBefore n && !g.inWindow from_
    if (table.filter fun g => g.owner.isSome).length < Config.maxProtected then protectPass n from_ more (claim table) (k + 1)
    else if table.any displaced then
      protectPass n from_ more (claim (mapFirst displaced (fun g => { g with owner := none }) table)) (k + 1)
    else (table, k, true)

/-- Protection for incident `n` at time `t` (R154): the map after it, the number protected, PARTIAL. -/
def Store.protectWindow (n : Word) (t : Time) (st : Store) : Store × Nat × Bool :=
  let from_ := t.toNat - st.loops.pre * 1000000
  let first := st.table.map fun g =>
    if g.inWindow from_ && g.ownedBefore n then { g with owner := some (.incident n) } else g
  let renewed := (st.table.filter fun g => g.inWindow from_ && g.ownedBefore n).length
  let free := ((first.filter fun g => g.inWindow from_ && g.owner.isNone).map (·.serial)).reverse
  let (table, k, short) := protectPass n from_ free first 0
  let until_ := timeAfter t (st.loops.post * 1000000)
  let later := match st.protectUntil with
    | none => true
    | some o => decide (o.toNat < until_.toNat)
  ({ st with
      table
      protectUntil := if later then some until_ else st.protectUntil
      untilOwner := if later then some n else st.untilOwner }, renewed + k, short)

/-- The matter is the opening of a segment. -/
def Matter.isOpening : Matter → Option Word
  | .opening serial _ _ => some serial
  | _ => none

/-- The serial of the segment whose opening has been asked for and not completed. -/
def Store.opening (st : Store) : Option Word := st.matters.findSome? Matter.isOpening

/-- Step 2 of R153: the incident into a list; the serial of the segment that listed it, 0 for none. A segment being opened is
marked whatever the loop flag, and of several incidents in one pending opening the newest is the marking incident, its owner under
R155 (DESIGN CHOICE, log entry 55). -/
def Store.listIncident (n : Word) (i : Incident) (st : Store) : Store × Word :=
  match st.opening with
  | some serial =>
    let room := decide (st.openIncidents.length < Config.segIncidents)
    ({ st with
        openIncidents := if room then st.openIncidents ++ [i] else st.openIncidents
        openIncidentCount := st.openIncidentCount + 1
        openMark := some n }, if room then serial else 0)
  | none =>
    match st.openSeg with
    | none => (st, 0)
    | some g =>
      (st.mapSeg g.serial fun h =>
        { h with
          incidents := if h.incidents.length < Config.segIncidents then h.incidents ++ [i] else h.incidents
          incidentCount := h.incidentCount + 1 }, if g.incidents.length < Config.segIncidents then g.serial else 0)

/-- An incident handed over (R153). -/
def Store.incident (now : Time) (i : Incident) (st : Store) : Store :=
  let n := st.nextIncident
  let (a, serial) := ({ st with nextIncident := n + 1 } : Store).listIncident n i
  let (b, k, short) := if a.loops.loop then a.protectWindow n i.time else (a, 0, false)
  b.offer now .incident (.incident n i.time i.peak i.source serial k b.protectUntil short)

/-- PROTECT's action codes. -/
inductive ProtectAction where
  | set
  | clear
  deriving DecidableEq, Repr

/-- PROTECT (R156). -/
def Store.protect (st : Store) (serial : Word) (action : Nat) : Result ⊕ Store :=
  let act := match action with
    | 0 => some ProtectAction.set
    | 1 => some ProtectAction.clear
    | _ => none
  match act with
  | none => .inl .badField
  | some a =>
    match st.seg serial with
    | none => .inl .notFound
    | some g =>
      match a with
      | .set =>
        if g.owner.isNone && decide (Config.maxProtected ≤ st.protectedCount) then .inl .protectFull
        else .inr (st.mapSeg serial fun h => { h with owner := some .host })
      | .clear => .inr (st.mapSeg serial fun h => { h with owner := none })

/-! ## Opening, closing, removing (R145 to R150) -/

/-- A segment can be found room and a first pack for a clip with the given loop flag (R152). -/
def Store.canOpen (loop : Bool) (st : Store) : Bool :=
  let rel := st.table.any Seg.releasable
  (decide (st.table.length < Config.tableSize) || rel) && (!st.pool.isEmpty || (loop && rel))

/-- A segment's opening (R146): it fails (`none`), or it gives the first position. -/
def Store.openSegment (now : Time) (serial clip : Word) (index : Nat) (st : Store) : Reply (Option Nat) :=
  let free (t : Store) : Reply (Option Nat) :=
    match t.release now with
    | .blocked => .blocked
    | .moved u => .moved u
    | .answer u _ => .answer u none
  if st.table.length ≥ Config.tableSize then free st
  else match st.pool with
    | [] => free st
    | e :: rest =>
      if !st.segmentRoom then .blocked
      else
        let (owner, table, short) := st.entryProtection now
        let g : Seg :=
          { serial, clip, index, phase := .opened, owner, start := now, stop := now, timed := false, exts := [e]
            next := nextAfter e e.first, returned := none, used := 1, unwritten := 0, tail := .noneYet
            incidents := st.openIncidents, incidentCount := st.openIncidentCount, loop := st.loops.loop }
        let t := ({ st with pool := rest, table := table ++ [g], openIncidents := [], openIncidentCount := 0, openMark := none }
          : Store).segmentReport now (.segmentOpened serial clip index e.first owner short)
        .answer t (some e.first)

/-- A unit's time reaches the open segment (R145): the first replaces both times, a later one the end. -/
def Seg.noteTime (g : Seg) (t : Time) : Seg :=
  if g.timed then { g with stop := if timeLater t g.stop then t else g.stop }
  else { g with start := t, stop := t, timed := true }

/-- A close is asked for (R145): a segment with no unit takes the part time of the request as both times. -/
def Seg.noteClose (g : Seg) (now : Time) : Seg := if g.timed then g else { g with start := now, stop := now }

/-- The packs of the last extent not yet taken, once the tail has its own, are split off and join the pool at its head, if the pool has
room (R148). -/
def Store.splitTail (serial : Word) (st : Store) : Store :=
  match st.seg serial with
  | none => st
  | some g =>
    match g.next, g.exts.getLast? with
    | some cut, some e =>
      if cut < e.stop ∧ st.pool.length < Config.poolSize then
        ({ st with pool := { first := cut, count := e.stop - cut } :: st.pool }.mapSeg serial fun h =>
          { h with exts := h.exts.dropLast ++ [({ first := e.first, count := cut - e.first } : Extent)], next := none }).rearm
      else st
    | _, _ => st

/-- A close (R148): the tail's block, or no tail. With `noTail` the port has decided that none is written (R135). -/
def Store.closeSegment (now : Time) (serial : Word) (noTail : Bool) (st : Store) : Reply (Option Nat) :=
  let missing (t : Store) := t.mapSeg serial fun g => { g with tail := .missing, phase := .ending }
  if noTail then .answer (missing st) none
  else match st.nextPack now true serial with
    | .blocked => .blocked
    | .moved t => .moved t
    | .answer t (.position b) =>
      .answer ((t.mapSeg serial fun g => { g with tail := .pending b, phase := .ending }).splitTail serial) (some b)
    | .answer t _ => .answer (missing t) none

/-- The SEGMENT_CLOSED report of a segment (R149); the tail position of a MISSING tail is 0 (DESIGN CHOICE, log entry 43). -/
def Seg.closedReport (g : Seg) : ReportBody :=
  let tail := match g.tail with
    | .pending b => b
    | .written b => b
    | _ => 0
  .segmentClosed g.serial g.clip g.index g.start g.stop g.used g.unwritten tail (g.tail == .missing) g.incidentCount g.exts

/-- The completion of a close (R149): the report queued, the phase COMPLETE. -/
def Store.completeSegment (now : Time) (serial : Word) (st : Store) : Reply Unit :=
  match st.seg serial with
  | none => .answer st ()
  | some g =>
    if !st.segmentRoom then .blocked
    else .answer ((st.segmentReport now g.closedReport).mapSeg serial fun h => { h with phase := .complete }) ()

/-- After event 0x0401 the completed segment leaves the table, unless it loops and has an extent (R149). -/
def Store.leaveTable (serial : Word) (st : Store) : Store :=
  { st with table := st.table.filter fun g => g.serial != serial || (g.loop && !g.exts.isEmpty) }

/-- The extent of a segment that holds a block, cut before the pack that holds it. -/
def cutExtents (block : Nat) : List Extent → List Extent
  | [] => []
  | e :: l =>
    if e.first ≤ block ∧ block < e.stop then
      let lo := block / Config.packBlocks * Config.packBlocks
      if lo ≤ e.first then l else { first := e.first, count := lo - e.first } :: l
    else e :: cutExtents block l

/-- The range that leaves a segment: its first block, its block count, and the taken packs in it (R150). -/
def Seg.badRange (g : Seg) (block : Nat) : Option (Nat × Nat × Nat) :=
  match g.exts.find? (fun e => decide (e.first ≤ block) && decide (block < e.stop)) with
  | none => none
  | some e =>
    let lo := max e.first (block / Config.packBlocks * Config.packBlocks)
    let top := match g.next with
      | some n => if g.exts.getLast? = some e then max lo (min n e.stop) else e.stop
      | none => e.stop
    let back := (g.returned.toList.filter fun b => decide (lo ≤ b) && decide (b < e.stop)).length
    some (lo, e.stop - lo, (top - lo) / Config.packBlocks - back)

/-- The rest of the faulting extent leaves the segment (R150): the range removed, when there is one. With no extent of the segment
holding the block, nothing leaves, nothing is reported and no range is answered (DESIGN CHOICE, log entry 57). -/
def Store.removeRange (now : Time) (serial : Word) (block : Nat) (st : Store) : Reply (Option (Nat × Nat)) :=
  match st.seg serial with
  | none => .answer st none
  | some g =>
    match g.badRange block with
    | none => .answer st none
    | some (lo, n, taken) =>
      if !st.segmentRoom then .blocked
      else
        let last := match g.exts.getLast? with
          | some e => decide (e.stop = lo + n)
          | none => false
        let t := st.segmentReport now (.badExtent serial lo n)
        .answer (t.mapSeg serial fun h =>
          { h with
            exts := cutExtents block h.exts
            next := if last then none else h.next
            returned := h.returned.filter fun b => !(decide (lo ≤ b) && decide (b < lo + n))
            used := h.used - taken })
          (some (lo, n))

end Sys2Proof.Machine
end

