-- ==== Sys2Proof/Machine/ChargerOps.lean ====
section
/-! DEFINITION. The charger: phases, pauses, faults, bands, droop, budget, evaluations (chapter 9). -/

namespace Sys2Proof.Machine

/-! ## Codes (11.2, 11.6) -/

/-- The code of a charger state. -/
def ChState.code : ChState → Nat
  | .absent => 0
  | .qualify _ => 1
  | .precharge => 2
  | .fast => 3
  | .taper => 4
  | .full => 5
  | .paused _ => 6
  | .fault _ => 7

/-- The code of a pause reason. -/
def PauseReason.code : PauseReason → Nat
  | .host => 0
  | .path => 1
  | .dieHot => 2
  | .hot => 3
  | .cold => 4
  | .budget => 5

/-- The code of a fault reason. -/
def FaultReason.code : FaultReason → Nat
  | .timer => 0
  | .overvolt => 1
  | .thermistor => 2

/-- The reason shown beside a state: 0 in states without one. -/
def ChState.reasonCode : ChState → Nat
  | .paused r => r.code
  | .fault r => r.code
  | _ => 0

/-- The charging states (section 9.2). -/
def ChState.charging : ChState → Bool
  | .precharge => true
  | .fast => true
  | .taper => true
  | _ => false

/-- The attached states: every one but ABSENT and QUALIFY (section 9.2). -/
def ChState.attached : ChState → Bool
  | .absent => false
  | .qualify _ => false
  | _ => true

/-- The charger is in FAULT. -/
def ChState.faulted : ChState → Bool
  | .fault _ => true
  | _ => false

/-! ## What other blocks give the charger (R167, R168) -/

/-- What the charger reads directly from the supply manager and the card port. -/
structure Around where
  power : PowerState
  loadClass : Nat
  cardBusy : Bool
  path : PathMode

/-- The charger at work: what it becomes, the events it emits in order, the fault reports it hands over. -/
structure Work where
  c : Charger
  events : List (BitVec 16 × Int)
  reports : List ReportBody

/-- Work not yet begun. -/
def Charger.work (c : Charger) : Work := { c, events := [], reports := [] }

/-- The charger changed with nothing emitted. -/
def Work.on (w : Work) (f : Charger → Charger) : Work := { w with c := f w.c }

/-- An event emitted. -/
def Work.emit (w : Work) (n : BitVec 16) (arg : Int) : Work := { w with events := w.events ++ [(n, arg)] }

/-! ## Voltage, phase, pause conditions (R162, R164) -/

/-- Veff (R162). -/
def Charger.veff (c : Charger) : Nat := if c.band = .warm then c.profile.vreg - 100 else c.profile.vreg

/-- Vbat of the newest measurement. -/
def Charger.vbat (c : Charger) : Nat := c.meas.vbat.toNat

/-- The phase that Vbat decides (R162). -/
def Charger.phase (c : Charger) : ChState :=
  if c.vbat < 3000 then .precharge
  else if c.veff - 20 ≤ c.vbat then .taper
  else .fast

/-- The first pause condition that holds, in order of precedence (R164). -/
def Charger.pauseCondition (c : Charger) (path : PathMode) : Option PauseReason :=
  if c.hostPause then some .host
  else if path ≠ .normal then some .path
  else if c.dieCap then some .dieHot
  else if c.band = .hot then some .hot
  else if c.band = .cold then some .cold
  else if c.hold then some .budget
  else none

/-- Entry to a state, the driven target 0 at once where the state drives none (R167), the termination count 0 on leaving
TAPER (R163). -/
def Charger.enter (c : Charger) (st : ChState) : Charger :=
  { c with
    state := st
    driven := if st.charging then c.driven else 0
    term := if c.state = .taper ∧ st ≠ .taper then 0 else c.term }

/-- The limit of the fast timer in µs (R173). -/
def Charger.fastLimitUs (c : Charger) : Nat := c.profile.fastLimit * 1000000

/-- The CHARGER_FAULT report (R178). `timer` is 0 for precharge, 1 for fast. -/
def Charger.faultReport (c : Charger) (r : FaultReason) (timer left : Nat) : ReportBody :=
  .chargerFault r.code timer left c.meas c.profile.vreg c.veff (c.prechargeUs / 1000000) (c.fastUs / 1000000)

/-- Entry to FAULT (R165). -/
def Work.fault (w : Work) (r : FaultReason) (timer : Nat) : Work :=
  let left := w.c.state.code
  let report := w.c.faultReport r timer left
  let v := (w.on fun c => { c.enter (.fault r) with hold := false, term := 0 }).emit 0x0507 r.code
  { v with reports := v.reports ++ [report] }

/-- A safety timer at its limit faults the charger that counts on it (R173). -/
def Work.timerCheck (w : Work) : Work :=
  match w.c.state with
  | .precharge => if Config.prechargeLimit * 1000000 ≤ w.c.prechargeUs then w.fault .timer 0 else w
  | .fast => if w.c.fastLimitUs ≤ w.c.fastUs then w.fault .timer 1 else w
  | .taper => if w.c.fastLimitUs ≤ w.c.fastUs then w.fault .timer 1 else w
  | _ => w

/-- The charger begins or resumes charging: PAUSED when a condition holds, otherwise the phase that Vbat decides (R161, R163,
R164, R166). `told` says that CHARGE_PAUSED or CHARGE_RESUMED is emitted; an attach emits neither (DEDUCED, log entry 31). -/
def Work.begin (w : Work) (path : PathMode) (told : Bool) : Work :=
  match w.c.pauseCondition path with
  | some r =>
    let v := w.on fun c => c.enter (.paused r)
    if told then v.emit 0x0503 r.code else v
  | none =>
    let ph := w.c.phase
    let v := w.on fun c => c.enter ph
    (if told then v.emit 0x0504 ph.code else v).timerCheck

/-- The pause tests (R164). -/
def Work.pauseTests (w : Work) (path : PathMode) : Work :=
  match w.c.state with
  | .precharge | .fast | .taper =>
    match w.c.pauseCondition path with
    | some r => (w.on fun c => c.enter (.paused r)).emit 0x0503 r.code
    | none => w
  | .paused old =>
    match w.c.pauseCondition path with
    | some r => if r = old then w else (w.on fun c => c.enter (.paused r)).emit 0x0503 r.code
    | none => w.begin path true
  | _ => w

/-! ## Bands, die cap, droop (R170, R172) -/

/-- The band in which a temperature lies (R170). -/
def bandAt (t : Int) : ThermalBand :=
  if t < 0 then .cold
  else if t < 100 then .cool
  else if t < 450 then .normal
  else if t < 550 then .warm
  else .hot

/-- The band after a temperature, with the hysteresis toward NORMAL (R170). -/
def moveBand (b : ThermalBand) (t : Int) : ThermalBand :=
  match b, bandAt t with
  | .cold, .cool => if 20 ≤ t then .cool else .cold
  | .cold, .normal => if 120 ≤ t then .normal else if 20 ≤ t then .cool else .cold
  | .cool, .normal => if 120 ≤ t then .normal else .cool
  | .hot, .warm => if t < 530 then .warm else .hot
  | .hot, .normal => if t < 430 then .normal else if t < 530 then .warm else .hot
  | .warm, .normal => if t < 430 then .normal else .warm
  | _, r => r

/-- The die cap after a die temperature (R170). -/
def moveDieCap (cap : Bool) (die : Int) : Bool := if 1100 ≤ die then true else if die < 1000 then false else cap

/-- The droop trim at a periodic evaluation (R172). -/
def Charger.droopStep (c : Charger) : Charger :=
  if !c.state.attached then c
  else if c.meas.vin.toNat < Config.vinMin then { c with droop := min c.iinLimit (c.droop + 50) }
  else if Config.vinMin + 200 ≤ c.meas.vin.toNat ∧ 0 < c.droop then { c with droop := c.droop - 25 }
  else c

/-! ## Budget and target (R168, R169, R171) -/

/-- The base load of a power state (R168). -/
def Profile.base (p : Profile) : PowerState → Nat
  | .active => p.baseActive
  | .parked => p.baseParked
  | .sleep => p.baseSleep

/-- The entry of the class table (R168). -/
def Profile.classLoad (p : Profile) (cls : Nat) : Nat :=
  match cls with
  | 0 => p.classes.a0
  | 1 => p.classes.a1
  | 2 => p.classes.a2
  | _ => p.classes.a3

/-- Rounded down to the charge target step, 25 mA. -/
def toStep (x : Nat) : Nat := x / 25 * 25

/-- The budget (R169): available × Vin × 15 / (16 × Vbat), Vbat taken as at least 2,000. -/
def budgetOf (available vin vbat : Nat) : Nat := available * vin * 15 / (16 * max 2000 vbat)

/-- The phase limit: a tenth of Ichg_max in PRECHARGE, by the charging state or else by the phase Vbat decides (R169). -/
def Charger.phaseLimit (c : Charger) : Nat :=
  let ph := if c.state.charging then c.state else c.phase
  if ph = .precharge then c.profile.ichgMax / 10 else c.profile.ichgMax

/-- The thermal cap (R169, R170). -/
def Charger.cap (c : Charger) : Nat :=
  if c.dieCap then 0
  else match c.band with
    | .cold => 0
    | .cool => c.profile.ichgMax / 2
    | .normal => c.profile.ichgMax
    | .warm => c.profile.ichgMax / 2
    | .hot => 0

/-- Step 5 of an evaluation: the terms and the computed target (R169). -/
def Charger.compute (c : Charger) (a : Around) : Charger :=
  let lp := c.profile.base a.power
  let lc := c.profile.classLoad a.loadClass
  let lcard := if a.cardBusy then c.profile.lcard else 0
  let available := c.iinLimit - lp - lc - lcard - c.droop
  let budget := budgetOf available c.meas.vin.toNat c.vbat
  { c with terms :=
      { lp, lc, lcard, available, budget, phaseLimit := c.phaseLimit, cap := c.cap
        computed := toStep (min budget (min c.phaseLimit c.cap)) } }

/-- The budget hold at step 6 (R171). -/
def Charger.holdStep (c : Charger) : Charger :=
  let l := toStep c.terms.phaseLimit
  if c.hold then
    if c.phase = .taper then { c with hold := false }
    else { c with hold := !decide (min 150 l ≤ c.terms.computed) }
  else if (c.state = .precharge ∨ c.state = .fast) ∧ c.terms.computed < min 100 l then { c with hold := true }
  else c

/-- Step 8: the driven target (R167). -/
def Charger.drive (c : Charger) : Charger := { c with driven := if c.state.charging then c.terms.computed else 0 }

/-- Steps 5, 6 and 8: a prompt evaluation (R167). -/
def Work.prompt (w : Work) (a : Around) : Work :=
  (((w.on fun c => (c.compute a).holdStep).pauseTests a.path)).on Charger.drive

/-- Step 1: the fault tests (R165). -/
def Work.faultTests (w : Work) : Work :=
  if !w.c.state.attached || w.c.state.faulted then w
  else if w.c.meas.temp.toInt < -400 then w.fault .thermistor 0
  else if w.c.profile.vreg + 100 < w.c.vbat then w.fault .overvolt 0
  else w

/-- Step 4: the phase step (R162), or the recharge test in FULL (R163). -/
def Work.phaseStep (w : Work) (path : PathMode) : Work :=
  match w.c.state with
  | .precharge => if 3000 ≤ w.c.vbat then (w.on fun c => c.enter .fast).timerCheck else w
  | .fast => if w.c.veff - 20 ≤ w.c.vbat then (w.on fun c => c.enter .taper).timerCheck else w
  | .full => if w.c.vbat < w.c.veff - 100 then w.begin path true else w
  | _ => w

/-- Step 7: the termination count, and FULL when it reaches 10 (R163). -/
def Work.termStep (w : Work) : Work :=
  if w.c.state = .taper ∧ 2 * w.c.profile.iterm ≤ w.c.terms.computed then
    let n := if w.c.meas.ibat.toInt < w.c.profile.iterm then w.c.term + 1 else 0
    if 10 ≤ n then
      (w.on fun c => { c.enter .full with prechargeUs := 0, fastUs := 0, term := 0 }).emit 0x0502 w.c.vbat
    else w.on fun c => { c with term := n }
  else w

/-- A periodic evaluation, steps 1 to 8 (R167). -/
def Work.periodic (w : Work) (a : Around) : Work :=
  let v := w.faultTests.on fun c =>
    ({ c with band := moveBand c.band c.meas.temp.toInt, dieCap := moveDieCap c.dieCap c.meas.die.toInt }).droopStep
  let u := ((v.phaseStep a.path).on fun c => (c.compute a).holdStep).pauseTests a.path
  u.termStep.on Charger.drive

/-! ## Input presence (R161) -/

/-- What a measurement does to input presence. -/
inductive Presence where
  | same
  | attach
  | lost
  deriving DecidableEq, Repr

/-- A measurement replaces the one before; the first after a reset sets the band and the die cap (R160, R179). -/
def Charger.measure (c : Charger) (m : Measurement) : Charger :=
  if c.fresh then
    { c with meas := m, fresh := false, band := bandAt m.temp.toInt, dieCap := decide (1100 ≤ m.die.toInt) }
  else { c with meas := m }

/-- The attach, before its prompt evaluation (R161). -/
def Work.attach (w : Work) (path : PathMode) : Work :=
  let v := w.on fun c =>
    { c with
      iinLimit := if c.limitGiven then c.iinLimit else 500
      droop := 0
      prechargeUs := 0
      fastUs := 0
      term := 0 }
  (v.emit 0x0500 v.c.meas.vin.toNat).begin path false

/-- The input loss (R161). -/
def Work.lose (w : Work) : Work :=
  (w.on fun c =>
    { c.enter .absent with hold := false, prechargeUs := 0, fastUs := 0, term := 0, droop := 0, limitGiven := false }).emit
    0x0501 w.c.meas.vin.toNat

/-- Input detection at a measurement (R161). -/
def Work.detect (w : Work) (path : PathMode) : Work × Presence :=
  let vin := w.c.meas.vin.toNat
  match w.c.state with
  | .absent => (if 4000 ≤ vin then w.on fun c => c.enter (.qualify 0) else w, .same)
  | .qualify n =>
    if vin < 4000 then (w.on fun c => c.enter .absent, .same)
    else if vin < 4300 then (w.on fun c => c.enter (.qualify 0), .same)
    else if n + 1 < 10 then (w.on fun c => c.enter (.qualify (n + 1)), .same)
    else (w.attach path, .attach)
  | _ => if vin < 4000 then (w.lose, .lost) else (w, .same)

/-! ## Settings (R166, R174, R175, R177) -/

/-- The charge profile as clamped (R174). -/
def Profile.clamped (p : Profile) : Profile :=
  let ichg := clampTo 100 3000 p.ichgMax
  { vreg := clampTo 4100 4400 p.vreg
    ichgMax := ichg
    iterm := max 50 (min (clampTo 50 400 p.iterm) (toStep (ichg / 2)))
    fastLimit := clampTo 1800 36000 p.fastLimit
    lcard := clampTo 0 1000 p.lcard
    baseActive := clampTo 0 3000 p.baseActive
    baseParked := clampTo 0 3000 p.baseParked
    baseSleep := clampTo 0 3000 p.baseSleep
    classes := p.classes.map (clampTo 0 3000) }

/-- A fault clear (R166). -/
def Work.clearFault (w : Work) (path : PathMode) : Work :=
  (w.on fun c => { c with prechargeUs := 0, fastUs := 0, hold := false }).begin path true

/-- CHARGE_SETUP (R174). The profile is replaced first: the phase that a fault clear enters is found with the new Veff, and a TIMER fault
that the new limit brings at once reports the new Vreg and Veff (R178). Both come before the prompt evaluation, and R174 gives the new
Veff "from the next evaluation" without naming either (DESIGN CHOICE, log entry 63). -/
def Work.setup (w : Work) (p : Profile) (clear : Bool) (a : Around) : Work :=
  let v := w.on fun c => { c with profile := p.clamped }
  let u := if clear && v.c.state.faulted then v.clearFault a.path else v.timerCheck
  u.prompt a

/-- INPUT_LIMIT (R175). -/
def Work.limit (w : Work) (ma : Nat) (a : Around) : Work :=
  let l := clampTo 100 3000 ma
  (w.on fun c => { c with iinLimit := l, limitGiven := true, droop := min c.droop l }).prompt a

/-- The charger's state shows a change of state or reason (R164): a new qualify count is none. -/
def ChState.shows (a b : ChState) : Bool := a.code != b.code || a.reasonCode != b.reasonCode

end Sys2Proof.Machine
end

