-- ==== Sys2Proof/Machine/Assembler.lean ====
section
/-! DEFINITION. The clip assembler's parts: buffers, units, the motion-unit queue, heads and tails, the start and the end of a close (chapter 6). -/

namespace Sys2Proof.Machine

/-! ## Streams -/

/-- The value of a stream. -/
def streamGet {α : Type} (v : Six α) : Stream → α
  | .main => v.main
  | .proxy => v.proxy
  | .audio => v.audio
  | .motion => v.motion
  | .marker => v.marker
  | .filler => v.filler

/-- The value of one stream changed. -/
def streamSet {α : Type} (v : Six α) (s : Stream) (f : α → α) : Six α :=
  match s with
  | .main => { v with main := f v.main }
  | .proxy => { v with proxy := f v.proxy }
  | .audio => { v with audio := f v.audio }
  | .motion => { v with motion := f v.motion }
  | .marker => { v with marker := f v.marker }
  | .filler => { v with filler := f v.filler }

/-- The stream a CHUNK frame's code names (R104). -/
def chunkStream : Nat → Option Stream
  | 0 => some .main
  | 1 => some .proxy
  | 2 => some .audio
  | _ => none

/-- The stream is in a clip's streams mask: bit 0 MAIN, 1 PROXY, 2 AUDIO, 3 MOTION (11.3). -/
def ClipSet.records (c : ClipSet) : Stream → Bool
  | .main => c.streams.getLsbD 0
  | .proxy => c.streams.getLsbD 1
  | .audio => c.streams.getLsbD 2
  | .motion => c.streams.getLsbD 3
  | .marker => true
  | .filler => true

/-- The repeat sequence of a stream (R107). -/
def Repeats.of (r : Repeats) : Stream → Option (BitVec 16)
  | .main => r.main
  | .proxy => r.proxy
  | .audio => r.audio
  | _ => none

/-- The repeat sequences after a data error: the stream of the unit gets its number, and the other streams keep theirs until the
frame is finished (R107). -/
def Repeats.keep (r : Repeats) (s : Stream) (seq : BitVec 16) : Repeats :=
  match s with
  | .main => { r with main := some seq }
  | .proxy => { r with proxy := some seq }
  | .audio => { r with audio := some seq }
  | _ => r

/-! ## Pack buffers (R108) -/

/-- The lowest-numbered buffer with a property. -/
def firstOf {α : Type} (v : Four α) (p : α → Bool) : Option (Fin 4) :=
  if p v.a0 then some 0 else if p v.a1 then some 1 else if p v.a2 then some 2 else if p v.a3 then some 3 else none

/-- The FILLING buffer. -/
def Writer.filling (w : Writer) : Option (Fin 4) := firstOf w.bufs fun b => b.st == .filling

/-- The lowest-numbered EMPTY buffer. -/
def Writer.spare (w : Writer) : Option (Fin 4) := firstOf w.bufs fun b => b.st == .empty

/-- A buffer changed. -/
def Writer.onBuf (w : Writer) (i : Fin 4) (f : Buf → Buf) : Writer := { w with bufs := w.bufs.set i (f (w.bufs.get i)) }

/-- An EMPTY buffer that becomes FILLING (R109). -/
def Buf.fresh : Buf := { st := .filling, fill := 0, pos := none, data := [] }

/-- The room left in a buffer. -/
def Buf.room (b : Buf) : Nat := Config.packBytes - b.fill

/-- Bytes placed at the fill level. -/
def Buf.place (b : Buf) (l : List Byte) : Buf :=
  { b with data := memWrite b.data b.fill l, fill := b.fill + l.length }

/-- Zero bytes placed at the fill level. -/
def Buf.placeZeros (b : Buf) (n : Nat) : Buf := { b with fill := b.fill + n }

/-- Bytes of host memory placed at the fill level. -/
def Buf.placeHost (b : Buf) (m : Mem) (a n : Nat) : Buf :=
  { b with data := memCopy b.data b.fill m a n, fill := b.fill + n }

/-! ## The bytes still to be placed -/

/-- The length of a run. -/
def Src.length : Src → Nat
  | .bytes l => l.length
  | .host _ n => n
  | .zeros n => n

/-- The length of all runs. -/
def srcLength (l : List Src) : Nat := (l.map Src.length).sum

/-- The runs that have a byte to place: with none left, nothing waits to be placed. -/
def runsOf (l : List Src) : List Src := l.filter fun src => src.length != 0

/-- The bytes of a run that fit into `n`, and what is left of it. -/
def Src.splitAt (n : Nat) : Src → Src × Src
  | .bytes l => (.bytes (l.take n), .bytes (l.drop n))
  | .host a k => (.host a (min n k), .host (a + min n k) (k - n))
  | .zeros k => (.zeros (min n k), .zeros (k - n))

/-- A run placed into a buffer. -/
def Buf.placeSrc (b : Buf) (m : Mem) : Src → Buf
  | .bytes l => b.place l
  | .host a n => b.placeHost m a n
  | .zeros n => b.placeZeros n

/-- The run is data of a chunk or its padding, not a header. -/
def Src.isPayload : Src → Bool
  | .bytes _ => false
  | .host .. => true
  | .zeros _ => true

/-- A chunk's last part stands at the link: its copy ends with a CHUNK_COPY_COMPLETE (log entry 12). -/
def Writer.awaitsCopy (w : Writer) : Bool :=
  match w.job, w.filling, w.feed with
  | some j, some i, src :: _ =>
    j.stage == .copying && src.isPayload && (w.bufs.get i).pos.isSome && decide (srcLength w.feed ≤ (w.bufs.get i).room)
  | _, _, _ => false

/-- One run, or as much of it as fits, moves into the FILLING buffer (R106). -/
def Writer.feedStep (mem : Mem) (w : Writer) : Option Writer :=
  match w.feed, w.filling with
  | src :: rest, some i =>
    let b := w.bufs.get i
    if src.length = 0 then some { w with feed := rest }
    else if b.pos.isNone || b.room == 0 || w.awaitsCopy then none
    else
      let (now, later) := src.splitAt b.room
      some { w.onBuf i (fun b => b.placeSrc mem now) with feed := if later.length = 0 then rest else later :: rest }
  | _, _ => none

/-- All the bytes still to be placed move into the FILLING buffer. -/
def Writer.feedAll (mem : Mem) (w : Writer) : Writer :=
  match w.filling with
  | none => w
  | some i => { w.onBuf i (fun b => w.feed.foldl (fun b src => b.placeSrc mem src) b) with feed := [] }

/-! ## Units (R106, R112) -/

/-- The padding of a payload to a multiple of 4. -/
def padOf (n : Nat) : Nat := (4 - n % 4) % 4

/-- A unit counted in the clip and in its segment. -/
def Writer.countUnit (w : Writer) (s : Stream) : Writer :=
  { w with
    placed := streamSet w.placed s (· + 1)
    seg := w.seg.map fun g => { g with counts := streamSet g.counts s (· + 1) } }

/-- A unit begins: its header and payload are to be placed; a REPEAT copy takes no new number (R106, R107). It is counted in the
segment that is open now, where its header begins, also when an extent cut splits the header (DESIGN CHOICE, log entry 66). -/
def Writer.startUnit (w : Writer) (s : Stream) (flags : Byte) (seq : BitVec 16) (again : Bool) (length : Nat) (time : Time)
    (payload : List Src) : Writer :=
  let v := w.countUnit s
  { v with
    seqs := if again then v.seqs else streamSet v.seqs s (· + 1)
    feed := runsOf (.bytes (unitHeader s flags seq length time) :: payload ++ [.zeros (padOf length)]) }

/-- The oldest queued unit begins (R112). -/
def Writer.startQueued (w : Writer) (u : QUnit) : Writer :=
  let s : Stream := if u.motion then .motion else .marker
  w.startUnit s 0 (streamGet w.seqs s) false u.payload.length u.time [.bytes u.payload]

/-- The chunk's unit begins (R106, R107). -/
def Writer.startChunk (w : Writer) (j : ChunkJob) : Writer :=
  let again := w.repeats.of j.stream
  let seq := again.getD (streamGet w.seqs j.stream)
  let flags : Byte := (j.flags &&& 1) ||| (if again.isSome then 2 else 0)
  let v := w.startUnit j.stream flags seq again.isSome j.length j.time (j.pieces.map fun p => .host p.address p.length)
  { v with job := some { j with seq, stage := .copying } }

/-- The FILLING buffer padded to its end: a FILLER unit when 16 bytes or more are left (R116). -/
def Writer.pad (now : Time) (w : Writer) : Writer :=
  match w.filling with
  | none => w
  | some i =>
    let room := (w.bufs.get i).room
    if room = 0 then w
    else if room < 16 then w.onBuf i fun b => b.placeZeros room
    else
      let header := unitHeader .filler 0 w.seqs.filler (room - 16) now
      let v := (w.countUnit .filler).onBuf i fun b => (b.place header).placeZeros (room - 16)
      { v with seqs := streamSet v.seqs .filler (· + 1) }

/-! ## The motion-unit queue (R111) -/

/-- The first MOTION unit taken out. -/
def dropMotion : List QUnit → List QUnit
  | [] => []
  | u :: l => if u.motion then l else u :: dropMotion l

/-- A unit arrives at the queue (R111). -/
def Writer.enqueue (w : Writer) (u : QUnit) : Writer :=
  if w.queue.length < Config.unitQueue then { w with queue := w.queue ++ [u] }
  else if w.queue.any (·.motion) then
    { w with queue := dropMotion w.queue ++ [u], motionDropped := w.motionDropped + 1 }
  else if u.motion then { w with motionDropped := w.motionDropped + 1 }
  else { w with markersDropped := w.markersDropped + 1 }

/-- A marker may be made: OPEN, or CLOSING with the final pack not yet queued (R113). A close whose step 3 has given up an empty FILLING
buffer has no final pack to queue, and makes no marker from there on (DESIGN CHOICE, log entry 74). -/
def Writer.takesMarkers (w : Writer) : Bool :=
  w.state == .opened || (w.state == .closing && (w.closing == .drain || w.closing == .queue))

/-! ## The exchange seen from the assembler -/

/-- A LIVE card record stands on the fault stack. -/
def Exchange.liveRecord (x : Exchange) : Bool :=
  x.stack.any fun r => match r with
    | .card _ _ _ _ _ _ live _ => live
    | _ => false

/-- A format-2 record stands on the fault stack. -/
def Exchange.cardRecord (x : Exchange) : Bool :=
  x.stack.any fun r => match r with
    | .card .. => true
    | _ => false

/-- A raw write in flight counts as a list entry (R124, R126). -/
def Card.rawWriting (c : Card) : Bool :=
  match c.raw with
  | some r => r.isWrite && r.inFlight
  | none => false

/-- The entries that count against the three of the list (R124). -/
def Card.load (c : Card) : Nat := c.list.length + (if c.rawWriting then 1 else 0)

/-- The pending-write list has room (R124). -/
def State.listRoom (s : State) : Bool := decide (s.card.load < Config.maxWrites) && !s.xchg.liveRecord

/-- A frame finished by its owner (R87), the chunk gate and part time as they stand. -/
def State.finish (s : State) (l : Lane) (st : Status) (r : Result) (value : Nat) : State :=
  s.onXchg (Exchange.finish s.writer.gate s.time l st r value)

/-- A lane released from a record that has been popped or superseded (R96). A CHUNK frame that its retake finishes leaves no repeat
sequence (R107). -/
def State.release (l : Lane) (s : State) : State :=
  let t := s.onXchg fun x => x.release s.writer.gate s.time l
  if l = .chunk ∧ s.xchg.retakeEnds s.time .chunk = true then t.onWriter fun w => { w with repeats := .empty } else t

/-- The open clip's number, 0 for none. -/
def Writer.clipNumber (w : Writer) : Word := (w.clip.map (·.number)).getD 0

/-! ## The start of a close (R119 step 1) -/

/-- The CHUNK frame in hand has begun its copy. -/
def Writer.copyBegun (w : Writer) : Bool :=
  match w.job with
  | some j => j.stage == .copying
  | none => false

/-- A cut that a close leaves to be completed: an extent cut, or one whose step 3 has begun (R116). A step 3 under way when the close
comes, its close asked or its tail built and not handed, is completed with the cut's own reason and not left to step 5 of the close
(DESIGN CHOICE, log entry 65). -/
def Cut.stays (c : Cut) : Bool :=
  c.reason == .extents || c.stage == .waitClose || c.stage == .handTail

/-- The matter is the opening of a segment or a first position. -/
def Matter.opens : Matter → Bool
  | .opening .. => true
  | _ => false

/-- The matter asks a position for a buffer that became FILLING. -/
def Matter.asksPosition : Matter → Bool
  | .position _ => true
  | _ => false

/-- The matter asks a new position for a FILLING buffer whose position was removed (R150). -/
def Matter.replacesFilling : Matter → Bool
  | .replaceFilling _ => true
  | _ => false

/-- An opening asked for and not answered is dropped, with the incidents gathered for it (log entry 14). -/
def Store.dropOpening (st : Store) : Store :=
  { st.dropMatters Matter.opens with openIncidents := [], openIncidentCount := 0, openMark := none }

/-- The cut in progress is an extent cut. -/
def Writer.extentCut (w : Writer) : Bool := (w.cut.map fun c => c.reason == .extents).getD false

/-- A close starts, when the writer is OPEN (R119): the gate shut, the cut request cleared, a chunk whose copy has not begun
refused with CLOSING, which ends its repeat sequence (R107), a cut turned into the close, a buffer with an unanswered position emptied
unless it holds units and its position was removed (R110, R150, log entry 14). -/
def State.startClose (reason : CloseReason) (s : State) : State :=
  if s.writer.state ≠ .opened then s
  else
    let begun := s.writer.copyBegun
    let w : Writer := { s.writer with
      state := .closing, reason, gate := false, cutRequest := false
      job := if begun then s.writer.job else none
      cut := (s.writer.cut.filter Cut.stays).map fun c => { c with outer := none }
      closing := .drain, tailBy := .assembler }
    let dropBuf := w.feed.isEmpty && !s.writer.extentCut
    let replacing := s.store.matters.any Matter.replacesFilling
    let w' := match w.filling with
      | some i => if dropBuf && (w.bufs.get i).pos.isNone && !replacing then w.onBuf i fun _ => .empty else w
      | none => w
    let store (st : Store) : Store := if dropBuf then (st.dropMatters Matter.asksPosition).dropOpening else st
    let s' : State := { s with writer := w', store := store s.store }
    match s'.xchg.hand .chunk with
    | some _ => if begun then s' else (s'.onWriter fun w => { w with repeats := .empty }).finish .chunk .refused .closing 0
    | none => s'

/-! ## Incidents at the assembler (R113) -/

/-- The serial a marker carries: of the segment being opened, else of the open segment, else of the next (R113). While a cut has queued
the old pack and the close of the old segment is not answered, that segment is still OPEN and gives its serial (DESIGN CHOICE, log
entry 73). -/
def State.markerSerial (s : State) : Word :=
  match s.store.opening with
  | some n => n
  | none =>
    match s.store.openSeg with
    | some g => g.serial
    | none => if s.writer.cut.isSome then s.store.nextSerial else 0

/-- An incident reaches the assembler: the storage map takes it in every writer state, a marker when one may be made. -/
def State.takeIncident (time : Time) (source : BitVec 16) (s : State) : State :=
  let peak := s.motion.shockPeak
  let serial := s.markerSerial
  let s' := s.onStore (Store.incident s.time { time, peak, source })
  if s.writer.takesMarkers then
    s'.onWriter fun w => w.enqueue { motion := false, time, payload := markerPayload time peak serial source }
  else s'

/-! ## The segment head and the tail block (R117) -/

/-- The segment is open: its first position and its head go into the FILLING buffer (R103, R116, R117). -/
def Writer.openSegment (w : Writer) (serial : Word) (index block : Nat) : Writer :=
  let v := { w with seg := some { serial, index, counts := .all 0 } }
  match v.filling, v.clip with
  | some i, some c =>
    v.onBuf i fun b =>
      ({ b with pos := some block } : Buf).place (headBytes c.number serial index c.streams c.duration (srcLength v.feed))
  | _, _ => v

/-- The tail block built in the tail buffer (R116 step 3, R117). -/
def State.buildTail (reason : CutReason) (block : Nat) (s : State) : State :=
  match s.writer.seg with
  | none => s
  | some g =>
    let (start, stop, packs) := match s.store.seg g.serial with
      | some h => (h.start, h.stop, h.used)
      | none => (s.time, s.time, 0)
    let data := memCells 0 (tailBytes s.writer.clipNumber g.serial g.index reason s.writer.reason packs g.counts s.writer.seqs start stop)
    s.onWriter fun w => { w with tail := { st := .built, pos := block, serial := g.serial, data } }

/-- An entry for the pending-write list. -/
def Writer.entry (w : Writer) (source : Source) (block count : Nat) (serial : Word) (settling : Bool) : Entry :=
  { source, block, count, serial, clip := w.clipNumber, begun := false, resumed := false, awaiting := false, settling }

/-- The FILLING buffer handed to the card port (R109). The final pack of a close that a settlement started is handed like any other,
so its failure pushes a fresh record (DESIGN CHOICE, log entry 68). -/
def State.queueBuffer (i : Fin 4) (s : State) : State :=
  let serial := (s.writer.seg.map (·.serial)).getD 0
  let e := s.writer.entry (.buf i) ((s.writer.bufs.get i).pos.getD 0) Config.packBlocks serial false
  (s.onWriter fun w => w.onBuf i fun b => { b with st := .queued }).onCard fun c => { c with list := c.list ++ [e] }

/-- The built tail handed to the card port (R116 step 3). -/
def State.queueTail (settling : Bool) (s : State) : State :=
  let t := s.writer.tail
  let e := s.writer.entry .tail t.pos 1 t.serial settling
  (s.onWriter fun w => { w with tail := { w.tail with st := .queued } }).onCard fun c => { c with list := c.list ++ [e] }

/-- The buffer of a write ended or discarded becomes EMPTY (R108). -/
def Writer.giveBack (w : Writer) (src : Source) : Writer :=
  match src with
  | .buf i => w.onBuf i fun _ => .empty
  | .tail => { w with tail := .empty }

/-- The writer after any reset (R121); a buffer or tail being written stays until its write ends. -/
def Writer.afterReset (w : Writer) (inFlight : Option Source) : Writer :=
  match inFlight with
  | some (.buf i) => { Writer.reset with bufs := (Four.all Buf.empty).set i (w.bufs.get i) }
  | some .tail => { Writer.reset with tail := w.tail }
  | none => .reset

end Sys2Proof.Machine
end

