-- ==== Sys2Proof/Machine/CardPort.lean ====
section
/-! DEFINITION. The card port: transfers and their ends, card records, settling, removal, resumption (chapter 7). -/

namespace Sys2Proof.Machine

/-- What delivers an emitted event; the blocks take it as an argument, and the router supplies it (R60). -/
abbrev Emit := Event → State → State

/-- A block event at the part time of its emission, with a number for its argument (R60). -/
def State.raise (emit : Emit) (n : BitVec 16) (arg : Int) (s : State) : State :=
  emit { number := n, time := s.time, arg := .num arg } s

/-! ## The charger at work in the state -/

/-- What the charger reads from the other blocks (R168). -/
def State.around (s : State) : Around :=
  { power := s.supply.power
    loadClass := s.supply.loadClass
    cardBusy := s.card.state == .writing || s.card.state == .busy
    path := s.supply.mode }

/-- The charger's work taken into the state: a change of state or reason asks for a refresh (R164), reports are offered
(R178), events are emitted in their order. The action is whole, and its report offered, before the first of its events reaches a
sink; the manual does not order them (DESIGN CHOICE, log entry 10). -/
def State.runCharger (emit : Emit) (f : Work → Work) (s : State) : State :=
  let w := f s.charger.work
  let a := { s with charger := w.c }
  let b := if w.c.state.shows s.charger.state then a.askRefresh else a
  let c := b.onStore fun st => w.reports.foldl (fun st r => st.offer s.time .charger r) st
  w.events.foldl (fun s e => s.raise emit e.1 e.2) c

/-- A prompt evaluation (R167). -/
def State.prompt (emit : Emit) (s : State) : State := s.runCharger emit fun w => w.prompt s.around

/-! ## What the storage map hears of a write (R149) -/

/-- A pack's write was discarded. -/
def Store.packDiscarded (serial : Word) (st : Store) : Store :=
  { st with table := st.table.map fun g => if g.serial = serial then { g with unwritten := g.unwritten + 1 } else g }

/-- A tail was ACCEPTED. -/
def Store.tailWritten (serial : Word) (block : Nat) (st : Store) : Store :=
  st.mapSeg serial fun g => { g with tail := .written block }

/-- A tail was discarded, failed in a settlement, or could not be placed. -/
def Store.tailMissing (serial : Word) (st : Store) : Store :=
  st.mapSeg serial fun g => { g with tail := .missing }

/-- The source is a pack buffer. -/
def Source.isPack : Source → Bool
  | .buf _ => true
  | .tail => false

/-- An entry discarded: its buffer EMPTY, the storage map told (R132). -/
def State.discard (e : Entry) (s : State) : State :=
  let t := (s.onCard fun c => { c with list := c.list.filter fun o => o.source != e.source }).onWriter fun w => w.giveBack e.source
  t.onStore fun st => if e.source.isPack then st.packDiscarded e.serial else st.tailMissing e.serial

/-! ## Transfers -/

/-- The list entry in flight. -/
def Card.flying (c : Card) : Option Entry :=
  if c.state = .writing ∨ c.state = .busy then c.list.find? (·.begun) else none

/-- The 500 ms of BUSY have passed before the card's answer: the write has ended TIMEOUT (R126). -/
def Card.overLimit (now : Time) (c : Card) : Bool :=
  c.state == .busy && (match c.busySince with
    | some t => timeLater now (timeAfter t Config.busyLimit)
    | none => false)

/-- A raw transfer is in flight. -/
def Card.rawFlying (c : Card) : Bool :=
  match c.raw with
  | some r => r.inFlight
  | none => false

/-- A transfer is in flight. -/
def Card.inFlight (c : Card) : Bool := c.rawFlying || c.flying.isSome

/-- The source of the write in flight. -/
def Card.flyingSource (c : Card) : Option Source := if c.rawFlying then none else c.flying.map (·.source)

/-- The counts of an outcome (R127, R129); a removal is counted where the card leaves (log entry 17). -/
def Card.count (c : Card) : CardOutcome → Card
  | .accepted => { c with accepted := c.accepted + 1 }
  | .writeError => { c with writeErrors := c.writeErrors + 1 }
  | .timeout => { c with timeouts := c.timeouts + 1 }
  | .removed => c

/-- The buffer or tail whose write begins becomes WRITING (R108). -/
def Writer.beginWrite (w : Writer) : Source → Writer
  | .buf i => w.onBuf i fun b => { b with st := .writing }
  | .tail => { w with tail := { w.tail with st := .writing } }

/-- A list entry's write begins (R126). CARD_WRITE_START reaches its sinks before the prompt evaluation made on it (R167), an order
that the manual leaves open (DESIGN CHOICE, log entry 61). -/
def State.beginEntry (emit : Emit) (e : Entry) (s : State) : State :=
  let t := (s.onCard fun c =>
    { c with
      state := .writing
      list := c.list.map fun o => if o.source = e.source then { o with begun := true } else o }).onWriter fun w => w.beginWrite e.source
  (t.raise emit 0x0406 e.count).prompt emit

/-- The raw transfer begins; only a write emits (R126, R129), its sinks acting before the prompt evaluation (DESIGN CHOICE, log entry
61). -/
def State.beginRaw (emit : Emit) (r : RawJob) (s : State) : State :=
  let t := s.onCard fun c => { c with state := .writing, raw := some { r with inFlight := true } }
  if r.isWrite then (t.raise emit 0x0406 r.count).prompt emit else t

/-- The arbiter's choice (R125). -/
def State.arbitrate (emit : Emit) (s : State) : Option State :=
  let c := s.card
  if c.state != .ready || c.draining || s.xchg.liveRecord then none
  else
    let next := c.list.find? fun e => !e.begun
    let entry : Option State :=
      match next with
      | some e => if e.awaiting then none else some (s.beginEntry emit e)
      | none => none
    match c.raw with
    | some r =>
      if r.ready && !r.inFlight then
        if s.writer.spare.isSome && (!r.isWrite || decide (c.list.length < Config.maxWrites)) then some (s.beginRaw emit r)
        else if next.isNone then some (s.beginRaw emit r)
        else entry
      else entry
    | none => entry

/-! ## Settling a record (R135, R137, R139) -/

/-- The entries settled as CLOSE settles them: packs discarded, tails written, the first entry's tail at a new position
(R135). `resumed` and `settling` mark the tails that stay. The packs after the pack that a re-placed tail gets stay with its
segment: R148 splits at a close alone (DESIGN CHOICE, log entry 57). -/
def State.settleEntries (resumed settling : Bool) (es : List Entry) (s : State) : State :=
  let packs := es.filter fun e => e.source.isPack
  let firstTail := (es.head?.map fun e => !e.source.isPack).getD false
  let a := packs.foldl (fun s e => s.discard e) s
  let mark (e : Entry) : Entry :=
    if !e.source.isPack && (es.any fun o => o.source == e.source) then
      { e with begun := false, resumed, settling, awaiting := firstTail }
    else e
  let b := a.onCard fun c => { c with list := c.list.map mark }
  if firstTail then b.onStore fun st => { st with matters := st.matters ++ [.replace .tail true true] } else b

/-- A close with reason CARD starts if the writer is OPEN, and the tail of a close not yet past its tail step is the port's
(R135, R137, R139). -/
def State.closeForCard (by_ : TailBy) (s : State) : State :=
  (s.startClose .card).onWriter fun w => if w.state = .closing then { w with tailBy := by_ } else w

/-- The matter belongs to the re-placement of a record's entries (R134, R135). -/
def Matter.replaces : Matter → Bool
  | .replace .. => true
  | .removal _ _ asked => asked
  | _ => false

/-- The matter is the re-placement of an entry. -/
def Matter.replacement : Matter → Bool
  | .replace .. => true
  | _ => false

/-- A removal whose resumption has ended: it is made all the same, with no entry to re-place (R150, log entry 57). -/
def Matter.unasked : Matter → Matter
  | .removal serial block _ => .removal serial block false
  | m => m

/-- The re-placements of a resumption are withdrawn; a removal that waits for report room goes on waiting (R150, R158). -/
def Store.dropReplaces (st : Store) : Store :=
  let t := st.dropMatters Matter.replacement
  { t with matters := t.matters.map Matter.unasked }

/-! ## A card fault (R130) -/

/-- An entry as a record holds it. -/
def Entry.toRec (e : Entry) : RecEntry := { valid := true, source := e.source, block := e.block, count := e.count }

/-- The continuation a reason gives (R130). -/
def CardOutcome.continuation : CardOutcome → Continuation
  | .removed => .close
  | _ => .retry

/-- The grace starts, or starts anew for a fresh record (R138). -/
def State.startGrace (s : State) : State :=
  s.onCard fun c => { c with grace := some (timeAfter s.time Config.graceTime) }

/-- LOW_BATTERY or DIE_HOT close is asserted. -/
def Supply.lowPower (u : Supply) : Bool := u.lowBattery || u.dieHot

/-- The raw frame that waits leaves the slot with an outcome (R129). -/
def State.dropRaw (st : Status) (r : Result) (value : Nat) (s : State) : State :=
  match s.card.raw with
  | none => s
  | some j => if j.inFlight then s else (s.onCard fun c => { c with raw := none }).finish .control st r value

/-- A write of the list has failed (R127, R130, R136, R139): settled alone when it must be, otherwise a record is pushed. A card
fault that is never pushed emits no WRITER_FAULT (DESIGN CHOICE, log entry 54). A fresh record gives the tail of a close that a
settlement or a CLOSE had made the port's back to the assembler (DESIGN CHOICE, log entry 75). -/
def State.cardFault (emit : Emit) (reason : CardOutcome) (failed : Entry) (s0 : State) : State :=
  if failed.settling then s0.discard failed
  else
    let rest := s0.card.list.filter fun e => e.source != failed.source
    let list := (failed :: rest).map fun e => { e with begun := false, resumed := false, awaiting := false }
    let s := (s0.onCard fun c => { c with list }).onStore Store.dropReplaces
    let r : FaultRec := .card reason failed.block failed.serial failed.clip (list.map Entry.toRec) reason.continuation true s.time
    if s.xchg.fits r then
      let a := s.onXchg fun x => x.push r
      let b := if s.supply.lowPower then a.startGrace else a
      let c := b.onWriter fun w => { w with tailBy := .assembler }
      let d := c.dropRaw .refused .faultPending 0
      let e := if d.card.resumption.isSome then
          (d.onCard fun c => { c with resumption := none }).finish .recovery .done .refaulted 0
        else d
      e.raise emit 0x0405 reason.reasonCode
    else
      let a := s.onXchg fun x => x.push r
      let b := if a.card.resumption.isSome then
          (a.onCard fun c => { c with resumption := none }).finish .recovery .done .refaulted 0
        else a
      (b.settleEntries false true list).closeForCard .settlement

/-! ## Ends of transfers (R126, R127, R129) -/

/-- The raw transfer in flight ends: the frame finished, a failure counted (R129). -/
def State.rawEnded (outcome : CardOutcome) (s : State) : State :=
  let t := s.onCard fun c => { (if outcome = .accepted then c else c.count outcome) with raw := none }
  if outcome = .accepted then t.finish .control .done .ok 0
  else t.finish .control .done .cardError outcome.code

/-- The write in flight ends with an outcome, the card then in `after` (R126, R127). -/
def State.writeEnded (emit : Emit) (outcome : CardOutcome) (after : CardState) (s : State) : State :=
  let t := s.onCard fun c => { c with state := after, busySince := none }
  if s.card.rawFlying then
    ((t.rawEnded outcome).raise emit 0x0407 outcome.code).prompt emit
  else
    match s.card.flying with
    | none => t
    | some e =>
      let u := t.onCard fun c => c.count outcome
      match outcome with
      | .accepted =>
        let v := (u.onCard fun c => { c with list := c.list.filter fun o => o.source != e.source }).onWriter fun w => w.giveBack e.source
        let x := v.onStore fun st => if e.source.isPack then st else st.tailWritten e.serial e.block
        (x.raise emit 0x0407 outcome.code).prompt emit
      | _ => ((u.raise emit 0x0407 outcome.code).prompt emit).cardFault emit outcome e

/-- The oldest entry not yet begun ends at once with REMOVED, the card not being there (R125, R126). The tail of a CLOSE resumption
that waited behind a raw transfer when the card left ends so too, with a fresh record (R136) and not NO_TAIL (DESIGN CHOICE, log
entry 69). -/
def State.endUnbegun (emit : Emit) (s : State) : Option State :=
  let c := s.card
  if (c.state = .absent ∨ c.state = .present ∨ c.state = .failed) ∧ !c.draining ∧ !s.xchg.liveRecord then
    match c.list.find? fun e => !e.begun with
    | some e => some (s.cardFault emit .removed e)
    | none => none
  else none

/-! ## Detection and attach (R122, R123) -/

/-- A CARD_ATTACH frame whose attach waits for the drained transfer to end (R123). -/
def State.attachFrame (s : State) : Bool :=
  match s.xchg.hand .control with
  | some f => f.started && f.body == .cardAttach
  | none => false

/-- The CARD_ATTACH frame that waits, when there is one, is finished (R123, log entry 58). -/
def State.finishAttach (s : State) : State := if s.attachFrame then s.finish .control .done .ok 0 else s

/-- The card leaves (R122). A raw frame that waits is finished CARD_ERROR before the record of a write that ends REMOVED is
pushed (DESIGN CHOICE, log entry 53). -/
def State.cardRemoved (emit : Emit) (s : State) : State :=
  let base := s.onCard fun c => { c with removals := c.removals + 1 }
  match s.card.state with
  | .absent => s
  | .present =>
    (base.onCard fun c =>
      { c with state := .absent, attachResult := if c.attaching then .removed else c.attachResult, attaching := false, attachStart := none }).finishAttach
  | .failed => base.onCard fun c => { c with state := .absent }
  | .ready =>
    let t := base.onCard fun c => { c with state := .absent, capacity := 0 }
    (t.dropRaw .done .cardError CardOutcome.removed.code).startClose .card
  | _ =>
    let waiting := base.dropRaw .done .cardError CardOutcome.removed.code
    let ended :=
      if s.card.rawFlying && !s.card.rawWriting then
        (waiting.onCard fun c => { c with state := .absent, busySince := none }).rawEnded .removed
      else waiting.writeEnded emit .removed .absent
    (ended.onCard fun c => { c with capacity := 0 }).startClose .card

/-- A card is seen (R122). -/
def Card.inserted (c : Card) : Card := { c with state := .present, attaching := false, attachStart := none, attachResult := .none }

/-! ## Resuming, abandoning, superseding (R132 to R140) -/

/-- The stack with its LIVE card record SUPERSEDED (R139), and the depth at which that record begins. -/
def markSuperseded : List FaultRec → List FaultRec × Option Nat
  | [] => ([], none)
  | r :: l =>
    match r with
    | .card reason block serial clip entries cont true time =>
      (.card reason block serial clip entries cont false time :: l, some ((l.map FaultRec.size).sum + r.size))
    | _ => let (l', d) := markSuperseded l; (r :: l', d)

/-- SUPERSEDED written into the record's state field and the internal copy (R139). -/
def Exchange.supersede (x : Exchange) : Exchange :=
  let (stack, d) := markSuperseded x.stack
  match d, x.anchor with
  | some d, some a => { x with stack }.put (a.faultTop - d + 3) [1]
  | _, _ => { x with stack }

/-- A valid flag of a record read for an entry's source. -/
def validIn (entries : List RecEntry) (src : Source) : Bool := entries.any fun r => r.source == src && r.valid

/-- A card record resumed, after its pop and the release of the CHUNK lane (R132 to R135). -/
def State.resumeCard (entries : List RecEntry) (cont : Continuation) (serial : Word) (block : Nat) (s : State) : State :=
  let cleared := s.card.list.filter fun e => !validIn entries e.source
  let firstSource := s.card.list.head?.map (·.source)
  let a := cleared.foldl (fun s e => s.discard e) s
  let valid := a.card.list
  let b := a.onCard fun c => { c with resumption := some (cont == .close), grace := none }
  match cont with
  | .retry => b.onCard fun c => { c with list := c.list.map fun e => { e with begun := false, resumed := true } }
  | .nextExtent =>
    (b.onCard fun c => { c with list := c.list.map fun e => { e with begun := false, resumed := true, awaiting := true } }).onStore
      fun st => { st with matters := st.matters ++ [.removal serial block true] }
  | .close =>
    -- a TAIL entry is written at a new position only where it was entry 1 of the record
    let es := if valid.head?.map (·.source) = firstSource then valid else valid.filter fun e => e.source.isPack
    let c := b.settleEntries true false es
    (c.onCard fun k => { k with list := k.list.map fun e => { e with resumed := true, begun := false } }).closeForCard .resumption

/-- A LIVE card record abandoned, after its pop (R137). An extent cut takes all its steps (R116): only its FILLING buffer is given
up (log entry 59). The position of the FILLING buffer counts as an unwritten pack of its segment (DESIGN CHOICE, log entry 67). -/
def State.abandonCard (s : State) : State :=
  let a := s.settleEntries false true s.card.list
  let b := a.onCard fun c => { c with grace := none }
  let serial := (b.writer.seg.map (·.serial)).getD 0
  let c := match b.writer.filling with
    | none => b
    | some i =>
      let placed := (b.writer.bufs.get i).pos.isSome
      let extents := b.writer.extentCut
      let d := b.onWriter fun w => { w.onBuf i (fun _ => .empty) with cut := w.cut.filter Cut.stays }
      d.onStore fun st =>
        let t := st.dropMatters fun m => m.asksPosition || m.replacesFilling
        let u := if extents then t else t.dropOpening
        if placed then u.packDiscarded serial else u
  c.closeForCard .settlement

/-- The grace expires: the record settled, SUPERSEDED written, the CHUNK lane released from it (R139). -/
def State.graceEnds (s : State) : State :=
  let a := s.onCard fun c => { c with grace := none }
  let b := a.settleEntries false true a.card.list
  let c := b.onXchg Exchange.supersede
  (c.closeForCard .settlement).release .chunk

/-- The resumption has ended: every resumed entry gone, and a CLOSE with its clip ended (R132, R135). -/
def State.resumptionOver (s : State) : Bool :=
  match s.card.resumption with
  | none => false
  | some close =>
    !(s.card.list.any (·.resumed)) && (!close || s.writer.state == .idle)
      && !s.store.matters.any Matter.replaces

/-! ## Reset (R141) -/

/-- The card port after a link reset: a transfer in flight drains (R141). -/
def Card.linkReset (c : Card) (detected : Bool) : Card :=
  { Card.reset detected with
    draining := c.draining || c.inFlight
    drainSource := if c.draining then c.drainSource else c.flyingSource }

end Sys2Proof.Machine
end

