-- ==== Sys2Proof/Machine/SupplyOps.lean ====
section
/-! DEFINITION. The supply manager: switches and path modes, low battery, shutdown, die heat, wakes (chapter 10). -/

namespace Sys2Proof.Machine

/-! ## Levels (R184) -/

/-- The close threshold of a load class (R184). -/
def closeThreshold (cls : Nat) : Nat := 3300 + 50 * min cls 3

/-- The clear level of a load class (R184). -/
def clearLevel (cls : Nat) : Nat := closeThreshold cls + 100

/-- The code of a path mode (11.3). -/
def PathMode.code : PathMode → Nat
  | .normal => 0
  | .inputSuspend => 1
  | .batteryIsolate => 2

/-- The path mode a code names (R182). -/
def pathModeOf : Nat → Option PathMode
  | 0 => some .normal
  | 1 => some .inputSuspend
  | 2 => some .batteryIsolate
  | _ => none

/-- The power state a code names (R188). -/
def powerStateOf : Nat → Option PowerState
  | 0 => some .active
  | 1 => some .parked
  | 2 => some .sleep
  | _ => none

/-! ## Requests -/

/-- SUPPLY asked of the exchange engine. -/
def State.supplyFlag (s : State) : State := s.onXchg fun x => x.request causeSupply

/-- SUPPLY asked for by the low-battery filter: dropped while the exchange is not RUNNING (R185). R90 takes requests in STOPPED too, and
R185, the rule of this request alone, is followed (DESIGN CHOICE, log entry 71). -/
def State.lowSupplyFlag (s : State) : State := if s.xchg.state = .running then s.supplyFlag else s

/-- The charger reads a path mode that may have changed (R164, R182). -/
def State.pathRead (emit : Emit) (s : State) : State := s.runCharger emit fun w => w.pauseTests s.supply.mode

/-! ## Input-supplied (R184, R186) -/

/-- The camera has become input-supplied: the low runs cleared, the shutdown notice armed again. -/
def Supply.nowSupplied (u : Supply) : Supply :=
  { u with lowBattery := false, lowRun := 0, highRun := 0, shutArmed := true, deepRun := 0, rearmRun := 0 }

/-- What a step that may have made the camera input-supplied brings (R184, R185). -/
def State.suppliedFrom (before : Bool) (s : State) : State :=
  if !before && s.supply.supplied then
    let t := s.onSupply Supply.nowSupplied
    if s.supply.lowBattery then t.lowSupplyFlag else t
  else s

/-! ## Switches (R180 to R183) -/

/-- A close of a switch is driven; it must be confirmed within 2 ms (R180). -/
def State.drive (goal : ChangeFor) (switch : Switch) (owed : Bool) (s : State) : State :=
  s.onSupply fun u => { u with change := some { goal, switch, deadline := timeAfter s.time Config.confirmTime, owed } }

/-- An attach in NORMAL drives IN_SW closed (R180); while a change of path mode is under way, that close waits for the change's end
(log entry 25). -/
def State.attachSwitch (s : State) : State :=
  let t := s.onSupply fun u => { u with present := true }
  if s.supply.mode = .normal then
    match s.supply.change with
    | none => t.drive .attach .inSw false
    | some c => t.onSupply fun u => { u with change := some { c with owed := true } }
  else t

/-- An attach's close of IN_SW is under way, or waits for the change under way (R180, log entry 25). -/
def Supply.owesClose (u : Supply) : Bool :=
  match u.change with
  | some c => c.owed || c.goal == .attach
  | none => false

/-- A PATH_SET frame carried out and waiting in hand. -/
def State.pathFrame (s : State) : Bool :=
  match s.xchg.hand .control with
  | some f => f.started && (match f.body with
      | .pathSet _ => true
      | _ => false)
  | none => false

/-- The PATH_SET frame in hand, when there is one, finished (R182, R183). -/
def State.finishPath (st : Status) (r : Result) (value : Nat) (s : State) : State :=
  if s.pathFrame then s.finish .control st r value else s

/-- The switches after the last switch of a sequence is driven (R180, R182). -/
def Supply.settleSwitches (u : Supply) (c : Change) : Supply :=
  match c.goal with
  | .attach => { u with inSw := true, change := none }
  | .mode .inputSuspend => { u with batSw := true, inSw := false, mode := .inputSuspend, change := none }
  | .mode .batteryIsolate => { u with inSw := true, batSw := false, mode := .batteryIsolate, change := none }
  | .mode .normal =>
    match c.switch with
    | .inSw => { u with inSw := true, mode := .normal, change := none }
    | .batSw => { u with batSw := true, mode := .normal, change := none }

/-- The switch that failed to confirm: open again if the other is CLOSED, otherwise left as it was (R183). -/
def Supply.failSwitch (u : Supply) (sw : Switch) : Supply :=
  let v := { u with change := none, switchFails := u.switchFails + 1 }
  match sw with
  | .inSw => if u.batSw then { v with inSw := false } else v
  | .batSw => if u.inSw then { v with batSw := false } else v

/-- The comparator on the input (R181): the switches and the path mode. In NORMAL, BAT_SW is closed too where a failed
confirmation had left it open, for the switches are never both open (R180, log entry 48). -/
def Supply.collapse (u : Supply) : Supply :=
  match u.mode with
  | .normal => { u with batSw := true, inSw := false, present := false, change := none }
  | .batteryIsolate => { u with batSw := true, inSw := false, mode := .normal, present := false, change := none }
  | .inputSuspend => { u with present := false, change := none }

/-- The switches, mode and a change of either as seen by the host (R180). -/
def Supply.showsPath (a b : Supply) : Bool := a.inSw != b.inSw || a.batSw != b.batSw || a.mode != b.mode

/-- The switches and the mode as a step leaves them: the refresh it asks for (R180). -/
def State.pathShown (before : Supply) (s : State) : State := if s.supply.showsPath before then s.askRefresh else s

/-- The input collapses (R181, R183). -/
def State.collapse (emit : Emit) (s : State) : State :=
  let changing := s.supply.change.isSome
  let t := (s.onSupply Supply.collapse).pathShown s.supply
  let a := if s.supply.mode = .batteryIsolate then t.supplyFlag else t
  let b := if changing then a.finishPath .done .inputLost a.supply.mode.code else a
  if s.supply.mode = b.supply.mode then b else b.pathRead emit

/-! ## The filters at a measurement (R184 to R187) -/

/-- What the low-battery filter does. -/
inductive LowStep where
  | nothing
  | asserts
  | clears
  deriving DecidableEq, Repr

/-- The low-battery filter (R184). -/
def Supply.lowFilter (u : Supply) (vbat : Nat) : Supply × LowStep :=
  if u.supplied then
    ({ u with lowRun := 0, highRun := 0, lowBattery := false }, if u.lowBattery then .clears else .nothing)
  else if !u.lowBattery then
    if vbat < closeThreshold u.loadClass then
      if 3 ≤ u.lowRun + 1 then ({ u with lowBattery := true, lowRun := 0, highRun := 0 }, .asserts)
      else ({ u with lowRun := u.lowRun + 1 }, .nothing)
    else ({ u with lowRun := 0 }, .nothing)
  else if clearLevel u.loadClass ≤ vbat then
    if 3 ≤ u.highRun + 1 then ({ u with lowBattery := false, lowRun := 0, highRun := 0 }, .clears)
    else ({ u with highRun := u.highRun + 1 }, .nothing)
  else ({ u with highRun := 0 }, .nothing)

/-- The shutdown filter, and whether SHUTDOWN_REQUEST is raised (R186). -/
def Supply.shutFilter (u : Supply) (vbat : Nat) : Supply × Bool :=
  if u.supplied then ({ u with shutArmed := true, deepRun := 0, rearmRun := 0 }, false)
  else if u.shutArmed then
    if vbat < 3100 then
      if 3 ≤ u.deepRun + 1 then ({ u with shutArmed := false, deepRun := u.deepRun + 1, rearmRun := 0 }, true)
      else ({ u with deepRun := u.deepRun + 1 }, false)
    else ({ u with deepRun := 0 }, false)
  else if 3200 ≤ vbat then
    if 3 ≤ u.rearmRun + 1 then ({ u with shutArmed := true, deepRun := 0, rearmRun := 0 }, false)
    else ({ u with rearmRun := u.rearmRun + 1 }, false)
  else ({ u with rearmRun := 0 }, false)

/-- The grace of a LIVE record starts at an assertion, unless it runs (R138). -/
def State.assertGrace (s : State) : State :=
  if s.xchg.liveRecord && s.card.grace.isNone then s.startGrace else s

/-- The low-battery filter at work (R184, R185). -/
def State.lowStep (emit : Emit) (s : State) : State :=
  let vbat := s.charger.vbat
  let (u, step) := s.supply.lowFilter vbat
  let t := { s with supply := u }
  match step with
  | .nothing => t
  | .asserts => (((t.raise emit 0x0505 vbat).lowSupplyFlag).startClose .lowBattery).assertGrace
  | .clears => t.lowSupplyFlag

/-- The shutdown filter at work (R186). -/
def State.shutStep (emit : Emit) (s : State) : State :=
  let vbat := s.charger.vbat
  let (u, raised) := s.supply.shutFilter vbat
  let t := { s with supply := u }
  if raised then (t.raise emit 0x0506 vbat).supplyFlag else t

/-- The DIE_HOT close condition at a measurement (R187). -/
def State.dieStep (s : State) : State :=
  let die := s.charger.meas.die.toInt
  if 1200 ≤ die ∧ !s.supply.dieHot then
    (((s.onSupply fun u => { u with dieHot := true }).supplyFlag).startClose .dieHot).assertGrace
  else if die < 1000 ∧ s.supply.dieHot then (s.onSupply fun u => { u with dieHot := false }).supplyFlag
  else s

/-! ## Wakes (R190) -/

/-- A wake source acts: the first since entry to PARKED or SLEEP records its reason and raises host power-enable (R190). -/
def State.wake (reason : WakeReason) (s : State) : State :=
  if s.supply.power ≠ .active ∧ s.supply.wake = .none then
    s.onSupply fun u => { u with wake := reason, hostPower := true }
  else s

end Sys2Proof.Machine
end

