-- ==== Sys2Proof/Machine/Sinks.lean ====
section
/-! DEFINITION. The event router: routes, sinks and their actions, delivery of events; the production of warp records that sinks set off (chapters 3 and 4). -/

namespace Sys2Proof.Machine

/-! ## Routes (section 4.2) -/

/-- The 18 sinks in index order (section 4.2). -/
def allSinks : List Sink :=
  [.frameStart, .frameEnd, .recentre, .incident, .cut, .close, .pause, .resume,
   .setLine 0, .setLine 1, .setLine 2, .setLine 3, .clearLine 0, .clearLine 1, .clearLine 2, .clearLine 3, .wakeA, .wakeB]

/-- The sink of an index (section 4.2). -/
def sinkOf (i : Nat) : Option Sink := allSinks[i]?

/-- The event number a sink holds. -/
def Routes.of (r : Routes) : Sink → BitVec 16
  | .frameStart => r.frameStart
  | .frameEnd => r.frameEnd
  | .recentre => r.recentre
  | .incident => r.incident
  | .cut => r.cut
  | .close => r.close
  | .pause => r.pause
  | .resume => r.resume
  | .setLine n => r.setLine.get n
  | .clearLine n => r.clearLine.get n
  | .wakeA => r.wakeA
  | .wakeB => r.wakeB

/-- The route table with one entry replaced (R63). -/
def Routes.change (r : Routes) (s : Sink) (n : BitVec 16) : Routes :=
  match s with
  | .frameStart => { r with frameStart := n }
  | .frameEnd => { r with frameEnd := n }
  | .recentre => { r with recentre := n }
  | .incident => { r with incident := n }
  | .cut => { r with cut := n }
  | .close => { r with close := n }
  | .pause => { r with pause := n }
  | .resume => { r with resume := n }
  | .setLine k => { r with setLine := r.setLine.set k n }
  | .clearLine k => { r with clearLine := r.clearLine.set k n }
  | .wakeA => { r with wakeA := n }
  | .wakeB => { r with wakeB := n }

/-- The sinks that hold a number; none holds 0 (R60, R62). -/
def Routes.listening (r : Routes) (n : BitVec 16) : List Sink :=
  if n = 0 then [] else allSinks.filter fun k => r.of k == n

/-- A number of the table of section 4.1. -/
def isEventNumber (n : BitVec 16) : Bool :=
  let k := n.toNat
  (decide (0x100 ≤ k) && decide (k ≤ 0x10F) && k % 4 != 3)
    || (decide (0x200 ≤ k) && decide (k ≤ 0x203))
    || (decide (0x300 ≤ k) && decide (k ≤ 0x304))
    || (decide (0x400 ≤ k) && decide (k ≤ 0x407))
    || (decide (0x500 ≤ k) && decide (k ≤ 0x507))

/-- The number is raised by the sink's owner (section 4.2, R64). -/
def selfRaised (s : Sink) (n : BitVec 16) : Bool :=
  let k := n.toNat
  let motion := decide (0x300 ≤ k) && decide (k ≤ 0x304)
  let writer := decide (0x400 ≤ k) && decide (k ≤ 0x407)
  let charger := (decide (0x500 ≤ k) && decide (k ≤ 0x504)) || k == 0x507
  match s with
  | .frameStart | .frameEnd | .recentre => motion
  | .incident | .cut | .close => writer
  | .pause | .resume => charger
  | .setLine _ | .clearLine _ => false
  | .wakeA | .wakeB => k == 0x505 || k == 0x506

/-! ## Producing records (R48 to R58) -/

/-- The record written into its slot in its three steps (R54). -/
def Exchange.writeWarp (x : Exchange) (slot : Nat) (r : WarpRecord) : Exchange :=
  ((x.put slot (warpHeader r)).put (slot + 60) (warpBands r)).put (slot + 188) (warpTail r)

/-- The record published, or its publication withheld (R54, R56, R57, R39, R40); the record in its final form. -/
def State.publish (emit : Emit) (r : WarpRecord) (alert : BitVec 10) (s : State) : State × WarpRecord :=
  match s.xchg.anchor with
  | none => (s.onPath fun p => { p with unpublished := p.unpublished + 1 }, r)
  | some a =>
    if s.xchg.state ≠ .running then (s.onPath fun p => { p with unpublished := p.unpublished + 1 }, r)
    else
      let late := overruns s.xchg.consumed r.number a.warpSlots
      let w := r.withOverrun late
      let t := s.onXchg fun x => (x.writeWarp (a.warpSlot r.number) w).request causeWarp
      let u := t.onPath fun p =>
        { p with accrued := p.accrued ||| w.flags, overrun := if late then p.overrun + 1 else p.overrun }
      let found := w.flags &&& alert
      if found = 0 then (u, w)
      else ((emit { number := 0x0304, time := u.time, arg := .frame w.number found } u).onXchg fun x => x.request causeAlert, w)

/-- The record handed to the clip as a motion unit, when the clip records motion (R58). -/
def State.handMotion (r : WarpRecord) (s : State) : State :=
  match s.writer.state, s.writer.clip with
  | .opened, some c =>
    if c.records .motion then
      let t := s.onPath fun p => { p with clipCount := p.clipCount + 1 }
      t.onWriter fun w => w.enqueue { motion := true, time := r.start, payload := motionPayload r t.path.clipCount }
    else s
  | _, _ => s

/-- An event kept for delivery after the action that emits it. -/
def collect : Emit := fun e s => { s with backlog := s.backlog ++ [e] }

/-- An action of the path unit is carried out whole: the events it emits meanwhile are delivered after it, in their order
(log entry 10), so that a chain which leads back to the path unit finds its list and its records in order (R48, R51). -/
def State.whole (emit : Emit) (action : Emit → State → State) (s : State) : State :=
  let t := action collect { s with backlog := [] }
  t.backlog.foldl (fun u e => emit e u) { t with backlog := s.backlog }

/-- The record of an ENDED entry is produced: computed, published, announced, handed on (R32, R48, R54, R55, R58). -/
def State.produce (emit : Emit) (f : VFrame) (e : Ending) (s : State) : State :=
  let c := s.path.compute s.motion.ring f e
  let a := { s with path := { c.path with frames := c.path.frames.filter fun g => g.number != f.number } }
  let b := if c.pushed = 0 then a else emit { number := 0x0302, time := a.time, arg := .frame f.number c.pushed } a
  let (d, r) := b.publish emit c.record f.alert
  (emit { number := 0x0303, time := d.time, arg := .frame r.number r.flags } d).handMotion r

/-- The oldest entry is produced while it is ready, and the next examined (R48, R49). -/
def State.examineFor (emit : Emit) : Nat → State → State
  | 0, s => s
  | n + 1, s =>
    match s.path.frames with
    | [] => s
    | f :: _ =>
      match f.ended with
      | none => s
      | some e => if e.ready s.motion.ring s.time then (s.whole emit fun emit => State.produce emit f e).examineFor emit n else s

/-- The pending entries examined; two may stand in the list. -/
def State.examine (emit : Emit) (s : State) : State := s.examineFor emit 4

/-- An entry that becomes ENDED now takes a NO_MOTION record (R48). -/
def State.noMotionNow (s : State) : Bool := s.motion.port != .running || s.supply.power != .active

/-- Two entries stand: the older is forced out (R51). -/
def State.forceOut (emit : Emit) (s : State) : State :=
  match s.path.frames with
  | f :: _ :: _ =>
    match f.ended with
    | some e => (s.onPath fun p => { p with forced := p.forced + 1 }).produce emit f e
    | none => s
  | _ => s

/-- Steps 1 to 5 of FRAME_START (R43). -/
def State.openVideo (emit : Emit) (t : Time) (s : State) : State :=
  ((s.onPath fun p => p.endOpen none s.motion.average s.noMotionNow).forceOut emit).onPath fun p => p.openFrame t

/-- FRAME_START (R43); no effect outside ACTIVE (R42). -/
def State.frameStart (emit : Emit) (t : Time) (s : State) : State :=
  if s.supply.power ≠ .active then s
  else (s.whole emit fun emit => State.openVideo emit t).examine emit

/-- FRAME_END (R44). -/
def State.frameEnd (emit : Emit) (t : Time) (s : State) : State :=
  if s.supply.power ≠ .active then s
  else if s.path.hasOpen then (s.onPath fun p => p.endOpen (some t) s.motion.average s.noMotionNow).examine emit
  else s.onPath fun p => { p with stray := p.stray + 1 }

/-! ## Sink actions -/

/-- The host pause flag changed, and the charger acting on it (R177). -/
def State.hostPause (emit : Emit) (on : Bool) (s : State) : State :=
  if s.charger.hostPause = on then s
  else s.runCharger emit fun w => (w.on fun c => { c with hostPause := on }).pauseTests s.supply.mode

/-- An output line driven (R71). -/
def Router.drive (r : Router) (n : Fin 4) (high : Bool) : Router :=
  { r with outs := r.outs.set n { r.outs.get n with high } }

/-- The wake reason of an event at a WAKE sink (R190). -/
def wakeReasonOf (n : BitVec 16) : WakeReason := if n = 0x0104 ∨ n = 0x0105 ∨ n = 0x0106 then .button else .routed

/-- A sink takes an event (section 4.2). -/
def State.act (emit : Emit) (k : Sink) (e : Event) (s : State) : State :=
  match k with
  | .frameStart => s.frameStart emit e.time
  | .frameEnd => s.frameEnd emit e.time
  | .recentre => s.onPath fun p => { p with recentre := true }
  | .incident => s.takeIncident e.time e.number
  | .cut => if s.writer.state = .opened then s.onWriter fun w => { w with cutRequest := true } else s
  | .close => s.startClose .closeSink
  | .pause => s.hostPause emit true
  | .resume => s.hostPause emit false
  | .setLine n => s.onRouter fun r => r.drive n true
  | .clearLine n => s.onRouter fun r => r.drive n false
  | .wakeA => s.wake (wakeReasonOf e.number)
  | .wakeB => s.wake (wakeReasonOf e.number)

/-- The wakes that sources raise directly: SHOCK_TRUE and timer 3 in PARKED, an attach in PARKED and SLEEP (R190). -/
def State.directWake (n : BitVec 16) (s : State) : State :=
  if n = 0x0300 ∧ s.supply.power = .parked then s.wake .shock
  else if n = 0x0203 ∧ s.supply.power = .parked then s.wake .timer
  else if n = 0x0500 then s.wake .inputAttach
  else s

/-- In SLEEP no block event is raised (R74). -/
def State.silent (n : BitVec 16) (s : State) : Bool := s.supply.power == .sleep && decide (0x0300 ≤ n.toNat)

/-- An emitted event reaches every sink that holds its number (R60), each sink's own events before the next sink; a chain
deeper than the bound waits in the backlog (log entries 7 and 10). -/
def emitFor : Nat → Emit
  | 0 => collect
  | n + 1 => fun e s =>
    let before := if s.race.directFirst then s.directWake e.number else s
    let told :=
      if before.silent e.number then before
      else (arrange before.race.sinks (before.router.routes.listening e.number)).foldl
        (fun t k => t.act (emitFor n) k e) { before with events := before.events ++ [e] }
    if s.race.directFirst then told else told.directWake e.number

/-- The emission of an event. -/
def emit : Emit := emitFor Config.eventDepth

/-- An event left in the backlog is delivered. -/
def State.takeBacklog (s : State) : Option State :=
  match s.backlog with
  | [] => none
  | e :: l => some (emit e { s with backlog := l })

/-! ## Lines and timers (R65, R66, R69) -/

/-- An edge of an input line: its level, its events, its holdoff (R65, R66). -/
def State.lineEdge (n : Fin 4) (level : Bool) (s : State) : State :=
  let l := s.router.lines.get n
  let t := s.time
  let put (v : InLine) (s : State) : State := s.onRouter fun r => { r with lines := r.lines.set n v }
  if l.level = level then s
  else
    let v := { l with level, since := t }
    if !(if level then l.rise else l.fall) then put v s
    else
      let last := if level then l.lastRise else l.lastFall
      let held := match last with
        | none => false
        | some t0 => decide (timeSince t t0 < l.holdoff)
      if held then put { v with suppressed := v.suppressed + 1 } s
      else
        let w := if level then { v with lastRise := some t } else { v with lastFall := some t }
        let base : BitVec 16 := 0x0100 + BitVec.ofNat 16 (4 * n.val)
        let arg : EvArg := .num (if level then 1 else 0)
        let kind : BitVec 16 := if level then base else base + 1
        emit { number := base + 2, time := t, arg } (emit { number := kind, time := t, arg } (put w s))

/-- A timer's expiry at its scheduled time (R69). -/
def State.timerExpires (n : Fin 4) (e : Time) (s : State) : State :=
  let t := s.router.timers.get n
  let next := if t.periodic then some (timeAfter e t.period) else none
  let s' := emit { number := 0x0200 + BitVec.ofNat 16 n.val, time := e, arg := .num n.val } s
  s'.onRouter fun r => { r with timers := r.timers.set n { (r.timers.get n) with next } }

/-- The router after a reset (R76); the levels of the input lines are the world's, and timer 3 is kept at entry to PARKED
(R75). -/
def Router.afterReset (r : Router) (keepTimer3 : Bool) : Router :=
  { Router.reset with
    lines := r.lines.map fun l => .reset l.level l.since
    timers := if keepTimer3 then { Router.reset.timers with a3 := r.timers.a3 } else Router.reset.timers }

end Sys2Proof.Machine
end

