-- ==== Sys2Proof/Machine/Status.lean ====
section
/-! DEFINITION. The status block's sections, its refresh, and the register window's reads (5.1, 5.6, 11.2). -/

namespace Sys2Proof.Machine

/-! ## Codes (11.2) -/

/-- The exchange state's code. -/
def XState.code : XState → Nat
  | .off => 0
  | .running => 1
  | .anchorBad => 2
  | .stopped => 3

/-- The anchor check's code: NONE, then the checks of R80 in their order. -/
def AnchorCheck.code : AnchorCheck → Nat
  | .none => 0
  | .zeroAddress => 1
  | .readError => 2
  | .version => 3
  | .laneAddress => 4
  | .form => 5
  | .warpSlots => 6
  | .reportEntries => 7
  | .faultArea => 8

/-- The power state's code. -/
def PowerState.code : PowerState → Nat
  | .active => 0
  | .parked => 1
  | .sleep => 2

/-- The reset cause's code. -/
def ResetCause.code : ResetCause → Nat
  | .powerOn => 0
  | .brownout => 1
  | .link => 2

/-- The wake reason's code. -/
def WakeReason.code : WakeReason → Nat
  | .none => 0
  | .button => 1
  | .inputAttach => 2
  | .shock => 3
  | .timer => 4
  | .routed => 5

/-- The port state's code. -/
def PortState.code : PortState → Nat
  | .off => 0
  | .starting => 1
  | .running => 2
  | .lost => 3
  | .failed => 4

/-- The writer state's code. -/
def WriterState.code : WriterState → Nat
  | .idle => 0
  | .opened => 1
  | .closing => 2

/-- A pack buffer state's code. -/
def BufState.code : BufState → Nat
  | .empty => 0
  | .filling => 1
  | .queued => 2
  | .writing => 3

/-- The card state's code. -/
def CardState.code : CardState → Nat
  | .absent => 0
  | .present => 1
  | .ready => 2
  | .writing => 3
  | .busy => 4
  | .failed => 5

/-- The attach result's code. -/
def AttachResult.code : AttachResult → Nat
  | .none => 0
  | .ok => 1
  | .noAnswer => 2
  | .unusable => 3
  | .removed => 4

/-- The thermal band's code. -/
def ThermalBand.code : ThermalBand → Nat
  | .cold => 0
  | .cool => 1
  | .normal => 2
  | .warm => 3
  | .hot => 4

/-- The state a segment shows: PROTECTED 2 with an owner, CLOSED 1 when COMPLETE, else OPEN 0 (section 8.2). -/
def Seg.shownCode (g : Seg) : Nat :=
  if g.owner.isSome then 2 else if g.phase = .complete then 1 else 0

/-- The bit of a producer's waiting place (R158). -/
def Producer.bit : Producer → Nat
  | .segment => 1
  | .incident => 2
  | .level => 4
  | .clip => 8
  | .charger => 16

/-! ## Helpers -/

/-- The microseconds left until a deadline: 0 without one, or when it has been reached. -/
def remaining (now : Time) (d : Option Time) : Nat :=
  match d with
  | none => 0
  | some t => if timeReached now t then 0 else timeSince t now

/-- One bit for each of four. -/
def fourBits (v : Four Bool) : Nat :=
  (if v.a0 then 1 else 0) + (if v.a1 then 2 else 0) + (if v.a2 then 4 else 0) + (if v.a3 then 8 else 0)

/-- Four fields of `n` bytes. -/
def fourBytes (n : Nat) (v : Four Nat) : List Byte := v.toList.flatMap (leBytes n)

/-- Bytes filled up with zeros to a length. -/
def fillTo (n : Nat) (l : List Byte) : List Byte := l ++ zeroBytes (n - l.length)

/-! ## The sections (11.2) -/

/-- 0x108: the exchange section. -/
def State.exchangeSection (s : State) : List Byte :=
  fillTo 24 (leWord 8 s.time ++ leBytes 1 s.xchg.state.code ++ leBytes 1 s.xchg.check.code ++ leWord 2 s.xchg.cause
    ++ leBytes 4 s.xchg.depth ++ leWord 4 s.xchg.recErrors)

/-- 0x120: the motion section. -/
def State.motionSection (s : State) : List Byte :=
  let m := s.motion
  let p := s.path
  fillTo 64 (leBytes 1 m.port.code ++ leBytes 1 m.restarts ++ flagByte (!m.armed) ++ flagByte p.recentred
    ++ leWord 4 m.losses ++ leWord 4 m.samples ++ leWord 4 m.gaps ++ leWord 4 m.clipped
    ++ leBytes 4 m.shockPeak ++ leWord 8 m.shockTime ++ leWord 2 p.accrued ++ leBytes 1 p.frames.length ++ zeroBytes 1
    ++ leWord 4 p.counter ++ leWord 4 p.overrun ++ leWord 4 p.stray ++ leWord 4 p.unpublished ++ leWord 4 p.forced)

/-- 0x160: the router section. -/
def State.routerSection (s : State) : List Byte :=
  let r := s.router
  fillTo 80 (allSinks.flatMap (fun k => leWord 2 (r.routes.of k)) ++ r.lines.toList.flatMap (fun l => leWord 4 l.suppressed)
    ++ r.timers.toList.flatMap (fun t => flagByte t.next.isSome)
    ++ r.timers.toList.flatMap (fun t => leBytes 4 (remaining s.time t.next))
    ++ leBytes 1 (fourBits (r.outs.map (·.high))) ++ leBytes 1 (fourBits (r.outs.map (·.hostSet)))
    ++ leBytes 1 (fourBits (r.outs.map (·.hostClear))))

/-- One place of the pending-write list. -/
def entryBytes : Option Entry → List Byte
  | none => zeroBytes 8
  | some e => leBytes 4 e.block ++ leBytes 2 e.count ++ leBytes 1 e.source.code ++ [1]

/-- 0x1B0: the assembler's part of the writer section. -/
def State.assemblerBytes (s : State) : List Byte :=
  let w := s.writer
  let streams := (w.clip.map fun c => c.streams.toNat).getD 0
  let serial := (s.store.openSeg.map fun g => g.serial.toNat).getD 0
  let index := (s.store.openSeg.map fun g => g.index).getD 0
  leBytes 1 w.state.code ++ leBytes 1 streams ++ flagByte w.gate ++ flagByte w.cutRequest ++ leWord 4 w.clipNumber
    ++ leBytes 4 serial ++ leBytes 2 index ++ leBytes 1 w.queue.length ++ leBytes 1 w.reason.code
    ++ fourBytes 1 (w.bufs.map fun b => b.st.code) ++ fourBytes 4 (w.bufs.map (·.fill))
    ++ sixBytes w.placed ++ leWord 4 w.chunksDropped ++ leWord 4 w.motionDropped ++ leWord 4 w.markersDropped

/-- 0x1F8: the card port's part of the writer section. -/
def State.cardBytes (s : State) : List Byte :=
  let c := s.card
  let raw := match c.raw with
    | none => 0
    | some r => if r.isWrite then 2 else 1
  leBytes 1 c.state.code ++ flagByte c.attaching ++ leBytes 1 c.attachResult.code ++ leBytes 1 raw ++ leBytes 4 c.capacity
    ++ entryBytes c.list[0]? ++ entryBytes c.list[1]? ++ entryBytes c.list[2]? ++ leBytes 4 (remaining s.time c.grace)
    ++ leWord 4 c.accepted ++ leWord 4 c.writeErrors ++ leWord 4 c.timeouts ++ leWord 4 c.removals

/-- 0x22C: the storage map's part of the writer section. -/
def State.storeBytes (s : State) : List Byte :=
  let st := s.store
  let head := match st.pool.head? with
    | none => zeroBytes 8
    | some e => leBytes 4 e.first ++ leBytes 4 e.count
  let places := (st.waiting.map fun w => w.producer.bit).sum
  leBytes 1 st.pool.length ++ leBytes 1 st.protectedCount ++ leBytes 1 st.queue.length ++ leBytes 1 places
    ++ leBytes 4 st.freePacks ++ head ++ leWord 4 st.lost ++ optTime st.protectUntil
    ++ fillTo 64 (st.table.flatMap fun g => leWord 4 g.serial) ++ fillTo 16 (st.table.flatMap fun g => leBytes 1 g.shownCode)

/-- 0x1B0: the writer section. -/
def State.writerSection (s : State) : List Byte := fillTo 256 (s.assemblerBytes ++ s.cardBytes ++ s.storeBytes)

/-- 0x2B0: the charger section. The budget terms, the cap and the computed target are those of the newest evaluation (R167); the state,
reason, band, die cap, D, Veff, driven target, counts, hold and pause flag are shown as they stand at the refresh (R92), a choice
between the two rules (DESIGN CHOICE, log entry 64). -/
def State.chargerSection (s : State) : List Byte :=
  let c := s.charger
  let t := c.terms
  fillTo 64 (leWord 2 c.meas.vbat ++ leWord 2 c.meas.ibat ++ leWord 2 c.meas.vin ++ leWord 2 c.meas.iin
    ++ leWord 2 c.meas.temp ++ leWord 2 c.meas.die ++ leBytes 1 c.state.code ++ leBytes 1 c.state.reasonCode
    ++ leBytes 1 c.band.code ++ flagByte c.dieCap ++ leBytes 2 c.iinLimit ++ leBytes 2 t.lp ++ leBytes 2 t.lc
    ++ leBytes 2 t.lcard ++ leBytes 2 c.droop ++ leBytes 2 t.available ++ leBytes 4 t.budget ++ leBytes 2 t.phaseLimit
    ++ leBytes 2 t.cap ++ leBytes 2 c.veff ++ leBytes 2 t.computed ++ leBytes 2 c.driven ++ leBytes 1 c.term
    ++ flagByte c.hold ++ flagByte c.hostPause ++ zeroBytes 3 ++ leBytes 4 (c.prechargeUs / 1000000)
    ++ leBytes 4 (c.fastUs / 1000000))

/-- 0x2F0: the supply section. -/
def State.supplySection (s : State) : List Byte :=
  let u := s.supply
  fillTo 32 (flagByte u.inSw ++ flagByte u.batSw ++ leBytes 1 u.mode.code ++ flagByte u.present ++ flagByte u.supplied
    ++ leBytes 1 u.loadClass ++ flagByte u.lowBattery ++ leBytes 1 u.lowRun ++ leBytes 1 u.highRun ++ flagByte (!u.shutArmed)
    ++ leBytes 1 u.deepRun ++ leBytes 1 u.rearmRun ++ flagByte u.dieHot ++ leBytes 1 u.power.code ++ flagByte u.hostPower
    ++ leBytes 1 u.wake.code ++ leWord 4 u.switchFails)

/-- 0x108..0x3FF: every section and the reserved rest. -/
def State.sections (s : State) : List Byte :=
  s.exchangeSection ++ s.motionSection ++ s.routerSection ++ s.writerSection ++ s.chargerSection ++ s.supplySection
    ++ zeroBytes 240

/-! ## Refreshes (R92) -/

/-- A refresh of the status block: the count made odd, the sections, the count made even (R92). -/
def State.refresh (s : State) : State :=
  match s.xchg.anchor with
  | none => s
  | some a =>
    if !s.xchg.state.live then s
    else
      s.onXchg fun x =>
        let odd := x.put (a.base + 0x100) (leWord 4 (x.refreshCount + 1) ++ zeroBytes 4)
        let body := odd.put (a.base + 0x108) s.sections
        { body.put (a.base + 0x100) (leWord 4 (x.refreshCount + 2)) with refreshCount := x.refreshCount + 2 }

/-- The one refresh at the end of a step in which a block asked for one (log entry 11). -/
def State.refreshIfAsked (s : State) : State := if s.xchg.refreshAsked then s.refresh else s

/-! ## Register reads (R77, R79) -/

/-- PART_STATE (R79, 11.2). -/
def State.partState (s : State) : Word :=
  BitVec.ofNat 32 (s.xchg.state.code + 16 * s.xchg.check.code + 256 * s.supply.power.code
    + 4096 * s.supply.cause.code + 65536 * s.supply.wake.code)

/-- A read of the register window: 0 for any other width or alignment (R77). -/
def State.readRegister (s : State) (offset width : Nat) : Word :=
  if width ≠ 4 then 0
  else match offset with
    | 0x00 => s.xchg.anchorLow
    | 0x04 => s.xchg.anchorHigh
    | 0x10 => s.xchg.cause.setWidth 32
    | 0x14 => s.xchg.mask.setWidth 32
    | 0x18 => s.partState
    | 0x1C => s.time.setWidth 32
    | _ => 0

end Sys2Proof.Machine
end

