-- ==== Sys2Proof/Machine/Settle.lean ====
section
/-! DEFINITION. The work that the blocks carry on by themselves until they rest: reports, storage matters, buffers, cuts, closes, the card's arbiter (chapters 6 to 8); and the resets of the whole part. -/

namespace Sys2Proof.Machine

/-! ## The storage map at work (R152, R157, R158) -/

/-- STORAGE_LOW is raised and disarmed (R152). Free packs that lie below the watermark when it is armed raise it at once (DESIGN
CHOICE, log entry 56). It is disarmed and its report offered before event 0x0403 reaches its sinks (DESIGN CHOICE, log entry 70). -/
def State.levelStep (s : State) : Option State :=
  let st := s.store
  let free := st.freePacks
  if st.lowArmed && decide (free < st.loops.watermark) then
    let a := s.onStore fun st => ({ st with lowArmed := false } : Store).offer s.time .level (.storageLow free st.loops.watermark)
    some (a.raise emit 0x0403 free)
  else none

/-- The report ring has room (R157); without a copy of the read count a free value decides (log entry 20). -/
def Exchange.ringRoom (x : Exchange) (entries : Nat) : Bool :=
  match x.readCopy with
  | some rc => decide ((x.writeCount - rc).toNat < entries)
  | none => Config.roomUncopied x.writeCount

/-- The oldest report is written into the ring, when it has room (R157). -/
def State.reportStep (s : State) : Option State :=
  match s.store.queue, s.xchg.anchor with
  | r :: rest, some a =>
    if s.xchg.state = .running ∧ s.xchg.ringRoom a.reportEntries = true then
      let t := s.onStore fun st => { st with queue := rest }
      some (t.onXchg fun x =>
        let y := x.put (a.reportBase + 128 * (x.writeCount.toNat % a.reportEntries)) (reportBytes r)
        ((({ y with writeCount := y.writeCount + 1 } : Exchange).putAnchor 0x90 (leWord 4 (y.writeCount + 1))).request causeReport))
    else none
  | _, _ => none

/-- The report that has waited longest joins the queue (R158). -/
def State.joinStep (s : State) : Option State :=
  match s.store.waiting with
  | .held _ r :: rest =>
    if s.store.queue.length < Config.reportQueue then
      some (s.onStore fun st => { st with queue := st.queue ++ [r], waiting := rest })
    else none
  | _ => none

/-- STORAGE_FULL is raised for the open clip: the event and its report (R152). -/
def State.raiseFull (s : State) : State :=
  let clip := s.writer.clipNumber
  (s.raise emit 0x0404 clip.toNat).onStore fun st => st.offer s.time .level (.storageFull clip st.freePacks)

/-- The FILLING buffer is given up (R110). -/
def Writer.dropFilling (w : Writer) : Writer :=
  match w.filling with
  | none => w
  | some i => w.onBuf i fun _ => .empty

/-- The cut that goes on when the one in progress has ended: the cut whose step 1 an extent cut had come into (R116). -/
def Writer.cutAfter (w : Writer) : Option Cut :=
  (w.cut.bind (·.outer)).map fun reason => { reason, stage := .place, outer := none }

/-- The answer to an opening (R146): SEGMENT_OPENED is emitted and then the first position handed, or the clip closes. With no FILLING
buffer left, after an ABANDON during an extent cut or a close that the event's chain starts, the first position goes back unused
(log entry 59). -/
def State.opened (serial : Word) (index : Nat) (answer : Option Nat) (s : State) : State :=
  match answer with
  | some block =>
    let t := s.raise emit 0x0400 serial.toNat
    let u := t.onWriter fun w => { w.openSegment serial index block with lastIndex := index, cut := w.cutAfter }
    if t.writer.filling.isNone then u.onStore fun st => st.returnPack serial block else u
  | none =>
    let a := (s.onStore fun st => { st with openIncidents := [], openIncidentCount := 0, openMark := none }).raiseFull
    let b := (a.onWriter fun w => { w with cut := none }).startClose .storageFull
    b.onWriter Writer.dropFilling

/-- The answer to a position request (R110). An extent cut that comes into step 1 of another cut holds it, and that cut goes on in
the new segment (R116). -/
def State.positioned (i : Fin 4) (answer : PosAnswer) (s : State) : State :=
  match answer with
  | .position block => s.onWriter fun w => w.onBuf i fun b => { b with pos := some block }
  | .extentsFull => s.onWriter fun w =>
      { w with cut := some { reason := .extents, stage := .askClose, outer := w.cut.map (·.reason) }, cutRequest := false }
  | .none => ((s.raiseFull).startClose .storageFull).onWriter Writer.dropFilling

/-- The answer to a close (R116 step 3, R119 step 5, R148). -/
def State.closeAnswered (forCut : Bool) (answer : Option Nat) (s : State) : State :=
  let reason := if forCut then (s.writer.cut.map (·.reason)).getD .close else .close
  let t := match answer with
    | some block => s.buildTail reason block
    | none => s
  t.onWriter fun w =>
    let v := { w with seg := none }
    if forCut then { v with cut := v.cut.map fun c => { c with stage := if answer.isSome then .handTail else .askOpen } }
    else { v with closing := if answer.isSome then .handTail else .finish }

/-- A block lies in a removed range. -/
def inRange (range : Option (Nat × Nat)) (b : Nat) : Bool :=
  match range with
  | some (lo, n) => decide (lo ≤ b) && decide (b < lo + n)
  | none => false

/-- A FILLING buffer inside a removed range loses its position and asks for a new one (R150). -/
def State.fillingRemoved (range : Option (Nat × Nat)) (s : State) : State :=
  match s.writer.filling with
  | some i =>
    if ((s.writer.bufs.get i).pos.map (inRange range)).getD false then
      (s.onWriter fun w => w.onBuf i fun b => { b with pos := none }).onStore fun st =>
        { st with matters := st.matters ++ [.replaceFilling i] }
    else s
  | none => s

/-- The range removed under NEXT_EXTENT after the fault at `block`: the record's entries inside it ask for new positions, the
others keep their blocks; then the FILLING buffer (R134, R150). A pack handed since the pop, or a tail built and not handed, keeps
its block, and so does every entry when no extent held the faulting block (DESIGN CHOICE, log entry 57). -/
def State.removed (block : Nat) (range : Option (Nat × Nat)) (s : State) : State :=
  let list := s.card.list.map fun e => if e.awaiting && !inRange range e.block then { e with awaiting := false } else e
  let asks := (list.filter (·.awaiting)).map fun e => Matter.replace e.source false (e.block == block)
  ((s.onCard fun c => { c with list }).onStore fun st => { st with matters := st.matters ++ asks }).fillingRemoved range

/-- A removal made: where its resumption has ended meanwhile, no entry of the record is re-placed, and an entry inside the range
keeps its block (DESIGN CHOICE, log entry 57). -/
def State.removalMade (block : Nat) (asked : Bool) (range : Option (Nat × Nat)) (s : State) : State :=
  if asked then s.removed block range else s.fillingRemoved range

/-- An entry re-placed under NEXT_EXTENT has got no position: it and every later entry of the record are settled as CLOSE settles
them, and the clip closes with reason CARD (R134). A tail that was entry 1 asks once more, as R135 has it written. -/
def State.unplaced (e : Entry) (first : Bool) (s : State) : State :=
  let later := (s.card.list.dropWhile fun o => o.source != e.source).filter (·.resumed)
  let a := (later.filter fun o => o.source.isPack).foldl (fun s o => s.discard o) s
  let again := first && e.source == .tail
  let b := a.onCard fun c => { c with list := c.list.map fun o => { o with awaiting := again && o.source == .tail } }
  let d := (b.onStore Store.dropReplaces).closeForCard .resumption
  if again then d.onStore fun st => { st with matters := st.matters ++ [.replace .tail true true] } else d

/-- The answer to a re-placement of an entry (R134, R135, R150). A tail that a CLOSE settles and that gets none is not written
(R135). -/
def State.replaced (e : Entry) (settled first : Bool) (answer : PosAnswer) (s : State) : State :=
  match answer with
  | .position block =>
    let a := s.onCard fun c => { c with list := c.list.map fun o =>
      if o.source = e.source then { o with block, awaiting := false } else o }
    match e.source with
    | .buf i => a.onWriter fun w => w.onBuf i fun b => { b with pos := some block }
    | .tail => (a.onWriter fun w => { w with tail := { w.tail with pos := block } }).onStore fun st =>
        st.mapSeg e.serial fun g => { g with tail := .pending block }
  | answer =>
    if settled then s.discard e
    else
      let d := s.unplaced e first
      if answer = .none then d.raiseFull else d

/-- The answer to the re-placement of the FILLING buffer (R150, log entry 29). -/
def State.fillingReplaced (i : Fin 4) (answer : PosAnswer) (s : State) : State :=
  match answer with
  | .position block => s.onWriter fun w => w.onBuf i fun b => { b with pos := some block }
  | answer =>
    let a := (s.onWriter fun w => w.onBuf i fun _ => .empty).startClose .card
    if answer = .none then a.raiseFull else a

/-- A segment COMPLETE: SEGMENT_CLOSED is emitted, and then the segment leaves the table or stays to loop (R149). -/
def State.completed (serial : Word) (s : State) : State :=
  (s.raise emit 0x0401 serial.toNat).onStore fun st => st.leaveTable serial

/-- What a matter's evaluation comes to in the state: the matter stays until it is answered, and blocked work takes its
place among those that wait (R158). -/
def State.matterReply {α : Type} (rest : List Matter) (r : Reply α) (k : α → State → State) (s : State) : Option State :=
  match r with
  | .blocked => if s.store.waiting.contains .segmentWork then none else some (s.onStore Store.blockWork)
  | .moved st => some { s with store := st }
  | .answer st a => some (k a { s with store := { st.clearWork with matters := rest } })

/-- The oldest matter of the storage map (R158). -/
def State.matterStep (s : State) : Option State :=
  let st := s.store
  let serial := (s.writer.seg.map (·.serial)).getD 0
  match st.matters with
  | [] => none
  | .opening n clip index :: rest => s.matterReply rest (st.openSegment s.time n clip index) (State.opened n index)
  | .position i :: rest => s.matterReply rest (st.nextPack s.time false serial) (State.positioned i)
  | .closing forCut noTail :: rest => s.matterReply rest (st.closeSegment s.time serial noTail) (State.closeAnswered forCut)
  | .closed n :: rest => s.matterReply rest (st.completeSegment s.time n) fun _ => State.completed n
  | .removal n block asked :: rest => s.matterReply rest (st.removeRange s.time n block) (State.removalMade block asked)
  | .replace src settled first :: rest =>
    match s.card.list.find? fun e => e.source == src with
    | none => some (s.onStore fun st => { st with matters := rest })
    | some e => s.matterReply rest (st.nextPack s.time settled e.serial) (State.replaced e settled first)
  | .replaceFilling i :: rest => s.matterReply rest (st.nextPack s.time false serial) (State.fillingReplaced i)

/-- A segment whose tail is settled and whose writes have ended asks for its completion (R149). -/
def State.completionStep (s : State) : Option State :=
  let ready (g : Seg) : Bool :=
    g.phase == .ending
      && (match g.tail with
          | .written _ => true
          | .missing => true
          | _ => false)
      && !(s.card.list.any fun e => e.serial == g.serial) && !s.store.matters.contains (.closed g.serial)
  (s.store.table.find? ready).map fun g => s.onStore fun st => { st with matters := st.matters ++ [.closed g.serial] }

/-! ## Buffers, units, chunks (R106 to R114) -/

/-- A chunk whose clip has no room left for it is read to its end and lost (log entry 13). -/
def State.lostStep (s : State) : Option State :=
  if s.writer.state = .closing ∧ s.writer.filling.isNone ∧ !s.writer.feed.isEmpty then
    let t := s.onWriter fun w => { w with feed := [], job := none }
    match s.writer.job with
    | some j =>
      if j.stage = .copying then some ((t.onWriter fun w => { w with repeats := .empty }).finish .chunk .done .ok j.seq.toNat)
      else some t
    | none => some t
  else none

/-- A full FILLING buffer is queued and succeeded, and the successor's position asked (R109, R110). -/
def State.fullStep (s : State) : Option State :=
  let w := s.writer
  let allowed := (w.state == .opened || (w.state == .closing && w.closing == .drain))
    && (match w.cut with
        | none => true
        | some c => c.stage == .place)
  match w.filling, w.spare with
  | some i, some j =>
    if allowed && (w.bufs.get i).room == 0 && (w.bufs.get i).pos.isSome && s.listRoom then
      some (((s.queueBuffer i).onWriter fun w => w.onBuf j fun _ => .fresh).onStore fun st =>
        { st with matters := st.matters ++ [.position j] })
    else none
  | _, _ => none

/-- The data of a chunk still to be read. -/
def dataLeft (l : List Src) : Nat := (l.map fun s => match s with
  | .host _ n => n
  | _ => 0).sum

/-- The first `n` bytes of the data still to be read. -/
def dataBytes (m : Mem) : Nat → List Src → List Byte
  | _, [] => []
  | n, .host a k :: l => memBytes m a (min n k) ++ dataBytes m (n - k) l
  | n, _ :: l => dataBytes m n l

/-- The header bytes still to be placed. -/
def headerLeft (l : List Src) : List Byte := l.flatMap fun s => match s with
  | .bytes b => b
  | _ => []

/-- The unit completed with zero bytes after `good` bytes of the data still to be read (R107). -/
def Writer.zeroComplete (w : Writer) (mem : Mem) (good : Nat) : Writer :=
  let header := headerLeft w.feed
  let g := min good (dataLeft w.feed)
  { w with feed := runsOf [.bytes header, .bytes (dataBytes mem g w.feed), .zeros (srcLength w.feed - header.length - g)] }

/-- A piece read of the chunk being copied fails after `good` bytes (R107): the unit is completed with zeros, the frame is HELD by
a DATA_ERROR, and the sequence is kept for the frame when it is taken again. -/
def State.pieceFault (j : ChunkJob) (good : Nat) (s : State) : State :=
  (s.onWriter fun w => { w.zeroComplete s.xchg.mem good with job := none, repeats := w.repeats.keep j.stream j.seq }).onXchg fun x =>
    x.dataFault s.time .chunk

/-- The good bytes of the run of a piece that is about to be copied, when the link fails its read. -/
def Writer.badRun (bad : List Span) (w : Writer) : Option Nat :=
  match w.feed, w.filling with
  | .host a n :: _, some i =>
    let b := w.bufs.get i
    if b.pos.isNone || b.room == 0 || w.awaitsCopy || readOk bad a (min n b.room) then none
    else some (goodBytes bad a (min n b.room))
  | _, _ => none

/-- Bytes of the unit in progress move into the buffer (R106), or the read of them fails (R107). -/
def State.feedStep (s : State) : Option State :=
  match s.writer.job, s.writer.badRun s.xchg.badReads with
  | some j, some good => some (s.pieceFault j good)
  | _, _ => (s.writer.feedStep s.xchg.mem).map fun w => { s with writer := w }

/-- Placing can proceed: no unit in progress, and the FILLING buffer has its position (R112, R114). -/
def Writer.placing (w : Writer) : Option (Fin 4) :=
  if w.feed.isEmpty && !w.copyBegun then
    match w.filling with
    | some i => if (w.bufs.get i).pos.isSome then some i else none
    | none => none
  else none

/-- A unit's time reaches the storage map (R145). -/
def State.noteUnit (t : Time) (s : State) : State :=
  match s.store.openSeg with
  | some g => s.onStore fun st => st.mapSeg g.serial fun h => h.noteTime t
  | none => s

/-- The oldest queued unit is placed (R112). -/
def State.queueStep (s : State) : Option State :=
  let w := s.writer
  let allowed := (w.state == .opened || (w.state == .closing && w.closing == .drain))
    && (match w.cut with
        | none => true
        | some c => c.stage == .place)
  match w.placing, w.queue with
  | some i, u :: rest =>
    if allowed && (w.bufs.get i).room != 0 then
      some ((s.onWriter fun w => ({ w with queue := rest } : Writer).startQueued u).noteUnit u.time)
    else none
  | _, _ => none

/-- The cut a MAIN chunk causes, if any (R115). -/
def State.cutDue (j : ChunkJob) (s : State) : Option CutReason :=
  match s.writer.clip with
  | none => none
  | some c =>
    if j.stream ≠ .main then none
    else
      let elapsed := match s.store.openSeg with
        | some g => if g.timed && timeLater j.time g.start then some (timeSince j.time g.start) else if g.timed then some 0 else none
        | none => none
      let point := j.flags.getLsbD 0
      let past (us : Nat) : Bool := match elapsed with
        | some e => decide (us ≤ e)
        | none => false
      if point && past (c.duration * 1000000) then some .time
      else if !point && past ((c.duration + 2) * 1000000) then some .forced
      else if s.writer.cutRequest then some .host
      else none

/-- Staging is full (section 6.7): the FILLING buffer is full and cannot be queued. -/
def State.stagingFull (s : State) : Bool :=
  match s.writer.filling with
  | some i =>
    let b := s.writer.bufs.get i
    b.room == 0 && b.pos.isSome && !(s.writer.spare.isSome && s.listRoom)
  | none => false

/-- The CHUNK frame being carried out moves on (R114, R115). PROXY and AUDIO reach placing at once, and staging is judged then. The
cut that a MAIN frame causes is decided when the FILLING buffer has its position and no unit is in progress (DESIGN CHOICE, log
entry 51). -/
def State.jobStep (s : State) : Option State :=
  match s.writer.job with
  | none => none
  | some j =>
    let ready := s.onWriter fun w => { w with job := some { j with stage := .judged } }
    match j.stage with
    | .arrived =>
      if j.stream = .main then
        if s.writer.cut.isSome || s.writer.placing.isNone then none
        else match s.cutDue j with
          | some reason =>
            some (ready.onWriter fun w => { w with cut := some { reason, stage := .place, outer := none }, cutRequest := false })
          | none => some ready
      else if j.stream = .proxy ∧ s.stagingFull then
        let t := s.onWriter fun w => { w with job := none, repeats := .empty, chunksDropped := w.chunksDropped + 1 }
        some (t.finish .chunk .dropped .stagingFull 0)
      else some ready
    | .judged =>
      match s.writer.placing with
      | some i =>
        if s.writer.cut.isNone ∧ (s.writer.bufs.get i).room ≠ 0 ∧ s.writer.queue.isEmpty then
          some ((s.onWriter fun w => w.startChunk j).noteUnit j.time)
        else none
      | none => none
    | .copying => none

/-! ## Cuts (R116) -/

/-- The cut in progress takes its next step, when the step before it has ended (R116). -/
def State.cutStep (s : State) : Option State :=
  let w := s.writer
  match w.cut with
  | none => none
  | some c =>
    let goto (st : CutStage) (t : State) : State := t.onWriter fun w => { w with cut := some { c with stage := st } }
    let ends (t : State) : State := t.onWriter fun w => { w with cut := none }
    let closing := w.state == .closing && c.reason != .extents
    match c.stage with
    | .place =>
      if w.queue.isEmpty && w.placing.isSome then some (goto .queue (s.onWriter fun w => w.pad s.time)) else none
    | .queue =>
      match w.filling, w.spare with
      | some i, some j =>
        if s.listRoom && (w.bufs.get i).pos.isSome then
          some (goto .askClose ((s.queueBuffer i).onWriter fun w => w.onBuf j fun _ => .fresh))
        else none
      | _, _ => none
    | .askClose =>
      match w.seg with
      | none => some (goto .askOpen s)
      | some g =>
        if w.tail.st = .empty then
          some (goto .waitClose (s.onStore fun st =>
            let noted := st.mapSeg g.serial fun h => h.noteClose s.time
            { noted with matters := noted.matters ++ [.closing true false] }))
        else none
    | .waitClose => none
    | .handTail => if s.listRoom then some (if closing then ends (s.queueTail false) else goto .askOpen (s.queueTail false)) else none
    | .askOpen =>
      if closing then some (ends s)
      else
        some (goto .waitOpen (s.onStore fun st =>
          { st with
            nextSerial := st.nextSerial + 1
            matters := st.matters ++ [.opening st.nextSerial w.clipNumber (w.lastIndex + 1)] }))
    | .waitOpen => none

/-! ## Closes (R119) -/

/-- The end of a close (R119 step 6). -/
def State.endClose (s : State) : State :=
  let w := s.writer
  let clip := w.clipNumber
  let a := s.onWriter fun w =>
    { w with state := .idle, clip := none, queue := [], repeats := .empty, closing := .drain, tailBy := .assembler, seg := none }
  let b := match s.xchg.hand .control with
    | some f =>
      match f.body with
      | .clipClose => if f.started then a.finish .control .done .ok clip.toNat else a
      | _ => a
    | none => a
  (b.raise emit 0x0402 clip.toNat).onStore fun st =>
    st.offer s.time .clip (.clipClosed clip w.reason w.placed w.chunksDropped w.motionDropped w.markersDropped)

/-- The card is READY, WRITING or BUSY (R102, R128, R143). -/
def Card.usable (c : Card) : Bool := c.state == .ready || c.state == .writing || c.state == .busy

/-- Every pack buffer and the tail buffer is EMPTY (R119 step 4). -/
def Writer.drained (w : Writer) : Bool := (w.bufs.toList.all fun b => b.st == .empty) && w.tail.st == .empty

/-- The close takes its next step, when the step before it has ended (R119). A FILLING buffer that is exactly full when steps 1 and 2 have
ended is the final pack of step 3, with no successor (R109, DESIGN CHOICE, log entry 78). A tail that the port writes is given up when the
card is not READY at the moment the close of the segment would be asked for, and again when the tail would be handed (R135, R137); with the
first, no position is taken and nothing is split off (R148, DESIGN CHOICE, log entry 46). -/
def State.closeStep (s : State) : Option State :=
  let w := s.writer
  if w.state ≠ .closing ∨ w.cut.isSome then none
  else
    let goto (st : CloseStage) (t : State) : State := t.onWriter fun w => { w with closing := st }
    match w.closing with
    | .drain =>
      if w.feed.isEmpty && w.job.isNone then
        match w.filling with
        | none => some (goto .waitWrites s)
        | some i =>
          let b := w.bufs.get i
          if b.pos.isSome && !w.queue.isEmpty then none
          else if b.pos.isNone && (s.store.matters.any fun m => m.asksPosition || m.replacesFilling) then none
          else if b.fill = 0 then
            let t := s.onWriter fun w => w.onBuf i fun _ => .empty
            some (goto .waitWrites (match b.pos, w.seg with
              | some p, some g => t.onStore fun st => st.returnPack g.serial p
              | _, _ => t))
          else some (goto .queue (s.onWriter fun w => w.pad s.time))
      else none
    | .queue =>
      match w.filling with
      | none => some (goto .waitWrites s)
      | some i =>
        if s.listRoom && (w.bufs.get i).pos.isSome then some (goto .waitWrites (s.queueBuffer i))
        else if (w.bufs.get i).pos.isNone && !(s.store.matters.any Matter.replacesFilling) then
          some (goto .waitWrites (s.onWriter fun w => w.onBuf i fun _ => .empty))
        else none
    | .waitWrites => if w.drained then some (goto .askTail s) else none
    | .askTail =>
      match w.seg with
      | none => some (goto .finish s)
      | some g =>
        let noTail := w.tailBy != .assembler && s.card.state != .ready
        some (goto .waitTail (s.onStore fun st =>
          let noted := st.mapSeg g.serial fun h => h.noteClose s.time
          { noted with matters := noted.matters ++ [.closing false noTail] }))
    | .waitTail => none
    | .handTail =>
      if w.tailBy != .assembler && s.card.state != .ready then
        some (goto .finish ((s.onWriter fun w => { w with tail := .empty }).onStore fun st => st.tailMissing w.tail.serial))
      else if s.listRoom then some (goto .waitTailWrite (s.queueTail (w.tailBy == .settlement)))
      else none
    | .waitTailWrite => if w.tail.st = .empty then some (goto .finish s) else none
    | .finish => some s.endClose

/-- The resumption ends, and with it the RESUME frame (R132). -/
def State.resumeStep (s : State) : Option State :=
  if s.resumptionOver then
    some ((s.onCard fun c => { c with resumption := none }).finish .recovery .done .ok 0)
  else none

/-! ## To rest -/

/-- The first of the alternatives that applies. -/
def firstSome (s : State) : List (State → Option State) → Option State
  | [] => none
  | f :: fs =>
    match f s with
    | some t => some t
    | none => firstSome s fs

/-- The pieces of block work, in the order they are tried. -/
def allWork : List (State → Option State) :=
  [State.takeBacklog, State.levelStep, State.reportStep, State.joinStep, State.matterStep, State.completionStep,
   State.endUnbegun emit, State.arbitrate emit, State.lostStep, State.cutStep, State.closeStep, State.fullStep,
   State.feedStep, State.queueStep, State.jobStep, State.resumeStep]

/-- The blocks work until none of them can go on, or the bound is met (log entry 7). -/
def State.settleFor : Nat → State → State
  | 0, s => s
  | n + 1, s =>
    match firstSome s allWork with
    | some t => t.settleFor n
    | none => s

/-- The blocks come to rest. -/
def State.settle (s : State) : State := s.settleFor Config.settleBound

/-- The end of a command: the blocks come to rest, and the status block is refreshed if one asked (R92). -/
def State.rest (s : State) : State := s.settle.refreshIfAsked

/-! ## Resets of the whole part (R2) -/

/-- Input line 2 is asserted (R122). -/
def State.cardDetected (s : State) : Bool := s.router.lines.a2.level

/-- A link reset in every block (R82 and the reset rule of each chapter); the reset cause is the caller's. An event still in the
backlog is not delivered: R76 allows both that and a delivery under the default routes (DESIGN CHOICE, log entry 7). -/
def State.linkReset (keepTimer3 : Bool) (s : State) : State :=
  let flying := if s.card.draining then s.card.drainSource else s.card.flyingSource
  { s with
    xchg := s.xchg.linkReset
    motion := s.motion.linkReset s.time (s.supply.power == .parked)
    path := .reset
    router := s.router.afterReset keepTimer3
    writer := s.writer.afterReset flying
    card := s.card.linkReset s.cardDetected
    store := .reset
    backlog := [] }

/-- A power-on or brownout reset (R2, R3): everything but the world outside, the line levels given. -/
def State.fullReset (levels : Four Bool) (cause : ResetCause) (s : State) : State :=
  { State.reset with
    xchg := { Exchange.reset with mem := s.xchg.mem, badReads := s.xchg.badReads, messages := s.xchg.messages }
    router := { Router.reset with lines := levels.map fun l => .reset l 0 }
    card := .reset levels.a2
    supply := .reset cause
    race := s.race
    pending := s.pending }

/-- A brownout reset at the levels that the lines have. What no chapter names for it keeps its value (R2): the newest measurement,
the terms of the newest evaluation, the time of the last RUNNING entry, the counts that START sets, and the link. -/
def State.brownout (s : State) : State :=
  let t := s.fullReset (s.router.lines.map (·.level)) .brownout
  { t with
    xchg := { t.xchg with writeCount := s.xchg.writeCount, refreshCount := s.xchg.refreshCount, linkUp := s.xchg.linkUp }
    motion := { t.motion with runEntry := s.motion.runEntry }
    charger := { t.charger with meas := s.charger.meas, terms := s.charger.terms } }

end Sys2Proof.Machine
end

