-- ==== Sys2Proof/Machine/ExchangeCommands.lean ====
section
/-! DEFINITION. The commands of the resets, the register window and the exchange engine (chapter 5, R2, R186). -/

namespace Sys2Proof.Machine

/-! ## Shared parts -/

/-- The body of the frame a lane has in hand, taken and not yet carried out (log entry 2). -/
def State.frameBody (s : State) (l : Lane) : Option Body :=
  match s.xchg.hand l with
  | some f => if f.started then none else some f.body
  | none => none

/-- A host register access shows that the link is up (log entry 21). -/
def State.linkSeen (s : State) : State := s.onXchg fun x => { x with linkUp := true }

/-- A lane looks for a frame (R88). -/
def State.look (l : Lane) (s : State) : State := s.onXchg fun x => x.look s.writer.gate s.time l

/-- The lanes in the order of the current command (log entry 8). -/
def State.laneOrder (s : State) : List Lane := arrange s.race.lanes allLanes

/-- The three lanes look for frames. -/
def State.lookAll (s : State) : State := s.onXchg fun x => x.lookAll s.writer.gate s.time s.laneOrder

/-- A nudge, or the work of a scan tick (R88, R89). -/
def State.poll (s : State) : State := s.onXchg fun x => x.poll s.writer.gate s.time s.laneOrder

/-- The comparator owes a SHOCK_FALSE as the port leaves RUNNING: it is emitted after the port has left (R15). -/
def State.shockFalse (owed : Bool) (s : State) : State := if owed then s.raise emit 0x0301 s.motion.shockPeak else s

/-- The return to ACTIVE (R191): IMU, SHOCK_FALSE where it is owed, prompt evaluation. -/
def State.returnActive (s : State) : State :=
  if s.supply.power = .active then s
  else
    let owed := s.motion.owesShockFalse
    let t := (s.onSupply fun u => { u with power := .active, hostPower := true }).onMotion fun m => m.wake s.time
    (t.shockFalse owed).prompt emit

/-- START in OFF or ANCHOR_BAD begins the anchor check with the address that stands, and makes the return (R78, R191). -/
def State.start (s : State) : State :=
  if (s.xchg.state = .off ∨ s.xchg.state = .anchorBad) ∧ s.xchg.starting = none then
    (s.onXchg fun x => { x with starting := some (x.anchorHigh.toNat * 4294967296 + x.anchorLow.toNat) }).returnActive
  else s

/-- The link reset that R188's race takes second: it comes in the microsecond of the entry to PARKED or SLEEP, whose own link reset
is being applied (R82, R188; DEDUCED, log entry 60). -/
def State.entryRaces (s : State) : Bool :=
  s.supply.power != .active && s.supply.wake == .none && s.supply.entered == some s.time

/-- A link reset with reset cause LINK (R82, R79), in every power state (R78); the one that races an entry adds nothing (R188). -/
def State.linkResetByHost (s : State) : State :=
  if s.entryRaces then s
  else (s.linkReset false).onSupply fun u => { u with cause := .link }

/-! ## Resets -/

/-- POWER_ON_RESET (R2): the levels of the input lines as they stand at power-up (log entry 34). -/
def execPowerOnReset (a : Ambient) (levels : BitVec 4) (s : State) : Host.Outcome State Fault Refusal :=
  let lv : Four Bool := { a0 := levels.getLsbD 0, a1 := levels.getLsbD 1, a2 := levels.getLsbD 2, a3 := levels.getLsbD 3 }
  .next ((s.arrive a).fullReset lv .powerOn)

/-- BROWNOUT_RESET (R186): the whole part reset and held, host power-enable low. -/
def execBrownoutReset (a : Ambient) (s : State) : Host.Outcome State Fault Refusal :=
  perform a s fun s =>
    s.brownout.onSupply fun u => { u with held := true, hostPower := false }

/-- BROWNOUT_RELEASE (R186): the part starts with the state of the brownout reset. -/
def execBrownoutRelease (a : Ambient) (s : State) : Host.Outcome State Fault Refusal :=
  if s.supply.held then .next (s.arriveHeld a).brownout
  else .next (s.arrive a)

/-- LINK_DOWN (R82): in ACTIVE a link reset with cause LINK; in PARKED and SLEEP none (R189). -/
def execLinkDown (a : Ambient) (s : State) : Host.Outcome State Fault Refusal :=
  perform a s fun s =>
    let t := s.onXchg fun x => { x with linkUp := false }
    if s.supply.power = .active then t.linkResetByHost else t

/-- LINK_RESET (R78, R82): the CONTROL write with LINK_RESET set, and with START set too when `alsoStart`. -/
def execLinkReset (a : Ambient) (alsoStart : Bool) (s : State) : Host.Outcome State Fault Refusal :=
  perform a s fun s =>
    let t := s.linkSeen.linkResetByHost
    if alsoStart then t.start.rest else t

/-! ## The register window -/

/-- START (R78). -/
def execStart (a : Ambient) (s : State) : Host.Outcome State Fault Refusal :=
  perform a s fun s => s.linkSeen.start.rest

/-- ANCHOR_READ_COMPLETE (R80, R81). -/
def execAnchorReadComplete (a : Ambient) (s : State) : Host.Outcome State Fault Refusal :=
  perform a s fun s =>
    match s.xchg.starting with
    | none => s
    | some base =>
      match checkAnchor s.xchg.mem s.xchg.badReads base with
      | .inl check => s.onXchg fun x => { x with state := .anchorBad, check, starting := none }
      | .inr copy => ((s.onXchg fun x => x.enterRunning s.time copy).refresh).lookAll.rest

/-- NUDGE (R77, R88). -/
def execNudge (a : Ambient) (s : State) : Host.Outcome State Fault Refusal :=
  perform a s fun s => s.linkSeen.poll.rest

/-- CAUSE_WRITE (R90). -/
def execCauseWrite (a : Ambient) (value : Word) (s : State) : Host.Outcome State Fault Refusal :=
  perform a s fun s => s.linkSeen.onXchg fun x => x.clearCause value

/-- CAUSE_MASK_WRITE (R91). -/
def execCauseMaskWrite (a : Ambient) (value : Word) (s : State) : Host.Outcome State Fault Refusal :=
  perform a s fun s => s.linkSeen.onXchg fun x => x.writeMask value

/-- A CONTROL write is one request: LINK_RESET first, then START (R78). -/
def State.controlWrite (value : Word) (s : State) : State :=
  let t := if value.getLsbD 1 then s.linkResetByHost else s
  if value.getLsbD 0 then t.start.rest else t

/-- REGISTER_WRITE (R77): a write of any other width or alignment is ignored, as are the read-only registers. -/
def execRegisterWrite (a : Ambient) (offset width : Nat) (value : Word) (s : State) : Host.Outcome State Fault Refusal :=
  perform a s fun s0 =>
    let s := s0.linkSeen
    if width ≠ 4 then s
    else match offset with
      | 0x00 => s.onXchg fun x => { x with anchorLow := value &&& 0xFFFFF000 }
      | 0x04 => s.onXchg fun x => { x with anchorHigh := value }
      | 0x08 => s.controlWrite value
      | 0x0C => s.poll.rest
      | 0x10 => s.onXchg fun x => x.clearCause value
      | 0x14 => s.onXchg fun x => x.writeMask value
      | _ => s

/-! ## Timers of the engine -/

/-- SCAN_TICK (R89): each tick is scheduled from the previous one. -/
def execScanTick (a : Ambient) (s : State) : Host.Outcome State Fault Refusal :=
  perform a s fun s =>
    match s.xchg.nextScan, s.xchg.anchor with
    | some t, some c =>
      if timeReached s.time t then
        ((s.onXchg fun x => { x with nextScan := some (timeAfter t c.scanPeriod) }).poll).rest
      else s
    | _, _ => s

/-- STATUS_REFRESH (R92): each refresh is scheduled from the previous one. -/
def execStatusRefresh (a : Ambient) (s : State) : Host.Outcome State Fault Refusal :=
  perform a s fun s =>
    match s.xchg.nextRefresh with
    | some t =>
      if timeReached s.time t then
        (s.onXchg fun x => { x with nextRefresh := some (timeAfter t Config.refreshPeriod) }).refresh
      else s
    | none => s

/-- STATUS_ACK (R93): accrued flags and recentre status cleared, a refresh, then the finish. -/
def execStatusAck (a : Ambient) (s : State) : Host.Outcome State Fault Refusal :=
  perform a s fun s =>
    match s.frameBody .control with
    | some .statusAck => ((s.onPath fun p => { p with accrued := 0, recentred := false }).refresh).finish .control .done .ok 0
    | _ => s

/-! ## RESUME and ABANDON -/

/-- A format-1 record popped by RESUME: its lane waits to take the held frame again, or to read the link (R99). -/
def Exchange.popForRetake (l : Lane) (point : Point) (x : Exchange) : Exchange :=
  let y := x.pop
  match point with
  | .frame => y.setLane l { (y.lane l) with held := none, retake := ((y.lane l).held.map (·.address)) }
  | .link => y

/-- A record that fails validation: a format-3 record above it, and BAD_RECORD (R98). -/
def State.badRecord (s : State) : State :=
  let x := s.xchg
  let code := memByte x.mem x.topAddress
  let frame := ((x.hand .recovery).map (·.address)).getD 0
  (s.onXchg fun x => x.push (.record (code == 3) (code.setWidth 16) x.depth frame s.time)).finish .recovery .refused .badRecord 0

/-- RESUME on the top record (R97, R99, R132, R140). -/
def State.resumeRecord (s : State) : State :=
  match s.xchg.stack with
  | [] => s.finish .recovery .refused .nothingPending 0
  | r :: _ =>
    let at_ := s.xchg.topAddress
    let readable := readOk s.xchg.badReads at_ r.size
    match r with
    | .record .. => s.finish .recovery .refused .notResumable 0
    | .frame lane point _ _ _ _ _ =>
      if !readable then s.finish .recovery .refused .fetchError 0
      else if checkRecord s.xchg.mem at_ r = .frameGood then
        ((s.onXchg fun x => x.popForRetake lane point).finish .recovery .done .ok 0).release lane
      else s.badRecord
    | .card _ block serial _ _ _ live _ =>
      if !readable then s.finish .recovery .refused .fetchError 0
      else if !live then (s.onXchg Exchange.pop).finish .recovery .done .superseded 0
      else match checkRecord s.xchg.mem at_ r with
        | .cardGood entries cont =>
          ((s.onXchg fun x => x.pop.startHand .recovery).release .chunk).resumeCard entries cont serial block
        | _ => s.badRecord

/-- RESUME carried out. On an exchange that has STOPPED the records stay and only the hand is emptied (R95, log entry 41). -/
def State.resumeTop (s : State) : State :=
  if s.xchg.state = .running then s.resumeRecord else s.finish .recovery .done .ok 0

/-- RESUME (R97). -/
def execResume (a : Ambient) (s : State) : Host.Outcome State Fault Refusal :=
  perform a s fun s =>
    match s.frameBody .recovery with
    | some .resume => s.resumeTop.rest
    | _ => s

/-- The result that equals a frame fault's reason (R100). -/
def FrameReason.result : FrameReason → Result
  | .unknownFormat => .unknownFormat
  | .fetchError => .fetchError
  | .dataError => .dataError

/-- The held frame of a lane finished FAULTED (R100). -/
def Exchange.faultHeld (l : Lane) (reason : FrameReason) (x : Exchange) : Exchange :=
  match (x.lane l).held with
  | none => x
  | some f =>
    let y := x.setLane l { (x.lane l) with held := none }
    if y.state = .running then y.complete l f .faulted reason.result 0 else y

/-- A CHUNK frame given up leaves no repeat sequence (R107). -/
def State.dropRepeats (l : Lane) (s : State) : State :=
  if l = .chunk then s.onWriter fun w => { w with repeats := .empty } else s

/-- ABANDON on the top record (R100, R137, R140). -/
def State.abandonRecord (s : State) : State :=
  match s.xchg.stack with
  | [] => s.finish .recovery .refused .nothingPending 0
  | r :: _ =>
    let t := s.onXchg Exchange.pop
    match r with
    | .record .. => t.finish .recovery .done .ok 0
    | .frame lane .link _ _ _ _ _ => (t.release lane).finish .recovery .done .ok 0
    | .frame lane .frame _ _ _ reason _ =>
      (((t.onXchg fun x => x.faultHeld lane reason).dropRepeats lane).release lane).finish .recovery .done .ok 0
    | .card _ _ _ _ _ _ live _ =>
      if live then ((t.release .chunk).abandonCard).finish .recovery .done .ok 0
      else t.finish .recovery .done .superseded 0

/-- ABANDON carried out. On an exchange that has STOPPED the records stay and only the hand is emptied (R95, log entry 41). -/
def State.abandonTop (s : State) : State :=
  if s.xchg.state = .running then s.abandonRecord else s.finish .recovery .done .ok 0

/-- ABANDON (R100). -/
def execAbandon (a : Ambient) (s : State) : Host.Outcome State Fault Refusal :=
  perform a s fun s =>
    match s.frameBody .recovery with
    | some .abandon => s.abandonTop.rest
    | _ => s

end Sys2Proof.Machine
end

