-- ==== Sys2Proof/Machine/MotionCommands.lean ====
section
/-! DEFINITION. The commands of the motion front end and the path unit (chapters 1 to 3). -/

namespace Sys2Proof.Machine

/-! ## Frames -/

/-- The sensing fields of a MOTION_SETUP frame taken (R7, R13). -/
def Motion.applySetup (m : Motion) (f : MotionFields) : Motion :=
  { m with
    rate := rateOf f.rate
    dps2000 := f.fullScale != 0
    shockHigh := clampShockHigh f.shockHigh
    quietLow := clampQuietLow f.shockHigh f.quietLow
    q := clampTo 1 255 f.q }

/-- The path and framing fields of a MOTION_SETUP frame taken (R21, R24, R33 to R35, R40, R45). -/
def Path.applySetup (p : Path) (f : MotionFields) (mount : Axes MapEntry) : Path :=
  { p with
    mount
    gain := clampTo 1 65535 f.gain
    shifts := f.shifts.map (min 12)
    focal := clampTo 200 8000 f.focal
    mx := min 32767 (clampTo 0 65520 f.mx)
    my := min 32767 (clampTo 0 65520 f.my)
    rl := clampTo 0 16777216 f.rl
    alert := f.alert.setWidth 10
    bands := clampTo 1 16 f.bands
    readout := clampTo 100 100000 f.readout }

/-- The rate or the full scale of a frame differs from the setting in effect (R7). -/
def Motion.changes (m : Motion) (f : MotionFields) : Bool :=
  rateOf f.rate != m.rate || (f.fullScale != 0) != m.dps2000

/-- The port after a MOTION_SETUP frame is taken: STARTING on a change, and from OFF and FAILED (R4, R6, R7). -/
def Motion.setupPort (now : Time) (changed : Bool) (m : Motion) : Motion :=
  match m.port with
  | .off => m.enterStarting now
  | .failed => { m.enterStarting now with restarts := 0 }
  | _ => if changed then m.rearm.enterStarting now else m

/-- MOTION_SETUP (R7, R21). -/
def execMotionSetup (a : Ambient) (s : State) : Host.Outcome State Fault Refusal :=
  perform a s fun s =>
    match s.frameBody .control with
    | some (.motionSetup f) =>
      match mountOf f.axes f.signs with
      | none => s.finish .control .refused .badField 0
      | some mount =>
        let changed := s.motion.changes f
        if changed ∧ s.writer.state ≠ .idle then s.finish .control .refused .busy 0
        else
          let owed := changed && s.motion.owesShockFalse
          let t := (s.onMotion fun m => (m.applySetup f).setupPort s.time changed).onPath fun p => p.applySetup f mount
          ((t.shockFalse owed).finish .control .done .ok 0).rest
    | _ => s

/-- REFERENCE (R25). -/
def execReference (a : Ambient) (s : State) : Host.Outcome State Fault Refusal :=
  perform a s fun s =>
    match s.frameBody .control with
    | some (.reference v) =>
      (s.onPath fun p => { p with pendingRef := some (v.map clampReference) }).finish .control .done .ok 0
    | _ => s

/-- EXPOSURE (R46). -/
def execExposure (a : Ambient) (s : State) : Host.Outcome State Fault Refusal :=
  perform a s fun s =>
    match s.frameBody .control with
    | some (.exposure us) => (s.onPath fun p => { p with exposure := clampTo 0 500000 us }).finish .control .done .ok 0
    | _ => s

/-! ## Samples (R8 to R14) -/

/-- DATA_READY_EDGE (R8). -/
def execDataReadyEdge (a : Ambient) (s : State) : Host.Outcome State Fault Refusal :=
  perform a s fun s => s.onMotion fun m => m.edge s.time

/-- The comparator is given a sample, and what it emits is delivered (R14). -/
def State.shockStep (t : Time) (M : Nat) (s : State) : State :=
  let (m, shock) := s.motion.compare t M
  let u := { s with motion := m }
  match shock with
  | .nothing => u
  | .begins => emit { number := 0x0300, time := t, arg := .num M } u
  | .ends => emit { number := 0x0301, time := t, arg := .num m.shockPeak } u

/-- A sample taken in ACTIVE: integrated, into the ring, to the comparator, then the waiting records (R9 to R14, R23, R48). That the
records are examined behind the comparator's event is the model's order (DESIGN CHOICE, log entry 10). -/
def State.activeSample (t : Time) (x : Sample) (s : State) : State :=
  let p := s.path.integrate (s.motion.dt t) x
  let e := s.motion.entryOf t x p.acc
  let u := { s with path := p, motion := (s.motion.takeSample e).nextRead }
  (u.shockStep e.time (magnitude x)).examine emit

/-- A sample taken in PARKED: to the comparator alone (R16). -/
def State.parkedSample (t : Time) (x : Sample) (s : State) : State :=
  (s.onMotion fun m => (m.takeParked t).nextRead).shockStep t (magnitude x)

/-- SAMPLE_READ_COMPLETE (R8, R9). -/
def execSampleReadComplete (a : Ambient) (x : Sample) (s : State) : Host.Outcome State Fault Refusal :=
  perform a s fun s =>
    match s.motion.reading with
    | none => s
    | some t =>
      if s.motion.port ≠ .running then s
      else if s.supply.power = .active then (s.activeSample t x).rest
      else (s.parkedSample t x).rest

/-! ## The port's deadlines (R4, R5) -/

/-- IMU_SETTLE_END (R4). -/
def execImuSettleEnd (a : Ambient) (s : State) : Host.Outcome State Fault Refusal :=
  perform a s fun s =>
    if s.motion.port = .starting ∧ dueAt s.time s.motion.settleEnd then s.onMotion fun m => m.enterRunning s.time else s

/-- LOSS_DEADLINE (R5): no edge has arrived since the deadline was set. -/
def execLossDeadline (a : Ambient) (s : State) : Host.Outcome State Fault Refusal :=
  perform a s fun s =>
    if s.motion.port = .running ∧ s.motion.reading = none ∧ dueAt s.time s.motion.lossDeadline then
      ((s.onMotion fun m => m.lose s.time).shockFalse s.motion.owesShockFalse).rest
    else s

/-- LOST_POWER_OFF_END (R5). -/
def execLostPowerOffEnd (a : Ambient) (s : State) : Host.Outcome State Fault Refusal :=
  perform a s fun s =>
    if s.motion.port = .lost ∧ dueAt s.time s.motion.offEnd then s.onMotion fun m => m.enterStarting s.time else s

/-- RUNNING_ONE_SECOND (R5). -/
def execRunningOneSecond (a : Ambient) (s : State) : Host.Outcome State Fault Refusal :=
  perform a s fun s =>
    if s.motion.port = .running ∧ timeReached s.time (timeAfter s.motion.runEntry Config.steadyRun) then
      s.onMotion fun m => { m with restarts := 0 }
    else s

/-- EXTRAPOLATION_DEADLINE (R49): the oldest entry is produced if its deadline has passed. -/
def execExtrapolationDeadline (a : Ambient) (s : State) : Host.Outcome State Fault Refusal :=
  perform a s fun s => (s.examine emit).rest

end Sys2Proof.Machine
end

