-- ==== Sys2Proof/Machine/RouterCommands.lean ====
section
/-! DEFINITION. The commands of the event router: routes, lines, timers, outputs (chapter 4). -/

namespace Sys2Proof.Machine

/-- ROUTE (R63, R64). -/
def execRoute (a : Ambient) (s : State) : Host.Outcome State Fault Refusal :=
  perform a s fun s =>
    match s.frameBody .control with
    | some (.route index number) =>
      match sinkOf index with
      | none => s.finish .control .refused .badField 0
      | some k =>
        if number ≠ 0 ∧ !isEventNumber number then s.finish .control .refused .badField 0
        else if selfRaised k number then s.finish .control .refused .selfRoute 0
        else (s.onRouter fun r => { r with routes := r.routes.change k number }).finish .control .done .ok 0
    | _ => s

/-- An index of four. -/
def fourIndex (n : Nat) : Option (Fin 4) := if h : n < 4 then some ⟨n, h⟩ else none

/-- LINE_SETUP (R67). -/
def execLineSetup (a : Ambient) (s : State) : Host.Outcome State Fault Refusal :=
  perform a s fun s =>
    match s.frameBody .control with
    | some (.lineSetup line rise fall holdoff) =>
      match fourIndex line with
      | none => s.finish .control .refused .badField 0
      | some n =>
        (s.onRouter fun r => { r with lines := r.lines.set n { r.lines.get n with rise, fall, holdoff } }).finish
          .control .done .ok 0
    | _ => s

/-- The next expiry a run command leaves: STOP, START, KEEP (R68). -/
def timerRun (run : Nat) (now : Time) (period : Nat) (old : Option Time) : Option (Option Time) :=
  match run with
  | 0 => some none
  | 1 => some (some (timeAfter now period))
  | 2 => some old
  | _ => none

/-- TIMER_SETUP (R68). -/
def execTimerSetup (a : Ambient) (s : State) : Host.Outcome State Fault Refusal :=
  perform a s fun s =>
    match s.frameBody .control with
    | some (.timerSetup timer mode run period) =>
      let p := clampTo 1 16777216 period
      match fourIndex timer with
      | none => s.finish .control .refused .badField 0
      | some n =>
        match timerRun run s.time p (s.router.timers.get n).next with
        | none => s.finish .control .refused .badField 0
        | some next =>
          if 1 < mode then s.finish .control .refused .badField 0
          else
            (s.onRouter fun r => { r with timers := r.timers.set n { period := p, periodic := mode == 1, next } }).finish
              .control .done .ok 0
    | _ => s

/-- One line after an OUTPUT_WRITE: its masks replaced when present, then its request; whether the request was ignored (R72). -/
def OutLine.write (o : OutLine) (req : Nat) (present set clear : Bool) : OutLine × Bool :=
  let m := if present then { o with hostSet := set, hostClear := clear } else o
  match req with
  | 1 => if m.hostSet then (m, true) else ({ m with high := true }, false)
  | 2 => if m.hostClear then (m, true) else ({ m with high := false }, false)
  | _ => (m, false)

/-- The four lines after an OUTPUT_WRITE, and whether a request was ignored (R72). -/
def writeOuts (o : Four OutLine) (drives : Four Nat) (present : Bool) (sets clears : Byte) : Four OutLine × Bool :=
  let r0 := o.a0.write drives.a0 present (sets.getLsbD 0) (clears.getLsbD 0)
  let r1 := o.a1.write drives.a1 present (sets.getLsbD 1) (clears.getLsbD 1)
  let r2 := o.a2.write drives.a2 present (sets.getLsbD 2) (clears.getLsbD 2)
  let r3 := o.a3.write drives.a3 present (sets.getLsbD 3) (clears.getLsbD 3)
  ({ a0 := r0.1, a1 := r1.1, a2 := r2.1, a3 := r3.1 }, r0.2 || r1.2 || r2.2 || r3.2)

/-- OUTPUT_WRITE (R72). -/
def execOutputWrite (a : Ambient) (s : State) : Host.Outcome State Fault Refusal :=
  perform a s fun s =>
    match s.frameBody .control with
    | some (.outputWrite drives present sets clears) =>
      if drives.toList.any (fun d => decide (2 < d)) then s.finish .control .refused .badField 0
      else
        let (outs, masked) := writeOuts s.router.outs drives present sets clears
        (s.onRouter fun r => { r with outs }).finish .control .done (if masked then .masked else .ok) 0
    | _ => s

/-- INPUT_LINE_EDGE (R65); while the brownout reset is held only the pin's level changes (log entry 35). -/
def execInputLineEdge (a : Ambient) (line : Fin 4) (level : Bool) (s : State) : Host.Outcome State Fault Refusal :=
  if s.supply.held then
    .next ((s.arriveHeld a).onRouter fun r =>
      { r with lines := r.lines.set line { r.lines.get line with level, since := s.time } })
  else .next (((s.arrive a).lineEdge line level).rest)

/-- TIMER_EXPIRY (R69): at the scheduled expiry. -/
def execTimerExpiry (a : Ambient) (timer : Fin 4) (s : State) : Host.Outcome State Fault Refusal :=
  perform a s fun s =>
    match (s.router.timers.get timer).next with
    | some e => if timeReached s.time e then (s.timerExpires timer e).rest else s
    | none => s

end Sys2Proof.Machine
end

