-- ==== Sys2Proof/Machine/ClipCommands.lean ====
section
/-! DEFINITION. The commands of the clip assembler (chapter 6). -/

namespace Sys2Proof.Machine

/-! ## CLIP_OPEN (R102, R103) -/

/-- The checks of CLIP_OPEN in their order (R102). -/
def State.clipRefusal (s : State) (f : ClipFields) : Option Result :=
  if s.writer.state ≠ .idle then some .busy
  else if !f.streams.getLsbD 0 || f.streams.toNat ≥ 16 then some .badField
  else if !s.card.usable then some .noCard
  else if s.supply.lowPower then some .lowPower
  else if !s.store.canOpen f.loop then some .noSpace
  else none

/-- The settings stored, clamped (R102, R103). -/
def ClipFields.settings (f : ClipFields) : ClipSet :=
  { number := f.number
    streams := f.streams.setWidth 4
    loop := f.loop
    watermark := f.watermark
    duration := clampTo 10 600 f.duration
    pre := clampTo 0 120 f.pre
    post := clampTo 0 120 f.post }

/-- The writer opened: counts and sequences 0, the gate open, a buffer FILLING without a position (R103). -/
def Writer.openClip (w : Writer) (c : ClipSet) : Writer :=
  let v := { w with
    state := .opened
    clip := some c
    reason := .none
    gate := true
    cutRequest := false
    seqs := .all 0
    placed := .all 0
    chunksDropped := 0
    motionDropped := 0
    markersDropped := 0
    repeats := .empty
    closing := .drain
    tailBy := .assembler
    seg := none
    lastIndex := 0 }
  match v.spare with
  | some i => v.onBuf i fun _ => .fresh
  | none => v

/-- The storage map at a CLIP_OPEN taken: loop settings, STORAGE_LOW armed, the first opening asked (R103, R145, R152). -/
def Store.openClip (st : Store) (c : ClipSet) : Store :=
  { st with
    loops := { loop := c.loop, pre := c.pre, post := c.post, watermark := c.watermark }
    lowArmed := true
    nextSerial := st.nextSerial + 1
    matters := st.matters ++ [.opening st.nextSerial c.number 1] }

/-- CLIP_OPEN (R102, R103); the gate opens on an IDLE chunk lane, which reads its link (R105). -/
def execClipOpen (a : Ambient) (s : State) : Host.Outcome State Fault Refusal :=
  perform a s fun s =>
    match s.frameBody .control with
    | some (.clipOpen f) =>
      match s.clipRefusal f with
      | some r => s.finish .control .refused r 0
      | none =>
        let c := f.settings
        let t := ((s.onWriter fun w => w.openClip c).onStore fun st => st.openClip c).onPath fun p => { p with clipCount := 0 }
        ((t.finish .control .done .ok 0).look .chunk).rest
    | _ => s

/-! ## CLIP_CLOSE (R118) -/

/-- CLIP_CLOSE: refused under a card record; NOT_OPEN in IDLE with the gate opened; a close started or joined (R118). -/
def execClipClose (a : Ambient) (s : State) : Host.Outcome State Fault Refusal :=
  perform a s fun s =>
    match s.frameBody .control with
    | some .clipClose =>
      if s.xchg.cardRecord then s.finish .control .refused .faultPending 0
      else match s.writer.state with
        | .idle => (((s.onWriter fun w => { w with gate := true }).finish .control .done .notOpen 0).look .chunk).rest
        | .opened => ((s.onXchg fun x => x.startHand .control).startClose .host).rest
        | .closing => (s.onXchg fun x => x.startHand .control).rest
    | _ => s

/-! ## CHUNK (R104 to R107) -/

/-- The bytes of a chunk. -/
def ChunkFields.length (f : ChunkFields) : Nat := (f.pieces.map (·.length)).sum

/-- The checks of CHUNK in their order: a refusal, or the stream (R104). -/
def State.chunkCheck (s : State) (form : Form) (f : ChunkFields) : Result ⊕ Stream :=
  if f.count = 0 ∨ 4 < f.count ∨ f.pieces.any (fun p => p.length == 0) then .inl .badField
  else if form = .wide ∧ 16777216 < f.length then .inl .badField
  else match chunkStream f.stream with
    | none => .inl .badField
    | some st =>
      match s.writer.state with
      | .idle => .inl .noClip
      | .closing => .inl .closing
      | .opened =>
        match s.writer.clip with
        | none => .inl .noClip
        | some c => if c.records st then .inr st else .inl .streamOff

/-- The chunk to be carried out. -/
def ChunkFields.job (f : ChunkFields) (st : Stream) : ChunkJob :=
  { stream := st, flags := f.flags, time := f.time, pieces := f.pieces, length := f.length, seq := 0, stage := .arrived }

/-- CHUNK (R104): checked, then carried out as far as staging allows. A frame that finds an earlier unit still being
zero-completed waits for it (log entry 13). -/
def execChunk (a : Ambient) (s : State) : Host.Outcome State Fault Refusal :=
  perform a s fun s =>
    match s.xchg.hand .chunk with
    | none => s
    | some h =>
      if h.started then s
      else match h.body with
        | .chunk f =>
          match s.chunkCheck h.form f with
          | .inl r => ((s.onWriter fun w => { w with repeats := .empty }).finish .chunk .refused r 0).rest
          | .inr st =>
            if s.writer.job.isSome then s
            else ((s.onXchg fun x => x.startHand .chunk).onWriter fun w => { w with job := some (f.job st) }).rest
        | _ => s

/-- CHUNK_COPY_COMPLETE (R106): the last part of the copy is in its buffer and the frame is DONE with its sequence. -/
def execChunkCopyComplete (a : Ambient) (s : State) : Host.Outcome State Fault Refusal :=
  perform a s fun s =>
    match s.writer.job with
    | some j =>
      if s.writer.awaitsCopy then
        ((s.onWriter fun w => { w.feedAll s.xchg.mem with job := none, repeats := .empty }).finish
          .chunk .done .ok j.seq.toNat).rest
      else s
    | none => s

/-- CHUNK_PIECE_READ_ERROR (R107): the read of the unit's last part failed after `good` bytes. -/
def execChunkPieceReadError (a : Ambient) (good : Nat) (s : State) : Host.Outcome State Fault Refusal :=
  perform a s fun s =>
    match s.writer.job with
    | some j => if j.stage = .copying ∧ 0 < dataLeft s.writer.feed then (s.pieceFault j good).rest else s
    | none => s

end Sys2Proof.Machine
end

