-- ==== Sys2Proof/Machine/CardCommands.lean ====
section
/-! DEFINITION. The commands of the card port (chapter 7). -/

namespace Sys2Proof.Machine

/-! ## Frames -/

/-- CARD_ATTACH (R123). While a transfer drains, the attach waits for its end and the frame for the beginning of the attach. -/
def execCardAttach (a : Ambient) (s : State) : Host.Outcome State Fault Refusal :=
  perform a s fun s =>
    match s.frameBody .control with
    | some .cardAttach =>
      match s.card.state with
      | .absent => s.finish .control .refused .noCard 0
      | .present | .failed =>
        if s.card.attaching then s.finish .control .done .attaching 0
        else if s.card.draining then
          (s.onCard fun c => { c with state := .present, attaching := true, attachStart := none }).onXchg fun x => x.startHand .control
        else
          (s.onCard fun c => { c with state := .present, attaching := true, attachStart := some s.time }).finish .control .done .ok 0
      | _ => s.finish .control .done .alreadyReady 0
    | _ => s

/-- The checks of a raw frame in their order (R128). -/
def State.rawRefusal (s : State) (isWrite : Bool) (first count : Nat) : Option Result :=
  if s.xchg.cardRecord then some .faultPending
  else if !s.card.usable then some .noCard
  else if count = 0 ∨ 128 < count then some .badField
  else if s.card.capacity < first + count then some .outOfRange
  else if isWrite && s.store.meets first count then some .overlap
  else none

/-- A raw frame that passes is held in the raw slot (R128). -/
def State.holdRaw (isWrite : Bool) (first count address : Nat) (s : State) : State :=
  (s.onXchg fun x => x.startHand .control).onCard fun c =>
    { c with raw := some { isWrite, first, count, address, ready := !isWrite, inFlight := false, data := [] } }

/-- CARD_READ (R128): the frame claims the card at once. -/
def execCardRead (a : Ambient) (s : State) : Host.Outcome State Fault Refusal :=
  perform a s fun s =>
    match s.frameBody .control with
    | some (.cardRead first count address) =>
      match s.rawRefusal false first count with
      | some r => s.finish .control .refused r 0
      | none => (s.holdRaw false first count address).rest
    | _ => s

/-- CARD_WRITE (R128): the host buffer is read first. -/
def execCardWrite (a : Ambient) (s : State) : Host.Outcome State Fault Refusal :=
  perform a s fun s =>
    match s.frameBody .control with
    | some (.cardWrite first count address) =>
      match s.rawRefusal true first count with
      | some r => s.finish .control .refused r 0
      | none => s.holdRaw true first count address
    | _ => s

/-! ## Detection and attach (R122, R123) -/

/-- CARD_DETECT_CHANGE (R122): a level of line 2 that has held for 10 ms counts. -/
def execCardDetectChange (a : Ambient) (s : State) : Host.Outcome State Fault Refusal :=
  perform a s fun s =>
    let l := s.router.lines.a2
    if timeSince s.time l.since < Config.detectTime then s
    else if l.level then (if s.card.state = .absent then s.onCard Card.inserted else s)
    else if s.card.state = .absent then s
    else (s.cardRemoved emit).rest

/-- An attach ends FAILED (R123). -/
def Card.attachFails (r : AttachResult) (c : Card) : Card :=
  { c with state := .failed, attaching := false, attachStart := none, attachResult := r }

/-- ATTACH_COMPLETE (R123): the card answers with its capacity, in a mode the port can use or not. An answer later than 1,000 ms
after the beginning finds the attach ended NO_ANSWER (log entry 52). -/
def execAttachComplete (a : Ambient) (capacity : Word) (usable : Bool) (s : State) : Host.Outcome State Fault Refusal :=
  perform a s fun s =>
    match s.card.attaching, s.card.attachStart with
    | true, some t =>
      if timeLater s.time (timeAfter t Config.attachLimit) then s.onCard (Card.attachFails .noAnswer)
      else if usable ∧ 128 ≤ capacity.toNat then
        (s.onCard fun c =>
          { c with state := .ready, attaching := false, attachStart := none, attachResult := .ok, capacity := capacity.toNat }).rest
      else s.onCard (Card.attachFails .unusable)
    | _, _ => s

/-- ATTACH_TIMEOUT (R123): 1,000 ms after the attach began. -/
def execAttachTimeout (a : Ambient) (s : State) : Host.Outcome State Fault Refusal :=
  perform a s fun s =>
    if s.card.attaching ∧ dueAt s.time (s.card.attachStart.map fun t => timeAfter t Config.attachLimit) then
      s.onCard (Card.attachFails .noAnswer)
    else s

/-! ## Writes (R126, R127) -/

/-- A write, of the list or raw, is in flight. -/
def Card.writeFlying (c : Card) : Bool := if c.rawFlying then c.rawWriting else c.flying.isSome

/-- CARD_PROGRAMMING (R126): BUSY, and the 500 ms limit starts. -/
def execCardProgramming (a : Ambient) (s : State) : Host.Outcome State Fault Refusal :=
  perform a s fun s =>
    if s.card.state = .writing ∧ s.card.writeFlying then s.onCard fun c => { c with state := .busy, busySince := some s.time }
    else s

/-- The outcome of an answer of the card: one that comes after the 500 ms of BUSY finds the write ended TIMEOUT (R126, log entry
52). -/
def State.answered (outcome : CardOutcome) (s : State) : CardOutcome := if s.card.overLimit s.time then .timeout else outcome

/-- CARD_WRITE_ACCEPTED (R126, R127). -/
def execCardWriteAccepted (a : Ambient) (s : State) : Host.Outcome State Fault Refusal :=
  perform a s fun s =>
    if s.card.state = .busy ∧ s.card.writeFlying then (s.writeEnded emit (s.answered .accepted) .ready).rest else s

/-- CARD_WRITE_ERROR (R126, R127). -/
def execCardWriteError (a : Ambient) (s : State) : Host.Outcome State Fault Refusal :=
  perform a s fun s =>
    if (s.card.state = .writing ∨ s.card.state = .busy) ∧ s.card.writeFlying then
      (s.writeEnded emit (s.answered .writeError) .ready).rest
    else s

/-- CARD_BUSY_TIMEOUT (R126): 500 ms of BUSY. -/
def execCardBusyTimeout (a : Ambient) (s : State) : Host.Outcome State Fault Refusal :=
  perform a s fun s =>
    if s.card.state = .busy ∧ s.card.writeFlying ∧ dueAt s.time (s.card.busySince.map fun t => timeAfter t Config.busyLimit) then
      (s.writeEnded emit .timeout .ready).rest
    else s

/-! ## Raw transfers (R128, R129) -/

/-- RAW_BUFFER_READ_COMPLETE (R128): the host buffer is in the raw buffer, or the read failed with DATA_ERROR. -/
def execRawBufferReadComplete (a : Ambient) (s : State) : Host.Outcome State Fault Refusal :=
  perform a s fun s =>
    match s.card.raw with
    | some r =>
      if r.isWrite && !r.ready then
        if readOk s.xchg.badReads r.address (r.count * 512) then
          (s.onCard fun c =>
            { c with raw := some { r with ready := true, data := memCopy [] 0 s.xchg.mem r.address (r.count * 512) } }).rest
        else ((s.onCard fun c => { c with raw := none }).onXchg fun x => x.dataFault s.time .control).rest
      else s
    | none => s

/-- RAW_READ_COMPLETE (R129): `ok` with the blocks' bytes by offset, or the card reported a read failure. -/
def execRawReadComplete (a : Ambient) (ok : Bool) (data : List Host.Cell) (s : State) : Host.Outcome State Fault Refusal :=
  perform a s fun s =>
    match s.card.raw with
    | some r =>
      if !r.isWrite && r.inFlight then
        let t := s.onCard fun c => { c with state := .ready }
        if ok then
          ((t.onXchg fun x => { x with mem := memCopy x.mem r.address (memOfCells data) 0 (r.count * 512) }).rawEnded .accepted).rest
        else (t.rawEnded .writeError).rest
      else s
    | none => s

/-! ## Grace and draining (R139, R141) -/

/-- GRACE_EXPIRY (R139). -/
def execGraceExpiry (a : Ambient) (s : State) : Host.Outcome State Fault Refusal :=
  perform a s fun s =>
    if dueAt s.time s.card.grace ∧ s.xchg.liveRecord then s.graceEnds.rest else s

/-- DRAIN_END (R141): the outcome is discarded, the buffer EMPTY (R121), a waiting attach begins (R123). -/
def execDrainEnd (a : Ambient) (s : State) : Host.Outcome State Fault Refusal :=
  perform a s fun s =>
    if s.card.draining then
      let t := s.onWriter fun w => match s.card.drainSource with
        | some src => w.giveBack src
        | none => w
      let u := t.onCard fun c =>
        { c with draining := false, drainSource := none, attachStart := if c.attaching then some s.time else none }
      u.finishAttach.rest
    else s

end Sys2Proof.Machine
end

