-- ==== Sys2Proof/Machine/StoreCommands.lean ====
section
/-! DEFINITION. The commands of the storage map (chapter 8). -/

namespace Sys2Proof.Machine

/-- EXTENT_ADD (R143). -/
def execExtentAdd (a : Ambient) (s : State) : Host.Outcome State Fault Refusal :=
  perform a s fun s =>
    match s.frameBody .control with
    | some (.extentAdd first count) =>
      match s.store.addExtent (if s.card.usable then some s.card.capacity else none) first count with
      | .inl r => s.finish .control .refused r 0
      | .inr st => (({ s with store := st } : State).finish .control .done .ok st.pool.length).rest
    | _ => s

/-- EXTENT_WITHDRAW (R144). -/
def execExtentWithdraw (a : Ambient) (s : State) : Host.Outcome State Fault Refusal :=
  perform a s fun s =>
    match s.frameBody .control with
    | some (.extentWithdraw first) =>
      match s.store.withdraw first with
      | .inl r => s.finish .control .refused r 0
      | .inr st => (({ s with store := st } : State).finish .control .done .ok st.pool.length).rest
    | _ => s

/-- PROTECT (R156). -/
def execProtect (a : Ambient) (s : State) : Host.Outcome State Fault Refusal :=
  perform a s fun s =>
    match s.frameBody .control with
    | some (.protect serial action) =>
      match s.store.protect serial action with
      | .inl r => s.finish .control .refused r 0
      | .inr st => (({ s with store := st } : State).finish .control .done .ok st.protectedCount).rest
    | _ => s

end Sys2Proof.Machine
end

