-- ==== Sys2Proof/Machine/ChargerCommands.lean ====
section
/-! DEFINITION. The commands of the charger and the ADC (chapter 9, and the filters of chapter 10). -/

namespace Sys2Proof.Machine

/-- CHARGE_SETUP (R174, R166). -/
def execChargeSetup (a : Ambient) (s : State) : Host.Outcome State Fault Refusal :=
  perform a s fun s =>
    match s.frameBody .control with
    | some (.chargeSetup p clear) =>
      let cleared := clear && s.charger.state.faulted
      ((s.runCharger emit fun w => w.setup p clear s.around).finish .control .done (if cleared then .cleared else .ok) 0).rest
    | _ => s

/-- INPUT_LIMIT (R175). -/
def execInputLimit (a : Ambient) (s : State) : Host.Outcome State Fault Refusal :=
  perform a s fun s =>
    match s.frameBody .control with
    | some (.inputLimit ma) =>
      ((s.runCharger emit fun w => w.limit ma s.around).finish .control .done .ok (clampTo 100 3000 ma)).rest
    | _ => s

/-- LOAD_CLASS (R176). -/
def execLoadClass (a : Ambient) (s : State) : Host.Outcome State Fault Refusal :=
  perform a s fun s =>
    match s.frameBody .control with
    | some (.loadClass c) =>
      let cls := min c 3
      if cls = s.supply.loadClass then s.finish .control .done .ok 0
      else (((s.onSupply fun u => { u with loadClass := cls }).prompt emit).finish .control .done .ok 0).rest
    | _ => s

/-- The charger at a measurement: the new values, input detection, and at an attach its prompt evaluation (R160, R161). -/
def Work.measured (w : Work) (m : Measurement) (a : Around) : Work × Presence :=
  let (v, p) := (w.on fun c => c.measure m).detect a.path
  match p with
  | .attach => (v.prompt a, p)
  | _ => (v, p)

/-- The measurement at work: input detection with the switches, then the supply filters (R160, R161, R180, R184 to R187). Detection,
low battery, shutdown and die follow one another in this order (DESIGN CHOICE, log entry 72). -/
def State.measured (m : Measurement) (s : State) : State :=
  let presence := ((s.charger.work).measured m s.around).2
  let t := match presence with
    | .attach => s.attachSwitch
    | _ => s
  let u := t.runCharger emit fun w => (w.measured m s.around).1
  let v := match presence with
    | .lost => if u.supply.present then u.collapse emit else u
    | _ => u
  ((v.lowStep emit).shutStep emit).dieStep

/-- MEASUREMENT (R160): one every 10 ms, each scheduled from the previous. -/
def execMeasurement (a : Ambient) (m : Measurement) (s : State) : Host.Outcome State Fault Refusal :=
  perform a s fun s =>
    if timeReached s.time s.charger.nextMeasure then
      ((s.onCharger fun c => { c with nextMeasure := timeAfter c.nextMeasure Config.measurePeriod }).measured m).rest
    else s

/-- PERIODIC_EVALUATION (R167): one every 100 ms, each scheduled from the previous. -/
def execPeriodicEvaluation (a : Ambient) (s : State) : Host.Outcome State Fault Refusal :=
  perform a s fun s =>
    if timeReached s.time s.charger.nextEval then
      ((s.onCharger fun c => { c with nextEval := timeAfter c.nextEval Config.evalPeriod }).runCharger emit fun w =>
        w.periodic s.around).rest
    else s

/-- SAFETY_TIMER_LIMIT (R173): the counting timer has reached its limit. -/
def execSafetyTimerLimit (a : Ambient) (s : State) : Host.Outcome State Fault Refusal :=
  perform a s fun s => (s.runCharger emit Work.timerCheck).rest

end Sys2Proof.Machine
end

