-- ==== Sys2Proof/Machine/SupplyCommands.lean ====
section
/-! DEFINITION. The commands of the supply manager (chapter 10). -/

namespace Sys2Proof.Machine

/-! ## PATH_SET and the switches (R180 to R183) -/

/-- The path mode changed with no switch to close (R182). -/
def State.pathAtOnce (m : PathMode) (s : State) : State :=
  let t := (s.onSupply fun u => { u with mode := m, change := none }).askRefresh
  (t.finish .control .done .ok m.code).pathRead emit

/-- A sequence begins: its close is driven, the frame stays in hand (R182). Where an earlier PATH_SET's sequence is still under way,
its frame lost to a link reset (R183), the new sequence takes its place (DESIGN CHOICE, log entry 62). -/
def State.beginPath (m : PathMode) (sw : Switch) (s : State) : State :=
  (s.drive (.mode m) sw s.supply.owesClose).onXchg fun x => x.startHand .control

/-- A path mode other than the one in effect asked for (R182). -/
def State.pathTo (m : PathMode) (s : State) : State :=
  let u := s.supply
  match m with
  | .inputSuspend =>
    if u.batSw ∧ closeThreshold u.loadClass + 100 ≤ s.charger.vbat then s.beginPath m .batSw
    else s.finish .control .refused .lowBattery 0
  | .batteryIsolate =>
    if u.present ∧ u.inSw ∧ 4500 ≤ s.charger.meas.vin.toNat then s.beginPath m .inSw
    else s.finish .control .refused .noInput 0
  | .normal =>
    match u.mode with
    | .batteryIsolate => s.beginPath m .batSw
    | _ => if u.present then s.beginPath m .inSw else s.pathAtOnce m

/-- PATH_SET (R182). -/
def execPathSet (a : Ambient) (s : State) : Host.Outcome State Fault Refusal :=
  perform a s fun s =>
    match s.frameBody .control with
    | some (.pathSet code) =>
      match pathModeOf code with
      | none => s.finish .control .refused .badField 0
      | some m => if m = s.supply.mode then s.finish .control .done .ok 0 else (s.pathTo m).rest
    | _ => s

/-- The change confirmed: the other switch opened, the mode taken, the frame finished (R180, R182, R184). -/
def State.confirmed (c : Change) (s : State) : State :=
  let before := s.supply
  let t := ((s.onSupply fun u => u.settleSwitches c).pathShown before).suppliedFrom before.supplied
  match c.goal with
  | .attach => t
  | .mode m => (t.finishPath .done .ok m.code).pathRead emit

/-- SWITCH_CONFIRM (R180): the sense reading shows the driven switch CLOSED within its 2 ms. -/
def execSwitchConfirm (a : Ambient) (sw : Switch) (s : State) : Host.Outcome State Fault Refusal :=
  perform a s fun s =>
    match s.supply.change with
    | some c => if c.switch = sw ∧ timeReached c.deadline s.time then (s.confirmed c).rest else s
    | none => s

/-- The change failed: the switch open again where it may be, the failure counted, SUPPLY set, the frame refused (R183). An attach's
close that waited for the change is driven now, for NORMAL with an input present has IN_SW CLOSED (R180, log entry 25). -/
def State.unconfirmed (c : Change) (s : State) : State :=
  let t := ((s.onSupply fun u => u.failSwitch c.switch).pathShown s.supply).supplyFlag
  match c.goal with
  | .attach => t
  | .mode _ =>
    let f := t.finishPath .refused .switchFailed 0
    if c.owed && f.supply.mode == .normal && f.supply.present && !f.supply.inSw then f.drive .attach .inSw false else f

/-- SWITCH_CONFIRM_TIMEOUT (R183). -/
def execSwitchConfirmTimeout (a : Ambient) (s : State) : Host.Outcome State Fault Refusal :=
  perform a s fun s =>
    match s.supply.change with
    | some c => if timeReached s.time c.deadline then (s.unconfirmed c).rest else s
    | none => s

/-- VIN_COLLAPSE (R181). -/
def execVinCollapse (a : Ambient) (s : State) : Host.Outcome State Fault Refusal :=
  perform a s fun s => (s.collapse emit).rest

/-! ## POWER_STATE (R188) -/

/-- POWER_STATE is refused with BUSY (R188). -/
def State.powerBusy (s : State) : Bool :=
  s.writer.state != .idle || !s.xchg.stack.isEmpty || s.card.state == .writing || s.card.state == .busy || s.card.draining

/-- Entry to PARKED or SLEEP: the frame finished, a link reset that keeps the reset cause, host power-enable low, the IMU set,
the prompt evaluation (R188, R75, R16, R17). -/
def State.enterPower (target : PowerState) (s : State) : State :=
  let t := (s.onXchg fun x => x.finishOnly .control .done .ok 0).linkReset (target == .parked)
  let u := t.onSupply fun u => { u with power := target, hostPower := false, wake := .none, entered := some s.time }
  let v := u.onMotion fun m => if target = .parked then m.park s.time else m.sleep
  v.prompt emit

/-- POWER_STATE (R188). -/
def execPowerState (a : Ambient) (s : State) : Host.Outcome State Fault Refusal :=
  perform a s fun s =>
    match s.frameBody .control with
    | some (.powerState code) =>
      match powerStateOf code with
      | none => s.finish .control .refused .badField 0
      | some .active => s.finish .control .done .noChange 0
      | some target => if s.powerBusy then s.finish .control .refused .busy 0 else (s.enterPower target).rest
    | _ => s

end Sys2Proof.Machine
end

