-- ==== Sys2Proof/Machine/Dispatch.lean ====
section
/-! DEFINITION. Dispatch: one arm per command of the table, each one direct call of that command's meaning. -/

namespace Sys2Proof.Machine

def exec (i : Instr) (s : State) : Host.Outcome State Fault Refusal :=
  match i with
  | .powerOnReset a levels => Sys2Proof.Machine.execPowerOnReset a levels s
  | .brownoutReset a => Sys2Proof.Machine.execBrownoutReset a s
  | .brownoutRelease a => Sys2Proof.Machine.execBrownoutRelease a s
  | .linkDown a => Sys2Proof.Machine.execLinkDown a s
  | .linkReset a alsoStart => Sys2Proof.Machine.execLinkReset a alsoStart s
  | .start a => Sys2Proof.Machine.execStart a s
  | .anchorReadComplete a => Sys2Proof.Machine.execAnchorReadComplete a s
  | .nudge a => Sys2Proof.Machine.execNudge a s
  | .causeWrite a value => Sys2Proof.Machine.execCauseWrite a value s
  | .causeMaskWrite a value => Sys2Proof.Machine.execCauseMaskWrite a value s
  | .registerWrite a offset width value => Sys2Proof.Machine.execRegisterWrite a offset width value s
  | .scanTick a => Sys2Proof.Machine.execScanTick a s
  | .statusRefresh a => Sys2Proof.Machine.execStatusRefresh a s
  | .motionSetup a => Sys2Proof.Machine.execMotionSetup a s
  | .reference a => Sys2Proof.Machine.execReference a s
  | .exposure a => Sys2Proof.Machine.execExposure a s
  | .statusAck a => Sys2Proof.Machine.execStatusAck a s
  | .route a => Sys2Proof.Machine.execRoute a s
  | .lineSetup a => Sys2Proof.Machine.execLineSetup a s
  | .timerSetup a => Sys2Proof.Machine.execTimerSetup a s
  | .outputWrite a => Sys2Proof.Machine.execOutputWrite a s
  | .clipOpen a => Sys2Proof.Machine.execClipOpen a s
  | .clipClose a => Sys2Proof.Machine.execClipClose a s
  | .chunk a => Sys2Proof.Machine.execChunk a s
  | .cardAttach a => Sys2Proof.Machine.execCardAttach a s
  | .cardRead a => Sys2Proof.Machine.execCardRead a s
  | .cardWrite a => Sys2Proof.Machine.execCardWrite a s
  | .extentAdd a => Sys2Proof.Machine.execExtentAdd a s
  | .extentWithdraw a => Sys2Proof.Machine.execExtentWithdraw a s
  | .protect a => Sys2Proof.Machine.execProtect a s
  | .chargeSetup a => Sys2Proof.Machine.execChargeSetup a s
  | .inputLimit a => Sys2Proof.Machine.execInputLimit a s
  | .loadClass a => Sys2Proof.Machine.execLoadClass a s
  | .pathSet a => Sys2Proof.Machine.execPathSet a s
  | .powerState a => Sys2Proof.Machine.execPowerState a s
  | .resume a => Sys2Proof.Machine.execResume a s
  | .abandon a => Sys2Proof.Machine.execAbandon a s
  | .dataReadyEdge a => Sys2Proof.Machine.execDataReadyEdge a s
  | .sampleReadComplete a sample => Sys2Proof.Machine.execSampleReadComplete a sample s
  | .imuSettleEnd a => Sys2Proof.Machine.execImuSettleEnd a s
  | .lossDeadline a => Sys2Proof.Machine.execLossDeadline a s
  | .lostPowerOffEnd a => Sys2Proof.Machine.execLostPowerOffEnd a s
  | .runningOneSecond a => Sys2Proof.Machine.execRunningOneSecond a s
  | .inputLineEdge a line level => Sys2Proof.Machine.execInputLineEdge a line level s
  | .timerExpiry a timer => Sys2Proof.Machine.execTimerExpiry a timer s
  | .extrapolationDeadline a => Sys2Proof.Machine.execExtrapolationDeadline a s
  | .chunkCopyComplete a => Sys2Proof.Machine.execChunkCopyComplete a s
  | .chunkPieceReadError a good => Sys2Proof.Machine.execChunkPieceReadError a good s
  | .cardDetectChange a => Sys2Proof.Machine.execCardDetectChange a s
  | .attachComplete a capacity usable => Sys2Proof.Machine.execAttachComplete a capacity usable s
  | .attachTimeout a => Sys2Proof.Machine.execAttachTimeout a s
  | .cardProgramming a => Sys2Proof.Machine.execCardProgramming a s
  | .cardWriteAccepted a => Sys2Proof.Machine.execCardWriteAccepted a s
  | .cardWriteError a => Sys2Proof.Machine.execCardWriteError a s
  | .cardBusyTimeout a => Sys2Proof.Machine.execCardBusyTimeout a s
  | .rawBufferReadComplete a => Sys2Proof.Machine.execRawBufferReadComplete a s
  | .rawReadComplete a ok data => Sys2Proof.Machine.execRawReadComplete a ok data s
  | .graceExpiry a => Sys2Proof.Machine.execGraceExpiry a s
  | .drainEnd a => Sys2Proof.Machine.execDrainEnd a s
  | .measurement a values => Sys2Proof.Machine.execMeasurement a values s
  | .periodicEvaluation a => Sys2Proof.Machine.execPeriodicEvaluation a s
  | .safetyTimerLimit a => Sys2Proof.Machine.execSafetyTimerLimit a s
  | .switchConfirm a switch => Sys2Proof.Machine.execSwitchConfirm a switch s
  | .switchConfirmTimeout a => Sys2Proof.Machine.execSwitchConfirmTimeout a s
  | .vinCollapse a => Sys2Proof.Machine.execVinCollapse a s

end Sys2Proof.Machine
end

