-- ==== Sys2Proof/Safety.lean ====
section
/-! DEFINITION. What counts as a sound state: the canonical form of every run of bytes, the capacities of the part's lists, the switches of the supply path, the reserved bits of ANCHOR_LOW. -/

namespace Sys2Proof.Machine

/-! ## Bytes in canonical form (log entry 5) -/

/-- The pack buffers and the tail buffer hold canonical bytes. -/
def Writer.memGood (w : Writer) : Bool := (w.bufs.toList.all fun b => memWf b.data) && memWf w.tail.data

/-- The raw slot holds canonical bytes. -/
def Card.memGood (c : Card) : Bool := c.raw.all fun r => memWf r.data

/-- Host memory, the buffers and the raw slot hold canonical bytes. -/
def State.memGood (s : State) : Bool := memWf s.xchg.mem && s.writer.memGood && s.card.memGood

/-! ## Capacities -/

/-- The lists whose size the manual bounds: the history ring (R12), the pending video frames (R51), the motion-unit queue
(R111), the pending-write list (R124), the extent pool (R142), the segment table (section 8.2), the report queue (R158), the extents
of a segment (R147), its listed incidents and those of a segment being opened (R153); and the PROTECTED segments (R154). -/
structure State.Capacities (s : State) : Prop where
  ring : s.motion.ring.length ≤ 64
  frames : s.path.frames.length ≤ 2
  units : s.writer.queue.length ≤ 4
  writes : s.card.list.length ≤ 3
  pool : s.store.pool.length ≤ 64
  table : s.store.table.length ≤ 16
  reports : s.store.queue.length ≤ 8
  extents : ∀ g ∈ s.store.table, g.exts.length ≤ 8
  incidents : ∀ g ∈ s.store.table, g.incidents.length ≤ 8
  marked : s.store.openIncidents.length ≤ 8
  guarded : s.store.protectedCount ≤ 8

/-! ## The supply path (R180, R182) -/

/-- The two switches are never both open; the path mode decides which one is open in INPUT_SUSPEND and BATTERY_ISOLATE; an
attach closes IN_SW in NORMAL alone. -/
structure Supply.SwitchesGood (u : Supply) : Prop where
  fed : u.inSw = true ∨ u.batSw = true
  suspended : u.mode = .inputSuspend → u.batSw = true ∧ u.inSw = false
  isolated : u.mode = .batteryIsolate → u.inSw = true ∧ u.batSw = false
  attaching : ∀ c, u.change = some c → c.goal = .attach → u.mode = .normal

/-! ## The register window (R77) -/

/-- Bits 11..0 of ANCHOR_LOW read 0. -/
def Exchange.anchorAligned (x : Exchange) : Bool := x.anchorLow &&& 0x00000FFF == 0

end Sys2Proof.Machine
end

