-- ==== Sys2Proof/Certificates/Slice0/Obligations.lean ====
section
/-! DEFINITION. The statements for the provers, each of one family of commands or one kind of state. -/

open Sys2Proof Sys2Proof.Machine

/-! ## The queue, part time and the resets -/

/-- The command at the front of the queue is executed on the state with the queue's rest; an empty queue leaves the state as it
is (log entry 4). -/
def Obligations.StepRunsTheFrontCommand : Prop :=
  (∀ (c : Instr) (rest : List Instr) (s : State), s.pending = c :: rest → step s = exec c { s with pending := rest })
    ∧ ∀ s : State, s.pending = [] → step s = .next s

/-- Every command answers a next state, and part time moves as R3 says: by the command's elapsed time, to 0 at a power-on or
brownout reset, not at all while the brownout reset is held (log entries 1, 3 and 35). -/
def Obligations.EveryCommandAnswersAndPartTimePasses : Prop :=
  ∀ (i : Instr) (s : State), ∃ t, exec i s = .next t ∧
    t.time = match i with
      | .powerOnReset _ _ => 0
      | .brownoutReset _ => if s.supply.held then s.time else 0
      | .brownoutRelease a => if s.supply.held then 0 else s.time + BitVec.ofNat 48 a.elapsed
      | i => if s.supply.held then s.time else s.time + BitVec.ofNat 48 i.ambient.elapsed

/-- POWER_ON_RESET leaves every block as its chapter's reset rule says (R2, R3, R13, R19, R41, R59, R62, R76, R77, R82, R121,
R141, R159, R174, R179, R192), host memory with what the host wrote, the input lines at the levels given (log entry 34). The values
that these rules do not give are the model's choice (log entries 9, 21). -/
def Obligations.PowerOnResetState : Prop :=
  ∀ (a : Ambient) (levels : BitVec 4) (s : State), ∃ t, exec (.powerOnReset a levels) s = .next t
    ∧ t.time = 0 ∧ t.pending = s.pending ∧ t.xchg.mem = applyWrites s.xchg.mem a.hostWrites
    ∧ (t.xchg.state = .off ∧ t.xchg.check = .none ∧ t.xchg.cause = 0 ∧ t.xchg.mask = 0 ∧ t.xchg.anchorLow = 0
        ∧ t.xchg.anchorHigh = 0 ∧ t.xchg.anchor = none ∧ t.xchg.stack = [] ∧ t.xchg.control.hand = none
        ∧ t.xchg.chunk.hand = none ∧ t.xchg.recovery.hand = none ∧ t.xchg.nextScan = none ∧ t.xchg.recErrors = 0)
    ∧ (t.motion.port = .off ∧ t.motion.imuPower = false ∧ t.motion.restarts = 0 ∧ t.motion.rate = .hz1600
        ∧ t.motion.dps2000 = true ∧ t.motion.prev = none ∧ t.motion.average = 625 ∧ t.motion.ring = []
        ∧ t.motion.samples = 0 ∧ t.motion.gaps = 0 ∧ t.motion.clipped = 0 ∧ t.motion.losses = 0 ∧ t.motion.armed = true
        ∧ t.motion.quiet = 0 ∧ t.motion.shockTime = 0 ∧ t.motion.shockPeak = 0)
    ∧ (t.path.acc = .all 0 ∧ t.path.smooth = .all 0 ∧ t.path.accrued = 0 ∧ t.path.frames = [] ∧ t.path.counter = 0
        ∧ t.path.exposure = 0 ∧ t.path.bands = 8 ∧ t.path.readout = 16000 ∧ t.path.overrun = 0 ∧ t.path.stray = 0
        ∧ t.path.unpublished = 0 ∧ t.path.forced = 0 ∧ t.path.focal = 1600
        ∧ t.path.shifts = { yaw := 5, pitch := 5, roll := 4 })
    ∧ (t.router.routes.frameStart = 0x0100 ∧ t.router.routes.frameEnd = 0x0101 ∧ t.router.routes.wakeA = 0x0105
        ∧ ∀ n, (t.router.lines.get n).level = levels.getLsbD n.val ∧ (t.router.lines.get n).rise = true
            ∧ (t.router.lines.get n).fall = true ∧ (t.router.lines.get n).holdoff = 0
            ∧ (t.router.timers.get n).next = none ∧ (t.router.outs.get n).high = false)
    ∧ (t.writer.state = .idle ∧ t.writer.gate = true ∧ (∀ n, (t.writer.bufs.get n).st = .empty) ∧ t.writer.queue = [])
    ∧ (t.card.state = (if levels.getLsbD 2 then .present else .absent) ∧ t.card.list = [] ∧ t.card.raw = none
        ∧ t.card.capacity = 0 ∧ t.card.draining = false)
    ∧ (t.store.pool = [] ∧ t.store.table = [] ∧ t.store.queue = [] ∧ t.store.lost = 0)
    ∧ (t.charger.state = .absent ∧ t.charger.iinLimit = 500 ∧ t.charger.profile.vreg = 4200 ∧ t.charger.driven = 0
        ∧ t.charger.hostPause = false)
    ∧ (t.supply.inSw = false ∧ t.supply.batSw = true ∧ t.supply.mode = .normal ∧ t.supply.loadClass = 0
        ∧ t.supply.lowBattery = false ∧ t.supply.power = .active ∧ t.supply.wake = .none ∧ t.supply.cause = .powerOn)
    ∧ t.xchg = { Exchange.reset with
        mem := applyWrites s.xchg.mem a.hostWrites, badReads := a.badReads, messages := s.xchg.messages }
    ∧ t.motion = .reset ∧ t.path = .reset ∧ t.writer = .reset ∧ t.card = .reset (levels.getLsbD 2) ∧ t.store = .reset
    ∧ t.charger = .reset ∧ t.supply = .reset .powerOn
    ∧ t.router.routes = .default ∧ t.router.timers = .all .reset
    ∧ t.router.outs = .all { high := false, hostSet := false, hostClear := false }
    ∧ ∀ n, t.router.lines.get n = .reset (levels.getLsbD n.val) 0

/-- BROWNOUT_RESET resets the whole part, holds it, drives host power-enable low and opens IN_SW; BROWNOUT_RELEASE lets it start
with reset cause BROWNOUT; a release with no reset held only lets the command arrive. What no chapter names for a brownout keeps its
value: the newest measurement, the terms of the newest evaluation, the time of the last RUNNING entry, the counts that START sets,
the link (R2). While the reset is held, every command but a power-on reset, its own release and the edge of a pin leaves the part as
it is: only the host's writes reach host memory (R186, log entry 35). -/
def Obligations.BrownoutResetAndRelease : Prop :=
  ∀ (a : Ambient) (s : State),
    let blocks (t : State) : Prop :=
      t.time = 0 ∧ t.pending = s.pending
      ∧ t.xchg = { Exchange.reset with
          mem := applyWrites s.xchg.mem a.hostWrites, badReads := t.xchg.badReads, messages := s.xchg.messages
          writeCount := s.xchg.writeCount, refreshCount := s.xchg.refreshCount, linkUp := s.xchg.linkUp }
      ∧ t.motion = { Motion.reset with runEntry := s.motion.runEntry } ∧ t.path = .reset ∧ t.writer = .reset
      ∧ t.card = .reset s.router.lines.a2.level ∧ t.store = .reset
      ∧ t.charger = { Charger.reset with meas := s.charger.meas, terms := s.charger.terms }
      ∧ t.router.routes = .default ∧ t.router.timers = .all .reset
      ∧ t.router.outs = .all { high := false, hostSet := false, hostClear := false }
      ∧ ∀ n, t.router.lines.get n = .reset (s.router.lines.get n).level 0
    (s.supply.held = false → ∃ t, exec (.brownoutReset a) s = .next t ∧ blocks t
      ∧ t.supply = { Supply.reset .brownout with held := true, hostPower := false }
      ∧ t.supply.inSw = false ∧ t.supply.batSw = true ∧ t.supply.mode = .normal ∧ t.supply.cause = .brownout)
    ∧ (s.supply.held = true → ∃ t, exec (.brownoutRelease a) s = .next t ∧ blocks t ∧ t.supply = .reset .brownout)
    ∧ (s.supply.held = false → exec (.brownoutRelease a) s = .next (s.arrive a))
    ∧ ∀ i : Instr, s.supply.held = true →
      match i with
      | .powerOnReset _ _ => True
      | .brownoutRelease _ => True
      | .inputLineEdge _ _ _ => True
      | i => exec i s = .next
          { s with xchg := { s.xchg with mem := applyWrites s.xchg.mem i.ambient.hostWrites }, events := [] }

/-- A link reset by CONTROL in every power state, or by the loss of the link in ACTIVE: the engine as R82 says; the motion front end
(R19), the path unit, every line, timer and output line of the router (R76), the assembler (R121), the card port (R141) and the storage
map as their reset rules say, each row of their tables, with the buffer of a write in flight as it stands and its source kept by the
draining transfer; host memory as it stands; the supply manager with reset cause LINK and nothing else changed; the charger untouched
but for the time its safety timer counts. In PARKED and SLEEP
the loss of the link applies no link reset: only the link's state changes (R189). The one LINK_RESET that adds nothing is the second
reset of R188's race: it comes in the microsecond of the entry to PARKED or SLEEP, before a wake (the model's inference, log entry
60). -/
def Obligations.LinkResetClearsTheEngineAndBlocks : Prop :=
  (∀ (a : Ambient) (s : State), s.supply.held = false → s.supply.power ≠ .active →
    exec (.linkDown a) s = .next { s.arrive a with xchg := { (s.arrive a).xchg with linkUp := false } }
    ∧ (s.supply.wake = .none → s.supply.entered = some (s.time + BitVec.ofNat 48 a.elapsed) →
      exec (.linkReset a false) s = .next { s.arrive a with xchg := { (s.arrive a).xchg with linkUp := true } }))
  ∧ ∀ (a : Ambient) (s : State) (i : Instr), s.supply.held = false →
    ((i = .linkReset a false ∧ (s.supply.power = .active ∨ s.supply.wake ≠ .none
        ∨ s.supply.entered ≠ some (s.time + BitVec.ofNat 48 a.elapsed)))
      ∨ (i = .linkDown a ∧ s.supply.power = .active)) →
    ∃ t, exec i s = .next t
      ∧ t.time = s.time + BitVec.ofNat 48 a.elapsed
      ∧ (t.xchg.state = .off ∧ t.xchg.check = .none ∧ t.xchg.starting = none ∧ t.xchg.anchor = none ∧ t.xchg.consumed = none
          ∧ t.xchg.readCopy = none ∧ t.xchg.control = .reset ∧ t.xchg.chunk = .reset ∧ t.xchg.recovery = .reset
          ∧ t.xchg.stack = [] ∧ t.xchg.cause = 0 ∧ t.xchg.mask = 0 ∧ t.xchg.nextScan = none ∧ t.xchg.nextRefresh = none
          ∧ t.xchg.recErrors = 0 ∧ t.xchg.messages = s.xchg.messages ∧ t.xchg.anchorLow = s.xchg.anchorLow
          ∧ t.xchg.anchorHigh = s.xchg.anchorHigh ∧ t.xchg.refreshCount = s.xchg.refreshCount
          ∧ t.xchg.mem = applyWrites s.xchg.mem a.hostWrites)
      ∧ t.path = .reset ∧ t.store = .reset
      ∧ (t.router.routes = .default ∧ t.router.timers = .all .reset ∧ ∀ n, (t.router.outs.get n).high = false
          ∧ (t.router.lines.get n).level = (s.router.lines.get n).level)
      ∧ (∀ n, t.router.lines.get n = { s.router.lines.get n with
            rise := true, fall := true, holdoff := 0, lastRise := none, lastFall := none, suppressed := 0 }
          ∧ t.router.timers.get n = { period := 1000000, periodic := false, next := none }
          ∧ t.router.outs.get n = { high := false, hostSet := false, hostClear := false })
      ∧ (t.writer.state = .idle ∧ t.writer.gate = true ∧ t.writer.queue = [] ∧ t.writer.job = none ∧ t.writer.cut = none)
      ∧ (let flying := if s.card.draining then s.card.drainSource else s.card.flyingSource
        t.writer = { Writer.reset with bufs := t.writer.bufs, tail := t.writer.tail }
        ∧ t.writer.clip = none ∧ t.writer.reason = .none ∧ t.writer.cutRequest = false ∧ t.writer.seqs = .all 0
        ∧ t.writer.placed = .all 0 ∧ t.writer.chunksDropped = 0 ∧ t.writer.motionDropped = 0 ∧ t.writer.markersDropped = 0
        ∧ t.writer.feed = [] ∧ t.writer.seg = none ∧ t.writer.repeats = { main := none, proxy := none, audio := none }
        ∧ (∀ i, t.writer.bufs.get i =
            if flying = some (.buf i) then s.writer.bufs.get i else { st := .empty, fill := 0, pos := none, data := [] })
        ∧ t.writer.tail = (if flying = some .tail then s.writer.tail else { st := .empty, pos := 0, serial := 0, data := [] })
        ∧ t.card.drainSource = flying)
      ∧ (t.card.list = [] ∧ t.card.raw = none ∧ t.card.capacity = 0 ∧ t.card.attaching = false ∧ t.card.grace = none
          ∧ t.card.draining = (s.card.draining || s.card.inFlight)
          ∧ t.card.state = if s.router.lines.a2.level then .present else .absent)
      ∧ (t.card.attachResult = .none ∧ t.card.attachStart = none ∧ t.card.busySince = none ∧ t.card.resumption = none
          ∧ t.card.accepted = 0 ∧ t.card.writeErrors = 0 ∧ t.card.timeouts = 0 ∧ t.card.removals = 0)
      ∧ (t.motion.ring = [] ∧ t.motion.samples = 0 ∧ t.motion.rate = .hz1600 ∧ t.motion.dps2000 = true
          ∧ t.motion.armed = true ∧ t.motion.prev = none ∧ t.motion.reading = none ∧ t.motion.waiting = none
          ∧ (if s.motion.port = .off ∨ s.motion.port = .failed then
               t.motion.port = s.motion.port ∧ t.motion.restarts = s.motion.restarts
             else t.motion.port = .starting ∧ t.motion.restarts = 0
               ∧ t.motion.settleEnd = some (t.time + 50000)))
      ∧ (t.motion.average = 625 ∧ t.motion.gaps = 0 ∧ t.motion.clipped = 0 ∧ t.motion.losses = 0 ∧ t.motion.quiet = 0
          ∧ t.motion.shockTime = 0 ∧ t.motion.shockPeak = 0 ∧ t.motion.shockHigh = 16384 ∧ t.motion.quietLow = 4096
          ∧ t.motion.q = 64 ∧ t.motion.offEnd = none ∧ t.motion.lossDeadline = none ∧ t.motion.runEntry = s.motion.runEntry
          ∧ (t.motion.parked = true ↔ s.supply.power = .parked)
          ∧ (if s.motion.port = .off ∨ s.motion.port = .failed then
               t.motion.imuPower = s.motion.imuPower ∧ t.motion.settleEnd = none
             else t.motion.imuPower = true))
      ∧ t.charger = s.charger.pass a.elapsed ∧ t.supply = { s.supply with cause := .link }

/-! ## The register window -/

/-- START in OFF or ANCHOR_BAD begins the anchor check with the address the ANCHOR registers hold; in RUNNING, in STOPPED or while
a check is being made it is ignored; with LINK_RESET in the same write it is taken, in every power state, from the state the reset
leaves (R78). In PARKED or SLEEP it makes the return too: the power state is ACTIVE, host power-enable high, the IMU STARTING at the
settings in effect with restart count 0, SHOCK_FALSE emitted where the port was RUNNING with the comparator DISARMED, which is ARMED
then, and a prompt evaluation made (R15, R18, R191). A link reset that races an entry of the same microsecond adds nothing, and the
START is taken then from the state that stands (the model's inference, log entry 60). -/
def Obligations.StartBeginsTheAnchorCheck : Prop :=
  ∀ (a : Ambient) (s : State), s.supply.held = false →
    ((s.xchg.state = .off ∨ s.xchg.state = .anchorBad) → s.xchg.starting = none → s.supply.power = .active →
      exec (.start a) s = .next (State.rest { s.arrive a with
        xchg := { (s.arrive a).xchg with
          linkUp := true
          starting := some (s.xchg.anchorHigh.toNat * 4294967296 + s.xchg.anchorLow.toNat) } }))
    ∧ ((s.xchg.state = .running ∨ s.xchg.state = .stopped ∨ s.xchg.starting.isSome) →
      exec (.start a) s = .next (State.rest { s.arrive a with xchg := { (s.arrive a).xchg with linkUp := true } }))
    ∧ (s.supply.power = .active → ∃ t u, exec (.linkReset a false) s = .next t ∧ exec (.linkReset a true) s = .next u
        ∧ u = State.rest { t with xchg := { t.xchg with
            starting := some (s.xchg.anchorHigh.toNat * 4294967296 + s.xchg.anchorLow.toNat) } })
    ∧ (s.supply.power ≠ .active → (s.xchg.state = .off ∨ s.xchg.state = .anchorBad) → s.xchg.starting = none →
      ∃ t, exec (.start a) s = .next t ∧ t.supply.power = .active ∧ t.supply.hostPower = true
        ∧ t.xchg.starting = some (s.xchg.anchorHigh.toNat * 4294967296 + s.xchg.anchorLow.toNat)
        ∧ t.motion.port = .starting ∧ t.motion.imuPower = true ∧ t.motion.restarts = 0 ∧ t.motion.parked = false
        ∧ t.motion.rate = s.motion.rate ∧ t.motion.dps2000 = s.motion.dps2000
        ∧ t.motion.settleEnd = some (s.time + BitVec.ofNat 48 a.elapsed + 50000))
    -- the whole of a START on the state it finds
    ∧ (let returned (t : State) : State :=
        let disarmed := t.motion.port = .running ∧ t.motion.armed = false
        let v : State := { t with
          supply := { t.supply with power := .active, hostPower := true }
          motion := { t.motion with
            port := .starting, imuPower := true, restarts := 0, parked := false, settleEnd := some (t.time + 50000)
            offEnd := none, lossDeadline := none, reading := none, waiting := none
            armed := if disarmed then true else t.motion.armed, quiet := if disarmed then 0 else t.motion.quiet } }
        State.prompt emit (if disarmed then State.raise emit 0x0301 t.motion.shockPeak v else v)
      let started (t : State) : State :=
        if (t.xchg.state = .off ∨ t.xchg.state = .anchorBad) ∧ t.xchg.starting = none then
          let begun : State := { t with xchg := { t.xchg with
            starting := some (t.xchg.anchorHigh.toNat * 4294967296 + t.xchg.anchorLow.toNat) } }
          if t.supply.power = .active then begun else returned begun
        else t
      exec (.start a) s = .next (State.rest (started { s.arrive a with xchg := { (s.arrive a).xchg with linkUp := true } }))
      ∧ ∃ t, exec (.linkReset a false) s = .next t ∧ exec (.linkReset a true) s = .next (State.rest (started t))
        ∧ (s.supply.power ≠ .active → s.supply.wake ≠ .none → t.xchg.state = .off ∧ t.xchg.starting = none
            ∧ t.supply.power = s.supply.power ∧ t.motion.port ≠ .running))

/-- The eight checks of R80 in their order, each with the anchor check it gives when it is the first to fail. -/
def Obligations.AnchorChecksInOrder : Prop :=
  ∀ (m : Mem) (bad : List Span) (base : Nat),
    let first (o : Nat) := memNat m (base + o) 8
    let form (o : Nat) := memNat m (base + o) 1
    let badLane (x : Nat) : Prop := x = 0 ∨ x % 64 ≠ 0
    let slots := memNat m (base + 0x78) 4
    let entries := memNat m (base + 0x88) 4
    let area := memNat m (base + 0xA0) 4
    let lane (d : LaneDesc) (o : Nat) : Prop :=
      d.first = first o ∧ d.form = (if form (o + 8) = 0 then .narrow else .wide) ∧ d.notifyAll = readFlag m (base + o + 9)
    let period := memNat m (base + 4) 4
    (base = 0 → checkAnchor m bad base = .inl .zeroAddress)
    ∧ (base ≠ 0 → readsOk bad base anchorFields = false → checkAnchor m bad base = .inl .readError)
    ∧ (base ≠ 0 → readsOk bad base anchorFields = true →
      (memNat m base 4 ≠ 1 → checkAnchor m bad base = .inl .version)
      ∧ (memNat m base 4 = 1 →
        ((badLane (first 0x10) ∨ badLane (first 0x30) ∨ badLane (first 0x50)) → checkAnchor m bad base = .inl .laneAddress)
        ∧ (¬(badLane (first 0x10) ∨ badLane (first 0x30) ∨ badLane (first 0x50)) →
          ((1 < form 0x18 ∨ 1 < form 0x38 ∨ 1 < form 0x58) → checkAnchor m bad base = .inl .form)
          ∧ (form 0x18 ≤ 1 → form 0x38 ≤ 1 → form 0x58 ≤ 1 →
            (slots ∉ [16, 32, 64] → checkAnchor m bad base = .inl .warpSlots)
            ∧ (slots ∈ [16, 32, 64] →
              (entries ∉ [16, 32, 64, 128, 256] → checkAnchor m bad base = .inl .reportEntries)
              ∧ (entries ∈ [16, 32, 64, 128, 256] →
                (area < 512 → checkAnchor m bad base = .inl .faultArea)
                ∧ (512 ≤ area → ∃ c, checkAnchor m bad base = .inr c ∧ c.base = base ∧ c.warpSlots = slots
                    ∧ c.reportEntries = entries ∧ c.faultSize = min area 4096
                    ∧ lane c.control 0x10 ∧ lane c.chunk 0x30 ∧ lane c.recovery 0x50
                    ∧ c.warpBase = first 0x70 ∧ c.reportBase = first 0x80 ∧ c.faultTop = first 0x98
                    ∧ c.scanPeriod = (if period = 0 then 0 else if period = 65535 then 2000
                        else max 250 (min 20000 period)))))))))

/-- ANCHOR_READ_COMPLETE: the check that fails makes the exchange ANCHOR_BAD with its name, host memory untouched; when none fails
the exchange is RUNNING with the engine's copy, the refresh timer runs, a first refresh is made, and each lane (the CHUNK lane with its
gate open) takes the frame at its first-frame address (R80, R81). That the eight checks are made at the moment the read completes is
the model's choice (log entry 20). -/
def Obligations.AnchorReadEndsTheCheck : Prop :=
  ∀ (a : Ambient) (s : State) (base : Nat), s.supply.held = false → s.xchg.starting = some base →
    let u := s.arrive a
    (∀ c, checkAnchor u.xchg.mem u.xchg.badReads base = .inl c →
      exec (.anchorReadComplete a) s = .next { u with
        xchg := { u.xchg with state := .anchorBad, check := c, starting := none } })
    ∧ (∀ c, checkAnchor u.xchg.mem u.xchg.badReads base = .inr c → ∃ t, exec (.anchorReadComplete a) s = .next t
      ∧ t.xchg.anchor = some c ∧ t.xchg.starting = none ∧ t.xchg.check = .none
      ∧ t.xchg.nextRefresh = some (u.time + 100000) ∧ t.time = u.time ∧ t.motion = s.motion
      ∧ ∃ v : State, v = State.refresh { u with xchg := u.xchg.enterRunning u.time c }
        ∧ v.xchg.state = .running ∧ v.xchg.stack = [] ∧ (∀ l, (v.xchg.lane l).hand = none)
        ∧ (∀ l, (l = .chunk → s.writer.gate = true) →
            (v.xchg.laneMove s.writer.gate v.time l).1 = v.xchg.takeFrame v.time l (c.desc l).first false)
        ∧ t = State.rest { v with xchg := v.xchg.lookAll s.writer.gate u.time (arrange a.laneOrder [.control, .chunk, .recovery]) })

/-- Entering RUNNING: the engine's own values, and in host memory the retire marks, taken counts and lane states of the three
descriptors, the write count and the depth, all 0; every other byte as it was (R81). -/
def Obligations.RunningEntryWritesTheAnchor : Prop :=
  ∀ (x : Exchange) (now : Time) (c : AnchorCopy), memWf x.mem = true →
    let y := x.enterRunning now c
    y.state = .running ∧ y.stack = [] ∧ y.recErrors = 0 ∧ y.refreshCount = 0 ∧ y.writeCount = 0
    ∧ (∀ l, (y.lane l).place = .take (c.desc l).first ∧ (y.lane l).hand = none ∧ (y.lane l).taken = 0 ∧ (y.lane l).held = none)
    ∧ y.nextScan = (if c.scanPeriod = 0 then none else some (now + BitVec.ofNat 48 c.scanPeriod))
    ∧ (∀ l, memNat y.mem (c.base + descOffset l + 16) 8 = 0 ∧ memNat y.mem (c.base + descOffset l + 12) 4 = 0
        ∧ memByte y.mem (c.base + descOffset l + 10) = 0)
    ∧ memNat y.mem (c.base + 0x90) 4 = 0 ∧ memNat y.mem (c.base + 0xA4) 4 = 0
    ∧ ∀ b, (∀ l, ¬(c.base + descOffset l + 16 ≤ b ∧ b < c.base + descOffset l + 24)
          ∧ ¬(c.base + descOffset l + 12 ≤ b ∧ b < c.base + descOffset l + 16) ∧ b ≠ c.base + descOffset l + 10) →
        ¬(c.base + 0x90 ≤ b ∧ b < c.base + 0x94) → ¬(c.base + 0xA4 ≤ b ∧ b < c.base + 0xA8) →
        memByte y.mem b = memByte x.mem b

/-- A nudge by NUDGE, or by a write of any value to the register at 0x0C, makes in RUNNING the two counts' reads and then the
lanes' link reads; in every other exchange state it changes nothing but the sight of the link (R77, R88, R89). SCAN_TICK: at its due
time the next tick is one period after it, and the tick does the work of a nudge (R89). A lane's look (R83, R86, R88): a lane with a
frame in hand, held, with the chunk gate shut or off RUNNING looks nowhere; an IDLE lane reads its link in the form of its last frame; a
link of 0, the low six bits apart, leaves it IDLE, any other is taken; a failed link read is a LINK fault, or one more read error on
RECOVERY. A frame finished as it is taken lets the lane go on along its chain, up to the bound of the model's own (log entry 7). -/
def Obligations.NudgeAndScanTick : Prop :=
  (∀ (a : Ambient) (s : State) (i : Instr) (v : Word), s.supply.held = false →
    (i = .nudge a ∨ i = .registerWrite a 0x0C 4 v) →
    let u := s.arrive a
    (s.xchg.state = .running → exec i s = .next (State.rest { u with
        xchg := ({ u.xchg with linkUp := true } : Exchange).readCounts.lookAll s.writer.gate u.time
          (arrange a.laneOrder [.control, .chunk, .recovery]) }))
    ∧ (s.xchg.state ≠ .running → exec i s = .next (State.rest { u with xchg := { u.xchg with linkUp := true } }))
    ∧ ∀ (x : Exchange) (c : AnchorCopy), x.anchor = some c →
      x.readCounts = (if readOk x.badReads (c.base + 0x7C) 4 = true ∧ readOk x.badReads (c.base + 0x8C) 4 = true then
        { x with
          consumed := some (BitVec.ofNat 32 (memNat x.mem (c.base + 0x7C) 4))
          readCopy := some (BitVec.ofNat 32 (memNat x.mem (c.base + 0x8C) 4)) } else x))
  ∧ (∀ (a : Ambient) (s : State) (due : Time) (c : AnchorCopy), s.supply.held = false → s.xchg.nextScan = some due →
    s.xchg.anchor = some c →
    let u := s.arrive a
    (timeReached u.time due = true → s.xchg.state = .running → exec (.scanTick a) s = .next (State.rest { u with
      xchg := ({ u.xchg with nextScan := some (due + BitVec.ofNat 48 c.scanPeriod) } : Exchange).readCounts.lookAll
        s.writer.gate u.time (arrange a.laneOrder [.control, .chunk, .recovery]) }))
    ∧ (timeReached u.time due = false → exec (.scanTick a) s = .next u))
  ∧ ∀ (x : Exchange) (gate : Bool) (now : Time) (l : Lane),
    let looks (y : Exchange) : Prop := x.look gate now l = y
    let able := x.state = .running ∧ x.hand l = none ∧ x.holds l = false ∧ (l = .chunk → gate = true)
    -- what follows the taking of the frame at `at_`, with at most `n` moves left
    let takes (at_ n : Nat) : Prop :=
      let y := x.takeFrame now l at_ false
      ((y.hand l ≠ none ∨ y.holds l = true ∨ y.state ≠ .running ∨ (y.lane l).place = .take at_) → looks y)
      ∧ ((y.lane l).place ≠ .take at_ → looks (y.follow gate now l n))
    (¬able → looks x)
    ∧ (able → (x.lane l).place = .nowhere → looks x)
    ∧ (∀ at_, able → (x.lane l).place = .take at_ → takes at_ (2 * x.chainLength - 1))
    ∧ ∀ at_ form code tag, able → (x.lane l).place = .link at_ form code tag →
        let width := if form = .narrow then 4 else 8
        let word := memNat x.mem at_ width
        (readOk x.badReads at_ width = false →
          (l = .recovery → looks { x with recErrors := x.recErrors + 1 })
          ∧ (l ≠ .recovery → looks (x.frameFault now l .link { address := at_, form, notify := false, code, tag } .fetchError)))
        ∧ (readOk x.badReads at_ width = true →
          (word < 64 → looks x)
          ∧ (64 ≤ word → takes (word - word % 64) (2 * x.chainLength - 2)))

/-- The register window's writes: ANCHOR_LOW keeps bits 31..12, ANCHOR_HIGH the whole word, CAUSE, CAUSE_MASK and NUDGE as their own
commands, CONTROL as LINK_RESET and then START; any other width or offset changes nothing (R77, R78). Its reads: the two ANCHOR
registers, CAUSE and CAUSE_MASK, PART_STATE with its five fields (R79, section 11.2), the low 32 bits of part time, 0 for CONTROL and
NUDGE and for any other width or offset (R77). -/
def Obligations.RegisterWindowWrites : Prop :=
  ∀ (a : Ambient) (s : State) (v : Word), s.supply.held = false →
    let u := { s.arrive a with xchg := { (s.arrive a).xchg with linkUp := true } }
    exec (.registerWrite a 0x00 4 v) s = .next { u with xchg := { u.xchg with anchorLow := v &&& 0xFFFFF000 } }
    ∧ exec (.registerWrite a 0x04 4 v) s = .next { u with xchg := { u.xchg with anchorHigh := v } }
    ∧ exec (.registerWrite a 0x10 4 v) s = exec (.causeWrite a v) s
    ∧ exec (.registerWrite a 0x14 4 v) s = exec (.causeMaskWrite a v) s
    ∧ (v.getLsbD 0 = true → v.getLsbD 1 = false → exec (.registerWrite a 0x08 4 v) s = exec (.start a) s)
    ∧ (v.getLsbD 1 = true → exec (.registerWrite a 0x08 4 v) s = exec (.linkReset a (v.getLsbD 0)) s)
    ∧ (v.getLsbD 0 = false → v.getLsbD 1 = false → exec (.registerWrite a 0x08 4 v) s = .next u)
    ∧ exec (.registerWrite a 0x0C 4 v) s = exec (.nudge a) s
    ∧ (∀ o w, (w ≠ 4 ∨ o ∉ [0x00, 0x04, 0x08, 0x0C, 0x10, 0x14]) → exec (.registerWrite a o w v) s = .next u)
    -- the reads
    ∧ s.readRegister 0x00 4 = s.xchg.anchorLow ∧ s.readRegister 0x04 4 = s.xchg.anchorHigh
    ∧ s.readRegister 0x10 4 = s.xchg.cause.setWidth 32 ∧ s.readRegister 0x14 4 = s.xchg.mask.setWidth 32
    ∧ (s.readRegister 0x1C 4).toNat = s.time.toNat % 2 ^ 32
    ∧ (let p := s.readRegister 0x18 4
      (p.extractLsb' 0 2).toNat = (match s.xchg.state with
        | .off => 0
        | .running => 1
        | .anchorBad => 2
        | .stopped => 3)
      ∧ (p.extractLsb' 4 4).toNat = (match s.xchg.check with
        | .none => 0
        | .zeroAddress => 1
        | .readError => 2
        | .version => 3
        | .laneAddress => 4
        | .form => 5
        | .warpSlots => 6
        | .reportEntries => 7
        | .faultArea => 8)
      ∧ (p.extractLsb' 8 2).toNat = (match s.supply.power with
        | .active => 0
        | .parked => 1
        | .sleep => 2)
      ∧ (p.extractLsb' 12 2).toNat = (match s.supply.cause with
        | .powerOn => 0
        | .brownout => 1
        | .link => 2)
      ∧ (p.extractLsb' 16 3).toNat = (match s.supply.wake with
        | .none => 0
        | .button => 1
        | .inputAttach => 2
        | .shock => 3
        | .timer => 4
        | .routed => 5)
      ∧ p &&& 0xFFF8CC0C = 0)
    ∧ ∀ o w, (w ≠ 4 ∨ o ∉ [0x00, 0x04, 0x10, 0x14, 0x18, 0x1C]) → s.readRegister o w = 0

/-- The cause flags (R90): a request is taken in RUNNING and STOPPED and dropped in OFF and ANCHOR_BAD; a taken request sets its
flags whatever their mask bits; a flag already set stays set and sends no message; a host write clears the flags written 1 and
no other, so a write of 0 clears none; a read returns the nine flags; request then write clears, write then request leaves set;
a refresh shows the flags. The interrupt messages (R91): a request sends one message exactly when it sets a clear flag whose mask bit
is set and the link is up, a write to CAUSE_MASK one exactly when it sets a clear mask bit whose flag is set and the link is up; the
write replaces the nine bits; a flag and its mask bit set together send one message in either order. A request is taken in STOPPED too
(R90, R95); that R185 drops the low-battery filter's own request there is no part of this statement (the model's choice of the two
rules, log entry 71). -/
def Obligations.CauseFlagsAndInterruptMessages : Prop :=
  ((∀ (x : Exchange) (f : BitVec 9), (x.state = .running ∨ x.state = .stopped) → (x.request f).cause = x.cause ||| f)
  ∧ (∀ (x : Exchange) (f : BitVec 9), (x.state = .off ∨ x.state = .anchorBad) → x.request f = x)
  ∧ (∀ (x : Exchange) (f : BitVec 9), f &&& ~~~x.cause = 0 → x.request f = x)
  ∧ (∀ (a : Ambient) (s : State) (v : Word), s.supply.held = false → ∃ up, exec (.causeWrite a v) s = .next { s.arrive a with
      xchg := { (s.arrive a).xchg with linkUp := up, cause := s.xchg.cause &&& ~~~(v.setWidth 9) } })
  ∧ (∀ x : Exchange, x.clearCause 0 = x)
  ∧ (∀ s : State, s.readRegister 0x10 4 = s.xchg.cause.setWidth 32)
  ∧ (∀ (x : Exchange) (n : Fin 9) (v : Word), (x.state = .running ∨ x.state = .stopped) → v.getLsbD n.val = true →
      ((x.request (1#9 <<< n.val)).clearCause v).cause.getLsbD n.val = false
      ∧ ((x.clearCause v).request (1#9 <<< n.val)).cause.getLsbD n.val = true)
  ∧ ∀ (s : State) (c : AnchorCopy), s.xchg.anchor = some c → s.xchg.state.live = true → memWf s.xchg.mem = true →
      memNat s.refresh.xchg.mem (c.base + 0x112) 2 = s.xchg.cause.toNat)
  ∧ ((∀ (x : Exchange) (f : BitVec 9), (x.state = .running ∨ x.state = .stopped) → (x.request f).messages =
      if x.linkUp = true ∧ f &&& ~~~x.cause &&& x.mask ≠ 0 then x.messages + 1 else x.messages)
  ∧ (∀ (a : Ambient) (s : State) (v : Word), s.supply.held = false → exec (.causeMaskWrite a v) s = .next { s.arrive a with
      xchg := { (s.arrive a).xchg with
        linkUp := true
        mask := v.setWidth 9
        messages := if v.setWidth 9 &&& ~~~s.xchg.mask &&& s.xchg.cause ≠ 0 then s.xchg.messages + 1 else s.xchg.messages } })
  ∧ (∀ (x : Exchange) (v : Word), x.linkUp = false → (x.writeMask v).messages = x.messages)
  ∧ ∀ (x : Exchange) (n : Fin 9), (x.state = .running ∨ x.state = .stopped) → x.linkUp = true → x.cause = 0 → x.mask = 0 →
      ((x.request (1#9 <<< n.val)).writeMask (1#32 <<< n.val)).messages = x.messages + 1
      ∧ ((x.writeMask (1#32 <<< n.val)).request (1#9 <<< n.val)).messages = x.messages + 1)

/-- A refresh (R92): on a RUNNING or STOPPED exchange the count grows by two and is written even, the reserved bytes 0x104 to 0x107 are
written 0 (R193), the sections stand from 0x108 up to 0x400, and no other byte of host memory changes; otherwise nothing is written.
STATUS_REFRESH makes it when it is due and schedules the next 100 ms after it. STATUS_ACK empties the accrued flags and clears the
recentre status, makes a refresh that shows both, and then finishes the frame DONE with OK (R39, R93). The sections' bytes (11.2): each
field at its offset and width, little-endian, with the codes that 11.2 gives; every reserved byte 0; the whole 760 bytes. The fields
shown where nothing is open, pending or listed, and which charger fields are those of the newest evaluation, are the model's choices
(log entries 43, 64); the two safety timers shown as whole seconds of what they have counted are its inference (log entry 38). -/
def Obligations.StatusRefreshAndAck : Prop :=
  ((∀ (s : State) (c : AnchorCopy), s.xchg.anchor = some c → s.xchg.state.live = true → memWf s.xchg.mem = true →
    let t := s.refresh
    t.xchg.refreshCount = s.xchg.refreshCount + 2
    ∧ memNat t.xchg.mem (c.base + 0x100) 4 = (s.xchg.refreshCount + 2).toNat
    ∧ (∀ k, k < s.sections.length → memByte t.xchg.mem (c.base + 0x108 + k) = s.sections.getD k 0)
    ∧ memNat t.xchg.mem (c.base + 0x104) 4 = 0
    ∧ (∀ b, (b < c.base + 0x100 ∨ c.base + 0x108 + s.sections.length ≤ b) → memByte t.xchg.mem b = memByte s.xchg.mem b)
    ∧ t = { s with xchg := { s.xchg with mem := t.xchg.mem, refreshCount := t.xchg.refreshCount } })
  ∧ (∀ s : State, s.xchg.state.live = false → s.refresh = s)
  ∧ ∀ (a : Ambient) (s : State) (due : Time), s.supply.held = false → s.xchg.nextRefresh = some due →
    let u := s.arrive a
    (timeReached u.time due = true → exec (.statusRefresh a) s = .next
      (State.refresh { u with xchg := { u.xchg with nextRefresh := some (due + 100000) } }))
    ∧ (timeReached u.time due = false → exec (.statusRefresh a) s = .next u))
  ∧ (∀ (a : Ambient) (s : State), s.supply.held = false → s.frameBody .control = some .statusAck →
    let u := s.arrive a
    let v := State.refresh { u with path := { s.path with accrued := 0, recentred := false } }
    exec (.statusAck a) s = .next (v.finish .control .done .ok 0)
    ∧ v.path = { s.path with accrued := 0, recentred := false }
    ∧ (∀ c, s.xchg.anchor = some c → s.xchg.state.live = true → memWf u.xchg.mem = true →
        v.xchg.refreshCount = s.xchg.refreshCount + 2
        ∧ memNat v.xchg.mem (c.base + 0x140) 2 = 0 ∧ memByte v.xchg.mem (c.base + 0x123) = 0))
  -- the sections (11.2): offset from the start of the anchor, width, value
  ∧ (∀ s : State, s.store.table.length ≤ 16 →
    let x := s.xchg
    let m := s.motion
    let p := s.path
    let r := s.router
    let w := s.writer
    let k := s.card
    let st := s.store
    let c := s.charger
    let e := c.terms
    let u := s.supply
    let flag (b : Bool) : Nat := if b then 1 else 0
    let bits (b : Fin 4 → Bool) : Nat := flag (b 0) + 2 * flag (b 1) + 4 * flag (b 2) + 8 * flag (b 3)
    let left (d : Option Time) : Nat := match d with
      | some t => if timeReached s.time t then 0 else (t - s.time).toNat
      | none => 0
    let opened := st.table.find? fun g => g.phase == .opened
    let fields : List (Nat × Nat × Nat) :=
      [(0x108, 8, s.time.toNat), (0x110, 1, x.state.code), (0x111, 1, x.check.code), (0x112, 2, x.cause.toNat),
        (0x114, 4, x.depth), (0x118, 4, x.recErrors.toNat), (0x11C, 4, 0)]
      ++ [(0x120, 1, m.port.code), (0x121, 1, m.restarts), (0x122, 1, flag !m.armed), (0x123, 1, flag p.recentred),
        (0x124, 4, m.losses.toNat), (0x128, 4, m.samples.toNat), (0x12C, 4, m.gaps.toNat), (0x130, 4, m.clipped.toNat),
        (0x134, 4, m.shockPeak), (0x138, 8, m.shockTime.toNat), (0x140, 2, p.accrued.toNat), (0x142, 1, p.frames.length),
        (0x143, 1, 0), (0x144, 4, p.counter.toNat), (0x148, 4, p.overrun.toNat), (0x14C, 4, p.stray.toNat),
        (0x150, 4, p.unpublished.toNat), (0x154, 4, p.forced.toNat), (0x158, 8, 0)]
      ++ ((List.range 18).map fun i => (0x160 + 2 * i, 2, ((sinkOf i).map fun k => (r.routes.of k).toNat).getD 0))
      ++ ((List.finRange 4).flatMap fun n =>
        [(0x184 + 4 * n.val, 4, (r.lines.get n).suppressed.toNat), (0x194 + n.val, 1, flag (r.timers.get n).next.isSome),
          (0x198 + 4 * n.val, 4, left (r.timers.get n).next), (0x1C0 + n.val, 1, (w.bufs.get n).st.code),
          (0x1C4 + 4 * n.val, 4, (w.bufs.get n).fill)])
      ++ [(0x1A8, 1, bits fun n => (r.outs.get n).high), (0x1A9, 1, bits fun n => (r.outs.get n).hostSet),
        (0x1AA, 1, bits fun n => (r.outs.get n).hostClear), (0x1AB, 5, 0)]
      ++ [(0x1B0, 1, w.state.code), (0x1B1, 1, (w.clip.map fun f => f.streams.toNat).getD 0), (0x1B2, 1, flag w.gate),
        (0x1B3, 1, flag w.cutRequest), (0x1B4, 4, (w.clip.map fun f => f.number.toNat).getD 0),
        (0x1B8, 4, (opened.map fun g => g.serial.toNat).getD 0), (0x1BC, 2, (opened.map fun g => g.index).getD 0),
        (0x1BE, 1, w.queue.length), (0x1BF, 1, w.reason.code), (0x1D4, 4, w.placed.main.toNat), (0x1D8, 4, w.placed.proxy.toNat),
        (0x1DC, 4, w.placed.audio.toNat), (0x1E0, 4, w.placed.motion.toNat), (0x1E4, 4, w.placed.marker.toNat),
        (0x1E8, 4, w.placed.filler.toNat), (0x1EC, 4, w.chunksDropped.toNat), (0x1F0, 4, w.motionDropped.toNat),
        (0x1F4, 4, w.markersDropped.toNat)]
      ++ [(0x1F8, 1, k.state.code), (0x1F9, 1, flag k.attaching), (0x1FA, 1, k.attachResult.code),
        (0x1FB, 1, match k.raw with
          | some j => if j.isWrite then 2 else 1
          | none => 0), (0x1FC, 4, k.capacity), (0x218, 4, left k.grace), (0x21C, 4, k.accepted.toNat),
        (0x220, 4, k.writeErrors.toNat), (0x224, 4, k.timeouts.toNat), (0x228, 4, k.removals.toNat)]
      ++ ((List.range 3).flatMap fun i => match k.list[i]? with
        | some e => [(0x200 + 8 * i, 4, e.block), (0x204 + 8 * i, 2, e.count), (0x206 + 8 * i, 1, e.source.code), (0x207 + 8 * i, 1, 1)]
        | none => [(0x200 + 8 * i, 8, 0)])
      ++ [(0x22C, 1, st.pool.length), (0x22D, 1, (st.table.filter fun g => g.owner.isSome).length), (0x22E, 1, st.queue.length),
        (0x22F, 1, (st.waiting.map fun p => p.producer.bit).sum), (0x230, 4, st.freePacks),
        (0x234, 4, (st.pool.head?.map fun e => e.first).getD 0), (0x238, 4, (st.pool.head?.map fun e => e.count).getD 0),
        (0x23C, 4, st.lost.toNat), (0x240, 8, (st.protectUntil.map fun t => t.toNat).getD 0)]
      ++ ((List.range 16).flatMap fun i => match st.table[i]? with
        | some g => [(0x248 + 4 * i, 4, g.serial.toNat),
            (0x288 + i, 1, if g.owner.isSome then 2 else if g.phase = .complete then 1 else 0)]
        | none => [(0x248 + 4 * i, 4, 0), (0x288 + i, 1, 0)])
      ++ [(0x298, 24, 0)]
      ++ [(0x2B0, 2, c.meas.vbat.toNat), (0x2B2, 2, c.meas.ibat.toNat), (0x2B4, 2, c.meas.vin.toNat), (0x2B6, 2, c.meas.iin.toNat),
        (0x2B8, 2, c.meas.temp.toNat), (0x2BA, 2, c.meas.die.toNat), (0x2BC, 1, c.state.code),
        (0x2BD, 1, match c.state with
          | .paused r => r.code
          | .fault r => r.code
          | _ => 0), (0x2BE, 1, c.band.code), (0x2BF, 1, flag c.dieCap), (0x2C0, 2, c.iinLimit), (0x2C2, 2, e.lp), (0x2C4, 2, e.lc),
        (0x2C6, 2, e.lcard), (0x2C8, 2, c.droop), (0x2CA, 2, e.available), (0x2CC, 4, e.budget), (0x2D0, 2, e.phaseLimit),
        (0x2D2, 2, e.cap), (0x2D4, 2, if c.band = .warm then c.profile.vreg - 100 else c.profile.vreg), (0x2D6, 2, e.computed),
        (0x2D8, 2, c.driven), (0x2DA, 1, c.term), (0x2DB, 1, flag c.hold), (0x2DC, 1, flag c.hostPause), (0x2DD, 3, 0),
        (0x2E0, 4, c.prechargeUs / 1000000), (0x2E4, 4, c.fastUs / 1000000), (0x2E8, 8, 0)]
      ++ [(0x2F0, 1, flag u.inSw), (0x2F1, 1, flag u.batSw), (0x2F2, 1, u.mode.code), (0x2F3, 1, flag u.present),
        (0x2F4, 1, flag (u.present && u.inSw)), (0x2F5, 1, u.loadClass), (0x2F6, 1, flag u.lowBattery), (0x2F7, 1, u.lowRun),
        (0x2F8, 1, u.highRun), (0x2F9, 1, flag !u.shutArmed), (0x2FA, 1, u.deepRun), (0x2FB, 1, u.rearmRun),
        (0x2FC, 1, flag u.dieHot), (0x2FD, 1, u.power.code), (0x2FE, 1, flag u.hostPower), (0x2FF, 1, u.wake.code),
        (0x300, 4, u.switchFails.toNat), (0x304, 12, 0), (0x310, 240, 0)]
    s.sections.length = 760
    ∧ (fields.map fun f => f.2.1).sum = 760
    ∧ ∀ f ∈ fields, leNat ((s.sections.drop (f.1 - 0x108)).take f.2.1) = f.2.2 % 256 ^ f.2.1)
  -- the codes (11.2, R194)
  ∧ (∀ (n : Nat) (p : PauseReason) (r : FaultReason),
      [ChState.absent, .qualify n, .precharge, .fast, .taper, .full, .paused p, .fault r].map ChState.code = [0, 1, 2, 3, 4, 5, 6, 7])
    ∧ [XState.off, .running, .anchorBad, .stopped].map XState.code = [0, 1, 2, 3]
    ∧ [AnchorCheck.none, .zeroAddress, .readError, .version, .laneAddress, .form, .warpSlots, .reportEntries, .faultArea].map
        AnchorCheck.code = [0, 1, 2, 3, 4, 5, 6, 7, 8]
    ∧ [PortState.off, .starting, .running, .lost, .failed].map PortState.code = [0, 1, 2, 3, 4]
    ∧ [WriterState.idle, .opened, .closing].map WriterState.code = [0, 1, 2]
    ∧ [BufState.empty, .filling, .queued, .writing].map BufState.code = [0, 1, 2, 3]
    ∧ [CloseReason.none, .host, .closeSink, .lowBattery, .dieHot, .storageFull, .card].map CloseReason.code = [0, 1, 2, 3, 4, 5, 6]
    ∧ [CardState.absent, .present, .ready, .writing, .busy, .failed].map CardState.code = [0, 1, 2, 3, 4, 5]
    ∧ [AttachResult.none, .ok, .noAnswer, .unusable, .removed].map AttachResult.code = [0, 1, 2, 3, 4]
    ∧ [Source.buf 0, .buf 1, .buf 2, .buf 3, .tail].map Source.code = [0, 1, 2, 3, 4]
    ∧ [Producer.segment, .incident, .level, .clip, .charger].map Producer.bit = [1, 2, 4, 8, 16]
    ∧ [ThermalBand.cold, .cool, .normal, .warm, .hot].map ThermalBand.code = [0, 1, 2, 3, 4]
    ∧ [PauseReason.host, .path, .dieHot, .hot, .cold, .budget].map PauseReason.code = [0, 1, 2, 3, 4, 5]
    ∧ [FaultReason.timer, .overvolt, .thermistor].map FaultReason.code = [0, 1, 2]
    ∧ [PathMode.normal, .inputSuspend, .batteryIsolate].map PathMode.code = [0, 1, 2]
    ∧ [PowerState.active, .parked, .sleep].map PowerState.code = [0, 1, 2]
    ∧ [WakeReason.none, .button, .inputAttach, .shock, .timer, .routed].map WakeReason.code = [0, 1, 2, 3, 4, 5]

/-! ## Frames -/

/-- The finish of a frame (R87): result word, status word, retire mark and lane state in host memory, the cause flag asked for when
notify or notify-all is set, the lane at the frame's link; every other byte of host memory and every other lane as they were. A value
too wide for a NARROW result word leaves its half of the word open (log entry 18). An owner's finish writes the frame in the lane's hand
and the lane then looks for its next frame, through the writer's gate (R88, R105); a finish before a link reset leaves the link unread
(log entry 22). On an exchange that is not RUNNING the lane's hand is emptied and nothing is written (R95, log entry 41), and with no
frame in hand there is nothing to finish. The status codes and the result codes are those of 11.3. -/
def Obligations.FinishWritesTheFrame : Prop :=
  (∀ (x : Exchange) (l : Lane) (f : HeldFrame) (st : Status) (r : Result) (v : Nat) (c : AnchorCopy),
    x.anchor = some c → x.state = .running → memWf x.mem = true → (f.address + 24 ≤ c.base ∨ c.base + 256 ≤ f.address) →
    let y := x.complete l f st r v
    let n := f.form.addressBytes
    ((f.form = .narrow → v < 65536) → memNat y.mem (f.address + 16) n = (r.code + 65536 * v) % 256 ^ n)
    ∧ memNat y.mem (f.address + 16) 2 = r.code
    ∧ memNat y.mem (f.address + 14) 2 = st.code
    ∧ memNat y.mem (c.base + descOffset l + 16) 8 = f.address % 256 ^ 8
    ∧ memNat y.mem (c.base + descOffset l + 10) 1 = (if x.holds l then 2 else 0)
    ∧ (∀ b, ¬(f.address + 14 ≤ b ∧ b < f.address + 16 + n) →
        ¬(c.base + descOffset l + 16 ≤ b ∧ b < c.base + descOffset l + 24) → b ≠ c.base + descOffset l + 10 →
        memByte y.mem b = memByte x.mem b)
    ∧ y.lane l = { (x.lane l) with
        hand := none, place := .link f.address f.form f.code f.tag, retire := f.address }
    ∧ (∀ k, k ≠ l → y.lane k = x.lane k)
    ∧ y.cause = (if f.notify || (c.desc l).notifyAll then x.cause ||| laneFlag l else x.cause)
    ∧ y.state = .running ∧ y.stack = x.stack ∧ y.anchor = x.anchor ∧ y.mask = x.mask)
  ∧ (∀ (x : Exchange) (gate : Bool) (now : Time) (l : Lane) (st : Status) (r : Result) (v : Nat), x.state ≠ .running →
      x.finish gate now l st r v = x.setLane l { (x.lane l) with hand := none }
      ∧ x.finishOnly l st r v = x.setLane l { (x.lane l) with hand := none })
  ∧ (∀ (x : Exchange) (gate : Bool) (now : Time) (l : Lane) (st : Status) (r : Result) (v : Nat), x.state = .running →
      (x.hand l = none → x.finish gate now l st r v = x ∧ x.finishOnly l st r v = x)
      ∧ ∀ f, x.hand l = some f →
        let z := x.complete l { address := f.address, form := f.form, notify := f.notify, code := f.code, tag := f.tag } st r v
        x.finish gate now l st r v = z.look gate now l ∧ x.finishOnly l st r v = z)
  ∧ (∀ (s : State) (l : Lane) (st : Status) (r : Result) (v : Nat),
      s.finish l st r v = { s with xchg := s.xchg.finish s.writer.gate s.time l st r v })
  ∧ [Status.done, .refused, .dropped, .faulted].map Status.code = [2, 3, 4, 5]
  ∧ [Result.ok, .busy, .badField, .wrongLane, .badFormat, .selfRoute, .masked, .noClip, .streamOff, .closing, .stagingFull, .noCard,
      .lowPower, .noSpace, .notOpen, .faultPending, .attaching, .alreadyReady, .outOfRange, .overlap, .cardError, .refaulted,
      .superseded, .misaligned, .poolFull, .notFound, .protectFull, .cleared, .lowBattery, .noInput, .switchFailed, .inputLost,
      .noChange, .nothingPending, .notResumable, .badRecord, .fetchError, .unknownFormat, .dataError].map Result.code = List.range 39

/-- A lane takes a frame (R84): TAKEN in its status word, the taken count one more (not for a held frame taken again, R99), the
lane state RUNNING, the body read in the effective form, and the frame in hand; nothing else of host memory and no other lane
changes. The format codes with the lane of each format (5.3, 11.3), the fields of a head and of each body that are read, with their
offsets and sizes in both forms (11.3, R83), the body formed from them, and when a read of fields meets a failing address (R86). -/
def Obligations.LaneTakesAFrame : Prop :=
  (∀ (x : Exchange) (now : Time) (l : Lane) (addr : Nat) (again : Bool) (c : AnchorCopy) (fmt : Format),
    let code := BitVec.ofNat 16 (memNat x.mem (addr + 8) 2)
    let opts := memByte x.mem (addr + 10)
    let form := effectiveForm (c.desc l).form (opts.getLsbD 0) code
    let count := if again then (x.lane l).taken else (x.lane l).taken + 1
    x.anchor = some c → x.state = .running → x.holds l = false → memWf x.mem = true →
    (addr + 16 ≤ c.base ∨ c.base + 256 ≤ addr) → formatOf code = some fmt → fmt.lane = l →
    readsOk x.badReads addr headFields = true → readsOk x.badReads addr (fmt.bodyFields form) = true →
    let y := x.takeFrame now l addr again
    y.lane l = { (x.lane l) with
        hand := some
          { address := addr, form, notify := opts.getLsbD 1, tag := BitVec.ofNat 16 (memNat x.mem (addr + 12) 2), code
            body := readBody (x.markTaken l addr again).mem addr fmt form, started := false }
        place := .nowhere, held := none, taken := count }
    ∧ memNat y.mem (addr + 14) 2 = 1
    ∧ memNat y.mem (c.base + descOffset l + 12) 4 = count.toNat
    ∧ memNat y.mem (c.base + descOffset l + 10) 1 = 1
    ∧ (∀ b, ¬(addr + 14 ≤ b ∧ b < addr + 16) → ¬(c.base + descOffset l + 12 ≤ b ∧ b < c.base + descOffset l + 16) →
        b ≠ c.base + descOffset l + 10 → memByte y.mem b = memByte x.mem b)
    ∧ (∀ k, k ≠ l → y.lane k = x.lane k)
    ∧ y.cause = x.cause ∧ y.messages = x.messages ∧ y.state = x.state ∧ y.stack = x.stack)
  -- the formats: code, lane, fields read in NARROW and in WIDE form, neighbours taken together (11.3)
  ∧ (let same (l : List (Nat × Nat)) : List (Nat × Nat) × List (Nat × Nat) := (l, l)
    let rows : List (Nat × Format × Lane × List (Nat × Nat) × List (Nat × Nat)) :=
      [(0x01, .motionSetup, .control, same [(24, 13), (38, 34)]), (0x02, .reference, .control, same [(24, 12)]),
        (0x03, .exposure, .control, same [(24, 4)]), (0x04, .statusAck, .control, same []),
        (0x10, .route, .control, same [(24, 1), (26, 2)]), (0x11, .lineSetup, .control, same [(24, 3), (28, 2)]),
        (0x12, .timerSetup, .control, same [(24, 3), (28, 4)]), (0x13, .outputWrite, .control, same [(24, 7)]),
        (0x20, .clipOpen, .control, same [(24, 20)]), (0x21, .clipClose, .control, same []),
        (0x22, .chunk, .chunk, [(24, 3), (32, 8), (40, 6), (48, 6), (56, 6), (64, 6)],
          [(24, 3), (32, 8), (40, 12), (56, 12), (72, 12), (88, 12)]),
        (0x30, .cardAttach, .control, same []), (0x31, .cardRead, .control, [(24, 12)], [(24, 16)]),
        (0x32, .cardWrite, .control, [(24, 12)], [(24, 16)]),
        (0x40, .extentAdd, .control, same [(24, 8)]), (0x41, .extentWithdraw, .control, same [(24, 4)]),
        (0x42, .protect, .control, same [(24, 5)]), (0x50, .chargeSetup, .control, same [(24, 27)]),
        (0x51, .inputLimit, .control, same [(24, 2)]), (0x52, .loadClass, .control, same [(24, 1)]),
        (0x60, .pathSet, .control, same [(24, 1)]), (0x61, .powerState, .control, same [(24, 1)]),
        (0x70, .resume, .recovery, same []), (0x71, .abandon, .recovery, same [])]
    (∀ (code : BitVec 16) (fmt : Format), formatOf code = some fmt ↔ ∃ w ∈ rows, w.1 = code.toNat ∧ w.2.1 = fmt)
    ∧ (∀ w ∈ rows, w.2.1.lane = w.2.2.1 ∧ w.2.1.bodyFields .narrow = w.2.2.2.1 ∧ w.2.1.bodyFields .wide = w.2.2.2.2)
    ∧ headFields = [(8, 2), (10, 1), (12, 2)])
  -- the effective form (R83)
  ∧ (∀ (dflt : Form) (alt : Bool) (code : BitVec 16),
    ((code = 0x70 ∨ code = 0x71) → effectiveForm dflt alt code = .wide)
    ∧ (code ≠ 0x70 → code ≠ 0x71 → (effectiveForm dflt alt code = .wide ↔ ((dflt = .wide) ↔ (alt = false)))))
  -- the reads that fail (R86)
  ∧ (∀ (bad : List Span) (a : Nat) (fields : List (Nat × Nat)), readsOk bad a fields = true ↔
      ∀ g ∈ fields, ∀ b, a + g.1 ≤ b → b < a + g.1 + g.2 → ∀ r ∈ bad, b < r.first ∨ r.first + r.length ≤ b)
  -- the bodies (11.3)
  ∧ ∀ (m : Mem) (f : Nat) (form : Form),
    let n (o w : Nat) : Nat := memNat m (f + o) w
    let b (o : Nat) : Byte := memByte m (f + o)
    let flag (o : Nat) : Bool := n o 1 != 0
    let wide := if form = .wide then 8 else 4
    readBody m f .motionSetup form = .motionSetup
        { rate := n 24 1, fullScale := n 25 1, q := n 26 1, bands := n 27 1
          axes := { yaw := n 28 1, pitch := n 30 1, roll := n 32 1 }, signs := { yaw := n 29 1, pitch := n 31 1, roll := n 33 1 }
          shifts := { yaw := n 34 1, pitch := n 35 1, roll := n 36 1 }, alert := BitVec.ofNat 16 (n 38 2), shockHigh := n 40 4
          quietLow := n 44 4, gain := n 48 4, focal := n 52 4, mx := n 56 4, my := n 60 4, rl := n 64 4, readout := n 68 4 }
    ∧ readBody m f .reference form = .reference
        { yaw := BitVec.ofNat 32 (n 24 4), pitch := BitVec.ofNat 32 (n 28 4), roll := BitVec.ofNat 32 (n 32 4) }
    ∧ readBody m f .exposure form = .exposure (n 24 4)
    ∧ readBody m f .route form = .route (n 24 1) (BitVec.ofNat 16 (n 26 2))
    ∧ readBody m f .lineSetup form = .lineSetup (n 24 1) (flag 25) (flag 26) (n 28 2)
    ∧ readBody m f .timerSetup form = .timerSetup (n 24 1) (n 25 1) (n 26 1) (n 28 4)
    ∧ readBody m f .outputWrite form = .outputWrite { a0 := n 24 1, a1 := n 25 1, a2 := n 26 1, a3 := n 27 1 } (flag 28) (b 29) (b 30)
    ∧ readBody m f .clipOpen form = .clipOpen
        { number := BitVec.ofNat 32 (n 24 4), streams := b 28, loop := flag 29, watermark := n 30 2, duration := n 32 4
          pre := n 36 4, post := n 40 4 }
    ∧ readBody m f .cardRead form = .cardRead (n 24 4) (n 28 4) (n 32 wide)
    ∧ readBody m f .cardWrite form = .cardWrite (n 24 4) (n 28 4) (n 32 wide)
    ∧ readBody m f .extentAdd form = .extentAdd (n 24 4) (n 28 4)
    ∧ readBody m f .extentWithdraw form = .extentWithdraw (n 24 4)
    ∧ readBody m f .protect form = .protect (BitVec.ofNat 32 (n 24 4)) (n 28 1)
    ∧ readBody m f .chargeSetup form = .chargeSetup
        { vreg := n 24 2, ichgMax := n 26 2, iterm := n 28 2, lcard := n 30 2, fastLimit := n 32 4, baseActive := n 36 2
          baseParked := n 38 2, baseSleep := n 40 2, classes := { a0 := n 42 2, a1 := n 44 2, a2 := n 46 2, a3 := n 48 2 } } (flag 50)
    ∧ readBody m f .inputLimit form = .inputLimit (n 24 2)
    ∧ readBody m f .loadClass form = .loadClass (n 24 1)
    ∧ readBody m f .pathSet form = .pathSet (n 24 1)
    ∧ readBody m f .powerState form = .powerState (n 24 1)
    ∧ [Format.statusAck, .clipClose, .cardAttach, .resume, .abandon].map (fun k => readBody m f k form)
        = [.statusAck, .clipClose, .cardAttach, .resume, .abandon]
    ∧ ∃ p, readBody m f .chunk form = .chunk
          { stream := n 24 1, flags := b 25, count := n 26 1, time := BitVec.ofNat 48 (n 32 8), pieces := p }
        ∧ p.length = min 4 (n 26 1)
        ∧ ∀ i, i < min 4 (n 26 1) → p[i]? = some (if form = .wide
            then { address := n (40 + 16 * i) 8, length := n (48 + 16 * i) 4 }
            else { address := n (40 + 8 * i) 4, length := n (44 + 8 * i) 2 })

/-- The frames that are not handed on (R85, R86): an unknown format faults the CONTROL and CHUNK lanes and is refused on RECOVERY,
another lane's format is refused WRONG_LANE, a failed head or body read faults the lane, but on RECOVERY a failed head read keeps
the lane's place and is counted. A frame fault keeps the frame in the lane and pushes the record (R96). The model's choices in it:
the form and notify of a held frame whose head could not be read (log entry 19), and the code and tag of a LINK record (log entry
49). -/
def Obligations.FramesNotHandedOn : Prop :=
  (∀ (x : Exchange) (now : Time) (l : Lane) (addr : Nat) (again : Bool) (c : AnchorCopy),
    x.anchor = some c →
    let code := BitVec.ofNat 16 (memNat x.mem (addr + 8) 2)
    let opts := memByte x.mem (addr + 10)
    let form := effectiveForm (c.desc l).form (opts.getLsbD 0) code
    let f : HeldFrame := { address := addr, form, notify := opts.getLsbD 1, code, tag := BitVec.ofNat 16 (memNat x.mem (addr + 12) 2) }
    let y := x.takeFrame now l addr again
    (readsOk x.badReads addr headFields = false →
      (l = .recovery → y.mem = x.mem ∧ y.recErrors = x.recErrors + 1 ∧ y.lane l = { (x.lane l) with place := .take addr }
        ∧ y.stack = x.stack)
      ∧ (l ≠ .recovery → y = x.frameFault now l .frame
          { address := addr, form := (c.desc l).form, notify := false, code := 0, tag := 0 } .fetchError))
    ∧ (readsOk x.badReads addr headFields = true →
      (formatOf code = none →
        (l = .recovery → y = (x.markTaken l addr again).complete l f .refused .badFormat 0)
        ∧ (l ≠ .recovery → y = (x.markTaken l addr again).frameFault now l .frame f .unknownFormat))
      ∧ (∀ fmt, formatOf code = some fmt → fmt.lane ≠ l → y = (x.markTaken l addr again).complete l f .refused .wrongLane 0)
      ∧ (∀ fmt, formatOf code = some fmt → fmt.lane = l → readsOk x.badReads addr (fmt.bodyFields form) = false →
          y = (x.markTaken l addr again).frameFault now l .frame f .fetchError)))
  ∧ ∀ (x : Exchange) (now : Time) (l : Lane) (f : HeldFrame) (e : FrameReason),
      x.frameFault now l .frame f e
        = (x.setLane l { (x.lane l) with hand := none, held := some f, place := .nowhere }).push
            (.frame l .frame f.address f.code f.tag e now)
      ∧ x.frameFault now l .link f e
        = (x.setLane l { (x.lane l) with hand := none, place := .link f.address f.form f.code f.tag }).push
            (.frame l .link f.address f.code f.tag e now)

/-- The fault stack (R94, R95): a push that fits writes the record whole at top minus depth minus its size, adds it to the internal
copy, writes the depth, shows the lane states and asks for FAULT; one that does not fit stops the exchange, every lane shown
STOPPED; off RUNNING nothing happens. A pop removes the top record and writes the depth, the record's bytes staying. -/
def Obligations.FaultStackPushesStopsAndPops : Prop :=
  ∀ (x : Exchange) (r : FaultRec) (c : AnchorCopy), x.anchor = some c →
    (x.state ≠ .running → x.push r = x)
    ∧ (x.state = .running → x.depth + r.size ≤ c.faultSize → c.faultSize ≤ c.faultTop → memWf x.mem = true →
        (c.faultTop ≤ c.base ∨ c.base + 256 ≤ c.faultTop - c.faultSize) →
        let y := x.push r
        let p := c.faultTop - x.depth - r.size
        y.stack = r :: x.stack ∧ y.state = .running ∧ y.cause = x.cause ||| causeFault
        ∧ memBytes y.mem p r.size = faultBytes r
        ∧ memNat y.mem (c.base + 0xA4) 4 = (x.depth + r.size) % 256 ^ 4
        ∧ (∀ l, memNat y.mem (c.base + descOffset l + 10) 1 = (y.laneState l).code)
        ∧ (∀ b, ¬(p ≤ b ∧ b < p + r.size) → ¬(c.base + 0xA4 ≤ b ∧ b < c.base + 0xA8) →
            (∀ l, b ≠ c.base + descOffset l + 10) → memByte y.mem b = memByte x.mem b)
        ∧ ∀ l, y.lane l = x.lane l)
    ∧ (x.state = .running → c.faultSize < x.depth + r.size → memWf x.mem = true →
        let y := x.push r
        y.state = .stopped ∧ y.stack = x.stack ∧ y.cause = x.cause ||| causeStopped ∧ y.nextScan = none
        ∧ (∀ l, memNat y.mem (c.base + descOffset l + 10) 1 = 3)
        ∧ (∀ b, (∀ l, b ≠ c.base + descOffset l + 10) → memByte y.mem b = memByte x.mem b)
        ∧ ∀ l, y.lane l = x.lane l)
    ∧ (memWf x.mem = true → x.pop.stack = x.stack.tail ∧ memNat x.pop.mem (c.base + 0xA4) 4 = x.pop.depth % 256 ^ 4
        ∧ (∀ b, ¬(c.base + 0xA4 ≤ b ∧ b < c.base + 0xA8) → memByte x.pop.mem b = memByte x.mem b)
        ∧ (∀ l, x.pop.lane l = x.lane l) ∧ x.pop.cause = x.cause)

/-- RESUME on the top record in the order of R97: an empty stack, a format-3 record, a failed read, a superseded card record, a
format-1 record that reads as it was pushed (popped, and its lane released, R99), and one that does not (a format-3 record above
it and BAD_RECORD, R98). That RESUME's own frame is finished before the lane is released, and the depth that the format-3 record
holds, are the model's choices (log entries 36, 49). On an exchange that is not RUNNING the hand is emptied and the records stay (R95,
log entry 41). A LIVE card record is CardRecordIsResumed's. -/
def Obligations.ResumeTakesTheTopRecord : Prop :=
  ∀ (a : Ambient) (s : State), s.supply.held = false → s.frameBody .recovery = some .resume →
    let u := s.arrive a
    let top := u.xchg.topAddress
    (s.xchg.state ≠ .running → exec (.resume a) s = .next (State.rest { u with
      xchg := u.xchg.setLane .recovery { s.xchg.recovery with hand := none } }))
    ∧ (s.xchg.state = .running →
    (s.xchg.stack = [] → exec (.resume a) s = .next (u.finish .recovery .refused .nothingPending 0).rest)
    ∧ (∀ was3 code depth address t more, s.xchg.stack = .record was3 code depth address t :: more →
        exec (.resume a) s = .next (u.finish .recovery .refused .notResumable 0).rest)
    ∧ (∀ r more, s.xchg.stack = r :: more → (∀ was3 code depth address t, r ≠ .record was3 code depth address t) →
        readOk a.badReads top r.size = false →
        exec (.resume a) s = .next (u.finish .recovery .refused .fetchError 0).rest)
    ∧ (∀ e block serial clip entries cont t more, s.xchg.stack = .card e block serial clip entries cont false t :: more →
        readOk a.badReads top 96 = true →
        exec (.resume a) s = .next ((u.onXchg Exchange.pop).finish .recovery .done .superseded 0).rest)
    ∧ (∀ l p f code tag e t more, s.xchg.stack = .frame l p f code tag e t :: more → readOk a.badReads top 32 = true →
        (memBytes u.xchg.mem top 24 = (faultBytes (.frame l p f code tag e t)).take 24 →
          exec (.resume a) s = .next
            (((u.onXchg fun x => x.popForRetake l p).finish .recovery .done .ok 0).release l).rest)
        ∧ (memBytes u.xchg.mem top 24 ≠ (faultBytes (.frame l p f code tag e t)).take 24 →
          exec (.resume a) s = .next
            ((u.onXchg fun x => x.push (.record (memByte u.xchg.mem top == 3) ((memByte u.xchg.mem top).setWidth 16) u.xchg.depth
                (((u.xchg.hand .recovery).map (·.address)).getD 0) u.time)).finish .recovery .refused .badRecord 0).rest)))

/-- RESUME on a LIVE card record (R131 to R136): the record is good exactly when it reads, byte for byte, as R131 lists: the format,
the reason, the state, the serial, clip, block and time, exactly one continuation flag, each entry's source, block and count, no valid
flag newly set, and nothing in the places of entries it does not have; one that does not read so is kept
and a format-3 record pushed above it; one that does is popped, the CHUNK lane released, every entry whose valid flag was cleared
discarded, the grace stopped, and the valid entries written again at their blocks (RETRY), re-placed after the range is removed
(NEXT_EXTENT), or settled with the clip closing for CARD (CLOSE). The frame stays in hand until the resumption is over. The depth that a
format-3 record carries and the low three bits of the continuation byte are the model's inferences (log entries 49 and 37). -/
def Obligations.CardRecordIsResumed : Prop :=
  (∀ (m : Mem) (p : Nat) (e : CardOutcome) (block : Nat) (serial clip : Word) (es : List RecEntry) (cont : Continuation)
      (t : Time) (rs : List RecEntry) (k : Continuation), es.length ≤ 3 →
    let r : FaultRec := .card e block serial clip es cont true t
    checkRecord m p r = .cardGood rs k ↔
      memByte m p = 2 ∧ memNat m (p + 1) 1 = e.reasonCode ∧ memBytes m (p + 3) 21 = ((faultBytes r).drop 3).take 21
      ∧ ((memByte m (p + 2)).getLsbD 0 = true ↔ k = .retry) ∧ ((memByte m (p + 2)).getLsbD 1 = true ↔ k = .nextExtent)
      ∧ ((memByte m (p + 2)).getLsbD 2 = true ↔ k = .close)
      ∧ (∀ i x, es[i]? = some x →
          memNat m (p + 25 + 16 * i) 1 = x.source.code ∧ memNat m (p + 28 + 16 * i) 4 = x.block
          ∧ memNat m (p + 32 + 16 * i) 4 = x.count ∧ (memByte m (p + 24 + 16 * i) ≠ 0 → x.valid = true)
          ∧ rs[i]? = some { x with valid := memByte m (p + 24 + 16 * i) != 0 })
      ∧ (∀ i, es.length ≤ i → i < 3 → memByte m (p + 24 + 16 * i) = 0 ∧ memNat m (p + 25 + 16 * i) 1 = 0
          ∧ memNat m (p + 28 + 16 * i) 4 = 0 ∧ memNat m (p + 32 + 16 * i) 4 = 0)
      ∧ rs.length = es.length)
  ∧ ∀ (a : Ambient) (s : State), s.supply.held = false → s.frameBody .recovery = some .resume → s.xchg.state = .running →
    let u := s.arrive a
    let top := u.xchg.topAddress
    ∀ e block serial clip es cont t more, s.xchg.stack = .card e block serial clip es cont true t :: more →
      readOk a.badReads top 96 = true →
      ((∀ rs k, checkRecord u.xchg.mem top (.card e block serial clip es cont true t) ≠ .cardGood rs k) →
        exec (.resume a) s = .next
          ((u.onXchg fun x => x.push (.record (memByte u.xchg.mem top == 3) ((memByte u.xchg.mem top).setWidth 16) u.xchg.depth
              (((u.xchg.hand .recovery).map (·.address)).getD 0) u.time)).finish .recovery .refused .badRecord 0).rest)
      ∧ ∀ rs k, checkRecord u.xchg.mem top (.card e block serial clip es cont true t) = .cardGood rs k →
        let v := (u.onXchg fun x => x.pop.startHand .recovery).release .chunk
        let w := (v.card.list.filter fun x => !rs.any fun r => r.source == x.source && r.valid).foldl (fun s x => s.discard x) v
        (k = .retry → exec (.resume a) s = .next (State.rest { w with card := { w.card with
            resumption := some false, grace := none
            list := (w.card.list.map fun x => { x with begun := false, resumed := true }) } }))
        ∧ (k = .nextExtent → exec (.resume a) s = .next (State.rest { w with
            card := { w.card with
              resumption := some false, grace := none
              list := (w.card.list.map fun x => { x with begun := false, resumed := true, awaiting := true }) }
            store := { w.store with matters := w.store.matters ++ [.removal serial block true] } }))
        ∧ (k = .close → ∃ z : State, exec (.resume a) s = .next z.rest ∧ z.card.resumption = some true ∧ z.card.grace = none
            ∧ (∀ x ∈ z.card.list, x.source = .tail ∧ x.resumed = true ∧ x.begun = false)
            ∧ (w.writer.state = .opened → z.writer.state = .closing ∧ z.writer.reason = .card ∧ z.writer.tailBy = .resumption)
            ∧ (w.writer.state = .closing → z.writer.state = .closing ∧ z.writer.reason = w.writer.reason
                ∧ z.writer.tailBy = .resumption)
            ∧ z.time = u.time ∧ z.supply = s.supply ∧ z.path = s.path)

/-- ABANDON pops the top record unread and acts by its internal format (R100, R140); on an empty stack it is refused. A held frame is
finished FAULTED with its reason, and one of the CHUNK lane leaves no repeat sequence (R107). For a LIVE card
record (R137) the packs of the list are discarded, their buffers EMPTY and their segments told, the FILLING buffer is given up with the
requests made for it, the TAIL entries stay to be written, at a new position where entry 1 is a tail, and a close with reason CARD
starts with the tail the port's. On an exchange that is not RUNNING the hand is emptied and the records stay (R95, log entry 41). A
re-placed tail splits nothing off, and an extent cut goes on (the model's choices, log entries 57 and 59); the FILLING buffer's position
counts as an unwritten pack (log entry 67), and a cut whose step 3 is under way goes on through it (log entry 65). -/
def Obligations.AbandonPopsTheTopRecord : Prop :=
  ∀ (a : Ambient) (s : State), s.supply.held = false → s.frameBody .recovery = some .abandon →
    let u := s.arrive a
    let v := u.onXchg Exchange.pop
    (s.xchg.state ≠ .running → exec (.abandon a) s = .next (State.rest { u with
      xchg := u.xchg.setLane .recovery { s.xchg.recovery with hand := none } }))
    ∧ (s.xchg.state = .running →
    (s.xchg.stack = [] → exec (.abandon a) s = .next (u.finish .recovery .refused .nothingPending 0).rest)
    ∧ (∀ was3 code depth address t more, s.xchg.stack = .record was3 code depth address t :: more →
        exec (.abandon a) s = .next (v.finish .recovery .done .ok 0).rest)
    ∧ (∀ l f code tag e t more, s.xchg.stack = .frame l .link f code tag e t :: more →
        exec (.abandon a) s = .next ((v.release l).finish .recovery .done .ok 0).rest)
    ∧ (∀ l f code tag e t more h, s.xchg.stack = .frame l .frame f code tag e t :: more → (s.xchg.lane l).held = some h →
        let given := v.onXchg fun x => (x.setLane l { (x.lane l) with held := none }).complete l h .faulted
          (match e with
            | .unknownFormat => .unknownFormat
            | .fetchError => .fetchError
            | .dataError => .dataError) 0
        let dropped : State := { given with writer := { given.writer with repeats := .empty } }
        exec (.abandon a) s = .next
          (((if l = .chunk then dropped else given).release l).finish .recovery .done .ok 0).rest)
    ∧ (∀ e block serial clip entries cont t more, s.xchg.stack = .card e block serial clip entries cont false t :: more →
        exec (.abandon a) s = .next (v.finish .recovery .done .superseded 0).rest)
    ∧ (∀ e block serial clip entries cont t more, s.xchg.stack = .card e block serial clip entries cont true t :: more →
        let r := v.release .chunk
        let packs := r.card.list.filter fun e => e.source != .tail
        let first := (r.card.list.head?.map fun e => e.source == .tail).getD false
        let freed (i : Fin 4) : Buf := if packs.any (fun e => e.source == .buf i) then .empty else r.writer.bufs.get i
        let settled : State := { r with
          card := { r.card with
            grace := none
            list := (r.card.list.filter fun e => e.source == .tail).map fun e =>
              { e with begun := false, resumed := false, awaiting := first, settling := true } }
          writer := { r.writer with bufs := { a0 := freed 0, a1 := freed 1, a2 := freed 2, a3 := freed 3 } }
          store := { r.store with
            table := r.store.table.map fun g =>
              { g with unwritten := g.unwritten + (packs.filter fun e => e.serial == g.serial).length }
            matters := r.store.matters ++ if first then [.replace .tail true true] else [] } }
        let w := settled.writer
        let given : State := match w.filling with
          | none => settled
          | some i =>
            let asked := settled.store.dropMatters fun m => match m with
              | .position _ => true
              | .replaceFilling _ => true
              | _ => false
            let unopened : Store := { asked.dropMatters (fun m => match m with
                | .opening .. => true
                | _ => false) with openIncidents := [], openIncidentCount := 0, openMark := none }
            let st := if w.extentCut then asked else unopened
            { settled with
              writer := { w with
                bufs := w.bufs.set i .empty
                cut := w.cut.filter fun c => c.reason == .extents || c.stage == .waitClose || c.stage == .handTail }
              store := (if (w.bufs.get i).pos.isSome then { st with table := st.table.map (fun g =>
                  if g.serial = (r.writer.seg.map (·.serial)).getD 0 then { g with unwritten := g.unwritten + 1 } else g) }
                else st) }
        let closed := given.startClose .card
        exec (.abandon a) s = .next (State.rest (State.finish { closed with
          writer := if closed.writer.state = .closing then { closed.writer with tailBy := .settlement } else closed.writer }
          .recovery .done .ok 0))))

/-- A frame command acts only on its own format's frame, in hand and not yet carried out; otherwise the command only arrives (the
model's choice, log entry 2). -/
def Obligations.FrameCommandsNeedTheirFrame : Prop :=
  ∀ (a : Ambient) (s : State), s.supply.held = false →
    let idle (i : Instr) : Prop := exec i s = .next (s.arrive a)
    let control (i : Instr) (own : Body → Prop) : Prop := (∀ b, s.frameBody .control = some b → ¬own b) → idle i
    let recovery (i : Instr) (own : Body → Prop) : Prop := (∀ b, s.frameBody .recovery = some b → ¬own b) → idle i
    control (.motionSetup a) (fun b => ∃ f, b = .motionSetup f)
    ∧ control (.reference a) (fun b => ∃ v, b = .reference v)
    ∧ control (.exposure a) (fun b => ∃ v, b = .exposure v)
    ∧ control (.statusAck a) (fun b => b = .statusAck)
    ∧ control (.route a) (fun b => ∃ k n, b = .route k n)
    ∧ control (.lineSetup a) (fun b => ∃ n r f h, b = .lineSetup n r f h)
    ∧ control (.timerSetup a) (fun b => ∃ n m r p, b = .timerSetup n m r p)
    ∧ control (.outputWrite a) (fun b => ∃ d p x y, b = .outputWrite d p x y)
    ∧ control (.clipOpen a) (fun b => ∃ f, b = .clipOpen f)
    ∧ control (.clipClose a) (fun b => b = .clipClose)
    ∧ control (.cardAttach a) (fun b => b = .cardAttach)
    ∧ control (.cardRead a) (fun b => ∃ f c h, b = .cardRead f c h)
    ∧ control (.cardWrite a) (fun b => ∃ f c h, b = .cardWrite f c h)
    ∧ control (.extentAdd a) (fun b => ∃ f c, b = .extentAdd f c)
    ∧ control (.extentWithdraw a) (fun b => ∃ f, b = .extentWithdraw f)
    ∧ control (.protect a) (fun b => ∃ n k, b = .protect n k)
    ∧ control (.chargeSetup a) (fun b => ∃ p c, b = .chargeSetup p c)
    ∧ control (.inputLimit a) (fun b => ∃ n, b = .inputLimit n)
    ∧ control (.loadClass a) (fun b => ∃ n, b = .loadClass n)
    ∧ control (.pathSet a) (fun b => ∃ n, b = .pathSet n)
    ∧ control (.powerState a) (fun b => ∃ n, b = .powerState n)
    ∧ recovery (.resume a) (fun b => b = .resume)
    ∧ recovery (.abandon a) (fun b => b = .abandon)
    ∧ (s.xchg.hand .chunk = none → idle (.chunk a))

/-! ## Motion -/

/-- MOTION_SETUP (R7, R21): a mount map that names no axis or one twice is refused BAD_FIELD; a changed rate or full scale is
refused BUSY unless the writer is IDLE; otherwise every field is applied as clamped (R13, R24, R33 to R35, R45), the port enters
STARTING where R4 says so, and a comparator left DISARMED gives its SHOCK_FALSE (R15). That the restart count is kept except from
FAILED is the model's choice (log entry 40). REFERENCE makes its three clamped values the pending software reference (R25) and
EXPOSURE its clamped value the exposure in effect (R46); both finish DONE and change nothing else of the part but the exchange. -/
def Obligations.MotionSetupReferenceAndExposure : Prop :=
  ((∀ axes signs, mountOf axes signs = none ↔
    (2 < axes.yaw ∨ 2 < axes.pitch ∨ 2 < axes.roll ∨ axes.yaw = axes.pitch ∨ axes.yaw = axes.roll ∨ axes.pitch = axes.roll))
  ∧ ∀ (a : Ambient) (s : State) (f : MotionFields), s.supply.held = false → s.frameBody .control = some (.motionSetup f) →
    let u := s.arrive a
    let m := s.motion
    let differs := rateOf f.rate != m.rate || (f.fullScale != 0) != m.dps2000
    (mountOf f.axes f.signs = none → exec (.motionSetup a) s = .next (u.finish .control .refused .badField 0))
    ∧ (mountOf f.axes f.signs ≠ none → differs = true → s.writer.state ≠ .idle →
        exec (.motionSetup a) s = .next (u.finish .control .refused .busy 0))
    ∧ ∀ mount, mountOf f.axes f.signs = some mount → (differs = true → s.writer.state = .idle) →
      ∃ n p, exec (.motionSetup a) s = .next (State.rest (State.finish
          (let v : State := { u with motion := n, path := p }
           if differs && m.port == .running && !m.armed then v.raise emit 0x0301 m.shockPeak else v) .control .done .ok 0))
        ∧ (n.rate = rateOf f.rate ∧ n.dps2000 = (f.fullScale != 0) ∧ n.shockHigh = max 1 (min 98304 f.shockHigh)
            ∧ n.quietLow = min (min 98304 f.quietLow) (n.shockHigh - 1) ∧ n.q = max 1 (min 255 f.q))
        ∧ (m.port = .off ∨ m.port = .failed ∨ differs = true → n.port = .starting ∧ n.imuPower = true
            ∧ n.settleEnd = some (u.time + 50000) ∧ n.reading = none ∧ n.waiting = none
            ∧ n.restarts = if m.port = .failed then 0 else m.restarts)
        ∧ (m.port ≠ .off → m.port ≠ .failed → differs = false → n.port = m.port ∧ n.settleEnd = m.settleEnd
            ∧ n.reading = m.reading ∧ n.waiting = m.waiting ∧ n.armed = m.armed ∧ n.restarts = m.restarts)
        ∧ n.ring = m.ring ∧ n.samples = m.samples
        ∧ p = { s.path with
            mount
            gain := max 1 (min 65535 f.gain)
            shifts := { yaw := min 12 f.shifts.yaw, pitch := min 12 f.shifts.pitch, roll := min 12 f.shifts.roll }
            focal := max 200 (min 8000 f.focal)
            mx := min 32767 f.mx
            my := min 32767 f.my
            rl := min 16777216 f.rl
            alert := f.alert.setWidth 10
            bands := max 1 (min 16 f.bands)
            readout := max 100 (min 100000 f.readout) })
  ∧ (∀ (a : Ambient) (s : State), s.supply.held = false →
    let u := s.arrive a
    (∀ v, s.frameBody .control = some (.reference v) → ∃ w, exec (.reference a) s =
        .next (State.finish { u with path := { s.path with pendingRef := some w } } .control .done .ok 0)
      ∧ w.yaw.toInt = max (-67108864) (min 67108864 v.yaw.toInt) ∧ w.pitch.toInt = max (-67108864) (min 67108864 v.pitch.toInt)
      ∧ w.roll.toInt = max (-67108864) (min 67108864 v.roll.toInt))
    ∧ ∀ us, s.frameBody .control = some (.exposure us) → exec (.exposure a) s =
        .next (State.finish { u with path := { s.path with exposure := min 500000 us } } .control .done .ok 0))

/-- The IMU port's times (R4, R5, R8): an edge latches its time only in RUNNING, the newest one waiting behind a read; the settle's
end is RUNNING entry; the end of LOST is STARTING; one second of RUNNING clears the restart count; a loss counts, and with three
restarts behind it is FAILED, with SHOCK_FALSE where the comparator was DISARMED (R15). -/
def Obligations.ImuPortTimes : Prop :=
  ∀ (a : Ambient) (s : State), s.supply.held = false →
    let u := s.arrive a
    let m := s.motion
    let put (n : Motion) : State := { u with motion := n }
    let period := if m.parked then 10000 else match m.rate with
      | .hz400 => 2500
      | .hz800 => 1250
      | .hz1600 => 625
      | .hz3200 => 312
    exec (.dataReadyEdge a) s = .next (if m.port ≠ .running then u
        else if m.reading = none then put { m with reading := some u.time } else put { m with waiting := some u.time })
    ∧ exec (.imuSettleEnd a) s = .next (if m.port = .starting ∧ dueAt u.time m.settleEnd = true then
        put { m with
          port := .running, settleEnd := none, runEntry := u.time, prev := none, average := period
          lossDeadline := some (u.time + BitVec.ofNat 48 (8 * period)) } else u)
    ∧ exec (.lostPowerOffEnd a) s = .next (if m.port = .lost ∧ dueAt u.time m.offEnd = true then
        put { m with
          port := .starting, imuPower := true, settleEnd := some (u.time + 50000), offEnd := none, lossDeadline := none
          reading := none, waiting := none } else u)
    ∧ exec (.runningOneSecond a) s = .next (if m.port = .running ∧ timeReached u.time (m.runEntry + 1000000) = true then
        put { m with restarts := 0 } else u)
    ∧ exec (.lossDeadline a) s = .next
        (if m.port = .running ∧ m.reading = none ∧ dueAt u.time m.lossDeadline = true then
          let n : Motion := { m with
            port := if m.restarts < 3 then .lost else .failed
            restarts := if m.restarts < 3 then m.restarts + 1 else m.restarts
            offEnd := if m.restarts < 3 then some (u.time + 10000) else none
            losses := m.losses + 1, imuPower := false, settleEnd := none, lossDeadline := none, reading := none, waiting := none
            armed := true, quiet := if m.armed then m.quiet else 0 }
          (if m.armed then put n else (put n).raise emit 0x0301 m.shockPeak).rest
        else u)

/-- The marks of a sample (R9, R10) and the period average (R11): the dt lies in 1..4095, the recorded time is later than the
previous one, the first sample carries GAP, and the average moves by a sixteenth of the difference toward dt. SAMPLE_READ_COMPLETE
(R5, R8, R12, R14, R16, R23, R48): in ACTIVE the sample is integrated, joins the ring with its marks and counts, the deadline moves, the
waiting read begins, the comparator is given the sample and its event reaches the sinks, and the pending entries are then examined; in
PARKED only the deadline and the comparator move, and the event of the comparator, which wakes the part where it is SHOCK_TRUE (R190),
is emitted; with no read in progress or out of RUNNING nothing happens. That the entries are examined behind the comparator's event is
the model's choice (log entry 10). -/
def Obligations.SampleMarksAndSampleReadComplete : Prop :=
  ((∀ (m : Motion) (t : Time),
    (m.prev = none → m.dt t = m.average ∧ m.recorded t = t ∧ m.gapMark t = true)
    ∧ (∀ p, m.prev = some p →
        m.dt t = max 1 (min 4095 (t - p).toNat)
        ∧ m.recorded t = (if t = p then p + 1 else t)
        ∧ (m.gapMark t = true ↔ (4095 < (t - p).toNat ∨ 4 * m.average < (t - p).toNat))
        ∧ 0 < (m.recorded t - p).toNat ∧ (m.gapMark t = false → (t - p).toNat ≤ 4095)))
  ∧ (∀ average dt : Nat, (average ≤ dt → moveAverage average dt = average + (dt - average) / 16)
      ∧ (dt ≤ average → moveAverage average dt = average - (average - dt) / 16))
  ∧ (∀ g : BitVec 16, clippedReading g = true ↔ (g.toInt = 32767 ∨ g.toInt = -32768))
  ∧ (∀ x : Sample, magnitude x = x.ax.toInt.natAbs + x.ay.toInt.natAbs + x.az.toInt.natAbs))
  ∧ (∀ (a : Ambient) (s : State) (x : Sample), s.supply.held = false →
    let u := s.arrive a
    let m := s.motion
    ((m.reading = none ∨ m.port ≠ .running) → exec (.sampleReadComplete a x) s = .next u)
    ∧ ∀ t, m.reading = some t → m.port = .running →
      -- the comparator given a sample's recorded time, and its event delivered (R14)
      let compared (n : Motion) (at_ : Time) (v : State) : State :=
        match n.compare at_ (magnitude x) with
        | (k, .nothing) => { v with motion := k }
        | (k, .begins) => emit { number := 0x0300, time := at_, arg := .num (magnitude x) } { v with motion := k }
        | (k, .ends) => emit { number := 0x0301, time := at_, arg := .num k.shockPeak } { v with motion := k }
      let turned (acc : Angle) (e : MapEntry) : Angle :=
        acc + BitVec.ofInt 32 (Sys2Proof.Machine.rotation (mappedRate e x.gx x.gy x.gz) (m.dt t) s.path.gain)
      let acc : Axes Angle :=
        { yaw := turned s.path.acc.yaw s.path.mount.yaw, pitch := turned s.path.acc.pitch s.path.mount.pitch
          roll := turned s.path.acc.roll s.path.mount.roll }
      let e : RingEntry :=
        { time := m.recorded t, dt := m.dt t, gx := x.gx, gy := x.gy, gz := x.gz, angles := acc, gap := m.gapMark t
          clipX := clippedReading x.gx, clipY := clippedReading x.gy, clipZ := clippedReading x.gz }
      let average := if e.gap then m.average else moveAverage m.average e.dt
      (s.supply.power = .active → exec (.sampleReadComplete a x) s = .next (State.rest (State.examineFor emit 4
        (compared { m with
            prev := some e.time, average, lossDeadline := some (e.time + BitVec.ofNat 48 (8 * average))
            ring := joinRing m.ring e
            samples := m.samples + 1
            gaps := if e.gap then m.gaps + 1 else m.gaps
            clipped := if e.clipX || e.clipY || e.clipZ then m.clipped + 1 else m.clipped
            reading := m.waiting, waiting := none } e.time { u with path := { s.path with acc } }))))
      ∧ (m.ring.length ≤ 64 → joinRing m.ring e = (m.ring ++ [e]).drop (m.ring.length + 1 - 64))
      ∧ (s.supply.power ≠ .active → exec (.sampleReadComplete a x) s = .next (State.rest
        (compared { m with lossDeadline := some (t + 80000), reading := m.waiting, waiting := none } t u)))
      -- the wakes of the comparator's two events (R190)
      ∧ (∀ v : State, v.supply.power = .parked → v.directWake 0x0300 = v.wake .shock ∧ v.directWake 0x0301 = v))

/-- The shock comparator (R14): what it becomes and what it emits at a sample with magnitude M. -/
def Obligations.ShockComparator : Prop :=
  ∀ (m : Motion) (t : Time) (M : Nat),
    (m.armed = true → m.shockHigh ≤ M →
      m.compare t M = ({ m with armed := false, quiet := 0, shockTime := t, shockPeak := M }, .begins))
    ∧ (m.armed = true → M < m.shockHigh → m.compare t M = (m, .nothing))
    ∧ (m.armed = false → m.quietLow < M →
        m.compare t M = ({ m with quiet := 0, shockPeak := max m.shockPeak M }, .nothing))
    ∧ (m.armed = false → M ≤ m.quietLow → m.q ≤ m.quiet + 1 → m.compare t M = ({ m with armed := true, quiet := 0 }, .ends))
    ∧ (m.armed = false → M ≤ m.quietLow → m.quiet + 1 < m.q → m.compare t M = ({ m with quiet := m.quiet + 1 }, .nothing))
    ∧ ∀ s : State, s.motion = m → s.supply.power ≠ .sleep →
      (m.armed = true → m.shockHigh ≤ M →
        s.events ++ [{ number := 0x0300, time := t, arg := .num M }] <+: (s.shockStep t M).events)
      ∧ (m.armed = false → M ≤ m.quietLow → m.q ≤ m.quiet + 1 →
        s.events ++ [{ number := 0x0301, time := t, arg := .num m.shockPeak }] <+: (s.shockStep t M).events)

/-! ## Path -/

/-- The mapped rate (R22): the reading of the axis named, as read or negated, the negation of the lowest saturated; always a
16-bit value. The CLIPPED marks of a history entry are those of the gyro axes as read. The roundings of the path unit: a rotation is
the nearest integer, a tie toward plus infinity (R23); a picture offset the nearest, a tie away from zero (R34); extrapolation and
interpolation truncate toward zero (R28, R29); the smoothing shift rounds down (R33); a margin angle is the floor of R36 and never
converts to more than its margin, and a push leaves exactly the margin angle (R36). -/
def Obligations.MappedRateAndRoundings : Prop :=
  (∀ (axis : GyroAxis) (gx gy gz : BitVec 16),
    let g := (match axis with
      | .x => gx
      | .y => gy
      | .z => gz).toInt
    mappedRate { axis, minus := false } gx gy gz = g
    ∧ mappedRate { axis, minus := true } gx gy gz = (if g = -32768 then 32767 else -g)
    ∧ (∀ minus, -32768 ≤ mappedRate { axis, minus } gx gy gz ∧ mappedRate { axis, minus } gx gy gz ≤ 32767)
    ∧ ∀ (m : Motion) (t : Time) (x : Sample) (angles : Axes Angle), x.gx = gx → x.gy = gy → x.gz = gz →
        ((m.entryOf t x angles).clipX = true ↔ (gx.toInt = 32767 ∨ gx.toInt = -32768))
        ∧ ((m.entryOf t x angles).clipY = true ↔ (gy.toInt = 32767 ∨ gy.toInt = -32768))
        ∧ ((m.entryOf t x angles).clipZ = true ↔ (gz.toInt = 32767 ∨ gz.toInt = -32768)))
  ∧ ((∀ (r : Int) (dt gain : Nat), 65536 * Sys2Proof.Machine.rotation r dt gain ≤ r * dt * gain + 32768
      ∧ r * dt * gain + 32768 < 65536 * Sys2Proof.Machine.rotation r dt gain + 65536)
  ∧ (∀ (c : Int) (f : Nat), 2 * (c * f - toPixels c f * 1048576).natAbs ≤ 1048576
      ∧ (2 * (c * f - toPixels c f * 1048576).natAbs = 1048576 → (c * f).natAbs < (toPixels c f * 1048576).natAbs))
  ∧ (∀ (m f : Nat), 0 < f → toPixels (marginAngle m f) f ≤ m ∧ marginAngle m f * f ≤ m * 1048576
      ∧ m * 1048576 < (marginAngle m f + 1) * f)
  ∧ (∀ (s a : Angle) (checked : Int) (margin angle : Nat),
      (checked.natAbs ≤ margin → pushAxis s a checked margin angle = (s, false))
      ∧ (margin < checked.natAbs → angle < 2147483648 →
          (pushAxis s a checked margin angle).2 = true
          ∧ ((pushAxis s a checked margin angle).1 - a).toInt = if 0 < (s - a).toInt then (angle : Int) else -(angle : Int)))
  ∧ (∀ (a b : Angle) (part whole : Nat), 0 < whole →
      interpolate a b part whole = a +
        BitVec.ofInt 32 (((b - a).toInt * part).sign * ((((b - a).toInt * part).natAbs / whole : Nat) : Int)))
  ∧ (∀ (a : Angle) (r : Int) (us gain : Nat),
      extrapolate a r us gain = a + BitVec.ofInt 32 (r.sign * ((r.natAbs * min us 4095 * gain / 65536 : Nat) : Int)))
  ∧ ∀ (s a : Angle) (k : Nat), smoothed s a k = s + BitVec.ofInt 32 ((a - s).toInt / 2 ^ k))

/-- Every record's offsets stay within the margins bound to its video frame, every offset of a NO_MOTION record is 0 (R37, R52); a
computed record's corrections stay within them too (R36), its smoothed path is the path unit's, and it has one entry a band; a
NO_MOTION record leaves the smoothed path as the references left it. The path value at a time (R28, R29, R30): of the newest entry at or
before it, interpolated toward the next entry unless that carries GAP, extrapolated behind the newest entry, the oldest entry's before
the ring and the accumulators' with an empty ring. A computed record (R32) is the path values at the centre and band times by those
rules, the smoothed path moved (R33) and pushed where the margin is passed (R36), each band clamped on its own (R37), the flags of R38
over the span of section 2.7, and the span's length. -/
def Obligations.RecordStaysWithinMargins : Prop :=
  -- the path value at a time (R28, R29, R30)
  (∀ (p : Path) (ring : List RingEntry) (t : Time),
    let value (x : Axes Angle) : Axes Angle :=
      { yaw := x.yaw + p.swref.yaw - p.hwref.yaw, pitch := x.pitch + p.swref.pitch - p.hwref.pitch
        roll := x.roll + p.swref.roll - p.hwref.roll }
    (ring = [] → p.at ring t = (value p.acc, .before))
    ∧ (∀ n more, ring = n :: more → (∀ r ∈ ring, timeReached t r.time = false) → p.at ring t = (value n.angles, .before))
    ∧ (∀ pre n, ring = pre ++ [n] → (∀ r ∈ ring, timeReached t r.time = true) →
        let held (x : Angle) (m : MapEntry) : Angle := extrapolate x (mappedRate m n.gx n.gy n.gz) (t - n.time).toNat p.gain
        let x := value n.angles
        p.at ring t = if t = n.time then (x, .inside)
          else ({ yaw := held x.yaw p.mount.yaw, pitch := held x.pitch p.mount.pitch, roll := held x.roll p.mount.roll }, .after))
    ∧ ∀ pre k l post, ring = pre ++ k :: l :: post → (∀ r ∈ pre ++ [k], timeReached t r.time = true) →
        timeReached t l.time = false →
        let x := value k.angles
        let y := value l.angles
        let toward (a b : Angle) : Angle := interpolate a b (t - k.time).toNat (l.time - k.time).toNat
        p.at ring t = (if t = k.time ∨ l.gap = true then x
          else { yaw := toward x.yaw y.yaw, pitch := toward x.pitch y.pitch, roll := toward x.roll y.roll }, .inside))
  -- the computed record (R27, R32 to R38, section 2.7)
  ∧ (∀ (p : Path) (ring : List RingEntry) (f : VFrame) (e : Ending), e.noMotion = false →
    let c := p.compute ring f e
    let q : Path := match f.recentre with
      | none => { p with swref := f.ref.getD p.swref }
      | some h => { p with swref := f.ref.getD p.swref, hwref := h, smooth := f.ref.getD p.swref, recentred := true }
    let at_ (t : Time) : Axes Angle := (q.at ring t).1
    let pixels (s a : Angle) : Int := toPixels (s - a).toInt f.focal
    let mid := at_ e.centre
    let yaw := smoothed q.smooth.yaw mid.yaw f.shifts.yaw
    let pitch := smoothed q.smooth.pitch mid.pitch f.shifts.pitch
    let roll := smoothed q.smooth.roll mid.roll f.shifts.roll
    let pushedYaw := pushAxis yaw mid.yaw (pixels yaw mid.yaw) f.mx (marginAngle f.mx f.focal)
    let pushedPitch := pushAxis pitch mid.pitch (pixels pitch mid.pitch) f.my (marginAngle f.my f.focal)
    let pushedRoll := pushAxis roll mid.roll (roll - mid.roll).toInt f.rl f.rl
    let s : Axes Angle := { yaw := pushedYaw.1, pitch := pushedPitch.1, roll := pushedRoll.1 }
    let held (margin : Nat) (x : Int) : Int := max (-(margin : Int)) (min margin x)
    let first := e.bands.headD e.centre
    let last := e.bands.getLastD e.centre
    let behind := ring.dropWhile fun r => !timeReached r.time first
    let span := behind.take ((behind.takeWhile fun r => !timeReached r.time last).length + 1)
    let sought := e.centre :: e.bands
    c.path = { q with smooth := s } ∧ c.record.smooth = s
    ∧ c.record.centre = e.centre ∧ c.record.exposure = f.exposure
    ∧ c.record.corrections =
        { yaw := pixels s.yaw mid.yaw, pitch := pixels s.pitch mid.pitch, roll := (s.roll - mid.roll).toInt }
    ∧ c.record.bands = e.bands.map (fun t =>
        { yaw := held f.mx (pixels s.yaw (at_ t).yaw), pitch := held f.my (pixels s.pitch (at_ t).pitch)
          roll := held f.rl (s.roll - (at_ t).roll).toInt })
    ∧ c.record.span = span.length
    ∧ (∀ i, c.pushed.getLsbD i = true ↔
        ((i = 0 ∧ pushedYaw.2 = true) ∨ (i = 1 ∧ pushedPitch.2 = true) ∨ (i = 2 ∧ pushedRoll.2 = true)))
    ∧ ∀ i, c.record.flags.getLsbD i = true ↔
        ((i = 0 ∧ (pushedYaw.2 = true ∨ ∃ t ∈ e.bands, f.mx < (pixels s.yaw (at_ t).yaw).natAbs))
        ∨ (i = 1 ∧ (pushedPitch.2 = true ∨ ∃ t ∈ e.bands, f.my < (pixels s.pitch (at_ t).pitch).natAbs))
        ∨ (i = 2 ∧ (pushedRoll.2 = true ∨ ∃ t ∈ e.bands, f.rl < (s.roll - (at_ t).roll).toInt.natAbs))
        ∨ (i = 3 ∧ ∃ r ∈ span, r.clipX = true ∨ r.clipY = true ∨ r.clipZ = true)
        ∨ (i = 4 ∧ ∃ r ∈ span, r.gap = true)
        ∨ (i = 5 ∧ ∃ t ∈ sought, (q.at ring t).2 = .after)
        ∨ (i = 6 ∧ ∃ t ∈ sought, (q.at ring t).2 = .before)
        ∨ (i = 7 ∧ f.assumed = true)))
  ∧ ∀ (p : Path) (ring : List RingEntry) (f : VFrame) (e : Ending),
    let c := p.compute ring f e
    (e.noMotion = false → 200 ≤ f.focal → f.mx ≤ 32767 → f.my ≤ 32767 → f.rl ≤ 16777216 →
      (∀ b ∈ c.record.bands, b.yaw.natAbs ≤ f.mx ∧ b.pitch.natAbs ≤ f.my ∧ b.roll.natAbs ≤ f.rl)
      ∧ c.record.corrections.yaw.natAbs ≤ f.mx ∧ c.record.corrections.pitch.natAbs ≤ f.my
      ∧ c.record.corrections.roll.natAbs ≤ f.rl
      ∧ c.record.bands.length = e.bands.length ∧ c.path.smooth = c.record.smooth)
    ∧ (e.noMotion = true →
        (∀ b ∈ c.record.bands, b.yaw = 0 ∧ b.pitch = 0 ∧ b.roll = 0) ∧ c.record.bands.length = f.bands
        ∧ c.record.corrections = { yaw := 0, pitch := 0, roll := 0 } ∧ c.record.span = 0 ∧ c.pushed = 0
        ∧ c.record.flags = 0x100 ||| (if f.assumed then 0x080 else 0)
        ∧ c.path.smooth = (if f.recentre.isSome then f.ref.getD p.swref else p.smooth))
    ∧ c.path.acc = p.acc ∧ c.path.swref = f.ref.getD p.swref ∧ c.path.hwref = f.recentre.getD p.hwref
    ∧ c.record.number = f.number ∧ c.record.start = f.start ∧ c.record.stop = e.stop

/-- A video frame starts and ends (R42, R43, R44, R47): the counter, the new OPEN entry with all that is bound to it, the times an
entry gains when it ends, a stray end; outside ACTIVE neither sink has an effect. A start that finds an OPEN entry ends it with its end
assumed at the nominal readout time (R50); one that finds one entry, OPEN or ENDED, then has the list examined, so that an entry ready at
once is produced (R48); one that finds two entries forces the older out, whose record is produced and counted
(R51), published or withheld as the exchange has it, its events delivered once the new entry stands in the list, in their order, and the
list then examined (the model's choice, log entry 10). An end finds its OPEN entry behind an entry that already stands in the list, too,
and then has the list examined (R48). -/
def Obligations.VideoFrameStartsAndEnds : Prop :=
  let opened (p : Path) (t : Time) : Path := { p with
    counter := p.counter + 1, pendingRef := none, recentre := false
    frames := p.frames ++ [{ number := p.counter + 1, start := t, ended := none, assumed := false, exposure := p.exposure
                             bands := p.bands, readout := p.readout, shifts := p.shifts, focal := p.focal, mx := p.mx, my := p.my
                             rl := p.rl, alert := p.alert, recentre := if p.recentre then some p.acc else none
                             ref := p.pendingRef }] }
  (∀ (t : Time) (s : State), s.supply.power ≠ .active → s.frameStart emit t = s ∧ s.frameEnd emit t = s)
  ∧ (∀ (t : Time) (s : State), s.supply.power = .active → s.path.frames = [] →
      s.frameStart emit t = { s with path := opened s.path t })
  ∧ (∀ (t : Time) (s : State) (f : VFrame), s.supply.power = .active → s.path.frames = [f] →
      let g := if f.ended = none then
          f.endAt (f.start + BitVec.ofNat 48 f.readout) s.motion.average (s.motion.port != .running) true
        else f
      let v : State := { s with path := opened { s.path with frames := [g] } t }
      s.frameStart emit t = State.examineFor emit 4 v
      ∧ ((∀ e, g.ended = some e → e.ready s.motion.ring s.time = false) → State.examineFor emit 4 v = v))
  ∧ (∀ (t : Time) (s : State) (f g : VFrame) (e : Ending), s.supply.power = .active → s.path.frames = [f, g] → f.ended = some e →
      f.number ≠ g.number → s.xchg.anchor = none → s.writer.state = .idle →
      s.router.routes.listening 0x0302 = [] → s.router.routes.listening 0x0303 = [] →
      let h := if g.ended = none then
          g.endAt (g.start + BitVec.ofNat 48 g.readout) s.motion.average (s.motion.port != .running) true
        else g
      (∀ k, h.ended = some k → k.ready s.motion.ring s.time = false) →
      let c := ({ s.path with frames := [f, h], forced := s.path.forced + 1 } : Path).compute s.motion.ring f e
      s.frameStart emit t = { s with
        path := opened { c.path with frames := [h], unpublished := c.path.unpublished + 1 } t
        events := s.events ++ (if c.pushed = 0 then [] else [{ number := 0x0302, time := s.time, arg := .frame f.number c.pushed }])
          ++ [{ number := 0x0303, time := s.time, arg := .frame f.number c.record.flags }] })
  -- an entry forced out whatever the exchange does and whoever listens
  ∧ (∀ (t : Time) (s : State) (f g : VFrame) (e : Ending), s.supply.power = .active → s.path.frames = [f, g] → f.ended = some e →
      let h := if g.ended = none then
          g.endAt (g.start + BitVec.ofNat 48 g.readout) s.motion.average (s.motion.port != .running) true
        else g
      let c := ({ s.path with frames := [f, h], forced := s.path.forced + 1 } : Path).compute s.motion.ring f e
      let kept : Path := { c.path with frames := [f, h].filter fun g => g.number != f.number }
      let pushed : List Event :=
        if c.pushed = 0 then [] else [{ number := 0x0302, time := s.time, arg := .frame f.number c.pushed }]
      let delivered (ev : List Event) (v : State) : State :=
        State.examine emit (ev.foldl (fun t x => emit x t) { v with path := opened v.path t })
      ((s.xchg.anchor = none ∨ s.xchg.state ≠ .running) → s.frameStart emit t =
        delivered (pushed ++ [{ number := 0x0303, time := s.time, arg := .frame f.number c.record.flags }])
          (State.handMotion c.record { s with path := { kept with unpublished := c.path.unpublished + 1 } }))
      ∧ ∀ (a : AnchorCopy) (k : Word), s.xchg.anchor = some a → s.xchg.state = .running → s.xchg.consumed = some k →
        let late := decide (a.warpSlots ≤ (f.number - k).toNat)
        let w : WarpRecord := { c.record with flags := c.record.flags ||| (if late then 0x200 else 0) }
        let found := w.flags &&& f.alert
        let slot := a.warpBase + 192 * (f.number.toNat % a.warpSlots)
        let x := (s.xchg.writeWarp slot w).request causeWarp
        s.frameStart emit t = delivered
          (pushed ++ (if found = 0 then [] else [{ number := 0x0304, time := s.time, arg := .frame f.number found }])
            ++ [{ number := 0x0303, time := s.time, arg := .frame f.number w.flags }])
          (State.handMotion w { s with
            xchg := if found = 0 then x else x.request causeAlert
            path := { kept with
              accrued := c.path.accrued ||| w.flags
              overrun := if late then c.path.overrun + 1 else c.path.overrun } }))
  ∧ (∀ (t : Time) (s : State), s.supply.power = .active → (∀ f ∈ s.path.frames, f.ended ≠ none) →
      s.frameEnd emit t = { s with path := { s.path with stray := s.path.stray + 1 } })
  ∧ (∀ (t : Time) (s : State) (pre : List VFrame) (f : VFrame), s.supply.power = .active →
      s.path.frames = pre ++ [f] → (∀ g ∈ pre, g.ended ≠ none) → f.ended = none →
      let ended := f.endAt t s.motion.average (s.motion.port != .running) false
      let v : State := { s with path := { s.path with frames := pre ++ [ended] } }
      s.frameEnd emit t = v.examine emit
      ∧ (∀ g e, (pre ++ [ended]).head? = some g → g.ended = some e → e.ready s.motion.ring s.time = false → v.examine emit = v))
  ∧ ∀ (f : VFrame) (stop : Time) (average : Nat) (noMotion assumed : Bool),
      let d := (stop - f.start).toNat
      ∃ e, f.endAt stop average noMotion assumed = { f with ended := some e, assumed }
        ∧ e.stop = stop ∧ e.noMotion = noMotion ∧ e.bands.length = f.bands
        ∧ (∀ b, b < f.bands → e.bands[b]? = some
            (f.start + BitVec.ofNat 48 ((2 * b + 1) * d / (2 * f.bands)) - BitVec.ofNat 48 (f.exposure / 2)))
        ∧ e.centre = f.start + BitVec.ofNat 48 (d / 2) - BitVec.ofNat 48 (f.exposure / 2)
        ∧ (0 < f.bands → ∃ last, e.bands[f.bands - 1]? = some last ∧ e.deadline = last + BitVec.ofNat 48 (3 * average))

/-- EXTRAPOLATION_DEADLINE (R48, R49, R55): the oldest entry, when it is ENDED and ready, is produced and leaves the list, its record
announced; with the exchange OFF its publication is withheld and counted (R57), on a RUNNING exchange it is written into its slot, WARP
and, for a flag of the alert mask, ALERT are asked for and the flags accrue (R39, R40, R54, R56); the record is handed on to the clip
(R58). The list is then examined again. Otherwise nothing is produced. The events of a production are delivered when it is whole, in the
order in which it raises them (the model's choice, log entry 10). An ENDED entry is ready when it is marked NO_MOTION, when the ring
holds an entry later than its last band time, or when its deadline has been reached (R48, R49); of two part times one has reached the
other when it lies less than half the range behind it (the model's choice, log entry 3). -/
def Obligations.ExtrapolationDeadline : Prop :=
  -- when an ENDED entry is ready (R48, R49)
  (∀ (e : Ending) (ring : List RingEntry) (now : Time),
    let last := e.bands.getLastD e.centre
    e.ready ring now = true ↔
      (e.noMotion = true ∨ (∃ r ∈ ring, timeReached r.time last = true ∧ r.time ≠ last) ∨ timeReached now e.deadline = true))
  ∧ (∀ t t0 : Time, timeReached t t0 = true ↔ (t - t0).toNat < 2 ^ 47) ∧
  -- the list examined, whatever the exchange does and whoever listens
  (∀ (s : State) (n : Nat),
    State.examineFor emit 0 s = s
    ∧ s.examine emit = State.examineFor emit 4 s
    ∧ ((∀ f more e, s.path.frames = f :: more → f.ended = some e → e.ready s.motion.ring s.time = false) →
      State.examineFor emit n s = s)
    ∧ ∀ f more e, s.path.frames = f :: more → f.ended = some e → e.ready s.motion.ring s.time = true →
      let c := s.path.compute s.motion.ring f e
      let kept : Path := { c.path with frames := (f :: more).filter fun g => g.number != f.number }
      let pushed : List Event :=
        if c.pushed = 0 then [] else [{ number := 0x0302, time := s.time, arg := .frame f.number c.pushed }]
      let delivered (ev : List Event) (v : State) : State := State.examineFor emit n (ev.foldl (fun t x => emit x t) v)
      ((s.xchg.anchor = none ∨ s.xchg.state ≠ .running) → State.examineFor emit (n + 1) s =
        delivered (pushed ++ [{ number := 0x0303, time := s.time, arg := .frame f.number c.record.flags }])
          (State.handMotion c.record { s with path := { kept with unpublished := c.path.unpublished + 1 } }))
      ∧ ∀ (a : AnchorCopy) (k : Word), s.xchg.anchor = some a → s.xchg.state = .running → s.xchg.consumed = some k →
        let late := decide (a.warpSlots ≤ (f.number - k).toNat)
        let w : WarpRecord := { c.record with flags := c.record.flags ||| (if late then 0x200 else 0) }
        let found := w.flags &&& f.alert
        let slot := a.warpBase + 192 * (f.number.toNat % a.warpSlots)
        let x := (s.xchg.writeWarp slot w).request causeWarp
        State.examineFor emit (n + 1) s = delivered
          (pushed ++ (if found = 0 then [] else [{ number := 0x0304, time := s.time, arg := .frame f.number found }])
            ++ [{ number := 0x0303, time := s.time, arg := .frame f.number w.flags }])
          (State.handMotion w { s with
            xchg := if found = 0 then x else x.request causeAlert
            path := { kept with
              accrued := c.path.accrued ||| w.flags
              overrun := if late then c.path.overrun + 1 else c.path.overrun } }))
  ∧ ∀ (a : Ambient) (s : State), s.supply.held = false →
    let u := s.arrive a
    exec (.extrapolationDeadline a) s = .next (State.rest (State.examineFor emit 4 u)) ∧
    ((∀ f more e, s.path.frames = f :: more → f.ended = some e → e.ready s.motion.ring u.time = false) →
      exec (.extrapolationDeadline a) s = .next u.rest)
    ∧ ∀ f e, s.path.frames = [f] → f.ended = some e → e.ready s.motion.ring u.time = true → s.xchg.anchor = none →
        s.writer.state = .idle → s.supply.power ≠ .sleep → s.router.routes.listening 0x0302 = [] →
        s.router.routes.listening 0x0303 = [] →
        let c := s.path.compute s.motion.ring f e
        exec (.extrapolationDeadline a) s = .next (State.rest { u with
          path := { c.path with frames := [], unpublished := c.path.unpublished + 1 }
          events := (if c.pushed = 0 then [] else [{ number := 0x0302, time := u.time, arg := .frame f.number c.pushed }])
            ++ [{ number := 0x0303, time := u.time, arg := .frame f.number c.record.flags }] })

/-- A record's ways out. Publication (R39, R54, R56, R57): on a RUNNING exchange the record's 192 bytes stand in slot f mod N and no
other byte of host memory changes, WARP is asked for, the flags accrue, and OVERRUN is carried and counted exactly when f minus the
consumed copy is N or more; off RUNNING the publication is withheld and counted. A record that carries a flag of its video frame's alert
mask emits one MOTION_ALERT with those flags, and then asks for ALERT; a record with none does neither (R40). In an OPEN clip that
records motion the record is handed on as a motion unit with its two counts (R58). The queue of four keeps its markers and loses motion
(R111); its oldest unit is placed at a unit boundary, never during a copy (R112); an incident reaches the storage map in every writer
state and makes a marker until the final pack is queued (R113). The model's choices: a unit is counted, and its time noted, in the
segment open when its header begins (log entry 66); the order of a record's production and publication (log entry 24); a marker of the
time between the queueing of the old pack and the answer to the old segment's close carries the old serial (log entry 73); no marker
once step 3 of a close is passed, its buffer given up empty (log entry 74). -/
def Obligations.RecordIsPublished : Prop :=
  (∀ (s : State) (r : WarpRecord) (alert : BitVec 10),
    ((s.xchg.anchor = none ∨ s.xchg.state ≠ .running) →
      s.publish emit r alert = ({ s with path := { s.path with unpublished := s.path.unpublished + 1 } }, r))
    ∧ ∀ (c : AnchorCopy) (k : Word), s.xchg.anchor = some c → s.xchg.state = .running → s.xchg.consumed = some k →
        memWf s.xchg.mem = true →
        let late := decide (c.warpSlots ≤ (r.number - k).toNat)
        let w : WarpRecord := { r with flags := r.flags ||| (if late then 0x200 else 0) }
        let slot := c.warpBase + 192 * (r.number.toNat % c.warpSlots)
        (s.publish emit r alert).2 = w
        ∧ (w.flags &&& alert = 0 →
            let t := (s.publish emit r alert).1
            memBytes t.xchg.mem slot 192 = warpBytes w
            ∧ (∀ b, (b < slot ∨ slot + 192 ≤ b) → memByte t.xchg.mem b = memByte s.xchg.mem b)
            ∧ t.xchg.cause = s.xchg.cause ||| causeWarp
            ∧ t.path = { s.path with
                accrued := s.path.accrued ||| w.flags
                overrun := if late then s.path.overrun + 1 else s.path.overrun }
            ∧ t = { s with xchg := t.xchg, path := t.path })
        ∧ (w.flags &&& alert ≠ 0 →
            let t := (s.publish emit r 0).1
            let told : Event := { number := 0x0304, time := s.time, arg := .frame r.number (w.flags &&& alert) }
            (s.publish emit r alert).1 = (emit told t).onXchg (fun x => x.request causeAlert)
            ∧ (s.router.routes.listening 0x0304 = [] → s.supply.power ≠ .sleep →
                (s.publish emit r alert).1 = { t with
                  events := s.events ++ [told]
                  xchg := t.xchg.request causeAlert }
                ∧ (s.publish emit r alert).1.xchg.cause = s.xchg.cause ||| causeWarp ||| causeAlert)))
  ∧ (∀ (s : State) (r : WarpRecord),
    (∀ c, s.writer.state = .opened → s.writer.clip = some c → c.streams.getLsbD 3 = true →
      s.handMotion r = { s with
        path := { s.path with clipCount := s.path.clipCount + 1 }
        writer := s.writer.enqueue
          { motion := true, time := r.start
            payload := warpBytes r ++ leBytes 4 r.span ++ leBytes 4 (s.path.clipCount + 1).toNat } })
    ∧ ((s.writer.state ≠ .opened ∨ s.writer.clip = none ∨ ∃ c, s.writer.clip = some c ∧ c.streams.getLsbD 3 = false) →
      s.handMotion r = s))
  ∧ (∀ (w : Writer) (u : QUnit),
    (w.queue.length < 4 → w.enqueue u = { w with queue := w.queue ++ [u] })
    ∧ (∀ pre m post, 4 ≤ w.queue.length → w.queue = pre ++ m :: post → m.motion = true → (∀ v ∈ pre, v.motion = false) →
        w.enqueue u = { w with queue := pre ++ post ++ [u], motionDropped := w.motionDropped + 1 })
    ∧ (4 ≤ w.queue.length → (∀ v ∈ w.queue, v.motion = false) →
        w.enqueue u = if u.motion = true then { w with motionDropped := w.motionDropped + 1 }
          else { w with markersDropped := w.markersDropped + 1 }))
  ∧ (∀ s : State,
    let w := s.writer
    let able := (w.state = .opened ∨ (w.state = .closing ∧ w.closing = .drain)) ∧ (∀ c, w.cut = some c → c.stage = .place)
      ∧ w.feed = [] ∧ (∀ j, w.job = some j → j.stage ≠ .copying)
      ∧ ∃ i, w.filling = some i ∧ (w.bufs.get i).pos ≠ none ∧ (w.bufs.get i).fill < 65536
    (¬able ∨ w.queue = [] → s.queueStep = none)
    ∧ ∀ u rest, able → w.queue = u :: rest →
      let counted (v : Six Word) : Six Word :=
        if u.motion then { v with motion := v.motion + 1 } else { v with marker := v.marker + 1 }
      let header := if u.motion then unitHeader .motion 0 w.seqs.motion u.payload.length u.time
        else unitHeader .marker 0 w.seqs.marker u.payload.length u.time
      s.queueStep = some { s with
        writer := { w with
          queue := rest
          placed := counted w.placed
          seg := w.seg.map fun g => { g with counts := counted g.counts }
          seqs := if u.motion then { w.seqs with motion := w.seqs.motion + 1 } else { w.seqs with marker := w.seqs.marker + 1 }
          -- of the header, the payload and its padding, those that have a byte to place
          feed := ([.bytes header, .bytes u.payload, .zeros ((4 - u.payload.length % 4) % 4)] : List Src).filter
            fun r => r.length != 0 }
        store := match s.store.openSeg with
          | some g => s.store.mapSeg g.serial fun h => h.noteTime u.time
          | none => s.store })
  ∧ ∀ (s : State) (t : Time) (source : BitVec 16),
    let told := s.store.incident s.time { time := t, peak := s.motion.shockPeak, source }
    let w := s.writer
    let takes := w.state = .opened ∨ (w.state = .closing ∧ (w.closing = .drain ∨ w.closing = .queue))
    let serial : Word := match s.store.opening, s.store.openSeg with
      | some n, _ => n
      | none, some g => g.serial
      | none, none => if w.cut = none then 0 else s.store.nextSerial
    let payload := leBytes 8 t.toNat ++ leBytes 4 s.motion.shockPeak ++ leBytes 4 serial.toNat ++ leBytes 2 source.toNat ++ [0, 0]
    (takes → s.takeIncident t source = { s with store := told, writer := w.enqueue { motion := false, time := t, payload } })
    ∧ (¬takes → s.takeIncident t source = { s with store := told })

/-! ## Router -/

/-- ROUTE (R62, R63, R64): the sinks by index, the numbers their owners raise, the three checks in their order, and the sink's entry
set with every other entry as it was. -/
def Obligations.RouteIsCheckedAndSet : Prop :=
  (∀ n, sinkOf n = none ↔ 17 < n)
  ∧ (List.range 18).map sinkOf = [some .frameStart, some .frameEnd, some .recentre, some .incident, some .cut, some .close,
      some .pause, some .resume, some (.setLine 0), some (.setLine 1), some (.setLine 2), some (.setLine 3),
      some (.clearLine 0), some (.clearLine 1), some (.clearLine 2), some (.clearLine 3), some .wakeA, some .wakeB]
  ∧ (∀ (k : Sink) (n : BitVec 16), selfRaised k n = true ↔ n.toNat ∈
      match k with
      | .frameStart | .frameEnd | .recentre => [0x300, 0x301, 0x302, 0x303, 0x304]
      | .incident | .cut | .close => [0x400, 0x401, 0x402, 0x403, 0x404, 0x405, 0x406, 0x407]
      | .pause | .resume => [0x500, 0x501, 0x502, 0x503, 0x504, 0x507]
      | .setLine _ | .clearLine _ => []
      | .wakeA | .wakeB => [0x505, 0x506])
  ∧ (∀ (r : Routes) (k : Sink) (n : BitVec 16), (r.change k n).of k = n ∧ ∀ j, j ≠ k → (r.change k n).of j = r.of j)
  ∧ (∀ n : BitVec 16, isEventNumber n = true ↔ n.toNat ∈
      [0x100, 0x101, 0x102, 0x104, 0x105, 0x106, 0x108, 0x109, 0x10A, 0x10C, 0x10D, 0x10E, 0x200, 0x201, 0x202, 0x203,
       0x300, 0x301, 0x302, 0x303, 0x304, 0x400, 0x401, 0x402, 0x403, 0x404, 0x405, 0x406, 0x407,
       0x500, 0x501, 0x502, 0x503, 0x504, 0x505, 0x506, 0x507])
  ∧ ∀ (a : Ambient) (s : State) (index : Nat) (n : BitVec 16), s.supply.held = false →
    s.frameBody .control = some (.route index n) →
    let u := s.arrive a
    (17 < index → exec (.route a) s = .next (u.finish .control .refused .badField 0))
    ∧ ∀ k, sinkOf index = some k →
      (n ≠ 0 → isEventNumber n = false → exec (.route a) s = .next (u.finish .control .refused .badField 0))
      ∧ ((n = 0 ∨ isEventNumber n = true) → selfRaised k n = true →
          exec (.route a) s = .next (u.finish .control .refused .selfRoute 0))
      ∧ ((n = 0 ∨ isEventNumber n = true) → selfRaised k n = false → exec (.route a) s = .next (State.finish
          { u with router := { s.router with routes := s.router.routes.change k n } } .control .done .ok 0))

/-- LINE_SETUP (R67) and TIMER_SETUP (R68): an index above 3, and for a timer a mode or run code that names none, is refused
BAD_FIELD; otherwise the line's enables and holdoff are replaced and its times and count kept, the timer's period and mode are
replaced and it stops, starts from now, or keeps its next expiry. OUTPUT_WRITE (R72): a request code above 2 is refused BAD_FIELD with
levels and masks as they were; otherwise the masks are replaced when present, and each request is carried out against them or
ignored, with result MASKED when one was ignored. -/
def Obligations.LineTimerAndOutputFrames : Prop :=
  (∀ (a : Ambient) (s : State), s.supply.held = false →
    let u := s.arrive a
    let bad := u.finish .control .refused .badField 0
    (∀ n rise fall holdoff, s.frameBody .control = some (.lineSetup n rise fall holdoff) →
      (3 < n → exec (.lineSetup a) s = .next bad)
      ∧ ∀ h : n < 4, exec (.lineSetup a) s = .next (State.finish { u with
          router := { s.router with lines :=
            (s.router.lines.set ⟨n, h⟩ { (s.router.lines.get ⟨n, h⟩) with rise, fall, holdoff }) } } .control .done .ok 0))
    ∧ ∀ n mode run period, s.frameBody .control = some (.timerSetup n mode run period) →
      let p := max 1 (min 16777216 period)
      (3 < n ∨ 1 < mode ∨ 2 < run → exec (.timerSetup a) s = .next bad)
      ∧ ∀ h : n < 4, mode ≤ 1 → run ≤ 2 → exec (.timerSetup a) s = .next (State.finish { u with
          router := { s.router with timers :=
            (s.router.timers.set ⟨n, h⟩
              { period := p
                periodic := mode == 1
                next := if run = 0 then none else if run = 1 then some (u.time + BitVec.ofNat 48 p)
                  else (s.router.timers.get ⟨n, h⟩).next }) } } .control .done .ok 0))
  ∧ (∀ (a : Ambient) (s : State) (drives : Four Nat) (present : Bool) (sets clears : Byte), s.supply.held = false →
    s.frameBody .control = some (.outputWrite drives present sets clears) →
    let u := s.arrive a
    ((∃ n, 2 < drives.get n) → exec (.outputWrite a) s = .next (u.finish .control .refused .badField 0))
    ∧ ((∀ n, drives.get n ≤ 2) → ∃ (outs : Four OutLine) (masked : Bool),
        exec (.outputWrite a) s = .next (State.finish { u with router := { s.router with outs } } .control .done
          (if masked then .masked else .ok) 0)
        ∧ (∀ n, (outs.get n).hostSet = (if present then sets.getLsbD n.val else (s.router.outs.get n).hostSet)
            ∧ (outs.get n).hostClear = (if present then clears.getLsbD n.val else (s.router.outs.get n).hostClear)
            ∧ (outs.get n).high = (if drives.get n = 1 ∧ (outs.get n).hostSet = false then true
                else if drives.get n = 2 ∧ (outs.get n).hostClear = false then false
                else (s.router.outs.get n).high))
        ∧ (masked = true ↔ ∃ n, (drives.get n = 1 ∧ (outs.get n).hostSet = true)
            ∨ (drives.get n = 2 ∧ (outs.get n).hostClear = true))))

/-- INPUT_LINE_EDGE (R65, R66) and TIMER_EXPIRY (R69): no change of level is no edge; an edge not enabled is ignored; one inside the
holdoff of its own kind is counted; any other becomes its kind's last time and produces first its kind's event and then the
either-event. A due timer emits its event at its scheduled time and stops or is scheduled from that time. Delivery (R60): an emitted
event is taken by every sink whose route holds its number, each once, in an order that the command brings, the direct wake before or
after them; in SLEEP a block event reaches none (R74); an event emitted by a sink's action is delivered in turn, down to a depth of 12,
and waits beyond it (the model's choices, log entries 7, 8, 10). What each sink does with an event that reaches it: FRAME_START,
FRAME_END, RECENTRE (R26), INCIDENT (R113), CUT (R115), CLOSE (R118), SET and CLEAR (R71), PAUSE and
RESUME (R164, R177); the two wakes are SupplyFiltersAndWakes'. -/
def Obligations.LineEdgeAndTimerExpiry : Prop :=
  (∀ (a : Ambient) (s : State) (n : Fin 4), s.supply.held = false →
    let u := s.arrive a
    let l := s.router.lines.get n
    let put (v : InLine) : State := { u with router := { s.router with lines := s.router.lines.set n v } }
    (∀ level : Bool,
      let enabled := if level then l.rise else l.fall
      let last := if level then l.lastRise else l.lastFall
      let early : Prop := ∃ t, last = some t ∧ (u.time - t).toNat < l.holdoff
      let v : InLine := { l with level, since := u.time }
      (l.level = level → exec (.inputLineEdge a n level) s = .next u.rest)
      ∧ (l.level ≠ level → enabled = false → exec (.inputLineEdge a n level) s = .next (put v).rest)
      ∧ (l.level ≠ level → enabled = true → early →
          exec (.inputLineEdge a n level) s = .next (put { v with suppressed := l.suppressed + 1 }).rest)
      ∧ (l.level ≠ level → enabled = true → ¬early →
          let w : InLine := if level then { v with lastRise := some u.time } else { v with lastFall := some u.time }
          let arg : EvArg := .num (if level then 1 else 0)
          let kind : Event := { number := BitVec.ofNat 16 (0x100 + 4 * n.val + if level then 0 else 1), time := u.time, arg }
          let either : Event := { number := BitVec.ofNat 16 (0x102 + 4 * n.val), time := u.time, arg }
          exec (.inputLineEdge a n level) s = .next (emit either (emit kind (put w))).rest
          ∧ ∃ t, exec (.inputLineEdge a n level) s = .next t ∧ t.router.lines = s.router.lines.set n w
            ∧ [kind] <+: t.events ∧ either ∈ t.events))
    ∧ ((s.router.timers.get n).next = none → exec (.timerExpiry a n) s = .next u)
    ∧ ∀ e, (s.router.timers.get n).next = some e →
      (timeReached u.time e = false → exec (.timerExpiry a n) s = .next u)
      ∧ (timeReached u.time e = true → ∃ t, exec (.timerExpiry a n) s = .next t
          ∧ [{ number := BitVec.ofNat 16 (0x200 + n.val), time := e, arg := .num n.val }] <+: t.events
          ∧ t.router.timers = s.router.timers.set n { (s.router.timers.get n) with
              next := if (s.router.timers.get n).periodic then some (e + BitVec.ofNat 48 (s.router.timers.get n).period) else none }))
  -- delivery (R60, R74)
  ∧ (∀ (r : Routes) (n : BitVec 16), (r.listening n).Nodup ∧ ∀ k, k ∈ r.listening n ↔ n ≠ 0 ∧ r.of k = n)
  ∧ (∀ (s : State) (e : Event),
    let order := arrange s.race.sinks (s.router.routes.listening e.number)
    let silent := s.supply.power = .sleep ∧ 0x0300 ≤ e.number.toNat
    order.Perm (s.router.routes.listening e.number)
    ∧ ∀ n,
      let told (v : State) : State := { v with events := v.events ++ [e] }
      let sinks (v : State) : State := order.foldl (fun t k => t.act (emitFor n) k e) v
      (s.race.directFirst = false → silent → emitFor (n + 1) e s = s.directWake e.number)
      ∧ (s.race.directFirst = false → ¬silent → emitFor (n + 1) e s = (sinks (told s)).directWake e.number)
      ∧ (s.race.directFirst = true → silent → emitFor (n + 1) e s = s.directWake e.number)
      ∧ (s.race.directFirst = true → ¬silent → emitFor (n + 1) e s = sinks (told (s.directWake e.number))))
  ∧ (∀ (s : State) (e : Event), emitFor 0 e s = { s with backlog := s.backlog ++ [e] })
  ∧ emit = emitFor 12
  -- the sinks' actions
  ∧ ∀ (f : Emit) (e : Event) (s : State),
    let acts (k : Sink) (t : State) : Prop := s.act f k e = t
    let drives (n : Fin 4) (high : Bool) : State :=
      { s with router := { s.router with outs := s.router.outs.set n { s.router.outs.get n with high } } }
    let paused (on : Bool) : State := { s with charger := { s.charger with hostPause := on } }
    acts .frameStart (s.frameStart f e.time) ∧ acts .frameEnd (s.frameEnd f e.time)
    ∧ acts .recentre { s with path := { s.path with recentre := true } }
    ∧ acts .incident (s.takeIncident e.time e.number)
    ∧ acts .cut (if s.writer.state = .opened then { s with writer := { s.writer with cutRequest := true } } else s)
    ∧ acts .close (s.startClose .closeSink)
    ∧ (∀ n, acts (.setLine n) (drives n true) ∧ acts (.clearLine n) (drives n false))
    ∧ (s.charger.hostPause = true → acts .pause s)
    ∧ (s.charger.hostPause = false → acts .resume s)
    ∧ (s.charger.hostPause = false →
      (s.charger.state.charging = true → acts .pause (State.raise f 0x0503 0 { s with
        charger := { s.charger with
          hostPause := true, state := .paused .host, driven := 0, term := if s.charger.state = .taper then 0 else s.charger.term }
        xchg := { s.xchg with refreshAsked := true } }))
      ∧ (s.charger.state = .paused .host → acts .pause (paused true))
      ∧ (∀ r, s.charger.state = .paused r → r ≠ .host → acts .pause (State.raise f 0x0503 0 { s with
        charger := { s.charger with hostPause := true, state := .paused .host, driven := 0 }
        xchg := { s.xchg with refreshAsked := true } }))
      ∧ (s.charger.state.charging = false → (∀ r, s.charger.state ≠ .paused r) → acts .pause (paused true)))
    ∧ (s.charger.hostPause = true →
      ((∀ r, s.charger.state ≠ .paused r) → s.charger.state.charging = false → acts .resume (paused false))
      ∧ acts .resume (s.runCharger f fun w => ({ w with c := { w.c with hostPause := false } } : Work).pauseTests s.supply.mode))

/-! ## Clips -/

/-- CLIP_OPEN (R102, R103): its five checks in order, and what it leaves when it passes them. -/
def Obligations.ClipOpenIsCheckedAndTaken : Prop :=
  ∀ (a : Ambient) (s : State) (f : ClipFields), s.supply.held = false → s.frameBody .control = some (.clipOpen f) →
    let u := s.arrive a
    let refused (r : Result) : Prop := exec (.clipOpen a) s = .next (u.finish .control .refused r 0)
    let mask := f.streams.getLsbD 0 = true ∧ f.streams.toNat < 16
    let card := s.card.state = .ready ∨ s.card.state = .writing ∨ s.card.state = .busy
    let low := s.supply.lowBattery = true ∨ s.supply.dieHot = true
    let releasable := ∃ g ∈ s.store.table, g.phase = .complete ∧ g.owner = none
    let room := (s.store.table.length < 16 ∨ releasable) ∧ (s.store.pool ≠ [] ∨ (f.loop = true ∧ releasable))
    let idle := s.writer.state = .idle
    (¬idle → refused .busy)
    ∧ (idle → ¬mask → refused .badField)
    ∧ (idle → mask → ¬card → refused .noCard)
    ∧ (idle → mask → card → low → refused .lowPower)
    ∧ (idle → mask → card → ¬low → ¬room → refused .noSpace)
    ∧ (idle → mask → card → ¬low → room → ∃ w, exec (.clipOpen a) s = .next (State.rest (State.look .chunk (State.finish
          { u with
            writer := w
            path := { s.path with clipCount := 0 }
            store := { s.store with
              loops := { loop := f.loop, pre := min 120 f.pre, post := min 120 f.post, watermark := f.watermark }
              lowArmed := true
              nextSerial := s.store.nextSerial + 1
              matters := s.store.matters ++ [.opening s.store.nextSerial f.number 1] } } .control .done .ok 0)))
        ∧ w.state = .opened ∧ w.gate = true ∧ w.reason = .none ∧ w.cutRequest = false ∧ w.repeats = .empty ∧ w.seg = none
        ∧ w.clip = some { number := f.number, streams := f.streams.setWidth 4, loop := f.loop, watermark := f.watermark
                          duration := max 10 (min 600 f.duration), pre := min 120 f.pre, post := min 120 f.post }
        ∧ w.seqs = .all 0 ∧ w.placed = .all 0 ∧ w.chunksDropped = 0 ∧ w.motionDropped = 0 ∧ w.markersDropped = 0
        ∧ w.queue = s.writer.queue ∧ w.tail = s.writer.tail
        ∧ ∀ i, s.writer.spare = some i → w.bufs = s.writer.bufs.set i { st := .filling, fill := 0, pos := none, data := [] })

/-- CLIP_CLOSE (R118) and the start of a close (R119): refused under a format-2 record; NOT_OPEN in IDLE with the gate opened; a close
started in OPEN or joined in CLOSING with the frame kept in hand. The start shuts the gate, records the reason, clears the cut
request, refuses a CHUNK frame whose copy has not begun, which ends its repeat sequences (R107), and lets one whose copy has begun go
on; a cut in progress is turned into the close, except an extent cut or one whose step 3 has begun (R116; the second is the model's
choice, log entry 65); out of OPEN it does nothing. The steps of the close (R119), each when the one before has ended: the queue placed
and the final buffer padded, or given up empty with its position returned, and handed; every buffer EMPTY; the segment's close asked and
its tail built and handed, or left out where the port has the tail and the card is not READY (R135, R137); the end, with the CLIP_CLOSE
frame finished, event 0x0402 and the report. The model's choices: that test is made where the segment's close would be asked for, with
no position taken and nothing split off where it fails, and once more where the tail would be handed (log entry 46); an exactly full
FILLING buffer is the final pack once the drain ends, with no successor and no position asked for (log entry 78); the final pack of a
close that a settlement started is a pack like any other (log entry 68); the packs that the tail names are those used, its own among
them (log entry 27). -/
def Obligations.ClipCloseStartsTheClose : Prop :=
  (∀ (a : Ambient) (s : State), s.supply.held = false → s.frameBody .control = some .clipClose →
    let u := s.arrive a
    let record := ∃ e b n c es k l t, FaultRec.card e b n c es k l t ∈ s.xchg.stack
    (record → exec (.clipClose a) s = .next (u.finish .control .refused .faultPending 0))
    ∧ (¬record → s.writer.state = .idle → exec (.clipClose a) s = .next (State.rest (State.look .chunk (State.finish
        { u with writer := { s.writer with gate := true } } .control .done .notOpen 0))))
    ∧ (¬record → s.writer.state = .opened →
        exec (.clipClose a) s = .next (((u.onXchg fun x => x.startHand .control).startClose .host).rest))
    ∧ (¬record → s.writer.state = .closing → exec (.clipClose a) s = .next ((u.onXchg fun x => x.startHand .control).rest)))
  ∧ (∀ (r : CloseReason) (s : State), s.writer.state ≠ .opened → s.startClose r = s)
  ∧ (∀ (r : CloseReason) (s : State), s.writer.state = .opened →
      let t := s.startClose r
      t.writer.state = .closing ∧ t.writer.reason = r ∧ t.writer.gate = false ∧ t.writer.cutRequest = false
      ∧ t.writer.clip = s.writer.clip ∧ t.writer.queue = s.writer.queue ∧ t.writer.seg = s.writer.seg
      ∧ ((s.xchg.hand .chunk = none ∨ ∃ j, s.writer.job = some j ∧ j.stage = .copying) → t.writer.repeats = s.writer.repeats)
      ∧ (s.xchg.hand .chunk ≠ none → (∀ j, s.writer.job = some j → j.stage ≠ .copying) → t.writer.repeats = .empty)
      ∧ (s.writer.job = none → t.xchg = s.xchg.finish false s.time .chunk .refused .closing 0)
      ∧ (∀ j, s.writer.job = some j → j.stage ≠ .copying →
          t.writer.job = none ∧ t.xchg = s.xchg.finish false s.time .chunk .refused .closing 0)
      ∧ (∀ j, s.writer.job = some j → j.stage = .copying → t.xchg = s.xchg ∧ t.writer.job = some j)
      ∧ t.writer.cut = (s.writer.cut.filter fun c =>
            c.reason == .extents || c.stage == .waitClose || c.stage == .handTail).map (fun c => { c with outer := none })
      ∧ t.card = s.card ∧ t.charger = s.charger ∧ t.supply = s.supply ∧ t.motion = s.motion ∧ t.path = s.path)
  -- the steps (R119)
  ∧ (∀ s : State, s.writer.state ≠ .closing ∨ s.writer.cut ≠ none → s.closeStep = none)
  ∧ (∀ s : State, s.writer.state = .closing → s.writer.cut = none →
    let w := s.writer
    let steps (t : State) : Prop := s.closeStep = some t
    let waits : Prop := s.closeStep = none
    let goes (st : CloseStage) (v : Writer) : State := { s with writer := { v with closing := st } }
    let emptied (i : Fin 4) : Writer := { w with bufs := w.bufs.set i .empty }
    let asked := ∃ m ∈ s.store.matters, (∃ i, m = .position i) ∨ ∃ i, m = .replaceFilling i
    let replacing := ∃ i, Matter.replaceFilling i ∈ s.store.matters
    let gone := w.tailBy ≠ .assembler ∧ s.card.state ≠ .ready
    let entry (source : Source) (block count : Nat) (serial : Word) (settling : Bool) : Entry :=
      { source, block, count, serial, clip := w.clipNumber, begun := false, resumed := false, awaiting := false, settling }
    -- steps 2 and 3: the queue placed, the final buffer padded or given up, and handed
    (w.closing = .drain →
      ((w.feed ≠ [] ∨ w.job ≠ none) → waits)
      ∧ (w.feed = [] → w.job = none →
        (w.filling = none → steps (goes .waitWrites w))
        ∧ ∀ i, w.filling = some i →
          let b := w.bufs.get i
          (b.pos ≠ none → w.queue ≠ [] → waits)
          ∧ (b.pos = none → asked → waits)
          ∧ (((b.pos ≠ none ∧ w.queue = []) ∨ (b.pos = none ∧ ¬asked)) →
            (b.fill ≠ 0 → steps (goes .queue (w.pad s.time)))
            ∧ (b.fill = 0 → steps { goes .waitWrites (emptied i) with store :=
                match b.pos, w.seg with
                | some p, some g => s.store.returnPack g.serial p
                | _, _ => s.store }))))
    ∧ (w.closing = .queue →
      (w.filling = none → steps (goes .waitWrites w))
      ∧ ∀ i, w.filling = some i →
        let b := w.bufs.get i
        (∀ p, b.pos = some p → (s.listRoom = false → waits)
          ∧ (s.listRoom = true → steps { goes .waitWrites { w with bufs := w.bufs.set i { b with st := .queued } } with
              card := { s.card with list := s.card.list ++ [entry (.buf i) p 128 ((w.seg.map (·.serial)).getD 0) false] } }))
        ∧ (b.pos = none → (replacing → waits) ∧ (¬replacing → steps (goes .waitWrites (emptied i)))))
    -- step 4: every buffer EMPTY
    ∧ (w.closing = .waitWrites →
      let drained := (∀ i, (w.bufs.get i).st = .empty) ∧ w.tail.st = .empty
      (drained → steps (goes .askTail w)) ∧ (¬drained → waits))
    -- step 5: the segment's close and the tail
    ∧ (w.closing = .askTail →
      (w.seg = none → steps (goes .finish w))
      ∧ ∀ g, w.seg = some g → ∃ noTail : Bool, (noTail = true ↔ gone) ∧ steps { goes .waitTail w with store :=
          { s.store.mapSeg g.serial (fun h => h.noteClose s.time) with matters := s.store.matters ++ [.closing false noTail] } })
    ∧ (w.closing = .waitTail → waits)
    ∧ (w.closing = .handTail →
      (gone → steps { goes .finish { w with tail := .empty } with store := s.store.mapSeg w.tail.serial fun g => { g with tail := .missing } })
      ∧ (¬gone → (s.listRoom = false → waits)
        ∧ (s.listRoom = true → steps { goes .waitTailWrite { w with tail := { w.tail with st := .queued } } with
            card := { s.card with list := s.card.list ++
              [entry .tail w.tail.pos 1 w.tail.serial (w.tailBy == .settlement)] } })))
    ∧ (w.closing = .waitTailWrite → (w.tail.st = .empty → steps (goes .finish w)) ∧ (w.tail.st ≠ .empty → waits))
    -- step 6: the end
    ∧ (w.closing = .finish →
      let clip := w.clipNumber
      let report : ReportBody := .clipClosed clip w.reason w.placed w.chunksDropped w.motionDropped w.markersDropped
      let idle : State := { s with writer := { w with
        state := .idle, clip := none, queue := [], repeats := .empty, closing := .drain, tailBy := .assembler, seg := none } }
      let told (t : State) : State :=
        let v := State.raise emit 0x0402 clip.toNat t
        { v with store := v.store.offer s.time .clip report }
      (∀ f, s.xchg.hand .control = some f → f.started = true → f.body = .clipClose →
        steps (told (idle.finish .control .done .ok clip.toNat)))
      ∧ ((∀ f, s.xchg.hand .control = some f → f.started = false ∨ f.body ≠ .clipClose) → steps (told idle))))
  -- the answer to the close of a segment, for a cut and for a close (R116 step 3, R119 step 5, R148)
  ∧ ∀ (s : State) (g : SegInfo) (block : Nat), s.writer.seg = some g →
    let w := s.writer
    let built (reason : CutReason) : TailBuf :=
      let times := match s.store.seg g.serial with
        | some h => (h.start, h.stop, h.used)
        | none => (s.time, s.time, 0)
      { st := .built, pos := block, serial := g.serial
        data := memCells 0 (tailBytes w.clipNumber g.serial g.index reason w.reason times.2.2 g.counts w.seqs times.1 times.2.1) }
    s.closeAnswered false (some block) = { s with writer := { w with tail := built .close, seg := none, closing := .handTail } }
    ∧ s.closeAnswered false none = { s with writer := { w with seg := none, closing := .finish } }
    ∧ ∀ c, w.cut = some c →
      s.closeAnswered true (some block) = { s with writer := { w with
        tail := built c.reason, seg := none, cut := some { c with stage := .handTail } } }
      ∧ s.closeAnswered true none = { s with writer := { w with seg := none, cut := some { c with stage := .askOpen } } }

/-- CHUNK (R104), CHUNK_COPY_COMPLETE (R106) and CHUNK_PIECE_READ_ERROR (R107): the checks in their order, the job of a chunk that
passes, the last bytes placed and the finish with the unit's sequence, the data error that HOLDs the frame (R86), leaves of the unit its
header, the good bytes of host memory and zero bytes to be placed, and keeps the sequence for the repeat beside the other streams'. In
the middle of a copy a run, or as much of it as the FILLING buffer has room for, moves into that buffer while it has its position, and a
read of host memory in it that fails faults the frame (R106, R107); a full buffer with its position is queued and the lowest-numbered
EMPTY one becomes FILLING and asks for a position, when the card port's list has room (R109). The last part of a copy runs ahead to its
CHUNK_COPY_COMPLETE (the model's choice, log entry 12). -/
def Obligations.ChunkIsCheckedCopiedAndFaulted : Prop :=
  (∀ (a : Ambient) (s : State), s.supply.held = false →
    let u := s.arrive a
    (∀ h f, s.xchg.hand .chunk = some h → h.started = false → h.body = .chunk f →
      let total := (f.pieces.map (·.length)).sum
      let bad := f.count = 0 ∨ 4 < f.count ∨ (∃ p ∈ f.pieces, p.length = 0)
        ∨ (h.form = .wide ∧ 16777216 < total) ∨ 2 < f.stream
      let refused (r : Result) : Prop := exec (.chunk a) s = .next (State.rest (State.finish
        { u with writer := { s.writer with repeats := .empty } } .chunk .refused r 0))
      (bad → refused .badField)
      ∧ (¬bad → s.writer.state = .idle → refused .noClip)
      ∧ (¬bad → s.writer.state = .closing → refused .closing)
      ∧ (∀ c st, ¬bad → s.writer.state = .opened → s.writer.clip = some c → chunkStream f.stream = some st →
          (c.records st = false → refused .streamOff)
          ∧ (c.records st = true → s.writer.job = none → exec (.chunk a) s = .next (State.rest { u with
              xchg := u.xchg.startHand .chunk
              writer := { s.writer with job :=
                (some { stream := st, flags := f.flags, time := f.time, pieces := f.pieces, length := total, seq := 0
                        stage := .arrived }) } }))))
    ∧ (let feed := s.writer.feed
      let last := ∃ j i src rest, s.writer.job = some j ∧ j.stage = .copying ∧ s.writer.filling = some i ∧ feed = src :: rest
        ∧ (∀ l, src ≠ .bytes l) ∧ (s.writer.bufs.get i).pos ≠ none ∧ srcLength feed ≤ 65536 - (s.writer.bufs.get i).fill
      (¬last → exec (.chunkCopyComplete a) s = .next u)
      ∧ (∀ j i, last → s.writer.job = some j → s.writer.filling = some i →
          exec (.chunkCopyComplete a) s = .next (State.rest (State.finish { u with writer := { s.writer with
            bufs := s.writer.bufs.set i (feed.foldl (fun b src => match src with
              | .bytes l => { b with data := memWrite b.data b.fill l, fill := b.fill + l.length }
              | .host m n => { b with data := memCopy b.data b.fill u.xchg.mem m n, fill := b.fill + n }
              | .zeros n => { b with fill := b.fill + n }) (s.writer.bufs.get i))
            feed := [], job := none, repeats := .empty } } .chunk .done .ok j.seq.toNat)))
      ∧ ∀ good,
        let data := feed.flatMap fun src => match src with
          | .host m n => memBytes u.xchg.mem m n
          | _ => []
        let header := feed.flatMap fun src => match src with
          | .bytes l => l
          | _ => []
        ((∀ j, s.writer.job = some j → j.stage = .copying → data = []) → exec (.chunkPieceReadError a good) s = .next u)
        ∧ ∀ j, s.writer.job = some j → j.stage = .copying → data ≠ [] →
          exec (.chunkPieceReadError a good) s = .next (State.rest { u with
            xchg := (match s.xchg.hand .chunk with
              | some h => u.xchg.frameFault u.time .chunk .frame h.toHeld .dataError
              | none => u.xchg)
            writer := { s.writer with
              feed := ([.bytes header, .bytes (data.take good), .zeros (srcLength feed - header.length - min good data.length)]
                : List Src).filter fun r => r.length != 0
              job := none
              repeats := (match j.stream with
                | .main => { s.writer.repeats with main := some j.seq }
                | .proxy => { s.writer.repeats with proxy := some j.seq }
                | .audio => { s.writer.repeats with audio := some j.seq }
                | _ => s.writer.repeats) } })))
  -- the middle of a copy (R106, R107)
  ∧ (∀ s : State,
    let w := s.writer
    ((w.feed = [] ∨ w.filling = none) → s.feedStep = none)
    ∧ ∀ src rest i, w.feed = src :: rest → w.filling = some i →
      let b := w.bufs.get i
      let full := b.pos = none ∨ 65536 ≤ b.fill
      let last := (∃ j, w.job = some j ∧ j.stage = .copying) ∧ (∀ l, src ≠ .bytes l) ∧ srcLength w.feed ≤ 65536 - b.fill
      let moved (c : Buf) (more : List Src) : Option State := some { s with
        writer := { w with bufs := w.bufs.set i c, feed := more } }
      (∀ l m n, (Src.bytes l).length = l.length ∧ (Src.host m n).length = n ∧ (Src.zeros n).length = n)
      ∧ ((src = .bytes [] ∨ src = .zeros 0) → s.feedStep = some { s with writer := { w with feed := rest } })
      ∧ (0 < src.length → (full ∨ last) → s.feedStep = none)
      ∧ (0 < src.length → ¬full → ¬last →
        let room := 65536 - b.fill
        (∀ l, src = .bytes l → s.feedStep = moved
          { b with data := memWrite b.data b.fill (l.take room), fill := b.fill + min room l.length }
          (if l.length ≤ room then rest else .bytes (l.drop room) :: rest))
        ∧ (∀ n, src = .zeros n → s.feedStep = moved { b with fill := b.fill + min room n }
          (if n ≤ room then rest else .zeros (n - room) :: rest))
        ∧ ∀ m n, src = .host m n →
          let k := min room n
          ((readOk s.xchg.badReads m k = true ∨ w.job = none) → s.feedStep = moved
            { b with data := memCopy b.data b.fill s.xchg.mem m k, fill := b.fill + k }
            (if n ≤ room then rest else .host (m + k) (n - k) :: rest))
          ∧ (∀ j, readOk s.xchg.badReads m k = false → w.job = some j →
            let good := goodBytes s.xchg.badReads m k
            let data := w.feed.flatMap fun src => match src with
              | .host m n => memBytes s.xchg.mem m n
              | _ => []
            let header := w.feed.flatMap fun src => match src with
              | .bytes l => l
              | _ => []
            s.feedStep = some { s with
              xchg := (match s.xchg.hand .chunk with
                | some h => s.xchg.frameFault s.time .chunk .frame h.toHeld .dataError
                | none => s.xchg)
              writer := { w with
                feed := ([.bytes header, .bytes (data.take good)
                  , .zeros (srcLength w.feed - header.length - min good data.length)] : List Src).filter fun r => r.length != 0
                job := none
                repeats := (match j.stream with
                  | .main => { w.repeats with main := some j.seq }
                  | .proxy => { w.repeats with proxy := some j.seq }
                  | .audio => { w.repeats with audio := some j.seq }
                  | _ => w.repeats) } })))
  -- a full buffer (R109)
  ∧ ∀ s : State,
    let w := s.writer
    let allowed := (w.state = .opened ∨ (w.state = .closing ∧ w.closing = .drain)) ∧ (∀ c, w.cut = some c → c.stage = .place)
    let raw : Nat := match s.card.raw with
      | some r => if r.isWrite = true ∧ r.inFlight = true then 1 else 0
      | none => 0
    let room := s.card.list.length + raw < 3 ∧ s.xchg.liveRecord = false
    (∀ i j p, allowed → room → w.filling = some i → w.spare = some j → 65536 ≤ (w.bufs.get i).fill →
      (w.bufs.get i).pos = some p → s.fullStep = some { s with
        writer := { w with
          bufs := (w.bufs.set i { w.bufs.get i with st := .queued }).set j { st := .filling, fill := 0, pos := none, data := [] } }
        card := { s.card with list := s.card.list ++
          [{ source := .buf i, block := p, count := 128, serial := (w.seg.map (·.serial)).getD 0
             clip := w.clipNumber, begun := false, resumed := false, awaiting := false, settling := false }] }
        store := { s.store with matters := s.store.matters ++ [.position j] } })
    ∧ ((¬allowed ∨ ¬room ∨ w.spare = none
        ∨ ∀ i, w.filling = some i → (w.bufs.get i).fill < 65536 ∨ (w.bufs.get i).pos = none) → s.fullStep = none)

/-- Cuts: when one is due (R115) and its steps (R116). A chunk's frame at placing (R114): a MAIN frame waits for a buffer with its
position and no unit in progress, and the cut it causes is decided then (the model's choice, log entry 51); a PROXY frame that meets
a full staging is DROPPED at once; a frame judged is copied once the queued units are placed and no cut stands: its unit begins with the
header of R194, with REPEAT and the kept sequence where its stream's last unit was cut short (R107) and with the stream's next sequence
otherwise, and its payload and padding are to be placed (R106). The steps: the padding
with a FILLER unit or with zeros, the pack queued, the close asked for, the tail handed over once the tail buffer is free, the opening
asked for; a close that has turned a cut other than an extent cut into itself leaves the opening out, and its tail, once asked for, is
still handed as the cut's own (the model's choice, log entry 65). -/
def Obligations.CutsAreDueAndTaken : Prop :=
  -- the table of R115
  (∀ (s : State) (j : ChunkJob),
    let request := if s.writer.cutRequest = true then some CutReason.host else none
    ((s.writer.clip = none ∨ j.stream ≠ .main) → s.cutDue j = none)
    ∧ ∀ c, s.writer.clip = some c → j.stream = .main →
      ((s.store.openSeg = none ∨ ∃ g, s.store.openSeg = some g ∧ g.timed = false) → s.cutDue j = request)
      ∧ ∀ g, s.store.openSeg = some g → g.timed = true →
        let elapsed := if timeLater j.time g.start then timeSince j.time g.start else 0
        let point := j.flags.getLsbD 0
        s.cutDue j = (if point = true ∧ c.duration * 1000000 ≤ elapsed then some .time
          else if point = false ∧ (c.duration + 2) * 1000000 ≤ elapsed then some .forced else request))
  -- a chunk's frame at placing (R114, R115)
  ∧ (∀ (s : State) (j : ChunkJob), s.writer.job = some j →
    let judged : Writer := { s.writer with job := some { j with stage := .judged } }
    let full := ∃ i, s.writer.filling = some i ∧ 65536 ≤ (s.writer.bufs.get i).fill ∧ (s.writer.bufs.get i).pos ≠ none
      ∧ ¬(s.writer.spare ≠ none ∧ s.listRoom = true)
    (j.stage = .arrived → j.stream = .main →
      (s.writer.cut ≠ none ∨ s.writer.placing = none → s.jobStep = none)
      ∧ (s.writer.cut = none → s.writer.placing ≠ none →
          (s.cutDue j = none → s.jobStep = some { s with writer := judged })
          ∧ ∀ r, s.cutDue j = some r → s.jobStep = some { s with
              writer := { judged with cut := some { reason := r, stage := .place, outer := none }, cutRequest := false } }))
    ∧ (j.stage = .arrived → j.stream ≠ .main →
      ((j.stream = .proxy ∧ full) → s.jobStep = some (State.finish { s with
          writer := { s.writer with job := none, repeats := .empty, chunksDropped := s.writer.chunksDropped + 1 } }
          .chunk .dropped .stagingFull 0))
      ∧ (¬(j.stream = .proxy ∧ full) → s.jobStep = some { s with writer := judged }))
    ∧ (j.stage = .judged →
      (∀ i, s.writer.placing = some i → s.writer.cut = none → (s.writer.bufs.get i).fill < 65536 → s.writer.queue = [] →
          s.jobStep = some ({ s with writer := s.writer.startChunk j }.noteUnit j.time))
      ∧ ((s.writer.placing = none ∨ s.writer.cut ≠ none ∨ s.writer.queue ≠ []) → s.jobStep = none))
    ∧ (j.stage = .copying → s.jobStep = none))
  -- a chunk's unit begins (R106, R107, R194)
  ∧ (∀ (w : Writer) (j : ChunkJob),
    let kept : Option (BitVec 16) := match j.stream with
      | .main => w.repeats.main
      | .proxy => w.repeats.proxy
      | .audio => w.repeats.audio
      | _ => none
    let own : BitVec 16 := match j.stream with
      | .main => w.seqs.main
      | .proxy => w.seqs.proxy
      | .audio => w.seqs.audio
      | .motion => w.seqs.motion
      | .marker => w.seqs.marker
      | .filler => w.seqs.filler
    let seq := kept.getD own
    let flags := (if j.flags.getLsbD 0 then 1 else 0) + (if kept.isSome then 2 else 0)
    let header := leBytes 1 j.stream.code ++ leBytes 1 flags ++ leBytes 2 seq.toNat ++ leBytes 4 j.length ++ leBytes 8 j.time.toNat
    let counted (v : Six Word) : Six Word := match j.stream with
      | .main => { v with main := v.main + 1 }
      | .proxy => { v with proxy := v.proxy + 1 }
      | .audio => { v with audio := v.audio + 1 }
      | .motion => { v with motion := v.motion + 1 }
      | .marker => { v with marker := v.marker + 1 }
      | .filler => { v with filler := v.filler + 1 }
    let taken : Six (BitVec 16) := match j.stream with
      | .main => { w.seqs with main := own + 1 }
      | .proxy => { w.seqs with proxy := own + 1 }
      | .audio => { w.seqs with audio := own + 1 }
      | .motion => { w.seqs with motion := own + 1 }
      | .marker => { w.seqs with marker := own + 1 }
      | .filler => { w.seqs with filler := own + 1 }
    w.startChunk j = { w with
      placed := counted w.placed
      seg := w.seg.map fun g => { g with counts := counted g.counts }
      seqs := if kept.isSome then w.seqs else taken
      feed := ((.bytes header :: j.pieces.map (fun p => .host p.address p.length)) ++ [.zeros ((4 - j.length % 4) % 4)]
        : List Src).filter fun r => r.length != 0
      job := some { j with seq, stage := .copying } }
    ∧ [Stream.main, .proxy, .audio, .motion, .marker, .filler].map Stream.code = [0, 1, 2, 3, 4, 5])
  -- the padding of step 2 (R116)
  ∧ (∀ (w : Writer) (now : Time) (i : Fin 4), w.filling = some i →
    let b := w.bufs.get i
    let room := 65536 - b.fill
    (room = 0 → w.pad now = w)
    ∧ (0 < room → room < 16 → w.pad now = { w with bufs := w.bufs.set i { b with fill := b.fill + room } })
    ∧ (16 ≤ room → (w.pad now).bufs = w.bufs.set i { b with
          data := memWrite b.data b.fill (unitHeader .filler 0 w.seqs.filler (room - 16) now), fill := 65536 }
        ∧ (w.pad now).seqs = { w.seqs with filler := w.seqs.filler + 1 }
        ∧ (w.pad now).placed = { w.placed with filler := w.placed.filler + 1 }))
  -- the steps (R116)
  ∧ ∀ (s : State) (c : Cut), s.writer.cut = some c →
    let goes (w : Writer) (st : CutStage) : Writer := { w with cut := some { c with stage := st } }
    let ended (w : Writer) : Writer := { w with cut := none }
    let closing := s.writer.state = .closing ∧ c.reason ≠ .extents
    (c.stage = .place →
      (s.writer.queue = [] → s.writer.placing ≠ none → s.cutStep = some { s with writer := goes (s.writer.pad s.time) .queue })
      ∧ (s.writer.queue ≠ [] ∨ s.writer.placing = none → s.cutStep = none))
    ∧ (c.stage = .queue →
      (∀ i j, s.writer.filling = some i → s.writer.spare = some j →
        (s.listRoom = false ∨ (s.writer.bufs.get i).pos = none → s.cutStep = none)
        ∧ (∀ p, s.listRoom = true → (s.writer.bufs.get i).pos = some p → s.cutStep = some { s with
            writer := goes { s.writer with
              bufs := (s.writer.bufs.set i { s.writer.bufs.get i with st := .queued }).set j
                { st := .filling, fill := 0, pos := none, data := [] } } .askClose
            card := { s.card with list := s.card.list ++
              [{ source := .buf i, block := p, count := 128, serial := (s.writer.seg.map (·.serial)).getD 0
                 clip := s.writer.clipNumber, begun := false, resumed := false, awaiting := false, settling := false }] } }))
      ∧ (s.writer.filling = none ∨ s.writer.spare = none → s.cutStep = none))
    ∧ (c.stage = .askClose →
      (s.writer.seg = none → s.cutStep = some { s with writer := goes s.writer .askOpen })
      ∧ (∀ g, s.writer.seg = some g →
        (s.writer.tail.st ≠ .empty → s.cutStep = none)
        ∧ (s.writer.tail.st = .empty → s.cutStep = some { s with
            writer := goes s.writer .waitClose
            store := { s.store.mapSeg g.serial (fun h => h.noteClose s.time) with
              matters := s.store.matters ++ [.closing true false] } })))
    ∧ ((c.stage = .waitClose ∨ c.stage = .waitOpen) → s.cutStep = none)
    ∧ (c.stage = .handTail →
      (s.listRoom = false → s.cutStep = none)
      ∧ (s.listRoom = true → ∃ t, s.cutStep = some t
        ∧ t.writer = (let w : Writer := { s.writer with tail := { s.writer.tail with st := .queued } }
            if closing then ended w else goes w .askOpen)
        ∧ t.card = { s.card with list := s.card.list ++
            [{ source := .tail, block := s.writer.tail.pos, count := 1, serial := s.writer.tail.serial
               clip := s.writer.clipNumber, begun := false, resumed := false, awaiting := false, settling := false }] }
        ∧ t.store = s.store ∧ t.xchg = s.xchg))
    ∧ (c.stage = .askOpen →
      (closing → s.cutStep = some { s with writer := ended s.writer })
      ∧ (¬closing → s.cutStep = some { s with
          writer := goes s.writer .waitOpen
          store := { s.store with
            nextSerial := s.store.nextSerial + 1
            matters := s.store.matters ++
              [.opening s.store.nextSerial s.writer.clipNumber (s.writer.lastIndex + 1)] } }))

/-! ## Card -/

/-- The card's attach and detection (R122, R123): CARD_ATTACH by the card state, waiting in hand while a transfer drains, the three
ends of an attach, and a level of line 2 that has held for 10 ms making the card PRESENT or taking it away with its removal counted.
The model's choices in it: an answer later than 1,000 ms ends the attach as its limit does (log entry 52); a waiting raw frame ends
CARD_ERROR with value 3 for REMOVED (log entry 45) before the record of the write in flight is pushed (log entry 53); a removal is
counted once (log entry 17); an attach frame that waits for the drain is finished with the card gone (log entry 58). -/
def Obligations.CardAttachAndDetection : Prop :=
  ∀ (a : Ambient) (s : State), s.supply.held = false →
    let u := s.arrive a
    let k := s.card
    let put (c : Card) : State := { u with card := c }
    (s.frameBody .control = some .cardAttach →
      (k.state = .absent → exec (.cardAttach a) s = .next (u.finish .control .refused .noCard 0))
      ∧ ((k.state = .present ∨ k.state = .failed) → k.attaching = true →
          exec (.cardAttach a) s = .next (u.finish .control .done .attaching 0))
      ∧ ((k.state = .present ∨ k.state = .failed) → k.attaching = false →
          (k.draining = false → exec (.cardAttach a) s = .next ((put { k with
            state := .present, attaching := true, attachStart := some u.time }).finish .control .done .ok 0))
          ∧ (k.draining = true → exec (.cardAttach a) s = .next { u with
              card := { k with state := .present, attaching := true, attachStart := none }
              xchg := u.xchg.startHand .control }))
      ∧ ((k.state = .ready ∨ k.state = .writing ∨ k.state = .busy) →
          exec (.cardAttach a) s = .next (u.finish .control .done .alreadyReady 0)))
    ∧ (∀ capacity usable,
        ((k.attaching = false ∨ k.attachStart = none) → exec (.attachComplete a capacity usable) s = .next u)
        ∧ ∀ t, k.attaching = true → k.attachStart = some t →
            let late := timeLater u.time (t + 1000000)
            (late = true → exec (.attachComplete a capacity usable) s = .next (put { k with
              state := .failed, attaching := false, attachStart := none, attachResult := .noAnswer }))
            ∧ (late = false → usable = true → 128 ≤ capacity.toNat →
              exec (.attachComplete a capacity usable) s = .next (put { k with
              state := .ready, attaching := false, attachStart := none, attachResult := .ok, capacity := capacity.toNat }).rest)
            ∧ (late = false → (usable = false ∨ capacity.toNat < 128) →
              exec (.attachComplete a capacity usable) s = .next (put { k with
                state := .failed, attaching := false, attachStart := none, attachResult := .unusable })))
    ∧ (∀ t, k.attachStart = some t →
        (k.attaching = true → timeReached u.time (t + 1000000) = true → exec (.attachTimeout a) s = .next (put { k with
          state := .failed, attaching := false, attachStart := none, attachResult := .noAnswer }))
        ∧ ((k.attaching = false ∨ timeReached u.time (t + 1000000) = false) → exec (.attachTimeout a) s = .next u))
    ∧ (let l := s.router.lines.a2
       let held := 10000 ≤ (u.time - l.since).toNat
       (¬held → exec (.cardDetectChange a) s = .next u)
       ∧ (held → l.level = true → exec (.cardDetectChange a) s = .next (if k.state = .absent then put { k with
           state := .present, attaching := false, attachStart := none, attachResult := .none } else u))
       ∧ (held → l.level = false →
          (k.state = .absent → exec (.cardDetectChange a) s = .next u)
          ∧ (k.state = .present →
              let gone := put { k with
                removals := k.removals + 1, state := .absent, attaching := false, attachStart := none
                attachResult := if k.attaching then .removed else k.attachResult }
              ((∀ h, s.xchg.hand .control = some h → h.started = false ∨ h.body ≠ .cardAttach) →
                exec (.cardDetectChange a) s = .next gone.rest)
              ∧ (∀ h, s.xchg.hand .control = some h → h.started = true → h.body = .cardAttach →
                exec (.cardDetectChange a) s = .next (gone.finish .control .done .ok 0).rest))
          ∧ (k.state = .failed →
              exec (.cardDetectChange a) s = .next (put { k with removals := k.removals + 1, state := .absent }).rest)
          ∧ (k.state = .ready → exec (.cardDetectChange a) s = .next
              ((((put { k with removals := k.removals + 1, state := .absent, capacity := 0 }).dropRaw .done .cardError 3).startClose
                .card).rest))
          ∧ ((k.state = .writing ∨ k.state = .busy) →
              let waiting := (put { k with removals := k.removals + 1 }).dropRaw .done .cardError 3
              let ended := if k.rawFlying = true ∧ k.rawWriting = false then
                  State.rawEnded .removed { waiting with card := { waiting.card with state := .absent, busySince := none } }
                else waiting.writeEnded emit .removed .absent
              exec (.cardDetectChange a) s = .next
                ((State.startClose .card { ended with card := { ended.card with capacity := 0 } }).rest))))

/-- The writes of the list (R126, R127, R130): CARD_PROGRAMMING starts the busy limit, ACCEPTED takes the entry off the list and gives
its buffer back, the two failures are counted and make a card fault; with no write in flight nothing happens. An answer that comes
after the 500 ms of BUSY finds the write ended TIMEOUT. A card fault that fits makes the failed entry the first of a LIVE record, starts
the grace anew under LOW_BATTERY or DIE_HOT (R138), refuses a waiting raw frame, finishes a resumption's frame REFAULTED (R136) and
emits WRITER_FAULT; one that cannot be pushed is settled as CLOSE settles it, and the write of a settlement is discarded with no record
(R139); the re-placements of a resumption are withdrawn, while a removal that waits for report room is still made, with no
entry to re-place (R150, R158). The model's choices in it: no WRITER_FAULT without a push (log entry 54); the late answer (log
entry 52); CARD_WRITE_END and its prompt evaluation
come before the record is pushed and WRITER_FAULT after it (log entry 16); the outcome codes 0, 1, 2 are the event's argument (log
entry 45); such a removal leaves the record's entries at their blocks (log entry 57); a fresh record gives the tail of the close back to
the assembler (log entry 75). -/
def Obligations.CardWritesEnd : Prop :=
  (∀ (a : Ambient) (s : State), s.supply.held = false →
    let u := s.arrive a
    let k := s.card
    let put (c : Card) : State := { u with card := c }
    exec (.cardProgramming a) s = .next (if k.state = .writing ∧ k.writeFlying = true then
        put { k with state := .busy, busySince := some u.time } else u)
    ∧ ((k.writeFlying = false ∨ (k.state ≠ .writing ∧ k.state ≠ .busy)) →
        exec (.cardWriteAccepted a) s = .next u ∧ exec (.cardWriteError a) s = .next u ∧ exec (.cardBusyTimeout a) s = .next u)
    ∧ (k.state = .writing → exec (.cardWriteAccepted a) s = .next u ∧ exec (.cardBusyTimeout a) s = .next u)
    ∧ ∀ e, k.rawFlying = false → k.flying = some e →
      let ended (c : Card) (code : Int) (v : State → State) : State :=
        State.prompt emit (State.raise emit 0x0407 code (v (put { c with state := .ready, busySince := none })))
      let late : Prop := k.state = .busy ∧ ∃ t, k.busySince = some t ∧ timeLater u.time (t + 500000) = true
      let timedOut : State := ((ended { k with timeouts := k.timeouts + 1 } 2 id).cardFault emit .timeout e).rest
      (k.state = .busy → ¬late → exec (.cardWriteAccepted a) s = .next (ended
          { k with accepted := k.accepted + 1, list := k.list.filter fun o => o.source != e.source } 0
          (fun v => { v with
            writer := s.writer.giveBack e.source
            store := if e.source = .tail then s.store.tailWritten e.serial e.block else s.store })).rest)
      ∧ (¬late → exec (.cardWriteError a) s = .next
          ((ended { k with writeErrors := k.writeErrors + 1 } 1 id).cardFault emit .writeError e).rest)
      ∧ (late → exec (.cardWriteAccepted a) s = .next timedOut ∧ exec (.cardWriteError a) s = .next timedOut)
      ∧ ∀ t, k.state = .busy → k.busySince = some t → timeReached u.time (t + 500000) = true →
          exec (.cardBusyTimeout a) s = .next timedOut)
  -- a card fault (R130, R136, R138, R139)
  ∧ (∀ (s : State) (o : CardOutcome) (e : Entry),
    (e.settling = true → s.cardFault emit o e = { s with
      card := { s.card with list := s.card.list.filter fun x => x.source != e.source }
      writer := s.writer.giveBack e.source
      store := if e.source = .tail then s.store.mapSeg e.serial (fun g => { g with tail := .missing })
        else { s.store with
          table := s.store.table.map fun g => if g.serial = e.serial then { g with unwritten := g.unwritten + 1 } else g } })
    ∧ (e.settling = false →
      let list := (e :: s.card.list.filter fun x => x.source != e.source).map fun x =>
        { x with begun := false, resumed := false, awaiting := false }
      let r : FaultRec := .card o e.block e.serial e.clip
        (list.map fun x => { valid := true, source := x.source, block := x.block, count := x.count })
        (if o = .removed then .close else .retry) true s.time
      let pushed : State := { s with card := { s.card with list }, store := s.store.dropReplaces, xchg := s.xchg.push r }
      let refaulted (t : State) : State := if s.card.resumption.isSome then
          State.finish { t with card := { t.card with resumption := none } } .recovery .done .refaulted 0
        else t
      (s.xchg.fits r = true →
        let graced : State := { pushed with
          writer := { s.writer with tailBy := .assembler }
          card := { pushed.card with grace :=
            if s.supply.lowBattery = true ∨ s.supply.dieHot = true then some (s.time + 2000000) else s.card.grace } }
        ((s.card.raw = none ∨ ∃ j, s.card.raw = some j ∧ j.inFlight = true) →
          s.cardFault emit o e = State.raise emit 0x0405 o.reasonCode (refaulted graced))
        ∧ (∀ j, s.card.raw = some j → j.inFlight = false → s.cardFault emit o e = State.raise emit 0x0405 o.reasonCode
            (refaulted (State.finish { graced with card := { graced.card with raw := none } } .control .refused .faultPending 0))))
      ∧ (s.xchg.fits r = false →
        let t := refaulted pushed
        let packs := list.filter fun x => x.source != .tail
        let first := decide (e.source = .tail)
        let freed (i : Fin 4) : Buf := if packs.any (fun x => x.source == .buf i) then .empty else t.writer.bufs.get i
        let settled : State := { t with
          card := { t.card with list := (list.filter fun x => x.source == .tail).map fun x =>
            { x with awaiting := first, settling := true } }
          writer := { t.writer with bufs := { a0 := freed 0, a1 := freed 1, a2 := freed 2, a3 := freed 3 } }
          store := { t.store with
            table := t.store.table.map fun g =>
              { g with unwritten := g.unwritten + (packs.filter fun x => x.serial == g.serial).length }
            matters := t.store.matters ++ if first then [.replace .tail true true] else [] } }
        let closed := settled.startClose .card
        s.cardFault emit o e = { closed with
          writer := if closed.writer.state = .closing then { closed.writer with tailBy := .settlement } else closed.writer })))
  ∧ ∀ st : Store,
    st.dropReplaces = { st with matters := st.matters.filterMap fun m => match m with
      | .replace .. => none
      | .removal serial block _ => some (.removal serial block false)
      | m => some m }

/-- Raw transfers (R128, R129): the five checks of CARD_READ and CARD_WRITE in order, the raw slot, the reading of the host buffer and
its DATA_ERROR, the end of a raw read, with the card's blocks in host memory when it ended well, and the end of a raw write, in time,
by the 500 ms limit or refused while the card is WRITING (R126): CARD_WRITE_END, and the frame finished by its outcome. The model's
choices in it: an ACCEPTED raw transfer is not counted (log entry 44), CARD_ERROR's value is the outcome code (log entry 45), an answer
later than the limit finds the write ended TIMEOUT (log entry 52), and the event comes before the prompt evaluation (log entry 61). -/
def Obligations.RawTransfers : Prop :=
  ∀ (a : Ambient) (s : State), s.supply.held = false →
    let u := s.arrive a
    let record := ∃ e b n c es k l t, FaultRec.card e b n c es k l t ∈ s.xchg.stack
    let card := s.card.state = .ready ∨ s.card.state = .writing ∨ s.card.state = .busy
    let checks (i : Instr) (isWrite : Bool) (first count address : Nat) (after : State → State) : Prop :=
      let refused (r : Result) : Prop := exec i s = .next (u.finish .control .refused r 0)
      (record → refused .faultPending)
      ∧ (¬record → ¬card → refused .noCard)
      ∧ (¬record → card → (count = 0 ∨ 128 < count) → refused .badField)
      ∧ (¬record → card → 0 < count → count ≤ 128 → s.card.capacity < first + count → refused .outOfRange)
      ∧ (¬record → card → 0 < count → count ≤ 128 → first + count ≤ s.card.capacity → isWrite = true →
          (∃ e ∈ s.store.known, first < e.first + e.count ∧ e.first < first + count) → refused .overlap)
      ∧ (¬record → card → 0 < count → count ≤ 128 → first + count ≤ s.card.capacity →
          (isWrite = true → ∀ e ∈ s.store.known, ¬(first < e.first + e.count ∧ e.first < first + count)) →
          exec i s = .next (after { u with
            xchg := u.xchg.startHand .control
            card := { s.card with raw :=
              (some { isWrite, first, count, address, ready := !isWrite, inFlight := false, data := [] }) } }))
    (∀ first count address, s.frameBody .control = some (.cardRead first count address) →
      checks (.cardRead a) false first count address State.rest)
    ∧ (∀ first count address, s.frameBody .control = some (.cardWrite first count address) →
      checks (.cardWrite a) true first count address id)
    ∧ (∀ r, s.card.raw = some r → r.isWrite = true → r.ready = false →
      (readOk a.badReads r.address (r.count * 512) = true → exec (.rawBufferReadComplete a) s = .next (State.rest { u with
        card := { s.card with raw :=
          (some { r with ready := true, data := memCopy [] 0 u.xchg.mem r.address (r.count * 512) }) } }))
      ∧ (readOk a.badReads r.address (r.count * 512) = false → exec (.rawBufferReadComplete a) s = .next (State.rest { u with
          card := { s.card with raw := none }, xchg := u.xchg.dataFault u.time .control })))
    ∧ ((∀ r, s.card.raw = some r → (r.isWrite = false ∨ r.ready = true)) → exec (.rawBufferReadComplete a) s = .next u)
    ∧ (∀ r data, s.card.raw = some r → r.isWrite = false → r.inFlight = true →
      exec (.rawReadComplete a true data) s = .next (State.rest (State.finish { u with
        card := { s.card with state := .ready, raw := none }
        xchg := { u.xchg with mem := memCopy u.xchg.mem r.address (memOfCells data) 0 (r.count * 512) } } .control .done .ok 0))
      ∧ exec (.rawReadComplete a false data) s = .next (State.rest (State.finish { u with
          card := { s.card with state := .ready, raw := none, writeErrors := s.card.writeErrors + 1 } } .control .done .cardError 1)))
    ∧ (∀ ok data, (∀ r, s.card.raw = some r → (r.isWrite = true ∨ r.inFlight = false)) →
        exec (.rawReadComplete a ok data) s = .next u)
    ∧ (∀ r, s.card.raw = some r → r.isWrite = true → r.inFlight = true → s.card.state = .busy →
        (∀ t, s.card.busySince = some t → timeLater u.time (t + 500000) = false) →
        let ended (c : Card) (st : Status) (res : Result) (value : Nat) (code : Int) : State :=
          State.prompt emit (State.raise emit 0x0407 code (State.finish { u with card :=
            { c with state := .ready, busySince := none, raw := none } } .control st res value))
        exec (.cardWriteAccepted a) s = .next (ended s.card .done .ok 0 0).rest
        ∧ exec (.cardWriteError a) s =
            .next (ended { s.card with writeErrors := s.card.writeErrors + 1 } .done .cardError 1 1).rest)
    -- a raw write that times out, and one that the card refuses while WRITING (R126, R129)
    ∧ ∀ r, s.card.raw = some r → r.isWrite = true → r.inFlight = true →
        let failed (c : Card) (code : Nat) : State :=
          State.prompt emit (State.raise emit 0x0407 code (State.finish { u with card :=
            { c with state := .ready, busySince := none, raw := none } } .control .done .cardError code))
        let timedOut := failed { s.card with timeouts := s.card.timeouts + 1 } 2
        (∀ t, s.card.state = .busy → s.card.busySince = some t →
          (timeReached u.time (t + 500000) = true → exec (.cardBusyTimeout a) s = .next timedOut.rest)
          ∧ (timeReached u.time (t + 500000) = false → exec (.cardBusyTimeout a) s = .next u)
          ∧ (timeLater u.time (t + 500000) = true →
              exec (.cardWriteAccepted a) s = .next timedOut.rest ∧ exec (.cardWriteError a) s = .next timedOut.rest))
        ∧ (s.card.state = .writing →
          exec (.cardWriteError a) s = .next (failed { s.card with writeErrors := s.card.writeErrors + 1 } 1).rest
          ∧ exec (.cardWriteAccepted a) s = .next u ∧ exec (.cardBusyTimeout a) s = .next u
          ∧ exec (.cardProgramming a) s = .next { u with card := { s.card with state := .busy, busySince := some u.time } })

/-- GRACE_EXPIRY (R139) and DRAIN_END (R141): a grace that stands and has passed with a LIVE record settles it as CLOSE does: the packs
of the list discarded, their buffers EMPTY and their segments told, the TAIL entries kept to be written, at a new position where entry
1 is a tail; the record is marked SUPERSEDED, a close with reason CARD starts with the tail the port's, and the CHUNK lane is released
(R96); the end of a drained transfer gives its buffer back (R121) and begins a waiting attach, whose frame is then finished (R123). A
re-placed tail splits nothing off (the model's choice, log entry 57). The port's arbiter (R125) on a READY card: a ready raw frame while
a pack buffer is EMPTY and, for a write, the list has room, else the oldest entry not begun, else the raw frame; a write's beginning
(R126), its event before the prompt evaluation (the model's choice, log entry 61); with no card the oldest entry not begun ends REMOVED,
a CLOSE resumption's tail with a fresh record (the model's choice, log entry 69). A resumption ends, and its RESUME frame is finished
DONE OK, when no resumed entry is left, nothing asks for a re-placement, and a CLOSE has its clip ended (R132). -/
def Obligations.GraceAndDrain : Prop :=
  (∀ (a : Ambient) (s : State), s.supply.held = false →
    let u := s.arrive a
    (∀ t, s.card.grace = some t → timeReached u.time t = true → s.xchg.liveRecord = true →
      let packs := s.card.list.filter fun e => e.source != .tail
      let first := (s.card.list.head?.map fun e => e.source == .tail).getD false
      let freed (i : Fin 4) : Buf := if packs.any (fun e => e.source == .buf i) then .empty else s.writer.bufs.get i
      let settled : State := { u with
        card := { s.card with
          grace := none
          list := (s.card.list.filter fun e => e.source == .tail).map fun e =>
            { e with begun := false, resumed := false, awaiting := first, settling := true } }
        writer := { s.writer with bufs := { a0 := freed 0, a1 := freed 1, a2 := freed 2, a3 := freed 3 } }
        store := { s.store with
          table := s.store.table.map fun g =>
            { g with unwritten := g.unwritten + (packs.filter fun e => e.serial == g.serial).length }
          matters := s.store.matters ++ if first then [.replace .tail true true] else [] }
        xchg := u.xchg.supersede }
      let closed := settled.startClose .card
      exec (.graceExpiry a) s = .next (State.rest (State.release .chunk { closed with
        writer := if closed.writer.state = .closing then { closed.writer with tailBy := .settlement } else closed.writer })))
    ∧ ((s.card.grace = none ∨ s.xchg.liveRecord = false) → exec (.graceExpiry a) s = .next u)
    ∧ (∀ t, s.card.grace = some t → timeReached u.time t = false → exec (.graceExpiry a) s = .next u)
    ∧ (s.card.draining = false → exec (.drainEnd a) s = .next u)
    ∧ (s.card.draining = true →
        let ended : State := { u with
          writer := (match s.card.drainSource with
            | some src => s.writer.giveBack src
            | none => s.writer)
          card := { s.card with
            draining := false, drainSource := none, attachStart := if s.card.attaching then some u.time else none } }
        ((∀ h, s.xchg.hand .control = some h → h.started = false ∨ h.body ≠ .cardAttach) →
          exec (.drainEnd a) s = .next ended.rest)
        ∧ ∀ h, s.xchg.hand .control = some h → h.started = true → h.body = .cardAttach →
          exec (.drainEnd a) s = .next (ended.finish .control .done .ok 0).rest))
  ∧ (∀ (x : Exchange) (c : AnchorCopy) (e : CardOutcome) (b : Nat) (n k : Word) (es : List RecEntry) (t : Continuation)
      (time : Time) (more : List FaultRec), x.anchor = some c → memWf x.mem = true →
      x.stack = .card e b n k es t true time :: more →
      let y := x.supersede
      y.stack = .card e b n k es t false time :: more
      ∧ memByte y.mem (c.faultTop - x.depth + 3) = 1
      ∧ (∀ j, j ≠ c.faultTop - x.depth + 3 → memByte y.mem j = memByte x.mem j))
  ∧ (∀ (s : State),
    let x := s.xchg
    let gate := s.writer.gate
    let held := x.holds .chunk = true ∨ x.state ≠ .running
    let y := s.release .chunk
    (held → y.xchg = x)
    ∧ (¬held → x.chunk.retake = none → y.xchg = (x.showLane .chunk).look gate s.time .chunk)
    ∧ (∀ at_, ¬held → x.chunk.retake = some at_ → y.xchg =
        ((x.setLane .chunk { x.chunk with retake := none }).takeFrame s.time .chunk at_ true).look gate s.time .chunk)
    ∧ y.card = s.card ∧ y.store = s.store ∧ y.writer.bufs = s.writer.bufs ∧ y.writer.state = s.writer.state
    ∧ y.writer.tailBy = s.writer.tailBy)
  -- the arbiter and a transfer's beginning (R125, R126)
  ∧ ∀ s : State,
    let k := s.card
    let may := k.state = .ready ∧ k.draining = false ∧ s.xchg.liveRecord = false
    let absent := (k.state = .absent ∨ k.state = .present ∨ k.state = .failed) ∧ k.draining = false ∧ s.xchg.liveRecord = false
    let next := k.list.find? fun e => !e.begun
    let begun (e : Entry) : State := { s with
      card := { k with state := .writing, list := k.list.map fun o => if o.source = e.source then { o with begun := true } else o }
      writer := match e.source with
        | .buf i => { s.writer with bufs := s.writer.bufs.set i { s.writer.bufs.get i with st := .writing } }
        | .tail => { s.writer with tail := { s.writer.tail with st := .writing } } }
    let written : Option State := match next with
      | some e => if e.awaiting then none else some (State.prompt emit (State.raise emit 0x0406 e.count (begun e)))
      | none => none
    let rawBegun (r : RawJob) : State :=
      let t : State := { s with card := { k with state := .writing, raw := some { r with inFlight := true } } }
      if r.isWrite then State.prompt emit (State.raise emit 0x0406 r.count t) else t
    (¬may → s.arbitrate emit = none)
    ∧ (may → (∀ r, k.raw = some r → r.ready = false ∨ r.inFlight = true) → s.arbitrate emit = written)
    ∧ (∀ r, may → k.raw = some r → r.ready = true → r.inFlight = false →
      let first := (∃ i, (s.writer.bufs.get i).st = .empty) ∧ (r.isWrite = true → k.list.length < 3)
      (first ∨ next = none → s.arbitrate emit = some (rawBegun r))
      ∧ (¬first → next ≠ none → s.arbitrate emit = written))
    ∧ (absent → s.endUnbegun emit = match next with
      | some e => some (s.cardFault emit .removed e)
      | none => none)
    ∧ (¬absent → s.endUnbegun emit = none)
    -- the end of a resumption (R132)
    ∧ (let ended := ∃ close, k.resumption = some close ∧ (∀ e ∈ k.list, e.resumed = false)
          ∧ (close = true → s.writer.state = .idle)
          ∧ (∀ m ∈ s.store.matters, (∀ src settled first, m ≠ .replace src settled first) ∧ ∀ n b, m ≠ .removal n b true)
      (ended → s.resumeStep = some (State.finish { s with card := { k with resumption := none } } .recovery .done .ok 0))
      ∧ (¬ended → s.resumeStep = none))

/-! ## Storage map -/

/-- EXTENT_ADD (R143): its four checks in order, and the extent joining the pool at its tail; STORAGE_LOW is armed again when the free
packs then reach the watermark (R152). EXTENT_WITHDRAW (R144) and PROTECT (R156): an extent of the pool leaves it, one of a segment is
BUSY, any other NOT_FOUND; PROTECT's checks in order, SET making the host the owner and CLEAR taking the owner away, with the protected
count as result value. -/
def Obligations.ExtentAndProtectFrames : Prop :=
  (∀ (a : Ambient) (s : State) (first count : Nat), s.supply.held = false →
    s.frameBody .control = some (.extentAdd first count) →
    let u := s.arrive a
    let refused (r : Result) : Prop := exec (.extentAdd a) s = .next (u.finish .control .refused r 0)
    let card := s.card.state = .ready ∨ s.card.state = .writing ∨ s.card.state = .busy
    let aligned := first % 128 = 0 ∧ count ≠ 0 ∧ count % 128 = 0
    let inside := first + count ≤ 4294967296 ∧ (card → first + count ≤ s.card.capacity)
    let apart := ∀ e ∈ s.store.known, ¬(first < e.first + e.count ∧ e.first < first + count)
    (¬aligned → refused .misaligned)
    ∧ (aligned → ¬inside → refused .outOfRange)
    ∧ (aligned → inside → ¬apart → refused .overlap)
    ∧ (aligned → inside → apart → 64 ≤ s.store.pool.length → refused .poolFull)
    ∧ (aligned → inside → apart → s.store.pool.length < 64 →
        let added : Store := { s.store with pool := s.store.pool ++ [{ first, count }] }
        exec (.extentAdd a) s = .next (State.rest (State.finish
          { u with store := { added with lowArmed := s.store.lowArmed || decide (s.store.loops.watermark ≤ added.freePacks) } }
          .control .done .ok (s.store.pool.length + 1)))))
  ∧ (∀ (a : Ambient) (s : State), s.supply.held = false →
    let u := s.arrive a
    (∀ first, s.frameBody .control = some (.extentWithdraw first) →
      let pooled := ∃ e ∈ s.store.pool, e.first = first
      let segment := ∃ g ∈ s.store.table, ∃ e ∈ g.exts, e.first = first
      (pooled → exec (.extentWithdraw a) s = .next (State.rest (State.finish
          { u with store := { s.store with pool := s.store.pool.filter fun e => e.first != first } } .control .done .ok
            (s.store.pool.filter fun e => e.first != first).length)))
      ∧ (¬pooled → segment → exec (.extentWithdraw a) s = .next (u.finish .control .refused .busy 0))
      ∧ (¬pooled → ¬segment → exec (.extentWithdraw a) s = .next (u.finish .control .refused .notFound 0)))
    ∧ ∀ serial action, s.frameBody .control = some (.protect serial action) →
      let refused (r : Result) : Prop := exec (.protect a) s = .next (u.finish .control .refused r 0)
      let owned (o : Option Owner) : List Seg := (s.store.mapSeg serial fun g => { g with owner := o }).table
      let taken (o : Option Owner) : Prop := exec (.protect a) s = .next (State.rest (State.finish
        { u with store := { s.store with table := owned o } } .control .done .ok
          ((owned o).filter fun g => g.owner.isSome).length))
      let count := (s.store.table.filter fun g => g.owner.isSome).length
      (1 < action → refused .badField)
      ∧ (action ≤ 1 → s.store.seg serial = none → refused .notFound)
      ∧ (∀ g, s.store.seg serial = some g →
          (action = 0 → g.owner = none → 8 ≤ count → refused .protectFull)
          ∧ (action = 0 → (g.owner ≠ none ∨ count < 8) → taken (some .host))
          ∧ (action = 1 → taken none)))

/-! ## The storage map's own work -/

/-- A segment's release (R151), its opening (R146) and its positions (R147): the oldest COMPLETE segment without an owner released in
loop mode, when the pool has room for its extents; an opening that takes the pool's head extent whole; the next pack, the head extent,
a release, extents full, or none, in that order. A move that makes a report waits until segment work has room for it (R158). A position
returned unused is the next pack again; where later packs have been taken meanwhile, it is the next pack by itself and the packs after
those taken follow it (R147; the model's choice, log entry 76). A change of a segment reaches the one entry of the table that its serial
names. -/
def Obligations.SegmentsOpenAndTakePositions : Prop :=
  (∀ (st : Store) (serial : Word) (f : Seg → Seg),
    ((∀ h ∈ st.table, h.serial ≠ serial) → st.seg serial = none ∧ st.mapSeg serial f = st)
    ∧ ∀ pre g post, st.table = pre ++ g :: post → (∀ h ∈ pre, h.serial ≠ serial) → g.serial = serial →
        st.seg serial = some g ∧ st.mapSeg serial f = { st with table := pre ++ f g :: post })
  ∧ ∀ (now : Time) (st : Store),
    let room := st.queue.length < 8 ∧ (st.waiting = [] ∨ st.waiting.head? = some .segmentWork)
    let told (body : ReportBody) : Store := { st with
      queue := st.queue ++ [{ time := now, body }], waiting := st.waiting.filter fun w => w != .segmentWork }
    let oldest := st.table.find? fun g => g.phase == .complete && g.owner.isNone
    ((st.loops.loop = false ∨ oldest = none) → st.release now = .answer st ())
    ∧ (∀ g, st.loops.loop = true → oldest = some g →
        (64 < st.pool.length + g.exts.length → st.release now = .answer st ())
        ∧ (st.pool.length + g.exts.length ≤ 64 → ¬room → st.release now = .blocked)
        ∧ (st.pool.length + g.exts.length ≤ 64 → room →
            let u : Store := { told (.segmentReleased g.serial g.clip g.index g.exts) with
              pool := st.pool ++ g.exts, table := st.table.filter fun h => h.serial != g.serial }
            st.release now = .moved { u with lowArmed := st.lowArmed || decide (st.loops.watermark ≤ u.freePacks) }))
    ∧ (∀ serial clip index,
        ((16 ≤ st.table.length ∨ st.pool = []) → st.openSegment now serial clip index =
            match st.release now with
            | .blocked => .blocked
            | .moved u => .moved u
            | .answer u _ => .answer u none)
        ∧ (st.table.length < 16 → st.pool ≠ [] → ¬room → st.openSegment now serial clip index = .blocked)
        ∧ (∀ e rest, st.table.length < 16 → st.pool = e :: rest → room →
            let p := st.entryProtection now
            st.openSegment now serial clip index = .answer
              { told (.segmentOpened serial clip index e.first p.1 p.2.2) with
                pool := rest, openIncidents := [], openIncidentCount := 0, openMark := none
                table := p.2.1 ++
                  [{ serial, clip, index, phase := .opened, owner := p.1, start := now, stop := now, timed := false, exts := [e]
                     next := if e.first + 128 < e.first + e.count then some (e.first + 128) else none
                     returned := none, used := 1, unwritten := 0, tail := .noneYet, incidents := st.openIncidents
                     incidentCount := st.openIncidentCount, loop := st.loops.loop }] } (some e.first)))
    ∧ ∀ serial g, st.seg serial = some g →
        let untaken : Nat := (if g.returned = none then 0 else 1) + match g.next, g.exts.getLast? with
          | some n, some e => (e.first + e.count - n) / 128
          | _, _ => 0
        let full := (g.exts.length = 8 ∧ untaken ≤ 1)
          ∨ (g.exts.length = 7 ∧ untaken = 0 ∧ ∃ e rest, st.pool = e :: rest ∧ e.count / 128 = 1)
        (full → st.nextPack now false serial = .answer st .extentsFull)
        ∧ (∀ forTail, (forTail = true ∨ ¬full) →
            (∀ p, g.returned = some p → st.nextPack now forTail serial =
              .answer (st.mapSeg serial fun h => { h with returned := none, used := h.used + 1 }) (.position p))
            ∧ (g.returned = none →
              (∀ n e, g.next = some n → g.exts.getLast? = some e → st.nextPack now forTail serial =
                .answer (st.mapSeg serial fun h => { h with
                  next := if n + 128 < e.first + e.count then some (n + 128) else none, used := h.used + 1 }) (.position n))
              ∧ (∀ e rest, g.next = none → g.exts.length < 8 → st.pool = e :: rest → st.nextPack now forTail serial =
                .answer (Store.mapSeg { st with pool := rest } serial fun h => { h with
                  exts := h.exts ++ [e], next := if e.first + 128 < e.first + e.count then some (e.first + 128) else none
                  used := h.used + 1 }) (.position e.first))
              ∧ (g.next = none → g.exts.length < 8 → st.pool = [] → st.nextPack now forTail serial =
                match st.release now with
                | .blocked => .blocked
                | .moved u => .moved u
                | .answer u _ => .answer u .none)
              ∧ (g.next = none → 8 ≤ g.exts.length → st.nextPack now forTail serial = .answer st .none)))
        ∧ ∀ block,
            let u := st.returnPack serial block
            let last := ∃ e, g.exts.getLast? = some e ∧ e.first ≤ block ∧ block < e.first + e.count
              ∧ g.next = if block + 128 < e.first + e.count then some (block + 128) else none
            (last → u.seg serial = some { g with next := some block, used := g.used - 1 })
            ∧ (¬last → u.seg serial = some { g with returned := some block, used := g.used - 1 })
            ∧ u = { st with table := u.table } ∧ ∀ k, k ≠ serial → u.seg k = st.seg k

/-- A segment's times (R145), its close with the tail's pack (of the last extent or, that used up, of the pool's head extent; after a
release, or no tail at all, with an empty pool) and the split (R148), its completion (R149), and the removal of the rest of a faulting
extent with the entries inside it asking for new positions (R150). The tail position of a report whose tail is MISSING is 0 and the
packs after a re-placed tail stay with the segment (the model's choices, log entries 43 and 57). A returned pack is the tail's, ahead of
the packs after it, which are then split off (the model's choice, log entry 76). -/
def Obligations.SegmentsCloseCompleteAndLoseExtents : Prop :=
  (∀ (g : Seg) (t : Time),
    (g.timed = false → g.noteTime t = { g with start := t, stop := t, timed := true }
      ∧ g.noteClose t = { g with start := t, stop := t })
    ∧ (g.timed = true → g.noteTime t = { g with stop := if timeLater t g.stop then t else g.stop } ∧ g.noteClose t = g))
  ∧ (∀ (now : Time) (st : Store) (serial : Word) (g : Seg), st.seg serial = some g →
    let room := st.queue.length < 8 ∧ (st.waiting = [] ∨ st.waiting.head? = some .segmentWork)
    let othersStand (u : Store) : Prop := ∀ k, k ≠ serial → u.seg k = st.seg k
    let told (u : Store) (body : ReportBody) : Prop := u.queue = st.queue ++ [{ time := now, body }]
    -- the close (R148)
    (∃ u, st.closeSegment now serial true = .answer u none ∧ u.seg serial = some { g with tail := .missing, phase := .ending }
        ∧ u.pool = st.pool ∧ u.queue = st.queue ∧ othersStand u)
    ∧ (g.returned = none → g.next = none → 8 ≤ g.exts.length →
        st.closeSegment now serial false = st.closeSegment now serial true)
    ∧ (∀ p, g.returned = some p →
        ∃ u, st.closeSegment now serial false = .answer u (some p)
          ∧ (∀ n e, g.next = some n → g.exts.getLast? = some e →
              let stop := e.first + e.count
              let split := n < stop ∧ st.pool.length < 64
              u.pool = (if split then { first := n, count := stop - n } :: st.pool else st.pool)
              ∧ u.seg serial = some { g with
                  used := g.used + 1, returned := none, tail := .pending p, phase := .ending
                  exts := if split then g.exts.dropLast ++ [{ first := e.first, count := n - e.first }] else g.exts
                  next := if split then none else some n }
              ∧ u.lowArmed = (if split then st.lowArmed || decide (st.loops.watermark ≤ u.freePacks) else st.lowArmed))
          ∧ ((g.next = none ∨ g.exts = []) → u.pool = st.pool ∧ u.lowArmed = st.lowArmed
              ∧ u.seg serial = some { g with used := g.used + 1, returned := none, tail := .pending p, phase := .ending })
          ∧ u.queue = st.queue ∧ othersStand u)
    ∧ (∀ n e, g.returned = none → g.next = some n → g.exts.getLast? = some e →
        let stop := e.first + e.count
        let split := n + 128 < stop ∧ st.pool.length < 64
        ∃ u, st.closeSegment now serial false = .answer u (some n)
          ∧ u.pool = (if split then { first := n + 128, count := stop - (n + 128) } :: st.pool else st.pool)
          ∧ u.seg serial = some { g with
              used := g.used + 1, tail := .pending n, phase := .ending
              exts := if split then g.exts.dropLast ++ [{ first := e.first, count := n + 128 - e.first }] else g.exts
              next := if n + 128 < stop ∧ ¬split then some (n + 128) else none }
          ∧ u.lowArmed = (if split then st.lowArmed || decide (st.loops.watermark ≤ u.freePacks) else st.lowArmed)
          ∧ u.queue = st.queue ∧ othersStand u)
    ∧ (∀ e rest, g.returned = none → g.next = none → g.exts.length < 8 → st.pool = e :: rest →
        let stop := e.first + e.count
        let split := e.first + 128 < stop ∧ rest.length < 64
        ∃ u, st.closeSegment now serial false = .answer u (some e.first)
          ∧ u.pool = (if split then { first := e.first + 128, count := stop - (e.first + 128) } :: rest else rest)
          ∧ u.seg serial = some { g with
              used := g.used + 1, tail := .pending e.first, phase := .ending
              exts := g.exts ++ [if split then { first := e.first, count := 128 } else e]
              next := if e.first + 128 < stop ∧ ¬split then some (e.first + 128) else none }
          ∧ u.lowArmed = (if split then st.lowArmed || decide (st.loops.watermark ≤ u.freePacks) else st.lowArmed)
          ∧ u.queue = st.queue ∧ othersStand u)
    ∧ (g.returned = none → g.next = none → g.exts.length < 8 → st.pool = [] → st.closeSegment now serial false =
        match st.release now with
        | .blocked => .blocked
        | .moved u => .moved u
        | .answer _ _ => st.closeSegment now serial true)
    -- the completion (R149)
    ∧ (¬room → st.completeSegment now serial = .blocked)
    ∧ (room → ∃ u, st.completeSegment now serial = .answer u ()
        ∧ told u (.segmentClosed g.serial g.clip g.index g.start g.stop g.used g.unwritten
            (match g.tail with
              | .pending b => b
              | .written b => b
              | _ => 0) (g.tail == .missing) g.incidentCount g.exts)
        ∧ u.seg serial = some { g with phase := .complete }
        ∧ ((∀ h ∈ st.table, h.serial = serial → h = g) → g.loop = true → g.exts ≠ [] → u.leaveTable serial = u)
        ∧ ((∀ h ∈ st.table, h.serial = serial → h = g) → (g.loop = false ∨ g.exts = []) →
            u.leaveTable serial = { u with table := u.table.filter fun h => h.serial != serial })
        ∧ u.pool = st.pool ∧ othersStand u)
    -- the removal of the rest of a faulting extent (R150)
    ∧ ∀ block pre e post, g.exts = pre ++ e :: post → (∀ f ∈ pre, ¬(f.first ≤ block ∧ block < f.first + f.count)) →
        e.first ≤ block → block < e.first + e.count →
        let pack := block / 128 * 128
        let lo := max e.first pack
        let stop := e.first + e.count
        let top := match g.next with
          | some n => if g.exts.getLast? = some e then max lo (min n stop) else stop
          | none => stop
        let back : Nat := if g.returned.any (fun b => decide (lo ≤ b ∧ b < stop)) then 1 else 0
        (¬room → st.removeRange now serial block = .blocked)
        ∧ (room → ∃ u, st.removeRange now serial block = .answer u (some (lo, stop - lo))
          ∧ told u (.badExtent serial lo (stop - lo))
          ∧ u.seg serial = some { g with
              exts := pre ++ (if pack ≤ e.first then [] else [{ first := e.first, count := pack - e.first }]) ++ post
              next := if (∃ l, g.exts.getLast? = some l ∧ l.first + l.count = stop) then none else g.next
              returned := if back = 1 then none else g.returned
              used := g.used - ((top - lo) / 128 - back) }
          ∧ u.pool = st.pool ∧ othersStand u))
  ∧ ∀ (s : State) (block lo n : Nat),
    let inside (b : Nat) : Prop := lo ≤ b ∧ b < lo + n
    let list := s.card.list.map fun e => if e.awaiting = true ∧ ¬inside e.block then { e with awaiting := false } else e
    let asks := (list.filter (·.awaiting)).map fun e => Matter.replace e.source false (e.block == block)
    let t := s.removed block (some (lo, n))
    t.card = { s.card with list }
    ∧ (∀ i b, s.writer.filling = some i → (s.writer.bufs.get i).pos = some b → inside b →
        t.writer = { s.writer with bufs := s.writer.bufs.set i { s.writer.bufs.get i with pos := none } }
        ∧ t.store = { s.store with matters := s.store.matters ++ asks ++ [.replaceFilling i] })
    ∧ ((∀ i b, s.writer.filling = some i → (s.writer.bufs.get i).pos = some b → ¬inside b) →
        t.writer = s.writer ∧ t.store = { s.store with matters := s.store.matters ++ asks })

/-- An incident listed (R153) and its protection (R154, R155): it takes the next number, goes into the list of the segment being
opened or of the open one, and protects its window under the cap of 8, the segments of earlier incidents renewed, those of HOST never
touched; the window's unprotected segments are taken newest first while the count is below 8 and then each in the place of the oldest
segment of an earlier incident outside the window, PARTIAL when one is left; protect-until moves to the later time. A segment that
enters the table takes protection under the same cap. The mark on a segment being opened holds whatever the loop flag, the newest
incident marking it, and times are compared as plain numbers (the model's choices, log entries 55 and 32); the count of an incident's
protected segments is those renewed and those newly protected (its inference, log entry 30). -/
def Obligations.IncidentsAreListedAndProtect : Prop :=
  (∀ (n : Word) (i : Incident) (st : Store),
    (∀ serial, st.opening = some serial → st.listIncident n i =
      ({ st with
          openIncidents := if st.openIncidents.length < 8 then st.openIncidents ++ [i] else st.openIncidents
          openIncidentCount := st.openIncidentCount + 1, openMark := some n },
        if st.openIncidents.length < 8 then serial else 0))
    ∧ (∀ g, st.opening = none → st.openSeg = some g → st.listIncident n i =
      (st.mapSeg g.serial fun h => { h with
          incidents := if h.incidents.length < 8 then h.incidents ++ [i] else h.incidents
          incidentCount := h.incidentCount + 1 },
        if g.incidents.length < 8 then g.serial else 0))
    ∧ (st.opening = none → st.openSeg = none → st.listIncident n i = (st, 0)))
  ∧ (∀ (now : Time) (i : Incident) (st : Store),
    let a := ({ st with nextIncident := st.nextIncident + 1 } : Store).listIncident st.nextIncident i
    let p := a.1.protectWindow st.nextIncident i.time
    (st.loops.loop = true → st.incident now i = p.1.offer now .incident
      (.incident st.nextIncident i.time i.peak i.source a.2 p.2.1 p.1.protectUntil p.2.2))
    ∧ (st.loops.loop = false → st.incident now i = a.1.offer now .incident
      (.incident st.nextIncident i.time i.peak i.source a.2 0 a.1.protectUntil false)))
  ∧ (∀ (n : Word) (t : Time) (st : Store), st.protectedCount ≤ 8 → (st.protectWindow n t).1.protectedCount ≤ 8)
  ∧ (∀ (n : Word) (t : Time) (st : Store), (st.table.map (·.serial)).Nodup →
    let inWindow (g : Seg) : Prop := t.toNat - st.loops.pre * 1000000 ≤ g.stop.toNat ∨ g.phase = .opened
    let p := st.protectWindow n t
    let until_ : Time := t + BitVec.ofNat 48 (st.loops.post * 1000000)
    let later := ∀ o, st.protectUntil = some o → o.toNat < until_.toNat
    p.1.table.map (fun g => { g with owner := none }) = st.table.map (fun g => { g with owner := none })
    ∧ (∀ k g, st.seg k = some g → g.owner = some .host → p.1.seg k = some g)
    ∧ (∀ k g m, st.seg k = some g → g.owner = some (.incident m) → inWindow g → m.toNat < n.toNat →
        p.1.seg k = some { g with owner := some (.incident n) })
    ∧ (∀ k g, p.1.seg k = some g → inWindow g → g.owner = none → p.2.2 = true)
    ∧ (let window (g : Seg) : Bool := decide (t.toNat - st.loops.pre * 1000000 ≤ g.stop.toNat) || g.phase == .opened
      let earlier (g : Seg) : Bool := match g.owner with
        | some (.incident m) => decide (m.toNat < n.toNat)
        | _ => false
      let newest := (st.table.filter fun g => window g && g.owner.isNone).reverse
      let outside := st.table.filter fun g => earlier g && !window g
      let below := 8 - st.protectedCount
      let k := min newest.length (below + outside.length)
      let taken := (newest.take k).map (·.serial)
      let displaced := (outside.take (k - below)).map (·.serial)
      p.1.table = st.table.map (fun g =>
          if (window g && earlier g) || taken.contains g.serial then { g with owner := some (.incident n) }
          else if displaced.contains g.serial then { g with owner := none }
          else g)
      ∧ p.2.1 = (st.table.filter fun g => window g && earlier g).length + k
      ∧ p.2.2 = decide (k < newest.length))
    ∧ (later → p.1.protectUntil = some until_ ∧ p.1.untilOwner = some n)
    ∧ (¬later → p.1.protectUntil = st.protectUntil ∧ p.1.untilOwner = st.untilOwner))
  ∧ ∀ (now : Time) (st : Store),
    let owner : Option Word := match st.protectUntil, st.untilOwner with
      | some u, some o => if now.toNat < u.toNat then some o else st.openMark
      | _, _ => st.openMark
    (owner = none → st.entryProtection now = (none, st.table, false))
    ∧ ∀ o, owner = some o →
      (st.protectedCount < 8 → st.entryProtection now = (some (.incident o), st.table, false))
      ∧ (8 ≤ st.protectedCount → (∀ g ∈ st.table, ∀ m, g.owner = some (.incident m) → o.toNat ≤ m.toNat) →
          st.entryProtection now = (none, st.table, true))
      ∧ ∀ pre v post m, 8 ≤ st.protectedCount → st.table = pre ++ v :: post → v.owner = some (.incident m) → m.toNat < o.toNat →
          (∀ g ∈ pre, ∀ k, g.owner = some (.incident k) → o.toNat ≤ k.toNat) →
          st.entryProtection now = (some (.incident o), pre ++ { v with owner := none } :: post, false)

/-- Segment work one matter at a time, with its answers (R110, R146, R147, R148, R149, R152): the opening, whose event comes before the
first position is handed, the positions, the close, the completion with the leaving of the table after its event, the removal of a bad
range, the re-placement of a record's entry and of the FILLING buffer (R134, R135, R150); the segment that asks for its completion, with
its tail written or missing and no write of its left (R149); the waiting places (R158); the report ring (R157); STORAGE_LOW and the
count of free packs (R142, R152); and how the pieces of block work bring a command to rest. The model's choices: the order in which the
pieces are tried and the bound (log entry 7); STORAGE_FULL with the CARD close for an entry that gets no position (28); the FILLING
buffer emptied with that close (29); STORAGE_LOW raised at once when it is armed below the watermark (56), disarmed and its report
offered before its event (70); of what the removed range holds outside the record, only the FILLING buffer re-placed (57); the first
position returned when no FILLING buffer is left (59); a returned pack counted free (76); the waiting STORAGE_LOW that a STORAGE_FULL
replaces not counted lost, and its turn kept (77). -/
def Obligations.SegmentWorkReportsAndLevels : Prop :=
  -- segment work, one matter at a time, in the order asked (R158)
  (∀ (s : State) (m : Matter) (rest : List Matter), s.store.matters = m :: rest →
    let serial := (s.writer.seg.map (·.serial)).getD 0
    let waits := s.matterStep = if s.store.waiting.contains .segmentWork then none
      else some { s with store := { s.store with waiting := s.store.waiting ++ [.segmentWork] } }
    let answered (st : Store) : Store :=
      { st with waiting := st.waiting.filter fun w => w != .segmentWork, matters := rest }
    let full (u : State) : State := State.raise emit 0x0404 s.writer.clipNumber.toNat u
    let reported (u : State) : State :=
      { u with store := u.store.offer s.time .level (.storageFull s.writer.clipNumber u.store.freePacks) }
    (∀ n clip i, m = .opening n clip i →
      (s.store.openSegment s.time n clip i = .blocked → waits)
      ∧ (∀ st, s.store.openSegment s.time n clip i = .moved st → s.matterStep = some { s with store := st })
      ∧ (∀ st b, s.store.openSegment s.time n clip i = .answer st (some b) →
          let t := State.raise emit 0x0400 n.toNat { s with store := answered st }
          let handed : State :=
            { t with writer := { t.writer.openSegment n i b with lastIndex := i, cut := t.writer.cutAfter } }
          (t.writer.filling ≠ none → s.matterStep = some handed)
          ∧ (t.writer.filling = none → s.matterStep = some { handed with store := t.store.returnPack n b }))
      ∧ (∀ st, s.store.openSegment s.time n clip i = .answer st none →
          s.matterStep = some (((reported (full { s with
            store := { answered st with openIncidents := [], openIncidentCount := 0, openMark := none } })).onWriter
              fun w => { w with cut := none }).startClose .storageFull |>.onWriter Writer.dropFilling)))
    ∧ (∀ i, m = .position i →
      (s.store.nextPack s.time false serial = .blocked → waits)
      ∧ (∀ st, s.store.nextPack s.time false serial = .moved st → s.matterStep = some { s with store := st })
      ∧ (∀ st b, s.store.nextPack s.time false serial = .answer st (.position b) →
          s.matterStep = some { s with
            store := answered st, writer := { s.writer with bufs := s.writer.bufs.set i { s.writer.bufs.get i with pos := some b } } })
      ∧ (∀ st, s.store.nextPack s.time false serial = .answer st .extentsFull →
          s.matterStep = some { s with
            store := answered st
            writer := { s.writer with
              cut := some { reason := .extents, stage := .askClose, outer := s.writer.cut.map (·.reason) }, cutRequest := false } })
      ∧ (∀ st, s.store.nextPack s.time false serial = .answer st .none →
          s.matterStep = some (((reported (full { s with store := answered st })).startClose .storageFull).onWriter
            Writer.dropFilling)))
    ∧ (∀ n, m = .closed n →
      (s.store.completeSegment s.time n = .blocked → waits)
      ∧ (∀ st, s.store.completeSegment s.time n = .answer st () →
          let t := State.raise emit 0x0401 n.toNat { s with store := answered st }
          let staying := t.store.table.filter fun g => g.serial != n || (g.loop && !g.exts.isEmpty)
          s.matterStep = some { t with store := { t.store with table := staying } }))
    ∧ (∀ forCut noTail, m = .closing forCut noTail →
      (s.store.closeSegment s.time serial noTail = .blocked → waits)
      ∧ (∀ st, s.store.closeSegment s.time serial noTail = .moved st → s.matterStep = some { s with store := st })
      ∧ (∀ st b, s.store.closeSegment s.time serial noTail = .answer st b →
          s.matterStep = some (State.closeAnswered forCut b { s with store := answered st })))
    ∧ (∀ n block asked, m = .removal n block asked →
      (s.store.removeRange s.time n block = .blocked → waits)
      ∧ (∀ st range, s.store.removeRange s.time n block = .answer st range →
          (asked = true → s.matterStep = some (State.removed block range { s with store := answered st }))
          ∧ (asked = false →
            (∀ i b lo k, range = some (lo, k) → s.writer.filling = some i → (s.writer.bufs.get i).pos = some b → lo ≤ b → b < lo + k →
              s.matterStep = some { s with
                store := { answered st with matters := rest ++ [.replaceFilling i] }
                writer := { s.writer with bufs := s.writer.bufs.set i { s.writer.bufs.get i with pos := none } } })
            ∧ ((∀ i b lo k, range = some (lo, k) → s.writer.filling = some i → (s.writer.bufs.get i).pos = some b →
                ¬(lo ≤ b ∧ b < lo + k)) → s.matterStep = some { s with store := answered st }))))
    ∧ (∀ source settled first, m = .replace source settled first →
      ((∀ e ∈ s.card.list, e.source ≠ source) → s.matterStep = some { s with store := { s.store with matters := rest } })
      ∧ ∀ e, s.card.list.find? (fun e => e.source == source) = some e →
        let placed (block : Nat) : List Entry :=
          s.card.list.map fun o => if o.source = source then { o with block, awaiting := false } else o
        (s.store.nextPack s.time settled e.serial = .blocked → waits)
        ∧ (∀ st, s.store.nextPack s.time settled e.serial = .moved st → s.matterStep = some { s with store := st })
        ∧ (∀ st b, s.store.nextPack s.time settled e.serial = .answer st (.position b) →
          (∀ i, source = .buf i → s.matterStep = some { s with
            store := answered st, card := { s.card with list := placed b }
            writer := { s.writer with bufs := s.writer.bufs.set i { s.writer.bufs.get i with pos := some b } } })
          ∧ (source = .tail → s.matterStep = some { s with
            store := (answered st).mapSeg e.serial fun g => { g with tail := .pending b }
            card := { s.card with list := placed b }
            writer := { s.writer with tail := { s.writer.tail with pos := b } } }))
        ∧ (∀ st answer, s.store.nextPack s.time settled e.serial = .answer st answer → (∀ b, answer ≠ .position b) →
          (settled = true → s.matterStep = some (State.discard e { s with store := answered st }))
          ∧ (settled = false →
            let later := (s.card.list.dropWhile fun o => o.source != source).filter fun o => o.resumed
            let packs := later.filter fun o => o.source != .tail
            let again := first && source == .tail
            let freed (i : Fin 4) : Buf := if packs.any (fun o => o.source == .buf i) then .empty else s.writer.bufs.get i
            let kept : State := { s with
              card := { s.card with list := (s.card.list.filter fun o => !packs.any fun x => x.source == o.source).map fun o =>
                { o with awaiting := again && o.source == .tail } }
              writer := { s.writer with bufs := { a0 := freed 0, a1 := freed 1, a2 := freed 2, a3 := freed 3 } }
              store := Store.dropReplaces { answered st with table := st.table.map fun g =>
                { g with unwritten := g.unwritten + (packs.filter fun o => o.serial == g.serial).length } } }
            let closed := kept.startClose .card
            let ported : State := { closed with
              writer := if closed.writer.state = .closing then { closed.writer with tailBy := .resumption } else closed.writer
              store := { closed.store with matters := closed.store.matters ++ if again then [.replace .tail true true] else [] } }
            s.matterStep = some (if answer = .none then reported (full ported) else ported))))
    ∧ (∀ i, m = .replaceFilling i →
      (s.store.nextPack s.time false serial = .blocked → waits)
      ∧ (∀ st, s.store.nextPack s.time false serial = .moved st → s.matterStep = some { s with store := st })
      ∧ (∀ st b, s.store.nextPack s.time false serial = .answer st (.position b) → s.matterStep = some { s with
          store := answered st, writer := { s.writer with bufs := s.writer.bufs.set i { s.writer.bufs.get i with pos := some b } } })
      ∧ (∀ st answer, s.store.nextPack s.time false serial = .answer st answer → (∀ b, answer ≠ .position b) →
          let closed := State.startClose .card { s with
            store := answered st, writer := { s.writer with bufs := s.writer.bufs.set i .empty } }
          s.matterStep = some (if answer = .none then reported (full closed) else closed))))
  -- the segment that asks for its completion (R149)
  ∧ (∀ (s : State),
    let ready (g : Seg) : Prop := g.phase = .ending ∧ (g.tail = .missing ∨ ∃ b, g.tail = .written b)
      ∧ (∀ e ∈ s.card.list, e.serial ≠ g.serial) ∧ Matter.closed g.serial ∉ s.store.matters
    ((∀ g ∈ s.store.table, ¬ready g) → s.completionStep = none)
    ∧ ∀ pre g post, s.store.table = pre ++ g :: post → (∀ h ∈ pre, ¬ready h) → ready g →
        s.completionStep = some { s with store := { s.store with matters := s.store.matters ++ [.closed g.serial] } })
  -- the blocks come to rest
  ∧ (∀ (s : State),
    let works : List (State → Option State) :=
      [State.takeBacklog, State.levelStep, State.reportStep, State.joinStep, State.matterStep, State.completionStep,
        State.endUnbegun emit, State.arbitrate emit, State.lostStep, State.cutStep, State.closeStep, State.fullStep,
        State.feedStep, State.queueStep, State.jobStep, State.resumeStep]
    s.rest = (s.settleFor Config.settleBound).refreshIfAsked
    ∧ s.settleFor 0 = s
    ∧ ∀ n, ((∀ f ∈ works, f s = none) → s.settleFor (n + 1) = s)
      ∧ ∀ pre f post t, works = pre ++ f :: post → (∀ g ∈ pre, g s = none) → f s = some t → s.settleFor (n + 1) = t.settleFor n)
  -- a report of another producer (R158)
  ∧ (∀ (now : Time) (p : Producer) (b : ReportBody) (st : Store),
    let r : Report := { time := now, body := b }
    let placed := ∃ w ∈ st.waiting, w.producer = p
    let low (w : Waiting) : Prop := ∃ q o f k, w = .held q o ∧ o.body = .storageLow f k
    let isFull := ∃ c f, b = .storageFull c f
    (st.queue.length < 8 → st.waiting = [] → st.offer now p b = { st with queue := st.queue ++ [r] })
    ∧ ((8 ≤ st.queue.length ∨ st.waiting ≠ []) →
        (¬placed → st.offer now p b = { st with waiting := st.waiting ++ [.held p r] })
        ∧ (placed → ¬(isFull ∧ ∃ w ∈ st.waiting, low w) → st.offer now p b = { st with lost := st.lost + 1 })
        ∧ (∀ pre q o post f k, placed → isFull → st.waiting = pre ++ .held q o :: post → o.body = .storageLow f k →
            (∀ w, w ∈ pre ∨ w ∈ post → ¬low w) → st.offer now p b = { st with waiting := pre ++ .held p r :: post })))
  -- the queue, the ring and the levels (R152, R157, R158)
  ∧ ∀ (s : State),
    let st := s.store
    let free := (st.pool.map fun e => e.count / 128).sum + match st.table.find? fun g => g.phase == .opened with
      | some g => (if g.returned = none then 0 else 1) + (match g.next, g.exts.getLast? with
        | some n, some e => (e.first + e.count - n) / 128
        | _, _ => 0)
      | none => 0
    (∀ p r rest, st.waiting = .held p r :: rest → st.queue.length < 8 →
      s.joinStep = some { s with store := { st with queue := st.queue ++ [r], waiting := rest } })
    ∧ ((8 ≤ st.queue.length ∨ st.waiting = [] ∨ st.waiting.head? = some .segmentWork) → s.joinStep = none)
    ∧ ((s.xchg.state ≠ .running ∨ st.queue = []) → s.reportStep = none)
    ∧ (∀ r rest a c, s.xchg.state = .running → s.xchg.anchor = some a → s.xchg.readCopy = some c → st.queue = r :: rest →
        (a.reportEntries ≤ (s.xchg.writeCount - c).toNat → s.reportStep = none)
        ∧ ((s.xchg.writeCount - c).toNat < a.reportEntries → ∃ t, s.reportStep = some t
          ∧ t.store = { st with queue := rest } ∧ t.xchg.writeCount = s.xchg.writeCount + 1
          ∧ t.xchg.mem = memWrite (memWrite s.xchg.mem (a.reportBase + 128 * (s.xchg.writeCount.toNat % a.reportEntries)) (reportBytes r))
              (a.base + 0x90) (leBytes 4 (s.xchg.writeCount + 1).toNat)
          ∧ t.xchg.cause = s.xchg.cause ||| causeReport ∧ t.xchg.stack = s.xchg.stack ∧ t.writer = s.writer ∧ t.card = s.card))
    ∧ st.freePacks = free
    ∧ ((st.lowArmed = false ∨ st.loops.watermark ≤ free) → s.levelStep = none)
    ∧ (st.lowArmed = true → free < st.loops.watermark → s.levelStep = some (State.raise emit 0x0403 free
        { s with store := ({ st with lowArmed := false } : Store).offer s.time .level (.storageLow free st.loops.watermark) }))

/-! ## Charger -/

/-- CHARGE_SETUP (R166, R174), INPUT_LIMIT (R175) and LOAD_CLASS (R176): every field clamped to its range and the profile replaced
whole; the fault clear, which sets both timers to 0 and the hold clear and enters PAUSED or the phase Vbat decides with its event, and a
prompt evaluation after it; the limit clamped, recorded as given, the droop trim lowered to it, and a prompt evaluation; the class set
when it differs, and a prompt evaluation. The phase at a fault clear is found with the new Veff, and a TIMER fault that the new limit
brings at once reports the new Vreg and Veff (the model's choices, log entry 63). -/
def Obligations.ChargerFramesAreTaken : Prop :=
  (∀ (w : Work) (p : Profile) (clear : Bool) (a : Around),
    let taken : Charger := { w.c with profile := p.clamped }
    ((clear = false ∨ w.c.state.faulted = false) →
      w.setup p clear a = ({ w with c := taken } : Work).timerCheck.prompt a)
    ∧ (clear = true → w.c.state.faulted = true →
      let c : Charger := { taken with prechargeUs := 0, fastUs := 0, hold := false }
      let vbat := c.meas.vbat.toNat
      let veff := if c.band = .warm then c.profile.vreg - 100 else c.profile.vreg
      let phase : ChState := if vbat < 3000 then .precharge else if veff - 20 ≤ vbat then .taper else .fast
      (∀ r, c.pauseCondition a.path = some r → w.setup p clear a = Work.prompt { w with
          c := { c with state := .paused r, driven := 0 }, events := w.events ++ [(0x0503, (r.code : Int))] } a)
      ∧ (c.pauseCondition a.path = none → w.setup p clear a = Work.prompt { w with
          c := { c with state := phase }, events := w.events ++ [(0x0504, (phase.code : Int))] } a)))
  ∧ (∀ (w : Work) (ma : Nat) (a : Around),
    let l := max 100 (min 3000 ma)
    w.limit ma a = Work.prompt { w with c := { w.c with iinLimit := l, limitGiven := true, droop := min w.c.droop l } } a)
  ∧ ∀ (a : Ambient) (s : State), s.supply.held = false →
    let u := s.arrive a
    let clamp (lo hi x : Nat) : Nat := max lo (min hi x)
    (∀ (p : Profile) (clear : Bool), s.frameBody .control = some (.chargeSetup p clear) →
      ∃ t, exec (.chargeSetup a) s = .next t
        ∧ t = (((u.runCharger emit fun w => w.setup p clear u.around).finish .control .done
            (if clear = true ∧ s.charger.state.faulted = true then .cleared else .ok) 0).rest)
        ∧ t.charger.profile =
            { vreg := clamp 4100 4400 p.vreg
              ichgMax := clamp 100 3000 p.ichgMax
              iterm := max 50 (min (clamp 50 400 p.iterm) (clamp 100 3000 p.ichgMax / 2 / 25 * 25))
              fastLimit := clamp 1800 36000 p.fastLimit
              lcard := clamp 0 1000 p.lcard
              baseActive := clamp 0 3000 p.baseActive
              baseParked := clamp 0 3000 p.baseParked
              baseSleep := clamp 0 3000 p.baseSleep
              classes := { a0 := clamp 0 3000 p.classes.a0, a1 := clamp 0 3000 p.classes.a1
                           a2 := clamp 0 3000 p.classes.a2, a3 := clamp 0 3000 p.classes.a3 } }
        ∧ t.charger.iinLimit = s.charger.iinLimit ∧ t.charger.droop = s.charger.droop ∧ t.charger.meas = s.charger.meas
        ∧ t.charger.band = s.charger.band ∧ t.charger.dieCap = s.charger.dieCap)
    ∧ (∀ ma, s.frameBody .control = some (.inputLimit ma) →
      ∃ t, exec (.inputLimit a) s = .next t
        ∧ t = (((u.runCharger emit fun w => w.limit ma u.around).finish .control .done .ok (clamp 100 3000 ma)).rest)
        ∧ t.charger.iinLimit = clamp 100 3000 ma ∧ t.charger.limitGiven = true
        ∧ t.charger.droop = min s.charger.droop (clamp 100 3000 ma)
        ∧ t.charger.profile = s.charger.profile ∧ t.charger.meas = s.charger.meas)
    ∧ ∀ c, s.frameBody .control = some (.loadClass c) →
      (min c 3 = s.supply.loadClass → exec (.loadClass a) s = .next (u.finish .control .done .ok 0))
      ∧ (min c 3 ≠ s.supply.loadClass → ∃ t, exec (.loadClass a) s = .next t
        ∧ t = ((State.prompt emit { u with supply := { s.supply with loadClass := min c 3 } }).finish .control .done .ok 0).rest
        ∧ t.supply.loadClass = min c 3 ∧ t.supply.lowRun = s.supply.lowRun ∧ t.supply.highRun = s.supply.highRun
        ∧ t.charger.profile = s.charger.profile ∧ t.charger.iinLimit = s.charger.iinLimit)

/-- MEASUREMENT (R160, R161): taken when its time has come and never otherwise; the newest values stand, the next is scheduled from
this one, the first after a reset sets the band and the die cap; and input detection as R161 lists it. At an attach IN_SW is driven
closed in NORMAL (R180), the charger enters PAUSED or the phase that Vbat decides, and a prompt evaluation follows (R167); at a loss the
switches collapse where the comparator has not seen it (R181); then the filters are taken. The order of the four in one measurement is
the model's choice (log entry 72), and so is the close of IN_SW that waits for a change under way (log entry 25). So are an attach into
PAUSED that emits INPUT_ATTACH alone (log entry 31), the events delivered after the prompt evaluation (log entry 10), and the collapse
at a measured loss (log entry 42). -/
def Obligations.MeasurementAndInputDetection : Prop :=
  (∀ (a : Ambient) (m : Measurement) (s : State), s.supply.held = false →
    (timeReached (s.arrive a).time s.charger.nextMeasure = false → exec (.measurement a m) s = .next (s.arrive a))
    ∧ (timeReached (s.arrive a).time s.charger.nextMeasure = true → ∃ t, exec (.measurement a m) s = .next t
      ∧ t.charger.meas = m ∧ t.charger.fresh = false ∧ t.charger.nextMeasure = s.charger.nextMeasure + 10000
      ∧ t.charger.nextEval = s.charger.nextEval ∧ t.charger.profile = s.charger.profile
      ∧ (s.charger.fresh = false → t.charger.band = s.charger.band ∧ t.charger.dieCap = s.charger.dieCap)
      ∧ (s.charger.fresh = true → t.charger.band = bandAt m.temp.toInt ∧ (t.charger.dieCap = true ↔ 1100 ≤ m.die.toInt))
      ∧ t.motion = s.motion ∧ t.path.acc = s.path.acc ∧ t.router.routes = s.router.routes))
  -- the command and the detection (R161, R167, R180, R181)
  ∧ (∀ (a : Ambient) (m : Measurement) (s : State), s.supply.held = false →
    timeReached (s.arrive a).time s.charger.nextMeasure = true →
    let u := s.arrive a
    let taken : Charger := { u.charger with
      nextMeasure := s.charger.nextMeasure + 10000, meas := m, fresh := false
      band := if s.charger.fresh then bandAt m.temp.toInt else s.charger.band
      dieCap := if s.charger.fresh then decide (1100 ≤ m.die.toInt) else s.charger.dieCap }
    let found := Work.detect { c := taken, events := [], reports := [] } s.supply.mode
    let evaluated := if found.2 = .attach then found.1.prompt u.around else found.1
    let driven : Option Change := if s.supply.mode = .normal then
        match s.supply.change with
        | none => some { goal := .attach, switch := .inSw, deadline := u.time + 2000, owed := false }
        | some c => some { c with owed := true }
      else s.supply.change
    let before : State := if found.2 = .attach then { u with supply := { s.supply with present := true, change := driven } } else u
    let ran : State := before.runCharger emit fun _ => evaluated
    let judged (t : State) : Prop := exec (.measurement a m) s = .next (State.rest (((t.lowStep emit).shutStep emit).dieStep))
    ((found.2 = .lost ∧ s.supply.present = true) → judged (ran.collapse emit))
    ∧ (¬(found.2 = .lost ∧ s.supply.present = true) → judged ran))
  ∧ (∀ (w : Work) (p : PathMode) (n : Nat),
    let vin := w.c.meas.vin.toNat
    let vbat := w.c.meas.vbat.toNat
    let veff := if w.c.band = .warm then w.c.profile.vreg - 100 else w.c.profile.vreg
    w.c.state = .qualify n → 4300 ≤ vin → 9 ≤ n →
      let c : Charger := { w.c with
        iinLimit := if w.c.limitGiven then w.c.iinLimit else 500, droop := 0, prechargeUs := 0, fastUs := 0, term := 0 }
      let attached (st : ChState) (driven : Nat) : Work :=
        { w with c := { c with state := st, driven }, events := w.events ++ [(0x0500, (vin : Int))] }
      (∀ r, c.pauseCondition p = some r → w.detect p = (attached (.paused r) 0, .attach))
      ∧ (c.pauseCondition p = none → w.c.profile.fastLimit ≠ 0 →
          w.detect p = (attached (if vbat < 3000 then .precharge else if veff - 20 ≤ vbat then .taper else .fast) c.driven, .attach)))
  ∧ ∀ (w : Work) (p : PathMode),
    let vin := w.c.meas.vin.toNat
    let turned (st : ChState) : Work := { w with c := { w.c with state := st, driven := 0 } }
    (w.c.state = .absent → (4000 ≤ vin → w.detect p = (turned (.qualify 0), .same)) ∧ (vin < 4000 → w.detect p = (w, .same)))
    ∧ (∀ n, w.c.state = .qualify n →
        (vin < 4000 → w.detect p = (turned .absent, .same))
        ∧ (4000 ≤ vin → vin < 4300 → w.detect p = (turned (.qualify 0), .same))
        ∧ (4300 ≤ vin → n < 9 → w.detect p = (turned (.qualify (n + 1)), .same))
        ∧ (4300 ≤ vin → 9 ≤ n → (w.detect p).2 = .attach
            ∧ (w.detect p).1.c.iinLimit = (if w.c.limitGiven then w.c.iinLimit else 500)
            ∧ (w.detect p).1.c.droop = 0 ∧ (w.detect p).1.c.prechargeUs = 0 ∧ (w.detect p).1.c.fastUs = 0
            ∧ (w.detect p).1.c.term = 0 ∧ (w.events ++ [(0x0500, (vin : Int))]) <+: (w.detect p).1.events))
    ∧ (w.c.state.attached = true →
        (4000 ≤ vin → w.detect p = (w, .same))
        ∧ (vin < 4000 → w.detect p =
            ({ w with
                c := { w.c with
                  state := .absent, driven := 0, hold := false, prechargeUs := 0, fastUs := 0, term := 0, droop := 0
                  limitGiven := false }
                events := w.events ++ [(0x0501, (vin : Int))] }, .lost)))

/-- PERIODIC_EVALUATION is made when its time has come, each scheduled from the previous one, is the charger's work of a periodic
evaluation (whose steps O51 gives), and moves the die cap, the droop trim and the thermal band (R167, R170, R172); the band with its
hysteresis; SAFETY_TIMER_LIMIT faults the charger whose counting timer
has reached its limit and does nothing else (R165, R173). The safety timers are kept in microseconds and reported in whole seconds
(the model's choice, log entry 38), and the CHARGER_FAULT report is offered before its event (log entry 10). -/
def Obligations.PeriodicEvaluationAndSafetyTimers : Prop :=
  (∀ (a : Ambient) (s : State), s.supply.held = false →
    let u := s.arrive a
    let c := s.charger
    (timeReached u.time c.nextEval = false → exec (.periodicEvaluation a) s = .next u)
    ∧ (timeReached u.time c.nextEval = true → ∃ t, exec (.periodicEvaluation a) s = .next t
      ∧ t = (State.runCharger emit (fun w => w.periodic u.around)
          { u with charger := { u.charger with nextEval := c.nextEval + 100000 } }).rest
      ∧ t.charger.nextEval = c.nextEval + 100000 ∧ t.charger.nextMeasure = c.nextMeasure ∧ t.charger.meas = c.meas
      ∧ t.charger.profile = c.profile ∧ t.charger.iinLimit = c.iinLimit
      ∧ t.charger.band = moveBand c.band c.meas.temp.toInt
      ∧ t.charger.dieCap =
          (if 1100 ≤ c.meas.die.toInt then true else if c.meas.die.toInt < 1000 then false else c.dieCap)
      ∧ t.charger.droop =
          (if c.state.attached = true then
            (if c.meas.vin.toNat < 4400 then min c.iinLimit (c.droop + 50)
             else if 4600 ≤ c.meas.vin.toNat then c.droop - 25 else c.droop)
           else c.droop))
    ∧ exec (.safetyTimerLimit a) s = .next
        (if (c.state = .precharge ∧ 1800000000 ≤ u.charger.prechargeUs)
            ∨ ((c.state = .fast ∨ c.state = .taper) ∧ c.profile.fastLimit * 1000000 ≤ u.charger.fastUs) then
          (State.raise emit 0x0507 0 { u with
            charger := { u.charger with state := .fault .timer, driven := 0, hold := false, term := 0 }
            store := u.store.offer u.time .charger (.chargerFault 0 (if c.state = .precharge then 0 else 1) c.state.code
              c.meas c.profile.vreg c.veff (u.charger.prechargeUs / 1000000) (u.charger.fastUs / 1000000))
            xchg := { u.xchg with refreshAsked := true } }).rest
        else u.rest))
  ∧ (∀ t : Int, bandAt t =
      if t < 0 then .cold else if t < 100 then .cool else if t < 450 then .normal else if t < 550 then .warm else .hot)
  ∧ ∀ (b : ThermalBand) (t : Int),
    (t < 0 → moveBand b t = .cold)
    ∧ (0 ≤ t → t < 20 → moveBand b t = if b = .cold then .cold else .cool)
    ∧ (20 ≤ t → t < 100 → moveBand b t = .cool)
    ∧ (100 ≤ t → t < 120 → moveBand b t = if b = .cold ∨ b = .cool then .cool else .normal)
    ∧ (120 ≤ t → t < 430 → moveBand b t = .normal)
    ∧ (430 ≤ t → t < 450 → moveBand b t = if b = .hot ∨ b = .warm then .warm else .normal)
    ∧ (450 ≤ t → t < 530 → moveBand b t = .warm)
    ∧ (530 ≤ t → t < 550 → moveBand b t = if b = .hot then .hot else .warm)
    ∧ (550 ≤ t → moveBand b t = .hot)

/-- The driven target after every evaluation, periodic or prompt: never above the budget of R169 formed exactly, the phase limit or
the thermal cap, a multiple of 25, 0 outside PRECHARGE, FAST and TAPER, and otherwise the computed target (R167, R169). -/
def Obligations.DrivenTargetIsBounded : Prop :=
  ∀ (w : Work) (a : Around) (d : Charger), d = (w.prompt a).c ∨ d = (w.periodic a).c →
    let loads := d.profile.base a.power + d.profile.classLoad a.loadClass + (if a.cardBusy then d.profile.lcard else 0) + d.droop
    let vbat := max 2000 d.meas.vbat.toNat
    d.meas = w.c.meas ∧ d.profile = w.c.profile ∧ d.iinLimit = w.c.iinLimit
    ∧ d.terms.budget = (d.iinLimit - loads) * d.meas.vin.toNat * 15 / (16 * vbat)
    ∧ d.driven = (if d.state = .precharge ∨ d.state = .fast ∨ d.state = .taper then d.terms.computed else 0)
    ∧ d.driven * (16 * vbat) ≤ (d.iinLimit - loads) * d.meas.vin.toNat * 15
    ∧ d.driven % 25 = 0
    ∧ d.driven ≤ d.profile.ichgMax
    ∧ (d.state = .precharge → d.driven ≤ d.profile.ichgMax / 10)
    ∧ ((d.band = .cool ∨ d.band = .warm) → d.driven ≤ d.profile.ichgMax / 2)
    ∧ ((d.band = .cold ∨ d.band = .hot ∨ d.dieCap = true) → d.driven = 0)

/-- The charger's fault tests and timers (R165, R173), the pause conditions in their order with the pause tests (R164), the phase step
(R162), the recharge out of FULL and the termination count (R163), the loads, the budget, the phase limit, the thermal cap and the
computed target (R168, R169, R170), the budget hold against its two thresholds (R171), and the order of the steps of a periodic and of a
prompt evaluation (R167). What the charger's work does to the machine: its new state stands, a change of state or reason asks for a
refresh (R164), its reports are offered (R178), then its events are emitted in their order; and what it reads of the other blocks (R168).
The safety timers are kept in microseconds and reported in whole seconds (the model's choice, log entry 38), and the work is whole, with
its report offered, before the first of its events is delivered (the model's choice, log entry 10). -/
def Obligations.ChargerFaultsPausesAndTerminates : Prop :=
  -- the work in the machine (R164, R168, R178)
  (∀ (s : State) (f : Work → Work),
    let w := f { c := s.charger, events := [], reports := [] }
    let reason (c : ChState) : Nat := match c with
      | .paused r => r.code
      | .fault r => r.code
      | _ => 0
    let shows := w.c.state.code ≠ s.charger.state.code ∨ reason w.c.state ≠ reason s.charger.state
    s.runCharger emit f = w.events.foldl (fun t e => emit { number := e.1, time := t.time, arg := .num e.2 } t) { s with
      charger := w.c
      xchg := if shows then { s.xchg with refreshAsked := true } else s.xchg
      store := w.reports.foldl (fun st r => st.offer s.time .charger r) s.store })
  ∧ (∀ s : State,
    s.around = { power := s.supply.power, loadClass := s.supply.loadClass, path := s.supply.mode
                 cardBusy := decide (s.card.state = .writing ∨ s.card.state = .busy) }
    ∧ s.prompt emit = s.runCharger emit fun w => w.prompt s.around)
  ∧ ∀ (w : Work) (p : PathMode) (a : Around),
    let c := w.c
    let vbat := c.meas.vbat.toNat
    let veff := if c.band = .warm then c.profile.vreg - 100 else c.profile.vreg
    let phase : ChState := if vbat < 3000 then .precharge else if veff - 20 ≤ vbat then .taper else .fast
    let told (u : Work) (n : BitVec 16) (arg : Int) : Work := { u with events := u.events ++ [(n, arg)] }
    -- entry to a state that drives nothing, from a state of charging or not
    let stops (st : ChState) : Work :=
      { w with c := { c with state := st, driven := 0, term := if c.state = .taper then 0 else c.term } }
    let faults (r : FaultReason) (timer : Nat) : Work :=
      { c := { c with state := .fault r, driven := 0, hold := false, term := 0 }
        events := w.events ++ [(0x0507, (r.code : Int))]
        reports := w.reports ++ [.chargerFault r.code timer c.state.code c.meas c.profile.vreg veff
          (c.prechargeUs / 1000000) (c.fastUs / 1000000)] }
    -- R165
    ((c.state.attached = true → c.state.faulted = false →
        (c.meas.temp.toInt < -400 → w.faultTests = faults .thermistor 0)
        ∧ (-400 ≤ c.meas.temp.toInt → c.profile.vreg + 100 < vbat → w.faultTests = faults .overvolt 0)
        ∧ (-400 ≤ c.meas.temp.toInt → vbat ≤ c.profile.vreg + 100 → w.faultTests = w))
      ∧ ((c.state.attached = false ∨ c.state.faulted = true) → w.faultTests = w)
      ∧ (c.state = .precharge → (1800000000 ≤ c.prechargeUs → w.timerCheck = faults .timer 0)
        ∧ (c.prechargeUs < 1800000000 → w.timerCheck = w))
      ∧ ((c.state = .fast ∨ c.state = .taper) → (c.profile.fastLimit * 1000000 ≤ c.fastUs → w.timerCheck = faults .timer 1)
        ∧ (c.fastUs < c.profile.fastLimit * 1000000 → w.timerCheck = w)))
    -- R164: the conditions in their order
    ∧ (c.hostPause = true → c.pauseCondition p = some .host)
    ∧ (c.hostPause = false → p ≠ .normal → c.pauseCondition p = some .path)
    ∧ (c.hostPause = false → p = .normal →
        (c.dieCap = true → c.pauseCondition p = some .dieHot)
        ∧ (c.dieCap = false → c.band = .hot → c.pauseCondition p = some .hot)
        ∧ (c.dieCap = false → c.band = .cold → c.pauseCondition p = some .cold)
        ∧ (c.dieCap = false → c.band ≠ .hot → c.band ≠ .cold →
            c.pauseCondition p = (if c.hold = true then some .budget else none)))
    -- R164: the tests
    ∧ (c.state.charging = true →
        (∀ r, c.pauseCondition p = some r → w.pauseTests p = told (stops (.paused r)) 0x0503 r.code)
        ∧ (c.pauseCondition p = none → w.pauseTests p = w))
    ∧ (∀ old, c.state = .paused old →
        (∀ r, c.pauseCondition p = some r → r ≠ old → w.pauseTests p = told (stops (.paused r)) 0x0503 r.code)
        ∧ (c.pauseCondition p = some old → w.pauseTests p = w)
        ∧ (c.pauseCondition p = none →
            w.pauseTests p = (told { w with c := { c with state := phase } } 0x0504 phase.code).timerCheck))
    ∧ (c.state.charging = false → (∀ old, c.state ≠ .paused old) → w.pauseTests p = w)
    -- R162 and R163: the step of an evaluation, the recharge out of FULL
    ∧ (c.state = .precharge → w.phaseStep p =
        if 3000 ≤ vbat then ({ w with c := { c with state := .fast } } : Work).timerCheck else w)
    ∧ (c.state = .fast →
        w.phaseStep p = if veff - 20 ≤ vbat then ({ w with c := { c with state := .taper } } : Work).timerCheck else w)
    ∧ (c.state = .full →
        (veff - 100 ≤ vbat → w.phaseStep p = w)
        ∧ (vbat < veff - 100 → (∀ r, c.pauseCondition p = some r → w.phaseStep p = told (stops (.paused r)) 0x0503 r.code)
          ∧ (c.pauseCondition p = none →
              w.phaseStep p = (told { w with c := { c with state := phase } } 0x0504 phase.code).timerCheck)))
    ∧ (c.state ≠ .precharge → c.state ≠ .fast → c.state ≠ .full → w.phaseStep p = w)
    -- R163: the termination count
    ∧ (c.state = .taper → 2 * c.profile.iterm ≤ c.terms.computed →
        ((c.profile.iterm : Int) ≤ c.meas.ibat.toInt → w.termStep = { w with c := { c with term := 0 } })
        ∧ (c.meas.ibat.toInt < c.profile.iterm → c.term < 9 → w.termStep = { w with c := { c with term := c.term + 1 } })
        ∧ (c.meas.ibat.toInt < c.profile.iterm → 9 ≤ c.term → w.termStep = told { w with
            c := { c with state := .full, driven := 0, prechargeUs := 0, fastUs := 0, term := 0 } } 0x0502 vbat))
    ∧ ((c.state ≠ .taper ∨ c.terms.computed < 2 * c.profile.iterm) → w.termStep = w)
    -- R171: the budget hold, tested against the terms of the evaluation
    ∧ (let d := c.compute a
      let l := d.terms.phaseLimit / 25 * 25
      d.terms.lp = (match a.power with
          | .active => c.profile.baseActive
          | .parked => c.profile.baseParked
          | .sleep => c.profile.baseSleep)
      ∧ (a.loadClass ≤ 3 → [c.profile.classes.a0, c.profile.classes.a1, c.profile.classes.a2, c.profile.classes.a3][a.loadClass]?
          = some d.terms.lc)
      ∧ d.terms.lcard = (if a.cardBusy = true then c.profile.lcard else 0)
      ∧ d.terms.available = c.iinLimit - (d.terms.lp + d.terms.lc + d.terms.lcard + c.droop)
      ∧ d.terms.budget = d.terms.available * c.meas.vin.toNat * 15 / (16 * max 2000 vbat)
      ∧ d.terms.cap = (if c.dieCap = true then 0 else match c.band with
          | .cold => 0
          | .cool => c.profile.ichgMax / 2
          | .normal => c.profile.ichgMax
          | .warm => c.profile.ichgMax / 2
          | .hot => 0)
      ∧ d = { c with terms := d.terms } ∧
      d.terms.phaseLimit =
          (if (if c.state.charging = true then c.state else phase) = .precharge then c.profile.ichgMax / 10 else c.profile.ichgMax)
      ∧ d.terms.computed = min d.terms.budget (min d.terms.phaseLimit d.terms.cap) / 25 * 25
      ∧ (c.hold = false → (c.state = .precharge ∨ c.state = .fast) → d.terms.computed < min 100 l →
          d.holdStep = { d with hold := true })
      ∧ (c.hold = false → ((c.state ≠ .precharge ∧ c.state ≠ .fast) ∨ min 100 l ≤ d.terms.computed) → d.holdStep = d)
      ∧ (c.hold = true → phase = .taper → d.holdStep = { d with hold := false })
      ∧ (c.hold = true → phase ≠ .taper → min 150 l ≤ d.terms.computed → d.holdStep = { d with hold := false })
      ∧ (c.hold = true → phase ≠ .taper → d.terms.computed < min 150 l → d.holdStep = d))
    -- R167: the order of the steps
    ∧ w.periodic a = ((((w.faultTests.on fun c =>
        ({ c with band := moveBand c.band c.meas.temp.toInt, dieCap := moveDieCap c.dieCap c.meas.die.toInt }
          : Charger).droopStep).phaseStep a.path).on fun c => (c.compute a).holdStep).pauseTests a.path).termStep.on Charger.drive
    ∧ w.prompt a = ((w.on fun c => (c.compute a).holdStep).pauseTests a.path).on Charger.drive

/-! ## Supply manager -/

/-- PATH_SET's checks and sequences (R182), the end of a change by confirmation and by its 2 ms limit (R180, R183), and the
comparator on the input (R181); how each end finishes the frame in hand (DONE OK with the mode, REFUSED SWITCH_FAILED, DONE INPUT_LOST
with the mode that results), asks for SUPPLY and lets the charger read the path mode. A sequence that begins while an earlier one is
under way takes its place (the model's choice, log entry 62). In NORMAL the collapse leaves BAT_SW closed also where a failed
confirmation had left it open (the model's choice, log entry 48). An attach's close of IN_SW waits for a change under way, and is driven
when that change has failed in NORMAL with the input present (the model's choice, log entry 25). The request for SUPPLY that a clear of LOW_BATTERY makes is dropped
whenever the exchange is not RUNNING (R185 against R90, the model's choice of the two rules, log entry 71). -/
def Obligations.PathSetAndSwitches : Prop :=
  ∀ (a : Ambient) (s : State), s.supply.held = false →
    let u := s.arrive a
    let v := s.supply
    let vbat := s.charger.meas.vbat.toNat
    -- a PATH_SET frame carried out and in hand
    let inHand : Bool := match s.xchg.hand .control with
      | some f => f.started && (match f.body with
          | .pathSet _ => true
          | _ => false)
      | none => false
    let finished (r : Status) (e : Result) (value : Nat) (t : State) : State :=
      if inHand then t.finish .control r e value else t
    -- the exchange asked for a refresh where a switch or the mode changes (R180)
    let shown (w : Supply) : Exchange :=
      if w.inSw ≠ v.inSw ∨ w.batSw ≠ v.batSw ∨ w.mode ≠ v.mode then { u.xchg with refreshAsked := true } else u.xchg
    (∀ code, s.frameBody .control = some (.pathSet code) →
      let refused (r : Result) : Prop := exec (.pathSet a) s = .next ((u.finish .control .refused r 0).rest)
      let begins (m : PathMode) (sw : Switch) : Prop := exec (.pathSet a) s = .next (State.rest { u with
        supply := { v with change := some { goal := .mode m, switch := sw, deadline := u.time + 2000, owed := v.owesClose } }
        xchg := u.xchg.startHand .control })
      (2 < code → exec (.pathSet a) s = .next (u.finish .control .refused .badField 0))
      ∧ (code = v.mode.code → exec (.pathSet a) s = .next (u.finish .control .done .ok 0))
      ∧ (code = 1 → v.mode ≠ .inputSuspend →
          ((v.batSw = true ∧ 3400 + 50 * min v.loadClass 3 ≤ vbat) → begins .inputSuspend .batSw)
          ∧ (¬(v.batSw = true ∧ 3400 + 50 * min v.loadClass 3 ≤ vbat) → refused .lowBattery))
      ∧ (code = 2 → v.mode ≠ .batteryIsolate →
          ((v.present = true ∧ v.inSw = true ∧ 4500 ≤ s.charger.meas.vin.toNat) → begins .batteryIsolate .inSw)
          ∧ (¬(v.present = true ∧ v.inSw = true ∧ 4500 ≤ s.charger.meas.vin.toNat) → refused .noInput))
      ∧ (code = 0 → v.mode = .batteryIsolate → begins .normal .batSw)
      ∧ (code = 0 → v.mode = .inputSuspend → v.present = true → begins .normal .inSw)
      ∧ (code = 0 → v.mode = .inputSuspend → v.present = false → exec (.pathSet a) s = .next (State.rest (State.pathRead emit
          (State.finish { u with
            supply := { v with mode := .normal, change := none }
            xchg := { u.xchg with refreshAsked := true } } .control .done .ok 0)))))
    ∧ (∀ sw, (∀ c, v.change = some c → c.switch ≠ sw ∨ timeReached c.deadline u.time = false) →
        exec (.switchConfirm a sw) s = .next u)
    ∧ (∀ c, v.change = some c → timeReached c.deadline u.time = true → ∃ t, exec (.switchConfirm a c.switch) s = .next t
        ∧ t.supply.change = none
        ∧ (match c.goal with
          | .attach => t.supply.inSw = true ∧ t.supply.batSw = v.batSw ∧ t.supply.mode = v.mode
          | .mode .inputSuspend => t.supply.batSw = true ∧ t.supply.inSw = false ∧ t.supply.mode = .inputSuspend
          | .mode .batteryIsolate => t.supply.inSw = true ∧ t.supply.batSw = false ∧ t.supply.mode = .batteryIsolate
          | .mode .normal => t.supply.mode = .normal ∧ t.supply.inSw = (v.inSw || c.switch == .inSw)
              ∧ t.supply.batSw = (v.batSw || c.switch == .batSw))
        ∧ (v.supplied = false → t.supply.supplied = true →
            t.supply.lowBattery = false ∧ t.supply.lowRun = 0 ∧ t.supply.highRun = 0)
        ∧ t.supply.present = v.present ∧ t.supply.loadClass = v.loadClass ∧ t.supply.switchFails = v.switchFails
        ∧ (let settled : Supply := match c.goal with
            | .attach => { v with change := none, inSw := true }
            | .mode .inputSuspend => { v with change := none, batSw := true, inSw := false, mode := .inputSuspend }
            | .mode .batteryIsolate => { v with change := none, inSw := true, batSw := false, mode := .batteryIsolate }
            | .mode .normal => { v with
                change := none, mode := .normal, inSw := v.inSw || c.switch == .inSw, batSw := v.batSw || c.switch == .batSw }
          let becomes := !v.supplied && settled.supplied
          let w : Supply := if becomes then { settled with
              lowBattery := false, lowRun := 0, highRun := 0, shutArmed := true, deepRun := 0, rearmRun := 0 } else settled
          let z : State := { u with
            supply := w
            xchg := if becomes && v.lowBattery && u.xchg.state == .running then (shown settled).request causeSupply
              else shown settled }
          (c.goal = .attach → t = z.rest)
          ∧ ∀ m, c.goal = .mode m → t = ((finished .done .ok m.code z).pathRead emit).rest))
    ∧ ((∀ c, v.change = some c → timeReached u.time c.deadline = false) → exec (.switchConfirmTimeout a) s = .next u)
    ∧ (∀ c, v.change = some c → timeReached u.time c.deadline = true → ∃ t, exec (.switchConfirmTimeout a) s = .next t
        ∧ t.supply.change = (if c.goal ≠ .attach ∧ c.owed = true ∧ v.mode = .normal ∧ v.present = true
              ∧ (v.inSw && !(c.switch == .inSw && v.batSw)) = false then
            some ({ goal := .attach, switch := .inSw, deadline := u.time + 2000, owed := false } : Change) else none)
        ∧ t.supply.switchFails = v.switchFails + 1 ∧ t.supply.mode = v.mode
        ∧ t.supply.inSw = (v.inSw && !(c.switch == .inSw && v.batSw))
        ∧ t.supply.batSw = (v.batSw && !(c.switch == .batSw && v.inSw))
        ∧ t.supply.present = v.present ∧ t.supply.lowBattery = v.lowBattery
        ∧ (let w : Supply := { v with
            change := none, switchFails := v.switchFails + 1
            inSw := v.inSw && !(c.switch == .inSw && v.batSw), batSw := v.batSw && !(c.switch == .batSw && v.inSw) }
          let z : State := { u with supply := w, xchg := (shown w).request causeSupply }
          (c.goal = .attach → t = z.rest)
          ∧ ∀ m, c.goal = .mode m → t = State.rest { finished .refused .switchFailed 0 z with supply :=
              if c.owed = true ∧ v.mode = .normal ∧ v.present = true ∧ w.inSw = false then { w with
                change := some { goal := .attach, switch := .inSw, deadline := u.time + 2000, owed := false } } else w }))
    ∧ exec (.vinCollapse a) s = .next (u.collapse emit).rest
    ∧ ∃ t, exec (.vinCollapse a) s = .next t ∧ t.supply.present = false ∧ t.supply.change = none
        ∧ (v.mode = .inputSuspend → t.supply.mode = .inputSuspend ∧ t.supply.inSw = v.inSw ∧ t.supply.batSw = v.batSw)
        ∧ (v.mode ≠ .inputSuspend → t.supply.mode = .normal ∧ t.supply.inSw = false ∧ t.supply.batSw = true)
        ∧ t.supply.lowBattery = v.lowBattery ∧ t.supply.switchFails = v.switchFails ∧ t.charger.meas = s.charger.meas
        ∧ (let isolated := v.mode = .batteryIsolate
          let w : Supply := if v.mode = .inputSuspend then { v with present := false, change := none }
            else { v with present := false, change := none, mode := .normal, inSw := false, batSw := true }
          let z : State := { u with supply := w, xchg := if isolated then (shown w).request causeSupply else shown w }
          let f := if v.change = none then z else finished .done .inputLost w.mode.code z
          t = if isolated then (f.pathRead emit).rest else f.rest)

/-- The low-battery and shutdown filters (R184, R186) with what an assertion, a clear and a notice bring (R185, R186), the DIE_HOT close
(R187), and the wakes (R190); a measurement ends with the three filters in this order (the model's choice, log entry 72). The
low-battery filter's request for SUPPLY is dropped whenever the exchange is not RUNNING, as R185 says, in STOPPED too, where R90 takes
a request (the model's choice of the two rules, log entry 71). -/
def Obligations.SupplyFiltersAndWakes : Prop :=
  -- the filters (R184, R186)
  (∀ (u : Supply) (vbat : Nat),
    let threshold := 3300 + 50 * min u.loadClass 3
    let supplied := u.present = true ∧ u.inSw = true
    (supplied →
      u.lowFilter vbat = ({ u with lowBattery := false, lowRun := 0, highRun := 0 }, if u.lowBattery then .clears else .nothing)
      ∧ u.shutFilter vbat = ({ u with shutArmed := true, deepRun := 0, rearmRun := 0 }, false))
    ∧ (¬supplied → u.lowBattery = false →
      (threshold ≤ vbat → u.lowFilter vbat = ({ u with lowRun := 0 }, .nothing))
      ∧ (vbat < threshold → u.lowRun < 2 → u.lowFilter vbat = ({ u with lowRun := u.lowRun + 1 }, .nothing))
      ∧ (vbat < threshold → 2 ≤ u.lowRun →
          u.lowFilter vbat = ({ u with lowBattery := true, lowRun := 0, highRun := 0 }, .asserts)))
    ∧ (¬supplied → u.lowBattery = true →
      (vbat < threshold + 100 → u.lowFilter vbat = ({ u with highRun := 0 }, .nothing))
      ∧ (threshold + 100 ≤ vbat → u.highRun < 2 → u.lowFilter vbat = ({ u with highRun := u.highRun + 1 }, .nothing))
      ∧ (threshold + 100 ≤ vbat → 2 ≤ u.highRun →
          u.lowFilter vbat = ({ u with lowBattery := false, lowRun := 0, highRun := 0 }, .clears)))
    ∧ (¬supplied → u.shutArmed = true →
      (3100 ≤ vbat → u.shutFilter vbat = ({ u with deepRun := 0 }, false))
      ∧ (vbat < 3100 → u.deepRun < 2 → u.shutFilter vbat = ({ u with deepRun := u.deepRun + 1 }, false))
      ∧ (vbat < 3100 → 2 ≤ u.deepRun →
          u.shutFilter vbat = ({ u with shutArmed := false, deepRun := u.deepRun + 1, rearmRun := 0 }, true)))
    ∧ (¬supplied → u.shutArmed = false →
      (vbat < 3200 → u.shutFilter vbat = ({ u with rearmRun := 0 }, false))
      ∧ (3200 ≤ vbat → u.rearmRun < 2 → u.shutFilter vbat = ({ u with rearmRun := u.rearmRun + 1 }, false))
      ∧ (3200 ≤ vbat → 2 ≤ u.rearmRun →
          u.shutFilter vbat = ({ u with shutArmed := true, deepRun := 0, rearmRun := 0 }, false))))
  -- what they bring (R185, R186, R187, R190)
  ∧ (∀ s : State,
    let vbat := s.charger.meas.vbat.toNat
    let die := s.charger.meas.die.toInt
    let low := s.supply.lowFilter vbat
    let shut := s.supply.shutFilter vbat
    let notice (n : BitVec 16) (u : State) : State := (State.raise emit n vbat u).onXchg fun x => x.request causeSupply
    let supplySet (u : State) : State := { u with xchg := u.xchg.request causeSupply }
    let lowSet (u : State) : State := if u.xchg.state = .running then supplySet u else u
    let graceFrom (u : State) : State :=
      if u.xchg.liveRecord = true ∧ u.card.grace = none then
        { u with card := { u.card with grace := some (u.time + 2000000) } } else u
    (low.2 = .nothing → s.lowStep emit = { s with supply := low.1 })
    ∧ (low.2 = .clears → s.lowStep emit = lowSet { s with supply := low.1 })
    ∧ (low.2 = .asserts → s.lowStep emit =
        graceFrom ((lowSet (State.raise emit 0x0505 vbat { s with supply := low.1 })).startClose .lowBattery))
    ∧ (shut.2 = false → s.shutStep emit = { s with supply := shut.1 })
    ∧ (shut.2 = true → s.shutStep emit = notice 0x0506 { s with supply := shut.1 })
    ∧ (1200 ≤ die → s.supply.dieHot = false →
        s.dieStep = graceFrom ((supplySet { s with supply := { s.supply with dieHot := true } }).startClose .dieHot))
    ∧ (1200 ≤ die → s.supply.dieHot = true → s.dieStep = s)
    ∧ (die < 1000 → s.supply.dieHot = true → s.dieStep = supplySet { s with supply := { s.supply with dieHot := false } })
    ∧ (die < 1000 → s.supply.dieHot = false → s.dieStep = s)
    ∧ (1000 ≤ die → die < 1200 → s.dieStep = s)
    ∧ (∀ r, s.supply.power ≠ .active → s.supply.wake = .none →
        s.wake r = { s with supply := { s.supply with wake := r, hostPower := true } })
    ∧ (∀ r, (s.supply.power = .active ∨ s.supply.wake ≠ .none) → s.wake r = s)
    ∧ s.directWake 0x0500 = s.wake .inputAttach
    ∧ (s.supply.power = .parked → s.directWake 0x0300 = s.wake .shock ∧ s.directWake 0x0203 = s.wake .timer)
    ∧ (s.supply.power ≠ .parked → s.directWake 0x0300 = s ∧ s.directWake 0x0203 = s)
    ∧ (∀ (f : Emit) (e : Event) (k : Sink), (k = .wakeA ∨ k = .wakeB) → s.act f k e =
        s.wake (if e.number = 0x0104 ∨ e.number = 0x0105 ∨ e.number = 0x0106 then .button else .routed)))
  ∧ ∀ (a : Ambient) (m : Measurement) (s : State), s.supply.held = false →
    timeReached (s.arrive a).time s.charger.nextMeasure = true →
    ∃ v : State, exec (.measurement a m) s = .next ((((v.lowStep emit).shutStep emit).dieStep).rest)
      ∧ v.charger.meas = m ∧ v.time = (s.arrive a).time ∧ v.supply.lowBattery = s.supply.lowBattery
      ∧ v.supply.lowRun = s.supply.lowRun ∧ v.supply.highRun = s.supply.highRun ∧ v.supply.shutArmed = s.supply.shutArmed
      ∧ v.supply.deepRun = s.supply.deepRun ∧ v.supply.rearmRun = s.supply.rearmRun ∧ v.supply.dieHot = s.supply.dieHot
      ∧ v.supply.loadClass = s.supply.loadClass

/-- POWER_STATE's checks in order, and the entry (R188, R189, R16, R17, R75): the frame finished, a link reset that keeps the reset
cause, timer 3 kept at entry to PARKED, host power-enable low, the wake reason NONE, the IMU set, and the prompt evaluation. That the
frame is finished without following its link is the model's choice (log entry 22). Whether a FAILED port becomes OFF at an entry to
SLEEP, as R17 words it, or stays FAILED, as R6 does, is a free value (log entry 50). The time of the entry is kept in a field of the
model's own (log entry 60). -/
def Obligations.PowerStateIsCheckedAndEntered : Prop :=
  ∀ (a : Ambient) (s : State) (code : Nat), s.supply.held = false → s.frameBody .control = some (.powerState code) →
    let u := s.arrive a
    let busy := s.writer.state ≠ .idle ∨ s.xchg.stack ≠ [] ∨ s.card.state = .writing ∨ s.card.state = .busy
      ∨ s.card.draining = true
    (2 < code → exec (.powerState a) s = .next (u.finish .control .refused .badField 0))
    ∧ (code = 0 → exec (.powerState a) s = .next (u.finish .control .done .noChange 0))
    ∧ ((code = 1 ∨ code = 2) → busy → exec (.powerState a) s = .next (u.finish .control .refused .busy 0))
    ∧ ((code = 1 ∨ code = 2) → ¬busy → ∃ z, exec (.powerState a) s = .next (State.rest (State.prompt emit z))
        ∧ z.supply = { s.supply with
            power := if code = 1 then .parked else .sleep, hostPower := false, wake := .none, entered := some u.time }
        ∧ z.time = u.time ∧ z.pending = s.pending ∧ z.charger = u.charger ∧ z.path = .reset ∧ z.store = .reset
        ∧ z.xchg.state = .off ∧ z.xchg.stack = [] ∧ z.xchg.cause = 0 ∧ z.xchg.mask = 0 ∧ z.xchg.anchor = none
        ∧ z.xchg.anchorLow = s.xchg.anchorLow ∧ z.xchg.anchorHigh = s.xchg.anchorHigh
        ∧ z.xchg.mem = (u.xchg.finishOnly .control .done .ok 0).mem
        ∧ z.router.routes = .default ∧ z.router.timers.a0 = .reset ∧ z.router.timers.a1 = .reset
        ∧ z.router.timers.a2 = .reset ∧ z.router.timers.a3 = (if code = 1 then s.router.timers.a3 else .reset)
        ∧ z.writer.state = .idle ∧ z.writer.gate = true ∧ z.card.list = [] ∧ z.card.raw = none ∧ z.card.capacity = 0
        ∧ (code = 1 → z.motion.parked = true ∧ z.motion.armed = true
            ∧ (s.motion.port = .failed → z.motion.port = .failed)
            ∧ (s.motion.port ≠ .failed → z.motion.port = .starting ∧ z.motion.imuPower = true
              ∧ z.motion.settleEnd = some (u.time + 50000)))
        ∧ (code = 2 → z.motion.port = (if s.motion.port = .failed ∧ Config.failedInSleep = true then .failed else .off)
            ∧ z.motion.imuPower = false ∧ z.motion.armed = true))

/-! ## The whole part -/

/-- Every step keeps every run of bytes in its canonical form (log entry 5). -/
def Obligations.StepsKeepBytesCanonical : Prop :=
  ∀ s t : State, s.memGood = true → step s = .next t → t.memGood = true

/-- Every step keeps every list within the capacity the manual gives it: the history ring (R12), the pending video frames (R51), the
motion-unit queue (R111), the pending-write list (R124), the extent pool (R142), the segment table (section 8.2), the report queue (R158),
the extents of each segment (R147), its listed incidents and those of a segment being opened (R153); and the table never holds more than
8 PROTECTED segments (R154). -/
def Obligations.StepsKeepCapacities : Prop :=
  ∀ s t : State, s.Capacities → step s = .next t → t.Capacities

/-- Every step keeps the two switches from being both open and the path mode in agreement with them (R180), and bits 11..0 of
ANCHOR_LOW at 0 (R77). -/
def Obligations.StepsKeepSwitchesAndAnchor : Prop :=
  ∀ s t : State, s.supply.SwitchesGood ∧ s.xchg.anchorAligned = true → step s = .next t →
    t.supply.SwitchesGood ∧ t.xchg.anchorAligned = true

/-- The state after reset is sound in every one of these ways. -/
def Obligations.ResetIsSound : Prop :=
  State.reset.memGood = true ∧ State.reset.Capacities ∧ State.reset.supply.SwitchesGood
    ∧ State.reset.xchg.anchorAligned = true

/-- Which commands can change the motion front end, the path unit's accumulators and settings, the routes, the lines and the timers:
those whose rules say so; every other command leaves them, whatever its events reach. -/
def Obligations.OnlyTheirCommandsChangeMotionPathAndRouter : Prop :=
  ∀ (i : Instr) (s t : State), s.supply.held = false → exec i s = .next t →
    let resets : Bool := match i with
      | .powerOnReset .. | .brownoutReset _ | .linkDown _ | .linkReset .. | .registerWrite .. | .powerState _ => true
      | _ => false
    let senses : Bool := match i with
      | .start _ | .motionSetup _ | .dataReadyEdge _ | .sampleReadComplete .. | .imuSettleEnd _ | .lossDeadline _
      | .lostPowerOffEnd _ | .runningOneSecond _ => true
      | _ => false
    (resets = false → senses = false → t.motion = s.motion)
    ∧ (resets = false → (match i with | .sampleReadComplete .. => false | _ => true) = true → t.path.acc = s.path.acc)
    ∧ (resets = false → (match i with | .motionSetup _ => false | _ => true) = true →
        t.path.mount = s.path.mount ∧ t.path.gain = s.path.gain ∧ t.path.shifts = s.path.shifts ∧ t.path.focal = s.path.focal
        ∧ t.path.mx = s.path.mx ∧ t.path.my = s.path.my ∧ t.path.rl = s.path.rl ∧ t.path.alert = s.path.alert
        ∧ t.path.bands = s.path.bands ∧ t.path.readout = s.path.readout)
    ∧ (resets = false → (match i with | .exposure _ => false | _ => true) = true → t.path.exposure = s.path.exposure)
    ∧ (resets = false → (match i with | .route _ => false | _ => true) = true → t.router.routes = s.router.routes)
    ∧ (resets = false → (match i with | .lineSetup _ | .inputLineEdge .. => false | _ => true) = true →
        t.router.lines = s.router.lines)
    ∧ (resets = false → (match i with | .timerSetup _ | .timerExpiry .. => false | _ => true) = true →
        t.router.timers = s.router.timers)

/-- Which commands can change the register window's ANCHOR registers and mask, the charge profile, the input limit, the measurement,
the schedules, the load class, the power state, the path mode and the switches; every other command leaves them. -/
def Obligations.OnlyTheirCommandsChangeSettingsAndSupply : Prop :=
  ∀ (i : Instr) (s t : State), s.supply.held = false → exec i s = .next t →
    let full : Bool := match i with
      | .powerOnReset .. | .brownoutReset _ => true
      | _ => false
    t.pending = s.pending
    ∧ (full = false → (match i with | .registerWrite .. => false | _ => true) = true →
        t.xchg.anchorLow = s.xchg.anchorLow ∧ t.xchg.anchorHigh = s.xchg.anchorHigh)
    ∧ (full = false → (match i with
          | .registerWrite .. | .causeMaskWrite .. | .linkReset .. | .linkDown _ | .powerState _ => false
          | _ => true) = true → t.xchg.mask = s.xchg.mask)
    ∧ (full = false → (match i with | .chargeSetup _ => false | _ => true) = true → t.charger.profile = s.charger.profile)
    ∧ (full = false → (match i with | .measurement .. => false | _ => true) = true →
        t.charger.meas = s.charger.meas ∧ t.charger.nextMeasure = s.charger.nextMeasure)
    ∧ (full = false → (match i with | .inputLimit _ | .measurement .. => false | _ => true) = true →
        t.charger.iinLimit = s.charger.iinLimit ∧ t.charger.limitGiven = s.charger.limitGiven)
    ∧ (full = false → (match i with | .periodicEvaluation _ => false | _ => true) = true →
        t.charger.nextEval = s.charger.nextEval)
    ∧ (full = false → (match i with | .loadClass _ => false | _ => true) = true → t.supply.loadClass = s.supply.loadClass)
    ∧ (full = false → (match i with
          | .start _ | .linkReset .. | .registerWrite .. | .powerState _ => false
          | _ => true) = true → t.supply.power = s.supply.power)
    ∧ (full = false → (match i with
          | .pathSet _ | .switchConfirm .. | .switchConfirmTimeout _ | .vinCollapse _ | .measurement .. => false
          | _ => true) = true →
        t.supply.mode = s.supply.mode ∧ t.supply.inSw = s.supply.inSw ∧ t.supply.batSw = s.supply.batSw
        ∧ t.supply.present = s.supply.present ∧ t.supply.switchFails = s.supply.switchFails)
end

