-- ==== Sys2Proof/Laws/State.lean ====
section
/-! SUPPORT. One lemma per field per update of the state, true by definition. -/

namespace Sys2Proof.Machine

/-! ## onXchg -/

@[simp] theorem State.onXchg_time (s : State) (f : Exchange → Exchange) : (s.onXchg f).time = s.time := rfl
@[simp] theorem State.onXchg_xchg (s : State) (f : Exchange → Exchange) : (s.onXchg f).xchg = f s.xchg := rfl
@[simp] theorem State.onXchg_motion (s : State) (f : Exchange → Exchange) : (s.onXchg f).motion = s.motion := rfl
@[simp] theorem State.onXchg_path (s : State) (f : Exchange → Exchange) : (s.onXchg f).path = s.path := rfl
@[simp] theorem State.onXchg_router (s : State) (f : Exchange → Exchange) : (s.onXchg f).router = s.router := rfl
@[simp] theorem State.onXchg_writer (s : State) (f : Exchange → Exchange) : (s.onXchg f).writer = s.writer := rfl
@[simp] theorem State.onXchg_card (s : State) (f : Exchange → Exchange) : (s.onXchg f).card = s.card := rfl
@[simp] theorem State.onXchg_store (s : State) (f : Exchange → Exchange) : (s.onXchg f).store = s.store := rfl
@[simp] theorem State.onXchg_charger (s : State) (f : Exchange → Exchange) : (s.onXchg f).charger = s.charger := rfl
@[simp] theorem State.onXchg_supply (s : State) (f : Exchange → Exchange) : (s.onXchg f).supply = s.supply := rfl
@[simp] theorem State.onXchg_race (s : State) (f : Exchange → Exchange) : (s.onXchg f).race = s.race := rfl
@[simp] theorem State.onXchg_events (s : State) (f : Exchange → Exchange) : (s.onXchg f).events = s.events := rfl
@[simp] theorem State.onXchg_backlog (s : State) (f : Exchange → Exchange) : (s.onXchg f).backlog = s.backlog := rfl
@[simp] theorem State.onXchg_pending (s : State) (f : Exchange → Exchange) : (s.onXchg f).pending = s.pending := rfl

/-! ## onMotion -/

@[simp] theorem State.onMotion_time (s : State) (f : Motion → Motion) : (s.onMotion f).time = s.time := rfl
@[simp] theorem State.onMotion_xchg (s : State) (f : Motion → Motion) : (s.onMotion f).xchg = s.xchg := rfl
@[simp] theorem State.onMotion_motion (s : State) (f : Motion → Motion) : (s.onMotion f).motion = f s.motion := rfl
@[simp] theorem State.onMotion_path (s : State) (f : Motion → Motion) : (s.onMotion f).path = s.path := rfl
@[simp] theorem State.onMotion_router (s : State) (f : Motion → Motion) : (s.onMotion f).router = s.router := rfl
@[simp] theorem State.onMotion_writer (s : State) (f : Motion → Motion) : (s.onMotion f).writer = s.writer := rfl
@[simp] theorem State.onMotion_card (s : State) (f : Motion → Motion) : (s.onMotion f).card = s.card := rfl
@[simp] theorem State.onMotion_store (s : State) (f : Motion → Motion) : (s.onMotion f).store = s.store := rfl
@[simp] theorem State.onMotion_charger (s : State) (f : Motion → Motion) : (s.onMotion f).charger = s.charger := rfl
@[simp] theorem State.onMotion_supply (s : State) (f : Motion → Motion) : (s.onMotion f).supply = s.supply := rfl
@[simp] theorem State.onMotion_race (s : State) (f : Motion → Motion) : (s.onMotion f).race = s.race := rfl
@[simp] theorem State.onMotion_events (s : State) (f : Motion → Motion) : (s.onMotion f).events = s.events := rfl
@[simp] theorem State.onMotion_backlog (s : State) (f : Motion → Motion) : (s.onMotion f).backlog = s.backlog := rfl
@[simp] theorem State.onMotion_pending (s : State) (f : Motion → Motion) : (s.onMotion f).pending = s.pending := rfl

/-! ## onPath -/

@[simp] theorem State.onPath_time (s : State) (f : Path → Path) : (s.onPath f).time = s.time := rfl
@[simp] theorem State.onPath_xchg (s : State) (f : Path → Path) : (s.onPath f).xchg = s.xchg := rfl
@[simp] theorem State.onPath_motion (s : State) (f : Path → Path) : (s.onPath f).motion = s.motion := rfl
@[simp] theorem State.onPath_path (s : State) (f : Path → Path) : (s.onPath f).path = f s.path := rfl
@[simp] theorem State.onPath_router (s : State) (f : Path → Path) : (s.onPath f).router = s.router := rfl
@[simp] theorem State.onPath_writer (s : State) (f : Path → Path) : (s.onPath f).writer = s.writer := rfl
@[simp] theorem State.onPath_card (s : State) (f : Path → Path) : (s.onPath f).card = s.card := rfl
@[simp] theorem State.onPath_store (s : State) (f : Path → Path) : (s.onPath f).store = s.store := rfl
@[simp] theorem State.onPath_charger (s : State) (f : Path → Path) : (s.onPath f).charger = s.charger := rfl
@[simp] theorem State.onPath_supply (s : State) (f : Path → Path) : (s.onPath f).supply = s.supply := rfl
@[simp] theorem State.onPath_race (s : State) (f : Path → Path) : (s.onPath f).race = s.race := rfl
@[simp] theorem State.onPath_events (s : State) (f : Path → Path) : (s.onPath f).events = s.events := rfl
@[simp] theorem State.onPath_backlog (s : State) (f : Path → Path) : (s.onPath f).backlog = s.backlog := rfl
@[simp] theorem State.onPath_pending (s : State) (f : Path → Path) : (s.onPath f).pending = s.pending := rfl

/-! ## onRouter -/

@[simp] theorem State.onRouter_time (s : State) (f : Router → Router) : (s.onRouter f).time = s.time := rfl
@[simp] theorem State.onRouter_xchg (s : State) (f : Router → Router) : (s.onRouter f).xchg = s.xchg := rfl
@[simp] theorem State.onRouter_motion (s : State) (f : Router → Router) : (s.onRouter f).motion = s.motion := rfl
@[simp] theorem State.onRouter_path (s : State) (f : Router → Router) : (s.onRouter f).path = s.path := rfl
@[simp] theorem State.onRouter_router (s : State) (f : Router → Router) : (s.onRouter f).router = f s.router := rfl
@[simp] theorem State.onRouter_writer (s : State) (f : Router → Router) : (s.onRouter f).writer = s.writer := rfl
@[simp] theorem State.onRouter_card (s : State) (f : Router → Router) : (s.onRouter f).card = s.card := rfl
@[simp] theorem State.onRouter_store (s : State) (f : Router → Router) : (s.onRouter f).store = s.store := rfl
@[simp] theorem State.onRouter_charger (s : State) (f : Router → Router) : (s.onRouter f).charger = s.charger := rfl
@[simp] theorem State.onRouter_supply (s : State) (f : Router → Router) : (s.onRouter f).supply = s.supply := rfl
@[simp] theorem State.onRouter_race (s : State) (f : Router → Router) : (s.onRouter f).race = s.race := rfl
@[simp] theorem State.onRouter_events (s : State) (f : Router → Router) : (s.onRouter f).events = s.events := rfl
@[simp] theorem State.onRouter_backlog (s : State) (f : Router → Router) : (s.onRouter f).backlog = s.backlog := rfl
@[simp] theorem State.onRouter_pending (s : State) (f : Router → Router) : (s.onRouter f).pending = s.pending := rfl

/-! ## onWriter -/

@[simp] theorem State.onWriter_time (s : State) (f : Writer → Writer) : (s.onWriter f).time = s.time := rfl
@[simp] theorem State.onWriter_xchg (s : State) (f : Writer → Writer) : (s.onWriter f).xchg = s.xchg := rfl
@[simp] theorem State.onWriter_motion (s : State) (f : Writer → Writer) : (s.onWriter f).motion = s.motion := rfl
@[simp] theorem State.onWriter_path (s : State) (f : Writer → Writer) : (s.onWriter f).path = s.path := rfl
@[simp] theorem State.onWriter_router (s : State) (f : Writer → Writer) : (s.onWriter f).router = s.router := rfl
@[simp] theorem State.onWriter_writer (s : State) (f : Writer → Writer) : (s.onWriter f).writer = f s.writer := rfl
@[simp] theorem State.onWriter_card (s : State) (f : Writer → Writer) : (s.onWriter f).card = s.card := rfl
@[simp] theorem State.onWriter_store (s : State) (f : Writer → Writer) : (s.onWriter f).store = s.store := rfl
@[simp] theorem State.onWriter_charger (s : State) (f : Writer → Writer) : (s.onWriter f).charger = s.charger := rfl
@[simp] theorem State.onWriter_supply (s : State) (f : Writer → Writer) : (s.onWriter f).supply = s.supply := rfl
@[simp] theorem State.onWriter_race (s : State) (f : Writer → Writer) : (s.onWriter f).race = s.race := rfl
@[simp] theorem State.onWriter_events (s : State) (f : Writer → Writer) : (s.onWriter f).events = s.events := rfl
@[simp] theorem State.onWriter_backlog (s : State) (f : Writer → Writer) : (s.onWriter f).backlog = s.backlog := rfl
@[simp] theorem State.onWriter_pending (s : State) (f : Writer → Writer) : (s.onWriter f).pending = s.pending := rfl

/-! ## onCard -/

@[simp] theorem State.onCard_time (s : State) (f : Card → Card) : (s.onCard f).time = s.time := rfl
@[simp] theorem State.onCard_xchg (s : State) (f : Card → Card) : (s.onCard f).xchg = s.xchg := rfl
@[simp] theorem State.onCard_motion (s : State) (f : Card → Card) : (s.onCard f).motion = s.motion := rfl
@[simp] theorem State.onCard_path (s : State) (f : Card → Card) : (s.onCard f).path = s.path := rfl
@[simp] theorem State.onCard_router (s : State) (f : Card → Card) : (s.onCard f).router = s.router := rfl
@[simp] theorem State.onCard_writer (s : State) (f : Card → Card) : (s.onCard f).writer = s.writer := rfl
@[simp] theorem State.onCard_card (s : State) (f : Card → Card) : (s.onCard f).card = f s.card := rfl
@[simp] theorem State.onCard_store (s : State) (f : Card → Card) : (s.onCard f).store = s.store := rfl
@[simp] theorem State.onCard_charger (s : State) (f : Card → Card) : (s.onCard f).charger = s.charger := rfl
@[simp] theorem State.onCard_supply (s : State) (f : Card → Card) : (s.onCard f).supply = s.supply := rfl
@[simp] theorem State.onCard_race (s : State) (f : Card → Card) : (s.onCard f).race = s.race := rfl
@[simp] theorem State.onCard_events (s : State) (f : Card → Card) : (s.onCard f).events = s.events := rfl
@[simp] theorem State.onCard_backlog (s : State) (f : Card → Card) : (s.onCard f).backlog = s.backlog := rfl
@[simp] theorem State.onCard_pending (s : State) (f : Card → Card) : (s.onCard f).pending = s.pending := rfl

/-! ## onStore -/

@[simp] theorem State.onStore_time (s : State) (f : Store → Store) : (s.onStore f).time = s.time := rfl
@[simp] theorem State.onStore_xchg (s : State) (f : Store → Store) : (s.onStore f).xchg = s.xchg := rfl
@[simp] theorem State.onStore_motion (s : State) (f : Store → Store) : (s.onStore f).motion = s.motion := rfl
@[simp] theorem State.onStore_path (s : State) (f : Store → Store) : (s.onStore f).path = s.path := rfl
@[simp] theorem State.onStore_router (s : State) (f : Store → Store) : (s.onStore f).router = s.router := rfl
@[simp] theorem State.onStore_writer (s : State) (f : Store → Store) : (s.onStore f).writer = s.writer := rfl
@[simp] theorem State.onStore_card (s : State) (f : Store → Store) : (s.onStore f).card = s.card := rfl
@[simp] theorem State.onStore_store (s : State) (f : Store → Store) : (s.onStore f).store = f s.store := rfl
@[simp] theorem State.onStore_charger (s : State) (f : Store → Store) : (s.onStore f).charger = s.charger := rfl
@[simp] theorem State.onStore_supply (s : State) (f : Store → Store) : (s.onStore f).supply = s.supply := rfl
@[simp] theorem State.onStore_race (s : State) (f : Store → Store) : (s.onStore f).race = s.race := rfl
@[simp] theorem State.onStore_events (s : State) (f : Store → Store) : (s.onStore f).events = s.events := rfl
@[simp] theorem State.onStore_backlog (s : State) (f : Store → Store) : (s.onStore f).backlog = s.backlog := rfl
@[simp] theorem State.onStore_pending (s : State) (f : Store → Store) : (s.onStore f).pending = s.pending := rfl

/-! ## onCharger -/

@[simp] theorem State.onCharger_time (s : State) (f : Charger → Charger) : (s.onCharger f).time = s.time := rfl
@[simp] theorem State.onCharger_xchg (s : State) (f : Charger → Charger) : (s.onCharger f).xchg = s.xchg := rfl
@[simp] theorem State.onCharger_motion (s : State) (f : Charger → Charger) : (s.onCharger f).motion = s.motion := rfl
@[simp] theorem State.onCharger_path (s : State) (f : Charger → Charger) : (s.onCharger f).path = s.path := rfl
@[simp] theorem State.onCharger_router (s : State) (f : Charger → Charger) : (s.onCharger f).router = s.router := rfl
@[simp] theorem State.onCharger_writer (s : State) (f : Charger → Charger) : (s.onCharger f).writer = s.writer := rfl
@[simp] theorem State.onCharger_card (s : State) (f : Charger → Charger) : (s.onCharger f).card = s.card := rfl
@[simp] theorem State.onCharger_store (s : State) (f : Charger → Charger) : (s.onCharger f).store = s.store := rfl
@[simp] theorem State.onCharger_charger (s : State) (f : Charger → Charger) : (s.onCharger f).charger = f s.charger := rfl
@[simp] theorem State.onCharger_supply (s : State) (f : Charger → Charger) : (s.onCharger f).supply = s.supply := rfl
@[simp] theorem State.onCharger_race (s : State) (f : Charger → Charger) : (s.onCharger f).race = s.race := rfl
@[simp] theorem State.onCharger_events (s : State) (f : Charger → Charger) : (s.onCharger f).events = s.events := rfl
@[simp] theorem State.onCharger_backlog (s : State) (f : Charger → Charger) : (s.onCharger f).backlog = s.backlog := rfl
@[simp] theorem State.onCharger_pending (s : State) (f : Charger → Charger) : (s.onCharger f).pending = s.pending := rfl

/-! ## onSupply -/

@[simp] theorem State.onSupply_time (s : State) (f : Supply → Supply) : (s.onSupply f).time = s.time := rfl
@[simp] theorem State.onSupply_xchg (s : State) (f : Supply → Supply) : (s.onSupply f).xchg = s.xchg := rfl
@[simp] theorem State.onSupply_motion (s : State) (f : Supply → Supply) : (s.onSupply f).motion = s.motion := rfl
@[simp] theorem State.onSupply_path (s : State) (f : Supply → Supply) : (s.onSupply f).path = s.path := rfl
@[simp] theorem State.onSupply_router (s : State) (f : Supply → Supply) : (s.onSupply f).router = s.router := rfl
@[simp] theorem State.onSupply_writer (s : State) (f : Supply → Supply) : (s.onSupply f).writer = s.writer := rfl
@[simp] theorem State.onSupply_card (s : State) (f : Supply → Supply) : (s.onSupply f).card = s.card := rfl
@[simp] theorem State.onSupply_store (s : State) (f : Supply → Supply) : (s.onSupply f).store = s.store := rfl
@[simp] theorem State.onSupply_charger (s : State) (f : Supply → Supply) : (s.onSupply f).charger = s.charger := rfl
@[simp] theorem State.onSupply_supply (s : State) (f : Supply → Supply) : (s.onSupply f).supply = f s.supply := rfl
@[simp] theorem State.onSupply_race (s : State) (f : Supply → Supply) : (s.onSupply f).race = s.race := rfl
@[simp] theorem State.onSupply_events (s : State) (f : Supply → Supply) : (s.onSupply f).events = s.events := rfl
@[simp] theorem State.onSupply_backlog (s : State) (f : Supply → Supply) : (s.onSupply f).backlog = s.backlog := rfl
@[simp] theorem State.onSupply_pending (s : State) (f : Supply → Supply) : (s.onSupply f).pending = s.pending := rfl

/-! ## The arrival -/

@[simp] theorem State.arrive_time (s : State) (a : Ambient) : (s.arrive a).time = timeAfter s.time a.elapsed := rfl
@[simp] theorem State.arrive_motion (s : State) (a : Ambient) : (s.arrive a).motion = s.motion := rfl
@[simp] theorem State.arrive_path (s : State) (a : Ambient) : (s.arrive a).path = s.path := rfl
@[simp] theorem State.arrive_router (s : State) (a : Ambient) : (s.arrive a).router = s.router := rfl
@[simp] theorem State.arrive_writer (s : State) (a : Ambient) : (s.arrive a).writer = s.writer := rfl
@[simp] theorem State.arrive_card (s : State) (a : Ambient) : (s.arrive a).card = s.card := rfl
@[simp] theorem State.arrive_store (s : State) (a : Ambient) : (s.arrive a).store = s.store := rfl
@[simp] theorem State.arrive_charger (s : State) (a : Ambient) : (s.arrive a).charger = s.charger.pass a.elapsed := rfl
@[simp] theorem State.arrive_supply (s : State) (a : Ambient) : (s.arrive a).supply = s.supply := rfl
@[simp] theorem State.arrive_race (s : State) (a : Ambient) : (s.arrive a).race = { lanes := a.laneOrder, sinks := a.sinkOrder, directFirst := a.directFirst } := rfl
@[simp] theorem State.arrive_events (s : State) (a : Ambient) : (s.arrive a).events = [] := rfl
@[simp] theorem State.arrive_backlog (s : State) (a : Ambient) : (s.arrive a).backlog = s.backlog := rfl
@[simp] theorem State.arrive_pending (s : State) (a : Ambient) : (s.arrive a).pending = s.pending := rfl
@[simp] theorem State.arrive_xchg_anchorLow (s : State) (a : Ambient) : (s.arrive a).xchg.anchorLow = s.xchg.anchorLow := rfl
@[simp] theorem State.arrive_xchg_anchorHigh (s : State) (a : Ambient) : (s.arrive a).xchg.anchorHigh = s.xchg.anchorHigh := rfl
@[simp] theorem State.arrive_xchg_state (s : State) (a : Ambient) : (s.arrive a).xchg.state = s.xchg.state := rfl
@[simp] theorem State.arrive_xchg_check (s : State) (a : Ambient) : (s.arrive a).xchg.check = s.xchg.check := rfl
@[simp] theorem State.arrive_xchg_starting (s : State) (a : Ambient) : (s.arrive a).xchg.starting = s.xchg.starting := rfl
@[simp] theorem State.arrive_xchg_cause (s : State) (a : Ambient) : (s.arrive a).xchg.cause = s.xchg.cause := rfl
@[simp] theorem State.arrive_xchg_mask (s : State) (a : Ambient) : (s.arrive a).xchg.mask = s.xchg.mask := rfl
@[simp] theorem State.arrive_xchg_anchor (s : State) (a : Ambient) : (s.arrive a).xchg.anchor = s.xchg.anchor := rfl
@[simp] theorem State.arrive_xchg_consumed (s : State) (a : Ambient) : (s.arrive a).xchg.consumed = s.xchg.consumed := rfl
@[simp] theorem State.arrive_xchg_readCopy (s : State) (a : Ambient) : (s.arrive a).xchg.readCopy = s.xchg.readCopy := rfl
@[simp] theorem State.arrive_xchg_writeCount (s : State) (a : Ambient) : (s.arrive a).xchg.writeCount = s.xchg.writeCount := rfl
@[simp] theorem State.arrive_xchg_control (s : State) (a : Ambient) : (s.arrive a).xchg.control = s.xchg.control := rfl
@[simp] theorem State.arrive_xchg_chunk (s : State) (a : Ambient) : (s.arrive a).xchg.chunk = s.xchg.chunk := rfl
@[simp] theorem State.arrive_xchg_recovery (s : State) (a : Ambient) : (s.arrive a).xchg.recovery = s.xchg.recovery := rfl
@[simp] theorem State.arrive_xchg_stack (s : State) (a : Ambient) : (s.arrive a).xchg.stack = s.xchg.stack := rfl
@[simp] theorem State.arrive_xchg_nextScan (s : State) (a : Ambient) : (s.arrive a).xchg.nextScan = s.xchg.nextScan := rfl
@[simp] theorem State.arrive_xchg_nextRefresh (s : State) (a : Ambient) : (s.arrive a).xchg.nextRefresh = s.xchg.nextRefresh := rfl
@[simp] theorem State.arrive_xchg_refreshCount (s : State) (a : Ambient) : (s.arrive a).xchg.refreshCount = s.xchg.refreshCount := rfl
@[simp] theorem State.arrive_xchg_recErrors (s : State) (a : Ambient) : (s.arrive a).xchg.recErrors = s.xchg.recErrors := rfl
@[simp] theorem State.arrive_xchg_linkUp (s : State) (a : Ambient) : (s.arrive a).xchg.linkUp = s.xchg.linkUp := rfl
@[simp] theorem State.arrive_xchg_messages (s : State) (a : Ambient) : (s.arrive a).xchg.messages = s.xchg.messages := rfl
@[simp] theorem State.arrive_mem (s : State) (a : Ambient) : (s.arrive a).xchg.mem = applyWrites s.xchg.mem a.hostWrites := rfl
@[simp] theorem State.arrive_badReads (s : State) (a : Ambient) : (s.arrive a).xchg.badReads = a.badReads := rfl

/-- What every command of an unheld part answers. -/
theorem perform_free {a : Ambient} {s : State} {effect : State → State} (h : s.supply.held = false) :
    perform a s effect = .next (effect (s.arrive a)) := by simp [perform, h]

/-- What every command of a held part answers. -/
theorem perform_held {a : Ambient} {s : State} {effect : State → State} (h : s.supply.held = true) :
    perform a s effect = .next (s.arriveHeld a) := by simp [perform, h]

/-- A frame that a lane has in hand and has not begun (log entry 2). -/
theorem State.frameBody_some {s : State} {l : Lane} {b : Body} (h : s.frameBody l = some b) :
    ∃ f, s.xchg.hand l = some f ∧ f.started = false ∧ f.body = b := by
  unfold State.frameBody at h
  cases hf : s.xchg.hand l with
  | none => simp [hf] at h
  | some f => cases hs : f.started <;> simp_all

end Sys2Proof.Machine
end

