-- ==== Sys2Proof/Laws/Memory.lean ====
section
/-! SUPPORT. Sparse bytes: reads after writes, and that every operation keeps the canonical form. -/

namespace Sys2Proof.Machine

/-- Addresses strictly rising from a bound and below another, no zero cell. -/
theorem memWfFrom_iff {lo : Nat} {m : Mem} :
    memWfFrom lo m = true ↔ m.Pairwise (fun c d => c.1 < d.1) ∧ ∀ c ∈ m, lo ≤ c.1 ∧ c.2 ≠ 0 := by
  induction m generalizing lo with
  | nil => simp [memWfFrom]
  | cons c m ih =>
    obtain ⟨k, b⟩ := c
    simp only [memWfFrom, Bool.and_eq_true, decide_eq_true_eq, bne_iff_ne, ne_eq, ih, List.pairwise_cons, List.mem_cons,
      forall_eq_or_imp]
    constructor
    · rintro ⟨⟨h1, h2⟩, h3, h4⟩
      exact ⟨⟨fun d hd => (h4 d hd).1, h3⟩, ⟨h1, h2⟩, fun d hd => ⟨by have := (h4 d hd).1; omega, (h4 d hd).2⟩⟩
    · rintro ⟨⟨h1, h2⟩, ⟨h3, h4⟩, h5⟩
      exact ⟨⟨h3, h4⟩, h2, fun d hd => ⟨h1 d hd, (h5 d hd).2⟩⟩

/-- The canonical form: addresses strictly rise, no cell is zero. -/
theorem memWf_iff {m : Mem} : memWf m = true ↔ m.Pairwise (fun c d => c.1 < d.1) ∧ ∀ c ∈ m, c.2 ≠ 0 := by
  simp [memWf, memWfFrom_iff]

/-- A splice of a canonical block that lies in its range keeps the canonical form. -/
theorem memWf_splice {m block : Mem} {a n : Nat} (hm : memWf m = true) (hb : memWf block = true)
    (hr : ∀ c ∈ block, a ≤ c.1 ∧ c.1 < a + n) : memWf (memSplice m a n block) = true := by
  rw [memWf_iff] at *
  obtain ⟨hp, hz⟩ := hm
  obtain ⟨bp, bz⟩ := hb
  have hlo : ∀ c ∈ m.takeWhile (fun c => decide (c.1 < a)), c.1 < a := by
    intro c hc
    have := List.mem_takeWhile_imp hc
    simpa using this
  have hhi : ∀ c ∈ m.dropWhile (fun c => decide (c.1 < a + n)), a + n ≤ c.1 := by
    intro c hc
    rcases hd : m.dropWhile (fun c => decide (c.1 < a + n)) with _ | ⟨d, l⟩
    · simp [hd] at hc
    · have hfirst : ¬ d.1 < a + n := by
        have := List.head?_dropWhile_not (fun c : Host.Cell => decide (c.1 < a + n)) m
        rw [hd] at this
        simpa using this
      have hsub : (d :: l).Pairwise (fun c d => c.1 < d.1) := by
        rw [← hd]; exact hp.sublist (List.dropWhile_sublist _)
      rw [hd] at hc
      rcases List.mem_cons.1 hc with rfl | hc
      · omega
      · have := (List.pairwise_cons.1 hsub).1 c hc
        omega
  refine ⟨?_, ?_⟩
  · unfold memSplice
    rw [List.pairwise_append, List.pairwise_append]
    refine ⟨⟨hp.sublist (List.takeWhile_sublist _), bp, ?_⟩, hp.sublist (List.dropWhile_sublist _), ?_⟩
    · intro c hc d hd
      have := hlo c hc
      have := (hr d hd).1
      omega
    · intro c hc d hd
      have h2 := hhi d hd
      rcases List.mem_append.1 hc with hc | hc
      · have := hlo c hc
        omega
      · have := (hr c hc).2
        omega
  · intro c hc
    unfold memSplice at hc
    rcases List.mem_append.1 hc with hc | hc
    · rcases List.mem_append.1 hc with hc | hc
      · exact hz c ((List.takeWhile_sublist _).subset hc)
      · exact bz c hc
    · exact hz c ((List.dropWhile_sublist _).subset hc)

/-- The cells of bytes are canonical and lie where the bytes lie. -/
theorem memCells_spec (a : Nat) (l : List Byte) :
    memWf (memCells a l) = true ∧ ∀ c ∈ memCells a l, a ≤ c.1 ∧ c.1 < a + l.length := by
  induction l generalizing a with
  | nil => simp [memCells, memWf, memWfFrom]
  | cons b l ih =>
    obtain ⟨hw, hr⟩ := ih (a + 1)
    rw [memWf_iff] at hw
    unfold memCells
    split
    · refine ⟨memWf_iff.2 hw, fun c hc => ?_⟩
      have := hr c hc
      simp only [List.length_cons]
      omega
    · rename_i hb
      refine ⟨memWf_iff.2 ⟨List.pairwise_cons.2 ⟨fun c hc => ?_, hw.1⟩, ?_⟩, ?_⟩
      · have := hr c hc
        simp only
        omega
      · intro c hc
        rcases List.mem_cons.1 hc with rfl | hc
        · exact hb
        · exact hw.2 c hc
      · intro c hc
        simp only [List.length_cons]
        rcases List.mem_cons.1 hc with rfl | hc
        · simp
        · have := hr c hc
          omega

/-- A write keeps the canonical form. -/
theorem memWf_write {m : Mem} {a : Nat} {l : List Byte} (h : memWf m = true) : memWf (memWrite m a l) = true :=
  memWf_splice h (memCells_spec a l).1 (memCells_spec a l).2

/-- Bytes made zero keep the canonical form. -/
theorem memWf_zero {m : Mem} {a n : Nat} (h : memWf m = true) : memWf (memZero m a n) = true :=
  memWf_splice h rfl (by simp)

/-- The cells of a moved range are canonical and lie in the range they are moved to. -/
theorem memMove_spec {m : Mem} {a n b : Nat} (h : memWf m = true) :
    memWf (memMove m a n b) = true ∧ ∀ c ∈ memMove m a n b, b ≤ c.1 ∧ c.1 < b + n := by
  rw [memWf_iff] at *
  have hin : ∀ c ∈ m.filter (fun c => decide (a ≤ c.1) && decide (c.1 < a + n)), a ≤ c.1 ∧ c.1 < a + n := by
    intro c hc
    simpa using (List.mem_filter.1 hc).2
  refine ⟨⟨?_, ?_⟩, ?_⟩
  · unfold memMove
    rw [List.pairwise_map]
    refine List.Pairwise.imp_of_mem ?_ (h.1.sublist List.filter_sublist)
    intro c d hc hd hcd
    have := hin c hc
    have := hin d hd
    simp only
    omega
  · intro c hc
    obtain ⟨d, hd, rfl⟩ := List.mem_map.1 hc
    exact h.2 d (List.mem_filter.1 hd).1
  · intro c hc
    obtain ⟨d, hd, rfl⟩ := List.mem_map.1 hc
    have := hin d hd
    simp only
    omega

/-- A copy from canonical bytes keeps the canonical form. -/
theorem memWf_copy {dst src : Mem} {a b n : Nat} (h : memWf dst = true) (hs : memWf src = true) :
    memWf (memCopy dst b src a n) = true :=
  memWf_splice h (memMove_spec hs).1 (memMove_spec hs).2

/-- Cells brought to the canonical form have it. -/
theorem memWf_ofCells (l : List Host.Cell) : memWf (memOfCells l) = true := by
  unfold memOfCells
  suffices h : ∀ (l : List Host.Cell) (m : Mem), memWf m = true → memWf (l.foldl (fun m c => memWrite m c.1 [c.2]) m) = true from
    h l [] rfl
  intro l
  induction l with
  | nil => exact fun m h => h
  | cons c l ih => exact fun m h => ih _ (memWf_write h)

/-- The host's writes keep the canonical form. -/
theorem memWf_applyWrites (ws : List HostWrite) (m : Mem) (h : memWf m = true) : memWf (applyWrites m ws) = true := by
  unfold applyWrites
  induction ws generalizing m with
  | nil => exact h
  | cons w ws ih => exact ih _ (memWf_write h)

/-! ## Reads -/

/-- A byte read from a concatenation whose first part has no cell at the address. -/
theorem memByte_append_right {m n : Mem} {x : Nat} (h : ∀ c ∈ m, c.1 ≠ x) : memByte (m ++ n) x = memByte n x := by
  induction m with
  | nil => rfl
  | cons c m ih =>
    obtain ⟨k, b⟩ := c
    have hk : k ≠ x := h (k, b) (by simp)
    simp only [List.cons_append, memByte, hk, if_false]
    exact ih fun c hc => h c (by simp [hc])

/-- A byte read from a concatenation whose second part has no cell at the address. -/
theorem memByte_append_left {m n : Mem} {x : Nat} (h : ∀ c ∈ n, c.1 ≠ x) : memByte (m ++ n) x = memByte m x := by
  induction m with
  | nil =>
    induction n with
    | nil => rfl
    | cons c n ih =>
      obtain ⟨k, b⟩ := c
      have hk : k ≠ x := h (k, b) (by simp)
      simp only [List.nil_append, memByte, hk, if_false] at *
      exact ih fun c hc => h c (by simp [hc])
  | cons c m ih =>
    obtain ⟨k, b⟩ := c
    simp only [List.cons_append, memByte]
    split
    · rfl
    · exact ih

/-- The part of canonical bytes below an address, and the part at or above it. -/
theorem memWf_split {m : Mem} (h : memWf m = true) (a : Nat) :
    (∀ c ∈ m.takeWhile (fun c => decide (c.1 < a)), c.1 < a) ∧ (∀ c ∈ m.dropWhile (fun c => decide (c.1 < a)), a ≤ c.1) := by
  rw [memWf_iff] at h
  refine ⟨fun c hc => by simpa using List.mem_takeWhile_imp hc, fun c hc => ?_⟩
  rcases hd : m.dropWhile (fun c => decide (c.1 < a)) with _ | ⟨d, l⟩
  · simp [hd] at hc
  · have hfirst : ¬ d.1 < a := by
      have := List.head?_dropWhile_not (fun c : Host.Cell => decide (c.1 < a)) m
      rw [hd] at this
      simpa using this
    have hsub : (d :: l).Pairwise (fun c d => c.1 < d.1) := by
      rw [← hd]; exact h.1.sublist (List.dropWhile_sublist _)
    rw [hd] at hc
    rcases List.mem_cons.1 hc with rfl | hc
    · omega
    · have := (List.pairwise_cons.1 hsub).1 c hc
      omega

/-- A splice leaves every byte outside its range. -/
theorem memByte_splice_other {m block : Mem} {a n x : Nat} (hm : memWf m = true)
    (hr : ∀ c ∈ block, a ≤ c.1 ∧ c.1 < a + n) (hx : x < a ∨ a + n ≤ x) :
    memByte (memSplice m a n block) x = memByte m x := by
  have hb : ∀ c ∈ block, c.1 ≠ x := fun c hc => by have := hr c hc; omega
  obtain ⟨_, l2⟩ := memWf_split hm a
  obtain ⟨h1, h2⟩ := memWf_split hm (a + n)
  unfold memSplice
  rcases hx with hx | hx
  · rw [memByte_append_left (fun c hc => by have := h2 c hc; omega), memByte_append_left hb]
    conv_rhs => rw [← List.takeWhile_append_dropWhile (p := fun c : Host.Cell => decide (c.1 < a)) (l := m)]
    rw [memByte_append_left (fun c hc => by have := l2 c hc; omega)]
  · rw [memByte_append_right]
    · conv_rhs => rw [← List.takeWhile_append_dropWhile (p := fun c : Host.Cell => decide (c.1 < a + n)) (l := m)]
      rw [memByte_append_right (fun c hc => by have := h1 c hc; omega)]
    · intro c hc
      rcases List.mem_append.1 hc with hc | hc
      · have : c.1 < a := by simpa using List.mem_takeWhile_imp hc
        omega
      · exact hb c hc

/-- A splice shows its block inside its range. -/
theorem memByte_splice_same {m block : Mem} {a n x : Nat} (hm : memWf m = true) (h1 : a ≤ x) (h2 : x < a + n) :
    memByte (memSplice m a n block) x = memByte block x := by
  obtain ⟨h, _⟩ := memWf_split hm a
  obtain ⟨_, h'⟩ := memWf_split hm (a + n)
  unfold memSplice
  rw [memByte_append_left (fun c hc => by have := h' c hc; omega), memByte_append_right (fun c hc => by have := h c hc; omega)]

/-- The byte of a list laid from an address upward. -/
theorem memByte_memCells (a : Nat) (l : List Byte) (i : Nat) : memByte (memCells a l) (a + i) = l.getD i 0 := by
  induction l generalizing a i with
  | nil => simp [memCells, memByte]
  | cons b l ih =>
    have hout : ∀ c ∈ memCells (a + 1) l, c.1 ≠ a := fun c hc => by have := (memCells_spec (a + 1) l).2 c hc; omega
    cases i with
    | zero =>
      unfold memCells
      split
      · rename_i hb
        have := memByte_append_right (n := []) hout
        simp only [List.append_nil, memByte] at this
        simpa [hb] using this
      · simp [memByte]
    | succ i =>
      have := ih (a + 1) i
      unfold memCells
      split
      · simpa [show a + (i + 1) = a + 1 + i by omega] using this
      · simp only [memByte, show a ≠ a + (i + 1) by omega, if_false]
        simpa [show a + (i + 1) = a + 1 + i by omega] using this

/-- A write leaves every byte outside it. -/
theorem memByte_write_other {m : Mem} {a x : Nat} {l : List Byte} (hm : memWf m = true) (hx : x < a ∨ a + l.length ≤ x) :
    memByte (memWrite m a l) x = memByte m x := memByte_splice_other hm (memCells_spec a l).2 hx

/-- A write is read back. -/
theorem memByte_write_same {m : Mem} {a i : Nat} {l : List Byte} (hm : memWf m = true) (hi : i < l.length) :
    memByte (memWrite m a l) (a + i) = l.getD i 0 := by
  rw [memWrite, memByte_splice_same hm (by omega) (by omega), memByte_memCells]

/-! ## Fields of several bytes -/

@[simp] theorem memBytes_length (m : Mem) (a n : Nat) : (memBytes m a n).length = n := by
  induction n generalizing a with
  | zero => rfl
  | succ n ih => simp [memBytes, ih]

theorem memBytes_min (m : Mem) (a n k : Nat) : memBytes m a (min n k) = (memBytes m a k).take n := by
  induction n generalizing a k with
  | zero => simp [memBytes]
  | succ n ih =>
    cases k with
    | zero => simp [memBytes]
    | succ k => rw [Nat.succ_min_succ]; simp [memBytes, ih]

theorem memBytes_congr {m m' : Mem} {a n : Nat} (h : ∀ b, a ≤ b → b < a + n → memByte m b = memByte m' b) :
    memBytes m a n = memBytes m' a n := by
  induction n generalizing a with
  | zero => rfl
  | succ n ih =>
    simp only [memBytes]
    rw [h a (by omega) (by omega), ih fun b h1 h2 => h b (by omega) (by omega)]

/-- A field depends on its own bytes alone. -/
theorem memNat_congr {m m' : Mem} {a n : Nat} (h : ∀ b, a ≤ b → b < a + n → memByte m b = memByte m' b) :
    memNat m a n = memNat m' a n := by rw [memNat, memNat, memBytes_congr h]

/-- A write leaves every field outside it. -/
theorem memNat_write_other {m : Mem} {a b n : Nat} {l : List Byte} (hm : memWf m = true) (h : b + n ≤ a ∨ a + l.length ≤ b) :
    memNat (memWrite m a l) b n = memNat m b n :=
  memNat_congr fun _ _ _ => memByte_write_other hm (by omega)

/-- Bytes written are read back. -/
theorem memBytes_write_same {m : Mem} {a : Nat} {l : List Byte} (hm : memWf m = true) :
    memBytes (memWrite m a l) a l.length = l := by
  have key : ∀ k, k ≤ l.length → memBytes (memWrite m a l) (a + (l.length - k)) k = l.drop (l.length - k) := by
    intro k
    induction k with
    | zero => intro _; simp [memBytes]
    | succ k ih =>
      intro hk
      have h2 : a + (l.length - (k + 1)) + 1 = a + (l.length - k) := by omega
      have h3 : l.length - (k + 1) < l.length := by omega
      rw [memBytes, h2, ih (by omega), memByte_write_same hm h3, List.drop_eq_getElem_cons h3,
        show l.length - (k + 1) + 1 = l.length - k by omega]
      simp [List.getD_eq_getElem?_getD, h3]
  simpa using key l.length le_rfl

theorem leBytes_length (n x : Nat) : (leBytes n x).length = n := by
  induction n generalizing x with
  | zero => rfl
  | succ n ih => simp [leBytes, ih]

/-- The number of a little-endian field. -/
theorem leNat_leBytes (n x : Nat) : leNat (leBytes n x) = x % 256 ^ n := by
  induction n generalizing x with
  | zero => simp [leBytes, leNat, Nat.mod_one]
  | succ n ih =>
    simp only [leBytes, leNat, ih, BitVec.toNat_ofNat]
    rw [show (256 : Nat) ^ (n + 1) = 256 * 256 ^ n by ring, Nat.mod_mul]

/-- A number written is read back. -/
theorem memNat_write_same {m : Mem} {a n x : Nat} (hm : memWf m = true) :
    memNat (memWrite m a (leBytes n x)) a n = x % 256 ^ n := by
  have := memBytes_write_same (a := a) (l := leBytes n x) hm
  rw [leBytes_length] at this
  rw [memNat, this, leNat_leBytes]

end Sys2Proof.Machine
end

