-- ==== Sys2Proof/Laws/Engine.lean ====
section
/-! SUPPORT. What every operation of the exchange engine leaves: the window's registers, the link, the copy of the anchor, the canonical form of host memory. -/

namespace Sys2Proof.Machine

/-- What the engine's work on frames, records and counts leaves of the engine; host memory keeps its canonical form. -/
structure XKept (x y : Exchange) : Prop where
  anchorLow : y.anchorLow = x.anchorLow
  anchorHigh : y.anchorHigh = x.anchorHigh
  mask : y.mask = x.mask
  linkUp : y.linkUp = x.linkUp
  anchor : y.anchor = x.anchor
  badReads : y.badReads = x.badReads
  starting : y.starting = x.starting
  check : y.check = x.check
  nextRefresh : y.nextRefresh = x.nextRefresh
  mem : memWf x.mem = true → memWf y.mem = true

theorem XKept.refl (x : Exchange) : XKept x x := ⟨rfl, rfl, rfl, rfl, rfl, rfl, rfl, rfl, rfl, id⟩

theorem XKept.trans {x y z : Exchange} (a : XKept x y) (b : XKept y z) : XKept x z :=
  ⟨b.1.trans a.1, b.2.trans a.2, b.3.trans a.3, b.4.trans a.4, b.5.trans a.5, b.6.trans a.6, b.7.trans a.7, b.8.trans a.8,
   b.9.trans a.9, fun h => b.10 (a.10 h)⟩

/-- The same memory and the same kept fields. -/
theorem XKept.same {x y : Exchange} (h1 : y.anchorLow = x.anchorLow) (h2 : y.anchorHigh = x.anchorHigh) (h3 : y.mask = x.mask)
    (h4 : y.linkUp = x.linkUp) (h5 : y.anchor = x.anchor) (h6 : y.badReads = x.badReads) (h7 : y.starting = x.starting)
    (h8 : y.check = x.check) (h9 : y.nextRefresh = x.nextRefresh) (h10 : y.mem = x.mem) : XKept x y :=
  ⟨h1, h2, h3, h4, h5, h6, h7, h8, h9, fun h => h10 ▸ h⟩

theorem Exchange.kept_setLane (x : Exchange) (l : Lane) (v : LaneSt) : XKept x (x.setLane l v) := by
  cases l <;> exact .same rfl rfl rfl rfl rfl rfl rfl rfl rfl rfl

theorem Exchange.kept_put (x : Exchange) (a : Nat) (l : List Byte) : XKept x (x.put a l) :=
  ⟨rfl, rfl, rfl, rfl, rfl, rfl, rfl, rfl, rfl, memWf_write⟩

theorem Exchange.kept_putAnchor (x : Exchange) (o : Nat) (l : List Byte) : XKept x (x.putAnchor o l) := by
  unfold Exchange.putAnchor
  split
  · exact .refl x
  · exact x.kept_put _ _

theorem Exchange.kept_message (x : Exchange) (b : Bool) : XKept x (x.message b) := by
  unfold Exchange.message
  split
  · exact .same rfl rfl rfl rfl rfl rfl rfl rfl rfl rfl
  · exact .refl x

theorem Exchange.kept_request (x : Exchange) (f : BitVec 9) : XKept x (x.request f) := by
  unfold Exchange.request
  split
  · exact (x.kept_message _).trans (.same rfl rfl rfl rfl rfl rfl rfl rfl rfl rfl)
  · exact .refl x

theorem Exchange.kept_showLane (x : Exchange) (l : Lane) : XKept x (x.showLane l) := x.kept_putAnchor _ _

theorem Exchange.kept_showLanes (x : Exchange) : XKept x x.showLanes :=
  ((x.kept_showLane _).trans (Exchange.kept_showLane _ _)).trans (Exchange.kept_showLane _ _)

theorem XKept.put {x y : Exchange} (h : XKept x y) (a : Nat) (l : List Byte) : XKept x (y.put a l) := h.trans (y.kept_put a l)

theorem XKept.putAnchor {x y : Exchange} (h : XKept x y) (o : Nat) (l : List Byte) : XKept x (y.putAnchor o l) :=
  h.trans (y.kept_putAnchor o l)

theorem XKept.setLane {x y : Exchange} (h : XKept x y) (l : Lane) (v : LaneSt) : XKept x (y.setLane l v) :=
  h.trans (y.kept_setLane l v)

theorem XKept.showLane {x y : Exchange} (h : XKept x y) (l : Lane) : XKept x (y.showLane l) := h.trans (y.kept_showLane l)

theorem XKept.showLanes {x y : Exchange} (h : XKept x y) : XKept x y.showLanes := h.trans y.kept_showLanes

theorem XKept.request {x y : Exchange} (h : XKept x y) (f : BitVec 9) : XKept x (y.request f) := h.trans (y.kept_request f)

theorem XKept.message {x y : Exchange} (h : XKept x y) (b : Bool) : XKept x (y.message b) := h.trans (y.kept_message b)

theorem Exchange.kept_stop (x : Exchange) : XKept x x.stop := by
  unfold Exchange.stop
  refine .request (.showLanes ?_) _
  exact .same rfl rfl rfl rfl rfl rfl rfl rfl rfl rfl

theorem Exchange.kept_push (x : Exchange) (r : FaultRec) : XKept x (x.push r) := by
  unfold Exchange.push
  cases x.anchor with
  | none => exact .refl x
  | some a =>
    dsimp only
    by_cases h : x.state ≠ .running
    · rw [if_pos h]; exact .refl x
    · rw [if_neg h]
      cases x.fits r
      · exact x.kept_stop
      · refine .request (.showLanes (.putAnchor ?_ _ _)) _
        exact (x.kept_put _ _).trans (.same rfl rfl rfl rfl rfl rfl rfl rfl rfl rfl)

theorem Exchange.kept_pop (x : Exchange) : XKept x x.pop := by
  unfold Exchange.pop
  refine .putAnchor ?_ _ _
  exact .same rfl rfl rfl rfl rfl rfl rfl rfl rfl rfl

/-- A request made or not. -/
theorem XKept.requestIf {x y : Exchange} (h : XKept x y) (c : Bool) (f : BitVec 9) :
    XKept x (if c then y.request f else y) := by
  cases c
  · exact h
  · exact h.request f

theorem Exchange.kept_complete (x : Exchange) (l : Lane) (f : HeldFrame) (st : Status) (r : Result) (v : Nat) :
    XKept x (x.complete l f st r v) := by
  unfold Exchange.complete
  exact .requestIf (.showLane (.putAnchor (.setLane (.put (.put (.refl x) _ _) _ _) _ _) _ _) _) _ _

theorem Exchange.kept_frameFault (now : Time) (l : Lane) (p : Point) (f : HeldFrame) (r : FrameReason) (x : Exchange) :
    XKept x (x.frameFault now l p f r) := (x.kept_setLane _ _).trans (Exchange.kept_push _ _)

theorem Exchange.kept_dataFault (now : Time) (l : Lane) (x : Exchange) : XKept x (x.dataFault now l) := by
  unfold Exchange.dataFault
  split
  · exact .refl x
  · exact Exchange.kept_frameFault _ _ _ _ _ _

theorem Exchange.kept_markTaken (x : Exchange) (l : Lane) (a : Nat) (again : Bool) : XKept x (x.markTaken l a again) :=
  (((x.kept_put _ _).trans (Exchange.kept_setLane _ _ _)).trans (Exchange.kept_putAnchor _ _ _)).trans (Exchange.kept_putAnchor _ _ _)

theorem Exchange.kept_takeFrame (now : Time) (l : Lane) (a : Nat) (again : Bool) (x : Exchange) :
    XKept x (x.takeFrame now l a again) := by
  unfold Exchange.takeFrame
  dsimp only
  split
  · split
    · exact (x.kept_setLane _ _).trans (.same rfl rfl rfl rfl rfl rfl rfl rfl rfl rfl)
    · exact Exchange.kept_frameFault _ _ _ _ _ _
  · split
    · split
      · exact (x.kept_markTaken _ _ _).trans (Exchange.kept_complete _ _ _ _ _ _)
      · exact (x.kept_markTaken _ _ _).trans (Exchange.kept_frameFault _ _ _ _ _ _)
    · split
      · exact (x.kept_markTaken _ _ _).trans (Exchange.kept_complete _ _ _ _ _ _)
      · split
        · exact (x.kept_markTaken _ _ _).trans (Exchange.kept_frameFault _ _ _ _ _ _)
        · exact ((x.kept_markTaken _ _ _).trans (Exchange.kept_setLane _ _ _)).trans (Exchange.kept_showLane _ _)

theorem Exchange.kept_linkFault (now : Time) (l : Lane) (f : HeldFrame) (x : Exchange) : XKept x (x.linkFault now l f) := by
  unfold Exchange.linkFault
  split
  · exact .same rfl rfl rfl rfl rfl rfl rfl rfl rfl rfl
  · exact Exchange.kept_frameFault _ _ _ _ _ _

theorem Exchange.kept_laneMove (gate : Bool) (now : Time) (l : Lane) (x : Exchange) : XKept x (x.laneMove gate now l).1 := by
  unfold Exchange.laneMove
  split
  · exact .refl x
  · split
    · exact .refl x
    · exact Exchange.kept_takeFrame _ _ _ _ _
    · split
      · exact Exchange.kept_linkFault _ _ _ _
      · dsimp only
        split
        · exact .refl x
        · exact x.kept_setLane _ _

theorem Exchange.kept_follow (gate : Bool) (now : Time) (l : Lane) (n : Nat) (x : Exchange) :
    XKept x (x.follow gate now l n) := by
  induction n generalizing x with
  | zero => exact .refl x
  | succ n ih =>
    unfold Exchange.follow
    have h := x.kept_laneMove gate now l
    revert h
    generalize x.laneMove gate now l = p
    obtain ⟨y, more⟩ := p
    intro h
    cases more
    · exact h
    · exact h.trans (ih y)

theorem Exchange.kept_look (gate : Bool) (now : Time) (l : Lane) (x : Exchange) : XKept x (x.look gate now l) :=
  Exchange.kept_follow _ _ _ _ _

theorem Exchange.kept_finish (gate : Bool) (now : Time) (l : Lane) (st : Status) (r : Result) (v : Nat) (x : Exchange) :
    XKept x (x.finish gate now l st r v) := by
  unfold Exchange.finish
  split
  · exact .refl x
  · split
    · exact x.kept_setLane _ _
    · exact (Exchange.kept_complete _ _ _ _ _ _).trans (Exchange.kept_look _ _ _ _)

theorem Exchange.kept_finishOnly (l : Lane) (st : Status) (r : Result) (v : Nat) (x : Exchange) :
    XKept x (x.finishOnly l st r v) := by
  unfold Exchange.finishOnly
  split
  · exact .refl x
  · split
    · exact x.kept_setLane _ _
    · exact Exchange.kept_complete _ _ _ _ _ _

theorem Exchange.kept_release (gate : Bool) (now : Time) (l : Lane) (x : Exchange) : XKept x (x.release gate now l) := by
  unfold Exchange.release
  split
  · exact .refl x
  · split
    · exact ((x.kept_setLane _ _).trans (Exchange.kept_takeFrame _ _ _ _ _)).trans (Exchange.kept_look _ _ _ _)
    · exact (x.kept_showLane _).trans (Exchange.kept_look _ _ _ _)

theorem Exchange.kept_startHand (l : Lane) (x : Exchange) : XKept x (x.startHand l) := by
  unfold Exchange.startHand
  split
  · exact .refl x
  · exact x.kept_setLane _ _

theorem Exchange.kept_readCounts (x : Exchange) : XKept x x.readCounts := by
  unfold Exchange.readCounts
  split
  · exact .refl x
  · split
    · exact .same rfl rfl rfl rfl rfl rfl rfl rfl rfl rfl
    · exact .refl x

theorem Exchange.kept_lookAll (gate : Bool) (now : Time) (order : List Lane) (x : Exchange) :
    XKept x (x.lookAll gate now order) := by
  unfold Exchange.lookAll
  induction order generalizing x with
  | nil => exact .refl x
  | cons l order ih => exact (x.kept_look gate now l).trans (ih _)

theorem Exchange.kept_poll (gate : Bool) (now : Time) (order : List Lane) (x : Exchange) : XKept x (x.poll gate now order) := by
  unfold Exchange.poll
  split
  · exact x.kept_readCounts.trans (Exchange.kept_lookAll _ _ _ _)
  · exact .refl x

theorem Exchange.kept_popForRetake (l : Lane) (p : Point) (x : Exchange) : XKept x (x.popForRetake l p) := by
  unfold Exchange.popForRetake
  dsimp only
  split
  · exact x.kept_pop.trans (Exchange.kept_setLane _ _ _)
  · exact x.kept_pop

theorem Exchange.kept_faultHeld (l : Lane) (r : FrameReason) (x : Exchange) : XKept x (x.faultHeld l r) := by
  unfold Exchange.faultHeld
  split
  · exact .refl x
  · dsimp only
    split
    · exact (x.kept_setLane _ _).trans (Exchange.kept_complete _ _ _ _ _ _)
    · exact x.kept_setLane _ _

theorem Exchange.kept_supersede (x : Exchange) : XKept x x.supersede := by
  unfold Exchange.supersede
  generalize markSuperseded x.stack = p
  obtain ⟨stack, d⟩ := p
  dsimp only
  split
  · refine .put ?_ _ _
    exact .same rfl rfl rfl rfl rfl rfl rfl rfl rfl rfl
  · exact .same rfl rfl rfl rfl rfl rfl rfl rfl rfl rfl

theorem Exchange.kept_writeWarp (x : Exchange) (a : Nat) (r : WarpRecord) : XKept x (x.writeWarp a r) :=
  ((x.kept_put _ _).trans (Exchange.kept_put _ _ _)).trans (Exchange.kept_put _ _ _)

end Sys2Proof.Machine
end

