-- ==== Sys2Proof/Laws/Kept.lean ====
section
/-! SUPPORT. What the blocks' own work and the delivery of events leave: for each block a relation between the state before and after, and for the whole part their sum. -/

namespace Sys2Proof.Machine

/-! ## The relations, block by block -/

/-- Path unit: accumulators and settings stay; the pending list stays within its bound. -/
structure PathKept (p q : Path) : Prop where
  acc : q.acc = p.acc
  mount : q.mount = p.mount
  gain : q.gain = p.gain
  shifts : q.shifts = p.shifts
  focal : q.focal = p.focal
  mx : q.mx = p.mx
  my : q.my = p.my
  rl : q.rl = p.rl
  alert : q.alert = p.alert
  bands : q.bands = p.bands
  readout : q.readout = p.readout
  exposure : q.exposure = p.exposure
  frames : p.frames.length ≤ 2 → q.frames.length ≤ 2

theorem PathKept.refl (p : Path) : PathKept p p := ⟨rfl, rfl, rfl, rfl, rfl, rfl, rfl, rfl, rfl, rfl, rfl, rfl, id⟩

theorem PathKept.trans {p q r : Path} (a : PathKept p q) (b : PathKept q r) : PathKept p r :=
  ⟨b.1.trans a.1, b.2.trans a.2, b.3.trans a.3, b.4.trans a.4, b.5.trans a.5, b.6.trans a.6, b.7.trans a.7, b.8.trans a.8,
   b.9.trans a.9, b.10.trans a.10, b.11.trans a.11, b.12.trans a.12, fun h => b.13 (a.13 h)⟩

/-- Clip assembler: canonical bytes stay canonical, the motion-unit queue stays within its bound. -/
structure WriterKept (w v : Writer) : Prop where
  mem : w.memGood = true → v.memGood = true
  units : w.queue.length ≤ 4 → v.queue.length ≤ 4

theorem WriterKept.refl (w : Writer) : WriterKept w w := ⟨id, id⟩

theorem WriterKept.trans {w v u : Writer} (a : WriterKept w v) (b : WriterKept v u) : WriterKept w u :=
  ⟨fun h => b.1 (a.1 h), fun h => b.2 (a.2 h)⟩

/-- Card port: canonical bytes stay canonical, the pending-write list stays within its bound. -/
structure CardKept (c d : Card) : Prop where
  mem : c.memGood = true → d.memGood = true
  writes : c.list.length ≤ 3 → d.list.length ≤ 3

theorem CardKept.refl (c : Card) : CardKept c c := ⟨id, id⟩

theorem CardKept.trans {c d e : Card} (a : CardKept c d) (b : CardKept d e) : CardKept c e :=
  ⟨fun h => b.1 (a.1 h), fun h => b.2 (a.2 h)⟩

/-- A segment's lists stay within their bounds. -/
def Seg.Bounded (g : Seg) : Prop := g.exts.length ≤ 8 ∧ g.incidents.length ≤ 8

/-- The lists of every segment, and of the one being opened, stay within their bounds. -/
def Store.Bounded (st : Store) : Prop := st.openIncidents.length ≤ 8 ∧ ∀ g ∈ st.table, g.Bounded

/-- Storage map: the pool, the table, the report queue, the segments' lists and the PROTECTED segments stay within their bounds. -/
structure StoreKept (a b : Store) : Prop where
  pool : a.pool.length ≤ 64 → b.pool.length ≤ 64
  table : a.table.length ≤ 16 → b.table.length ≤ 16
  reports : a.queue.length ≤ 8 → b.queue.length ≤ 8
  bounded : a.Bounded → b.Bounded
  guarded : a.protectedCount ≤ 8 → b.protectedCount ≤ 8

theorem StoreKept.refl (a : Store) : StoreKept a a := ⟨id, id, id, id, id⟩

theorem StoreKept.trans {a b c : Store} (h : StoreKept a b) (k : StoreKept b c) : StoreKept a c :=
  ⟨fun x => k.1 (h.1 x), fun x => k.2 (h.2 x), fun x => k.3 (h.3 x), fun x => k.4 (h.4 x), fun x => k.5 (h.5 x)⟩

/-- Charger: measurement, profile, limits, bands, droop, timers and schedules stay. -/
structure ChargerKept (c d : Charger) : Prop where
  meas : d.meas = c.meas
  fresh : d.fresh = c.fresh
  profile : d.profile = c.profile
  iinLimit : d.iinLimit = c.iinLimit
  limitGiven : d.limitGiven = c.limitGiven
  band : d.band = c.band
  dieCap : d.dieCap = c.dieCap
  droop : d.droop = c.droop
  prechargeUs : d.prechargeUs = c.prechargeUs
  fastUs : d.fastUs = c.fastUs
  nextMeasure : d.nextMeasure = c.nextMeasure
  nextEval : d.nextEval = c.nextEval

theorem ChargerKept.refl (c : Charger) : ChargerKept c c := ⟨rfl, rfl, rfl, rfl, rfl, rfl, rfl, rfl, rfl, rfl, rfl, rfl⟩

theorem ChargerKept.trans {c d e : Charger} (a : ChargerKept c d) (b : ChargerKept d e) : ChargerKept c e :=
  ⟨b.1.trans a.1, b.2.trans a.2, b.3.trans a.3, b.4.trans a.4, b.5.trans a.5, b.6.trans a.6, b.7.trans a.7, b.8.trans a.8,
   b.9.trans a.9, b.10.trans a.10, b.11.trans a.11, b.12.trans a.12⟩

/-- Supply manager: only the wake reason and host power-enable may change. -/
def SupplyKept (u v : Supply) : Prop := v = { u with wake := v.wake, hostPower := v.hostPower }

theorem SupplyKept.refl (u : Supply) : SupplyKept u u := rfl

theorem SupplyKept.trans {u v w : Supply} (a : SupplyKept u v) (b : SupplyKept v w) : SupplyKept u w := by
  unfold SupplyKept at *; rw [b, a]

theorem SupplyKept.inSw {u v : Supply} (h : SupplyKept u v) : v.inSw = u.inSw := by rw [h]
theorem SupplyKept.batSw {u v : Supply} (h : SupplyKept u v) : v.batSw = u.batSw := by rw [h]
theorem SupplyKept.mode {u v : Supply} (h : SupplyKept u v) : v.mode = u.mode := by rw [h]
theorem SupplyKept.present {u v : Supply} (h : SupplyKept u v) : v.present = u.present := by rw [h]
theorem SupplyKept.change {u v : Supply} (h : SupplyKept u v) : v.change = u.change := by rw [h]
theorem SupplyKept.loadClass {u v : Supply} (h : SupplyKept u v) : v.loadClass = u.loadClass := by rw [h]
theorem SupplyKept.lowBattery {u v : Supply} (h : SupplyKept u v) : v.lowBattery = u.lowBattery := by rw [h]
theorem SupplyKept.lowRun {u v : Supply} (h : SupplyKept u v) : v.lowRun = u.lowRun := by rw [h]
theorem SupplyKept.highRun {u v : Supply} (h : SupplyKept u v) : v.highRun = u.highRun := by rw [h]
theorem SupplyKept.shutArmed {u v : Supply} (h : SupplyKept u v) : v.shutArmed = u.shutArmed := by rw [h]
theorem SupplyKept.deepRun {u v : Supply} (h : SupplyKept u v) : v.deepRun = u.deepRun := by rw [h]
theorem SupplyKept.rearmRun {u v : Supply} (h : SupplyKept u v) : v.rearmRun = u.rearmRun := by rw [h]
theorem SupplyKept.dieHot {u v : Supply} (h : SupplyKept u v) : v.dieHot = u.dieHot := by rw [h]
theorem SupplyKept.switchFails {u v : Supply} (h : SupplyKept u v) : v.switchFails = u.switchFails := by rw [h]
theorem SupplyKept.power {u v : Supply} (h : SupplyKept u v) : v.power = u.power := by rw [h]
theorem SupplyKept.cause {u v : Supply} (h : SupplyKept u v) : v.cause = u.cause := by rw [h]
theorem SupplyKept.held {u v : Supply} (h : SupplyKept u v) : v.held = u.held := by rw [h]

/-- What delivering events and coming to rest leave of the whole part; events are only added to the record of them. -/
structure Kept (s t : State) : Prop where
  time : t.time = s.time
  motion : t.motion = s.motion
  pending : t.pending = s.pending
  race : t.race = s.race
  routes : t.router.routes = s.router.routes
  lines : t.router.lines = s.router.lines
  timers : t.router.timers = s.router.timers
  xchg : XKept s.xchg t.xchg
  path : PathKept s.path t.path
  bytes : memWf s.xchg.mem = true → s.writer.memGood = true → t.writer.memGood = true
  units : s.writer.queue.length ≤ 4 → t.writer.queue.length ≤ 4
  card : CardKept s.card t.card
  store : StoreKept s.store t.store
  charger : ChargerKept s.charger t.charger
  supply : SupplyKept s.supply t.supply
  events : s.events <+: t.events

theorem Kept.refl (s : State) : Kept s s :=
  ⟨rfl, rfl, rfl, rfl, rfl, rfl, rfl, .refl _, .refl _, fun _ => id, id, .refl _, .refl _, .refl _, rfl, List.prefix_rfl⟩

theorem Kept.trans {s t u : State} (a : Kept s t) (b : Kept t u) : Kept s u :=
  ⟨b.1.trans a.1, b.2.trans a.2, b.3.trans a.3, b.4.trans a.4, b.5.trans a.5, b.6.trans a.6, b.7.trans a.7, a.8.trans b.8,
   a.9.trans b.9, fun m h => b.10 (a.8.mem m) (a.10 m h), fun h => b.11 (a.11 h), a.12.trans b.12, a.13.trans b.13,
   a.14.trans b.14, a.15.trans b.15, a.16.trans b.16⟩

theorem Kept.onXchg {s t : State} (h : Kept s t) {f : Exchange → Exchange} (k : XKept t.xchg (f t.xchg)) :
    Kept s (t.onXchg f) := { h with xchg := h.xchg.trans k }

theorem Kept.onPath {s t : State} (h : Kept s t) {f : Path → Path} (k : PathKept t.path (f t.path)) :
    Kept s (t.onPath f) := { h with path := h.path.trans k }

theorem Kept.onWriter {s t : State} (h : Kept s t) {f : Writer → Writer} (k : WriterKept t.writer (f t.writer)) :
    Kept s (t.onWriter f) := { h with bytes := fun m g => k.mem (h.bytes m g), units := fun g => k.units (h.units g) }

theorem Kept.onCard {s t : State} (h : Kept s t) {f : Card → Card} (k : CardKept t.card (f t.card)) :
    Kept s (t.onCard f) := { h with card := h.card.trans k }

theorem Kept.onStore {s t : State} (h : Kept s t) {f : Store → Store} (k : StoreKept t.store (f t.store)) :
    Kept s (t.onStore f) := { h with store := h.store.trans k }

theorem Kept.withStore {s t : State} (h : Kept s t) {st : Store} (k : StoreKept t.store st) :
    Kept s { t with store := st } := { h with store := h.store.trans k }

theorem Kept.withWriter {s t : State} (h : Kept s t) {w : Writer} (k : WriterKept t.writer w) :
    Kept s { t with writer := w } := { h with bytes := fun m g => k.mem (h.bytes m g), units := fun g => k.units (h.units g) }

theorem Kept.withCard {s t : State} (h : Kept s t) {c : Card} (k : CardKept t.card c) :
    Kept s { t with card := c } := { h with card := h.card.trans k }

theorem Kept.withBacklog {s t : State} (h : Kept s t) {l : List Event} : Kept s { t with backlog := l } := { h with }

theorem Kept.withEvent {s t : State} (h : Kept s t) {e : Event} : Kept s { t with events := t.events ++ [e] } :=
  { h with events := h.events.trans ⟨[e], rfl⟩ }

/-- The canonical form survives. -/
theorem Kept.memGood {s t : State} (h : Kept s t) : s.memGood = true → t.memGood = true := by
  simp only [State.memGood, Bool.and_eq_true]
  exact fun ⟨⟨a, b⟩, c⟩ => ⟨⟨h.xchg.mem a, h.bytes a b⟩, h.card.mem c⟩

/-- The segments' lists are within their bounds. -/
theorem State.Capacities.bounded {s : State} (c : s.Capacities) : s.store.Bounded :=
  ⟨c.marked, fun g m => ⟨c.extents g m, c.incidents g m⟩⟩

/-- The capacities survive. -/
theorem Kept.capacities {s t : State} (h : Kept s t) (c : s.Capacities) : t.Capacities :=
  ⟨h.motion ▸ c.ring, h.path.frames c.frames, h.units c.units, h.card.writes c.writes, h.store.pool c.pool,
   h.store.table c.table, h.store.reports c.reports, fun g m => ((h.store.bounded c.bounded).2 g m).1,
   fun g m => ((h.store.bounded c.bounded).2 g m).2, (h.store.bounded c.bounded).1, h.store.guarded c.guarded⟩

/-- What delivers events keeps the part. -/
def Keeps (emit : Emit) : Prop := ∀ e s, Kept s (emit e s)

theorem Kept.raise {emit : Emit} (k : Keeps emit) {s t : State} (h : Kept s t) (n : BitVec 16) (arg : Int) :
    Kept s (t.raise emit n arg) := h.trans (k _ _)

theorem Kept.emit {emit : Emit} (k : Keeps emit) {s t : State} (h : Kept s t) (e : Event) : Kept s (emit e t) := h.trans (k _ _)

theorem Kept.finish {s t : State} (h : Kept s t) (l : Lane) (st : Status) (r : Result) (v : Nat) :
    Kept s (t.finish l st r v) := h.onXchg (Exchange.kept_finish _ _ _ _ _ _ _)

theorem Kept.askRefresh {s t : State} (h : Kept s t) : Kept s t.askRefresh :=
  h.onXchg (.same rfl rfl rfl rfl rfl rfl rfl rfl rfl rfl)

/-- A fold keeps what each step keeps. -/
theorem Kept.foldl {α : Type} {s t : State} (h : Kept s t) (l : List α) (f : State → α → State)
    (k : ∀ u x, Kept u (f u x)) : Kept s (l.foldl f t) := by
  induction l generalizing t with
  | nil => exact h
  | cons x l ih => exact ih (h.trans (k _ _))

end Sys2Proof.Machine
end

