-- ==== Sys2Proof/Laws/Charger.lean ====
section
/-! SUPPORT. What the charger's prompt work leaves: measurement, profile, limits, bands, timers and schedules; and its work taken into the state. -/

namespace Sys2Proof.Machine

theorem Charger.kept_enter (c : Charger) (st : ChState) : ChargerKept c (c.enter st) :=
  ⟨rfl, rfl, rfl, rfl, rfl, rfl, rfl, rfl, rfl, rfl, rfl, rfl⟩

theorem Work.kept_fault (w : Work) (r : FaultReason) (n : Nat) : ChargerKept w.c (w.fault r n).c :=
  ⟨rfl, rfl, rfl, rfl, rfl, rfl, rfl, rfl, rfl, rfl, rfl, rfl⟩

theorem Work.kept_timerCheck (w : Work) : ChargerKept w.c w.timerCheck.c := by
  unfold Work.timerCheck
  split
  · split
    · exact w.kept_fault _ _
    · exact .refl _
  · split
    · exact w.kept_fault _ _
    · exact .refl _
  · split
    · exact w.kept_fault _ _
    · exact .refl _
  · exact .refl _

theorem ChargerKept.timerCheck {c : Charger} {w : Work} (h : ChargerKept c w.c) : ChargerKept c w.timerCheck.c :=
  h.trans w.kept_timerCheck

theorem Work.kept_begin (w : Work) (p : PathMode) (b : Bool) : ChargerKept w.c (w.begin p b).c := by
  unfold Work.begin
  split
  · cases b <;> exact w.c.kept_enter _
  · dsimp only
    cases b
    · refine .timerCheck ?_
      exact w.c.kept_enter _
    · refine .timerCheck ?_
      exact w.c.kept_enter _

theorem Work.kept_pauseTests (w : Work) (p : PathMode) : ChargerKept w.c (w.pauseTests p).c := by
  unfold Work.pauseTests
  split
  · split
    · exact w.c.kept_enter _
    · exact .refl _
  · split
    · exact w.c.kept_enter _
    · exact .refl _
  · split
    · exact w.c.kept_enter _
    · exact .refl _
  · split
    · split
      · exact .refl _
      · exact w.c.kept_enter _
    · exact w.kept_begin _ _
  · exact .refl _

theorem Charger.kept_compute (c : Charger) (a : Around) : ChargerKept c (c.compute a) :=
  ⟨rfl, rfl, rfl, rfl, rfl, rfl, rfl, rfl, rfl, rfl, rfl, rfl⟩

theorem Charger.kept_holdStep (c : Charger) : ChargerKept c c.holdStep := by
  unfold Charger.holdStep
  dsimp only
  split
  · split
    · exact ⟨rfl, rfl, rfl, rfl, rfl, rfl, rfl, rfl, rfl, rfl, rfl, rfl⟩
    · exact ⟨rfl, rfl, rfl, rfl, rfl, rfl, rfl, rfl, rfl, rfl, rfl, rfl⟩
  · split
    · exact ⟨rfl, rfl, rfl, rfl, rfl, rfl, rfl, rfl, rfl, rfl, rfl, rfl⟩
    · exact .refl _

theorem Work.kept_prompt (w : Work) (a : Around) : ChargerKept w.c (w.prompt a).c := by
  unfold Work.prompt
  refine .trans (d := ((w.on fun c => (c.compute a).holdStep).pauseTests a.path).c) ?_
    ⟨rfl, rfl, rfl, rfl, rfl, rfl, rfl, rfl, rfl, rfl, rfl, rfl⟩
  refine .trans ?_ (Work.kept_pauseTests _ a.path)
  exact (w.c.kept_compute a).trans (Charger.kept_holdStep _)

theorem Store.kept_offer (now : Time) (p : Producer) (body : ReportBody) (st : Store) : StoreKept st (st.offer now p body) := by
  unfold Store.offer
  dsimp only
  split
  · rename_i h
    have h8 : st.queue.length < 8 := of_decide_eq_true (Bool.and_eq_true_iff.mp h).1
    exact ⟨id, id, fun _ => by simpa using Nat.succ_le_of_lt h8, id, id⟩
  · split
    · split
      · exact ⟨id, id, id, id, id⟩
      · exact ⟨id, id, id, id, id⟩
    · exact ⟨id, id, id, id, id⟩

/-- A fold of offers keeps the bounds. -/
theorem Store.kept_offers (now : Time) (p : Producer) (l : List ReportBody) (st : Store) :
    StoreKept st (l.foldl (fun st r => st.offer now p r) st) := by
  induction l generalizing st with
  | nil => exact .refl _
  | cons r l ih => exact (st.kept_offer now p r).trans (ih _)

/-- Work on the charger that leaves the charger's kept fields, taken into the state. -/
theorem Kept.runCharger {emit : Emit} (k : Keeps emit) {s t : State} (h : Kept s t) {f : Work → Work}
    (hf : ∀ w, ChargerKept w.c (f w).c) : Kept s (t.runCharger emit f) := by
  unfold State.runCharger
  refine .foldl ?_ _ _ fun u e => .raise k (.refl u) _ _
  refine .onStore ?_ (Store.kept_offers _ _ _ _)
  have a : Kept s { t with charger := (f t.charger.work).c } := { h with charger := h.charger.trans (hf t.charger.work) }
  split
  · exact a.askRefresh
  · exact a

theorem Kept.prompt {emit : Emit} (k : Keeps emit) {s t : State} (h : Kept s t) : Kept s (t.prompt emit) :=
  h.runCharger k fun w => w.kept_prompt _

theorem State.kept_hostPause {emit : Emit} (k : Keeps emit) (on : Bool) (s : State) : Kept s (s.hostPause emit on) := by
  unfold State.hostPause
  split
  · exact .refl s
  · refine .runCharger k (.refl s) fun w => ?_
    refine .trans ?_ (Work.kept_pauseTests _ _)
    exact ⟨rfl, rfl, rfl, rfl, rfl, rfl, rfl, rfl, rfl, rfl, rfl, rfl⟩

end Sys2Proof.Machine
end

