-- ==== Sys2Proof/Laws/Store.lean ====
section
/-! SUPPORT. What the storage map's lookups answer after its changes; and its operations keep the bounds of the pool, the segment table and the report queue. -/

namespace Sys2Proof.Machine

/-! ## Segments by serial, and report room -/

/-- Segment work has room exactly when the queue is not full and no other producer waits first (R158). -/
theorem Store.segmentRoom_iff (st : Store) :
    st.segmentRoom = true ↔ st.queue.length < 8 ∧ (st.waiting = [] ∨ st.waiting.head? = some .segmentWork) := by
  unfold Store.segmentRoom Config.reportQueue
  cases st.waiting with
  | nil => simp
  | cons w l => cases w <;> simp

theorem Store.seg_serial {st : Store} {k : Word} {g : Seg} (h : st.seg k = some g) : g.serial = k := by
  simpa using List.find?_some h

/-- The segments by serial after the segment of one serial has changed, when the change leaves serials alone. -/
theorem Store.seg_mapSeg (st : Store) (serial k : Word) (f : Seg → Seg) (hf : ∀ g, (f g).serial = g.serial) :
    (st.mapSeg serial f).seg k = (st.seg k).map fun g => if g.serial = serial then f g else g := by
  unfold Store.mapSeg Store.seg
  dsimp only
  induction st.table with
  | nil => rfl
  | cons g l ih =>
    by_cases hs : g.serial = serial
    · have hm : mapFirst (fun g => g.serial == serial) f (g :: l) = f g :: l := by simp [mapFirst, hs]
      rw [hm, List.find?_cons, List.find?_cons, hf]
      cases hk : g.serial == k
      · dsimp only
        cases hq : l.find? (fun g => g.serial == k) with
        | none => rfl
        | some q =>
          have hqk : q.serial = k := by simpa using List.find?_some hq
          have : ¬q.serial = serial := fun e => beq_eq_false_iff_ne.mp hk (hs.trans (e.symm.trans hqk))
          simp [this]
      · simp [hs]
    · simp only [mapFirst, beq_eq_false_iff_ne.mpr hs, Bool.false_eq_true, if_false, List.find?_cons]
      cases (g.serial == k) <;> simp [ih, hs]

theorem Store.seg_mapSeg_self {st : Store} {serial : Word} {g : Seg} (h : st.seg serial = some g) (f : Seg → Seg)
    (hf : ∀ g, (f g).serial = g.serial) : (st.mapSeg serial f).seg serial = some (f g) := by
  rw [Store.seg_mapSeg _ _ _ _ hf, h]; simp [Store.seg_serial h]

theorem Store.seg_mapSeg_of_ne (st : Store) {serial k : Word} (hk : k ≠ serial) (f : Seg → Seg)
    (hf : ∀ g, (f g).serial = g.serial) : (st.mapSeg serial f).seg k = st.seg k := by
  rw [Store.seg_mapSeg _ _ _ _ hf]
  cases h : st.seg k with
  | none => rfl
  | some g => simp [Store.seg_serial h, hk]

theorem cutExtents_length (block : Nat) (l : List Extent) : (cutExtents block l).length ≤ l.length := by
  induction l with
  | nil => exact le_rfl
  | cons e l ih =>
    unfold cutExtents
    split
    · dsimp only; split <;> simp
    · simpa using ih

/-- The cut of R150 at a block of the extent `e`, the extents before it not holding the block. -/
theorem cutExtents_append (block : Nat) (pre post : List Extent) (e : Extent)
    (hp : ∀ f ∈ pre, ¬(f.first ≤ block ∧ block < f.first + f.count)) (h1 : e.first ≤ block) (h2 : block < e.first + e.count) :
    cutExtents block (pre ++ e :: post) =
      pre ++ (if block / 128 * 128 ≤ e.first then [] else [{ first := e.first, count := block / 128 * 128 - e.first }]) ++ post := by
  induction pre with
  | nil =>
    simp only [List.nil_append, cutExtents, Extent.stop, h1, h2, and_self, if_true, Config.packBlocks]
    by_cases h : block / 128 * 128 ≤ e.first <;> simp [h]
  | cons f l ih =>
    have hf : ¬(f.first ≤ block ∧ block < f.first + f.count) := hp f (by simp)
    simp only [List.cons_append, cutExtents, Extent.stop, hf, if_false]
    rw [ih (fun f h => hp f (by simp [h]))]

/-! ## The oldest segment of a property changed -/

theorem mapFirst_length (p : Seg → Bool) (f : Seg → Seg) (l : List Seg) : (mapFirst p f l).length = l.length := by
  induction l with
  | nil => rfl
  | cons g l ih => unfold mapFirst; split <;> simp [ih]

theorem mem_mapFirst {p : Seg → Bool} {f : Seg → Seg} {l : List Seg} {g : Seg} (h : g ∈ mapFirst p f l) :
    g ∈ l ∨ ∃ k, l.find? p = some k ∧ g = f k := by
  induction l with
  | nil => cases h
  | cons a l ih =>
    unfold mapFirst at h
    split at h
    · rename_i hp
      rcases List.mem_cons.mp h with e | m
      · exact .inr ⟨a, by simp [hp], e⟩
      · exact .inl (List.mem_cons_of_mem _ m)
    · rename_i hp
      rcases List.mem_cons.mp h with e | m
      · exact .inl (e ▸ List.mem_cons_self)
      · rcases ih m with i | ⟨k, hk, e⟩
        · exact .inl (List.mem_cons_of_mem _ i)
        · exact .inr ⟨k, by simp [hp, hk], e⟩

/-- The PROTECTED segments of a table. -/
def guards (l : List Seg) : Nat := (l.filter fun g => g.owner.isSome).length

theorem guards_cons (g : Seg) (l : List Seg) : guards (g :: l) = (if g.owner.isSome then 1 else 0) + guards l := by
  unfold guards; rw [List.filter_cons]; split <;> simp; omega

/-- A change that leaves the owner leaves their count. -/
theorem guards_mapFirst (p : Seg → Bool) (f : Seg → Seg) (l : List Seg)
    (h : ∀ g, l.find? p = some g → (f g).owner.isSome = g.owner.isSome) : guards (mapFirst p f l) = guards l := by
  induction l with
  | nil => rfl
  | cons g l ih =>
    unfold mapFirst
    split
    · rename_i hp; rw [guards_cons, guards_cons, h g (by simp [hp])]
    · rename_i hp; rw [guards_cons, guards_cons, ih fun k hk => h k (by simp [hp, hk])]

theorem guards_map {f : Seg → Seg} (l : List Seg) (h : ∀ g, (f g).owner.isSome = g.owner.isSome) : guards (l.map f) = guards l := by
  induction l with
  | nil => rfl
  | cons g l ih => rw [List.map_cons, guards_cons, guards_cons, ih, h]

theorem guards_append (l k : List Seg) : guards (l ++ k) = guards l + guards k := by simp [guards]

/-- A segment protected for an earlier incident is PROTECTED. -/
theorem Seg.ownedBefore_isSome {n : Word} (g : Seg) (h : g.ownedBefore n = true) : g.owner.isSome = true := by
  unfold Seg.ownedBefore at h
  split at h
  · rename_i e; rw [e]; rfl
  · cases h

/-- Leaving segments out adds none. -/
theorem guards_filter_le (p : Seg → Bool) (l : List Seg) : guards (l.filter p) ≤ guards l :=
  ((List.filter_sublist (p := p)).filter _).length_le

/-- No change of one segment adds more than one to their count. -/
theorem guards_mapFirst_le (p : Seg → Bool) (f : Seg → Seg) (l : List Seg) : guards (mapFirst p f l) ≤ guards l + 1 := by
  induction l with
  | nil => exact Nat.zero_le _
  | cons g l ih =>
    unfold mapFirst
    split
    · rw [guards_cons, guards_cons]; split <;> split <;> omega
    · rw [guards_cons, guards_cons]; omega

/-- A segment freed adds none. -/
theorem guards_mapFirst_none (p : Seg → Bool) (f : Seg → Seg) (l : List Seg) (hf : ∀ g, (f g).owner = none) :
    guards (mapFirst p f l) ≤ guards l := by
  induction l with
  | nil => exact le_rfl
  | cons g l ih =>
    unfold mapFirst
    split
    · rw [guards_cons, guards_cons, hf]; simp
    · rw [guards_cons, guards_cons]; omega

/-- One of them freed takes one from their count. -/
theorem guards_freed (p : Seg → Bool) (f : Seg → Seg) (l : List Seg) (hl : l.any p = true)
    (hp : ∀ g, p g = true → g.owner.isSome = true) (hf : ∀ g, (f g).owner = none) : guards (mapFirst p f l) + 1 = guards l := by
  induction l with
  | nil => cases hl
  | cons g l ih =>
    unfold mapFirst
    split
    · rename_i h; simp [guards_cons, hf, hp g h]; omega
    · rename_i h
      rw [List.any_cons, Bool.eq_false_iff.mpr h, Bool.false_or] at hl
      rw [guards_cons, guards_cons, Nat.add_assoc, ih hl]

/-! ## What the operations keep -/

/-- A change of one segment that leaves its owner, and its lists within their bounds. -/
theorem Store.kept_mapSeg (st : Store) (n : Word) (f : Seg → Seg)
    (hb : ∀ g, st.seg n = some g → g.Bounded → (f g).Bounded := by exact fun _ _ h => h)
    (ho : ∀ g, (f g).owner = g.owner := by exact fun _ => rfl) : StoreKept st (st.mapSeg n f) :=
  ⟨id, fun h => (mapFirst_length _ f st.table).trans_le h, id,
    fun h => ⟨h.1, fun g m => (mem_mapFirst m).elim (h.2 g) fun ⟨k, hk, e⟩ => e ▸ hb k hk (h.2 k (List.mem_of_find?_eq_some hk))⟩,
    fun h => (guards_mapFirst _ f st.table fun g _ => by rw [ho g]).trans_le h⟩

theorem StoreKept.mapSeg {a b : Store} (h : StoreKept a b) (n : Word) (f : Seg → Seg)
    (hb : ∀ g, b.seg n = some g → g.Bounded → (f g).Bounded := by exact fun _ _ h => h)
    (ho : ∀ g, (f g).owner = g.owner := by exact fun _ => rfl) : StoreKept a (b.mapSeg n f) :=
  h.trans (b.kept_mapSeg n f hb ho)

/-- A segment given an owner while fewer than 8 have one, or while it has one. -/
theorem Store.kept_setOwner (st : Store) (n : Word) (o : Option Owner)
    (h : ∀ g, st.seg n = some g → g.owner = none → o.isSome → st.protectedCount < 8) :
    StoreKept st (st.mapSeg n fun g => { g with owner := o }) := by
  refine ⟨id, fun h => (mapFirst_length _ _ st.table).trans_le h, id,
    fun h => ⟨h.1, fun g m => (mem_mapFirst m).elim (h.2 g) fun ⟨k, hk, e⟩ => e ▸ h.2 k (List.mem_of_find?_eq_some hk)⟩, fun h8 => ?_⟩
  have one : guards (mapFirst (fun g => g.serial == n) (fun g => { g with owner := o }) st.table) ≤ st.protectedCount + 1 :=
    guards_mapFirst_le _ _ st.table
  show guards (mapFirst _ _ st.table) ≤ 8
  by_cases hl : st.protectedCount < 8
  · omega
  · cases o with
    | none => exact (guards_mapFirst_none _ _ st.table fun _ => rfl).trans h8
    | some v =>
      refine (guards_mapFirst _ _ st.table fun g hg => ?_).trans_le h8
      cases ho : g.owner with
      | some _ => rfl
      | none => exact absurd (h g hg ho rfl) hl

/-- Arming STORAGE_LOW keeps all but its own mark. -/
theorem StoreKept.rearm {a b : Store} (h : StoreKept a b) : StoreKept a b.rearm := h.trans ⟨id, id, id, id, id⟩

theorem Store.kept_clearWork (st : Store) : StoreKept st st.clearWork := ⟨id, id, id, id, id⟩

theorem Store.kept_dropMatters (st : Store) (drop : Matter → Bool) : StoreKept st (st.dropMatters drop) := by
  unfold Store.dropMatters
  split
  · exact ⟨id, id, id, id, id⟩
  · exact ⟨id, id, id, id, id⟩

theorem Store.kept_blockWork (st : Store) : StoreKept st st.blockWork := by
  unfold Store.blockWork
  split
  · exact .refl _
  · exact ⟨id, id, id, id, id⟩

theorem Store.kept_segmentReport (now : Time) (body : ReportBody) (st : Store) (h : st.segmentRoom = true) :
    StoreKept st (st.segmentReport now body) := by
  have h8 : st.queue.length < 8 := of_decide_eq_true (Bool.and_eq_true_iff.mp h).1
  exact ⟨id, id, fun _ => by simpa [Store.segmentReport, Store.clearWork] using Nat.succ_le_of_lt h8, id, id⟩

theorem Store.kept_dropOpening (st : Store) : StoreKept st st.dropOpening :=
  (st.kept_dropMatters Matter.opens).trans ⟨id, id, id, fun h => ⟨Nat.zero_le _, h.2⟩, id⟩

/-- What a step of segment work keeps, whatever it comes to. -/
def Reply.Kept {α : Type} (st : Store) : Reply α → Prop
  | .blocked => True
  | .moved t => StoreKept st t
  | .answer t _ => StoreKept st t

theorem Store.kept_release (now : Time) (st : Store) : (st.release now).Kept st := by
  unfold Store.release
  split
  · exact .refl st
  · split
    · exact .refl st
    · rename_i g _
      split
      · exact .refl st
      · rename_i hp
        cases hr : st.segmentRoom
        · trivial
        · have k := st.kept_segmentReport now (.segmentReleased g.serial g.clip g.index g.exts) hr
          refine ⟨fun _ => ?_, fun h => ?_, k.3, fun h => ⟨h.1, fun g m => h.2 g (List.mem_filter.mp m).1⟩, fun h => ?_⟩
          · show (st.pool ++ g.exts).length ≤ 64
            rw [List.length_append]
            exact Nat.le_of_not_lt hp
          · exact (List.length_filter_le _ _).trans (k.2 h)
          · exact (guards_filter_le _ st.table).trans h

theorem Store.kept_nextPack (now : Time) (tail : Bool) (n : Word) (st : Store) : (st.nextPack now tail n).Kept st := by
  unfold Store.nextPack
  split
  · exact .refl st
  · rename_i g hg
    split
    · exact .refl st
    · split
      · exact st.kept_mapSeg _ _
      · split
        · exact st.kept_mapSeg _ _
        · split
          · exact .refl st
          · rename_i hx
            split
            · rename_i e rest hp
              have k : StoreKept st { st with pool := rest } := ⟨fun h => by rw [hp] at h; exact Nat.le_of_succ_le h, id, id, id, id⟩
              refine k.mapSeg _ _ fun h hh hb => ⟨?_, hb.2⟩
              cases hg.symm.trans hh
              rw [List.length_append]
              exact Nat.succ_le_of_lt (Nat.lt_of_not_le hx)
            · have k := st.kept_release now
              cases hr : st.release now with
              | blocked => trivial
              | moved t => rw [hr] at k; exact k
              | answer t a => rw [hr] at k; exact k

theorem Store.kept_returnPack (n : Word) (b : Nat) (st : Store) : StoreKept st (st.returnPack n b) :=
  st.kept_mapSeg _ _ (fun _ _ h => by split <;> exact h) fun _ => by split <;> rfl

/-- The pack taken last, given back, is the next pack again (R147). -/
theorem Store.seg_returnPack_last {st : Store} {n : Word} {g : Seg} (hg : st.seg n = some g) (b : Nat) (h : g.tookLast b = true) :
    (st.returnPack n b).seg n = some { g with next := some b, used := g.used - 1 } := by
  rw [Store.returnPack, Store.seg_mapSeg_self hg _ (fun k => by split <;> rfl)]; simp [h]

/-- A pack given back behind packs taken later is the next pack by itself (R147). -/
theorem Store.seg_returnPack_behind {st : Store} {n : Word} {g : Seg} (hg : st.seg n = some g) (b : Nat) (h : g.tookLast b = false) :
    (st.returnPack n b).seg n = some { g with returned := some b, used := g.used - 1 } := by
  rw [Store.returnPack, Store.seg_mapSeg_self hg _ (fun k => by split <;> rfl)]; simp [h]

theorem Store.kept_splitTail (n : Word) (st : Store) : StoreKept st (st.splitTail n) := by
  unfold Store.splitTail
  split
  · exact .refl _
  · split
    · split
      · rename_i h
        refine .rearm (.mapSeg ?_ _ _ fun k _ hb => ⟨?_, hb.2⟩)
        · exact ⟨fun _ => Nat.succ_le_of_lt h.2, id, id, id, id⟩
        · have := hb.1
          simp only [List.length_append, List.length_dropLast, List.length_singleton]
          omega
      · exact .refl _
    · exact .refl _

theorem Store.kept_closeSegment (now : Time) (n : Word) (b : Bool) (st : Store) : (st.closeSegment now n b).Kept st := by
  unfold Store.closeSegment
  dsimp only
  split
  · exact st.kept_mapSeg _ _
  · have k := st.kept_nextPack now true n
    cases hr : st.nextPack now true n with
    | blocked => trivial
    | moved t => rw [hr] at k; exact k
    | answer t a =>
      rw [hr] at k
      cases a with
      | position b => exact (k.mapSeg _ _).trans (Store.kept_splitTail _ _)
      | extentsFull => exact k.mapSeg _ _
      | none => exact k.mapSeg _ _

theorem Store.kept_completeSegment (now : Time) (n : Word) (st : Store) : (st.completeSegment now n).Kept st := by
  unfold Store.completeSegment
  split
  · exact .refl st
  · cases hr : st.segmentRoom
    · trivial
    · rename_i g _
      rw [if_neg (show ¬((!true) = true) by decide)]
      exact (st.kept_segmentReport now g.closedReport hr).mapSeg _ _

theorem Store.kept_leaveTable (n : Word) (st : Store) : StoreKept st (st.leaveTable n) :=
  ⟨id, fun h => (List.length_filter_le _ _).trans h, id, fun h => ⟨h.1, fun g m => h.2 g (List.mem_filter.mp m).1⟩,
    (guards_filter_le _ st.table).trans⟩

theorem Store.kept_removeRange (now : Time) (n : Word) (b : Nat) (st : Store) : (st.removeRange now n b).Kept st := by
  unfold Store.removeRange
  split
  · exact .refl st
  · split
    · exact .refl st
    · cases hr : st.segmentRoom
      · trivial
      · rw [if_neg (show ¬((!true) = true) by decide)]
        exact .mapSeg (st.kept_segmentReport now _ hr) _ _ fun h _ hb => ⟨(cutExtents_length b h.exts).trans hb.1, hb.2⟩

/-- The table after the displacement of R155: its segments' lists, its length, and room for the segment that enters protected. -/
theorem Store.kept_entryProtection (now : Time) (st : Store) :
    let p := st.entryProtection now
    p.2.1.length = st.table.length ∧ (st.Bounded → ∀ g ∈ p.2.1, g.Bounded)
      ∧ (st.protectedCount ≤ 8 → guards p.2.1 + (if p.1.isSome then 1 else 0) ≤ 8) := by
  unfold Store.entryProtection
  dsimp only
  split
  · exact ⟨rfl, fun h => h.2, fun h => h⟩
  · rename_i o _
    split
    · rename_i h8
      exact ⟨rfl, fun h => h.2, fun _ => Nat.succ_le_of_lt h8⟩
    · split
      · rename_i ha
        refine ⟨mapFirst_length _ _ _, fun h g m => ?_, fun h => ?_⟩
        · exact (mem_mapFirst m).elim (h.2 g) fun ⟨k, hk, e⟩ => e ▸ h.2 k (List.mem_of_find?_eq_some hk)
        · exact (guards_freed _ _ st.table ha Seg.ownedBefore_isSome fun _ => rfl).trans_le h
      · exact ⟨rfl, fun h => h.2, fun h => h⟩

theorem Store.kept_openSegment (now : Time) (n clip : Word) (i : Nat) (st : Store) : (st.openSegment now n clip i).Kept st := by
  have free : Reply.Kept st (match st.release now with
      | .blocked => Reply.blocked
      | .moved u => .moved u
      | .answer u _ => .answer u (none : Option Nat)) := by
    have k := st.kept_release now
    cases hr : st.release now with
    | blocked => trivial
    | moved t => rw [hr] at k; exact k
    | answer t a => rw [hr] at k; exact k
  unfold Store.openSegment
  dsimp only
  split
  · exact free
  · rename_i ht
    split
    · exact free
    · rename_i e rest hp
      cases hr : st.segmentRoom
      · trivial
      · rw [if_neg (show ¬((!true) = true) by decide)]
        have hl := st.kept_entryProtection now
        revert hl
        generalize st.entryProtection now = q
        obtain ⟨owner, table, short⟩ := q
        intro ⟨hl, hb, hg⟩
        have h8 : st.queue.length < 8 := of_decide_eq_true (Bool.and_eq_true_iff.mp hr).1
        refine ⟨fun h => ?_, fun _ => ?_, fun _ => ?_, fun h => ⟨Nat.zero_le _, fun g m => ?_⟩, fun h => ?_⟩
        · rw [hp] at h
          exact Nat.le_of_succ_le h
        · simp only [Store.segmentReport, Store.clearWork, List.length_append, List.length_singleton]
          have : st.table.length < 16 := Nat.lt_of_not_le ht
          have hl' : table.length = st.table.length := hl
          omega
        · simpa [Store.segmentReport, Store.clearWork] using Nat.succ_le_of_lt h8
        · rcases List.mem_append.mp m with m | m
          · exact hb h g m
          · cases List.mem_singleton.mp m
            exact ⟨Nat.le_of_ble_eq_true rfl, h.1⟩
        · have k := hg h
          show guards (table ++ [_]) ≤ 8
          rw [guards_append, guards_cons]
          simpa [guards] using k

/-- The second pass of R154 keeps the table's length, its segments' lists and the cap. -/
theorem protectPass_kept (n : Word) (f : Nat) (l : List Word) (t : List Seg) (k : Nat) :
    let u := (protectPass n f l t k).1
    u.length = t.length ∧ ((∀ g ∈ t, g.Bounded) → ∀ g ∈ u, g.Bounded) ∧ (guards t ≤ 8 → guards u ≤ 8) := by
  have mapped : ∀ (p : Seg → Bool) (o : Option Owner) (t : List Seg), (∀ g ∈ t, g.Bounded) →
      ∀ g ∈ mapFirst p (fun g => { g with owner := o }) t, g.Bounded := fun p o t h g m =>
    (mem_mapFirst m).elim (h g) fun ⟨k, hk, e⟩ => e ▸ h k (List.mem_of_find?_eq_some hk)
  induction l generalizing t k with
  | nil => exact ⟨rfl, id, id⟩
  | cons a l ih =>
    unfold protectPass
    dsimp only
    split
    · rename_i h8
      obtain ⟨i1, i2, i3⟩ := ih (mapFirst (fun g => g.serial == a) (fun g => { g with owner := some (.incident n) }) t) (k + 1)
      refine ⟨i1.trans (mapFirst_length _ _ _), fun h => i2 (mapped _ _ _ h), fun _ => i3 ?_⟩
      exact (guards_mapFirst_le _ _ t).trans (Nat.succ_le_of_lt h8)
    · split
      · rename_i ha
        obtain ⟨i1, i2, i3⟩ := ih (mapFirst (fun g => g.serial == a) (fun g => { g with owner := some (.incident n) })
          (mapFirst (fun g => g.ownedBefore n && !g.inWindow f) (fun g => { g with owner := none }) t)) (k + 1)
        refine ⟨i1.trans ((mapFirst_length _ _ _).trans (mapFirst_length _ _ _)), fun h => i2 (mapped _ _ _ (mapped _ _ _ h)),
          fun h => i3 ?_⟩
        refine (guards_mapFirst_le _ _ _).trans ((guards_freed _ _ t ha (fun g hg => ?_) fun _ => rfl).trans_le h)
        exact Seg.ownedBefore_isSome g (Bool.and_eq_true_iff.mp hg).1
      · exact ⟨rfl, id, id⟩

/-- The first pass of R154 changes owners alone, and no count. -/
theorem renewed_seg (n : Word) (f : Nat) (g : Seg) :
    let h := if g.inWindow f && g.ownedBefore n then { g with owner := some (.incident n) } else g
    h.owner.isSome = g.owner.isSome ∧ (g.Bounded → h.Bounded) := by
  dsimp only
  split
  · rename_i hg; exact ⟨(Seg.ownedBefore_isSome g (Bool.and_eq_true_iff.mp hg).2).symm, id⟩
  · exact ⟨rfl, id⟩

/-- What the second pass makes of the table once the first has renewed it. -/
theorem renewed_kept (n : Word) (f : Nat) (l : List Word) (t : List Seg) :
    let u := (protectPass n f l (t.map fun g => if g.inWindow f && g.ownedBefore n then { g with owner := some (.incident n) } else g) 0).1
    u.length = t.length ∧ ((∀ g ∈ t, g.Bounded) → ∀ g ∈ u, g.Bounded) ∧ (guards t ≤ 8 → guards u ≤ 8) := by
  obtain ⟨h1, h2, h3⟩ := protectPass_kept n f l
    (t.map fun g => if g.inWindow f && g.ownedBefore n then { g with owner := some (.incident n) } else g) 0
  refine ⟨h1.trans (List.length_map _), fun h => h2 fun g m => ?_, fun h => h3 ?_⟩
  · obtain ⟨k, hk, rfl⟩ := List.mem_map.mp m
    exact (renewed_seg n f k).2 (h k hk)
  · rw [guards_map t fun g => (renewed_seg n f g).1]; exact h

theorem Store.kept_protectWindow (n : Word) (t : Time) (st : Store) : StoreKept st (st.protectWindow n t).1 where
  pool h := h
  table h := (renewed_kept n _ _ st.table).1.trans_le h
  reports h := h
  bounded h := ⟨h.1, (renewed_kept n _ _ st.table).2.1 h.2⟩
  guarded h := (renewed_kept n _ _ st.table).2.2 h

theorem Store.kept_listIncident (n : Word) (i : Incident) (st : Store) : StoreKept st (st.listIncident n i).1 := by
  unfold Store.listIncident
  have grown : ∀ l : List Incident, l.length ≤ 8 → (if l.length < Config.segIncidents then l ++ [i] else l).length ≤ 8 := fun l h => by
    split
    · rename_i h8; rw [List.length_append]; exact Nat.succ_le_of_lt h8
    · exact h
  split
  · refine ⟨id, id, id, fun h => ⟨?_, h.2⟩, id⟩
    simpa using grown _ h.1
  · split
    · exact .refl _
    · exact st.kept_mapSeg _ _ fun g _ h => ⟨h.1, grown _ h.2⟩

theorem Store.kept_incident (now : Time) (i : Incident) (st : Store) : StoreKept st (st.incident now i) := by
  have a : StoreKept st (({ st with nextIncident := st.nextIncident + 1 } : Store).listIncident st.nextIncident i).1 := by
    refine .trans ?_ (Store.kept_listIncident _ _ _)
    exact ⟨id, id, id, id, id⟩
  unfold Store.incident
  refine .trans ?_ (Store.kept_offer _ _ _ _)
  have b : ∀ q : Store, StoreKept st q →
      StoreKept st (if q.loops.loop then q.protectWindow st.nextIncident i.time else (q, 0, false)).1 := fun q h => by
    cases q.loops.loop
    · exact h
    · exact h.trans (Store.kept_protectWindow _ _ _)
  exact b _ a

/-- Telling a segment of a discarded pack leaves its owner and its lists. -/
theorem Store.packDiscarded_seg (n : Word) (g : Seg) :
    let h := if g.serial = n then { g with unwritten := g.unwritten + 1 } else g
    h.owner = g.owner ∧ h.exts = g.exts ∧ h.incidents = g.incidents := by
  dsimp only
  split <;> exact ⟨rfl, rfl, rfl⟩

theorem Store.kept_packDiscarded (n : Word) (st : Store) : StoreKept st (st.packDiscarded n) where
  pool := id
  table h := by simpa [Store.packDiscarded] using h
  reports := id
  bounded h := by
    refine ⟨h.1, fun g m => ?_⟩
    obtain ⟨k, hk, rfl⟩ := List.mem_map.mp m
    obtain ⟨-, he, hi⟩ := Store.packDiscarded_seg n k
    have := h.2 k hk
    unfold Seg.Bounded at *
    rwa [he, hi]
  guarded h := by
    have : (st.packDiscarded n).protectedCount = st.protectedCount :=
      guards_map st.table fun g => by rw [(Store.packDiscarded_seg n g).1]
    rwa [this]

theorem Store.kept_tailWritten (n : Word) (b : Nat) (st : Store) : StoreKept st (st.tailWritten n b) := st.kept_mapSeg _ _

theorem Store.kept_tailMissing (n : Word) (st : Store) : StoreKept st (st.tailMissing n) := st.kept_mapSeg _ _

end Sys2Proof.Machine
end

