-- ==== Sys2Proof/Laws/Assembler.lean ====
section
/-! SUPPORT. The clip assembler's operations keep buffers canonical and the motion-unit queue within its bound; the start of a close, incidents, heads and tails in the state. -/

namespace Sys2Proof.Machine

/-- The canonical form of the assembler's bytes, buffer by buffer. -/
theorem Writer.memGood_iff (w : Writer) :
    w.memGood = true ↔ (∀ i, memWf (w.bufs.get i).data = true) ∧ memWf w.tail.data = true := by
  unfold Writer.memGood Four.toList
  simp only [List.all_cons, List.all_nil, Bool.and_true, Bool.and_eq_true]
  constructor
  · rintro ⟨⟨h0, h1, h2, h3⟩, ht⟩
    refine ⟨fun i => ?_, ht⟩
    match i with
    | 0 => exact h0
    | 1 => exact h1
    | 2 => exact h2
    | 3 => exact h3
  · exact fun ⟨h, ht⟩ => ⟨⟨h 0, h 1, h 2, h 3⟩, ht⟩

theorem Four.get_set {α : Type} (v : Four α) (i j : Fin 4) (x : α) : (v.set i x).get j = if j = i then x else v.get j := by
  match i, j with
  | 0, 0 | 0, 1 | 0, 2 | 0, 3 | 1, 0 | 1, 1 | 1, 2 | 1, 3 | 2, 0 | 2, 1 | 2, 2 | 2, 3 | 3, 0 | 3, 1 | 3, 2 | 3, 3 => rfl

/-- A buffer replaced by one with canonical bytes. -/
theorem Writer.kept_onBuf (w : Writer) (i : Fin 4) (f : Buf → Buf)
    (h : memWf (w.bufs.get i).data = true → memWf (f (w.bufs.get i)).data = true) : WriterKept w (w.onBuf i f) := by
  refine ⟨fun g => ?_, id⟩
  rw [Writer.memGood_iff] at g ⊢
  refine ⟨fun j => ?_, g.2⟩
  show memWf ((w.bufs.set i (f (w.bufs.get i))).get j).data = true
  rw [Four.get_set]
  split
  · exact h (g.1 i)
  · exact g.1 j

/-- The same buffers, tail and queue. -/
theorem WriterKept.same {w v : Writer} (h1 : v.bufs = w.bufs) (h2 : v.tail = w.tail) (h3 : v.queue = w.queue) :
    WriterKept w v := ⟨fun g => by unfold Writer.memGood at *; rw [h1, h2]; exact g, fun g => by rw [h3]; exact g⟩

theorem WriterKept.onBuf {w v : Writer} (h : WriterKept w v) (i : Fin 4) {f : Buf → Buf}
    (k : memWf (v.bufs.get i).data = true → memWf (f (v.bufs.get i)).data = true) : WriterKept w (v.onBuf i f) :=
  h.trans (v.kept_onBuf i f k)

/-- The tail buffer replaced by one with canonical bytes. -/
theorem Writer.kept_tail (w : Writer) (t : TailBuf) (h : memWf w.tail.data = true → memWf t.data = true) :
    WriterKept w { w with tail := t } := by
  refine ⟨fun g => ?_, id⟩
  rw [Writer.memGood_iff] at g ⊢
  exact ⟨g.1, h g.2⟩

/-- The queue replaced by one no longer. -/
theorem Writer.kept_queue (w : Writer) (q : List QUnit) (h : w.queue.length ≤ 4 → q.length ≤ 4) :
    WriterKept w { w with queue := q } := ⟨id, h⟩

theorem memWf_nil : memWf [] = true := rfl

theorem memWf_cells (l : List Byte) : memWf (memCells 0 l) = true := by
  exact (memCells_spec 0 l).1

theorem Buf.place_wf (b : Buf) (l : List Byte) (h : memWf b.data = true) : memWf (b.place l).data = true := memWf_write h

theorem Buf.placeSrc_wf (b : Buf) (m : Mem) (src : Src) (hm : memWf m = true) (h : memWf b.data = true) :
    memWf (b.placeSrc m src).data = true := by
  cases src with
  | bytes l => exact memWf_write h
  | host a n => exact memWf_copy h hm
  | zeros n => exact h

theorem Writer.kept_countUnit (w : Writer) (s : Stream) : WriterKept w (w.countUnit s) := .same rfl rfl rfl

theorem Writer.kept_startUnit (w : Writer) (s : Stream) (fl : Byte) (q : BitVec 16) (b : Bool) (n : Nat) (t : Time)
    (p : List Src) : WriterKept w (w.startUnit s fl q b n t p) := .same rfl rfl rfl

theorem Writer.kept_startQueued (w : Writer) (u : QUnit) : WriterKept w (w.startQueued u) := .same rfl rfl rfl

theorem Writer.kept_startChunk (w : Writer) (j : ChunkJob) : WriterKept w (w.startChunk j) := .same rfl rfl rfl

/-- A unit header is 16 bytes (R194). -/
@[simp] theorem unitHeader_length (st : Stream) (flags : Byte) (seq : BitVec 16) (n : Nat) (t : Time) :
    (unitHeader st flags seq n t).length = 16 := by
  simp [unitHeader, leWord, leBytes]

theorem Writer.kept_pad (w : Writer) (t : Time) : WriterKept w (w.pad t) := by
  unfold Writer.pad
  split
  · exact .refl _
  · rename_i i _
    dsimp only
    split
    · exact .refl _
    · split
      · exact w.kept_onBuf _ _ id
      · refine .trans (v := (w.countUnit .filler).onBuf i fun b =>
            (b.place (unitHeader .filler 0 w.seqs.filler ((w.bufs.get i).room - 16) t)).placeZeros ((w.bufs.get i).room - 16)) ?_
          (.same rfl rfl rfl)
        exact (w.kept_countUnit _).onBuf _ fun h => memWf_write h

theorem dropMotion_length (l : List QUnit) (h : l.any (·.motion) = true) : (dropMotion l).length + 1 = l.length := by
  induction l with
  | nil => simp at h
  | cons u l ih =>
    unfold dropMotion
    cases hu : u.motion
    · simp only [List.any_cons, hu, Bool.false_or] at h
      simpa using ih h
    · simp

theorem Writer.kept_enqueue (w : Writer) (u : QUnit) : WriterKept w (w.enqueue u) := by
  unfold Writer.enqueue
  split
  · rename_i h
    exact w.kept_queue _ fun _ => by
      rw [List.length_append]
      exact Nat.succ_le_of_lt h
  · split
    · rename_i h
      refine ⟨id, fun g => ?_⟩
      have := dropMotion_length _ h
      simp only [List.length_append, List.length_singleton]
      omega
    · split
      · exact .same rfl rfl rfl
      · exact .same rfl rfl rfl

theorem Writer.kept_giveBack (w : Writer) (src : Source) : WriterKept w (w.giveBack src) := by
  cases src with
  | buf i => exact w.kept_onBuf i (fun _ => .empty) fun _ => memWf_nil
  | tail => exact w.kept_tail _ fun _ => memWf_nil

theorem Writer.kept_beginWrite (w : Writer) (src : Source) : WriterKept w (w.beginWrite src) := by
  cases src with
  | buf i => exact w.kept_onBuf i (fun b => { b with st := .writing }) id
  | tail => exact w.kept_tail _ id

theorem Writer.kept_dropFilling (w : Writer) : WriterKept w w.dropFilling := by
  unfold Writer.dropFilling
  split
  · exact .refl _
  · exact w.kept_onBuf _ (fun _ => .empty) fun _ => memWf_nil

theorem Writer.kept_openSegment (w : Writer) (n : Word) (i b : Nat) : WriterKept w (w.openSegment n i b) := by
  unfold Writer.openSegment
  have h : WriterKept w { w with seg := some { serial := n, index := i, counts := .all 0 } } := .same rfl rfl rfl
  dsimp only
  split
  · refine h.trans (Writer.kept_onBuf _ _ _ fun g => ?_)
    exact memWf_write g
  · exact h

theorem Writer.kept_afterReset (w : Writer) (src : Option Source) (h : w.memGood = true) :
    (w.afterReset src).memGood = true ∧ (w.afterReset src).queue = [] := by
  have r : Writer.reset.memGood = true := rfl
  rw [Writer.memGood_iff] at h
  match src with
  | none => exact ⟨r, rfl⟩
  | some (.buf i) =>
    refine ⟨?_, rfl⟩
    rw [Writer.memGood_iff] at r ⊢
    refine ⟨fun j => ?_, r.2⟩
    show memWf ((Writer.reset.bufs.set i (w.bufs.get i)).get j).data = true
    rw [Four.get_set]
    split
    · exact h.1 i
    · exact r.1 j
  | some .tail =>
    refine ⟨?_, rfl⟩
    rw [Writer.memGood_iff] at r ⊢
    exact ⟨r.1, h.2⟩

/-- A piece of the bytes to be placed moves, host memory being canonical. -/
theorem Writer.kept_feedStep {m : Mem} (hm : memWf m = true) (w v : Writer) (h : w.feedStep m = some v) : WriterKept w v := by
  unfold Writer.feedStep at h
  split at h
  · dsimp only at h
    split at h
    · cases h; exact .same rfl rfl rfl
    · split at h
      · cases h
      · cases h
        rename_i src rest i _ _ _ _
        exact .trans (w.kept_onBuf i (fun b => b.placeSrc m (src.splitAt (w.bufs.get i).room).1)
          (Buf.placeSrc_wf _ _ _ hm)) (.same rfl rfl rfl)
  · cases h

theorem Writer.feedStep_memGood {m : Mem} {w v : Writer} (h : w.feedStep m = some v) : v.queue = w.queue := by
  unfold Writer.feedStep at h
  split at h
  · dsimp only at h
    split at h
    · cases h; rfl
    · split at h
      · cases h
      · cases h; rfl
  · cases h

theorem Writer.kept_feedAll {m : Mem} (hm : memWf m = true) (w : Writer) : WriterKept w (w.feedAll m) := by
  unfold Writer.feedAll
  split
  · exact .refl _
  · rename_i i _
    have k : ∀ (l : List Src) (b : Buf), memWf b.data = true → memWf (l.foldl (fun b src => b.placeSrc m src) b).data = true := by
      intro l
      induction l with
      | nil => exact fun _ g => g
      | cons x l ih => exact fun b g => ih _ (Buf.placeSrc_wf _ _ _ hm g)
    exact .trans (w.kept_onBuf i (fun b => w.feed.foldl (fun b src => b.placeSrc m src) b) (k _ _)) (.same rfl rfl rfl)

/-! ## In the state -/

theorem Kept.startClose {s t : State} (h : Kept s t) (r : CloseReason) : Kept s (t.startClose r) := by
  unfold State.startClose
  split
  · exact h
  · extract_lets begun job w dropBuf replacing w' store s'
    have hw : WriterKept t.writer w := .same rfl rfl rfl
    have hw' : WriterKept t.writer w' := by
      unfold w'
      split
      · split
        · exact hw.onBuf _ fun _ => memWf_nil
        · exact hw
      · exact hw
    have hst : StoreKept t.store (store t.store) := by
      unfold store
      split
      · exact (Store.kept_dropMatters _ _).trans (Store.kept_dropOpening _)
      · exact .refl _
    have hs : Kept s s' := (h.withWriter hw').withStore hst
    split
    · split
      · exact hs
      · exact (hs.onWriter (.same rfl rfl rfl)).finish _ _ _ _
    · exact hs

theorem Kept.release {s t : State} (h : Kept s t) (l : Lane) : Kept s (t.release l) := by
  unfold State.release
  have k : Kept s (t.onXchg fun x => x.release t.writer.gate t.time l) := h.onXchg (Exchange.kept_release _ _ _ _)
  dsimp only
  split
  · exact k.onWriter (.same rfl rfl rfl)
  · exact k

theorem State.kept_takeIncident (t : Time) (n : BitVec 16) (s : State) : Kept s (s.takeIncident t n) := by
  unfold State.takeIncident
  have h : Kept s (s.onStore (Store.incident s.time { time := t, peak := s.motion.shockPeak, source := n })) :=
    (Kept.refl s).onStore (Store.kept_incident _ _ _)
  dsimp only
  split
  · exact h.onWriter (Writer.kept_enqueue _ _)
  · exact h

theorem Kept.buildTail {s t : State} (h : Kept s t) (r : CutReason) (b : Nat) : Kept s (t.buildTail r b) := by
  unfold State.buildTail
  split
  · exact h
  · exact h.onWriter (Writer.kept_tail _ _ fun _ => memWf_cells _)

theorem Kept.addEntry {s t : State} (h : Kept s t) (hr : t.listRoom = true) (e : Entry) (w : Writer)
    (k : WriterKept t.writer w) : Kept s { t with writer := w, card := { t.card with list := t.card.list ++ [e] } } := by
  have h3 : t.card.load < 3 := of_decide_eq_true (Bool.and_eq_true_iff.mp hr).1
  have c : CardKept t.card { t.card with list := t.card.list ++ [e] } := by
    refine ⟨id, fun _ => ?_⟩
    simp only [List.length_append, List.length_singleton]
    unfold Card.load at h3
    omega
  exact (h.withWriter k).withCard c

theorem Kept.queueBuffer {s t : State} (h : Kept s t) (hr : t.listRoom = true) (i : Fin 4) : Kept s (t.queueBuffer i) :=
  h.addEntry hr _ _ (t.writer.kept_onBuf i (fun b => { b with st := .queued }) id)

theorem Kept.queueTail {s t : State} (h : Kept s t) (hr : t.listRoom = true) (b : Bool) : Kept s (t.queueTail b) :=
  h.addEntry hr _ _ (t.writer.kept_tail { t.writer.tail with st := .queued } id)

end Sys2Proof.Machine
end

