-- ==== Sys2Proof/Laws/Sinks.lean ====
section
/-! SUPPORT. The production of records, the actions of the sinks and the delivery of events keep the part. -/

namespace Sys2Proof.Machine

/-- One piece of the computation: every setting and the accumulators stay. -/
theorem Path.kept_applyReferences (p : Path) (f : VFrame) : PathKept p (p.applyReferences f) := by
  unfold Path.applyReferences
  dsimp only
  split
  · exact ⟨rfl, rfl, rfl, rfl, rfl, rfl, rfl, rfl, rfl, rfl, rfl, rfl, id⟩
  · exact ⟨rfl, rfl, rfl, rfl, rfl, rfl, rfl, rfl, rfl, rfl, rfl, rfl, id⟩

theorem Path.kept_compute (p : Path) (ring : List RingEntry) (f : VFrame) (e : Ending) :
    PathKept p (p.compute ring f e).path := by
  unfold Path.compute
  dsimp only
  split
  · exact p.kept_applyReferences f
  · exact (p.kept_applyReferences f).trans ⟨rfl, rfl, rfl, rfl, rfl, rfl, rfl, rfl, rfl, rfl, rfl, rfl, id⟩

theorem Path.compute_frames (p : Path) (ring : List RingEntry) (f : VFrame) (e : Ending) :
    (p.compute ring f e).path.frames = p.frames := by
  have h : (p.applyReferences f).frames = p.frames := by unfold Path.applyReferences; dsimp only; split <;> rfl
  unfold Path.compute
  dsimp only
  split
  · exact h
  · exact h

theorem Kept.publish {emit : Emit} (k : Keeps emit) {s t : State} (h : Kept s t) (r : WarpRecord) (a : BitVec 10) :
    Kept s (t.publish emit r a).1 := by
  have p : Kept s (t.onPath fun p => { p with unpublished := p.unpublished + 1 }) :=
    h.onPath ⟨rfl, rfl, rfl, rfl, rfl, rfl, rfl, rfl, rfl, rfl, rfl, rfl, id⟩
  unfold State.publish
  split
  · exact p
  · split
    · exact p
    · rename_i c _ _
      have b : ∀ w : WarpRecord, Kept s (((t.onXchg fun x => (x.writeWarp (c.warpSlot r.number) w).request causeWarp).onPath fun p =>
          { p with
            accrued := p.accrued ||| w.flags
            overrun := if overruns t.xchg.consumed r.number c.warpSlots then p.overrun + 1 else p.overrun })) := fun w =>
        (h.onXchg ((Exchange.kept_writeWarp _ _ _).trans (Exchange.kept_request _ _))).onPath
          ⟨rfl, rfl, rfl, rfl, rfl, rfl, rfl, rfl, rfl, rfl, rfl, rfl, id⟩
      dsimp only
      split
      · exact b _
      · exact ((b _).emit k _).onXchg (Exchange.kept_request _ _)

theorem Kept.handMotion {s t : State} (h : Kept s t) (r : WarpRecord) : Kept s (t.handMotion r) := by
  unfold State.handMotion
  split
  · split
    · refine Kept.onWriter (Kept.onPath h ?_) (Writer.kept_enqueue _ _)
      exact ⟨rfl, rfl, rfl, rfl, rfl, rfl, rfl, rfl, rfl, rfl, rfl, rfl, id⟩
    · exact h
  · exact h

theorem State.kept_produce {emit : Emit} (k : Keeps emit) (f : VFrame) (e : Ending) (s : State) : Kept s (s.produce emit f e) := by
  have p := s.path.kept_compute s.motion.ring f e
  have a : Kept s { s with path := { (s.path.compute s.motion.ring f e).path with
      frames := (s.path.compute s.motion.ring f e).path.frames.filter fun g => g.number != f.number } } :=
    { Kept.refl s with path := p.trans ⟨rfl, rfl, rfl, rfl, rfl, rfl, rfl, rfl, rfl, rfl, rfl, rfl,
        fun h => (List.length_filter_le _ _).trans h⟩ }
  unfold State.produce
  refine .handMotion (.emit k (.publish k ?_ _ _) _) _
  split
  · exact a
  · exact a.emit k _

/-- The collector of `State.whole` keeps the part. -/
theorem keeps_collect : Keeps collect := fun _ s => (Kept.refl s).withBacklog

/-- An action carried out whole keeps what the action and the delivery keep. -/
theorem Kept.whole {emit : Emit} (k : Keeps emit) {s : State} {action : Emit → State → State}
    (h : Kept { s with backlog := [] } (action collect { s with backlog := [] })) :
    Kept s (s.whole emit action) := by
  unfold State.whole
  refine .foldl ?_ _ _ fun u e => k e u
  exact ((Kept.refl s).withBacklog.trans h).withBacklog

theorem State.kept_examineFor {emit : Emit} (k : Keeps emit) (n : Nat) (s : State) : Kept s (s.examineFor emit n) := by
  induction n generalizing s with
  | zero => exact .refl s
  | succ n ih =>
    unfold State.examineFor
    split
    · exact .refl s
    · split
      · exact .refl s
      · split
        · refine .trans ?_ (ih _)
          exact .whole k (State.kept_produce keeps_collect _ _ _)
        · exact .refl s

theorem State.kept_examine {emit : Emit} (k : Keeps emit) (s : State) : Kept s (s.examine emit) := State.kept_examineFor k 4 s

theorem Path.kept_endOpen (p : Path) (t : Option Time) (a : Nat) (b : Bool) : PathKept p (p.endOpen t a b) :=
  ⟨rfl, rfl, rfl, rfl, rfl, rfl, rfl, rfl, rfl, rfl, rfl, rfl, fun h => by simpa [Path.endOpen] using h⟩

/-- Every entry is ENDED once the open ones are ended. -/
theorem Path.endOpen_ended (p : Path) (t : Option Time) (a : Nat) (b : Bool) :
    ∀ f ∈ (p.endOpen t a b).frames, f.ended.isSome = true := by
  intro f hf
  simp only [Path.endOpen, List.mem_map] at hf
  obtain ⟨g, _, rfl⟩ := hf
  cases hg : g.ended with
  | some e => simp [hg]
  | none => cases t <;> simp [VFrame.endAt]

/-- Production takes its entry from the list, when what it emits leaves the path unit alone. -/
theorem State.produce_frames {emit : Emit} (k : ∀ e s, (emit e s).path = s.path) (f : VFrame) (e : Ending) (s : State) :
    (s.produce emit f e).path.frames = s.path.frames.filter fun g => g.number != f.number := by
  have pub : ∀ (t : State) (r : WarpRecord) (a : BitVec 10), (t.publish emit r a).1.path.frames = t.path.frames := by
    intro t r a
    unfold State.publish
    split
    · rfl
    · split
      · rfl
      · dsimp only
        split
        · rfl
        · show (emit _ _).path.frames = _
          rw [k]; rfl
  have hand : ∀ (t : State) (r : WarpRecord), (t.handMotion r).path.frames = t.path.frames := by
    intro t r
    unfold State.handMotion
    split
    · split <;> rfl
    · rfl
  unfold State.produce
  rw [hand, k, pub]
  split
  · show List.filter _ _ = _
    rw [Path.compute_frames]
  · rw [k]
    show List.filter _ _ = _
    rw [Path.compute_frames]

/-- Steps 1 to 5 of FRAME_START, run by the collector, keep the part and the bound of the list (R51). -/
theorem State.kept_openVideo (t : Time) (s : State) :
    Kept s (s.openVideo collect t) := by
  unfold State.openVideo
  have a : Kept s (s.onPath fun p => p.endOpen none s.motion.average s.noMotionNow) := (Kept.refl s).onPath (Path.kept_endOpen _ _ _ _)
  have e := s.path.endOpen_ended none s.motion.average s.noMotionNow
  have l : (s.path.endOpen none s.motion.average s.noMotionNow).frames.length = s.path.frames.length := by simp [Path.endOpen]
  revert a e l
  generalize hu : (s.onPath fun p => p.endOpen none s.motion.average s.noMotionNow) = u
  have hp : s.path.endOpen none s.motion.average s.noMotionNow = u.path := by rw [← hu]; rfl
  rw [hp]
  intro a e l
  have b : Kept s (u.forceOut collect)
      ∧ (s.path.frames.length ≤ 2 → (u.forceOut collect).path.frames.length ≤ 1) := by
    unfold State.forceOut
    split
    · rename_i f g rest hf
      split
      · rename_i d _
        constructor
        · refine .trans (.onPath a ?_) (State.kept_produce keeps_collect _ _ _)
          exact ⟨rfl, rfl, rfl, rfl, rfl, rfl, rfl, rfl, rfl, rfl, rfl, rfl, id⟩
        · intro h
          rw [State.produce_frames (emit := collect) (fun _ _ => rfl)]
          show (u.path.frames.filter _).length ≤ 1
          rw [hf] at l ⊢
          have : rest = [] := by
            cases rest with
            | nil => rfl
            | cons x r => simp at l; omega
          subst this
          simp only [List.filter_cons, bne_self_eq_false, Bool.false_eq_true, if_false]
          split <;> simp
      · rename_i hn
        have := e f (by rw [hf]; simp)
        rw [hn] at this
        cases this
    · rename_i hf
      refine ⟨a, fun _ => ?_⟩
      match h : u.path.frames, hf with
      | [], _ => simp
      | [_], _ => simp
      | x :: y :: r, hf => exact absurd rfl (hf x y r)
  refine { b.1 with path := ?_ }
  have k := b.1.path
  refine ⟨k.1, k.2, k.3, k.4, k.5, k.6, k.7, k.8, k.9, k.10, k.11, k.12, fun h => ?_⟩
  have := b.2 h
  show (_ ++ [_]).length ≤ 2
  simp only [List.length_append, List.length_singleton]
  omega

theorem State.kept_frameStart {emit : Emit} (k : Keeps emit) (t : Time) (s : State) : Kept s (s.frameStart emit t) := by
  unfold State.frameStart
  split
  · exact .refl s
  · exact .trans (.whole k (State.kept_openVideo _ _)) (State.kept_examine k _)

theorem State.kept_frameEnd {emit : Emit} (k : Keeps emit) (t : Time) (s : State) : Kept s (s.frameEnd emit t) := by
  unfold State.frameEnd
  split
  · exact .refl s
  · split
    · exact ((Kept.refl s).onPath (Path.kept_endOpen _ _ _ _)).trans (State.kept_examine k _)
    · refine (Kept.refl s).onPath ?_
      exact ⟨rfl, rfl, rfl, rfl, rfl, rfl, rfl, rfl, rfl, rfl, rfl, rfl, id⟩

theorem State.kept_wake (r : WakeReason) (s : State) : Kept s (s.wake r) := by
  unfold State.wake
  split
  · exact { Kept.refl s with supply := rfl }
  · exact .refl s

theorem State.kept_drive (s : State) (n : Fin 4) (b : Bool) : Kept s (s.onRouter fun r => r.drive n b) := { Kept.refl s with }

/-- A sink's action keeps the part. -/
theorem State.kept_act {emit : Emit} (k : Keeps emit) (sink : Sink) (e : Event) (s : State) : Kept s (s.act emit sink e) := by
  cases sink with
  | frameStart => exact s.kept_frameStart k _
  | frameEnd => exact s.kept_frameEnd k _
  | recentre =>
    refine (Kept.refl s).onPath (f := fun p => { p with recentre := true }) ?_
    exact ⟨rfl, rfl, rfl, rfl, rfl, rfl, rfl, rfl, rfl, rfl, rfl, rfl, id⟩
  | incident => exact s.kept_takeIncident _ _
  | cut =>
    show Kept s (if s.writer.state = .opened then _ else s)
    split
    · exact (Kept.refl s).onWriter (.same rfl rfl rfl)
    · exact .refl s
  | close => exact (Kept.refl s).startClose _
  | pause => exact s.kept_hostPause k _
  | resume => exact s.kept_hostPause k _
  | setLine n => exact s.kept_drive n true
  | clearLine n => exact s.kept_drive n false
  | wakeA => exact s.kept_wake _
  | wakeB => exact s.kept_wake _

theorem State.kept_directWake (n : BitVec 16) (s : State) : Kept s (s.directWake n) := by
  unfold State.directWake
  split
  · exact s.kept_wake _
  · split
    · exact s.kept_wake _
    · split
      · exact s.kept_wake _
      · exact .refl s

/-- An emission, at any depth, keeps the part. -/
theorem keeps_emitFor (n : Nat) : Keeps (emitFor n) := by
  induction n with
  | zero => exact keeps_collect
  | succ n ih =>
    intro e s
    have told : ∀ t : State, Kept t (if t.silent e.number then t
        else (arrange t.race.sinks (t.router.routes.listening e.number)).foldl
          (fun t k => t.act (emitFor n) k e) { t with events := t.events ++ [e] }) := by
      intro t
      split
      · exact .refl t
      · exact .foldl (Kept.refl t).withEvent _ _ fun u x => State.kept_act ih _ _ _
    unfold emitFor
    dsimp only
    cases s.race.directFirst
    · exact .trans (told s) (State.kept_directWake _ _)
    · exact .trans (State.kept_directWake _ _) (told _)

/-- The emission of an event keeps the part. -/
theorem keeps_emit : Keeps emit := keeps_emitFor _

end Sys2Proof.Machine
end

