-- ==== Sys2Proof/Laws/SinksCard.lean ====
section
/-! SUPPORT. The delivery of events leaves the card port as it was: no sink belongs to it (section 4.2). -/

namespace Sys2Proof.Machine

/-- What delivers events leaves the card port. -/
def SparesCard (emit : Emit) : Prop := ∀ e s, (emit e s).card = s.card

theorem foldl_card {α : Type} (l : List α) (f : State → α → State) (h : ∀ u x, (f u x).card = u.card) (s : State) :
    (l.foldl f s).card = s.card := by
  induction l generalizing s with
  | nil => rfl
  | cons x l ih => exact (ih _).trans (h _ _)

theorem State.finish_card (s : State) (l : Lane) (st : Status) (r : Result) (v : Nat) : (s.finish l st r v).card = s.card := rfl

theorem State.startClose_card (r : CloseReason) (s : State) : (s.startClose r).card = s.card := by
  unfold State.startClose
  split
  · rfl
  · dsimp only
    split
    · split <;> rfl
    · rfl

theorem State.runCharger_card {emit : Emit} (k : SparesCard emit) (f : Work → Work) (s : State) :
    (s.runCharger emit f).card = s.card := by
  unfold State.runCharger
  refine (foldl_card _ (fun (s : State) (e : BitVec 16 × Int) => State.raise emit e.1 e.2 s) (fun u x => k _ _) _).trans ?_
  split <;> rfl

theorem State.publish_card {emit : Emit} (k : SparesCard emit) (r : WarpRecord) (a : BitVec 10) (s : State) :
    (s.publish emit r a).1.card = s.card := by
  unfold State.publish
  split
  · rfl
  · split
    · rfl
    · dsimp only
      split
      · rfl
      · show (emit _ _).card = _
        rw [k]; rfl

theorem State.handMotion_card (r : WarpRecord) (s : State) : (s.handMotion r).card = s.card := by
  unfold State.handMotion
  split
  · split <;> rfl
  · rfl

theorem State.produce_card {emit : Emit} (k : SparesCard emit) (f : VFrame) (e : Ending) (s : State) :
    (s.produce emit f e).card = s.card := by
  unfold State.produce
  rw [State.handMotion_card, k, State.publish_card k]
  split
  · rfl
  · rw [k]

theorem State.whole_card {emit : Emit} (k : SparesCard emit) (action : Emit → State → State)
    (h : ∀ u, (action collect u).card = u.card) (s : State) : (s.whole emit action).card = s.card := by
  unfold State.whole
  exact (foldl_card _ (fun u e => emit e u) (fun u x => k _ _) _).trans (h _)

theorem spares_collect : SparesCard collect := fun _ _ => rfl

theorem State.examineFor_card {emit : Emit} (k : SparesCard emit) (n : Nat) (s : State) : (s.examineFor emit n).card = s.card := by
  induction n generalizing s with
  | zero => rfl
  | succ n ih =>
    unfold State.examineFor
    split
    · rfl
    · split
      · rfl
      · split
        · exact (ih _).trans (State.whole_card k _ (fun u => State.produce_card spares_collect _ _ _) _)
        · rfl

theorem State.forceOut_card (s : State) : (s.forceOut collect).card = s.card := by
  unfold State.forceOut
  split
  · split
    · exact State.produce_card spares_collect _ _ _
    · rfl
  · rfl

theorem State.act_card {emit : Emit} (k : SparesCard emit) (sink : Sink) (e : Event) (s : State) :
    (s.act emit sink e).card = s.card := by
  cases sink with
  | frameStart =>
    show (s.frameStart emit e.time).card = _
    unfold State.frameStart
    split
    · rfl
    · exact (State.examineFor_card k _ _).trans (State.whole_card k (fun emit => State.openVideo emit e.time) (fun u => (State.forceOut_card _)) _)
  | frameEnd =>
    show (s.frameEnd emit e.time).card = _
    unfold State.frameEnd
    split
    · rfl
    · split
      · exact State.examineFor_card k _ _
      · rfl
  | recentre => rfl
  | incident =>
    show (s.takeIncident e.time e.number).card = _
    unfold State.takeIncident
    dsimp only
    split <;> rfl
  | cut =>
    show (if s.writer.state = .opened then s.onWriter fun w => { w with cutRequest := true } else s).card = _
    split <;> rfl
  | close => exact s.startClose_card _
  | pause =>
    show (s.hostPause emit true).card = _
    unfold State.hostPause
    split
    · rfl
    · exact State.runCharger_card k _ _
  | resume =>
    show (s.hostPause emit false).card = _
    unfold State.hostPause
    split
    · rfl
    · exact State.runCharger_card k _ _
  | setLine n => rfl
  | clearLine n => rfl
  | wakeA =>
    show (s.wake _).card = _
    unfold State.wake
    split <;> rfl
  | wakeB =>
    show (s.wake _).card = _
    unfold State.wake
    split <;> rfl

theorem State.directWake_card (n : BitVec 16) (s : State) : (s.directWake n).card = s.card := by
  have w : ∀ r, (s.wake r).card = s.card := by
    intro r
    unfold State.wake
    split <;> rfl
  unfold State.directWake
  split
  · exact w _
  · split
    · exact w _
    · split
      · exact w _
      · rfl

theorem spares_emitFor (n : Nat) : SparesCard (emitFor n) := by
  induction n with
  | zero => exact spares_collect
  | succ n ih =>
    intro e s
    have told : ∀ t : State, (if t.silent e.number then t
        else (arrange t.race.sinks (t.router.routes.listening e.number)).foldl
          (fun t k => t.act (emitFor n) k e) { t with events := t.events ++ [e] }).card = t.card := by
      intro t
      split
      · rfl
      · exact foldl_card _ (fun t k => State.act (emitFor n) k e t) (fun u x => State.act_card ih _ _ _) _
    unfold emitFor
    dsimp only
    cases s.race.directFirst
    · exact (State.directWake_card _ _).trans (told s)
    · exact (told _).trans (State.directWake_card _ _)

/-- The delivery of an event leaves the card port. -/
theorem spares_emit : SparesCard emit := spares_emitFor _

end Sys2Proof.Machine
end

