-- ==== Sys2Proof/Laws/Card.lean ====
section
/-! SUPPORT. The card port's operations in the state: discards, transfers and their ends, card records, settling, removal, resumption. -/

namespace Sys2Proof.Machine

/-- The same raw slot, and a list no longer. -/
theorem CardKept.of {c d : Card} (h1 : d.raw = c.raw) (h2 : d.list.length ≤ c.list.length) : CardKept c d :=
  ⟨fun g => by unfold Card.memGood at *; rw [h1]; exact g, fun g => h2.trans g⟩

/-- The raw slot emptied, and a list no longer. -/
theorem CardKept.noRaw {c d : Card} (h1 : d.raw = none) (h2 : d.list.length ≤ c.list.length) : CardKept c d :=
  ⟨fun _ => by unfold Card.memGood; rw [h1]; rfl, fun g => h2.trans g⟩

theorem Card.kept_count (c : Card) (o : CardOutcome) : CardKept c (c.count o) := by
  cases o <;> exact .of rfl le_rfl

theorem Kept.discard {s t : State} (h : Kept s t) (e : Entry) : Kept s (t.discard e) := by
  unfold State.discard
  refine .onStore (.onWriter (.onCard h ?_) (Writer.kept_giveBack _ _)) ?_
  · exact .of rfl (List.length_filter_le _ _)
  · split
    · exact Store.kept_packDiscarded _ _
    · exact Store.kept_tailMissing _ _

theorem Kept.discards {s t : State} (h : Kept s t) (l : List Entry) : Kept s (l.foldl (fun s e => s.discard e) t) :=
  h.foldl l _ fun u e => (Kept.refl u).discard e

theorem Kept.dropRaw {s t : State} (h : Kept s t) (st : Status) (r : Result) (v : Nat) : Kept s (t.dropRaw st r v) := by
  unfold State.dropRaw
  split
  · exact h
  · split
    · exact h
    · refine .finish (.onCard h ?_) _ _ _ _
      exact .noRaw rfl le_rfl

theorem Kept.startGrace {s t : State} (h : Kept s t) : Kept s t.startGrace := h.onCard (.of rfl le_rfl)

theorem Store.kept_matters (st : Store) (l : List Matter) : StoreKept st { st with matters := l } := ⟨id, id, id, id, id⟩

theorem Store.kept_dropReplaces (st : Store) : StoreKept st st.dropReplaces :=
  (st.kept_dropMatters Matter.replacement).trans (Store.kept_matters _ _)

theorem Kept.closeForCard {s t : State} (h : Kept s t) (b : TailBy) : Kept s (t.closeForCard b) := by
  unfold State.closeForCard
  refine (h.startClose _).onWriter ?_
  split
  · exact .same rfl rfl rfl
  · exact .refl _

theorem Kept.settleEntries {s t : State} (h : Kept s t) (a b : Bool) (es : List Entry) : Kept s (t.settleEntries a b es) := by
  unfold State.settleEntries
  have k : ∀ (u : State) (f : Entry → Entry), Kept s u → Kept s (u.onCard fun c => { c with list := c.list.map f }) :=
    fun u f hu => hu.onCard (.of rfl (by simp))
  extract_lets packs firstTail x mark y
  have hy : Kept s y := k _ _ (h.discards packs)
  split
  · exact hy.onStore ⟨id, id, id, id, id⟩
  · exact hy

theorem Kept.resumptionRefaulted {s t : State} (h : Kept s t) :
    Kept s (if t.card.resumption.isSome then
      (t.onCard fun c => { c with resumption := none }).finish .recovery .done .refaulted 0 else t) := by
  split
  · exact (h.onCard (.of rfl le_rfl)).finish _ _ _ _
  · exact h

theorem Kept.cardFault {emit : Emit} (k : Keeps emit) {s t : State} (h : Kept s t) (o : CardOutcome) (e : Entry)
    (he : e ∈ t.card.list) : Kept s (t.cardFault emit o e) := by
  unfold State.cardFault
  split
  · exact h.discard e
  · extract_lets rest list u r a b c d f a'
    have hl : list.length ≤ t.card.list.length := by
      have : rest.length < t.card.list.length := List.length_filter_lt_length_iff_exists.mpr ⟨e, he, by simp⟩
      simpa [list] using this
    have hu : Kept s u := (h.onCard (f := fun c => { c with list }) (.of rfl hl)).onStore (Store.kept_dropReplaces _)
    have ha : Kept s (u.onXchg fun x => x.push r) := hu.onXchg (Exchange.kept_push _ _)
    split
    · refine .raise k ?_ _ _
      have hb : Kept s b := by
        unfold b
        split
        · exact ha.startGrace
        · exact ha
      have hc : Kept s c := hb.onWriter (.same rfl rfl rfl)
      exact (hc.dropRaw _ _ _).resumptionRefaulted
    · exact (ha.resumptionRefaulted.settleEntries _ _ _).closeForCard _

theorem Kept.rawEnded {s t : State} (h : Kept s t) (o : CardOutcome) : Kept s (t.rawEnded o) := by
  unfold State.rawEnded
  dsimp only
  split
  · exact (h.onCard (.noRaw rfl le_rfl)).finish _ _ _ _
  · refine .finish (.onCard h ?_) _ _ _ _
    cases o <;> exact .noRaw rfl le_rfl

theorem Card.flying_mem {c : Card} {e : Entry} (h : c.flying = some e) : e ∈ c.list := by
  unfold Card.flying at h
  split at h
  · exact List.mem_of_find?_eq_some h
  · cases h

theorem Kept.writeEnded {emit : Emit} (k : Keeps emit) (kc : SparesCard emit) {s t : State} (h : Kept s t) (o : CardOutcome)
    (after : CardState) : Kept s (t.writeEnded emit o after) := by
  unfold State.writeEnded
  have ht : Kept s (t.onCard fun c => { c with state := after, busySince := none }) := h.onCard (.of rfl le_rfl)
  dsimp only
  split
  · exact ((ht.rawEnded o).raise k _ _).prompt k
  · split
    · exact ht
    · rename_i e he
      have hu := ht.onCard (f := fun c => c.count o) (Card.kept_count _ o)
      have fault : ∀ o' : CardOutcome, Kept s ((((((t.onCard fun c => { c with state := after, busySince := none }).onCard fun c => c.count o).raise emit
          0x0407 o'.code).prompt emit).cardFault emit o e)) := by
        intro o'
        refine .cardFault k ((hu.raise k _ _).prompt k) _ _ ?_
        unfold State.prompt
        rw [State.runCharger_card kc]
        unfold State.raise
        rw [kc]
        have hm := Card.flying_mem he
        cases o <;> exact hm
      split
      · refine .prompt k (.raise k (.onStore (.onWriter (.onCard hu ?_) (Writer.kept_giveBack _ _)) ?_) _ _)
        · exact .of rfl (List.length_filter_le _ _)
        · split
          · exact .refl _
          · exact Store.kept_tailWritten _ _ _
      · exact fault o

theorem State.kept_endUnbegun {emit : Emit} (k : Keeps emit) {s t : State} (h : s.endUnbegun emit = some t) : Kept s t := by
  unfold State.endUnbegun at h
  dsimp only at h
  split at h
  · split at h
    · rename_i e he
      cases h
      exact (Kept.refl s).cardFault k _ _ (List.mem_of_find?_eq_some he)
    · cases h
  · cases h

theorem Kept.beginEntry {emit : Emit} (k : Keeps emit) {s t : State} (h : Kept s t) (e : Entry) : Kept s (t.beginEntry emit e) := by
  unfold State.beginEntry
  refine .prompt k (.raise k (.onWriter (.onCard h ?_) (Writer.kept_beginWrite _ _)) _ _)
  exact .of rfl (by simp)

theorem Kept.beginRaw {emit : Emit} (k : Keeps emit) {s t : State} (h : Kept s t) (r : RawJob) (hr : t.card.raw = some r) :
    Kept s (t.beginRaw emit r) := by
  have hc : Kept s (t.onCard fun c => { c with state := .writing, raw := some { r with inFlight := true } }) := by
    refine h.onCard ⟨fun g => ?_, id⟩
    unfold Card.memGood at *
    rw [hr] at g
    exact g
  unfold State.beginRaw
  dsimp only
  split
  · exact (hc.raise k _ _).prompt k
  · exact hc

theorem State.kept_arbitrate {emit : Emit} (k : Keeps emit) {s t : State} (h : s.arbitrate emit = some t) : Kept s t := by
  have entry : ∀ {o : Option Entry}, (match o with
      | some e => if e.awaiting then none else some (s.beginEntry emit e)
      | none => none) = some t → Kept s t := by
    intro o ho
    split at ho
    · split at ho
      · cases ho
      · cases ho; exact (Kept.refl s).beginEntry k _
    · cases ho
  unfold State.arbitrate at h
  dsimp only at h
  split at h
  · cases h
  · split at h
    · rename_i r hr
      have raw := (Kept.refl s).beginRaw k r hr
      split at h
      · split at h
        · cases h; exact raw
        · split at h
          · cases h; exact raw
          · exact entry h
      · exact entry h
    · exact entry h

theorem Kept.finishAttach {s t : State} (h : Kept s t) : Kept s t.finishAttach := by
  unfold State.finishAttach
  split
  · exact h.finish _ _ _ _
  · exact h

theorem Kept.cardRemoved {emit : Emit} (k : Keeps emit) (kc : SparesCard emit) {s t : State} (h : Kept s t) :
    Kept s (t.cardRemoved emit) := by
  unfold State.cardRemoved
  have hb : Kept s (t.onCard fun c => { c with removals := c.removals + 1 }) := h.onCard (.of rfl le_rfl)
  have gone : ∀ u, Kept s u → Kept s ((u.onCard fun c => { c with capacity := 0 }).startClose .card) := fun u hu =>
    (hu.onCard (.of rfl le_rfl)).startClose _
  dsimp only
  split
  · exact h
  · exact .finishAttach (hb.onCard (.of rfl le_rfl))
  · exact hb.onCard (.of rfl le_rfl)
  · exact ((hb.onCard (f := fun c => { c with state := .absent, capacity := 0 }) (.of rfl le_rfl)).dropRaw _ _ _).startClose _
  · refine gone _ ?_
    split
    · exact ((hb.dropRaw _ _ _).onCard (f := fun c => { c with state := .absent, busySince := none }) (.of rfl le_rfl)).rawEnded _
    · exact (hb.dropRaw _ _ _).writeEnded k kc _ _

theorem Kept.resumeCard {s t : State} (h : Kept s t) (es : List RecEntry) (c : Continuation) (n : Word) (b : Nat) :
    Kept s (t.resumeCard es c n b) := by
  unfold State.resumeCard
  extract_lets cleared first a valid b'
  have hb : Kept s b' := (h.discards cleared).onCard (.of rfl le_rfl)
  split
  · exact hb.onCard (.of rfl (by simp))
  · exact (hb.onCard (.of rfl (by simp))).onStore ⟨id, id, id, id, id⟩
  · refine .closeForCard (.onCard (hb.settleEntries _ _ _) ?_) _
    exact .of rfl (by simp)

theorem Kept.abandonCard {s t : State} (h : Kept s t) : Kept s t.abandonCard := by
  unfold State.abandonCard
  extract_lets a b serial extents c
  have hb : Kept s b := (h.settleEntries _ _ _).onCard (.of rfl le_rfl)
  refine .closeForCard ?_ _
  unfold c
  split
  · exact hb
  · refine .onStore (.onWriter hb ?_) ?_
    · rename_i i _
      exact ⟨fun g => (b.writer.kept_onBuf i (fun _ => .empty) fun _ => memWf_nil).mem g, id⟩
    · have one : ∀ st : Store, StoreKept st (st.dropMatters fun m => m.asksPosition || m.replacesFilling) := fun st =>
        st.kept_dropMatters _
      have two : ∀ (st : Store) (e : Bool), StoreKept st
          (if e then st.dropMatters fun m => m.asksPosition || m.replacesFilling
            else (st.dropMatters fun m => m.asksPosition || m.replacesFilling).dropOpening) := fun st e => by
        cases e
        · exact (one _).trans (Store.kept_dropOpening _)
        · exact one _
      have three : ∀ (st u : Store) (p : Bool), StoreKept st u → StoreKept st (if p then u.packDiscarded serial else u) :=
        fun st u p k => by
          cases p
          · exact k
          · exact k.trans (Store.kept_packDiscarded _ _)
      exact three _ _ _ (two _ _)

theorem Kept.graceEnds {s t : State} (h : Kept s t) : Kept s t.graceEnds := by
  unfold State.graceEnds
  refine .release (.closeForCard (.onXchg (.settleEntries (.onCard h ?_) _ _ _) (Exchange.kept_supersede _)) _) _
  exact .of rfl le_rfl

/-! ## The settlement of a record, said once -/

/-- The buffers after the writes of the entries `l` are discarded. -/
def Writer.freed (w : Writer) (l : List Entry) : Four Buf :=
  let one (i : Fin 4) : Buf := if l.any (fun e => e.source == .buf i) then .empty else w.bufs.get i
  { a0 := one 0, a1 := one 1, a2 := one 2, a3 := one 3 }

/-- What discarding the pack entries `l` comes to: they leave the list, their buffers are EMPTY, their segments are told (R132). -/
theorem State.discards_eq (l : List Entry) (s : State) (h : ∀ e ∈ l, e.source ≠ .tail) :
    l.foldl (fun s e => s.discard e) s = { s with
      card := { s.card with list := s.card.list.filter fun o => !(l.any fun e => e.source == o.source) }
      writer := { s.writer with bufs := s.writer.freed l }
      store := { s.store with table := s.store.table.map fun g =>
        { g with unwritten := g.unwritten + (l.filter fun e => e.serial == g.serial).length } } } := by
  induction l generalizing s with
  | nil =>
    have : s.writer.freed [] = s.writer.bufs := rfl
    simp [this]
  | cons e l ih =>
    rw [List.foldl_cons, ih _ fun x hx => h x (List.mem_cons_of_mem _ hx)]
    obtain ⟨i, hi⟩ : ∃ i, e.source = .buf i := by
      cases hs : e.source with
      | buf i => exact ⟨i, rfl⟩
      | tail => exact absurd hs (h e List.mem_cons_self)
    have hb : ((s.discard e).writer).freed l = s.writer.freed (e :: l) := by
      simp only [State.discard, State.onStore, State.onWriter, State.onCard, hi, Writer.giveBack, Writer.onBuf, Writer.freed, List.any_cons]
      revert i
      intro i hi
      match i, hi with
      | 0, hi => simp [Four.set, Four.get]
      | 1, hi => simp [Four.set, Four.get]
      | 2, hi => simp [Four.set, Four.get]
      | 3, hi => simp [Four.set, Four.get]
    have hw : (s.discard e).writer = { s.writer with bufs := (s.discard e).writer.bufs } := by
      simp [State.discard, State.onStore, State.onWriter, State.onCard, hi, Writer.giveBack, Writer.onBuf]
    have hl : (s.discard e).card = { s.card with list := s.card.list.filter fun o => o.source != e.source } := rfl
    have ht : (s.discard e).store = s.store.packDiscarded e.serial := by
      simp [State.discard, State.onStore, State.onWriter, State.onCard, hi, Source.isPack]
    have hd : s.discard e = { s with card := (s.discard e).card, writer := (s.discard e).writer, store := (s.discard e).store } := rfl
    have hf : (s.card.list.filter fun o => o.source != e.source).filter (fun o => !(l.any fun x => x.source == o.source))
        = s.card.list.filter fun o => !((e :: l).any fun x => x.source == o.source) := by
      rw [List.filter_filter]
      refine List.filter_congr fun o _ => ?_
      rw [List.any_cons, Bool.not_or, Bool.and_comm, bne, BEq.comm]
    have hm : (s.store.packDiscarded e.serial).table.map (fun g =>
          { g with unwritten := g.unwritten + (l.filter fun (x : Entry) => x.serial == g.serial).length })
        = s.store.table.map fun g =>
          { g with unwritten := g.unwritten + ((e :: l).filter fun (x : Entry) => x.serial == g.serial).length } := by
      simp only [Store.packDiscarded, List.map_map]
      refine List.map_congr_left fun g _ => ?_
      by_cases hg : g.serial = e.serial
      · simp [hg]; omega
      · simp [hg, Ne.symm hg]
    rw [hb, hl, ht, hw, hd]
    dsimp only
    rw [hf, hm]
    rfl

/-- What the settlement of the port's own list comes to (R135, R137, R139). -/
theorem State.settleEntries_list (resumed settling : Bool) (s : State) :
    s.settleEntries resumed settling s.card.list =
      let packs := s.card.list.filter fun e => e.source != .tail
      let first := (s.card.list.head?.map fun e => e.source == .tail).getD false
      { s with
        card := { s.card with list := (s.card.list.filter fun e => e.source == .tail).map fun e =>
          { e with begun := false, resumed, awaiting := first, settling } }
        writer := { s.writer with bufs := s.writer.freed packs }
        store := { s.store with
          table := s.store.table.map fun g =>
            { g with unwritten := g.unwritten + (packs.filter fun e => e.serial == g.serial).length }
          matters := s.store.matters ++ if first then [.replace .tail true true] else [] } } := by
  have hp : ∀ e : Entry, e.source.isPack = (e.source != .tail) := fun e => by cases e.source <;> rfl
  have hfirst : (s.card.list.head?.map fun e => !e.source.isPack).getD false = (s.card.list.head?.map fun e => e.source == .tail).getD false := by
    cases s.card.list.head? with
    | none => rfl
    | some e => simp [hp, bne]
  have hpk : (s.card.list.filter fun e => e.source.isPack) = s.card.list.filter fun e => e.source != .tail :=
    List.filter_congr fun e _ => hp e
  unfold State.settleEntries
  dsimp only
  rw [hfirst, hpk, State.discards_eq _ _ fun e he => by simpa using (List.mem_filter.mp he).2]
  generalize hq : (s.card.list.head?.map fun e => e.source == .tail).getD false = first
  have hl : (s.card.list.filter fun o => !((s.card.list.filter fun e => e.source != .tail).any fun e => e.source == o.source))
      = s.card.list.filter fun e => e.source == .tail := by
    refine List.filter_congr fun o ho => ?_
    rw [Bool.eq_iff_iff]
    simp only [Bool.not_eq_true', List.any_eq_false, List.mem_filter, bne_iff_ne, beq_iff_eq]
    constructor
    · intro h
      by_contra hn
      exact h o ⟨ho, hn⟩ rfl
    · rintro h e ⟨_, he⟩ heq
      exact he (heq.trans h)
  have hm : (s.card.list.filter fun e => e.source == .tail).map (fun e =>
        if !e.source.isPack && (s.card.list.any fun o => o.source == e.source) then
          { e with begun := false, resumed, settling, awaiting := first } else e)
      = (s.card.list.filter fun e => e.source == .tail).map fun e =>
          { e with begun := false, resumed, awaiting := first, settling } := by
    refine List.map_congr_left fun e he => ?_
    obtain ⟨h1, h2⟩ := List.mem_filter.mp he
    have h3 : (s.card.list.any fun o => o.source == e.source) = true :=
      List.any_eq_true.mpr ⟨e, h1, beq_self_eq_true _⟩
    rw [if_pos (by rw [h3, hp]; simpa using h2)]
  simp only [State.onCard, State.onStore]
  rw [hl, hm]
  cases first
  · simp
  · rfl

end Sys2Proof.Machine
end

