-- ==== Sys2Proof/Laws/Settle.lean ====
section
/-! SUPPORT. Each piece of block work keeps the part, and so does coming to rest. -/

namespace Sys2Proof.Machine

theorem State.kept_takeBacklog {s t : State} (h : s.takeBacklog = some t) : Kept s t := by
  unfold State.takeBacklog at h
  split at h
  · cases h
  · cases h; exact (Kept.refl s).withBacklog.emit keeps_emit _

theorem State.kept_levelStep {s t : State} (h : s.levelStep = some t) : Kept s t := by
  unfold State.levelStep at h
  dsimp only at h
  split at h
  · cases h
    refine .raise keeps_emit (.onStore (.refl s) ?_) _ _
    refine .trans ?_ (Store.kept_offer _ _ _ _)
    exact ⟨id, id, id, id, id⟩
  · cases h

theorem State.kept_reportStep {s t : State} (h : s.reportStep = some t) : Kept s t := by
  unfold State.reportStep at h
  split at h
  · split at h
    · cases h
      rename_i r rest a hq _ _
      refine .onXchg (.onStore (.refl s) ⟨id, id, fun g => ?_, id, id⟩) ?_
      · rw [hq] at g
        exact Nat.le_of_succ_le g
      · refine .request (.putAnchor ?_ _ _) _
        exact (Exchange.kept_put _ _ _).trans (.same rfl rfl rfl rfl rfl rfl rfl rfl rfl rfl)
    · cases h
  · cases h

theorem State.kept_joinStep {s t : State} (h : s.joinStep = some t) : Kept s t := by
  unfold State.joinStep at h
  split at h
  · split at h
    · rename_i h8
      cases h
      refine (Kept.refl s).onStore ⟨id, id, fun _ => ?_, id, id⟩
      rw [List.length_append]
      exact Nat.succ_le_of_lt h8
    · cases h
  · cases h

theorem Kept.raiseFull {s t : State} (h : Kept s t) : Kept s t.raiseFull :=
  (h.raise keeps_emit _ _).onStore (Store.kept_offer _ _ _ _)

theorem Kept.opened {s t : State} (h : Kept s t) (n : Word) (i : Nat) (a : Option Nat) : Kept s (State.opened n i a t) := by
  unfold State.opened
  split
  · rename_i b
    extract_lets u v
    have ho : Kept s v := (h.raise keeps_emit _ _).onWriter ((Writer.kept_openSegment _ _ _ _).trans (.same rfl rfl rfl))
    split
    · exact ho.onStore (Store.kept_returnPack _ _ _)
    · exact ho
  · refine .onWriter (.startClose (.onWriter (.raiseFull (.onStore h ?_)) ?_) _) (Writer.kept_dropFilling _)
    · exact ⟨id, id, id, fun g => ⟨Nat.zero_le _, g.2⟩, id⟩
    · exact .same rfl rfl rfl

theorem Kept.positioned {s t : State} (h : Kept s t) (i : Fin 4) (a : PosAnswer) : Kept s (State.positioned i a t) := by
  cases a with
  | position b =>
    exact h.onWriter (f := fun w => w.onBuf i fun x => { x with pos := some b })
      (t.writer.kept_onBuf i (fun x => { x with pos := some b }) id)
  | extentsFull =>
    exact h.onWriter (f := fun w =>
        { w with cut := some { reason := .extents, stage := .askClose, outer := w.cut.map (·.reason) }, cutRequest := false })
      (.same rfl rfl rfl)
  | none => exact (h.raiseFull.startClose _).onWriter (Writer.kept_dropFilling _)

theorem Kept.closeAnswered {s t : State} (h : Kept s t) (b : Bool) (a : Option Nat) : Kept s (State.closeAnswered b a t) := by
  unfold State.closeAnswered
  extract_lets reason u
  have hu : Kept s u := by
    unfold u
    split
    · exact h.buildTail _ _
    · exact h
  refine hu.onWriter ?_
  cases b
  · exact .same rfl rfl rfl
  · exact .same rfl rfl rfl

theorem Kept.fillingRemoved {s t : State} (h : Kept s t) (r : Option (Nat × Nat)) : Kept s (State.fillingRemoved r t) := by
  unfold State.fillingRemoved
  split
  · rename_i i _
    split
    · exact .onStore (.onWriter h (Writer.kept_onBuf _ i (fun x => { x with pos := none }) id)) ⟨id, id, id, id, id⟩
    · exact h
  · exact h

theorem Kept.removed {s t : State} (h : Kept s t) (b : Nat) (r : Option (Nat × Nat)) : Kept s (State.removed b r t) := by
  unfold State.removed
  extract_lets list asks
  exact .fillingRemoved (.onStore (.onCard h (.of rfl (by simp [list]))) ⟨id, id, id, id, id⟩) _

theorem Kept.removalMade {s t : State} (h : Kept s t) (b : Nat) (asked : Bool) (r : Option (Nat × Nat)) :
    Kept s (State.removalMade b asked r t) := by
  unfold State.removalMade
  split
  · exact h.removed b r
  · exact h.fillingRemoved r

theorem Kept.unplaced {s t : State} (h : Kept s t) (e : Entry) (first : Bool) : Kept s (t.unplaced e first) := by
  unfold State.unplaced
  extract_lets later a again b d
  have hd : Kept s d := by
    refine .closeForCard (.onStore (.onCard (h.discards _) ?_) (Store.kept_dropReplaces _)) _
    exact .of rfl (by simp)
  split
  · exact hd.onStore ⟨id, id, id, id, id⟩
  · exact hd

theorem Kept.replaced {s t : State} (h : Kept s t) (e : Entry) (settled first : Bool) (a : PosAnswer) :
    Kept s (State.replaced e settled first a t) := by
  have no : ∀ a : PosAnswer, Kept s (if settled then t.discard e else
      let d := t.unplaced e first
      if a = .none then d.raiseFull else d) := by
    intro a
    split
    · exact h.discard e
    · dsimp only
      split
      · exact (h.unplaced e first).raiseFull
      · exact h.unplaced e first
  unfold State.replaced
  split
  · rename_i b
    have ha : Kept s (t.onCard fun c => { c with list := c.list.map fun o =>
        if o.source = e.source then { o with block := b, awaiting := false } else o }) := h.onCard (.of rfl (by simp))
    dsimp only
    split
    · exact ha.onWriter (Writer.kept_onBuf _ _ (fun x => { x with pos := some b }) id)
    · exact (ha.onWriter (f := fun w => { w with tail := { w.tail with pos := b } })
        (Writer.kept_tail _ { t.writer.tail with pos := b } id)).onStore (Store.kept_mapSeg _ _ _)
  · exact no _

theorem Kept.fillingReplaced {s t : State} (h : Kept s t) (i : Fin 4) (a : PosAnswer) : Kept s (State.fillingReplaced i a t) := by
  have no : ∀ a : PosAnswer, Kept s (
      let u := (t.onWriter fun w => w.onBuf i fun _ => .empty).startClose .card
      if a = .none then u.raiseFull else u) := by
    intro a
    have hu : Kept s ((t.onWriter fun w => w.onBuf i fun _ => .empty).startClose .card) :=
      (h.onWriter (t.writer.kept_onBuf i (fun _ => .empty) fun _ => memWf_nil)).startClose _
    dsimp only
    split
    · exact hu.raiseFull
    · exact hu
  unfold State.fillingReplaced
  split
  · exact h.onWriter (t.writer.kept_onBuf i (fun x => { x with pos := some _ }) id)
  · exact no _

theorem Kept.completed {s t : State} (h : Kept s t) (n : Word) : Kept s (State.completed n t) :=
  (h.raise keeps_emit _ _).onStore (Store.kept_leaveTable _ _)

/-- A matter's evaluation keeps the part when its operation keeps the map and its sequel keeps the part. -/
theorem State.kept_matterReply {α : Type} {rest : List Matter} {r : Reply α} {k : α → State → State} {s t : State}
    (hr : r.Kept s.store) (hk : ∀ a u, Kept s u → Kept s (k a u)) (h : s.matterReply rest r k = some t) : Kept s t := by
  unfold State.matterReply at h
  split at h
  · split at h
    · cases h
    · cases h; exact (Kept.refl s).onStore (Store.kept_blockWork _)
  · cases h; exact (Kept.refl s).withStore hr
  · cases h
    refine hk _ _ ((Kept.refl s).withStore (StoreKept.trans hr ?_))
    exact ⟨id, id, id, id, id⟩

theorem State.kept_matterStep {s t : State} (h : s.matterStep = some t) : Kept s t := by
  unfold State.matterStep at h
  dsimp only at h
  split at h
  · cases h
  · exact State.kept_matterReply (Store.kept_openSegment _ _ _ _ _) (fun a u hu => hu.opened _ _ a) h
  · exact State.kept_matterReply (Store.kept_nextPack _ _ _ _) (fun a u hu => hu.positioned _ a) h
  · exact State.kept_matterReply (Store.kept_closeSegment _ _ _ _) (fun a u hu => hu.closeAnswered _ a) h
  · exact State.kept_matterReply (Store.kept_completeSegment _ _ _) (fun a u hu => hu.completed _) h
  · exact State.kept_matterReply (Store.kept_removeRange _ _ _ _) (fun a u hu => hu.removalMade _ _ a) h
  · split at h
    · cases h; exact (Kept.refl s).onStore ⟨id, id, id, id, id⟩
    · exact State.kept_matterReply (Store.kept_nextPack _ _ _ _) (fun a u hu => hu.replaced _ _ _ a) h
  · exact State.kept_matterReply (Store.kept_nextPack _ _ _ _) (fun a u hu => hu.fillingReplaced _ a) h

theorem State.kept_completionStep {s t : State} (h : s.completionStep = some t) : Kept s t := by
  unfold State.completionStep at h
  dsimp only at h
  rw [Option.map_eq_some_iff] at h
  obtain ⟨g, _, rfl⟩ := h
  exact (Kept.refl s).onStore ⟨id, id, id, id, id⟩

theorem State.kept_lostStep {s t : State} (h : s.lostStep = some t) : Kept s t := by
  unfold State.lostStep at h
  split at h
  · dsimp only at h
    have hw : Kept s (s.onWriter fun w => { w with feed := [], job := none }) := (Kept.refl s).onWriter (.same rfl rfl rfl)
    split at h
    · split at h
      · cases h; exact (hw.onWriter (.same rfl rfl rfl)).finish _ _ _ _
      · cases h; exact hw
    · cases h; exact hw
  · cases h

theorem State.kept_fullStep {s t : State} (h : s.fullStep = some t) : Kept s t := by
  unfold State.fullStep at h
  dsimp only at h
  split at h
  · rename_i i j _ _
    rw [Option.ite_none_right_eq_some] at h
    obtain ⟨hc, h⟩ := h
    cases h
    have hr : s.listRoom = true := (Bool.and_eq_true_iff.mp hc).2
    refine .onStore (.onWriter ((Kept.refl s).queueBuffer hr i) ?_) ⟨id, id, id, id, id⟩
    exact Writer.kept_onBuf _ j (fun _ => .fresh) fun _ => memWf_nil
  · cases h

theorem Writer.kept_zeroComplete (w : Writer) (m : Mem) (n : Nat) : WriterKept w (w.zeroComplete m n) := .same rfl rfl rfl

theorem Kept.pieceFault {s t : State} (h : Kept s t) (j : ChunkJob) (n : Nat) : Kept s (t.pieceFault j n) :=
  (h.onWriter (.same rfl rfl rfl)).onXchg (Exchange.kept_dataFault _ _ _)

theorem State.kept_feedStep {s t : State} (h : s.feedStep = some t) : Kept s t := by
  unfold State.feedStep at h
  split at h
  · cases h; exact (Kept.refl s).pieceFault _ _
  · rw [Option.map_eq_some_iff] at h
    obtain ⟨w, hw, rfl⟩ := h
    exact { Kept.refl s with
      bytes := fun hm => (Writer.kept_feedStep hm _ _ hw).mem
      units := fun g => by rw [Writer.feedStep_memGood hw]; exact g }

theorem Store.kept_noteClose (st : Store) (n : Word) (now : Time) (l : List Matter) :
    StoreKept st { st.mapSeg n fun h => h.noteClose now with matters := l } :=
  (st.kept_mapSeg n (fun h => h.noteClose now) (fun g _ b => by unfold Seg.noteClose; split <;> exact b)
    fun g => by unfold Seg.noteClose; split <;> rfl).trans ⟨id, id, id, id, id⟩

theorem Kept.noteUnit {s t : State} (h : Kept s t) (x : Time) : Kept s (t.noteUnit x) := by
  unfold State.noteUnit
  split
  · refine h.onStore (Store.kept_mapSeg _ _ _ (fun g _ b => ?_) fun g => ?_) <;> unfold Seg.noteTime <;> split
    · exact b
    · exact b
    · rfl
    · rfl
  · exact h

theorem State.kept_queueStep {s t : State} (h : s.queueStep = some t) : Kept s t := by
  unfold State.queueStep at h
  dsimp only at h
  split at h
  · rename_i u rest _ hq
    rw [Option.ite_none_right_eq_some] at h
    obtain ⟨_, h⟩ := h
    cases h
    refine .noteUnit (.onWriter (.refl s) ?_) _
    refine .trans ?_ (Writer.kept_startQueued _ _)
    exact Writer.kept_queue _ _ fun g => by rw [hq] at g; exact Nat.le_of_succ_le g
  · cases h

theorem State.kept_jobStep {s t : State} (h : s.jobStep = some t) : Kept s t := by
  unfold State.jobStep at h
  split at h
  · cases h
  · extract_lets ready u at h
    have hr : Kept s ready := (Kept.refl s).onWriter (.same rfl rfl rfl)
    have hu : Kept s u := (Kept.refl s).onWriter (.same rfl rfl rfl)
    split at h
    · split at h
      · split at h
        · cases h
        · split at h
          · cases h; exact hr.onWriter (.same rfl rfl rfl)
          · exact Option.some.inj h ▸ hr
      · split at h
        · cases h; exact hu.finish _ _ _ _
        · exact Option.some.inj h ▸ hr
    · split at h
      · split at h
        · cases h; exact ((Kept.refl s).onWriter (Writer.kept_startChunk _ _)).noteUnit _
        · cases h
      · cases h
    · cases h

theorem State.kept_cutStep {s t : State} (h : s.cutStep = some t) : Kept s t := by
  have goto : ∀ (u : State) (c : Cut), Kept s u → Kept s (u.onWriter fun w => { w with cut := some c }) :=
    fun u c hu => hu.onWriter (.same rfl rfl rfl)
  have ends : ∀ u : State, Kept s u → Kept s (u.onWriter fun w => { w with cut := none }) :=
    fun u hu => hu.onWriter (.same rfl rfl rfl)
  have pad : ∀ c : Cut, (if s.writer.queue.isEmpty && s.writer.placing.isSome then
      some ((s.onWriter fun w => w.pad s.time).onWriter fun w => { w with cut := some c }) else none) = some t → Kept s t := by
    intro c h
    split at h
    · cases h; exact goto _ _ ((Kept.refl s).onWriter (Writer.kept_pad _ _))
    · cases h
  unfold State.cutStep at h
  extract_lets w at h
  split at h
  · cases h
  · rename_i c _
    extract_lets gt en at h
    split at h
    · exact pad _ h
    · split at h
      · rename_i i j _ _
        split at h
        · rename_i hc
          have hr : s.listRoom = true := (Bool.and_eq_true_iff.mp hc).1
          cases h
          refine goto _ _ (.onWriter ((Kept.refl s).queueBuffer hr i) ?_)
          exact Writer.kept_onBuf _ j (fun _ => .fresh) fun _ => memWf_nil
        · cases h
      · cases h
    · split at h
      · cases h; exact goto _ _ (.refl s)
      · split at h
        · cases h
          refine goto _ _ (.onStore (.refl s) ?_)
          exact Store.kept_noteClose _ _ _ _
        · cases h
    · cases h
    · split at h
      · rename_i hr
        cases h
        split
        · exact ends _ ((Kept.refl s).queueTail hr false)
        · exact goto _ _ ((Kept.refl s).queueTail hr false)
      · cases h
    · split at h
      · cases h; exact ends _ (.refl s)
      · cases h; exact goto _ _ ((Kept.refl s).onStore ⟨id, id, id, id, id⟩)
    · cases h

theorem Kept.endClose {s t : State} (h : Kept s t) : Kept s t.endClose := by
  unfold State.endClose
  extract_lets w clip a b
  have ha : Kept s a := h.onWriter ⟨id, fun _ => Nat.zero_le _⟩
  refine .onStore (.raise keeps_emit ?_ _ _) (Store.kept_offer _ _ _ _)
  unfold b
  split
  · split
    · split
      · exact ha.finish _ _ _ _
      · exact ha
    · exact ha
  · exact ha

theorem State.kept_closeStep {s t : State} (h : s.closeStep = some t) : Kept s t := by
  have goto : ∀ (u : State) (c : CloseStage), Kept s u → Kept s (u.onWriter fun w => { w with closing := c }) :=
    fun u c hu => hu.onWriter (.same rfl rfl rfl)
  unfold State.closeStep at h
  extract_lets w at h
  split at h
  · cases h
  · split at h
    · split at h
      · split at h
        · cases h; exact goto _ _ (.refl s)
        · rename_i i _
          extract_lets b at h
          split at h
          · cases h
          · split at h
            · cases h
            · split at h
              · cases h
                refine goto _ _ ?_
                have hb : Kept s (s.onWriter fun w => w.onBuf i fun _ => .empty) :=
                  (Kept.refl s).onWriter (s.writer.kept_onBuf i (fun _ => .empty) fun _ => memWf_nil)
                split
                · exact hb.onStore (Store.kept_returnPack _ _ _)
                · exact hb
              · cases h; exact goto _ _ ((Kept.refl s).onWriter (Writer.kept_pad _ _))
      · cases h
    · split at h
      · cases h; exact goto _ _ (.refl s)
      · split at h
        · rename_i hc
          have hr : s.listRoom = true := (Bool.and_eq_true_iff.mp hc).1
          cases h; exact goto _ _ ((Kept.refl s).queueBuffer hr _)
        · split at h
          · cases h
            exact goto _ _ ((Kept.refl s).onWriter (s.writer.kept_onBuf _ (fun _ => .empty) fun _ => memWf_nil))
          · cases h
    · split at h
      · cases h; exact goto _ _ (.refl s)
      · cases h
    · split at h
      · cases h; exact goto _ _ (.refl s)
      · cases h
        refine goto _ _ (.onStore (.refl s) ?_)
        exact Store.kept_noteClose _ _ _ _
    · cases h
    · split at h
      · cases h
        refine goto _ _ (.onStore (.onWriter (.refl s) ?_) (Store.kept_tailMissing _ _))
        exact Writer.kept_tail _ _ fun _ => memWf_nil
      · split at h
        · rename_i hr
          cases h; exact goto _ _ ((Kept.refl s).queueTail hr _)
        · cases h
    · split at h
      · cases h; exact goto _ _ (.refl s)
      · cases h
    · cases h; exact (Kept.refl s).endClose

theorem State.kept_resumeStep {s t : State} (h : s.resumeStep = some t) : Kept s t := by
  unfold State.resumeStep at h
  split at h
  · cases h
    refine .finish (.onCard (.refl s) ?_) _ _ _ _
    exact .of rfl le_rfl
  · cases h

/-- Every piece of block work keeps the part. -/
theorem kept_allWork : ∀ f ∈ allWork, ∀ s t : State, f s = some t → Kept s t := by
  intro f hf s t h
  simp only [allWork, List.mem_cons, List.not_mem_nil, or_false] at hf
  rcases hf with rfl | rfl | rfl | rfl | rfl | rfl | rfl | rfl | rfl | rfl | rfl | rfl | rfl | rfl | rfl | rfl
  · exact State.kept_takeBacklog h
  · exact State.kept_levelStep h
  · exact State.kept_reportStep h
  · exact State.kept_joinStep h
  · exact State.kept_matterStep h
  · exact State.kept_completionStep h
  · exact State.kept_endUnbegun keeps_emit h
  · exact State.kept_arbitrate keeps_emit h
  · exact State.kept_lostStep h
  · exact State.kept_cutStep h
  · exact State.kept_closeStep h
  · exact State.kept_fullStep h
  · exact State.kept_feedStep h
  · exact State.kept_queueStep h
  · exact State.kept_jobStep h
  · exact State.kept_resumeStep h

theorem kept_firstSome (l : List (State → Option State)) (hl : ∀ f ∈ l, ∀ s t : State, f s = some t → Kept s t) {s t : State}
    (h : firstSome s l = some t) : Kept s t := by
  induction l with
  | nil => cases h
  | cons f l ih =>
    unfold firstSome at h
    split at h
    · rename_i u hu
      cases h
      exact hl f List.mem_cons_self _ _ hu
    · exact ih (fun g hg => hl g (List.mem_cons_of_mem _ hg)) h

theorem State.kept_settleFor (n : Nat) (s : State) : Kept s (s.settleFor n) := by
  induction n generalizing s with
  | zero => exact .refl s
  | succ n ih =>
    unfold State.settleFor
    split
    · rename_i t ht
      exact (kept_firstSome _ kept_allWork ht).trans (ih t)
    · exact .refl s

theorem State.kept_settle (s : State) : Kept s s.settle := s.kept_settleFor _

theorem State.kept_refresh (s : State) : Kept s s.refresh := by
  unfold State.refresh
  split
  · exact .refl s
  · split
    · exact .refl s
    · rename_i a _ _
      have k := (((Exchange.kept_put s.xchg (a.base + 0x100) (leWord 4 (s.xchg.refreshCount + 1) ++ zeroBytes 4)).put (a.base + 0x108)
        s.sections).put (a.base + 0x100) (leWord 4 (s.xchg.refreshCount + 2)))
      exact (Kept.refl s).onXchg ⟨k.1, k.2, k.3, k.4, k.5, k.6, k.7, k.8, k.9, k.10⟩

theorem State.kept_refreshIfAsked (s : State) : Kept s s.refreshIfAsked := by
  unfold State.refreshIfAsked
  split
  · exact s.kept_refresh
  · exact .refl s

/-- Coming to rest keeps the part. -/
theorem State.kept_rest (s : State) : Kept s s.rest := s.kept_settle.trans (State.kept_refreshIfAsked _)

/-- A part with no block work and no refresh asked is at rest. -/
theorem State.rest_of_idle {s : State} (h : firstSome s allWork = none) (k : s.xchg.refreshAsked = false) : s.rest = s := by
  have hs : s.settle = s := by
    show s.settleFor (399 + 1) = s
    unfold State.settleFor
    rw [h]
  unfold State.rest
  rw [hs]
  unfold State.refreshIfAsked
  rw [k]
  rfl

/-! ## The bytes of a unit that a failed read leaves (R107) -/

/-- The bytes of host memory that a run stands for. -/
def Src.hostBytes (m : Mem) : Src → List Byte
  | .host a n => memBytes m a n
  | _ => []

theorem length_hostBytes (m : Mem) (l : List Src) : (l.flatMap (Src.hostBytes m)).length = dataLeft l := by
  induction l with
  | nil => rfl
  | cons x l ih => cases x <;> simp_all [Src.hostBytes, dataLeft]

/-- The good bytes are the first of the data still to be read. -/
theorem dataBytes_eq_take (m : Mem) (l : List Src) (n : Nat) : dataBytes m n l = (l.flatMap (Src.hostBytes m)).take n := by
  induction l generalizing n with
  | nil => simp [dataBytes]
  | cons x l ih =>
    cases x with
    | host a k => simp only [dataBytes, ih, memBytes_min, Src.hostBytes, List.flatMap_cons, List.take_append, memBytes_length]
    | bytes b => simp [dataBytes, ih, Src.hostBytes]
    | zeros b => simp [dataBytes, ih, Src.hostBytes]

end Sys2Proof.Machine
end

