-- ==== Sys2Proof/Laws/Commands.lean ====
section
/-! SUPPORT. What each command's effect leaves: after the command's own changes, the part is kept. -/

namespace Sys2Proof.Machine

theorem Kept.rest {s t : State} (h : Kept s t) : Kept s t.rest := h.trans t.kept_rest

theorem Kept.startHand {s t : State} (h : Kept s t) (l : Lane) : Kept s (t.onXchg fun x => x.startHand l) :=
  h.onXchg (Exchange.kept_startHand _ _)

theorem Kept.look {s t : State} (h : Kept s t) (l : Lane) : Kept s (t.look l) := h.onXchg (Exchange.kept_look _ _ _ _)

theorem Kept.poll {s t : State} (h : Kept s t) : Kept s t.poll := h.onXchg (Exchange.kept_poll _ _ _ _)

theorem Kept.withXchg {s t : State} (h : Kept s t) {x : Exchange} (k : XKept t.xchg x) : Kept s { t with xchg := x } :=
  h.onXchg (f := fun _ => x) k

theorem Kept.pop {s t : State} (h : Kept s t) : Kept s (t.onXchg Exchange.pop) := h.onXchg (Exchange.kept_pop _)

theorem XKept.dataFault {x y : Exchange} (h : XKept x y) (now : Time) (l : Lane) : XKept x (y.dataFault now l) :=
  h.trans (Exchange.kept_dataFault _ _ _)

/-! ## The engine's commands -/

theorem State.kept_badRecord (s : State) : Kept s s.badRecord := by
  unfold State.badRecord
  exact ((Kept.refl s).onXchg (Exchange.kept_push _ _)).finish _ _ _ _

theorem State.kept_resumeRecord (s : State) : Kept s s.resumeRecord := by
  unfold State.resumeRecord
  split
  · exact (Kept.refl s).finish _ _ _ _
  · dsimp only
    split
    · exact (Kept.refl s).finish _ _ _ _
    · split
      · exact (Kept.refl s).finish _ _ _ _
      · split
        · exact (((Kept.refl s).onXchg (Exchange.kept_popForRetake _ _ _)).finish _ _ _ _).release _
        · exact s.kept_badRecord
    · split
      · exact (Kept.refl s).finish _ _ _ _
      · split
        · exact (Kept.refl s).pop.finish _ _ _ _
        · split
          · refine .resumeCard (.release ?_ _) _ _ _ _
            exact (Kept.refl s).onXchg ((Exchange.kept_pop _).trans (Exchange.kept_startHand _ _))
          · exact s.kept_badRecord

theorem State.kept_resumeTop (s : State) : Kept s s.resumeTop := by
  unfold State.resumeTop
  split
  · exact s.kept_resumeRecord
  · exact (Kept.refl s).finish _ _ _ _

theorem Kept.dropRepeats {s t : State} (h : Kept s t) (l : Lane) : Kept s (t.dropRepeats l) := by
  unfold State.dropRepeats
  split
  · exact h.onWriter (.same rfl rfl rfl)
  · exact h

theorem State.kept_abandonRecord (s : State) : Kept s s.abandonRecord := by
  unfold State.abandonRecord
  split
  · exact (Kept.refl s).finish _ _ _ _
  · dsimp only
    have h := (Kept.refl s).pop
    split
    · exact h.finish _ _ _ _
    · exact (h.release _).finish _ _ _ _
    · exact (((h.onXchg (Exchange.kept_faultHeld _ _ _)).dropRepeats _).release _).finish _ _ _ _
    · split
      · exact ((h.release _).abandonCard).finish _ _ _ _
      · exact h.finish _ _ _ _

theorem State.kept_abandonTop (s : State) : Kept s s.abandonTop := by
  unfold State.abandonTop
  split
  · exact s.kept_abandonRecord
  · exact (Kept.refl s).finish _ _ _ _

/-- A command's meaning that leaves the part after its arrival. -/
def LeavesPart (a : Ambient) (meaning : State → Host.Outcome State Fault Refusal) : Prop :=
  ∀ s : State, s.supply.held = false → ∃ t, meaning s = .next t ∧ Kept (s.arrive a) t

theorem execResume_leaves (a : Ambient) : LeavesPart a (execResume a) := by
  intro s hs
  unfold execResume
  refine ⟨_, perform_free hs, ?_⟩
  generalize s.arrive a = s
  split
  · exact s.kept_resumeTop.rest
  · exact .refl s

theorem execAbandon_leaves (a : Ambient) : LeavesPart a (execAbandon a) := by
  intro s hs
  unfold execAbandon
  refine ⟨_, perform_free hs, ?_⟩
  generalize s.arrive a = s
  split
  · exact s.kept_abandonTop.rest
  · exact .refl s

theorem execScanTick_leaves (a : Ambient) : LeavesPart a (execScanTick a) := by
  intro s hs
  unfold execScanTick
  refine ⟨_, perform_free hs, ?_⟩
  generalize s.arrive a = s
  split
  · split
    · refine .rest (.poll ?_)
      exact (Kept.refl s).onXchg (.same rfl rfl rfl rfl rfl rfl rfl rfl rfl rfl)
    · exact .refl s
  · exact .refl s

theorem execStatusAck_leaves (a : Ambient) : LeavesPart a (execStatusAck a) := by
  intro s hs
  unfold execStatusAck
  refine ⟨_, perform_free hs, ?_⟩
  generalize s.arrive a = s
  split
  · refine .finish ?_ _ _ _ _
    refine .trans (t := s.onPath fun p => { p with accrued := 0, recentred := false }) ?_ (State.kept_refresh _)
    exact (Kept.refl s).onPath ⟨rfl, rfl, rfl, rfl, rfl, rfl, rfl, rfl, rfl, rfl, rfl, rfl, id⟩
  · exact .refl s

/-! ## Motion, path and router -/

theorem execReference_leaves (a : Ambient) : LeavesPart a (execReference a) := by
  intro s hs
  unfold execReference
  refine ⟨_, perform_free hs, ?_⟩
  generalize s.arrive a = s
  split
  · refine .finish ?_ _ _ _ _
    exact (Kept.refl s).onPath ⟨rfl, rfl, rfl, rfl, rfl, rfl, rfl, rfl, rfl, rfl, rfl, rfl, id⟩
  · exact .refl s

theorem execExtrapolationDeadline_leaves (a : Ambient) : LeavesPart a (execExtrapolationDeadline a) :=
  fun _ hs => ⟨_, perform_free hs, (State.kept_examine keeps_emit _).rest⟩

theorem execOutputWrite_leaves (a : Ambient) : LeavesPart a (execOutputWrite a) := by
  intro s hs
  unfold execOutputWrite
  refine ⟨_, perform_free hs, ?_⟩
  generalize s.arrive a = s
  dsimp only
  split
  · split
    · exact (Kept.refl s).finish _ _ _ _
    · refine .finish ?_ _ _ _ _
      exact { Kept.refl s with }
  · exact .refl s

/-! ## Clip assembler -/

theorem Writer.kept_openClip (w : Writer) (c : ClipSet) : WriterKept w (w.openClip c) := by
  unfold Writer.openClip
  dsimp only
  split
  · refine .onBuf ?_ _ fun _ => rfl
    exact .same rfl rfl rfl
  · exact .same rfl rfl rfl

theorem execClipOpen_leaves (a : Ambient) : LeavesPart a (execClipOpen a) := by
  intro s hs
  unfold execClipOpen
  refine ⟨_, perform_free hs, ?_⟩
  generalize s.arrive a = s
  dsimp only
  split
  · split
    · exact (Kept.refl s).finish _ _ _ _
    · refine .rest (.look (.finish ?_ _ _ _ _) _)
      refine .onPath (.onStore (.onWriter (.refl s) (Writer.kept_openClip _ _)) ?_) ?_
      · exact ⟨id, id, id, id, id⟩
      · exact ⟨rfl, rfl, rfl, rfl, rfl, rfl, rfl, rfl, rfl, rfl, rfl, rfl, id⟩
  · exact .refl s

theorem execClipClose_leaves (a : Ambient) : LeavesPart a (execClipClose a) := by
  intro s hs
  unfold execClipClose
  refine ⟨_, perform_free hs, ?_⟩
  generalize s.arrive a = s
  split
  · split
    · exact (Kept.refl s).finish _ _ _ _
    · split
      · refine .rest (.look (.finish ?_ _ _ _ _) _)
        exact (Kept.refl s).onWriter (.same rfl rfl rfl)
      · exact (((Kept.refl s).startHand _).startClose _).rest
      · exact ((Kept.refl s).startHand _).rest
  · exact .refl s

theorem execChunk_leaves (a : Ambient) : LeavesPart a (execChunk a) := by
  intro s hs
  unfold execChunk
  refine ⟨_, perform_free hs, ?_⟩
  generalize s.arrive a = s
  split
  · exact .refl s
  · split
    · exact .refl s
    · split
      · split
        · refine .rest (.finish ?_ _ _ _ _)
          exact (Kept.refl s).onWriter (.same rfl rfl rfl)
        · split
          · exact .refl s
          · refine .rest (.onWriter (.startHand (.refl s) _) ?_)
            exact .same rfl rfl rfl
      · exact .refl s

theorem execChunkPieceReadError_leaves (a : Ambient) (n : Nat) : LeavesPart a (execChunkPieceReadError a n) := by
  intro s hs
  unfold execChunkPieceReadError
  refine ⟨_, perform_free hs, ?_⟩
  generalize s.arrive a = s
  split
  · split
    · exact ((Kept.refl s).pieceFault _ _).rest
    · exact .refl s
  · exact .refl s

theorem Writer.feedAll_queue (m : Mem) (w : Writer) : (w.feedAll m).queue = w.queue := by
  unfold Writer.feedAll
  split <;> rfl

theorem execChunkCopyComplete_leaves (a : Ambient) : LeavesPart a (execChunkCopyComplete a) := by
  intro s hs
  unfold execChunkCopyComplete
  refine ⟨_, perform_free hs, ?_⟩
  generalize s.arrive a = s
  dsimp only
  split
  · split
    · refine .rest (.finish ?_ _ _ _ _)
      refine { Kept.refl s with bytes := fun hm hw => ?_, units := fun hu => ?_ }
      · exact (Writer.kept_feedAll hm s.writer).mem hw
      · exact (Writer.feedAll_queue s.xchg.mem s.writer).symm ▸ hu
    · exact .refl s
  · exact .refl s

/-! ## Card port -/

theorem execCardAttach_leaves (a : Ambient) : LeavesPart a (execCardAttach a) := by
  intro s hs
  unfold execCardAttach
  refine ⟨_, perform_free hs, ?_⟩
  generalize s.arrive a = s
  split
  · split
    · exact (Kept.refl s).finish _ _ _ _
    all_goals
      first
        | exact (Kept.refl s).finish _ _ _ _
        | (split
           · exact (Kept.refl s).finish _ _ _ _
           · split
             · refine .startHand ?_ _
               exact (Kept.refl s).onCard (.of rfl le_rfl)
             · refine .finish ?_ _ _ _ _
               exact (Kept.refl s).onCard (.of rfl le_rfl))
  · exact .refl s

theorem Kept.holdRaw {s t : State} (h : Kept s t) (b : Bool) (f n m : Nat) : Kept s (t.holdRaw b f n m) := by
  refine .onCard (h.startHand _) ⟨fun _ => ?_, id⟩
  exact memWf_nil

theorem execCardRead_leaves (a : Ambient) : LeavesPart a (execCardRead a) := by
  intro s hs
  unfold execCardRead
  refine ⟨_, perform_free hs, ?_⟩
  generalize s.arrive a = s
  split
  · split
    · exact (Kept.refl s).finish _ _ _ _
    · exact ((Kept.refl s).holdRaw _ _ _ _).rest
  · exact .refl s

theorem execCardWrite_leaves (a : Ambient) : LeavesPart a (execCardWrite a) := by
  intro s hs
  unfold execCardWrite
  refine ⟨_, perform_free hs, ?_⟩
  generalize s.arrive a = s
  split
  · split
    · exact (Kept.refl s).finish _ _ _ _
    · exact (Kept.refl s).holdRaw _ _ _ _
  · exact .refl s

theorem execCardDetectChange_leaves (a : Ambient) : LeavesPart a (execCardDetectChange a) := by
  intro s hs
  unfold execCardDetectChange
  refine ⟨_, perform_free hs, ?_⟩
  generalize s.arrive a = s
  dsimp only
  split
  · exact .refl s
  · split
    · split
      · exact (Kept.refl s).onCard (.of rfl le_rfl)
      · exact .refl s
    · split
      · exact .refl s
      · exact ((Kept.refl s).cardRemoved keeps_emit spares_emit).rest

theorem execAttachComplete_leaves (a : Ambient) (n : Word) (b : Bool) : LeavesPart a (execAttachComplete a n b) := by
  intro s hs
  unfold execAttachComplete
  refine ⟨_, perform_free hs, ?_⟩
  generalize s.arrive a = s
  have fails : ∀ r, Kept s (s.onCard (Card.attachFails r)) := fun r => (Kept.refl s).onCard (.of rfl le_rfl)
  split
  · split
    · exact fails _
    · split
      · exact ((Kept.refl s).onCard (.of rfl le_rfl)).rest
      · exact fails _
  · exact .refl s

theorem execAttachTimeout_leaves (a : Ambient) : LeavesPart a (execAttachTimeout a) := by
  intro s hs
  unfold execAttachTimeout
  refine ⟨_, perform_free hs, ?_⟩
  generalize s.arrive a = s
  split
  · exact (Kept.refl s).onCard (.of rfl le_rfl)
  · exact .refl s

theorem execCardProgramming_leaves (a : Ambient) : LeavesPart a (execCardProgramming a) := by
  intro s hs
  unfold execCardProgramming
  refine ⟨_, perform_free hs, ?_⟩
  generalize s.arrive a = s
  split
  · exact (Kept.refl s).onCard (.of rfl le_rfl)
  · exact .refl s

theorem execCardWriteAccepted_leaves (a : Ambient) : LeavesPart a (execCardWriteAccepted a) := by
  intro s hs
  unfold execCardWriteAccepted
  refine ⟨_, perform_free hs, ?_⟩
  generalize s.arrive a = s
  split
  · exact ((Kept.refl s).writeEnded keeps_emit spares_emit _ _).rest
  · exact .refl s

theorem execCardWriteError_leaves (a : Ambient) : LeavesPart a (execCardWriteError a) := by
  intro s hs
  unfold execCardWriteError
  refine ⟨_, perform_free hs, ?_⟩
  generalize s.arrive a = s
  split
  · exact ((Kept.refl s).writeEnded keeps_emit spares_emit _ _).rest
  · exact .refl s

theorem execCardBusyTimeout_leaves (a : Ambient) : LeavesPart a (execCardBusyTimeout a) := by
  intro s hs
  unfold execCardBusyTimeout
  refine ⟨_, perform_free hs, ?_⟩
  generalize s.arrive a = s
  split
  · exact ((Kept.refl s).writeEnded keeps_emit spares_emit _ _).rest
  · exact .refl s

/-- RAW_BUFFER_READ_COMPLETE: the part is kept, or the raw slot takes the bytes of the host's buffer and then the part is kept. -/
theorem execRawBufferReadComplete_leaves (a : Ambient) (s : State) (hs : s.supply.held = false) :
    ∃ t, execRawBufferReadComplete a s = .next t ∧ (Kept (s.arrive a) t ∨ ∃ r : RawJob,
      Kept ((s.arrive a).onCard fun c =>
        { c with raw := some { r with ready := true, data := memCopy [] 0 (s.arrive a).xchg.mem r.address (r.count * 512) } }) t) := by
  unfold execRawBufferReadComplete
  refine ⟨_, perform_free hs, ?_⟩
  generalize s.arrive a = s
  split
  · rename_i r _
    split
    · split
      · exact .inr ⟨r, (Kept.refl _).rest⟩
      · exact .inl (.rest (.onXchg (.onCard (.refl s) (.noRaw rfl le_rfl)) (Exchange.kept_dataFault _ _ _)))
    · exact .inl (.refl s)
  · exact .inl (.refl s)

theorem execRawReadComplete_leaves (a : Ambient) (ok : Bool) (data : List Host.Cell) : LeavesPart a (execRawReadComplete a ok data) := by
  intro s hs
  unfold execRawReadComplete
  refine ⟨_, perform_free hs, ?_⟩
  generalize s.arrive a = s
  split
  · split
    · dsimp only
      split
      · refine .rest (.rawEnded (.onXchg (.onCard (.refl s) (.of rfl le_rfl)) ?_) _)
        refine ⟨rfl, rfl, rfl, rfl, rfl, rfl, rfl, rfl, rfl, fun h => ?_⟩
        exact memWf_copy h (memWf_ofCells _)
      · exact ((Kept.refl s).onCard (.of rfl le_rfl)).rawEnded _ |>.rest
    · exact .refl s
  · exact .refl s

theorem execGraceExpiry_leaves (a : Ambient) : LeavesPart a (execGraceExpiry a) := by
  intro s hs
  unfold execGraceExpiry
  refine ⟨_, perform_free hs, ?_⟩
  generalize s.arrive a = s
  split
  · exact (Kept.refl s).graceEnds.rest
  · exact .refl s

theorem execDrainEnd_leaves (a : Ambient) : LeavesPart a (execDrainEnd a) := by
  intro s hs
  unfold execDrainEnd
  refine ⟨_, perform_free hs, ?_⟩
  generalize s.arrive a = s
  split
  · refine .rest (.finishAttach (.onCard (.onWriter (.refl s) ?_) (.of rfl le_rfl)))
    split
    · exact Writer.kept_giveBack _ _
    · exact .refl _
  · exact .refl s

/-! ## Storage map -/

theorem Store.kept_addExtent {st v : Store} {cap : Option Nat} {f n : Nat} (h : st.addExtent cap f n = .inr v) : StoreKept st v := by
  unfold Store.addExtent at h
  split at h
  · cases h
  · split at h
    · cases h
    · split at h
      · cases h
      · split at h
        · cases h
        · rename_i hl
          cases h
          refine .rearm ⟨fun _ => ?_, id, id, id, id⟩
          rw [List.length_append]
          exact Nat.succ_le_of_lt (Nat.lt_of_not_le hl)

theorem Store.kept_withdraw {st v : Store} {f : Nat} (h : st.withdraw f = .inr v) : StoreKept st v := by
  unfold Store.withdraw at h
  split at h
  · cases h
    exact ⟨fun g => le_trans (List.length_filter_le _ _) g, id, id, id, id⟩
  · split at h <;> cases h

theorem Store.kept_protect {st v : Store} {n : Word} {k : Nat} (h : st.protect n k = .inr v) : StoreKept st v := by
  unfold Store.protect at h
  dsimp only at h
  split at h
  · cases h
  · split at h
    · cases h
    · split at h
      · split at h
        · cases h
        · rename_i g hg _ _ hf
          cases h
          refine Store.kept_setOwner st n _ fun k hk ho _ => ?_
          cases hg.symm.trans hk
          simp only [ho, Option.isNone_none, Bool.true_and, Config.maxProtected] at hf
          exact Nat.lt_of_not_le fun h => hf (decide_eq_true h)
      · cases h; exact Store.kept_setOwner st n none fun _ _ _ h => nomatch h

theorem execExtentAdd_leaves (a : Ambient) : LeavesPart a (execExtentAdd a) := by
  intro s hs
  unfold execExtentAdd
  refine ⟨_, perform_free hs, ?_⟩
  generalize s.arrive a = s
  split
  · split
    · exact (Kept.refl s).finish _ _ _ _
    · rename_i st hst
      refine .rest (.finish (.withStore (.refl s) ?_) _ _ _ _)
      exact Store.kept_addExtent hst
  · exact .refl s

theorem execExtentWithdraw_leaves (a : Ambient) : LeavesPart a (execExtentWithdraw a) := by
  intro s hs
  unfold execExtentWithdraw
  refine ⟨_, perform_free hs, ?_⟩
  generalize s.arrive a = s
  split
  · split
    · exact (Kept.refl s).finish _ _ _ _
    · rename_i st hst
      refine .rest (.finish (.withStore (.refl s) ?_) _ _ _ _)
      exact Store.kept_withdraw hst
  · exact .refl s

theorem execProtect_leaves (a : Ambient) : LeavesPart a (execProtect a) := by
  intro s hs
  unfold execProtect
  refine ⟨_, perform_free hs, ?_⟩
  generalize s.arrive a = s
  split
  · split
    · exact (Kept.refl s).finish _ _ _ _
    · rename_i st hst
      refine .rest (.finish (.withStore (.refl s) ?_) _ _ _ _)
      exact Store.kept_protect hst
  · exact .refl s

/-! ## Charger -/

theorem execSafetyTimerLimit_leaves (a : Ambient) : LeavesPart a (execSafetyTimerLimit a) := by
  intro s hs
  unfold execSafetyTimerLimit
  refine ⟨_, perform_free hs, ?_⟩
  generalize s.arrive a = s
  exact ((Kept.refl s).runCharger keeps_emit Work.kept_timerCheck).rest

end Sys2Proof.Machine
end

