-- ==== Sys2Proof/Laws/Bases.lean ====
section
/-! SUPPORT. What each command that changes a kept field makes of it, the part being kept from there. -/

namespace Sys2Proof.Machine

/-- A fact about a command's effect after the arrival is a fact about what the command answers. -/
theorem perform_exists {a : Ambient} {s : State} {effect : State → State} {P : State → Prop} (hs : s.supply.held = false)
    (h : P (effect (s.arrive a))) : ∃ t, perform a s effect = .next t ∧ P t := ⟨_, perform_free hs, h⟩

/-! ## The register window and the resets -/

theorem Kept.shockFalse {s t : State} (h : Kept s t) (owed : Bool) : Kept s (t.shockFalse owed) := by
  unfold State.shockFalse
  split
  · exact h.raise keeps_emit _ _
  · exact h

/-- START changes the address being checked, and at a return the IMU, the power state and host power-enable. -/
theorem State.start_leaves (s : State) : ∃ (st : Option Nat) (m : Motion) (p : PowerState) (h : Bool),
    Kept { s with
      xchg := { s.xchg with starting := st }, motion := m, supply := { s.supply with power := p, hostPower := h } } s.start
      ∧ m.ring = s.motion.ring := by
  unfold State.start
  split
  · unfold State.returnActive
    split
    · exact ⟨_, s.motion, s.supply.power, s.supply.hostPower, Kept.refl _, rfl⟩
    · refine ⟨_, s.motion.wake s.time, .active, true, .prompt keeps_emit (.shockFalse (.refl _) _), ?_⟩
      unfold Motion.wake Motion.rearm Motion.enterStarting
      split <;> rfl
  · exact ⟨s.xchg.starting, s.motion, s.supply.power, s.supply.hostPower, Kept.refl _, rfl⟩

theorem execStart_leaves (a : Ambient) (s : State) (hs : s.supply.held = false) :
    ∃ (t : State) (st : Option Nat) (m : Motion) (p : PowerState) (h : Bool), execStart a s = .next t
      ∧ Kept { s.arrive a with
          xchg := { (s.arrive a).xchg with linkUp := true, starting := st }
          motion := m
          supply := { s.supply with power := p, hostPower := h } } t
      ∧ m.ring = s.motion.ring := by
  obtain ⟨st, m, p, h, k, hm⟩ := State.start_leaves (s.arrive a).linkSeen
  exact ⟨_, st, m, p, h, perform_free hs, k.rest, hm⟩

theorem execNudge_leaves (a : Ambient) (s : State) (hs : s.supply.held = false) :
    ∃ t, execNudge a s = .next t ∧ Kept (s.arrive a).linkSeen t :=
  ⟨_, perform_free hs, (Kept.refl _).poll.rest⟩

theorem execCauseWrite_leaves (a : Ambient) (v : Word) (s : State) (hs : s.supply.held = false) :
    ∃ t, execCauseWrite a v s = .next t ∧ Kept (s.arrive a).linkSeen t :=
  ⟨_, perform_free hs, (Kept.refl _).onXchg (.same rfl rfl rfl rfl rfl rfl rfl rfl rfl rfl)⟩

/-- A write of the mask keeps all but the mask. -/
theorem Kept.writeMask (s : State) (v : Word) :
    Kept { s with xchg := { s.xchg with mask := v.setWidth 9 } } (s.onXchg fun x => x.writeMask v) := by
  refine .onXchg (t := { s with xchg := { s.xchg with mask := v.setWidth 9 } })
    (f := fun _ => s.xchg.writeMask v) (.refl _) ?_
  unfold Exchange.writeMask Exchange.message
  split
  · exact .same rfl rfl rfl rfl rfl rfl rfl rfl rfl rfl
  · exact .same rfl rfl rfl rfl rfl rfl rfl rfl rfl rfl

theorem execCauseMaskWrite_leaves (a : Ambient) (v : Word) (s : State) (hs : s.supply.held = false) :
    ∃ t, execCauseMaskWrite a v s = .next t
      ∧ Kept { (s.arrive a).linkSeen with xchg := { (s.arrive a).linkSeen.xchg with mask := v.setWidth 9 } } t :=
  ⟨_, perform_free hs, Kept.writeMask _ _⟩

theorem execStatusRefresh_leaves (a : Ambient) (s : State) (hs : s.supply.held = false) :
    ∃ t n, execStatusRefresh a s = .next t
      ∧ Kept { s.arrive a with xchg := { (s.arrive a).xchg with nextRefresh := n } } t := by
  unfold execStatusRefresh
  suffices h : ∀ s : State, ∃ n, Kept { s with xchg := { s.xchg with nextRefresh := n } }
      (match s.xchg.nextRefresh with
        | some t =>
          if timeReached s.time t then
            (s.onXchg fun x => { x with nextRefresh := some (timeAfter t Config.refreshPeriod) }).refresh
          else s
        | none => s) by
    obtain ⟨n, h⟩ := h (s.arrive a)
    exact ⟨_, n, perform_free hs, h⟩
  intro s
  split
  · split
    · exact ⟨_, State.kept_refresh _⟩
    · exact ⟨s.xchg.nextRefresh, .refl s⟩
  · exact ⟨s.xchg.nextRefresh, .refl s⟩

/-- Entering RUNNING keeps the registers, and canonical bytes canonical. -/
theorem Exchange.enterRunning_keeps (x : Exchange) (now : Time) (c : AnchorCopy) :
    let y := x.enterRunning now c
    y.anchorLow = x.anchorLow ∧ y.anchorHigh = x.anchorHigh ∧ y.mask = x.mask ∧ (memWf x.mem = true → memWf y.mem = true) := by
  intro y
  have k : ∀ (l : Lane) (z : Exchange), XKept z (((z.putAnchor (descOffset l + 16) (leBytes 8 0)).putAnchor (descOffset l + 12)
      (leBytes 4 0)).showLane l) := fun l z => .showLane (.putAnchor (.putAnchor (.refl z) _ _) _ _) l
  have h := fun z => ((((k .control z).trans (k .chunk _)).trans (k .recovery _)).putAnchor 0x90 (leBytes 4 0)).putAnchor 0xA4
    (leBytes 4 0) |>.trans (Exchange.kept_readCounts _)
  exact ⟨(h _).anchorLow, (h _).anchorHigh, (h _).mask, fun g => (h _).mem g⟩

/-- The end of an anchor check changes the engine alone, its registers but for the check kept. -/
theorem execAnchorReadComplete_leaves (a : Ambient) (s : State) (hs : s.supply.held = false) :
    ∃ (t : State) (y : Exchange), execAnchorReadComplete a s = .next t ∧ Kept { s.arrive a with xchg := y } t
      ∧ y.anchorLow = s.xchg.anchorLow ∧ y.anchorHigh = s.xchg.anchorHigh ∧ y.mask = s.xchg.mask
      ∧ (memWf (s.arrive a).xchg.mem = true → memWf y.mem = true) := by
  unfold execAnchorReadComplete
  have key : ∀ s : State, ∃ y : Exchange, Kept { s with xchg := y }
        (match s.xchg.starting with
          | none => s
          | some base =>
            match checkAnchor s.xchg.mem s.xchg.badReads base with
            | .inl check => s.onXchg fun x => { x with state := .anchorBad, check, starting := none }
            | .inr copy => ((s.onXchg fun x => x.enterRunning s.time copy).refresh).lookAll.rest)
      ∧ y.anchorLow = s.xchg.anchorLow ∧ y.anchorHigh = s.xchg.anchorHigh ∧ y.mask = s.xchg.mask
      ∧ (memWf s.xchg.mem = true → memWf y.mem = true) := by
    intro s
    split
    · exact ⟨_, .refl s, rfl, rfl, rfl, id⟩
    · split
      · exact ⟨_, .refl _, rfl, rfl, rfl, id⟩
      · rename_i copy _
        have h := s.xchg.enterRunning_keeps s.time copy
        refine ⟨_, .rest (.onXchg (State.kept_refresh _) (Exchange.kept_lookAll _ _ _ _)), h⟩
  obtain ⟨y, k, h⟩ := key (s.arrive a)
  exact ⟨_, y, perform_free hs, k, h⟩

/-- A CONTROL write is a link reset or none, then a START or none. -/
theorem State.controlWrite_leaves (s : State) (v : Word) :
    ∃ t, (t = s ∨ t = s.linkResetByHost) ∧ (Kept t (s.controlWrite v) ∨ ∃ (st : Option Nat) (m : Motion) (p : PowerState) (h : Bool),
      Kept { t with
        xchg := { t.xchg with starting := st }, motion := m, supply := { t.supply with power := p, hostPower := h } }
          (s.controlWrite v)
        ∧ m.ring = t.motion.ring) := by
  unfold State.controlWrite
  have key : ∀ (t : State) (b : Bool), Kept t (if b then t.start.rest else t) ∨ ∃ (st : Option Nat) (m : Motion) (p : PowerState)
      (h : Bool), Kept { t with
        xchg := { t.xchg with starting := st }, motion := m, supply := { t.supply with power := p, hostPower := h } }
          (if b then t.start.rest else t)
        ∧ m.ring = t.motion.ring := by
    intro t b
    cases b
    · exact .inl (.refl t)
    · obtain ⟨st, m, p, h, k, hm⟩ := t.start_leaves
      exact .inr ⟨st, m, p, h, k.rest, hm⟩
  dsimp only
  cases v.getLsbD 1
  · exact ⟨s, .inl rfl, key s (v.getLsbD 0)⟩
  · exact ⟨s.linkResetByHost, .inr rfl, key s.linkResetByHost (v.getLsbD 0)⟩

/-! ## Motion, path and router -/

theorem Motion.rearm_ring (m : Motion) : m.rearm.ring = m.ring := by
  unfold Motion.rearm
  split <;> rfl

theorem Motion.setupPort_ring (now : Time) (b : Bool) (m : Motion) : (m.setupPort now b).ring = m.ring := by
  unfold Motion.setupPort
  split
  · rfl
  · rfl
  · split
    · exact m.rearm_ring
    · rfl

/-- MOTION_SETUP changes the front end but its ring, and the path unit but its accumulators, exposure and pending list. -/
theorem execMotionSetup_leaves (a : Ambient) (s : State) (hs : s.supply.held = false) :
    ∃ (t : State) (m : Motion) (p : Path), execMotionSetup a s = .next t ∧ Kept { s.arrive a with motion := m, path := p } t
      ∧ m.ring = s.motion.ring ∧ p.acc = s.path.acc ∧ p.exposure = s.path.exposure ∧ p.frames = s.path.frames := by
  unfold execMotionSetup
  have key : ∀ s : State, ∃ (m : Motion) (p : Path), Kept { s with motion := m, path := p }
      (match s.frameBody .control with
        | some (.motionSetup f) =>
          match mountOf f.axes f.signs with
          | none => s.finish .control .refused .badField 0
          | some mount =>
            let changed := s.motion.changes f
            if changed ∧ s.writer.state ≠ .idle then s.finish .control .refused .busy 0
            else
              let owed := changed && s.motion.owesShockFalse
              let t := (s.onMotion fun m => (m.applySetup f).setupPort s.time changed).onPath fun p => p.applySetup f mount
              ((t.shockFalse owed).finish .control .done .ok 0).rest
        | _ => s)
      ∧ m.ring = s.motion.ring ∧ p.acc = s.path.acc ∧ p.exposure = s.path.exposure ∧ p.frames = s.path.frames := by
    intro s
    split
    · split
      · exact ⟨s.motion, s.path, (Kept.refl s).finish _ _ _ _, rfl, rfl, rfl, rfl⟩
      · dsimp only
        split
        · exact ⟨s.motion, s.path, (Kept.refl s).finish _ _ _ _, rfl, rfl, rfl, rfl⟩
        · refine ⟨_, _, .rest (.finish (.shockFalse (.refl _) _) _ _ _ _), ?_, rfl, rfl, rfl⟩
          exact Motion.setupPort_ring _ _ _
    · exact ⟨s.motion, s.path, .refl s, rfl, rfl, rfl, rfl⟩
  obtain ⟨m, p, k, h⟩ := key (s.arrive a)
  exact ⟨_, m, p, perform_free hs, k, h⟩

theorem execExposure_leaves (a : Ambient) (s : State) (hs : s.supply.held = false) :
    ∃ t n, execExposure a s = .next t ∧ Kept { s.arrive a with path := { s.path with exposure := n } } t := by
  unfold execExposure
  have key : ∀ s : State, ∃ n, Kept { s with path := { s.path with exposure := n } }
      (match s.frameBody .control with
        | some (.exposure us) => (s.onPath fun p => { p with exposure := clampTo 0 500000 us }).finish .control .done .ok 0
        | _ => s) := by
    intro s
    split
    · exact ⟨_, (Kept.refl _).finish _ _ _ _⟩
    · exact ⟨s.path.exposure, .refl s⟩
  obtain ⟨n, k⟩ := key (s.arrive a)
  exact ⟨_, n, perform_free hs, k⟩

theorem execRoute_leaves (a : Ambient) (s : State) (hs : s.supply.held = false) :
    ∃ t, execRoute a s = .next t ∧ ∃ r, Kept { s.arrive a with router := { s.router with routes := r } } t := by
  unfold execRoute
  refine perform_exists hs ?_
  change ∃ r, Kept { s.arrive a with router := { (s.arrive a).router with routes := r } } _
  generalize s.arrive a = s
  split
  · split
    · exact ⟨s.router.routes, (Kept.refl s).finish _ _ _ _⟩
    · split
      · exact ⟨s.router.routes, (Kept.refl s).finish _ _ _ _⟩
      · split
        · exact ⟨s.router.routes, (Kept.refl s).finish _ _ _ _⟩
        · exact ⟨_, (Kept.refl _).finish _ _ _ _⟩
  · exact ⟨s.router.routes, .refl s⟩

theorem execLineSetup_leaves (a : Ambient) (s : State) (hs : s.supply.held = false) :
    ∃ t, execLineSetup a s = .next t ∧ ∃ l, Kept { s.arrive a with router := { s.router with lines := l } } t := by
  unfold execLineSetup
  refine perform_exists hs ?_
  change ∃ l, Kept { s.arrive a with router := { (s.arrive a).router with lines := l } } _
  generalize s.arrive a = s
  split
  · split
    · exact ⟨s.router.lines, (Kept.refl s).finish _ _ _ _⟩
    · exact ⟨_, (Kept.refl _).finish _ _ _ _⟩
  · exact ⟨s.router.lines, .refl s⟩

theorem execTimerSetup_leaves (a : Ambient) (s : State) (hs : s.supply.held = false) :
    ∃ t, execTimerSetup a s = .next t ∧ ∃ l, Kept { s.arrive a with router := { s.router with timers := l } } t := by
  unfold execTimerSetup
  refine perform_exists hs ?_
  change ∃ l, Kept { s.arrive a with router := { (s.arrive a).router with timers := l } } _
  generalize s.arrive a = s
  split
  · dsimp only
    split
    · exact ⟨s.router.timers, (Kept.refl s).finish _ _ _ _⟩
    · split
      · exact ⟨s.router.timers, (Kept.refl s).finish _ _ _ _⟩
      · split
        · exact ⟨s.router.timers, (Kept.refl s).finish _ _ _ _⟩
        · exact ⟨_, (Kept.refl _).finish _ _ _ _⟩
  · exact ⟨s.router.timers, .refl s⟩

theorem execInputLineEdge_leaves (a : Ambient) (n : Fin 4) (b : Bool) (s : State) (hs : s.supply.held = false) :
    ∃ t, execInputLineEdge a n b s = .next t ∧ ∃ l, Kept { s.arrive a with router := { s.router with lines := l } } t := by
  unfold execInputLineEdge
  rw [if_neg (by simp [hs])]
  refine ⟨_, rfl, ?_⟩
  change ∃ l, Kept { s.arrive a with router := { (s.arrive a).router with lines := l } } _
  generalize s.arrive a = s
  unfold State.lineEdge
  dsimp only
  split
  · exact ⟨s.router.lines, (Kept.refl s).rest⟩
  · repeat' split
    all_goals
      first
        | exact ⟨_, (Kept.refl _).rest⟩
        | exact ⟨_, .rest (.emit keeps_emit (.emit keeps_emit (.refl _) _) _)⟩

theorem execTimerExpiry_leaves (a : Ambient) (n : Fin 4) (s : State) (hs : s.supply.held = false) :
    ∃ t, execTimerExpiry a n s = .next t ∧ ∃ l, Kept { s.arrive a with router := { s.router with timers := l } } t := by
  unfold execTimerExpiry
  refine perform_exists hs ?_
  change ∃ l, Kept { s.arrive a with router := { (s.arrive a).router with timers := l } } _
  generalize s.arrive a = s
  split
  · split
    · rename_i e _ _
      unfold State.timerExpires
      dsimp only
      generalize hev : ({ number := _, time := e, arg := _ } : Event) = ev
      have k := (Kept.refl s).emit keeps_emit ev
      generalize hu : (emit ev s).onRouter _ = u
      refine ⟨u.router.timers, Kept.rest ?_⟩
      subst hu
      exact { k with timers := rfl }
    · exact ⟨s.router.timers, .refl s⟩
  · exact ⟨s.router.timers, .refl s⟩

/-! ## The IMU port -/

theorem execDataReadyEdge_leaves (a : Ambient) (s : State) (hs : s.supply.held = false) :
    ∃ t, execDataReadyEdge a s = .next t ∧ ∃ m : Motion, Kept { s.arrive a with motion := m } t ∧ m.ring = s.motion.ring := by
  refine perform_exists hs ⟨_, .refl _, ?_⟩
  change ((s.arrive a).motion.edge _).ring = (s.arrive a).motion.ring
  unfold Motion.edge
  split
  · rfl
  · split <;> rfl

theorem execImuSettleEnd_leaves (a : Ambient) (s : State) (hs : s.supply.held = false) :
    ∃ t, execImuSettleEnd a s = .next t ∧ ∃ m : Motion, Kept { s.arrive a with motion := m } t ∧ m.ring = s.motion.ring := by
  refine perform_exists hs ?_
  change ∃ m : Motion, Kept { s.arrive a with motion := m } _ ∧ m.ring = (s.arrive a).motion.ring
  generalize s.arrive a = s
  split
  · exact ⟨_, .refl _, rfl⟩
  · exact ⟨s.motion, .refl s, rfl⟩

theorem execLostPowerOffEnd_leaves (a : Ambient) (s : State) (hs : s.supply.held = false) :
    ∃ t, execLostPowerOffEnd a s = .next t ∧ ∃ m : Motion, Kept { s.arrive a with motion := m } t ∧ m.ring = s.motion.ring := by
  refine perform_exists hs ?_
  change ∃ m : Motion, Kept { s.arrive a with motion := m } _ ∧ m.ring = (s.arrive a).motion.ring
  generalize s.arrive a = s
  split
  · exact ⟨_, .refl _, rfl⟩
  · exact ⟨s.motion, .refl s, rfl⟩

theorem execRunningOneSecond_leaves (a : Ambient) (s : State) (hs : s.supply.held = false) :
    ∃ t, execRunningOneSecond a s = .next t
      ∧ ∃ m : Motion, Kept { s.arrive a with motion := m } t ∧ m.ring = s.motion.ring := by
  refine perform_exists hs ?_
  change ∃ m : Motion, Kept { s.arrive a with motion := m } _ ∧ m.ring = (s.arrive a).motion.ring
  generalize s.arrive a = s
  split
  · exact ⟨_, .refl _, rfl⟩
  · exact ⟨s.motion, .refl s, rfl⟩

theorem Motion.lose_ring (m : Motion) (now : Time) : (m.lose now).ring = m.ring := by
  unfold Motion.lose
  dsimp only
  split
  · exact m.rearm_ring
  · exact m.rearm_ring

theorem execLossDeadline_leaves (a : Ambient) (s : State) (hs : s.supply.held = false) :
    ∃ t, execLossDeadline a s = .next t ∧ ∃ m : Motion, Kept { s.arrive a with motion := m } t ∧ m.ring = s.motion.ring := by
  refine perform_exists hs ?_
  change ∃ m : Motion, Kept { s.arrive a with motion := m } _ ∧ m.ring = (s.arrive a).motion.ring
  generalize s.arrive a = s
  split
  · exact ⟨_, .rest (.shockFalse (.refl _) _), Motion.lose_ring _ _⟩
  · exact ⟨s.motion, .refl s, rfl⟩

theorem joinRing_length (l : List RingEntry) (e : RingEntry) (h : l.length ≤ 64) : (joinRing l e).length ≤ 64 := by
  unfold joinRing
  split
  · rename_i g
    have : Config.ringSize = 64 := rfl
    simp only [List.length_append, List.length_tail, List.length_cons, List.length_nil]
    omega
  · rename_i g
    have : Config.ringSize = 64 := rfl
    simp only [List.length_append, List.length_cons, List.length_nil]
    omega

theorem Motion.compare_ring (m : Motion) (t : Time) (M : Nat) : (m.compare t M).1.ring = m.ring := by
  unfold Motion.compare
  split
  · split <;> rfl
  · split
    · rfl
    · split <;> rfl

theorem State.shockStep_leaves (t : Time) (M : Nat) (s : State) :
    ∃ m : Motion, Kept { s with motion := m } (s.shockStep t M) ∧ m.ring = s.motion.ring := by
  unfold State.shockStep
  have h := s.motion.compare_ring t M
  revert h
  generalize s.motion.compare t M = p
  obtain ⟨m, shock⟩ := p
  intro h
  refine ⟨m, ?_, h⟩
  cases shock
  · exact .refl _
  · exact .emit keeps_emit (.refl _) _
  · exact .emit keeps_emit (.refl _) _

/-- A sample changes the front end, its ring staying within its bound, and the accumulators. -/
theorem execSampleReadComplete_leaves (a : Ambient) (x : Sample) (s : State) (hs : s.supply.held = false) :
    ∃ t, execSampleReadComplete a x s = .next t ∧ ∃ (m : Motion) (acc : Axes Angle),
      Kept { s.arrive a with motion := m, path := { s.path with acc := acc } } t
        ∧ (s.motion.ring.length ≤ 64 → m.ring.length ≤ 64) := by
  refine perform_exists hs ?_
  change ∃ (m : Motion) (acc : Axes Angle), Kept { s.arrive a with motion := m, path := { (s.arrive a).path with acc := acc } } _
    ∧ ((s.arrive a).motion.ring.length ≤ 64 → m.ring.length ≤ 64)
  generalize s.arrive a = s
  split
  · exact ⟨s.motion, s.path.acc, .refl s, id⟩
  · rename_i t _
    split
    · exact ⟨s.motion, s.path.acc, .refl s, id⟩
    · split
      · unfold State.activeSample
        dsimp only
        generalize he : s.motion.entryOf t x (s.path.integrate (s.motion.dt t) x).acc = e
        obtain ⟨m, k, hm⟩ := State.shockStep_leaves e.time (magnitude x)
          { s with path := s.path.integrate (s.motion.dt t) x, motion := (s.motion.takeSample e).nextRead }
        refine ⟨m, (s.path.integrate (s.motion.dt t) x).acc, .rest (k.trans (State.kept_examine keeps_emit _)), fun g => ?_⟩
        rw [hm]
        exact joinRing_length _ _ g
      · unfold State.parkedSample
        obtain ⟨m, k, hm⟩ := State.shockStep_leaves t (magnitude x) (s.onMotion fun m => (m.takeParked t).nextRead)
        exact ⟨m, s.path.acc, k.rest, fun g => hm ▸ g⟩

/-! ## Charger -/

/-- Work on the charger that leaves what the charger keeps of another value, taken into the state. -/
theorem State.runCharger_from {emit : Emit} (k : Keeps emit) (s : State) (c : Charger) {f : Work → Work}
    (hf : ChargerKept c (f s.charger.work).c) : Kept { s with charger := c } (s.runCharger emit f) := by
  unfold State.runCharger
  refine .foldl ?_ _ _ fun u e => .raise k (.refl u) _ _
  refine .onStore ?_ (Store.kept_offers _ _ _ _)
  have a : Kept { s with charger := c } { s with charger := (f s.charger.work).c } :=
    { Kept.refl { s with charger := c } with charger := hf }
  split
  · exact a.askRefresh
  · exact a

theorem Work.kept_setup (w : Work) (p : Profile) (clear : Bool) (a : Around) : ∃ pre fast,
    ChargerKept { w.c with profile := p.clamped, prechargeUs := pre, fastUs := fast } (w.setup p clear a).c := by
  unfold Work.setup
  dsimp only
  split
  · have k := (Work.kept_begin ((w.on fun c => { c with profile := p.clamped }).on fun c =>
      { c with prechargeUs := 0, fastUs := 0, hold := false }) a.path true).trans (Work.kept_prompt _ a)
    exact ⟨0, 0, ⟨k.1, k.2, k.3, k.4, k.5, k.6, k.7, k.8, k.9, k.10, k.11, k.12⟩⟩
  · have k := (Work.kept_timerCheck (w.on fun c => { c with profile := p.clamped })).trans (Work.kept_prompt _ a)
    exact ⟨w.c.prechargeUs, w.c.fastUs, ⟨k.1, k.2, k.3, k.4, k.5, k.6, k.7, k.8, k.9, k.10, k.11, k.12⟩⟩

theorem execChargeSetup_leaves (a : Ambient) (s : State) (hs : s.supply.held = false) :
    ∃ t, execChargeSetup a s = .next t ∧ ∃ p pre fast,
      Kept { s.arrive a with
        charger := { (s.arrive a).charger with profile := p, prechargeUs := pre, fastUs := fast } } t := by
  refine perform_exists hs ?_
  generalize s.arrive a = s
  split
  · rename_i p clear _
    obtain ⟨pre, fast, k⟩ := s.charger.work.kept_setup p clear s.around
    exact ⟨p.clamped, pre, fast, .rest (.finish (s.runCharger_from keeps_emit _ k) _ _ _ _)⟩
  · exact ⟨s.charger.profile, s.charger.prechargeUs, s.charger.fastUs, .refl s⟩

theorem execInputLimit_leaves (a : Ambient) (s : State) (hs : s.supply.held = false) :
    ∃ t, execInputLimit a s = .next t ∧ ∃ l g d,
      Kept { s.arrive a with charger := { (s.arrive a).charger with iinLimit := l, limitGiven := g, droop := d } } t := by
  refine perform_exists hs ?_
  generalize s.arrive a = s
  split
  · rename_i ma _
    have k := Work.kept_prompt (s.charger.work.on fun c =>
      { c with iinLimit := clampTo 100 3000 ma, limitGiven := true, droop := min c.droop (clampTo 100 3000 ma) }) s.around
    exact ⟨_, _, _, .rest (.finish (s.runCharger_from keeps_emit _ k) _ _ _ _)⟩
  · exact ⟨s.charger.iinLimit, s.charger.limitGiven, s.charger.droop, .refl s⟩

theorem execLoadClass_leaves (a : Ambient) (s : State) (hs : s.supply.held = false) :
    ∃ t, execLoadClass a s = .next t ∧ ∃ n, Kept { s.arrive a with supply := { s.supply with loadClass := n } } t := by
  refine perform_exists hs ?_
  change ∃ n, Kept { s.arrive a with supply := { (s.arrive a).supply with loadClass := n } } _
  generalize s.arrive a = s
  split
  · dsimp only
    split
    · exact ⟨s.supply.loadClass, (Kept.refl s).finish _ _ _ _⟩
    · exact ⟨_, .rest (.finish (.prompt keeps_emit (.refl _)) _ _ _ _)⟩
  · exact ⟨s.supply.loadClass, .refl s⟩

theorem Work.kept_faultTests (w : Work) :
    ChargerKept w.c w.faultTests.c ∧ w.faultTests.c.state.attached = w.c.state.attached := by
  unfold Work.faultTests
  split
  · exact ⟨.refl _, rfl⟩
  · rename_i h
    have ha : w.c.state.attached = true := by
      cases g : w.c.state.attached
      · simp [g] at h
      · rfl
    split
    · exact ⟨w.kept_fault _ _, ha ▸ rfl⟩
    · split
      · exact ⟨w.kept_fault _ _, ha ▸ rfl⟩
      · exact ⟨.refl _, rfl⟩

theorem Work.kept_phaseStep (w : Work) (p : PathMode) : ChargerKept w.c (w.phaseStep p).c := by
  unfold Work.phaseStep
  split
  · split
    · exact (w.c.kept_enter .fast).trans (Work.kept_timerCheck (w.on fun c => c.enter .fast))
    · exact .refl _
  · split
    · exact (w.c.kept_enter .taper).trans (Work.kept_timerCheck (w.on fun c => c.enter .taper))
    · exact .refl _
  · split
    · exact w.kept_begin _ _
    · exact .refl _
  · exact .refl _

theorem Work.kept_termStep (w : Work) : ∃ pre fast,
    ChargerKept { w.c with prechargeUs := pre, fastUs := fast } w.termStep.c := by
  unfold Work.termStep
  dsimp only
  split
  · generalize (if w.c.meas.ibat.toInt < w.c.profile.iterm then w.c.term + 1 else 0) = n
    split
    · exact ⟨0, 0, ⟨rfl, rfl, rfl, rfl, rfl, rfl, rfl, rfl, rfl, rfl, rfl, rfl⟩⟩
    · exact ⟨w.c.prechargeUs, w.c.fastUs, ⟨rfl, rfl, rfl, rfl, rfl, rfl, rfl, rfl, rfl, rfl, rfl, rfl⟩⟩
  · exact ⟨w.c.prechargeUs, w.c.fastUs, .refl _⟩

theorem Charger.droopStep_eq (c : Charger) : c.droopStep = { c with droop := c.droopStep.droop } := by
  unfold Charger.droopStep
  split
  · rfl
  · split
    · rfl
    · split <;> rfl

theorem Charger.droopStep_droop {c d : Charger} (h1 : d.state.attached = c.state.attached) (h2 : d.meas = c.meas)
    (h3 : d.droop = c.droop) (h4 : d.iinLimit = c.iinLimit) : d.droopStep.droop = c.droopStep.droop := by
  unfold Charger.droopStep
  rw [h1, h2, h3, h4]
  split
  · exact h3
  · split
    · rfl
    · split
      · rfl
      · exact h3

theorem Charger.kept_droopStep (d : Charger) (n : Nat) (h : d.droopStep.droop = n) :
    ChargerKept { d with droop := n } d.droopStep :=
  ⟨by rw [d.droopStep_eq], by rw [d.droopStep_eq], by rw [d.droopStep_eq], by rw [d.droopStep_eq], by rw [d.droopStep_eq],
   by rw [d.droopStep_eq], by rw [d.droopStep_eq], h, by rw [d.droopStep_eq], by rw [d.droopStep_eq], by rw [d.droopStep_eq],
   by rw [d.droopStep_eq]⟩

/-- A periodic evaluation's own changes: band, die cap, droop trim, and the safety timers where it ends in FULL. -/
theorem Work.kept_periodic (w : Work) (a : Around) : ∃ pre fast,
    ChargerKept { w.c with
      band := moveBand w.c.band w.c.meas.temp.toInt
      dieCap := moveDieCap w.c.dieCap w.c.meas.die.toInt
      droop := w.c.droopStep.droop
      prechargeUs := pre
      fastUs := fast } (w.periodic a).c := by
  unfold Work.periodic
  obtain ⟨k0, hat⟩ := w.kept_faultTests
  generalize w.faultTests = f at k0 hat
  generalize hv : (f.on fun c => ({ c with
    band := moveBand c.band c.meas.temp.toInt, dieCap := moveDieCap c.dieCap c.meas.die.toInt } : Charger).droopStep) = v
  have k1 : ChargerKept { w.c with
      band := moveBand w.c.band w.c.meas.temp.toInt
      dieCap := moveDieCap w.c.dieCap w.c.meas.die.toInt
      droop := w.c.droopStep.droop } v.c := by
    subst hv
    refine ChargerKept.trans (d := { f.c with
      band := moveBand f.c.band f.c.meas.temp.toInt
      dieCap := moveDieCap f.c.dieCap f.c.meas.die.toInt
      droop := w.c.droopStep.droop }) ?_ ?_
    · rw [k0.meas, k0.band, k0.dieCap]
      exact ⟨k0.1, k0.2, k0.3, k0.4, k0.5, rfl, rfl, rfl, k0.9, k0.10, k0.11, k0.12⟩
    · have hd := Charger.droopStep_droop (c := w.c) (d := { f.c with
        band := moveBand f.c.band f.c.meas.temp.toInt, dieCap := moveDieCap f.c.dieCap f.c.meas.die.toInt })
        hat k0.meas k0.droop k0.iinLimit
      exact Charger.kept_droopStep _ _ hd
  have k2 := k1.trans ((Work.kept_phaseStep v a.path).trans (((Charger.kept_compute _ a).trans
    (Charger.kept_holdStep _)).trans (Work.kept_pauseTests ((v.phaseStep a.path).on fun c => (c.compute a).holdStep) a.path)))
  obtain ⟨pre, fast, k3⟩ := Work.kept_termStep
    (((v.phaseStep a.path).on fun c => (c.compute a).holdStep).pauseTests a.path)
  refine ⟨pre, fast, ?_⟩
  exact ⟨k3.1.trans k2.1, k3.2.trans k2.2, k3.3.trans k2.3, k3.4.trans k2.4, k3.5.trans k2.5, k3.6.trans k2.6,
    k3.7.trans k2.7, k3.8.trans k2.8, k3.9, k3.10, k3.11.trans k2.11, k3.12.trans k2.12⟩

theorem execPeriodicEvaluation_leaves (a : Ambient) (s : State) (hs : s.supply.held = false) :
    ∃ t, execPeriodicEvaluation a s = .next t ∧ ∃ n band cap droop pre fast,
      Kept { s.arrive a with
        charger := { (s.arrive a).charger with
          nextEval := n, band := band, dieCap := cap, droop := droop, prechargeUs := pre, fastUs := fast } } t
      ∧ (timeReached (s.arrive a).time (s.arrive a).charger.nextEval = true → n = timeAfter (s.arrive a).charger.nextEval Config.evalPeriod
          ∧ band = moveBand (s.arrive a).charger.band (s.arrive a).charger.meas.temp.toInt
          ∧ cap = moveDieCap (s.arrive a).charger.dieCap (s.arrive a).charger.meas.die.toInt
          ∧ droop = (s.arrive a).charger.droopStep.droop) := by
  refine perform_exists hs ?_
  generalize s.arrive a = s
  split
  · obtain ⟨pre, fast, k⟩ := Work.kept_periodic
      (Charger.work { s.charger with nextEval := timeAfter s.charger.nextEval Config.evalPeriod }) s.around
    have hd := Charger.droopStep_droop (c := s.charger)
      (d := { s.charger with nextEval := timeAfter s.charger.nextEval Config.evalPeriod }) rfl rfl rfl rfl
    refine ⟨timeAfter s.charger.nextEval Config.evalPeriod, moveBand s.charger.band s.charger.meas.temp.toInt,
      moveDieCap s.charger.dieCap s.charger.meas.die.toInt, s.charger.droopStep.droop, pre, fast, ?_,
      fun _ => ⟨rfl, rfl, rfl, rfl⟩⟩
    change Kept _ (State.rest (State.runCharger emit (fun w => w.periodic s.around)
      { s with charger := { s.charger with nextEval := timeAfter s.charger.nextEval Config.evalPeriod } }))
    revert k hd
    generalize timeAfter s.charger.nextEval Config.evalPeriod = n
    intro k hd
    have kk := State.runCharger_from keeps_emit { s with charger := { s.charger with nextEval := n } }
      { s.charger with
        nextEval := n
        band := moveBand s.charger.band s.charger.meas.temp.toInt
        dieCap := moveDieCap s.charger.dieCap s.charger.meas.die.toInt
        droop := s.charger.droopStep.droop, prechargeUs := pre, fastUs := fast } (f := fun w => w.periodic s.around)
      ⟨k.1, k.2, k.3, k.4, k.5, k.6, k.7, k.8.trans hd, k.9, k.10, k.11, k.12⟩
    exact kk.rest
  · rename_i h
    exact ⟨s.charger.nextEval, s.charger.band, s.charger.dieCap, s.charger.droop, s.charger.prechargeUs, s.charger.fastUs,
      .refl s, fun g => absurd g h⟩

end Sys2Proof.Machine
end

