-- ==== Sys2Proof/Laws/Supply.lean ====
section
/-! SUPPORT. What the supply manager's own changes leave: class, power state and reset cause, and switches that stay sound. -/

namespace Sys2Proof.Machine

/-- The supply manager changed in its switches, filters and conditions alone, its switches sound if they were. -/
structure SupplyMoved (u v : Supply) : Prop where
  loadClass : v.loadClass = u.loadClass
  power : v.power = u.power
  cause : v.cause = u.cause
  held : v.held = u.held
  switches : u.SwitchesGood → v.SwitchesGood

theorem SupplyMoved.refl (u : Supply) : SupplyMoved u u := ⟨rfl, rfl, rfl, rfl, id⟩

theorem SupplyMoved.trans {u v w : Supply} (a : SupplyMoved u v) (b : SupplyMoved v w) : SupplyMoved u w :=
  ⟨b.1.trans a.1, b.2.trans a.2, b.3.trans a.3, b.4.trans a.4, fun h => b.5 (a.5 h)⟩

theorem SupplyKept.switches {u v : Supply} (h : SupplyKept u v) (g : u.SwitchesGood) : v.SwitchesGood := by
  unfold SupplyKept at h
  rw [h]
  exact ⟨g.1, g.2, g.3, g.4⟩

theorem SupplyKept.moved {u v : Supply} (h : SupplyKept u v) : SupplyMoved u v := by
  refine ⟨?_, ?_, ?_, ?_, h.switches⟩ <;> (unfold SupplyKept at h; rw [h])

/-- The part kept but for the supply manager, which has moved. -/
structure Moved (s t : State) : Prop where
  rest : ∃ v, Kept { s with supply := v } t
  supply : SupplyMoved s.supply t.supply

theorem Kept.moved {s t : State} (h : Kept s t) : Moved s t := ⟨⟨s.supply, h⟩, h.supply.moved⟩

theorem Kept.withSupply {s t : State} (h : Kept s t) (v : Supply) : Kept { s with supply := v } { t with supply := v } :=
  { h with supply := .refl v }

theorem Moved.trans {s t u : State} (a : Moved s t) (b : Moved t u) : Moved s u := by
  obtain ⟨v, h⟩ := a.rest
  obtain ⟨w, k⟩ := b.rest
  exact ⟨⟨w, (h.withSupply w).trans k⟩, a.supply.trans b.supply⟩

theorem Moved.kept {s t u : State} (a : Moved s t) (b : Kept t u) : Moved s u := a.trans b.moved

theorem Moved.onSupply {s t : State} (a : Moved s t) {f : Supply → Supply} (h : SupplyMoved t.supply (f t.supply)) :
    Moved s (t.onSupply f) :=
  a.trans ⟨⟨f t.supply, Kept.refl _⟩, h⟩

theorem Moved.withSupply {s t : State} (a : Moved s t) {v : Supply} (h : SupplyMoved t.supply v) :
    Moved s { t with supply := v } :=
  a.trans ⟨⟨v, Kept.refl _⟩, h⟩

/-- What a moved part keeps beside the supply manager. -/
theorem Moved.capacities {s t : State} (h : Moved s t) (c : s.Capacities) : t.Capacities := by
  obtain ⟨v, k⟩ := h.rest
  exact k.capacities ⟨c.1, c.2, c.3, c.4, c.5, c.6, c.7, c.8, c.9, c.10, c.11⟩

theorem Moved.memGood {s t : State} (h : Moved s t) (g : s.memGood = true) : t.memGood = true := by
  obtain ⟨v, k⟩ := h.rest
  exact k.memGood g

/-! ## The switches -/

theorem Kept.supplyFlag {s t : State} (h : Kept s t) : Kept s t.supplyFlag := h.onXchg (XKept.request (.refl _) _)

/-- On a RUNNING exchange the low-battery filter's request is a request like any other; elsewhere it is dropped (R185). -/
theorem State.lowSupplyFlag_running (s : State) (h : s.xchg.state = .running) : s.lowSupplyFlag = s.supplyFlag := if_pos h

theorem State.lowSupplyFlag_dropped (s : State) (h : s.xchg.state ≠ .running) : s.lowSupplyFlag = s := if_neg h

/-- A port that is not FAILED becomes OFF at an entry to SLEEP (R17). -/
theorem Motion.sleep_port_of_not_failed (m : Motion) (h : m.port ≠ .failed) : m.sleep.port = .off := by
  simp [Motion.sleep, h]

theorem Kept.lowSupplyFlag {s t : State} (h : Kept s t) : Kept s t.lowSupplyFlag := by
  unfold State.lowSupplyFlag
  split
  · exact h.supplyFlag
  · exact h

theorem Kept.pathRead {s t : State} (h : Kept s t) : Kept s (t.pathRead Machine.emit) :=
  h.runCharger keeps_emit fun w => w.kept_pauseTests _

theorem Kept.finishPath {s t : State} (h : Kept s t) (st : Status) (r : Result) (v : Nat) : Kept s (t.finishPath st r v) := by
  unfold State.finishPath
  split
  · exact h.finish _ _ _ _
  · exact h

theorem Kept.pathShown {s t : State} (h : Kept s t) (u : Supply) : Kept s (t.pathShown u) := by
  unfold State.pathShown
  split
  · exact h.askRefresh
  · exact h

theorem Moved.drive {s t : State} (h : Moved s t) (g : ChangeFor) (sw : Switch) (o : Bool)
    (ha : g = .attach → t.supply.mode = .normal) : Moved s (t.drive g sw o) := by
  refine h.onSupply ⟨rfl, rfl, rfl, rfl, fun k => ⟨k.1, k.2, k.3, fun c hc hg => ?_⟩⟩
  cases hc
  exact ha hg

theorem Moved.attachSwitch {s t : State} (h : Moved s t) : Moved s t.attachSwitch := by
  unfold State.attachSwitch
  have k : Moved s (t.onSupply fun u => { u with present := true }) :=
    h.onSupply ⟨rfl, rfl, rfl, rfl, fun k => ⟨k.1, k.2, k.3, k.4⟩⟩
  dsimp only
  split
  · rename_i hm
    split
    · exact k.drive _ _ _ fun _ => hm
    · rename_i c hc
      refine k.onSupply ⟨rfl, rfl, rfl, rfl, fun g => ⟨g.1, g.2, g.3, fun d hd hg => ?_⟩⟩
      cases hd
      exact hm
  · exact k

theorem Supply.settle_moved (u : Supply) (c : Change) (h : u.change = some c) : SupplyMoved u (u.settleSwitches c) := by
  unfold Supply.settleSwitches
  split
  · rename_i hg
    refine ⟨rfl, rfl, rfl, rfl, fun k => ?_⟩
    have hm := k.4 c h hg
    exact ⟨.inl rfl, fun e => by simp [hm] at e, fun e => by simp [hm] at e, fun _ e => by cases e⟩
  · exact ⟨rfl, rfl, rfl, rfl, fun _ => ⟨.inr rfl, fun _ => ⟨rfl, rfl⟩, fun e => by simp at e, fun _ e => by cases e⟩⟩
  · exact ⟨rfl, rfl, rfl, rfl, fun _ => ⟨.inl rfl, fun e => by simp at e, fun _ => ⟨rfl, rfl⟩, fun _ e => by cases e⟩⟩
  · split
    · exact ⟨rfl, rfl, rfl, rfl, fun _ => ⟨.inl rfl, fun e => by simp at e, fun e => by simp at e, fun _ e => by cases e⟩⟩
    · exact ⟨rfl, rfl, rfl, rfl, fun _ => ⟨.inr rfl, fun e => by simp at e, fun e => by simp at e, fun _ e => by cases e⟩⟩

theorem Supply.fail_moved (u : Supply) (sw : Switch) : SupplyMoved u (u.failSwitch sw) := by
  unfold Supply.failSwitch
  cases sw
  · dsimp only
    split
    · rename_i hb
      exact ⟨rfl, rfl, rfl, rfl, fun k => ⟨.inr hb, fun e => ⟨hb, rfl⟩, fun e => by have := (k.3 e).2; simp [hb] at this,
        fun _ e => by cases e⟩⟩
    · exact ⟨rfl, rfl, rfl, rfl, fun k => ⟨k.1, k.2, k.3, fun _ e => by cases e⟩⟩
  · dsimp only
    split
    · rename_i hb
      exact ⟨rfl, rfl, rfl, rfl, fun k => ⟨.inl hb, fun e => by have := (k.2 e).2; simp [hb] at this, fun e => ⟨hb, rfl⟩,
        fun _ e => by cases e⟩⟩
    · exact ⟨rfl, rfl, rfl, rfl, fun k => ⟨k.1, k.2, k.3, fun _ e => by cases e⟩⟩

theorem Supply.collapse_moved (u : Supply) : SupplyMoved u u.collapse := by
  unfold Supply.collapse
  split
  · rename_i hm
    exact ⟨rfl, rfl, rfl, rfl, fun _ => ⟨.inr rfl, fun e => by simp [hm] at e, fun e => by simp [hm] at e,
      fun _ e => by cases e⟩⟩
  · exact ⟨rfl, rfl, rfl, rfl, fun _ => ⟨.inr rfl, fun e => by simp at e, fun e => by simp at e, fun _ e => by cases e⟩⟩
  · exact ⟨rfl, rfl, rfl, rfl, fun k => ⟨k.1, k.2, k.3, fun _ e => by cases e⟩⟩

theorem Moved.collapse {s t : State} (h : Moved s t) : Moved s (t.collapse emit) := by
  unfold State.collapse
  dsimp only
  have k : Moved s ((t.onSupply Supply.collapse).pathShown t.supply) :=
    (h.onSupply (Supply.collapse_moved _)).kept ((Kept.refl _).pathShown _)
  generalize (t.onSupply Supply.collapse).pathShown t.supply = u at k
  have k2 : Moved s (if t.supply.mode = .batteryIsolate then u.supplyFlag else u) := by
    split
    · exact k.kept (Kept.refl u).supplyFlag
    · exact k
  generalize (if t.supply.mode = .batteryIsolate then u.supplyFlag else u) = v at k2
  have k3 : Moved s (if t.supply.change.isSome then v.finishPath .done .inputLost v.supply.mode.code else v) := by
    split
    · exact k2.kept ((Kept.refl v).finishPath _ _ _)
    · exact k2
  generalize (if t.supply.change.isSome then v.finishPath .done .inputLost v.supply.mode.code else v) = w at k3
  split
  · exact k3
  · exact k3.kept (Kept.refl w).pathRead

/-- The filters leave the switches. -/
theorem Supply.low_moved (u : Supply) (v : Nat) : SupplyMoved u (u.lowFilter v).1 := by
  unfold Supply.lowFilter
  repeat' split
  all_goals exact ⟨rfl, rfl, rfl, rfl, fun k => ⟨k.1, k.2, k.3, k.4⟩⟩

theorem Supply.shut_moved (u : Supply) (v : Nat) : SupplyMoved u (u.shutFilter v).1 := by
  unfold Supply.shutFilter
  repeat' split
  all_goals exact ⟨rfl, rfl, rfl, rfl, fun k => ⟨k.1, k.2, k.3, k.4⟩⟩

theorem Kept.assertGrace {s t : State} (h : Kept s t) : Kept s t.assertGrace := by
  unfold State.assertGrace
  split
  · exact h.startGrace
  · exact h

theorem Moved.lowStep {s t : State} (h : Moved s t) : Moved s (t.lowStep emit) := by
  unfold State.lowStep
  dsimp only
  have k := h.withSupply (t.supply.low_moved t.charger.vbat)
  split
  · exact k
  · exact k.kept (((((Kept.refl _).raise keeps_emit _ _).lowSupplyFlag).startClose _).assertGrace)
  · exact k.kept (Kept.refl _).lowSupplyFlag

theorem Moved.shutStep {s t : State} (h : Moved s t) : Moved s (t.shutStep emit) := by
  unfold State.shutStep
  dsimp only
  have k := h.withSupply (t.supply.shut_moved t.charger.vbat)
  split
  · exact k.kept (((Kept.refl _).raise keeps_emit _ _).supplyFlag)
  · exact k

theorem Moved.dieStep {s t : State} (h : Moved s t) : Moved s t.dieStep := by
  unfold State.dieStep
  dsimp only
  split
  · refine .kept (h.onSupply (f := fun u => { u with dieHot := true }) ?_) (((Kept.refl _).supplyFlag).startClose _).assertGrace
    exact ⟨rfl, rfl, rfl, rfl, fun k => ⟨k.1, k.2, k.3, k.4⟩⟩
  · split
    · refine .kept (h.onSupply (f := fun u => { u with dieHot := false }) ?_) (Kept.refl _).supplyFlag
      exact ⟨rfl, rfl, rfl, rfl, fun k => ⟨k.1, k.2, k.3, k.4⟩⟩
    · exact h

/-! ## The supply manager's commands -/

theorem Moved.suppliedFrom {s t : State} (h : Moved s t) (b : Bool) : Moved s (t.suppliedFrom b) := by
  unfold State.suppliedFrom
  split
  · have k : Moved s (t.onSupply Supply.nowSupplied) := h.onSupply ⟨rfl, rfl, rfl, rfl, fun k => ⟨k.1, k.2, k.3, k.4⟩⟩
    dsimp only
    split
    · exact k.kept (Kept.refl _).lowSupplyFlag
    · exact k
  · exact h

theorem execVinCollapse_leaves (a : Ambient) (s : State) (hs : s.supply.held = false) :
    ∃ t, execVinCollapse a s = .next t ∧ Moved (s.arrive a) t :=
  perform_exists hs ((Kept.refl _).moved.collapse.kept (State.kept_rest _))

theorem execSwitchConfirm_leaves (a : Ambient) (sw : Switch) (s : State) (hs : s.supply.held = false) :
    ∃ t, execSwitchConfirm a sw s = .next t ∧ Moved (s.arrive a) t := by
  refine perform_exists hs ?_
  generalize s.arrive a = s
  split
  · rename_i c hc
    split
    · refine .kept ?_ (State.kept_rest _)
      unfold State.confirmed
      dsimp only
      have k := ((((Kept.refl s).moved.onSupply (f := fun u => u.settleSwitches c) (s.supply.settle_moved c hc))).kept
        ((Kept.refl _).pathShown s.supply)).suppliedFrom s.supply.supplied
      split
      · exact k
      · exact k.kept ((Kept.refl _).finishPath _ _ _).pathRead
    · exact (Kept.refl s).moved
  · exact (Kept.refl s).moved

theorem execSwitchConfirmTimeout_leaves (a : Ambient) (s : State) (hs : s.supply.held = false) :
    ∃ t, execSwitchConfirmTimeout a s = .next t ∧ Moved (s.arrive a) t := by
  refine perform_exists hs ?_
  generalize s.arrive a = s
  split
  · rename_i c hc
    split
    · refine .kept ?_ (State.kept_rest _)
      unfold State.unconfirmed
      dsimp only
      have k := ((Kept.refl s).moved.onSupply (f := fun u => u.failSwitch c.switch) (s.supply.fail_moved c.switch)).kept
        ((Kept.refl _).pathShown s.supply).supplyFlag
      split
      · exact k
      · have f := k.kept ((Kept.refl _).finishPath .refused .switchFailed 0)
        split
        · rename_i h
          refine f.drive _ _ _ fun _ => ?_
          simp only [Bool.and_eq_true, beq_iff_eq] at h
          exact h.1.1.2
        · exact f
    · exact (Kept.refl s).moved
  · exact (Kept.refl s).moved

theorem execPathSet_leaves (a : Ambient) (s : State) (hs : s.supply.held = false) :
    ∃ t, execPathSet a s = .next t ∧ Moved (s.arrive a) t := by
  refine perform_exists hs ?_
  generalize s.arrive a = s
  have hb : ∀ m sw, Moved s (s.beginPath m sw) := fun m sw =>
    ((Kept.refl s).moved.drive _ _ _ fun e => by cases e).kept ((Kept.refl _).startHand _)
  have hf : ∀ st r v, Moved s (s.finish .control st r v) := fun st r v => ((Kept.refl s).finish _ _ _ _).moved
  split
  · split
    · exact hf _ _ _
    · rename_i m _
      split
      · exact hf _ _ _
      · rename_i hm
        refine .kept ?_ (State.kept_rest _)
        unfold State.pathTo
        dsimp only
        split
        · split
          · exact hb _ _
          · exact hf _ _ _
        · split
          · exact hb _ _
          · exact hf _ _ _
        · split
          · exact hb _ _
          · split
            · exact hb _ _
            · unfold State.pathAtOnce
              refine .kept (.onSupply (Kept.refl s).moved ?_) (((Kept.refl _).askRefresh.finish _ _ _ _).pathRead)
              exact ⟨rfl, rfl, rfl, rfl, fun k => ⟨k.1, fun e => by simp at e, fun e => by simp at e, fun _ e => by cases e⟩⟩
  · exact (Kept.refl s).moved

/-! ## Measurement -/

/-- What input detection may change of what the charger keeps. -/
theorem Work.kept_detect (w : Work) (p : PathMode) : ∃ l g d pre fast,
    ChargerKept { w.c with iinLimit := l, limitGiven := g, droop := d, prechargeUs := pre, fastUs := fast } (w.detect p).1.c := by
  have same : ∀ d : Charger, ChargerKept w.c d → ∃ l g dr pre fast,
      ChargerKept { w.c with iinLimit := l, limitGiven := g, droop := dr, prechargeUs := pre, fastUs := fast } d :=
    fun d k => ⟨w.c.iinLimit, w.c.limitGiven, w.c.droop, w.c.prechargeUs, w.c.fastUs, k⟩
  unfold Work.detect
  dsimp only
  split
  · split
    · exact same _ (w.c.kept_enter _)
    · exact same _ (.refl _)
  · split
    · exact same _ (w.c.kept_enter _)
    · split
      · exact same _ (w.c.kept_enter _)
      · split
        · exact same _ (w.c.kept_enter _)
        · have k := Work.kept_begin ((w.on fun c =>
            { c with
              iinLimit := if c.limitGiven then c.iinLimit else 500
              droop := 0, prechargeUs := 0, fastUs := 0, term := 0 }).emit 0x0500 w.c.meas.vin.toNat) p false
          exact ⟨_, w.c.limitGiven, 0, 0, 0,
            ⟨k.1, k.2, k.3, k.4, k.5, k.6, k.7, k.8, k.9, k.10, k.11, k.12⟩⟩
  · split
    · exact ⟨w.c.iinLimit, false, 0, 0, 0, ⟨rfl, rfl, rfl, rfl, rfl, rfl, rfl, rfl, rfl, rfl, rfl, rfl⟩⟩
    · exact same _ (.refl _)

/-- What a measurement changes of what the charger keeps. -/
theorem Work.kept_measured (w : Work) (m : Measurement) (a : Around) : ∃ l g d pre fast,
    ChargerKept { w.c.measure m with iinLimit := l, limitGiven := g, droop := d, prechargeUs := pre, fastUs := fast }
      (w.measured m a).1.c := by
  unfold Work.measured
  obtain ⟨l, g, d, pre, fast, k⟩ := (w.on fun c => c.measure m).kept_detect a.path
  revert k
  generalize (w.on fun c => c.measure m).detect a.path = r
  obtain ⟨v, p⟩ := r
  intro k
  refine ⟨l, g, d, pre, fast, ?_⟩
  cases p
  · exact k
  · exact k.trans (Work.kept_prompt _ _)
  · exact k

/-- A measurement at work. -/
theorem State.measured_leaves (m : Measurement) (s : State) : ∃ l g d pre fast,
    Moved { s with charger := { s.charger.measure m with
      iinLimit := l, limitGiven := g, droop := d, prechargeUs := pre, fastUs := fast } } (s.measured m) := by
  obtain ⟨l, g, d, pre, fast, k⟩ := s.charger.work.kept_measured m s.around
  refine ⟨l, g, d, pre, fast, ?_⟩
  unfold State.measured
  dsimp only
  generalize hp : (s.charger.work.measured m s.around).2 = presence
  have k1 : ∀ t : State, t.charger = s.charger → Moved s t →
      Moved { s with charger := { s.charger.measure m with
        iinLimit := l, limitGiven := g, droop := d, prechargeUs := pre, fastUs := fast } }
        (t.runCharger Machine.emit fun w => (w.measured m s.around).1) := by
    intro t ht hm
    have k2 := t.runCharger_from keeps_emit { s.charger.measure m with
      iinLimit := l, limitGiven := g, droop := d, prechargeUs := pre, fastUs := fast }
      (f := fun w => (w.measured m s.around).1) (by rw [ht]; exact k)
    obtain ⟨v, hv⟩ := hm.rest
    refine Moved.kept (t := { t with charger := { s.charger.measure m with
      iinLimit := l, limitGiven := g, droop := d, prechargeUs := pre, fastUs := fast } }) ?_ k2
    exact ⟨⟨v, { hv with charger := .refl _ }⟩, hm.supply⟩
  have k3 : Moved { s with charger := { s.charger.measure m with
      iinLimit := l, limitGiven := g, droop := d, prechargeUs := pre, fastUs := fast } }
      ((match presence with
        | .attach => s.attachSwitch
        | _ => s).runCharger Machine.emit fun w => (w.measured m s.around).1) := by
    cases presence
    · exact k1 s rfl (Kept.refl s).moved
    · refine k1 s.attachSwitch ?_ (Kept.refl s).moved.attachSwitch
      unfold State.attachSwitch
      dsimp only
      split
      · split <;> rfl
      · rfl
    · exact k1 s rfl (Kept.refl s).moved
  generalize (State.runCharger Machine.emit (fun w => (w.measured m s.around).1) (match presence with
        | .attach => s.attachSwitch
        | _ => s)) = u at k3
  refine .dieStep (.shutStep (.lowStep ?_))
  cases presence
  · exact k3
  · exact k3
  · dsimp only
    split
    · exact k3.collapse
    · exact k3

theorem execMeasurement_leaves (a : Ambient) (m : Measurement) (s : State) (hs : s.supply.held = false) :
    ∃ t, execMeasurement a m s = .next t ∧
      (timeReached (s.arrive a).time (s.arrive a).charger.nextMeasure = false ∧ t = s.arrive a
       ∨ timeReached (s.arrive a).time (s.arrive a).charger.nextMeasure = true ∧ ∃ l g d pre fast,
        Moved { s.arrive a with charger :=
          { (Charger.measure { (s.arrive a).charger with
              nextMeasure := timeAfter (s.arrive a).charger.nextMeasure Config.measurePeriod } m) with
            iinLimit := l, limitGiven := g, droop := d, prechargeUs := pre, fastUs := fast } } t) := by
  refine perform_exists hs ?_
  generalize s.arrive a = s
  split
  · rename_i h
    refine .inr ⟨h, ?_⟩
    change ∃ l g d pre fast, Moved _ (State.rest (State.measured m
      { s with charger := { s.charger with nextMeasure := timeAfter s.charger.nextMeasure Config.measurePeriod } }))
    generalize timeAfter s.charger.nextMeasure Config.measurePeriod = n
    obtain ⟨l, g, d, pre, fast, k⟩ := State.measured_leaves m
      { s with charger := { s.charger with nextMeasure := n } }
    exact ⟨l, g, d, pre, fast, k.kept (State.kept_rest _)⟩
  · rename_i h
    exact .inl ⟨by simpa using h, rfl⟩

/-! ## Power state and resets -/

/-- POWER_STATE leaves the part, or makes a link reset and sets the power state and the IMU. -/
theorem execPowerState_leaves (a : Ambient) (s : State) (hs : s.supply.held = false) :
    ∃ t, execPowerState a s = .next t ∧ (Kept (s.arrive a) t ∨ ∃ (x : Exchange) (p : PowerState) (m : Motion) (b : Bool),
      Kept { ({ s.arrive a with xchg := x } : State).linkReset b with
        motion := m
        supply := { s.supply with power := p, hostPower := false, wake := .none, entered := some (s.arrive a).time } } t
      ∧ XKept (s.arrive a).xchg x ∧ m.ring = []) := by
  refine perform_exists hs ?_
  change Kept (s.arrive a) _ ∨ ∃ (x : Exchange) (p : PowerState) (m : Motion) (b : Bool),
      Kept { ({ s.arrive a with xchg := x } : State).linkReset b with
        motion := m
        supply := { (s.arrive a).supply with
          power := p, hostPower := false, wake := .none, entered := some (s.arrive a).time } } _
      ∧ XKept (s.arrive a).xchg x ∧ m.ring = []
  generalize s.arrive a = s
  split
  · split
    · exact .inl ((Kept.refl s).finish _ _ _ _)
    · exact .inl ((Kept.refl s).finish _ _ _ _)
    · rename_i target _ _
      split
      · exact .inl ((Kept.refl s).finish _ _ _ _)
      · refine .inr ⟨s.xchg.finishOnly .control .done .ok 0, target, _, target == .parked,
          .rest (.prompt keeps_emit (.refl _)), Exchange.kept_finishOnly _ _ _ _ _, ?_⟩
        have hl : ∀ (m : Motion) (n : Time) (b : Bool), (m.linkReset n b).ring = [] := by
          intro m n b
          unfold Motion.linkReset
          dsimp only
          split <;> rfl
        have hp : ∀ (m : Motion) (n : Time), (m.park n).ring = m.ring := by
          intro m n
          unfold Motion.park
          dsimp only
          split <;> rfl
        dsimp only
        split
        · exact (hp _ _).trans (hl _ _ _)
        · exact hl _ _ _
  · exact .inl (.refl s)

/-- A link reset empties every bounded list. -/
theorem State.linkReset_capacities (s : State) (b : Bool) : (s.linkReset b).Capacities := by
  refine ⟨?_, ?_, ?_, ?_, ?_, ?_, ?_, fun _ h => (List.not_mem_nil h).elim,
    fun _ h => (List.not_mem_nil h).elim, ?_, ?_⟩
  · change (s.motion.linkReset _ _).ring.length ≤ 64
    unfold Motion.linkReset
    dsimp only
    split <;> exact Nat.zero_le _
  · exact Nat.zero_le _
  · change (s.writer.afterReset _).queue.length ≤ 4
    unfold Writer.afterReset
    split <;> exact Nat.zero_le _
  all_goals exact Nat.zero_le _

/-- A link reset keeps canonical bytes. -/
theorem State.linkReset_memGood (s : State) (b : Bool) (h : s.memGood = true) : (s.linkReset b).memGood = true := by
  simp only [State.memGood, Bool.and_eq_true] at *
  obtain ⟨⟨h1, h2⟩, h3⟩ := h
  refine ⟨⟨h1, ?_⟩, rfl⟩
  exact (Writer.kept_afterReset _ _ h2).1

end Sys2Proof.Machine
end

