-- ==== Sys2Proof/WellFormed.lean ====
section
/-! DEFINITION. The commands the world can send: what each operand of a command must satisfy. -/

namespace Sys2Proof

/-- The first address past host memory, which WIDE addresses of 64 bits reach (R83). -/
def hostLimit : Nat := 18446744073709551616

/-- The writes of the host lie in host memory. -/
def writesWf (ws : List HostWrite) : Bool := ws.all fun w => decide (w.address + w.bytes.length ≤ hostLimit)

/-- The failing reads lie in host memory. -/
def readsWf (rs : List Span) : Bool := rs.all fun r => decide (r.first + r.length ≤ hostLimit)

/-- Part time passed by less than half its range (R3, log entry 3). -/
def elapsedWf (us : Nat) : Bool := decide (us < 140737488355328)

/-- The outside world's part of a command is well formed: the three things above, and orders without repeats (log entry 8). -/
def Ambient.wf (a : Ambient) : Bool :=
  elapsedWf a.elapsed && writesWf a.hostWrites && readsWf a.badReads && decide a.laneOrder.Nodup && decide a.sinkOrder.Nodup

/-- A register write is at most one word wide and inside the window of 32 bytes (R77). -/
def registerWf (offset width : Nat) : Bool := (width == 1 || width == 2 || width == 4) && decide (offset + width ≤ 32)

/-- The bytes a raw read supplies form sparse bytes (R128). -/
def dataWf (data : List Host.Cell) : Bool := Machine.memWf data

/-- The command is one the world can send. -/
def Instr.wf (i : Instr) : Bool :=
  i.ambient.wf &&
    match i with
    | .registerWrite _ offset width _ => registerWf offset width
    | .rawReadComplete _ _ data => dataWf data
    | _ => true

end Sys2Proof
end

