-- ==== Sys2Proof/Tests/Slice0.lean ====
section
/-! SUPPORT. Tests of the model against the manual's worked examples and tables, the smoke tests of WellFormed, and the witnesses of the obligations' hypotheses. -/

namespace Sys2Proof.Tests

open Sys2Proof Sys2Proof.Machine

set_option Elab.async false

/-- Nothing happened in the world since the command before. -/
def calm : Ambient :=
  { elapsed := 0, hostWrites := [], badReads := [], laneOrder := [], sinkOrder := [], directFirst := true }

/-- Only time passed. -/
def after (us : Nat) : Ambient := { calm with elapsed := us }

/-- The state a command answers with. -/
def nextOf (i : Instr) (s : State) : State :=
  match exec i s with
  | .next t => t
  | _ => s

/-! ## Chapter 1: the worked interval marks, the comparator, the losses -/

/-- A sample with a given magnitude on one accelerometer axis. -/
def still (m : Nat) : Sample := { gx := 0, gy := 0, gz := 0, ax := BitVec.ofNat 16 m, ay := 0, az := 0 }

/-- The front end after samples at the given times, at 1600 Hz just entered RUNNING at time 0. -/
def marked (times : List Nat) : Motion :=
  times.foldl (fun m t => m.takeSample (m.entryOf (BitVec.ofNat 48 t) (still 0) (.all 0)))
    (({ Motion.reset with port := .starting } : Motion).enterRunning 0)

/-- The table of section 1.4: dt, GAP and the average, six samples. -/
theorem test_interval_marking :
    ((marked [100, 730, 1391, 4391, 9391, 9981]).ring.map fun e => (e.dt, e.gap)) =
      [(625, true), (630, false), (661, false), (3000, true), (4095, true), (590, false)]
    ∧ (marked [100, 730, 1391]).average = 627 ∧ (marked [100, 730, 1391, 4391, 9391]).average = 627
    ∧ (marked [100, 730, 1391, 4391, 9391, 9981]).average = 625
    ∧ (marked [100, 730, 1391, 4391]).lossDeadline = some 9407 := by decide

/-- The comparator through the table of section 1.6. -/
def comparing : List Nat → Motion → List Shock
  | [], _ => []
  | x :: l, m => (m.compare 0 x).2 :: comparing l (m.compare 0 x).1

/-- The table of section 1.6. -/
theorem test_impact_followed :
    comparing [2100, 17500, 22000, 3900, 5000, 4000, 3000, 2500, 18000] { Motion.reset with q := 3 } =
      [.nothing, .begins, .nothing, .nothing, .nothing, .nothing, .nothing, .ends, .begins] := by decide

/-- R14: the magnitude of -32768 is 32768. -/
theorem test_magnitude_of_least : magnitude { still 0x8000 with ay := 0x8000, az := 0x8000 } = 98304 := by decide

/-- The losses of section 1.2: three restarts, then FAILED. -/
theorem test_loss_and_restarts :
    let go (m : Motion) : Motion := ((m.lose 0).enterStarting 0).enterRunning 0
    let m0 : Motion := { Motion.reset with port := .running }
    ((m0.lose 0).port, (m0.lose 0).restarts) = (.lost, 1) ∧ ((go (go m0)).lose 0).restarts = 3
      ∧ ((go (go (go m0))).lose 0).port = .failed ∧ ((go (go (go m0))).lose 0).imuPower = false := by decide

/-! ## Chapter 2: the worked numbers -/

/-- The worked integration of section 2.3 and its ties. -/
theorem test_worked_integration :
    rotation 5000 625 1171 = 55838 ∧ rotation (-5000) 625 1171 = -55838 ∧ rotation 32768 1 1 = 1
      ∧ rotation (-32768) 1 1 = 0 ∧ rotation 32767 4095 65535 = 134178818 := by decide

/-- R22: the negation of -32768 saturates. -/
theorem test_mapped_rate_saturates :
    mappedRate { axis := .x, minus := true } 0x8000 0 0 = 32767 ∧ mappedRate { axis := .z, minus := true } 1 2 3 = -3 := by
  decide

/-- The extrapolation example of section 2.5. -/
theorem test_extrapolation_example : extrapolate 1290000 5000 400 1171 = 1325736 := by decide

/-- The worked frame of section 2.6. -/
theorem test_worked_frame :
    interpolate 1200000 1255838 125 625 = 1211167 ∧ smoothed 1000000 1211167 5 = 1006598
      ∧ toPixels (-204569) 1600 = -312 ∧ toPixels (-293402) 1600 = -448 ∧ smoothed 1000001 0 5 = 968750 := by decide

/-- The worked push of section 2.6. -/
theorem test_worked_push :
    toPixels 2500000 1600 = 3815 ∧ marginAngle 3072 1600 = 2013265 ∧ toPixels 2013265 1600 = 3072
      ∧ pushAxis 2500000 0 3815 3072 2013265 = (2013265, true) ∧ toPixels 2913265 1600 = 4445
      ∧ clampMargin 3072 4445 = 3072 ∧ toPixels 1113265 1600 = 1699 := by decide

/-- A ring entry on yaw alone. -/
def yawAt (t yaw : Nat) : RingEntry :=
  { time := BitVec.ofNat 48 t, dt := 625, gx := 0, gy := 0, gz := 0
    angles := { yaw := BitVec.ofNat 32 yaw, pitch := 0, roll := 0 }
    gap := false, clipX := false, clipY := false, clipZ := false }

/-- The video frame of the worked frame, ended at 1,016,000. -/
def workedFrame : VFrame :=
  ({ number := 7, start := 1000000, ended := none, assumed := false, exposure := 2000, bands := 8, readout := 16000
     shifts := { yaw := 5, pitch := 5, roll := 4 }, focal := 1600, mx := 3072, my := 1728, rl := 1464097, alert := 0
     recentre := none, ref := none } : VFrame).endAt 1016000 625 false false

/-- The times an ENDED entry holds. -/
def endingOf (f : VFrame) : Ending :=
  f.ended.getD { stop := 0, bands := [], centre := 0, deadline := 0, noMotion := true }

/-- The whole computation of the worked frame: its band times by R47 (log entry 47: the manual's prose
puts band 7 at 1,015,000, its formula at 1,014,000), S, the centre correction, band 7, and no flag. -/
theorem test_worked_frame_computed :
      let e := endingOf workedFrame
      let ring := [yawAt 999000 1180000, yawAt 1006875 1200000, yawAt 1007500 1255838, yawAt 1014000 1300000]
      let c := ({ Path.reset with smooth := { yaw := 1000000, pitch := 0, roll := 0 } } : Path).compute ring workedFrame e
      e.bands.head? = some 1000000 ∧ e.last = 1014000 ∧ e.centre = 1007000 ∧ e.deadline = 1015875
        ∧ c.path.smooth.yaw = 1006598 ∧ c.record.corrections.yaw = -312
        ∧ (c.record.bands.map Band.yaw)[7]? = some (-448) ∧ c.record.flags = 0 ∧ c.record.span = 3 := by decide

/-- Frame 42 of the recentre example of section 2.6. -/
theorem test_recentre_example :
    let f : VFrame := { workedFrame with recentre := some { yaw := 50100000, pitch := 0, roll := 0 } }
    let e := endingOf f
    let ring := [yawAt 999000 50130000, yawAt 1016000 50130000]
    let c := ({ Path.reset with smooth := { yaw := 48100000, pitch := 0, roll := 0 } } : Path).compute ring f e
    c.path.hwref.yaw = 50100000 ∧ c.path.smooth.yaw = 937 ∧ c.record.corrections.yaw = -44 ∧ c.path.recentred = true := by
  decide

/-! ## Chapter 3: band times, the bouncing line, overrun -/

/-- The band times of section 3.3, and the offsets floored on their own. -/
theorem test_band_times :
    (List.range 4).map (bandTime 5000000 12000 4000 4) = [4999500, 5002500, 5005500, 5008500]
      ∧ centreTime 5000000 12000 4000 = 5004000 ∧ (List.range 3).map (bandTime 0 10001 0 3) = [1666, 5000, 8334]
      ∧ centreTime 0 10001 0 = 5000 := by decide

/-- A running front end with a ring entry at a time, and the frame counter at 9, exchange OFF. -/
def bouncing : State :=
  { State.reset with
    motion := { Motion.reset with port := .running, ring := [yawAt 2999800 0] }
    path := { Path.reset with counter := 9 } }

/-- The frame-sync line moves at a time. -/
def sync (t : Nat) (level : Bool) (s : State) : State :=
  nextOf (.inputLineEdge calm 0 level) { s with time := BitVec.ofNat 48 t }

/-- The bouncing line of section 3.4: frame 10 forced out by the third rise, frames 11 and 12 pending, one record unpublished. -/
theorem test_bouncing_line :
    let s := sync 3000400 true (sync 3000300 false (sync 3000200 true (sync 3000100 false (sync 3000000 true bouncing))))
    (s.path.frames.map fun f => (f.number, f.ended.isSome)) = [(11, true), (12, false)] ∧ s.path.forced = 1
      ∧ s.path.unpublished = 1
      ∧ (s.path.frames.filterMap fun f => f.ended.map Ending.last) = [3000293]
      ∧ (s.events.map Event.number) = [0x0100, 0x0303, 0x0102] := by decide +kernel

/-- The overrun table of section 3.6. -/
theorem test_overrun :
    overruns (some 100) 101 16 = false ∧ overruns (some 100) 115 16 = false ∧ overruns (some 100) 116 16 = true
      ∧ overruns (some 110) 118 16 = false := by decide

/-! ## Chapter 4: the bouncing button, the blink, routes and masks -/

/-- An exchange that is RUNNING with nothing on its chains, at an anchor at address 4096. -/
def liveExchange : Exchange :=
  let d : LaneDesc := { first := 64, form := .narrow, notifyAll := true }
  { Exchange.reset with
    state := .running
    anchor := some { base := 4096, scanPeriod := 2000, control := d, chunk := d, recovery := d, warpBase := 65536, warpSlots := 16,
                     reportBase := 131072, reportEntries := 16, faultTop := 262144, faultSize := 512 }
    consumed := some 0
    readCopy := some 0 }

/-- The part in ACTIVE with a RUNNING exchange. -/
def live : State := { State.reset with xchg := liveExchange }

/-- A frame of a lane in hand, at address 8192, ready to be carried out. -/
def given (l : Lane) (b : Body) (s : State) : State :=
  s.onXchg fun x => x.setLane l
    { x.lane l with hand := some { address := 8192, form := .narrow, notify := false, tag := 0, code := 0, body := b, started := false } }

/-- What was written into the frame at address 8192: its status word and its result word. -/
def answered (s : State) : Nat × Nat := (memNat s.xchg.mem 8206 2, memNat s.xchg.mem 8208 4)

/-- An edge of the button at a time. -/
def button (t : Nat) (level : Bool) (s : State) : State :=
  nextOf (.inputLineEdge calm 1 level) { s with time := BitVec.ofNat 48 t }

/-- The bouncing button of section 4.3. -/
theorem test_bouncing_button :
    let l := { (InLine.reset true 0) with holdoff := 20000 }
    let s0 := { State.reset with router := { Router.reset with lines := Router.reset.lines.set 1 l } }
    let s := button 160000 false (button 150200 true (button 150000 false (button 101400 true (button 100900 false
      (button 100300 true (button 100000 false s0))))))
    ((s.router.lines.get 1).suppressed, (s.router.lines.get 1).lastFall, (s.router.lines.get 1).lastRise)
      = (3, some 150000, some 150200) ∧ s.events = [] := by decide +kernel

/-- The blink of section 4.4: timer 0 expires at 3,000,000, sets line 1 HIGH and schedules 4,000,000. -/
theorem test_led_blink :
    let r := { Router.reset with
      routes := Routes.default.change (.setLine 1) 0x0200
      timers := Router.reset.timers.set 0 { period := 1000000, periodic := true, next := some 3000000 } }
    let s := nextOf (.timerExpiry calm 0) { State.reset with router := r, time := 3000004 }
    (s.router.outs.get 1).high = true ∧ (s.router.timers.get 0).next = some 4000000
      ∧ (s.events.map fun e => (e.number, e.time)) = [(0x0200, 3000000)] := by decide +kernel

/-- R63 and R64: an unknown number, a self-route, and a route taken. -/
theorem test_route_results :
    answered (nextOf (.route calm) (given .control (.route 0 0x0103) live)) = (3, 2)
      ∧ answered (nextOf (.route calm) (given .control (.route 5 0x0403) live)) = (3, 5)
      ∧ answered (nextOf (.route calm) (given .control (.route 18 0) live)) = (3, 2)
      ∧ (nextOf (.route calm) (given .control (.route 9 0x0500) live)).router.routes.setLine.a1 = 0x0500 := by decide +kernel

/-- R72: the masks of the frame decide its own requests. -/
theorem test_output_masks :
    let s := nextOf (.outputWrite calm) (given .control (.outputWrite { a0 := 1, a1 := 1, a2 := 2, a3 := 0 } true 2 0) live)
    answered s = (2, 6) ∧ (s.router.outs.a0.high, s.router.outs.a1.high, s.router.outs.a1.hostSet) = (true, false, true) := by
  decide +kernel

/-- R68: a period of 0 is clamped to 1, and START counts from the finish. -/
theorem test_timer_setup_clamps :
    ((nextOf (.timerSetup (after 500)) (given .control (.timerSetup 2 1 1 0) live)).router.timers.get 2)
      = { period := 1, periodic := true, next := some 501 } := by decide +kernel

/-! ## Chapter 9: the worked budgets, the droop, the bands, the termination -/

/-- A charger in FAST at Vin and Vbat, with an input limit. -/
def fastAt (limit vin vbat : Nat) : Charger :=
  { Charger.reset with
    state := .fast, fresh := false, iinLimit := limit
    meas := { vbat := BitVec.ofNat 16 vbat, ibat := 0, vin := BitVec.ofNat 16 vin, iin := 0, temp := 250, die := 400 } }

/-- The blocks around a charger in ACTIVE. -/
def around (cls : Nat) (busy : Bool) : Around := { power := .active, loadClass := cls, cardBusy := busy, path := .normal }

/-- The worked budget of section 9.3. -/
theorem test_worked_budget :
    ((fastAt 1500 5000 3800).work.prompt (around 2 true)).c.driven = 475
      ∧ ((fastAt 1500 5000 3800).work.prompt (around 2 false)).c.driven = 850
      ∧ budgetOf 400 5000 3800 = 493 ∧ budgetOf 700 5000 3800 = 863 := by decide +kernel

/-- The droop table of section 9.3: D and the computed target after each of five evaluations. -/
def drooping : List Nat → Charger → List (Nat × Nat)
  | [], _ => []
  | v :: l, c =>
    let d := (({ c with meas := { c.meas with vin := BitVec.ofNat 16 v } } : Charger).work.periodic (around 1 false)).c
    (d.droop, d.terms.computed) :: drooping l d

/-- The droop table of section 9.3. -/
theorem test_droop :
    drooping [5000, 4350, 4380, 4450, 4620] (fastAt 1500 5000 3800)
      = [(0, 1000), (50, 900), (100, 850), (100, 875), (75, 925)] := by decide +kernel

/-- The tight budget of section 9.3: hold, pause, resume and the events. -/
theorem test_tight_budget :
    let a := (fastAt 1200 5000 3800).work.prompt (around 3 false)
    let b := a.c.work.prompt (around 3 true)
    let c := b.c.work.prompt (around 3 false)
    (a.c.driven, b.c.state, b.c.driven, c.c.state, c.c.driven) = (175, .paused .budget, 0, .fast, 175)
      ∧ b.events = [(0x0503, 5)] ∧ c.events = [(0x0504, 3)] := by decide +kernel

/-- The examples of R170. -/
theorem test_bands :
    moveBand .cold 110 = .cool ∧ moveBand .cool 119 = .cool ∧ moveBand .cool 120 = .normal ∧ moveBand .hot 535 = .hot
      ∧ moveBand .hot 529 = .warm ∧ moveBand .hot 429 = .normal ∧ moveBand .normal 450 = .warm ∧ moveBand .cold 500 = .warm := by
  decide

/-- R161: ten measurements at 4,300 mV attach the input, with INPUT_ATTACH. -/
theorem test_attach :
    let w : Charger := { fastAt 3000 4300 3800 with state := .qualify 9 }
    (w.work.detect .normal).2 = .attach ∧ (w.work.detect .normal).1.c.iinLimit = 500
      ∧ ((w.work.detect .normal).1.events.map Prod.fst) = [0x0500] ∧ (w.work.detect .normal).1.c.state = .fast := by decide

/-- R165: THERMISTOR comes before OVERVOLT, and the report is made. -/
theorem test_fault_precedence :
    let c := fastAt 500 5000 4301
    let w := ({ c with meas := { c.meas with temp := 0 - 401 } } : Charger).work.faultTests
    w.c.state = .fault .thermistor ∧ w.events = [(0x0507, 2)] ∧ w.reports.length = 1
      ∧ (c.work.faultTests).c.state = .fault .overvolt := by decide

/-- R174: Iterm is at most half of Ichg_max in steps of 25. -/
theorem test_profile_clamped :
    let p := ({ Profile.default with ichgMax := 300, iterm := 400, vreg := 5000 } : Profile).clamped
    (p.iterm, p.vreg) = (150, 4400) := by decide

/-! ## Chapter 10: the cell running down, switches, power states -/

/-- The low-battery filter over measurements: both runs and what it does. -/
def lowRuns : List Nat → Supply → List (Nat × Nat × LowStep)
  | [], _ => []
  | v :: l, u => ((u.lowFilter v).1.lowRun, (u.lowFilter v).1.highRun, (u.lowFilter v).2) :: lowRuns l (u.lowFilter v).1

/-- The table of section 10.2. -/
theorem test_running_down :
    lowRuns [3410, 3395, 3390, 3405, 3392, 3388, 3385, 3520, 3505, 3498] { Supply.reset .powerOn with loadClass := 2 } =
      [(0, 0, .nothing), (1, 0, .nothing), (2, 0, .nothing), (0, 0, .nothing), (1, 0, .nothing), (2, 0, .nothing),
       (0, 0, .asserts), (0, 1, .nothing), (0, 2, .nothing), (0, 0, .nothing)] := by decide

/-- R182: INPUT_SUSPEND asked with an input present is driven, confirmed, and finished with the mode as result value. -/
theorem test_path_set :
    let s0 := { live with
      supply := { live.supply with present := true, inSw := true }
      charger := { live.charger with meas := { live.charger.meas with vbat := 3800 } } }
    let s := nextOf (.pathSet calm) (given .control (.pathSet 1) s0)
    let t := nextOf (.switchConfirm (after 2000) .batSw) s
    (s.supply.mode, s.supply.change.isSome, s.xchg.control.hand.isSome) = (.normal, true, true)
      ∧ (t.supply.mode, t.supply.inSw, t.supply.batSw, t.supply.change.isSome) = (.inputSuspend, false, true, false)
      ∧ answered t = (2, 65536) ∧ (nextOf (.switchConfirmTimeout (after 2000)) s).supply.switchFails = 1 := by decide +kernel

/-- R188, R16: entry to PARKED; R190: a shock wakes the host; R191: START makes the return. -/
theorem test_parking :
    let s := nextOf (.powerState calm) (given .control (.powerState 1)
      { live with motion := { Motion.reset with port := .running, imuPower := true } })
    let t := nextOf (.imuSettleEnd (after 50000)) s
    let u := nextOf (.sampleReadComplete calm (still 20000)) (nextOf (.dataReadyEdge calm) t)
    let v := nextOf (.start calm) u
    (answered s, s.supply.power, s.supply.hostPower, s.xchg.state, s.motion.port) = ((2, 0), .parked, false, .off, .starting)
      ∧ (t.motion.port, t.motion.average) = (.running, 10000)
      ∧ (u.supply.wake, u.supply.hostPower, u.motion.armed, u.motion.ring) = (.shock, true, false, [])
      ∧ (v.supply.power, v.motion.port, v.motion.armed, v.xchg.starting) = (.active, .starting, true, some 0)
      ∧ (v.events.map Event.number) = [0x0301] := by decide +kernel

/-! ## Chapter 8: the incident at the cap, extents, a close -/

/-- A segment of the example of section 8.4: serial, times in seconds, one extent of ten packs, all taken. -/
def segAt (serial : Nat) (phase : SegPhase) (owner : Option Owner) : Seg :=
  let from_ := (870 + 10 * (serial - 40)) * 1000000
  { serial := BitVec.ofNat 32 serial, clip := 1, index := serial, phase, owner
    start := BitVec.ofNat 48 from_, stop := BitVec.ofNat 48 (from_ + 10000000), timed := true
    exts := [{ first := 1280 * serial, count := 1280 }], next := none, returned := none, used := 10, unwritten := 0, tail := .noneYet
    incidents := [], incidentCount := 0, loop := true }

/-- The table of the example: 40 and 41 protected for incident 3, 52 open. -/
def crowded : Store :=
  { Store.reset with
    table := [segAt 40 .complete (some (.incident 3)), segAt 41 .complete (some (.incident 3))]
      ++ ((List.range 10).map fun k => segAt (42 + k) .complete none)
      ++ [{ segAt 52 .opened none with stop := 995000000 }]
    nextIncident := 4, loops := { loop := true, pre := 60, post := 20, watermark := 0 } }

/-- The serials protected, with their owners' numbers. -/
def guarded (st : Store) : List (Nat × Nat) :=
  st.table.filterMap fun g =>
    match g.owner with
    | some (.incident n) => some (g.serial.toNat, n.toNat)
    | _ => none

/-- The table of section 8.4. -/
theorem test_incident_at_the_cap :
    let st := crowded.incident 995000000 { time := 995000000, peak := 20000, source := 0x0300 }
    guarded st = [(41, 3), (46, 4), (47, 4), (48, 4), (49, 4), (50, 4), (51, 4), (52, 4)]
      ∧ (st.protectUntil, st.untilOwner) = (some 1015000000, some 4) ∧ st.protectedCount = 8 := by decide +kernel

/-- R155: serial 53 displaces 41; a segment that finds nothing to displace opens unprotected with PARTIAL. -/
theorem test_entry_at_the_cap :
    let st := crowded.incident 995000000 { time := 995000000, peak := 20000, source := 0x0300 }
    let (owner, table, short) := st.entryProtection 1000000000
    let full : Store := { st with table := table ++ [{ segAt 53 .opened none with owner }] }
    (owner, short) = (some (.incident 4), false) ∧ (guarded full).map Prod.fst = [46, 47, 48, 49, 50, 51, 52, 53]
      ∧ (full.entryProtection 1010000000).1 = none ∧ (full.entryProtection 1010000000).2.2 = true := by decide +kernel

/-- R143: the checks in order. -/
theorem test_extent_add_checks :
    let st : Store := { Store.reset with pool := [{ first := 1280, count := 1280 }] }
    st.addExtent none 100 128 = .inl .misaligned ∧ st.addExtent (some 1000) 1024 128 = .inl .outOfRange
      ∧ st.addExtent none 4294967168 256 = .inl .outOfRange ∧ st.addExtent none 2432 128 = .inl .overlap
      ∧ (st.addExtent none 2560 128).isRight = true := by decide +kernel

/-- R147, R148: a one-pack head as eighth extent is kept for the tail; a close splits the packs after the tail's. -/
theorem test_positions :
    let ext (k n : Nat) : Extent := { first := 12800 * k, count := 128 * n }
    let g := { segAt 60 .opened none with exts := (List.range 7).map (fun k => ext k 1), next := none }
    let h := { segAt 61 .opened none with exts := [ext 1 10], next := some 13056 }
    let a : Store := { Store.reset with table := [g], pool := [ext 9 1] }
    let b : Store := { Store.reset with table := [h], pool := [ext 9 1] }
    (match a.nextPack 0 false 60 with | .answer _ r => some r | _ => none) = some .extentsFull
      ∧ (match b.closeSegment 0 61 false with | .answer st r => some (r, st.pool, st.table.flatMap (·.exts)) | _ => none)
        = some (some 13056, [{ first := 13184, count := 896 }, ext 9 1], [{ first := 12800, count := 384 }]) := by
  decide +kernel

/-! ## Chapters 6 and 7: a cut at a cut point, a timeout and its two resumptions -/

/-- A clip's settings: all streams, ten seconds. -/
def clipOf (n : Word) : ClipSet :=
  { number := n, streams := 15, loop := false, watermark := 0, duration := 10, pre := 0, post := 0 }

/-- A pack buffer in a state at a position. -/
def bufAt (st : BufState) (pos fill : Nat) : Buf := { st, fill, pos := some pos, data := [] }

/-- An entry of the pending-write list for a pack buffer. -/
def packEntry (i : Fin 4) (block : Nat) (serial : Word) (begun : Bool) : Entry :=
  { source := .buf i, block, count := 128, serial, clip := 1, begun, resumed := false, awaiting := false, settling := false }

/-- The part recording: one segment open in one extent, its next pack known, two writes pending. -/
def recording (serial : Word) (bufs : Four Buf) (list : List Entry) (ext : Extent) (next : Nat) : State :=
  { live with
    writer := { Writer.reset with
      state := .opened, clip := some (clipOf 1), bufs, seg := some { serial, index := 2, counts := .all 0 }, lastIndex := 2 }
    card := { Card.reset true with state := .busy, capacity := 1000000, list, busySince := some 0 }
    store := { Store.reset with
      nextSerial := serial + 1
      table := [{ segAt 40 .opened none with
        serial, clip := 1, index := 2, start := 20000000, stop := 20000000, exts := [ext], next := some next, used := 3, loop := false }] } }

/-- The start of the example of section 6.7: buffers 0 and 1 handed, 2 FILLING at 40,000 bytes, one motion unit queued. -/
def cutting : State :=
  let s := recording 7
    { a0 := bufAt .writing 40448 65536, a1 := bufAt .queued 40576 65536, a2 := bufAt .filling 40704 40000, a3 := .empty }
    [packEntry 0 40448 7 true, packEntry 1 40576 7 false] { first := 40448, count := 1280 } 40832
  s.onWriter fun w => { w with queue := [{ motion := true, time := 29000000, payload := zeroBytes 200 }] }

/-- The MAIN chunk of the example: 30,000 bytes, CUTPOINT, at 30,016,000. -/
def cutChunk : Body :=
  .chunk { stream := 0, flags := 1, count := 1, time := 30016000, pieces := [{ address := 500000, length := 30000 }] }

/-- The table of section 6.7: the FILLER, the waiting tail, then the write's end, segment 8's head and the chunk. -/
theorem test_cut_at_a_cut_point :
    let s := nextOf (.chunk calm) (given .chunk cutChunk cutting)
    let t := nextOf (.chunkCopyComplete calm) (nextOf (.cardWriteAccepted calm) s)
    (s.writer.bufs.a2.st, s.writer.bufs.a2.fill, s.writer.bufs.a3.st, s.writer.bufs.a3.pos) = (.queued, 65536, .filling, none)
      ∧ (s.writer.tail.st, s.writer.tail.pos) = (.built, 40832)
      ∧ memNat s.writer.bufs.a2.data 40220 4 = 25304
      ∧ (t.card.list.map fun e => (e.source, e.block)) = [(.buf 1, 40576), (.buf 2, 40704), (.tail, 40832)]
      ∧ (t.writer.bufs.a3.pos, t.writer.bufs.a3.fill) = (some 40960, 30528)
      ∧ (t.store.openSeg.map fun g => (g.serial, g.index, g.start)) = some (8, 3, 30016000)
      ∧ answered t = (2, 0) := by decide +kernel

/-- The start of the example of section 7.9. -/
def stalled : State :=
  let s := recording 12
    { a0 := .empty, a1 := bufAt .writing 82048 65536, a2 := bufAt .queued 82176 65536, a3 := bufAt .filling 82304 512 }
    [packEntry 1 82048 12 true, packEntry 2 82176 12 false] { first := 81920, count := 1024 } 82432
  s.onStore fun st => { st with pool := [{ first := 90112, count := 1280 }] }

/-- The lists and the depth of the exchange. -/
def pendingAt (s : State) : List (Source × Nat) × Nat := (s.card.list.map fun e => (e.source, e.block), s.xchg.depth)

/-- The table of section 7.9: TIMEOUT, RETRY, TIMEOUT again with REFAULTED, then NEXT_EXTENT with the two new positions. -/
theorem test_timeout_retry_next_extent :
    let s := nextOf (.cardBusyTimeout (after 500000)) stalled
    let r := nextOf (.resume calm) (given .recovery .resume s)
    let t := nextOf (.cardBusyTimeout (after 500000)) (nextOf (.cardProgramming calm) r)
    let edit : Ambient := { calm with hostWrites := [{ address := 262144 - 96 + 2, bytes := [2] }] }
    let u := nextOf (.resume edit) (given .recovery .resume t)
    let v := nextOf (.cardWriteAccepted calm) (nextOf (.cardProgramming calm) u)
    let w := nextOf (.cardWriteAccepted calm) (nextOf (.cardProgramming calm) v)
    (pendingAt s, s.xchg.laneState .chunk, s.card.state) = (([(.buf 1, 82048), (.buf 2, 82176)], 96), .held, .ready)
      ∧ (r.xchg.depth, r.card.state, r.xchg.laneState .chunk) = (0, .writing, .idle)
      ∧ (t.xchg.depth, answered t, t.xchg.recovery.hand) = (96, (2, 21), none)
      ∧ pendingAt u = ([(.buf 1, 90112), (.buf 2, 90240)], 0)
      ∧ (u.store.table.map Seg.exts) = [[{ first := 81920, count := 128 }, { first := 90112, count := 1280 }]]
      ∧ answered w = (2, 0) ∧ w.card.list = [] := by decide +kernel

/-! ## Chapters 5 and 11: bringing up the exchange, the faults across lanes, layouts -/

/-- The host writes bytes at an address. -/
def wr (a : Nat) (l : List Byte) : HostWrite := { address := a, bytes := l }

/-- The anchor at 4096: version 1, 2,000 µs, three lanes (CHUNK WIDE), 16 slots, 16 entries, a fault area of 512 bytes below 32768. -/
def anchorWrites : List HostWrite :=
  [wr 4096 (leBytes 4 1 ++ leBytes 4 65535), wr 4112 (leBytes 8 8192), wr 4144 (leBytes 8 8320 ++ [1]), wr 4176 (leBytes 8 8448),
   wr 4208 (leBytes 8 65536 ++ leBytes 4 16), wr 4224 (leBytes 8 131072 ++ leBytes 4 16), wr 4248 (leBytes 8 32768 ++ leBytes 4 512)]

/-- The first frames: EXPOSURE of 4,000 µs with notify, CHUNK (any), RESUME. -/
def frameWrites : List HostWrite :=
  [wr 8200 [3, 0, 2, 0, 0x34, 0x12], wr 8216 (leBytes 4 4000), wr 8328 [0x22, 0], wr 8456 [0x70, 0]]

/-- The part after START with that anchor, or with one that has other writes on top. -/
def broughtUp (more : List HostWrite) : State :=
  nextOf (.anchorReadComplete { calm with hostWrites := anchorWrites ++ frameWrites ++ more })
    (nextOf (.start calm) (nextOf (.registerWrite calm 0 4 0x1ABC) State.reset))

/-- R80, R81, R84: RUNNING, the copies, the first frames taken with TAKEN written, the first refresh (1 then 2). -/
theorem test_bringing_up :
    let s := broughtUp []
    (s.xchg.state, s.xchg.anchorLow, s.xchg.refreshCount, s.xchg.nextScan) = (.running, 0x1000, 2, some 2000)
      ∧ (s.xchg.control.hand.map fun f => (f.address, f.notify, f.tag, f.body)) = some (8192, true, 0x1234, .exposure 4000)
      ∧ (s.xchg.chunk.hand.map (·.form), s.xchg.recovery.hand.map (·.form)) = (some .wide, some .wide)
      ∧ (memNat s.xchg.mem 8206 2, memNat s.xchg.mem 4124 4, memNat s.xchg.mem 4352 4) = (1, 1, 2)
      ∧ s.sections.length = 760 := by decide +kernel

/-- R80: the first check that fails names itself. -/
theorem test_anchor_checks :
    (broughtUp [wr 4096 [2]]).xchg.check = .version ∧ (broughtUp [wr 4176 [1]]).xchg.check = .laneAddress
      ∧ (broughtUp [wr 4120 [2]]).xchg.check = .form ∧ (broughtUp [wr 4216 [17]]).xchg.check = .warpSlots
      ∧ (broughtUp [wr 4232 [24]]).xchg.check = .reportEntries ∧ (broughtUp [wr 4256 [255, 1]]).xchg.check = .faultArea
      ∧ (broughtUp [wr 4256 [255, 1]]).xchg.state = .anchorBad := by decide +kernel

/-- R87, R88, R90: EXPOSURE finished DONE with CONTROL_DONE, and the linked CLIP_CLOSE found at the next nudge. -/
theorem test_chain_followed :
    let s := nextOf (.exposure calm) (broughtUp [])
    let t := nextOf (.nudge { calm with hostWrites := [wr 8192 (leBytes 4 0x2105), wr 8456 [0x21, 0]] }) s
    (s.path.exposure, answered s, s.xchg.control.retire, s.xchg.cause, memNat s.xchg.mem 4128 8) = (4000, (2, 0), 8192, 1, 8192)
      ∧ (s.xchg.laneState .control, t.xchg.laneState .control) = (.idle, .running)
      ∧ (t.xchg.control.hand.map (·.address), t.xchg.control.taken) = (some 8448, 2) := by decide +kernel

/-- The faults across lanes of section 5.8: an unknown format, a changed record, BAD_RECORD, NOT_RESUMABLE, ABANDON, the retake. -/
theorem test_faults_across_lanes :
    let s := broughtUp [wr 8200 [0x99, 0]]
    let q1 := nextOf (.resume { calm with hostWrites := [wr 32744 [7]] }) s
    let q2 := nextOf (.resume calm) (given .recovery .resume q1)
    let q3 := nextOf (.abandon calm) (given .recovery .abandon q2)
    let fix : Ambient := { calm with hostWrites := [wr 32744 [0], wr 8200 [3, 0]] }
    let q4 := nextOf (.resume fix) (given .recovery .resume q3)
    (s.xchg.laneState .control, s.xchg.depth, s.xchg.cause) = (.held, 32, 0x20)
      ∧ (q1.xchg.depth, memNat q1.xchg.mem 8464 4, memNat q1.xchg.mem 32704 1) = (64, 35, 3)
      ∧ answered q2 = (3, 34) ∧ (q3.xchg.depth, answered q3) = (32, (2, 0))
      ∧ (q4.xchg.depth, q4.xchg.laneState .control, q4.xchg.control.taken, q4.xchg.control.hand.map (·.body))
        = (0, .running, 1, some (.exposure 4000)) := by decide +kernel

/-- 11.3: the body of a NARROW CHUNK with two pieces, and of a WIDE CARD_READ. -/
theorem test_bodies :
    let m := memOfCells [(1024 + 24, 2), (1024 + 25, 1), (1024 + 26, 2), (1024 + 40, 0x10), (1024 + 44, 0x34), (1024 + 45, 0x12), (1024 + 49, 1), (1024 + 52, 8)]
    readBody m 1024 .chunk .narrow
        = .chunk { stream := 2, flags := 1, count := 2, time := 0, pieces := [{ address := 16, length := 0x1234 }, { address := 256, length := 8 }] }
      ∧ readBody (memOfCells [(24, 5), (28, 1), (36, 1)]) 0 .cardRead .wide = .cardRead 5 1 4294967296 := by decide +kernel

/-- 11.4 to 11.6, R194: the lengths of the records. -/
theorem test_lengths :
    (warpBytes (noMotionRecord Path.reset workedFrame (endingOf workedFrame))).length = 192
      ∧ (faultBytes (.card .timeout 1 2 3 [] .retry true 0)).length = 96 ∧ (faultBytes (.record true 3 64 5 0)).length = 32
      ∧ (reportBytes { time := 0, body := .segmentClosed 1 1 1 0 0 0 0 0 false 0 [] }).length = 128
      ∧ (headBytes 1 1 1 15 10 0).length = 512
      ∧ (tailBytes 1 1 1 .time .none 0 (.all 0) (.all 0) 0 0).length = 512
      ∧ (markerPayload 0 0 0 0).length = 20 := by decide +kernel

/-! ## WellFormed -/

/-- One ill-formed command for each check of WellFormed, and the one that passes at each boundary. -/
theorem test_ill_formed_commands :
    (Instr.nudge (after 140737488355328)).wf = false ∧ (Instr.nudge (after 140737488355327)).wf = true
      ∧ (Instr.nudge { calm with hostWrites := [wr 18446744073709551615 [1, 2]] }).wf = false
      ∧ (Instr.nudge { calm with hostWrites := [wr 18446744073709551615 [1]] }).wf = true
      ∧ (Instr.nudge { calm with badReads := [{ first := 18446744073709551615, length := 2 }] }).wf = false
      ∧ (Instr.nudge { calm with laneOrder := [.chunk, .chunk] }).wf = false
      ∧ (Instr.nudge { calm with sinkOrder := [.cut, .close, .cut] }).wf = false
      ∧ (Instr.registerWrite calm 0 3 0).wf = false ∧ (Instr.registerWrite calm 30 4 0).wf = false
      ∧ (Instr.registerWrite calm 28 4 0).wf = true
      ∧ (Instr.rawReadComplete calm true [(5, 1), (4, 1)]).wf = false ∧ (Instr.rawReadComplete calm true [(4, 0)]).wf = false
      ∧ (Instr.rawReadComplete calm true [(4, 1), (5, 1)]).wf = true := by decide +kernel

/-! ## Witnesses of the obligations' hypotheses: the queue, the resets, the register window -/

/-- The part held in a brownout reset. -/
def heldPart : State := nextOf (.brownoutReset calm) live

/-- The part in a power state with the exchange OFF. -/
def inPower (p : PowerState) : State := { State.reset with supply := { State.reset.supply with power := p } }

/-- The part with its exchange in a state. -/
def xAt (x : XState) : State := live.onXchg fun e => { e with state := x }

/-- The part after START, its anchor check being made at 4096. -/
def checking : State := nextOf (.start calm) (nextOf (.registerWrite calm 0 4 0x1ABC) State.reset)

/-- Hypotheses of StepRunsTheFrontCommand. -/
theorem witness_queue :
    ({ live with pending := [.nudge calm, .start calm] } : State).pending = .nudge calm :: [.start calm]
      ∧ State.reset.pending = [] := by decide +kernel

/-- Hypotheses of BrownoutResetAndRelease and of EveryCommandAnswersAndPartTimePasses. -/
theorem witness_held : live.supply.held = false ∧ heldPart.supply.held = true := by decide +kernel

/-- Hypotheses of LinkResetClearsTheEngineAndBlocks. -/
theorem witness_link_reset :
    ((inPower .parked).supply.held = false ∧ (inPower .parked).supply.power ≠ .active)
      ∧ ((inPower .sleep).supply.held = false ∧ (inPower .sleep).supply.power ≠ .active)
      ∧ (live.supply.held = false ∧ live.supply.power = .active) := by decide +kernel

/-- A part asleep whose wake source has acted. -/
def woken : State :=
  { inPower .parked with supply := { State.reset.supply with power := .parked, wake := .shock, hostPower := true } }

/-- Hypotheses of LinkResetClearsTheEngineAndBlocks: in the microsecond of an entry to SLEEP a LINK_RESET adds nothing, one
microsecond later it is applied, as it is after a wake. -/
theorem witness_link_reset_asleep :
    let s := nextOf (.powerState calm) (given .control (.powerState 2) live)
    let t := nextOf (.causeMaskWrite calm 7) s
    let cause (a : Ambient) (s : State) := let u := nextOf (.linkReset a false) s; (u.supply.cause, u.xchg.mask, u.supply.power)
    s.supply.power ≠ .active ∧ s.supply.wake = .none ∧ s.supply.held = false ∧ s.supply.entered = some (s.time + BitVec.ofNat 48 0)
      ∧ s.supply.entered ≠ some (s.time + BitVec.ofNat 48 1)
      ∧ [cause calm t, cause (after 1) t] = [(.powerOn, 7, .sleep), (.link, 0, .sleep)]
      ∧ woken.supply.held = false ∧ woken.supply.power ≠ .active ∧ woken.supply.wake ≠ .none
      ∧ cause calm woken = (.link, 0, .parked) := by decide +kernel

/-- Hypotheses of StartBeginsTheAnchorCheck, in every exchange state and the returns from PARKED and SLEEP. -/
theorem witness_start :
    ((xAt .off).supply.held = false ∧ (xAt .off).xchg.state = .off ∧ (xAt .off).xchg.starting = none ∧ (xAt .off).supply.power = .active)
      ∧ ((xAt .anchorBad).xchg.state = .anchorBad ∧ (xAt .anchorBad).xchg.starting = none)
      ∧ live.xchg.state = .running ∧ (xAt .stopped).xchg.state = .stopped ∧ checking.xchg.starting = some 4096
      ∧ ((inPower .parked).xchg.state = .off ∧ (inPower .parked).xchg.starting = none ∧ (inPower .parked).supply.power ≠ .active)
      ∧ ((inPower .sleep).xchg.state = .off ∧ (inPower .sleep).supply.power ≠ .active) := by decide +kernel

/-- Host memory with the anchor of `anchorWrites` and other writes on top. -/
def anchorMem (more : List HostWrite) : Mem := applyWrites [] (anchorWrites ++ more)

/-- Hypotheses of AnchorChecksInOrder and its values at the boundaries: slots 15, 16, 64 and 65, entries 8, 16, 256 and 512,
an area of 511 and 512 bytes, form 1 and 2, an address of 0 and of 8 above a multiple of 64. -/
theorem witness_anchor_checks :
    checkAnchor [] [] 0 = .inl .zeroAddress ∧ readsOk [{ first := 4259, length := 1 }] 4096 anchorFields = false
      ∧ readsOk [{ first := 4104, length := 8 }] 4096 anchorFields = true
      ∧ (memNat (anchorMem [wr 4096 [0]]) 4096 4, memNat (anchorMem []) 4096 4) = (0, 1)
      ∧ checkAnchor (anchorMem [wr 4112 [0, 0]]) [] 4096 = .inl .laneAddress
      ∧ checkAnchor (anchorMem [wr 4144 [8]]) [] 4096 = .inl .laneAddress
      ∧ checkAnchor (anchorMem [wr 4184 [2]]) [] 4096 = .inl .form ∧ (checkAnchor (anchorMem [wr 4184 [1]]) [] 4096).isRight = true
      ∧ ([[15], [16], [64], [65]].map fun v => (checkAnchor (anchorMem [wr 4216 v]) [] 4096).isRight) = [false, true, true, false]
      ∧ ([[8, 0], [16, 0], [0, 1], [0, 2]].map fun v => (checkAnchor (anchorMem [wr 4232 v]) [] 4096).isRight)
        = [false, true, true, false]
      ∧ ([[255, 1], [0, 2]].map fun v => (checkAnchor (anchorMem [wr 4256 v]) [] 4096).isRight) = [false, true] := by
  decide +kernel

/-- Hypotheses of AnchorReadEndsTheCheck: a check that fails and one that passes. -/
theorem witness_anchor_read :
    let bad : Ambient := { calm with hostWrites := anchorWrites ++ [wr 4096 [2]] }
    let good : Ambient := { calm with hostWrites := anchorWrites }
    checking.supply.held = false ∧ checking.xchg.starting = some 4096
      ∧ checkAnchor (checking.arrive bad).xchg.mem (checking.arrive bad).xchg.badReads 4096 = .inl .version
      ∧ (checkAnchor (checking.arrive good).xchg.mem (checking.arrive good).xchg.badReads 4096).isRight = true := by decide +kernel

/-- Hypotheses of RunningEntryWritesTheAnchor, with the lanes' fields written before. -/
theorem witness_running_entry : memWf (anchorMem [wr 4124 [7], wr 4240 [9]]) = true := by decide +kernel

/-- Hypotheses of NudgeAndScanTick: RUNNING and not, and the counts' reads whole or failing at their last byte. -/
theorem witness_nudge :
    (live.supply.held = false ∧ live.xchg.state = .running) ∧ State.reset.xchg.state ≠ .running
      ∧ (live.xchg.anchor.map fun c => (readOk [] (c.base + 0x7C) 4, readOk [{ first := 4223, length := 1 }] (c.base + 0x7C) 4))
        = some (true, false) := by decide +kernel

/-- Hypotheses of NudgeAndScanTick at the due time and one microsecond before it. -/
theorem witness_scan_tick :
    let s := broughtUp []
    s.supply.held = false ∧ s.xchg.nextScan = some 2000 ∧ s.xchg.anchor.isSome = true ∧ s.xchg.state = .running
      ∧ timeReached (s.arrive (after 2000)).time 2000 = true ∧ timeReached (s.arrive (after 1999)).time 2000 = false
      ∧ (nextOf (.scanTick (after 2003)) s).xchg.nextScan = some 4000 := by decide +kernel

/-- Hypotheses of RegisterWindowWrites: the three kinds of CONTROL write, and the widths and offsets that are ignored. -/
theorem witness_register_writes :
    live.supply.held = false ∧ ((1#32).getLsbD 0 = true ∧ (1#32).getLsbD 1 = false) ∧ (3#32).getLsbD 1 = true
      ∧ ((4#32).getLsbD 0 = false ∧ (4#32).getLsbD 1 = false) ∧ (0x18 ∉ [0x00, 0x04, 0x08, 0x0C, 0x10, 0x14])
      ∧ (nextOf (.registerWrite calm 0 4 0xFFFFFFFF) live).xchg.anchorLow = 0xFFFFF000
      ∧ (nextOf (.registerWrite calm 0 2 0xFFFFFFFF) live).xchg.anchorLow = 0 := by decide +kernel

/-- Hypotheses of CauseFlagsAndInterruptMessages, in each of the four exchange states. -/
theorem witness_cause_flags :
    live.xchg.state = .running ∧ (xAt .stopped).xchg.state = .stopped ∧ (xAt .off).xchg.state = .off
      ∧ (xAt .anchorBad).xchg.state = .anchorBad ∧ causeWarp &&& ~~~(live.xchg.request causeWarp).cause = 0
      ∧ live.supply.held = false ∧ live.xchg.anchor.isSome = true ∧ live.xchg.state.live = true
      ∧ memWf live.xchg.mem = true ∧ (0x1FF#32).getLsbD 8 = true := by decide +kernel

/-- R90, R91: a flag asked for twice sends one message, a write of 1 clears it, and the mask write finds a set flag. -/
theorem test_cause_and_mask :
    let s := nextOf (.causeMaskWrite calm 0x1F8) live
    let x := (s.xchg.request causeFault).request causeFault
    let t := nextOf (.causeWrite calm 0x20) { s with xchg := x }
    let u := nextOf (.causeMaskWrite calm 1) (live.onXchg fun e => { e with cause := 1 })
    (s.xchg.mask, x.cause, x.messages, t.xchg.cause, u.xchg.messages, u.xchg.cause) = (0x1F8, 0x20, 1, 0, 1, 1) := by decide +kernel

/-- Hypotheses of CauseFlagsAndInterruptMessages, its messages: the link up with both words clear, and the link down. -/
theorem witness_interrupts :
    (live.xchg.state = .running ∧ live.xchg.linkUp = true ∧ live.xchg.cause = 0 ∧ live.xchg.mask = 0)
      ∧ ({ live.xchg with linkUp := false } : Exchange).linkUp = false ∧ live.supply.held = false := by decide +kernel

/-- Hypotheses of StatusRefreshAndAck: live or not, at the due time and before it. -/
theorem witness_refresh :
    let s := broughtUp []
    s.xchg.anchor.isSome = true ∧ s.xchg.state.live = true ∧ memWf s.xchg.mem = true ∧ State.reset.xchg.state.live = false
      ∧ s.xchg.nextRefresh = some 100000 ∧ timeReached (s.arrive (after 100000)).time 100000 = true
      ∧ timeReached (s.arrive (after 99999)).time 100000 = false
      ∧ (nextOf (.statusRefresh (after 100000)) s).xchg.refreshCount = 4 := by decide +kernel

/-! ## Witnesses: frames and the fault stack -/

/-- The exchange just before its CONTROL lane takes the frame at 8192, with other writes on top. -/
def before (more : List HostWrite) : Exchange :=
  { liveExchange with mem := applyWrites [] (frameWrites ++ more) }

/-- Hypotheses of FinishWritesTheFrame, with a frame just below and just above the anchor's 256 bytes. -/
theorem witness_finish :
    liveExchange.anchor.isSome = true ∧ liveExchange.state = .running ∧ memWf liveExchange.mem = true
      ∧ 4072 + 24 ≤ 4096 ∧ 4096 + 256 ≤ 4352 ∧ (xAt .stopped).xchg.state ≠ .running := by decide +kernel

/-- Hypotheses of LaneTakesAFrame, for an EXPOSURE frame on the CONTROL lane. -/
theorem witness_take :
    let x := before []
    x.anchor.isSome = true ∧ x.state = .running ∧ x.holds .control = false ∧ memWf x.mem = true ∧ 4096 + 256 ≤ 8192
      ∧ formatOf (BitVec.ofNat 16 (memNat x.mem 8200 2)) = some .exposure ∧ Format.exposure.lane = .control
      ∧ readsOk x.badReads 8192 headFields = true
      ∧ readsOk x.badReads 8192 (Format.exposure.bodyFields .narrow) = true := by decide +kernel

/-- Hypotheses of FramesNotHandedOn: a failing head byte, no format, another lane's format, a failing body byte. -/
theorem witness_not_handed_on :
    (before []).anchor.isSome = true ∧ readsOk [{ first := 8205, length := 1 }] 8192 headFields = false
      ∧ readsOk [{ first := 8203, length := 1 }] 8192 headFields = true
      ∧ formatOf (BitVec.ofNat 16 (memNat (before [wr 8200 [0x99, 0]]).mem 8200 2)) = none
      ∧ (formatOf (BitVec.ofNat 16 (memNat (before [wr 8200 [0x70, 0]]).mem 8200 2))).map Format.lane = some .recovery
      ∧ readsOk [{ first := 8216, length := 1 }] 8192 (Format.exposure.bodyFields .narrow) = false
      ∧ readsOk [{ first := 8200, length := 64 }] 8192 (Format.resume.bodyFields .wide) = true := by decide +kernel

/-- R85, R86: what those frames meet. -/
theorem test_frames_not_handed_on :
    let a := (before [wr 8200 [0x70, 0]]).takeFrame 5 .control 8192 false
    let b := ({ before [] with badReads := [{ first := 8216, length := 1 }] } : Exchange).takeFrame 5 .control 8192 false
    let c := ({ before [] with badReads := [{ first := 8205, length := 1 }] } : Exchange).takeFrame 5 .recovery 8192 false
    (memNat a.mem 8206 2, memNat a.mem 8208 4, a.control.retire) = (3, 3, 8192)
      ∧ (memNat b.mem 8206 2, b.laneState .control, b.depth) = (1, .held, 32)
      ∧ (memNat c.mem 8206 2, c.recErrors, c.recovery.place, c.recovery.taken) = (0, 1, .take 8192, 0) := by decide +kernel

/-- The exchange of `before` with a lane at a place, under failing reads. -/
def placed (l : Lane) (p : Place) (bad : List Span) (more : List HostWrite) : Exchange :=
  let x := before more
  { (x.setLane l { x.lane l with place := p }) with badReads := bad }

/-- Hypotheses of NudgeAndScanTick, a lane's look: a link of 0, 63, 64 and 8255; one whose last byte fails, and one just past it, on each
lane; a shut chunk gate; no place; a retake, and a chain behind a frame refused as it is taken. -/
theorem witness_lane_look :
    let linked (l : Lane) (bad : List Span) (n : Nat) := placed l (.link 9000 .narrow 3 0) bad [wr 9000 (leBytes 4 n)]
    let next : List HostWrite := [wr 8192 (leBytes 4 8320), wr 8200 [0x70, 0], wr 8328 [3, 0]]
    let seen (gate : Bool) (l : Lane) (x : Exchange) : Option Nat × Word × Nat × Word :=
      let y := x.look gate 5 l
      ((y.hand l).map (·.address), (y.lane l).taken, y.depth, y.recErrors)
    [0, 63, 64, 8255].map (fun n => seen true .control (linked .control [] n))
        = [(none, 0, 0, 0), (none, 0, 0, 0), (none, 1, 32, 0), (some 8192, 1, 0, 0)]
      ∧ allLanes.map (fun l => seen true l (linked l [{ first := 9003, length := 1 }] 8192)) = [(none, 0, 32, 0), (none, 0, 32, 0), (none, 0, 0, 1)]
      ∧ seen true .control (linked .control [{ first := 9004, length := 1 }] 8192) = (some 8192, 1, 0, 0)
      ∧ seen false .chunk (linked .chunk [] 8320) = (none, 0, 0, 0) ∧ seen true .control (placed .control .nowhere [] []) = (none, 0, 0, 0)
      ∧ [[], next].map (fun more => seen true .control (placed .control (.take 8192) [] more)) = [(some 8192, 1, 0, 0), (some 8320, 2, 0, 0)] := by
  decide +kernel

/-- A format-1 record of the CONTROL lane. -/
def linkRec : FaultRec := .frame .control .link 8192 3 0 .fetchError 5

/-- An exchange with that many format-1 records on its stack. -/
def piled (n : Nat) : Exchange := { liveExchange with stack := List.replicate n linkRec }

/-- Hypotheses of FaultStackPushesStopsAndPops: the sixteenth record of 32 bytes just fits in 512, the seventeenth does not. -/
theorem witness_push :
    (piled 15).anchor.isSome = true ∧ (piled 15).state = .running ∧ memWf (piled 15).mem = true
      ∧ (piled 15).depth + linkRec.size = 512 ∧ 512 < (piled 16).depth + linkRec.size
      ∧ (512 ≤ 262144 ∧ 4096 + 256 ≤ 262144 - 512) ∧ (xAt .stopped).xchg.state ≠ .running
      ∧ (((piled 15).push linkRec).state, ((piled 16).push linkRec).state) = (.running, .stopped)
      ∧ ((piled 16).push linkRec).laneState .chunk = .stopped := by decide +kernel

/-- A format-2 record and a format-3 record. -/
def cardRec (isLive : Bool) : FaultRec := .card .timeout 256 7 1 [] .retry isLive 5
def badRec : FaultRec := .record true 3 32 8448 5

/-- A RECOVERY frame in hand over a stack, with the host memory a push would have left. -/
def recovering (b : Body) (l : List FaultRec) : State :=
  given .recovery b (live.onXchg fun x => { x with stack := l, mem := memOfCells (
    match l with
    | r :: _ => (List.range 32).filterMap fun k =>
        if (faultBytes r).getD k 0 = 0 then none else some (262144 - x.depth - r.size + k, (faultBytes r).getD k 0)
    | [] => []) })

/-- Hypotheses of ResumeTakesTheTopRecord: each shape of the top record, the read that fails, and the two readings of format 1. -/
theorem witness_resume :
    live.supply.held = false ∧ (recovering .resume []).frameBody .recovery = some .resume ∧ (recovering .resume []).xchg.stack = []
      ∧ (recovering .resume [badRec]).xchg.stack = [badRec] ∧ (recovering .resume [linkRec]).xchg.stack = [linkRec]
      ∧ (recovering .resume [cardRec false]).xchg.stack = [cardRec false]
      ∧ (linkRec.size, (cardRec false).size) = (32, 96) ∧ readOk [{ first := 262143, length := 1 }] 262112 32 = false
      ∧ readOk [{ first := 262144, length := 1 }] 262048 96 = true := by decide +kernel

/-- Hypotheses of AbandonPopsTheTopRecord. -/
theorem witness_abandon :
    (recovering .abandon []).frameBody .recovery = some .abandon ∧ (recovering .abandon [linkRec]).xchg.stack = [linkRec]
      ∧ (let h : HeldFrame := { address := 8192, form := .narrow, notify := false, code := 0x99, tag := 0 }
         let s := (recovering .abandon [.frame .control .frame 8192 0x99 0 .unknownFormat 5]).onXchg fun x =>
           x.setLane .control { x.control with held := some h }
         (s.xchg.lane .control).held = some h ∧ s.xchg.state = .running ∧ s.supply.held = false)
      ∧ (recovering .abandon [cardRec true]).xchg.stack = [cardRec true]
      ∧ (recovering .abandon [cardRec false]).xchg.stack = [cardRec false]
      ∧ (recovering .abandon [badRec]).xchg.stack = [badRec] := by decide +kernel

/-- Hypotheses of AbandonPopsTheTopRecord, a held frame of the CHUNK lane and of the CONTROL lane with a sequence kept to be repeated. -/
theorem witness_abandon_chunk :
    let h : HeldFrame := { address := 8320, form := .narrow, notify := false, code := 0x22, tag := 0 }
    let s (l : Lane) : State := ((recovering .abandon [.frame l .frame 8320 0x22 0 .dataError 5]).onXchg fun x =>
      x.setLane l { x.lane l with held := some h }).onWriter fun w => { w with repeats := { Repeats.empty with main := some 5 } }
    ((s .chunk).xchg.lane .chunk).held = some h ∧ (s .chunk).frameBody .recovery = some .abandon ∧ (s .chunk).xchg.state = .running
      ∧ [Lane.chunk, .control].map (fun l =>
          let t := nextOf (.abandon calm) (s l)
          (t.writer.repeats.main, memNat t.xchg.mem 8334 2, memNat t.xchg.mem 8336 4, answered t)) = [(none, 5, 38, 2, 0), (some 5, 5, 38, 2, 0)] := by
  decide +kernel

/-- Hypotheses of AbandonPopsTheTopRecord, a LIVE card record: two packs of the list given up, and the FILLING buffer with them (R137). -/
theorem witness_abandon_card :
    let s := given .recovery .abandon (nextOf (.cardBusyTimeout (after 500000)) stalled)
    let v := (s.arrive calm).onXchg Exchange.pop
    let t := (v.release .chunk).abandonCard
    s.frameBody .recovery = some .abandon ∧ s.supply.held = false ∧ s.xchg.state = .running
      ∧ (s.xchg.stack.map FaultRec.size, (s.card.list.map (·.source)), s.writer.filling) = ([96], [.buf 1, .buf 2], some 3)
      ∧ (t.card.list, t.writer.bufs.toList.map (·.st), (t.store.seg 12).map (·.unwritten)) = ([], [.empty, .empty, .empty, .empty], some 3)
      ∧ (t.writer.state, t.writer.reason, t.writer.tailBy) = (.closing, .card, .settlement) := by decide +kernel

/-- R97, R100, R140: the answers of RESUME and ABANDON by the top record. -/
theorem test_recovery_answers :
    answered (nextOf (.resume calm) (recovering .resume [])) = (3, 33)
      ∧ answered (nextOf (.resume calm) (recovering .resume [badRec])) = (3, 34)
      ∧ answered (nextOf (.abandon calm) (recovering .abandon [])) = (3, 33)
      ∧ answered (nextOf (.abandon calm) (recovering .abandon [cardRec false]))
        = answered (nextOf (.resume calm) (recovering .resume [cardRec false])) := by decide +kernel

/-- Hypotheses of ResumeTakesTheTopRecord and AbandonPopsTheTopRecord with the exchange STOPPED: the records stay. -/
theorem witness_recovery_stopped :
    let s (b : Body) : State := given .recovery b ((xAt .stopped).onXchg fun x => { x with stack := [linkRec] })
    (s .resume).frameBody .recovery = some .resume ∧ (s .abandon).frameBody .recovery = some .abandon
      ∧ (s .resume).xchg.state ≠ .running ∧ (s .resume).supply.held = false
      ∧ [nextOf (.resume calm) (s .resume), nextOf (.abandon calm) (s .abandon)].map (fun t =>
          (t.xchg.stack, t.xchg.recovery.hand.isSome, answered t)) = [([linkRec], false, (0, 0)), ([linkRec], false, (0, 0))] := by
  decide +kernel

/-- The part with the LIVE record of a timeout on its stack and a RESUME frame in hand. -/
def faulted : State := given .recovery .resume (nextOf (.cardBusyTimeout (after 500000)) stalled)

/-- The host edits the continuation byte, and the valid flag of entry 2, of the record at the top of the fault area. -/
def edited (cont valid : Byte) : Ambient := { calm with hostWrites := [wr 262050 [cont], wr 262088 [valid]] }

/-- Hypotheses of CardRecordIsResumed: a LIVE record read as each continuation, with an entry cleared, as a bad record, unreadable. -/
theorem witness_card_record :
    let r : FaultRec := .card .timeout 82048 12 1
      [{ valid := true, source := .buf 1, block := 82048, count := 128 }, { valid := true, source := .buf 2, block := 82176, count := 128 }]
      .retry true 500000
    let read (a : Ambient) : Option (List Bool × Continuation) := match checkRecord (faulted.arrive a).xchg.mem 262048 r with
      | .cardGood rs k => some (rs.map (·.valid), k)
      | _ => none
    let bad : Ambient := { calm with badReads := [{ first := 262143, length := 1 }] }
    faulted.frameBody .recovery = some .resume ∧ faulted.supply.held = false ∧ faulted.xchg.state = .running
      ∧ faulted.xchg.stack = [r] ∧ (faulted.arrive calm).xchg.topAddress = 262048 ∧ readOk calm.badReads 262048 96 = true
      ∧ [read (edited 1 1), read (edited 2 0), read (edited 4 1), read (edited 3 1), read (edited 0 1)]
        = [some ([true, true], .retry), some ([true, false], .nextExtent), some ([true, true], .close), none, none]
      ∧ (nextOf (.resume (edited 3 1)) faulted).xchg.depth = 128 ∧ answered (nextOf (.resume (edited 3 1)) faulted) = (3, 35)
      ∧ pendingAt (nextOf (.resume (edited 1 0)) faulted) = ([(.buf 1, 82048)], 0)
      ∧ answered (nextOf (.resume bad) faulted) = (3, 36) := by decide +kernel

/-- Hypotheses of CardRecordIsResumed, each byte changed by itself: format, reason, serial, the last byte of the time, entry 1's source,
block and count, entry 2's source, and entry 3's valid flag, source, block and count make it a bad record; a continuation bit of no
continuation, a valid flag not 0, an entry's reserved byte and the byte after its count leave it good. -/
theorem witness_card_record_bytes :
    let r : FaultRec := .card .timeout 82048 12 1
      [{ valid := true, source := .buf 1, block := 82048, count := 128 }, { valid := true, source := .buf 2, block := 82176, count := 128 }]
      .retry true 500000
    let good (k : Nat) : Bool :=
      match checkRecord (faulted.arrive { calm with hostWrites := [wr (262048 + k) [(faultBytes r).getD k 0 + 8]] }).xchg.mem 262048 r with
      | .cardGood _ _ => true
      | _ => false
    [0, 1, 8, 23, 25, 28, 32, 41, 56, 57, 60, 64].map good = List.replicate 12 false
      ∧ [2, 24, 26, 36].map good = List.replicate 4 true := by decide +kernel

/-- Hypotheses of CardWritesEnd, a removal that waits for report room: the card pulled, a fresh record takes the place of the resumed
one, and with room again the removal is made and the FILLING buffer, not the record's entries, re-placed (R136, R150, R158). -/
theorem witness_removal_waits :
    let full := (faulted.onStore fun st => { st with queue := List.replicate 8 { time := 0, body := .storageLow 1 2 } }).onXchg fun x =>
      { x with writeCount := 16, readCopy := some 0 }
    let s := nextOf (.resume (edited 2 1)) full
    let t := (s.cardRemoved emit).rest
    let u := (t.onXchg fun x => { x with readCopy := some 16 }).rest
    (s.store.matters, s.store.waiting, s.xchg.depth) = ([.removal 12 82048 true], [.segmentWork], 0)
      ∧ (t.store.matters, t.xchg.depth, answered t) = ([.removal 12 82048 false], 96, (2, 21))
      ∧ u.store.matters = [] ∧ ((u.store.seg 12).map Seg.exts) = some [{ first := 81920, count := 128 }, { first := 90112, count := 1280 }]
      ∧ ((u.card.list.map (·.block)), u.xchg.depth) = ([82048, 82176], 96) := by decide +kernel

/-- R135: CLOSE discards the packs, closes the clip for CARD and has the tail written, RESUME's frame staying in hand. -/
theorem test_close_continuation :
    let t := nextOf (.resume (edited 4 1)) faulted
    (t.writer.state, t.writer.reason, t.writer.tailBy, t.card.resumption, t.xchg.recovery.hand.isSome)
        = (.closing, .card, .resumption, some true, true)
      ∧ (t.card.list.map fun e => (e.source, e.block)) = [(.buf 3, 82304)] := by decide +kernel

/-- Hypotheses of FrameCommandsNeedTheirFrame: a STATUS_ACK frame in hand is no other command's, and no CHUNK frame is in hand. -/
theorem witness_no_frame :
    let s := given .control .statusAck live
    s.supply.held = false ∧ s.frameBody .control = some .statusAck ∧ s.frameBody .recovery = none ∧ s.xchg.hand .chunk = none := by
  decide +kernel

/-- Hypotheses of StatusRefreshAndAck, its frame. -/
theorem witness_status_ack :
    let s := given .control .statusAck (live.onPath fun p => { p with accrued := 0x3FF, recentred := true })
    s.supply.held = false ∧ s.frameBody .control = some .statusAck ∧ s.xchg.anchor.isSome = true ∧ s.xchg.state.live = true
      ∧ memWf (s.arrive calm).xchg.mem = true
      ∧ (nextOf (.statusAck calm) s).path.accrued = 0 ∧ answered (nextOf (.statusAck calm) s) = (2, 0) := by decide +kernel

/-- Hypotheses of StatusRefreshAndAck, its sections, with a full table: the time, the port, its armed flag and peak, two buffers' states
and a fill, the entries of the list and a place without one, the first and last segments with their states, the reserved bytes. -/
theorem witness_sections :
    let s : State := { cutting with
      time := 9, motion := { Motion.reset with port := .lost, armed := false, shockPeak := 9000 }
      store := { crowded with table := (List.range 16).map fun k => segAt (40 + k) .complete (if k = 0 then some .host else none) } }
    let reads (f : Nat × Nat) : Nat := leNat ((s.sections.drop (f.1 - 0x108)).take f.2)
    s.store.table.length = 16 ∧ s.sections.length = 760
      ∧ [(0x108, 8), (0x120, 1), (0x122, 1), (0x134, 4), (0x1C0, 1), (0x1C1, 1), (0x1C8, 4)].map reads = [9, 3, 1, 9000, 3, 2, 65536]
      ∧ [(0x200, 4), (0x204, 2), (0x206, 1), (0x207, 1), (0x20E, 1), (0x210, 8)].map reads = [40448, 128, 0, 1, 1, 0]
      ∧ [(0x22D, 1), (0x248, 4), (0x284, 4), (0x288, 1), (0x289, 1), (0x297, 1), (0x298, 24)].map reads = [1, 40, 55, 2, 1, 1, 0] := by
  decide +kernel

/-! ## Witnesses: motion and path -/

/-- MOTION_SETUP with every field at its default, at a rate, with a mount map. -/
def setupOf (rate : Nat) (axes : Axes Nat) : MotionFields :=
  { rate, fullScale := 1, q := 64, bands := 8, axes, signs := .all 0, shifts := .all 13, alert := 0, shockHigh := 10000
    quietLow := 20000, gain := 0, focal := 100, mx := 3072, my := 1728, rl := 0, readout := 16000 }

/-- The mount map that names each axis once. -/
def straight : Axes Nat := { yaw := 0, pitch := 1, roll := 2 }

/-- The front end RUNNING with the comparator DISARMED. -/
def shaken : Motion := { Motion.reset with port := .running, imuPower := true, armed := false, shockPeak := 9000 }

/-- Hypotheses of MotionSetupReferenceAndExposure: maps at their boundary, a changed rate with the writer open and idle, an equal one,
and the port states that enter STARTING. -/
theorem witness_motion_setup :
    let s (f : MotionFields) := given .control (.motionSetup f) { live with motion := shaken }
    (s (setupOf 0 straight)).supply.held = false ∧ (s (setupOf 0 straight)).frameBody .control = some (.motionSetup (setupOf 0 straight))
      ∧ mountOf { straight with roll := 3 } (.all 0) = none ∧ mountOf { straight with roll := 0 } (.all 0) = none
      ∧ (mountOf straight (.all 0)).isSome = true
      ∧ rateOf 0 ≠ shaken.rate ∧ rateOf 2 = shaken.rate ∧ (1 != 0) = shaken.dps2000
      ∧ (xAt .running).writer.state = .idle ∧ cutting.writer.state = .opened
      ∧ (shaken.port ≠ .off ∧ shaken.port ≠ .failed) ∧ Motion.reset.port = .off := by decide +kernel

/-- R7, R15, R21: the refusals, and a changed rate taken with the writer IDLE. -/
theorem test_motion_setup :
    let s := nextOf (.motionSetup calm) (given .control (.motionSetup (setupOf 9 straight)) { live with motion := shaken })
    answered (nextOf (.motionSetup calm) (given .control (.motionSetup (setupOf 0 { straight with yaw := 2 })) live)) = (3, 2)
      ∧ answered (nextOf (.motionSetup calm) (given .control (.motionSetup (setupOf 0 straight)) cutting)) = (3, 1)
      ∧ (s.motion.port, s.motion.rate, s.motion.armed, s.motion.quietLow, s.path.gain, s.path.focal, s.path.shifts.yaw)
        = (.starting, .hz3200, true, 9999, 1, 200, 12)
      ∧ s.events = [{ number := 0x0301, time := 0, arg := .num 9000 }] := by decide +kernel

/-- Hypotheses of MotionSetupReferenceAndExposure, and both clamps at their ends. -/
theorem witness_reference_exposure :
    let r : Axes Angle := { yaw := 67108865, pitch := 0 - 67108865, roll := 67108864 }
    let s := given .control (.reference r) live
    let e := given .control (.exposure 500001) live
    s.supply.held = false ∧ s.frameBody .control = some (.reference r) ∧ e.frameBody .control = some (.exposure 500001)
      ∧ (nextOf (.reference calm) s).path.pendingRef = some { yaw := 67108864, pitch := 0 - 67108864, roll := 67108864 }
      ∧ (nextOf (.exposure calm) e).path.exposure = 500000 := by decide +kernel

/-- Hypotheses of ImuPortTimes, and each port time at its boundary. -/
theorem test_port_times :
    let at_ (t : Nat) (m : Motion) : State := { State.reset with time := BitVec.ofNat 48 t, motion := m }
    let m : Motion := { shaken with runEntry := 7, lossDeadline := some 5000, restarts := 3 }
    live.supply.held = false
      ∧ (nextOf (.imuSettleEnd calm) (at_ 49999 { m with port := .starting, settleEnd := some 50000 })).motion.port = .starting
      ∧ (nextOf (.imuSettleEnd calm) (at_ 50000 { m with port := .starting, settleEnd := some 50000 })).motion.lossDeadline = some 55000
      ∧ (nextOf (.lossDeadline calm) (at_ 4999 m)).motion.port = .running
      ∧ (nextOf (.lossDeadline calm) (at_ 5000 m)).motion.port = .failed
      ∧ ((nextOf (.lossDeadline calm) (at_ 5000 m)).events.map Event.number) = [0x0301]
      ∧ (nextOf (.runningOneSecond calm) (at_ 1000006 m)).motion.restarts = 3
      ∧ (nextOf (.runningOneSecond calm) (at_ 1000007 m)).motion.restarts = 0
      ∧ (nextOf (.lostPowerOffEnd calm) (at_ 10000 { m with port := .lost, offEnd := some 10000 })).motion.settleEnd = some 60000
      ∧ (nextOf (.dataReadyEdge calm) (at_ 9 m)).motion.reading = some 9
      ∧ (nextOf (.dataReadyEdge calm) (at_ 9 { m with reading := some 4, waiting := some 6 })).motion.waiting = some 9 := by
  decide +kernel

/-- Hypotheses of SampleMarksAndSampleReadComplete: no previous sample; one at the same time; one a whole interval before. -/
theorem witness_sample_marks :
    Motion.reset.prev = none
      ∧ (let m : Motion := { Motion.reset with prev := some 100 }
         m.recorded 100 = 101 ∧ m.dt 100 = 1 ∧ m.gapMark 4195 = true ∧ m.gapMark 2600 = false ∧ m.gapMark 2601 = true ∧ m.dt 4196 = 4095)
      ∧ moveAverage 625 640 = 625 ∧ moveAverage 625 641 = 626 ∧ moveAverage 625 610 = 625 ∧ moveAverage 625 609 = 624
      ∧ clippedReading 0x7FFF = true ∧ clippedReading 0x8000 = true ∧ clippedReading 0x8001 = false := by decide +kernel

/-- Hypotheses of SampleMarksAndSampleReadComplete, with a ring of 64 entries, in ACTIVE and in PARKED; and that the oldest entry leaves. -/
theorem witness_sample_read :
    let m : Motion := { shaken with reading := some 5000, ring := (List.range 64).map fun k => yawAt k k }
    let s : State := { live with motion := m }
    s.supply.held = false ∧ s.motion.reading = some 5000 ∧ s.motion.port = .running ∧ s.motion.ring.length = 64
      ∧ s.supply.power = .active ∧ live.motion.reading = none ∧ (inPower .parked).supply.power ≠ .active
      ∧ ((nextOf (.sampleReadComplete calm (still 0)) s).motion.ring.map (·.time)).head? = some 1
      ∧ ((nextOf (.sampleReadComplete calm (still 0)) s).motion.ring.map (·.time)).getLast? = some 5000 := by decide +kernel

/-- Hypotheses of ShockComparator, each arm of it at its boundary with QUIET_LOW 2,999, SHOCK_HIGH 3,000 and Q 2. -/
theorem witness_comparator :
    let a : Motion := { Motion.reset with shockHigh := 3000, quietLow := 2999, q := 2 }
    let d : Motion := { a with armed := false, quiet := 1 }
    (a.armed = true ∧ a.shockHigh ≤ 3000 ∧ 2999 < a.shockHigh) ∧ (d.armed = false ∧ d.quietLow < 3000 ∧ 2999 ≤ d.quietLow)
      ∧ d.q ≤ d.quiet + 1 ∧ ({ d with quiet := 0 } : Motion).quiet + 1 < d.q ∧ live.supply.power ≠ .sleep
      ∧ (d.compare 7 2999).2 = .ends ∧ (a.compare 7 3000).2 = .begins := by decide +kernel

/-- Hypotheses of MappedRateAndRoundings: a push at the margin and just past it, a tie of the offset, divisions by more than 0. -/
theorem witness_rounding :
    pushAxis 5 0 3072 3072 2013265 = (5, false) ∧ 3072 < (3073 : Int).natAbs ∧ 2013265 < 2147483648
      ∧ (2 * ((327680 : Int) * 1600 - toPixels 327680 1600 * 1048576).natAbs ≤ 1048576) ∧ 0 < 200
      ∧ (toPixels 524288 1, toPixels (-524288) 1, toPixels 524287 1) = (1, -1, 0) := by decide +kernel

/-- Hypotheses of RecordStaysWithinMargins. -/
theorem witness_record_margins :
    (endingOf workedFrame).noMotion = false ∧ 200 ≤ workedFrame.focal ∧ workedFrame.mx ≤ 32767 ∧ workedFrame.my ≤ 32767
      ∧ workedFrame.rl ≤ 16777216 ∧ (endingOf (workedFrame.endAt 9 625 true false)).noMotion = true := by decide +kernel

/-- The worked frame while it is OPEN. -/
def opening : VFrame := { workedFrame with ended := none }

/-- Hypotheses of VideoFrameStartsAndEnds and ExtrapolationDeadline: no frame, an OPEN one, an ENDED one before and at its deadline. -/
theorem witness_video_frames :
    let e := endingOf workedFrame
    live.supply.power = .active ∧ (inPower .parked).supply.power ≠ .active ∧ live.path.frames = [] ∧ opening.ended = none
      ∧ workedFrame.ended = some e ∧ e.ready [] 1015874 = false ∧ e.ready [] 1015875 = true
      ∧ (endingOf (opening.endAt 1016000 625 false false)).ready [] 0 = false ∧ 0 < opening.bands
      ∧ (State.reset.supply.held, State.reset.xchg.anchor, State.reset.writer.state) = (false, none, .idle)
      ∧ State.reset.supply.power ≠ .sleep ∧ State.reset.router.routes.listening 0x0302 = []
      ∧ State.reset.router.routes.listening 0x0303 = [] := by decide +kernel

/-- R49, R57: the record produced at the deadline by holding the newest rate, its publication withheld. -/
theorem test_extrapolated_record :
    let s := { bouncing with time := 1015875, path := { bouncing.path with frames := [workedFrame] }
                             motion := { bouncing.motion with ring := [yawAt 1000000 0] } }
    let t := nextOf (.extrapolationDeadline calm) s
    (t.path.frames, t.path.unpublished) = ([], 1)
      ∧ t.events = [{ number := 0x0303, time := 1015875, arg := .frame 7 0x020 }] := by decide +kernel

/-- Hypotheses of VideoFrameStartsAndEnds: one OPEN entry, and two entries of which the second is OPEN. -/
theorem witness_video_entries :
    let s (l : List VFrame) : State := { bouncing with path := { bouncing.path with frames := l }, motion := { bouncing.motion with ring := [] } }
    let second : VFrame := { opening with number := 8, start := 1016700 }
    let g := opening.endAt (opening.start + BitVec.ofNat 48 opening.readout) 625 false true
    let h := second.endAt (second.start + BitVec.ofNat 48 second.readout) 625 false true
    let one := (s [opening]).frameStart emit 1016700
    let two := (s [workedFrame, second]).frameStart emit 1033400
    bouncing.supply.power = .active ∧ bouncing.motion.average = 625 ∧ bouncing.motion.port = .running
      ∧ (endingOf g).ready [] 0 = false ∧ (endingOf h).ready [] 0 = false ∧ opening.number ≠ second.number
      ∧ bouncing.xchg.anchor = none ∧ bouncing.writer.state = .idle ∧ bouncing.router.routes.listening 0x0303 = []
      ∧ (one.path.frames.map fun f => (f.number, f.ended.isSome, f.assumed)) = [(7, true, true), (10, false, false)]
      ∧ (two.path.frames.map fun f => (f.number, f.ended.isSome, f.assumed)) = [(8, true, true), (10, false, false)]
      ∧ (two.path.forced, two.path.unpublished, two.events.map Event.number) = (1, 1, [0x0303]) := by decide +kernel

/-- Hypotheses of VideoFrameStartsAndEnds, FRAME_END with one OPEN entry, with one behind an ENDED one that is not ready, and with none. -/
theorem witness_frame_end :
    let second : VFrame := { opening with number := 8, start := 1016700 }
    let ends (l : List VFrame) : List (Word × Bool) × Word :=
      let t := ({ bouncing with path := { bouncing.path with frames := l }, motion := { bouncing.motion with ring := [] } } : State).frameEnd emit 1020000
      (t.path.frames.map fun f => (f.number, f.ended.isSome), t.path.stray)
    workedFrame.ended.isSome = true ∧ second.ended = none ∧ (endingOf workedFrame).ready [] 0 = false
      ∧ [[opening], [workedFrame, second], [workedFrame]].map ends = [([(7, true)], 0), ([(7, true), (8, true)], 0), ([(7, true)], 1)] := by
  decide +kernel

/-- Hypotheses of RecordIsPublished: the consumed copy fifteen and sixteen frames behind, and an alert mask the flags miss. -/
theorem witness_publish :
    live.xchg.anchor.isSome = true ∧ live.xchg.state = .running ∧ live.xchg.consumed = some 0 ∧ memWf live.xchg.mem = true
      ∧ (overruns (some 0) 15 16, overruns (some 0) 16 16) = (false, true) ∧ (0x200 : BitVec 10) &&& 0x1FF = 0
      ∧ State.reset.xchg.anchor = none := by decide +kernel

/-- Hypotheses of RecordIsPublished: a record with a flag of the alert mask (R40). -/
theorem witness_alert :
    let r : WarpRecord := noMotionRecord Path.reset workedFrame (endingOf workedFrame)
    let t := (live.publish emit r 0x100).1
    r.flags &&& 0x100 ≠ 0 ∧ live.router.routes.listening 0x0304 = [] ∧ live.supply.power ≠ .sleep
      ∧ (t.events.map Event.number, t.xchg.cause) = ([0x0304], causeWarp ||| causeAlert) := by decide +kernel

/-! ## Witnesses: router -/

/-- Hypotheses of RouteIsCheckedAndSet: the last sink and the index past it, a number, 0, a number of no event, a self-route. -/
theorem witness_route :
    let s := given .control (.route 17 0x0505) live
    s.supply.held = false ∧ s.frameBody .control = some (.route 17 0x0505) ∧ sinkOf 17 = some .wakeB ∧ sinkOf 18 = none
      ∧ isEventNumber 0x010E = true ∧ isEventNumber 0x010F = false ∧ isEventNumber 0x0507 = true ∧ isEventNumber 0x0508 = false
      ∧ selfRaised .wakeB 0x0505 = true ∧ selfRaised .wakeB 0x0507 = false ∧ selfRaised .wakeB 0 = false := by decide +kernel

/-- Hypotheses of LineEdgeAndTimerExpiry, its delivery: an event of four sinks in an order the command brings, the direct wake before them
and after them, in SLEEP none; and the last depth. -/
theorem witness_delivery :
    let e : Event := { number := 0x0300, time := 7, arg := .num 0 }
    let s (p : PowerState) (direct : Bool) : State := { inPower p with
      router := { Router.reset with routes := ((Routes.default.change (.setLine 0) 0x0300).change .wakeA 0x0300).change (.clearLine 1) 0x0300 }
      race := { (inPower p).race with directFirst := direct, sinks := [.clearLine 1] } }
    let told (p : PowerState) (d : Bool) : Nat × Bool × WakeReason :=
      let t := emit e (s p d)
      (t.events.length, t.router.outs.a0.high, t.supply.wake)
    (s .active true).router.routes.listening 0x0300 = [.incident, .setLine 0, .clearLine 1, .wakeA]
      ∧ arrange (s .active true).race.sinks ((s .active true).router.routes.listening 0x0300) = [.clearLine 1, .incident, .setLine 0, .wakeA]
      ∧ [told .active true, told .active false, told .parked true, told .parked false, told .sleep true, told .sleep false]
        = [(1, true, .none), (1, true, .none), (1, true, .shock), (1, true, .routed), (0, false, .none), (0, false, .none)]
      ∧ ((emitFor 0 e (s .active true)).backlog, (emitFor 0 e (s .active true)).events) = ([e], []) := by decide +kernel

/-- Hypotheses of LineTimerAndOutputFrames, each index and code at and past its end. -/
theorem witness_line_timer :
    let l (n : Nat) := given .control (.lineSetup n false true 9) live
    let t (n m r : Nat) := given .control (.timerSetup n m r 16777217) live
    (l 3).supply.held = false ∧ (l 3).frameBody .control = some (.lineSetup 3 false true 9)
      ∧ (t 3 1 2).frameBody .control = some (.timerSetup 3 1 2 16777217)
      ∧ answered (nextOf (.lineSetup calm) (l 4)) = (3, 2)
      ∧ ((nextOf (.lineSetup calm) (l 3)).router.lines.get 3).rise = false
      ∧ (answered (nextOf (.timerSetup calm) (t 4 0 0)), answered (nextOf (.timerSetup calm) (t 3 2 0)),
          answered (nextOf (.timerSetup calm) (t 3 0 3))) = ((3, 2), (3, 2), (3, 2))
      ∧ ((nextOf (.timerSetup calm) (t 3 0 1)).router.timers.get 3).next = some 16777216 := by decide +kernel

/-- Hypotheses of LineTimerAndOutputFrames: every request code that is one, and one that is none. -/
theorem witness_output_write :
    let s (n : Nat) := given .control (.outputWrite { a0 := 0, a1 := 1, a2 := 2, a3 := n } false 0 0) live
    (s 3).supply.held = false ∧ (s 3).frameBody .control = some (.outputWrite { a0 := 0, a1 := 1, a2 := 2, a3 := 3 } false 0 0)
      ∧ 2 < ({ a0 := 0, a1 := 1, a2 := 2, a3 := 3 } : Four Nat).get 3
      ∧ (∀ n, ({ a0 := 0, a1 := 1, a2 := 2, a3 := 2 } : Four Nat).get n ≤ 2)
      ∧ answered (nextOf (.outputWrite calm) (s 3)) = (3, 2) := by decide +kernel

/-- Hypotheses of LineEdgeAndTimerExpiry: an edge just inside and just outside the holdoff, one not enabled, one that is no change,
a timer stopped, before its expiry and at it. -/
theorem witness_line_edge :
    let l : InLine := { InLine.reset false 0 with rise := true, fall := false, holdoff := 100, lastRise := some 50 }
    let s := { live with router := { Router.reset with lines := Router.reset.lines.set 3 l
                                                       timers := Router.reset.timers.set 1 { period := 7, periodic := false, next := some 900 } } }
    let rise (t : Nat) := ((nextOf (.inputLineEdge (after t) 3 true) s).router.lines.get 3)
    s.supply.held = false ∧ (s.router.lines.get 3).level = false
      ∧ (((rise 149).suppressed, (rise 149).lastRise), ((rise 150).suppressed, (rise 150).lastRise)) = ((1, some 50), (0, some 150))
      ∧ (s.router.timers.get 0).next = none ∧ (s.router.timers.get 1).next = some 900
      ∧ timeReached (s.arrive (after 899)).time 900 = false ∧ timeReached (s.arrive (after 900)).time 900 = true
      ∧ ((nextOf (.timerExpiry (after 900) 1) s).router.timers.get 1).next = none := by decide +kernel

/-! ## Witnesses: clips and card -/

/-- CLIP_OPEN with a streams mask. -/
def openOf (streams : BitVec 8) : Body :=
  .clipOpen { number := 9, streams, loop := true, watermark := 4, duration := 5, pre := 121, post := 120 }

/-- The part ready for a clip: the card READY, one free extent. -/
def readied : State :=
  { live with
    card := { Card.reset true with state := .ready, capacity := 100000 }
    store := { Store.reset with pool := [{ first := 1280, count := 1280 }] } }

/-- Hypotheses of ClipOpenIsCheckedAndTaken: each check failing alone, and all of them passed. -/
theorem witness_clip_open :
    let go (s : State) (m : BitVec 8) := answered (nextOf (.clipOpen calm) (given .control (openOf m) s))
    (given .control (openOf 15) readied).frameBody .control = some (openOf 15) ∧ readied.supply.held = false
      ∧ readied.writer.state = .idle ∧ readied.writer.spare = some 0
      ∧ [go cutting 15, go readied 14, go readied 17, go { readied with card := Card.reset true } 15,
         go { readied with supply := { readied.supply with lowBattery := true } } 15,
         go { readied with supply := { readied.supply with dieHot := true } } 15, go { readied with store := Store.reset } 15,
         go readied 15] = [(3, 1), (3, 2), (3, 2), (3, 11), (3, 12), (3, 12), (3, 13), (2, 0)] := by decide +kernel

/-- R103, R117: what a taken CLIP_OPEN leaves, the segment opened with its head in the first buffer. -/
theorem test_clip_opened :
    let s := nextOf (.clipOpen calm) (given .control (openOf 15) readied)
    (s.writer.state, s.writer.clip.map (·.duration), s.store.loops.pre, s.store.nextSerial, s.store.table.length) = (.opened, some 10, 120, 2, 1)
      ∧ ((s.writer.bufs.get 0).st, (s.writer.bufs.get 0).pos, (s.writer.bufs.get 0).fill) = (.filling, some 1280, 512)
      ∧ (s.events.map Event.number) = [0x0400] := by decide +kernel

/-- Hypotheses of ClipCloseStartsTheClose: the three writer states without a card record, and one with. -/
theorem witness_clip_close :
    let go (s : State) := nextOf (.clipClose calm) (given .control .clipClose s)
    let closing := go cutting
    (given .control .clipClose live).frameBody .control = some .clipClose ∧ live.xchg.stack = [] ∧ live.writer.state = .idle
      ∧ cutting.xchg.stack = [] ∧ cutting.writer.state = .opened ∧ cutting.writer.job = none ∧ closing.writer.state = .closing
      ∧ (live.onXchg fun x => { x with stack := [cardRec false] }).xchg.stack = [cardRec false]
      ∧ answered (go live) = (2, 14) ∧ answered (go (live.onXchg fun x => { x with stack := [cardRec false] })) = (3, 15)
      ∧ (closing.writer.reason, closing.xchg.control.hand.isSome) = (.host, true) := by decide +kernel

/-- A chunk of one piece. -/
def chunkOf (stream count length : Nat) : ChunkFields :=
  { stream, flags := 0, count, time := 0, pieces := [{ address := 500000, length }] }

/-- A part whose copy of a chunk waits at its second byte. -/
def copying : State :=
  given .chunk (.chunk (chunkOf 0 1 100)) (cutting.onWriter fun w => { w with
    job := (some { stream := .main, flags := 0, time := 0, pieces := [{ address := 500000, length := 100 }], length := 100, seq := 5, stage := .copying })
    feed := [.host 500001 99] })

/-- Hypotheses of ChunkIsCheckedCopiedAndFaulted: the checks at their boundaries, a copy that waits for its bytes, and none. -/
theorem witness_chunk :
    let go (s : State) (f : ChunkFields) := answered (nextOf (.chunk calm) (given .chunk (.chunk f) s))
    let h : Taken := { address := 8192, form := .narrow, notify := false, tag := 0, code := 0, body := .chunk (chunkOf 1 1 8), started := false }
    cutting.supply.held = false ∧ (given .chunk (.chunk (chunkOf 1 1 8)) cutting).xchg.hand .chunk = some h
      ∧ cutting.writer.clip = some (clipOf 1) ∧ (clipOf 1).records .proxy = true ∧ cutting.writer.job = none
      ∧ ({ clipOf 1 with streams := 1 } : ClipSet).records .audio = false
      ∧ [go cutting (chunkOf 0 0 8), go cutting (chunkOf 0 5 8), go cutting (chunkOf 0 1 0), go cutting (chunkOf 3 1 8), go live (chunkOf 0 1 8)]
        = [(3, 2), (3, 2), (3, 2), (3, 2), (3, 7)]
      ∧ (live.writer.awaitsCopy, copying.writer.awaitsCopy, dataLeft copying.writer.feed) = (false, true, 99)
      ∧ copying.writer.job.map (·.stage) = some .copying := by decide +kernel

/-- Hypotheses of ChunkIsCheckedCopiedAndFaulted, its data error: a read that fails after one byte, a last part that is a header, and a
retake on another stream, which keeps the first stream's number until a close finishes the frame (R107). -/
theorem witness_data_error :
    let head := copying.onWriter fun w => { w with feed := [.bytes [1, 2]] }
    let mid := (copying.onWriter fun w => { w with feed := [.bytes [1], .host 500000 3, .zeros 1] }).onXchg fun x => { x with mem := [(500000, 9)] }
    let again := copying.onWriter fun w => { w with job := w.job.map fun j => { j with stream := .proxy, seq := 3 }, repeats := { Repeats.empty with main := some 5 } }
    let t := nextOf (.chunkPieceReadError calm 0) again
    (head.writer.awaitsCopy, dataLeft head.writer.feed, dataLeft mid.writer.feed, srcLength mid.writer.feed) = (false, 0, 3, 5)
      ∧ (mid.writer.zeroComplete mid.xchg.mem 1).feed = [.bytes [1], .bytes [9], .zeros 3]
      ∧ (copying.xchg.hand .chunk).isSome = true
      ∧ (t.writer.repeats.main, t.writer.repeats.proxy) = (some 5, some 3)
      ∧ (((given .chunk (.chunk (chunkOf 0 1 100)) t).startClose .host).writer.repeats) = .empty := by decide +kernel

/-- R107: a data error leaves the unit being completed with zeros, the queued motion unit (216 bytes) placed after it,
the sequence kept for the retake, and the lane HELD. -/
theorem test_data_error :
    let s := nextOf (.chunkPieceReadError calm 0) copying
    (s.xchg.laneState .chunk, s.writer.repeats.main, s.writer.seqs.main) = (.held, some 5, 0)
      ∧ (s.writer.job, (s.writer.bufs.get 2).fill) = (none, 40315) := by decide +kernel

/-- A part that carries out a CHUNK frame at a stage, with a body of one piece. -/
def jobAt (stream : Stream) (stage : JobStage) : State :=
  given .chunk (.chunk (chunkOf 0 1 100)) (cutting.onWriter fun w => { w with
    job := (some { stream, flags := 1, time := 30016000, pieces := [{ address := 500000, length := 100 }], length := 100, seq := 0, stage }) })

/-- The job of a part. -/
def jobOf (s : State) : ChunkJob :=
  s.writer.job.getD { stream := .main, flags := 0, time := 0, pieces := [], length := 0, seq := 0, stage := .arrived }

/-- Hypotheses of ClipCloseStartsTheClose, its jobs: a job arrived or judged is refused and gone, one being copied stays. -/
theorem witness_close_jobs :
    let go (s : State) : State := s.startClose .host
    cutting.writer.state = .opened ∧ (jobAt .main .arrived).writer.job = some (jobOf (jobAt .main .arrived))
      ∧ [JobStage.arrived, .judged, .copying].map (fun st =>
          ((go (jobAt .main st)).writer.job.isSome, answered (go (jobAt .main st))))
        = [(false, (3, 9)), (false, (3, 9)), (true, (0, 0))]
      ∧ live.startClose .host = live := by decide +kernel

/-- The open segment's first unit came at a time, and a host cut may be asked for. -/
def openedAt (timed request : Bool) : State :=
  (cutting.onStore fun st => { st with table := st.table.map fun g => { g with timed, start := 20000000 } }).onWriter fun w =>
    { w with cutRequest := request }

/-- Hypotheses of CutsAreDueAndTaken, the table: each row of R115 at its boundary with a duration of ten seconds. -/
theorem witness_cut_due :
    let due (s : State) (flags : Byte) (t : Nat) : Option CutReason :=
      s.cutDue { jobOf (jobAt .main .arrived) with flags, time := BitVec.ofNat 48 t }
    let s (request : Bool) := openedAt true request
    (cutting.writer.clip = some (clipOf 1) ∧ live.writer.clip = none ∧ live.store.openSeg = none)
      ∧ ((openedAt true false).store.openSeg.map (·.timed), (openedAt false false).store.openSeg.map (·.timed))
        = (some true, some false)
      ∧ [due (s false) 1 29999999, due (s false) 1 30000000, due (s false) 0 31999999, due (s false) 0 32000000,
         due (s true) 1 29999999, due (s true) 0 19999999, due (openedAt false true) 1 90000000]
        = [none, some .time, none, some .forced, some .host, some .host, some .host]
      ∧ (s true).cutDue (jobOf (jobAt .audio .arrived)) = none := by decide +kernel

/-- The FILLING buffer full, the list with room or not. -/
def fullBuffer (s : State) : State := s.onWriter fun w => { w with bufs := w.bufs.set 2 (bufAt .filling 40704 65536) }

/-- A third entry fills the pending-write list. -/
def listFull (s : State) : State := s.onCard fun c => { c with list := c.list ++ [packEntry 3 40704 7 false] }

/-- Hypotheses of CutsAreDueAndTaken, a frame at placing: each stage, with a cut, without a position, with staging full. -/
theorem witness_job_step :
    let free (s : State) : State := s.onWriter fun w => { w with queue := [] }
    let noPos (s : State) : State := s.onWriter fun w => { w with bufs := w.bufs.set 2 .fresh }
    let a := jobAt .main .arrived
    let stage (s : State) : Option (Option JobStage × Option Cut) := s.jobStep.map fun t => (t.writer.job.map (·.stage), t.writer.cut)
    let drop := listFull (fullBuffer (jobAt .proxy .arrived))
    (a.writer.cut, a.writer.placing, (noPos a).writer.placing) = (none, some 2, none)
      ∧ (a.cutDue (jobOf a), (jobAt .proxy .arrived).cutDue (jobOf a)) = (some .time, some .time)
      ∧ stage a = some (some .judged, some { reason := .time, stage := .place, outer := none }) ∧ stage (noPos a) = none
      ∧ stage (openedAt true false |>.onWriter fun w => { w with job := some { jobOf a with flags := 0 } }) = some (some .judged, none)
      ∧ (drop.writer.filling, drop.writer.spare, drop.listRoom) = (some 2, some 3, false)
      ∧ (drop.jobStep.map fun t => (t.writer.job.isSome, t.writer.chunksDropped, answered t)) = some (false, 1, (4, 10))
      ∧ stage (fullBuffer (jobAt .proxy .arrived)) = some (some .judged, none)
      ∧ stage (free (jobAt .audio .judged)) = some (some .copying, none) ∧ stage (jobAt .audio .judged) = none
      ∧ stage (jobAt .audio .copying) = none := by decide +kernel

/-- A queued unit of twenty bytes. -/
def unitAt (motion : Bool) (t : Nat) : QUnit := { motion, time := BitVec.ofNat 48 t, payload := zeroBytes 20 }

/-- The recording part in a close at a stage, with nothing queued and something else changed. -/
def closingAt (st : CloseStage) (f : State → State) : State :=
  f (cutting.onWriter fun w => { w with state := .closing, closing := st, reason := .host, queue := [] })

/-- Hypotheses of RecordIsPublished, its motion units: a record handed on and not; the queue with room, with motion to lose, and with
markers alone for a motion unit and a marker. -/
theorem witness_motion_units :
    let r : WarpRecord := noMotionRecord Path.reset workedFrame (endingOf workedFrame)
    let noMotion : State := cutting.onWriter fun w => { w with clip := some { clipOf 1 with streams := 7 } }
    let handed (s : State) := ((s.handMotion r).writer.queue.map fun u => u.payload.length, (s.handMotion r).path.clipCount)
    let put (l : List QUnit) (u : QUnit) : List Nat × Word × Word :=
      let w := ({ cutting.writer with queue := l } : Writer).enqueue u
      (w.queue.map (·.time.toNat), w.motionDropped, w.markersDropped)
    let m := unitAt true
    let k := unitAt false
    [cutting, noMotion, live].map handed = [([200, 200], 1), ([200], 0), ([], 0)]
      ∧ [put [k 1, m 2, m 3] (m 4), put [k 1, m 2, m 3, k 4] (k 5), put [k 1, k 2, k 3, k 4] (m 5), put [k 1, k 2, k 3, k 4] (k 5)]
        = [([1, 2, 3, 4], 0, 0), ([1, 3, 4, 5], 1, 0), ([1, 2, 3, 4], 1, 0), ([1, 2, 3, 4], 0, 1)] := by decide +kernel

/-- Hypotheses of RecordIsPublished, the placing of a queued unit: OPEN, a cut at its first step and past it, a close at its first step
and past it, a full buffer, one without a position, a unit under way, a chunk judged and one being copied, IDLE. -/
theorem witness_queue_step :
    let cut (st : CutStage) : State := cutting.onWriter fun w => { w with cut := (some { reason := .time, stage := st, outer := none }) }
    let places (s : State) : Bool := (s.onWriter fun w => { w with queue := [unitAt true 5, unitAt false 6] }).queueStep.isSome
    let unplaced : State := cutting.onWriter fun w => { w with bufs := w.bufs.set 2 .fresh }
    let fed : State := cutting.onWriter fun w => { w with feed := [.bytes [1]] }
    [cutting, cut .place, closingAt .drain id, jobAt .main .judged].map places = List.replicate 4 true
      ∧ [cut .queue, closingAt .queue id, fullBuffer cutting, unplaced, fed, jobAt .main .copying, live].map places = List.replicate 7 false
      ∧ (closingAt .drain id).queueStep.isSome = false := by decide +kernel

/-- Hypotheses of RecordIsPublished, incidents: the marker's serial with a segment open, one being opened, none, and none with a cut
opening the next; a close that takes a marker and one past its final pack; IDLE. Each reaches the map. -/
theorem witness_incident_markers :
    let unopened : State := cutting.onStore fun st => { st with table := [] }
    let told (s : State) : List (Byte × Nat) × Word :=
      let t := s.takeIncident 30000000 0x0300
      ((t.writer.queue.filter fun u => !u.motion).map fun u => (u.payload.getD 12 0, u.payload.length), t.store.nextIncident)
    [cutting, cutting.onStore fun st => { st with matters := [.opening 8 1 3] }, unopened,
       unopened.onWriter fun w => { w with cut := (some { reason := .time, stage := .askOpen, outer := none }) }].map told
        = [([(7, 20)], 2), ([(8, 20)], 2), ([(0, 20)], 2), ([(8, 20)], 2)]
      ∧ [closingAt .drain id, closingAt .queue id, closingAt .waitWrites id, live].map told
        = [([(7, 20)], 2), ([(7, 20)], 2), ([], 2), ([], 2)] := by decide +kernel

/-- The part with a cut at a stage. -/
def cutAt (reason : CutReason) (stage : CutStage) : State :=
  cutting.onWriter fun w => { w with cut := (some { reason, stage, outer := none }), queue := [] }

/-- Hypotheses of CutsAreDueAndTaken, the padding and the steps: the room at 0, 15 and 16 bytes, and each stage going on or not. -/
theorem witness_cut_steps :
    let filled (n : Nat) : Writer := { cutting.writer with bufs := cutting.writer.bufs.set 2 (bufAt .filling 40704 n) }
    let at_ (f : State → State) (st : CutStage) : Option (Option CutStage) :=
      (f (cutAt .time st)).cutStep.map fun t => t.writer.cut.map (·.stage)
    let tailSt (st : TailState) (s : State) : State := s.onWriter fun w => { w with tail := { w.tail with st } }
    let noSeg (s : State) : State := s.onWriter fun w => { w with seg := none }
    let queued (s : State) : State := s.onWriter fun w => { w with queue := cutting.writer.queue }
    let closing (s : State) : State := s.onWriter fun w => { w with state := .closing }
    [65536, 65521, 65520].map (fun n => (((filled n).pad 0).bufs.a2.fill, ((filled n).pad 0).placed.filler)) = [(65536, 0), (65536, 0), (65536, 1)]
      ∧ (at_ id .place, at_ queued .place) = (some (some .queue), none)
      ∧ (at_ id .queue, at_ listFull .queue) = (some (some .askClose), none)
      ∧ (at_ id .askClose, at_ noSeg .askClose, at_ (tailSt .built) .askClose) = (some (some .waitClose), some (some .askOpen), none)
      ∧ (at_ id .waitClose, at_ id .waitOpen) = (none, none)
      ∧ (at_ id .handTail, at_ listFull .handTail, at_ closing .handTail) = (some (some .askOpen), none, some none)
      ∧ (at_ id .askOpen, at_ closing .askOpen) = (some (some .waitOpen), some none)
      ∧ ((closing (cutAt .extents .handTail)).cutStep.map fun t => t.writer.cut.map (·.stage)) = some (some .askOpen) := by decide +kernel

/-- What a close at a stage does, its next stage, in each of several changed states. -/
def closeStages (st : CloseStage) (l : List (State → State)) : List (Option CloseStage) :=
  l.map fun f => (closingAt st f).closeStep.map fun t => t.writer.closing

/-- The FILLING buffer, the card, the segment, and the tail buffer, changed. -/
def withFilling (b : Buf) (s : State) : State := s.onWriter fun w => { w with bufs := w.bufs.set 2 b }
def cardGone (by_ : TailBy) (s : State) : State :=
  (s.onCard fun c => { c with state := .absent }).onWriter fun w => { w with tailBy := by_ }
def noSegment (s : State) : State := s.onWriter fun w => { w with seg := none }
def tailIn (st : TailState) (s : State) : State := s.onWriter fun w => { w with tail := { w.tail with st } }

/-- Hypotheses of ClipCloseStartsTheClose, steps 2 to 4: a queue, a unit or a copy still to place; a final buffer with bytes, empty, without a
position that is asked and that is not; the list with room and without; the buffers and the tail's in use. -/
theorem witness_close_packs :
    let unplaced : State → State := withFilling { bufAt .filling 0 100 with pos := none }
    let asks (m : Matter) (s : State) : State := s.onStore fun st => { st with matters := [m] }
    let queued (s : State) : State := s.onWriter fun w => { w with queue := cutting.writer.queue }
    let fed (s : State) : State := s.onWriter fun w => { w with feed := [.bytes [1]] }
    let copies (s : State) : State := s.onWriter fun w => { w with job := some (jobOf (jobAt .main .copying)) }
    let emptied (s : State) : State := s.onWriter fun w => { w with bufs := .all .empty }
    closeStages .drain [id, queued, fed, copies, withFilling .empty, unplaced, asks (.position 2) ∘ unplaced, withFilling (bufAt .filling 40704 0)]
        = [some .queue, none, none, none, some .waitWrites, some .queue, none, some .waitWrites]
      ∧ closeStages .queue [id, listFull, withFilling .empty, unplaced, asks (.replaceFilling 2) ∘ unplaced]
        = [some .waitWrites, none, some .waitWrites, some .waitWrites, none]
      ∧ closeStages .waitWrites [id, emptied, tailIn .writing ∘ emptied] = [none, some .askTail, none]
      ∧ closeStages .drain [fun s => s.onWriter fun w => { w with cut := (some { reason := .extents, stage := .place, outer := none }) }] = [none] := by
  decide +kernel

/-- Hypotheses of ClipCloseStartsTheClose, steps 5 and 6: no segment; a tail handed, without room, with no card and the tail the
assembler's or the port's; its write ended and not; the end with its frame in hand and without; and the answers to a segment's close. -/
theorem witness_close_tail :
    let asked (by_ : TailBy) := (closingAt .askTail (cardGone by_)).closeStep.map fun t => t.store.matters
    let reports (s : State) : Option (List Nat) := s.closeStep.map fun t => t.store.queue.length :: t.events.map fun e => e.number.toNat
    let frame : State := (nextOf (.clipClose calm) (given .control .clipClose cutting)).onWriter fun w => { w with closing := .finish }
    let c := cutAt .time .waitClose
    closeStages .askTail [id, noSegment] ++ closeStages .waitTail [id] = [some .waitTail, some .finish, none]
      ∧ [asked .assembler, asked .settlement] = [some [.closing false false], some [.closing false true]]
      ∧ closeStages .handTail [id, listFull, cardGone .assembler, cardGone .settlement, cardGone .resumption]
        = [some .waitTailWrite, none, some .waitTailWrite, some .finish, some .finish]
      ∧ closeStages .waitTailWrite [tailIn .empty, tailIn .writing] = [some .finish, none]
      ∧ closeStages .finish [id] = [some .drain] ∧ frame.closeStep.map answered = some (2, 65536)
      ∧ (frame.closeStep.map fun t => t.writer.state) = some .idle
      ∧ [frame, closingAt .finish id].map reports = [some [1, 0x0402], some [1, 0x0402]]
      ∧ [some 40832, none].map (fun b => (c.closeAnswered true b).writer.cut.map (·.stage)) = [some .handTail, some .askOpen]
      ∧ [some 40832, none].map (fun b => (c.closeAnswered false b).writer.closing) = [.handTail, .finish]
      ∧ [some 40832, none].map (fun b => (c.closeAnswered false b).writer.tail.st) = [.built, .empty] := by decide +kernel

/-- The card with line 2 at a level since a time. -/
def slot (c : Card) (level : Bool) (since : Nat) : State :=
  { live with card := c, router := { Router.reset with lines := Router.reset.lines.set 2 { InLine.reset level 0 with since := BitVec.ofNat 48 since } } }

/-- A card in a state. -/
def cardIn (st : CardState) : Card := { Card.reset true with state := st, capacity := 1000 }

/-- Hypotheses of CardAttachAndDetection: the card states, an attach under way at its limit and before it, a level held 10 ms
and one microsecond less, a capacity of 127 and 128 blocks. -/
theorem witness_card_attach :
    let c : Card := { cardIn .present with attaching := true, attachStart := some 0 }
    let a (k : Card) := answered (nextOf (.cardAttach calm) (given .control .cardAttach { live with card := k }))
    (given .control .cardAttach live).frameBody .control = some .cardAttach ∧ live.supply.held = false
      ∧ [a (cardIn .absent), a (cardIn .present), a (cardIn .failed), a c, a (cardIn .ready), a (cardIn .busy)]
        = [(3, 11), (2, 0), (2, 0), (2, 16), (2, 17), (2, 17)]
      ∧ (nextOf (.attachComplete calm 127 true) { live with card := c }).card.state = .failed
      ∧ (nextOf (.attachComplete calm 128 true) { live with card := c }).card.state = .ready
      ∧ (nextOf (.attachComplete calm 128 false) { live with card := c }).card.attachResult = .unusable
      ∧ (nextOf (.attachTimeout (after 999999)) { live with card := c }).card.attaching = true
      ∧ (nextOf (.attachTimeout (after 1000000)) { live with card := c }).card.attachResult = .noAnswer
      ∧ (nextOf (.cardDetectChange (after 9999)) (slot (cardIn .absent) true 0)).card.state = .absent
      ∧ (nextOf (.cardDetectChange (after 10000)) (slot (cardIn .absent) true 0)).card.state = .present
      ∧ (nextOf (.cardDetectChange (after 10000)) (slot c false 0)).card.attachResult = .removed
      ∧ (nextOf (.cardDetectChange (after 10000)) (slot (cardIn .ready) false 0)).card.removals = 1
      ∧ (nextOf (.cardDetectChange (after 10000)) (slot (cardIn .failed) false 0)).card.state = .absent := by decide +kernel

/-- Hypotheses of CardWritesEnd: a write in flight in WRITING and BUSY, the limit at its boundary, none in flight, and a fault that fits. -/
theorem witness_card_writes :
    let w : State := { cutting with card := { cutting.card with state := .writing, busySince := none } }
    let r : FaultRec := .card .timeout 40448 7 1 [] .retry true 0
    cutting.supply.held = false ∧ cutting.card.rawFlying = false ∧ cutting.card.flying = some (packEntry 0 40448 7 true)
      ∧ cutting.card.state = .busy ∧ cutting.card.busySince = some 0 ∧ w.card.writeFlying = true ∧ live.card.writeFlying = false
      ∧ timeReached (cutting.arrive (after 499999)).time 500000 = false ∧ timeReached (cutting.arrive (after 500000)).time 500000 = true
      ∧ (cutting.card.raw, cutting.card.resumption, cutting.supply.lowBattery, cutting.supply.dieHot) = (none, none, false, false)
      ∧ (packEntry 0 40448 7 true).settling = false ∧ cutting.xchg.fits r = true := by decide +kernel

/-- A raw job of one block. -/
def rawJob (isWrite inFlight ready : Bool) : RawJob :=
  { isWrite, first := 5, count := 1, address := 600000, ready, inFlight, data := [] }

/-- A part whose first write ends TIMEOUT. -/
def failed (s : State) : State := s.cardFault emit .timeout (packEntry 0 40448 7 true)

/-- Recording with sixteen records on the stack: a card record no longer fits. -/
def crammed : State := cutting.onXchg fun x => { x with stack := List.replicate 16 linkRec }

/-- Hypotheses of CardWritesEnd, a card fault that fits: plain, with a raw frame in flight and one waiting, in a resumption, and under
DIE_HOT. -/
theorem witness_card_fault :
    let raw (fly : Bool) : State := given .control (.cardWrite 5 1 600000) (cutting.onCard fun c => { c with raw := some (rawJob true fly true) })
    let resuming : State := given .recovery .resume (cutting.onCard fun c => { c with resumption := some false })
    let hot : State := { cutting with supply := { cutting.supply with dieHot := true }, time := 5 }
    let all := [cutting, raw true, raw false, resuming]
    all.map (fun s => (failed s).xchg.depth) = List.replicate 4 96
      ∧ all.map (fun s => (failed s).card.list.map (·.source)) = List.replicate 4 [.buf 0, .buf 1]
      ∧ all.map (fun s => (failed s).events.map Event.number) = List.replicate 4 [0x0405]
      ∧ all.map (fun s => answered (failed s)) = [(0, 0), (0, 0), (3, 15), (2, 21)]
      ∧ all.map (fun s => (failed s).card.raw.isSome) = [false, true, false, false]
      ∧ ((failed resuming).card.resumption, (failed cutting).card.grace, (failed hot).card.grace) = (none, none, some 2000005) := by
  decide +kernel

/-- Hypotheses of CardWritesEnd, a card fault that makes no record: of a settling entry, with no room on the stack, and there with a
tail first in the list. -/
theorem witness_card_fault_settled :
    let settled : State := cutting.cardFault emit .timeout { packEntry 0 40448 7 true with settling := true }
    let tail : Entry := { packEntry 0 40960 7 true with source := .tail, count := 1 }
    let tailed : State := (crammed.onCard fun c => { c with list := [tail, packEntry 1 40576 7 false] }).cardFault emit .timeout tail
    let unwritten (s : State) := (s.store.seg 7).map (·.unwritten)
    (settled.xchg.depth, settled.events, settled.card.list.map (·.source), settled.writer.bufs.a0.st) = (0, [], [.buf 1], .empty)
      ∧ crammed.xchg.fits (.card .timeout 40448 7 1 [] .retry true 0) = false
      ∧ ((failed crammed).xchg.depth, (failed crammed).events, (failed crammed).card.list) = (512, [], [])
      ∧ [settled, failed crammed, tailed].map unwritten = [some 1, some 2, some 1]
      ∧ ((failed crammed).writer.state, (failed crammed).writer.tailBy) = (.closing, .settlement)
      ∧ (tailed.card.list.map fun e => (e.source, e.awaiting, e.settling)) = [(.tail, true, true)]
      ∧ tailed.store.matters = [.replace .tail true true] := by decide +kernel

/-- R126, R127, R130: a refused write makes a card record with reason WRITE_ERROR, the failed write first. -/
theorem test_write_error :
    let s := nextOf (.cardWriteError calm) cutting
    (s.card.state, s.card.writeErrors, s.xchg.depth, s.xchg.laneState .chunk) = (.ready, 1, 96, .held)
      ∧ (s.card.list.map (·.source)) = [.buf 0, .buf 1] ∧ (s.events.map Event.number) = [0x0407, 0x0405]
      ∧ memNat s.xchg.mem (262144 - 96) 2 = 0x0002 := by decide +kernel

/-- Hypotheses of RawTransfers: the checks at their boundaries, and a raw read and a raw write in the slot. -/
theorem witness_raw :
    let rd (s : State) (f c : Nat) := answered (nextOf (.cardRead calm) (given .control (.cardRead f c 600000) s))
    let wrt (s : State) (f c : Nat) := answered (nextOf (.cardWrite calm) (given .control (.cardWrite f c 600000) s))
    let s := nextOf (.cardRead calm) (given .control (.cardRead 5 1 600000) readied)
    let t := nextOf (.rawReadComplete calm true [(3, 9)]) s
    let u := nextOf (.cardWrite calm) (given .control (.cardWrite 5 128 600000) readied)
    (given .control (.cardRead 5 1 600000) readied).frameBody .control = some (.cardRead 5 1 600000)
      ∧ (given .control (.cardWrite 5 1 600000) readied).frameBody .control = some (.cardWrite 5 1 600000)
      ∧ readied.supply.held = false ∧ readied.xchg.stack = []
      ∧ [rd (readied.onXchg fun x => { x with stack := [cardRec false] }) 5 1, rd live 5 1, rd readied 5 0, rd readied 5 129,
         rd readied 99873 128, wrt readied 1152 129, wrt readied 1279 2, wrt readied 2559 1]
        = [(3, 15), (3, 11), (3, 2), (3, 2), (3, 18), (3, 2), (3, 19), (3, 19)]
      ∧ (s.card.raw.map fun r => (r.isWrite, r.inFlight), s.card.state, answered s) = (some (false, true), .writing, (0, 0))
      ∧ (answered t, memByte t.xchg.mem 600003, t.card.raw) = ((2, 0), 9, none)
      ∧ answered (nextOf (.rawReadComplete calm false []) s) = (2, 65556)
      ∧ u.card.raw.map (fun r => (r.isWrite, r.ready)) = some (true, false)
      ∧ (nextOf (.rawBufferReadComplete calm) u).card.raw.map (·.ready) = some true
      ∧ (nextOf (.rawBufferReadComplete { calm with badReads := [{ first := 665535, length := 1 }] }) u).xchg.laneState .control = .held := by
  decide +kernel

/-- Hypotheses of GraceAndDrain: a grace at its end and before it, with a LIVE record and without, a drain and none. -/
theorem witness_grace :
    let s := (cutting.onXchg fun x => { x with stack := [cardRec true] }).onCard fun c => { c with grace := some 2000000, state := .ready }
    let t := nextOf (.graceExpiry (after 2000000)) s
    s.supply.held = false ∧ s.card.grace = some 2000000 ∧ s.xchg.liveRecord = true ∧ live.xchg.liveRecord = false
      ∧ timeReached (s.arrive (after 1999999)).time 2000000 = false ∧ timeReached (s.arrive (after 2000000)).time 2000000 = true
      ∧ s.xchg.anchor.isSome = true ∧ memWf s.xchg.mem = true
      ∧ (t.xchg.liveRecord, t.xchg.depth, t.xchg.laneState .chunk, memNat t.xchg.mem (262144 - 96 + 3) 1) = (false, 96, .idle, 1)
      ∧ live.card.draining = false
      ∧ (nextOf (.drainEnd calm) { live with card := { cardIn .present with draining := true, attaching := true } }).card.attachStart = some 0 := by
  decide +kernel

/-- Hypotheses of GraceAndDrain, a list with a tail first and a pack after it, and the release of the CHUNK lane with a frame to take
again and with none. -/
theorem witness_grace_settles :
    let tail : Entry := { packEntry 0 40960 7 true with source := .tail, count := 1 }
    let s := ((cutting.onXchg fun x => { x with stack := [cardRec true] }).onCard fun c =>
      { c with grace := some 2000000, state := .ready, list := [tail, packEntry 1 40576 7 false] }).onWriter fun w => { w with tail := { w.tail with st := .writing } }
    let t := (s.arrive (after 2000000)).graceEnds
    let rel (r : Option Nat) (l : List FaultRec) := (live.onXchg fun x => { x with stack := l, chunk := { x.chunk with retake := r } }).xchg
    (t.card.list.map fun e => (e.source, e.begun, e.awaiting, e.settling)) = [(.tail, false, true, true)]
      ∧ (t.store.matters, (t.store.seg 7).map (·.unwritten), (t.writer.bufs.get 1).st) = ([.replace .tail true true], some 1, .empty)
      ∧ (t.writer.state, t.writer.tailBy, t.card.grace, t.xchg.liveRecord) = (.closing, .settlement, none, false)
      ∧ ((rel none []).holds .chunk, (rel none [cardRec true]).holds .chunk, (rel (some 8320) []).chunk.retake, (rel none []).state)
        = (false, true, some 8320, .running) := by decide +kernel

/-- Hypotheses of GraceAndDrain, the arbiter: an entry, one that awaits its block, none; a ready raw write and one not ready; the list
full for a raw write and for a raw read; no buffer EMPTY with an entry and without; a drain, a LIVE record, a card not READY; and the
entries ended by the card's absence. -/
theorem witness_arbiter :
    let idle : State := readied.onCard fun c => { c with list := [packEntry 0 1280 7 false] }
    let raw (write ready : Bool) (s : State) : State := s.onCard fun c => { c with raw := some (rawJob write false ready) }
    let full : State := idle.onCard fun c => { c with list := [packEntry 0 1280 7 false, packEntry 1 1408 7 false, packEntry 2 1536 7 false] }
    let crowdedOut (s : State) : State := s.onWriter fun w => { w with bufs := .all (bufAt .queued 0 65536) }
    let none_ (s : State) : State := s.onCard fun c => { c with list := [] }
    let begins (s : State) := (s.arbitrate emit).map fun t => (t.card.list.any (·.begun), t.card.rawFlying, t.events.map Event.number)
    let gone (st : CardState) (s : State) := ((s.onCard fun c => { c with state := st }).endUnbegun emit).map fun t => t.xchg.depth
    let draining : State := idle.onCard fun c => { c with draining := true }
    [begins idle, begins (idle.onCard fun c => { c with list := c.list.map fun e => { e with awaiting := true } }), begins (none_ idle)]
        = [some (true, false, [0x0406]), none, none]
      ∧ [raw true true idle, raw true false idle, raw true true full, raw false true full, raw false true (crowdedOut idle), raw true true (none_ (crowdedOut idle))].map begins
        = [some (false, true, [0x0406]), some (true, false, [0x0406]), some (true, false, [0x0406]), some (false, true, []),
           some (true, false, [0x0406]), some (false, true, [0x0406])]
      ∧ [draining, idle.onXchg fun x => { x with stack := [cardRec true] }, idle.onCard fun c => { c with state := .busy }].map begins = [none, none, none]
      ∧ [gone .absent idle, gone .present idle, gone .failed idle, gone .ready idle, gone .absent (none_ idle), gone .absent draining]
        = [some 96, some 96, some 96, none, none, none] := by decide +kernel

/-- The card port with an attach that waits for a transfer to drain, its frame in hand. -/
def attachDrains : State :=
  nextOf (.cardAttach calm) (given .control .cardAttach
    { slot { cardIn .present with draining := true, drainSource := some .tail } false 0 with
      writer := { Writer.reset with tail := { Writer.reset.tail with st := .writing } } })

/-- Hypotheses of CardAttachAndDetection and GraceAndDrain: the frame that waits, the drain's end with it and without it, the card
taken away with it and without it, an answer at the limit and one microsecond after it, a removal in WRITING and BUSY. -/
theorem witness_attach_drains :
    let h := attachDrains.xchg.hand .control
    let t := nextOf (.drainEnd calm) attachDrains
    let u := nextOf (.cardDetectChange (after 10000)) attachDrains
    let c : Card := { cardIn .present with attaching := true, attachStart := some 0 }
    let answer (t : Nat) := (nextOf (.attachComplete (after t) 128 true) { live with card := c }).card
    let pulled (st : CardState) := (nextOf (.cardDetectChange (after 10000)) { slot (cardIn .present) false 0 with
      card := { cutting.card with state := st }, writer := cutting.writer, store := cutting.store })
    (attachDrains.card.attaching, attachDrains.card.attachStart, h.map fun f => (f.started, f.body)) = (true, none, some (true, .cardAttach))
      ∧ (t.card.draining, t.card.attachStart, t.writer.tail.st, answered t) = (false, some 0, .empty, (2, 0))
      ∧ (u.card.state, u.card.attachResult, answered u) = (.absent, .removed, (2, 0))
      ∧ (slot c false 0).xchg.hand .control = none ∧ attachDrains.supply.held = false
      ∧ [(answer 1000000).state, (answer 1000001).state] = [.ready, .failed] ∧ (answer 1000001).attachResult = .noAnswer
      ∧ [pulled .writing, pulled .busy].map (fun s => (s.card.state, s.card.removals, s.xchg.depth, s.writer.state))
        = [(.absent, 1, 96, .closing), (.absent, 1, 96, .closing)] := by decide +kernel

/-- Hypotheses of CardWritesEnd: an answer at the end of the 500 ms and one microsecond after it. -/
theorem witness_late_answer :
    let ends (i : Instr) : Word × Word × Word := ((nextOf i cutting).card.accepted, (nextOf i cutting).card.writeErrors, (nextOf i cutting).card.timeouts)
    timeLater (cutting.arrive (after 500000)).time 500000 = false ∧ timeLater (cutting.arrive (after 500001)).time 500000 = true
      ∧ [ends (.cardWriteAccepted (after 500000)), ends (.cardWriteError (after 500000)), ends (.cardWriteAccepted (after 500001)),
         ends (.cardWriteError (after 500001))] = [(1, 0, 0), (0, 1, 0), (0, 0, 1), (0, 0, 1)] := by decide +kernel

/-- A raw write in flight, the card BUSY since time 0. -/
def rawBusy : State :=
  nextOf (.cardProgramming calm) (nextOf (.rawBufferReadComplete calm) (nextOf (.cardWrite calm) (given .control (.cardWrite 5 1 600000) readied)))

/-- Hypotheses of RawTransfers, the end of a raw write in time. -/
theorem witness_raw_write_end :
    (rawBusy.card.raw.map fun r => (r.isWrite, r.inFlight), rawBusy.card.state, rawBusy.card.busySince) = (some (true, true), .busy, some 0)
      ∧ rawBusy.supply.held = false ∧ timeLater (rawBusy.arrive (after 500000)).time 500000 = false
      ∧ [nextOf (.cardWriteAccepted (after 500000)) rawBusy, nextOf (.cardWriteError calm) rawBusy].map (fun s =>
          (answered s, s.card.writeErrors, s.events.map Event.number)) = [((2, 0), 0, [0x0407]), ((2, 65556), 1, [0x0407])] := by
  decide +kernel

/-! ## Witnesses: storage map -/

/-- Hypotheses of ExtentAndProtectFrames: each check at its boundary, the pool with 63 and 64 extents. -/
theorem witness_extent_add :
    let pool (n : Nat) : State := { live with store := { Store.reset with pool := (List.range n).map fun k => { first := 256 * k, count := 128 } } }
    let go (s : State) (f c : Nat) := answered (nextOf (.extentAdd calm) (given .control (.extentAdd f c) s))
    (given .control (.extentAdd 128 128) (pool 63)).frameBody .control = some (.extentAdd 128 128) ∧ live.supply.held = false
      ∧ [go live 64 128, go live 128 0, go live 128 64, go live 4294967168 256, go live 4294967168 128, go readied 99840 256,
         go (pool 63) 0 256, go (pool 63) 128 128, go (pool 64) 128 128]
        = [(3, 23), (3, 23), (3, 23), (3, 18), (2, 65536), (3, 18), (3, 19), (2, 4194304), (3, 24)] := by decide +kernel

/-- Hypotheses of ExtentAndProtectFrames: the free packs reach the watermark, or do not, by the extent added (R152). -/
theorem witness_rearm :
    let go (watermark : Nat) := (nextOf (.extentAdd calm) (given .control (.extentAdd 0 256)
      (readied.onStore fun st => { st with lowArmed := false, loops := { st.loops with watermark } }))).store.lowArmed
    ([go 12, go 13], readied.store.pool.length) = ([true, false], 1) := by decide +kernel

/-- Hypotheses of ExtentAndProtectFrames: an extent of the pool, of a segment, of none; the serials and the count at its cap. -/
theorem witness_protect :
    let s : State := { live with store := { crowded with pool := [{ first := 0, count := 128 }] } }
    let full : State := s.onStore fun st => { st with table := st.table.map fun g => if g.serial.toNat < 48 then { g with owner := some .host } else g }
    let wd (f : Nat) := answered (nextOf (.extentWithdraw calm) (given .control (.extentWithdraw f) s))
    let pr (t : State) (n : Word) (k : Nat) := answered (nextOf (.protect calm) (given .control (.protect n k) t))
    (given .control (.extentWithdraw 0) s).frameBody .control = some (.extentWithdraw 0)
      ∧ (given .control (.protect 48 0) s).frameBody .control = some (.protect 48 0) ∧ s.supply.held = false
      ∧ [wd 0, wd 51200, wd 128] = [(2, 0), (3, 1), (3, 25)]
      ∧ (s.store.protectedCount, full.store.protectedCount) = (2, 8)
      ∧ [pr s 48 0, pr s 40 0, pr s 40 1, pr s 48 1, pr s 48 2, pr s 99 0, pr full 48 0, pr full 40 0]
        = [(2, 196608), (2, 131072), (2, 65536), (2, 131072), (3, 2), (3, 25), (3, 26), (2, 524288)] := by decide +kernel

/-- An extent of that many packs. -/
def packsAt (k n : Nat) : Extent := { first := 12800 * k, count := 128 * n }

/-- A pool of that many extents of two packs. -/
def poolOf (n : Nat) : List Extent := (List.range n).map fun k => packsAt (100 + k) 2

/-- The report queue with eight reports. -/
def jammed (st : Store) : Store :=
  { st with queue := List.replicate 8 { time := 0, body := .storageLow 1 2 } }

/-- One open segment, serial 60, in its extents. -/
def openIn (exts : List Extent) (next : Option Nat) (pool : List Extent) : Store :=
  { Store.reset with table := [{ segAt 60 .opened none with exts, next, used := 1 }], pool, nextSerial := 61 }

/-- What segment work answered: moved, blocked, or the answer. -/
def replied {α : Type} : Reply α → Option (Option α)
  | .blocked => none
  | .moved _ => some none
  | .answer _ a => some (some a)

/-- The map after segment work. -/
def afterReply {α : Type} (st : Store) : Reply α → Store
  | .blocked => st
  | .moved u => u
  | .answer u _ => u

/-- Hypotheses of SegmentsOpenAndTakePositions: a release in loop mode, without room in the pool or the queue, and none to be had;
an opening with a full table, an empty pool, a full queue, and one that completes; each answer to a position request. -/
theorem witness_segments_open :
    let l : Store := { crowded with pool := [] }
    let release (st : Store) := replied (st.release 0)
    let opens (st : Store) := replied (st.openSegment 5 60 1 3)
    let next (exts : List Extent) (n : Option Nat) (pool : List Extent) (forTail : Bool) :=
      replied ((openIn exts n pool).nextPack 0 forTail 60)
    let ones (n : Nat) := (List.range n).map fun k => packsAt k 1
    (l.loops.loop = true ∧ (l.table.find? fun g => g.phase == .complete && g.owner.isNone).map (·.serial) = some 42)
      ∧ [release l, release { l with pool := poolOf 63 }, release { l with pool := poolOf 64 }, release (jammed l), release (openIn [] none [])]
        = [some none, some none, some (some ()), none, some (some ())]
      ∧ (afterReply l (l.release 0)).pool = [{ first := 1280 * 42, count := 1280 }]
      ∧ [opens { crowded with table := (List.range 16).map fun k => segAt k .complete none }, opens l, opens (openIn [] none []),
         opens (jammed (openIn [] none (poolOf 1))), opens (openIn [] none (poolOf 1))]
        = [some none, some none, some (some none), none, some (some (some 1280000))]
      ∧ ((afterReply Store.reset ((openIn [] none (poolOf 1)).openSegment 5 60 1 3)).table.map fun g => (g.index, g.next)).getLast? = some (3, some 1280128)
      ∧ [next (ones 8) none [] false, next (ones 7) none [packsAt 9 1] false, next (ones 7) none [packsAt 9 2] false,
         next (ones 8) none [] true, next [packsAt 1 3] (some 12928) [] false, next (ones 1) none (poolOf 1) false, next (ones 1) none [] false]
        = [some (some .extentsFull), some (some .extentsFull), some (some (.position 115200)), some (some .none),
           some (some (.position 12928)), some (some (.position 1280000)), some (some .none)]
      ∧ replied (l.nextPack 0 false 52) = some none := by decide +kernel

/-- Hypotheses of SegmentsCloseCompleteAndLoseExtents: a close with packs left to split or none, with the pool full, with eight
extents used up. -/
theorem witness_segments_close :
    let one := openIn [packsAt 1 3] (some 12928) (poolOf 1)
    let closed (st : Store) : Option (Option (Option Nat)) × Nat :=
      (replied (st.closeSegment 0 60 false), (afterReply st (st.closeSegment 0 60 false)).pool.length)
    (one.seg 60).isSome = true
      ∧ [closed one, closed { one with pool := poolOf 64 }, closed (openIn [packsAt 1 3] (some 13056) (poolOf 1)),
         closed (openIn ((List.range 8).map fun k => packsAt k 1) none [])]
        = [(some (some (some 12928)), 2), (some (some (some 12928)), 64), (some (some (some 13056)), 1), (some (some none), 0)]
      ∧ ((afterReply one (one.closeSegment 0 60 false)).seg 60).map (·.tail) = some (.pending 12928) := by decide +kernel

/-- Hypotheses of SegmentsCloseCompleteAndLoseExtents, a last extent used up: the pool's head extent with packs to split and without,
with the pool full after it; an empty pool without a release, with one made, and with one that waits (R148). -/
theorem witness_segments_close_empty :
    let on (pool : List Extent) := openIn [packsAt 1 1] none pool
    let shut (st : Store) := let u := st.closeSegment 0 60 false; (replied u, (afterReply st u).pool.length, ((afterReply st u).seg 60).map (·.exts))
    let ready : Store := { on [] with table := (on []).table ++ [segAt 42 .complete none], loops := { crowded.loops with loop := true } }
    [shut (on (poolOf 1)), shut (on [packsAt 9 1]), shut (on (poolOf 65)), shut (on [])]
        = [(some (some (some 1280000)), 1, some [packsAt 1 1, packsAt 100 1]), (some (some (some 115200)), 0, some [packsAt 1 1, packsAt 9 1]),
           (some (some (some 1280000)), 64, some [packsAt 1 1, packsAt 100 2]), (some (some none), 0, some [packsAt 1 1])]
      ∧ [replied (ready.closeSegment 0 60 false), replied ((jammed ready).closeSegment 0 60 false)] = [some none, none] := by
  decide +kernel

/-- Hypotheses of SegmentsCloseCompleteAndLoseExtents, its other parts: a completion with room and without, in loop mode and not;
a removal in the last extent and in one before it; a FILLING buffer inside the range and outside. -/
theorem witness_segments_end :
    let one := openIn [packsAt 1 3] (some 12928) (poolOf 1)
    let ends (loop : Bool) (st : Store) : Store := { st with table := st.table.map fun g => { g with loop, phase := .ending } }
    let done (st : Store) : Option (List SegPhase) :=
      (replied (st.completeSegment 0 60)).map fun _ => ((afterReply st (st.completeSegment 0 60)).leaveTable 60).table.map (·.phase)
    let two := openIn [packsAt 1 3, packsAt 2 3] (some 25728) []
    let lost (block : Nat) : Option (List Extent × Option Nat) :=
      ((afterReply two (two.removeRange 0 60 block)).seg 60).map fun g => (g.exts, g.next)
    [done (ends true one), done (ends false one), done (jammed (ends true one))] = [some [.complete], some [], none]
      ∧ [lost 25601, lost 12929] = [some ([packsAt 1 3], none), some ([packsAt 1 1, packsAt 2 3], some 25728)]
      ∧ (replied ((jammed one).removeRange 0 60 12800)).isNone = true
      ∧ ((cutting.removed 40704 (some (40704, 128))).writer.bufs.a2.pos, (cutting.removed 40832 (some (40832, 128))).writer.bufs.a2.pos)
        = (none, some 40704) := by decide +kernel

/-- Hypotheses of IncidentsAreListedAndProtect: a segment being opened, an open one, none; the loop flag set and clear; a window
with an older incident's segment, one of HOST, and too many; a segment entering with no owner, under the cap, and at it. -/
theorem witness_incidents :
    let i : Incident := { time := 995000000, peak := 20000, source := 0x0300 }
    let opens : Store := { crowded with matters := [.opening 53 1 3] }
    let noneOpen : Store := { crowded with table := crowded.table.dropLast }
    let host : Store := { crowded with table := crowded.table.map fun g => if g.serial = 47 then { g with owner := some .host } else g }
    let p := host.protectWindow 4 995000000
    let at_ (st : Store) : Store := { st with protectUntil := some 1015000000, untilOwner := some 4 }
    let all (n : Word) : Store := at_ { crowded with table := crowded.table.map fun g => { g with owner := some (.incident n) } }
    (opens.opening, crowded.opening, crowded.openSeg.map (·.serial), noneOpen.openSeg) = (some 53, none, some 52, none)
      ∧ [(opens.listIncident 4 i).2, (crowded.listIncident 4 i).2, (noneOpen.listIncident 4 i).2] = [53, 52, 0]
      ∧ (crowded.loops.loop, ({ crowded with loops := { crowded.loops with loop := false } } : Store).loops.loop) = (true, false)
      ∧ (host.table.map (·.serial)).Nodup ∧ host.protectedCount = 3
      ∧ (guarded p.1, (p.1.seg 47).map (·.owner), p.1.protectedCount, p.2) =
          ([(41, 3), (46, 4), (48, 4), (49, 4), (50, 4), (51, 4), (52, 4)], some (some .host), 8, 6, false)
      ∧ ((at_ crowded).entryProtection 1000000000).1 = some (.incident 4) ∧ (crowded.entryProtection 1000000000).1 = none
      ∧ ((all 4).protectWindow 4 995000000).2 = (0, false) ∧ ((at_ crowded).protectWindow 4 5000000).2 = (8, true)
      ∧ ((all 4).entryProtection 0).1 = none ∧ ((all 4).entryProtection 0).2.2 = true
      ∧ ((all 3).entryProtection 0).1 = some (.incident 4) ∧ (all 3).protectedCount = 13 := by decide +kernel

/-- Recording with one matter of segment work over a map. -/
def working (m : Matter) (f : Store → Store) : State := cutting.onStore fun st => f { st with matters := [m] }

/-- What segment work made of that matter: the matters and the waiting places left, and the events; nothing when it waits. -/
def workOf (m : Matter) (f : Store → Store) : List Nat :=
  match (working m f).matterStep with
  | some t => t.store.matters.length :: t.store.waiting.length :: t.events.map fun e => e.number.toNat
  | none => []

/-- The maps of the witness below: in loop mode with a segment to release, with a pool, with the open segment's extents used up. -/
def looping (st : Store) : Store :=
  { st with loops := { st.loops with loop := true }, table := segAt 3 .complete none :: st.table }
def pooled (st : Store) : Store := { st with pool := poolOf 1 }
def spent (n : Nat) (st : Store) : Store :=
  { st with table := st.table.map fun g => { g with next := none, exts := (List.range n).map fun k => packsAt k 1 } }

/-- Hypotheses of SegmentWorkReportsAndLevels, segment work: each matter blocked, moved and answered in each way. -/
theorem witness_segment_work :
    (cutting.writer.filling, cutting.writer.seg.map (·.serial)) = (some 2, some 7)
      ∧ [jammed ∘ pooled, looping, pooled, id].map (workOf (.opening 8 1 3))
        = [[1, 1], [1, 0], [0, 0, 0x0400], [0, 0, 0x0404]]
      ∧ [jammed ∘ looping ∘ spent 1, looping ∘ spent 1, id, spent 8, spent 1].map (workOf (.position 3))
        = [[1, 1], [1, 0], [0, 0], [0, 0], [0, 0, 0x0404]]
      ∧ [jammed, id, fun st => { jammed st with waiting := [.segmentWork] }].map (workOf (.closed 7))
        = [[1, 1], [0, 0, 0x0401], []] := by decide +kernel

/-- The part after segment work on one matter, in a changed recording. -/
def matterAt (m : Matter) (f : State → State) : Option State := ((f cutting).onStore fun st => { st with matters := [m] }).matterStep

/-- Hypotheses of SegmentWorkReportsAndLevels, a segment's close: for a cut and for a close, with and without a tail, moved and blocked;
and the segment that leaves the table after its event (R149). -/
theorem witness_close_matter :
    let cut (s : State) : State := s.onWriter fun w => { w with cut := (some { reason := .time, stage := .waitClose, outer := none }) }
    let closes (s : State) : State := s.onWriter fun w => { w with state := .closing, closing := .waitTail }
    let spare : State → State := fun s => s.onStore (looping ∘ spent 1)
    let all := [matterAt (.closing true false) cut, matterAt (.closing false false) closes, matterAt (.closing false true) closes,
      matterAt (.closing true false) (cut ∘ spare), matterAt (.closing true false) (cut ∘ (fun s => s.onStore jammed) ∘ spare)]
    let stages := all.filterMap id |>.map fun t => (t.writer.closing, t.writer.cut.map (·.stage))
    let ended := matterAt (.closed 7) id
    stages = [(.drain, some .handTail), (.handTail, none), (.finish, none), (.drain, some .waitClose), (.drain, some .waitClose)]
      ∧ (all.filterMap id |>.map fun t => t.writer.tail.st) = [.built, .built, .empty, .empty, .empty]
      ∧ (all.filterMap id |>.map fun t => (t.store.matters.length, t.store.waiting.length)) = [(0, 0), (0, 0), (0, 0), (1, 0), (1, 1)]
      ∧ (ended.map fun t => t.store.table.length) = some 0 ∧ (ended.map fun t => t.events.map Event.number) = some [0x0401] := by decide +kernel

/-- Hypotheses of SegmentWorkReportsAndLevels, a removal: asked and not, of a range that holds the FILLING buffer's block and of one that
begins behind it, where no extent holds the block, and with no report room. -/
theorem witness_removal_matter :
    let all := [matterAt (.removal 7 40704 true) id, matterAt (.removal 7 40704 false) id, matterAt (.removal 7 40832 false) id,
      matterAt (.removal 7 9 true) id, matterAt (.removal 7 40448 true) (fun s => s.onStore jammed)]
    let left := all.filterMap id |>.map fun t => ((t.store.seg 7).map (·.exts)).getD []
    let ext (n : Nat) : List Extent := [{ first := 40448, count := n }]
    left = [ext 256, ext 256, ext 384, ext 1280, ext 1280]
      ∧ (all.filterMap id |>.map fun t => t.store.matters) = [[.replaceFilling 2], [.replaceFilling 2], [], [], [.removal 7 40448 true]]
      ∧ (all.filterMap id |>.map fun t => t.writer.bufs.a2.pos) = [none, none, some 40704, some 40704, some 40704]
      ∧ (all.filterMap id |>.map fun t => t.store.queue.length) = [1, 1, 1, 0, 8] := by decide +kernel

/-- Hypotheses of SegmentWorkReportsAndLevels, a pack's re-placement: placed, an entry that is gone, no position for a settled entry and
for a resumed one, no extent left, moved and blocked. -/
theorem witness_pack_replaced :
    let on (f : Store → Store) (s : State) : State := s.onStore f
    let waits (f : Store → Store) : State → State := on (f ∘ looping ∘ spent 1)
    let pack := Matter.replace (.buf 1) false false
    let all := [matterAt pack id, matterAt (.replace (.buf 3) false false) id, matterAt (.replace (.buf 1) true false) (on (spent 1)),
      matterAt pack (on (spent 1)), matterAt pack (on (spent 8)), matterAt pack (waits id), matterAt pack (waits jammed)]
    (all.filterMap id |>.map fun t => t.card.list.map (·.block))
        = [[40448, 40832], [40448, 40576], [40448], [40448, 40576], [40448, 40576], [40448, 40576], [40448, 40576]]
      ∧ (all.filterMap id |>.map fun t => t.writer.bufs.a1.pos)
        = [some 40832, some 40576, none, some 40576, some 40576, some 40576, some 40576]
      ∧ (all.filterMap id |>.map fun t => (t.writer.state, t.store.matters.length))
        = [(.opened, 0), (.opened, 0), (.opened, 0), (.closing, 0), (.closing, 0), (.opened, 1), (.opened, 1)]
      ∧ (all.filterMap id |>.map fun t => t.events.map Event.number) = [[], [], [], [0x0404], [], [], []] := by decide +kernel

/-- Hypotheses of SegmentWorkReportsAndLevels, a tail's re-placement: placed; without a position for a settled one, for a resumed one
that is the first entry, and for one that is not; and the FILLING buffer's, in each way. -/
theorem witness_tail_replaced :
    let tail : Entry := { packEntry 0 40960 7 false with source := .tail, count := 1, resumed := true }
    let tailed (s : State) : State := s.onCard fun c => { c with list := tail :: c.list.map fun e => { e with resumed := true } }
    let on (f : Store → Store) (s : State) : State := s.onStore f
    let waits (f : Store → Store) : State → State := on (f ∘ looping ∘ spent 1)
    let tails := [matterAt (.replace .tail true true) tailed, matterAt (.replace .tail true true) (tailed ∘ on (spent 1)),
      matterAt (.replace .tail false true) (tailed ∘ on (spent 1)), matterAt (.replace .tail false false) (tailed ∘ on (spent 1))]
    let fills := [id, on (spent 1), on (spent 8), waits id, waits jammed].map (matterAt (.replaceFilling 2))
    (tails.filterMap id |>.map fun t => t.card.list.map (·.block)) = [[40832, 40448, 40576], [40448, 40576], [40960], [40960]]
      ∧ (tails.filterMap id |>.map fun t => t.card.list.any (·.awaiting)) = [false, false, true, false]
      ∧ (tails.filterMap id |>.map fun t => t.store.matters) = [[], [], [.replace .tail true true], []]
      ∧ (tails.filterMap id |>.map fun t => (t.store.seg 7).map (·.tail)) = [some (.pending 40832), some .missing, some .noneYet, some .noneYet]
      ∧ (tails.filterMap id |>.map fun t => (t.store.seg 7).map (·.unwritten)) = [some 0, some 0, some 2, some 2]
      ∧ (fills.filterMap id |>.map fun t => t.writer.bufs.a2.pos) = [some 40832, none, none, some 40704, some 40704]
      ∧ (fills.filterMap id |>.map fun t => (t.writer.state, t.store.matters.length))
        = [(.opened, 0), (.closing, 0), (.closing, 0), (.opened, 1), (.opened, 1)] := by decide +kernel

/-- Hypotheses of SegmentWorkReportsAndLevels, the waiting places, the ring and the levels. -/
theorem witness_reports :
    let st : Store := Store.reset
    let low : Report := { time := 0, body := .storageLow 1 2 }
    let full : ReportBody := .storageFull 1 2
    let w (l : List Waiting) : Store := { jammed st with waiting := l }
    let sizes (s : Store) := (s.queue.length, s.waiting.map Waiting.isLow, s.lost)
    let one (copy : Word) : State := { live with xchg := { liveExchange with readCopy := some copy, writeCount := 16 }, store := { st with queue := [low] } }
    let level (armed : Bool) (watermark : Nat) : State := { live with store := { st with
      pool := poolOf 1, lowArmed := armed, loops := { st.loops with watermark } } }
    [sizes (st.offer 0 .level full), sizes ((w []).offer 0 .level full), sizes ((w [.held .level low]).offer 0 .charger full),
     sizes ((w [.held .level low]).offer 0 .level low.body), sizes ((w [.held .clip low, .held .level { low with body := full }]).offer 0 .clip low.body),
     sizes ((w [.segmentWork, .held .level low]).offer 0 .level full)]
        = [(1, [], 0), (8, [false], 0), (8, [true, false], 0), (8, [true], 1), (8, [true, false], 1), (8, [false, false], 0)]
      ∧ [({ live with store := { st with waiting := [.held .level low] } } : State), { live with store := w [.held .level low] },
         { live with store := { st with waiting := [.segmentWork] } }].map (fun s => s.joinStep.isSome) = [true, false, false]
      ∧ [one 0, one 1, { one 1 with store := st }, { one 1 with xchg := (xAt .stopped).xchg }].map (fun s => s.reportStep.isSome)
        = [false, true, false, false]
      ∧ (((one 1).reportStep.map fun t => (t.store.queue, t.xchg.writeCount, memNat t.xchg.mem 4240 4)) = some ([], 17, 17))
      ∧ [level true 3, level true 2, level false 3].map (fun s => s.levelStep.map fun t => t.store.lowArmed) = [some false, none, none]
      ∧ (level true 3).store.freePacks = 2 := by decide +kernel

/-! ## Witnesses: charger and supply manager -/

/-- A measurement at given voltages, 25 degrees, die at 40. -/
def volts (vbat vin : Nat) : Measurement :=
  { vbat := BitVec.ofNat 16 vbat, ibat := 0, vin := BitVec.ofNat 16 vin, iin := 0, temp := 250, die := 400 }

/-- The part with a charger. -/
def charging (c : Charger) : State := { live with charger := c }

/-- Hypotheses of ChargerFramesAreTaken, with a clear flag in FAULT, and a load class equal to and differing from the one in effect. -/
theorem witness_charger_frames :
    let f : Charger := { fastAt 500 5000 3800 with state := .fault .timer }
    let setup (b : Bool) := given .control (.chargeSetup Profile.default b) (charging f)
    let lim := given .control (.inputLimit 3001) (charging { fastAt 1500 5000 3800 with droop := 1500 })
    let cls (n : Nat) := given .control (.loadClass n) live
    (setup true).supply.held = false ∧ (setup true).frameBody .control = some (.chargeSetup Profile.default true)
      ∧ f.state.faulted = true ∧ lim.frameBody .control = some (.inputLimit 3001) ∧ (cls 4).frameBody .control = some (.loadClass 4)
      ∧ (min 0 3 = live.supply.loadClass ∧ min 4 3 ≠ live.supply.loadClass)
      ∧ [answered (nextOf (.chargeSetup calm) (setup true)), answered (nextOf (.chargeSetup calm) (setup false)),
         answered (nextOf (.inputLimit calm) lim), answered (nextOf (.loadClass calm) (cls 4))]
        = [(2, 27), (2, 0), (2, 196608000), (2, 0)]
      ∧ (nextOf (.chargeSetup calm) (setup true)).charger.state = .fast
      ∧ (nextOf (.loadClass calm) (cls 4)).supply.loadClass = 3 := by decide +kernel

/-- Hypotheses of ChargerFramesAreTaken, a fault clear into a phase and into PAUSED: timers and hold cleared, one event each (R166). -/
theorem witness_fault_clear :
    let f : Charger := { fastAt 1500 5000 3800 with state := .fault .timer, fastUs := 9, prechargeUs := 8, hold := true }
    let w (c : Charger) := c.work.setup Profile.default true (around 0 false)
    f.state.faulted = true ∧ ({ f with hold := false }.pauseCondition .normal, { f with hostPause := true }.pauseCondition .normal) = (none, some .host)
      ∧ (w f).c.state = .fast ∧ [(w f).c.fastUs, (w f).c.prechargeUs] = [0, 0] ∧ (w f).c.hold = false
      ∧ (w { f with hostPause := true }).c.state = .paused .host
      ∧ [w f, w { f with hostPause := true }].map (fun v => v.events.map fun e => [e.1.toNat, e.2.toNat]) = [[[0x0504, 3]], [[0x0503, 0]]]
      ∧ ((f.work.setup Profile.default false (around 0 false)).c.state, (fastAt 500 5000 3800).state.faulted) = (.fault .timer, false) := by
  decide +kernel

/-- Hypotheses of MeasurementAndInputDetection: the due time and before it, a fresh charger and another, and the levels of Vin at
each boundary in ABSENT, QUALIFY and an attached state. -/
theorem witness_measurement :
    let at_ (st : ChState) (vin : Nat) := ({ fastAt 500 vin 3800 with state := st } : Charger).work.detect .normal
    (live.supply.held, live.charger.fresh, (fastAt 500 5000 3800).fresh, live.charger.nextMeasure) = (false, true, false, 10000)
      ∧ timeReached (live.arrive (after 9999)).time 10000 = false ∧ timeReached (live.arrive (after 10000)).time 10000 = true
      ∧ [(at_ .absent 3999).1.c.state, (at_ .absent 4000).1.c.state, (at_ (.qualify 3) 3999).1.c.state, (at_ (.qualify 3) 4000).1.c.state,
         (at_ (.qualify 3) 4299).1.c.state, (at_ (.qualify 8) 4300).1.c.state, (at_ (.qualify 9) 4300).1.c.state, (at_ .fast 3999).1.c.state,
         (at_ .fast 4000).1.c.state]
        = [.absent, .qualify 0, .absent, .qualify 0, .qualify 0, .qualify 9, .fast, .absent, .fast]
      ∧ (ChState.fast.attached, (at_ .fast 3999).2, (at_ (.qualify 9) 4300).2) = (true, .lost, .attach)
      ∧ (nextOf (.measurement (after 10000) (volts 3800 0)) live).charger.nextMeasure = 20000 := by decide +kernel

/-- Hypotheses of PeriodicEvaluationAndSafetyTimers: the due time and before it, a timer at its limit and one microsecond before. -/
theorem witness_evaluation :
    let p : Charger := { fastAt 500 5000 2500 with state := .precharge, prechargeUs := 1799999999 }
    let f : Charger := { fastAt 500 5000 3800 with fastUs := 17999999999 }
    live.supply.held = false ∧ live.charger.nextEval = 100000
      ∧ timeReached (live.arrive (after 99999)).time 100000 = false ∧ timeReached (live.arrive (after 100000)).time 100000 = true
      ∧ (nextOf (.periodicEvaluation (after 100000)) live).charger.nextEval = 200000
      ∧ [(nextOf (.safetyTimerLimit (after 0)) (charging p)).charger.state, (nextOf (.safetyTimerLimit (after 1)) (charging p)).charger.state,
         (nextOf (.safetyTimerLimit (after 0)) (charging f)).charger.state, (nextOf (.safetyTimerLimit (after 1)) (charging f)).charger.state]
        = [.precharge, .fault .timer, .fast, .fault .timer]
      ∧ [-1, 0, 19, 20, 99, 100, 119, 120, 429, 430, 449, 450, 529, 530, 549, 550].map (moveBand .cold)
        = [.cold, .cold, .cold, .cool, .cool, .cool, .cool, .normal, .normal, .normal, .normal, .warm, .warm, .warm, .warm, .hot] := by
  decide +kernel

/-- Hypotheses of DrivenTargetIsBounded: both evaluations of a charger in FAST. -/
theorem witness_driven :
    ((fastAt 1500 5000 3800).work.prompt (around 0 false)).c.driven = 1000
      ∧ ((fastAt 1500 5000 3800).work.periodic (around 0 false)).c.driven = 1000 := by decide +kernel

/-- A charger in a state, its band and the current measured. -/
def chIn (st : ChState) (vbat ibat : Nat) (band : ThermalBand) : Charger :=
  { fastAt 1500 5000 vbat with state := st, band, meas := { (fastAt 1500 5000 vbat).meas with ibat := BitVec.ofNat 16 ibat } }

/-- Hypotheses of ChargerFaultsPausesAndTerminates: the fault tests at their boundaries, the pause conditions one above the other,
the tests in each state, the phases, the recharge at its boundary, and the termination count. -/
theorem witness_charger_states :
    let tempAt (t : Int) : Charger := { chIn .fast 3800 0 .normal with meas := { (chIn .fast 3800 0 .normal).meas with temp := BitVec.ofInt 16 t } }
    let fault (c : Charger) := c.work.faultTests.c.state
    let every : Charger := { chIn .fast 3800 0 .hot with hostPause := true, dieCap := true, hold := true }
    let why (c : Charger) (p : PathMode) := c.pauseCondition p
    let pauses (c : Charger) := let w := c.work.pauseTests .normal; (w.c.state, w.events.map Prod.fst)
    let phase (st : ChState) (vbat : Nat) := ((chIn st vbat 0 .normal).work.phaseStep .normal).c.state
    let taper (term ibat computed : Nat) : Charger :=
      { chIn .taper 4190 ibat .normal with term, terms := { Charger.reset.terms with computed } }
    let ends (c : Charger) := (c.work.termStep.c.state, c.work.termStep.c.term)
    [fault (tempAt (-401)), fault (tempAt (-400)), fault (chIn .fast 4300 0 .normal), fault (chIn .fast 4301 0 .normal), fault (chIn .absent 4301 0 .normal)]
        = [.fault .thermistor, .fast, .fast, .fault .overvolt, .absent]
      ∧ [why every .normal, why { every with hostPause := false } .inputSuspend, why { every with hostPause := false } .normal,
         why { every with hostPause := false, dieCap := false } .normal, why { chIn .fast 3800 0 .cold with hold := true } .normal,
         why { chIn .fast 3800 0 .normal with hold := true } .normal, why (chIn .fast 3800 0 .normal) .normal]
        = [some .host, some .path, some .dieHot, some .hot, some .cold, some .budget, none]
      ∧ [pauses every, pauses { every with state := .paused .cold }, pauses { every with state := .paused .host }, pauses (chIn (.paused .hot) 3800 0 .normal),
         pauses (chIn .fast 3800 0 .normal), pauses (chIn .full 3800 0 .hot)]
        = [(.paused .host, [0x0503]), (.paused .host, [0x0503]), (.paused .host, []), (.fast, [0x0504]), (.fast, []), (.full, [])]
      ∧ [phase .precharge 2999, phase .precharge 3000, phase .fast 4179, phase .fast 4180, phase .full 4100, phase .full 4099, phase .absent 3000]
        = [.precharge, .fast, .fast, .taper, .full, .fast, .absent]
      ∧ ((chIn .full 4099 0 .hot).work.phaseStep .normal).c.state = .paused .hot
      ∧ [ends (taper 8 99 200), ends (taper 9 99 200), ends (taper 9 100 200), ends (taper 9 99 199)]
        = [(.taper, 9), (.full, 0), (.taper, 0), (.taper, 9)] := by decide +kernel

/-- Hypotheses of ChargerFaultsPausesAndTerminates, the budget hold at its thresholds: L is 1,000 in FAST and 100 in PRECHARGE, so the
hold is entered below 100 and left at 150 in FAST and at 100 in PRECHARGE, and cleared where Vbat's phase is TAPER (R171). -/
theorem witness_budget_hold :
    let at_ (st : ChState) (vbat computed limit : Nat) (hold : Bool) :=
      ({ chIn st vbat 0 .normal with hold, terms := { Charger.reset.terms with computed, phaseLimit := limit } } : Charger).holdStep.hold
    let starved := (fastAt 420 5000 3800).work.prompt (around 0 false)
    [at_ .fast 3800 75 1000 false, at_ .fast 3800 100 1000 false, at_ .taper 4190 0 1000 false, at_ .precharge 2900 75 100 false]
        = [true, false, false, true]
      ∧ [at_ (.paused .budget) 3800 125 1000 true, at_ (.paused .budget) 3800 150 1000 true, at_ (.paused .budget) 2900 75 100 true,
         at_ (.paused .budget) 2900 100 100 true, at_ (.paused .budget) 4190 0 1000 true] = [true, false, true, false, false]
      ∧ (starved.c.state, starved.c.hold, starved.c.driven) = (.paused .budget, true, 0) := by decide +kernel

/-- The supply manager's settings with a measurement held. -/
def supplied (u : Supply) (vbat vin : Nat) : State :=
  { live with supply := u, charger := { Charger.reset with meas := volts vbat vin, fresh := false } }

/-- The supply with its input attached, in NORMAL. -/
def plugged : Supply := { Supply.reset .powerOn with present := true, inSw := true }

/-- Hypotheses of PathSetAndSwitches: each check at its boundary, a change confirmed in time and late, and each mode's collapse. -/
theorem witness_path_set :
    let go (u : Supply) (vbat vin code : Nat) := nextOf (.pathSet calm) (given .control (.pathSet code) (supplied u vbat vin))
    let isolated : Supply := { plugged with mode := .batteryIsolate, batSw := false }
    let suspended : Supply := { plugged with mode := .inputSuspend, inSw := false }
    let s := go plugged 3400 4500 1
    (given .control (.pathSet 1) live).frameBody .control = some (.pathSet 1) ∧ live.supply.held = false
      ∧ [answered (go plugged 3800 5000 3), answered (go plugged 3800 5000 0), answered (go plugged 3399 5000 1),
         answered (go isolated 3800 5000 1), answered (go plugged 3800 4499 2), answered (go suspended 3800 5000 2),
         answered (go { suspended with present := false } 3800 0 0)]
        = [(3, 2), (2, 0), (3, 28), (3, 28), (3, 29), (3, 29), (2, 0)]
      ∧ [s.supply.change, (go plugged 3400 4500 2).supply.change, (go isolated 3400 4500 0).supply.change,
         (go suspended 3400 4500 0).supply.change].map (·.map fun c => (c.goal, c.switch, c.deadline))
        = [some (.mode .inputSuspend, .batSw, 2000), some (.mode .batteryIsolate, .inSw, 2000), some (.mode .normal, .batSw, 2000),
           some (.mode .normal, .inSw, 2000)]
      ∧ (timeReached 2000 (s.arrive (after 2000)).time, timeReached 2000 (s.arrive (after 2001)).time) = (true, false)
      ∧ (timeReached (s.arrive (after 1999)).time 2000, timeReached (s.arrive (after 2000)).time 2000) = (false, true)
      ∧ ((nextOf (.switchConfirm (after 2001) .batSw) s).supply.mode, (nextOf (.switchConfirm calm .inSw) s).supply.mode) = (.normal, .normal)
      ∧ [plugged, isolated, suspended].map (fun u =>
          let v := (nextOf (.vinCollapse calm) (supplied u 3800 3999)).supply
          (v.mode, v.inSw, v.batSw, v.present))
        = [(.normal, false, true, false), (.normal, false, true, false), (.inputSuspend, false, true, false)] := by decide +kernel

/-- R183: the comparator in the middle of a sequence ends it, and the frame is DONE with INPUT_LOST and the mode as value. -/
theorem test_collapse_during_change :
    let s := nextOf (.pathSet calm) (given .control (.pathSet 2) (supplied plugged 3800 5000))
    let t := nextOf (.vinCollapse calm) s
    (t.supply.change, t.supply.mode, t.supply.inSw, answered t) = (none, .normal, false, (2, 31)) := by decide +kernel

/-- Hypotheses of PathSetAndSwitches, the ends of a change with its frame in hand: confirmed, timed out and collapsed, and the SUPPLY
flag of the last two and of a collapse in BATTERY_ISOLATE (R181 to R183). -/
theorem witness_path_ends :
    let s := nextOf (.pathSet calm) (given .control (.pathSet 1) (supplied plugged 3800 5000))
    let ends (i : Instr) (s : State) := let t := nextOf i s; (answered t, t.supply.mode, t.xchg.cause &&& causeSupply)
    let isolated : Supply := { plugged with mode := .batteryIsolate, batSw := false }
    (s.xchg.hand .control).map (fun f => (f.started, f.body)) = some (true, .pathSet 1) ∧ (live.xchg.hand .control).isNone = true
      ∧ [ends (.switchConfirm (after 2000) .batSw) s, ends (.switchConfirmTimeout (after 2000)) s, ends (.vinCollapse calm) s,
         ends (.vinCollapse calm) (supplied isolated 3800 5000)]
        = [((2, 65536), .inputSuspend, 0), ((3, 30), .normal, causeSupply), ((2, 31), .normal, 0), ((0, 0), .normal, causeSupply)]
      ∧ (plugged.supplied, ({ plugged with inSw := false } : Supply).supplied) = (true, false) := by decide +kernel

/-- Hypotheses of MeasurementAndInputDetection, the command: an attach into each phase at its boundary and into each PAUSED, one
millivolt below it, in INPUT_SUSPEND, beside a change under way, with the first measurement after a reset; a loss with the input
present and one the comparator has seen. -/
theorem witness_attach_measured :
    let s (st : ChState) (fresh : Bool) (u : Supply) : State :=
      { live with supply := u, charger := { fastAt 500 5000 3800 with state := st, fresh, nextMeasure := 10000 } }
    let at_ (temp : BitVec 16) (vbat vin : Nat) (s : State) := nextOf (.measurement (after 10000) { volts vbat vin with temp }) s
    let u := Supply.reset .powerOn
    let changing : Supply := { u with change := some { goal := .mode .normal, switch := .batSw, deadline := 90000, owed := false } }
    let ready := s (.qualify 9) false u
    let drive (t : State) := t.supply.change.map fun c => (c.switch, c.deadline, c.owed)
    let phases := [at_ 250 2999 4300 ready, at_ 250 3000 4300 ready, at_ 250 4179 4300 ready, at_ 250 4180 4300 ready, at_ 250 3800 4299 ready]
    let others := [at_ 560 3800 4300 (s (.qualify 9) true u), at_ 250 3800 4300 (s (.qualify 9) false { u with mode := .inputSuspend }),
      at_ 250 3800 4300 (s (.qualify 9) false changing)]
    let losses := [at_ 250 3800 3999 (s .fast false plugged), at_ 250 3800 3999 (s .fast false u)]
    ready.supply.held = false ∧ timeReached (ready.arrive (after 10000)).time 10000 = true ∧ ready.charger.profile.fastLimit ≠ 0
      ∧ phases.map (·.charger.state) = [.precharge, .fast, .fast, .taper, .qualify 0]
      ∧ phases.map drive = List.replicate 4 (some (.inSw, 12000, false)) ++ [none]
      ∧ phases.map (·.supply.present) = [true, true, true, true, false]
      ∧ others.map (·.charger.state) = [.paused .hot, .paused .path, .fast]
      ∧ others.map drive = [some (.inSw, 12000, false), none, some (.batSw, 90000, true)]
      ∧ losses.map (·.charger.state) = [.absent, .absent] ∧ losses.map (·.supply.present) = [false, false]
      ∧ (phases ++ others ++ losses).map (fun t => t.events.map Event.number)
        = List.replicate 4 [0x0500] ++ [[]] ++ List.replicate 3 [0x0500] ++ List.replicate 2 [0x0501] := by decide +kernel

/-- A supply on battery at runs of its filters. -/
def onBattery (low : Bool) (lowRun highRun : Nat) (armed : Bool) (deepRun rearmRun : Nat) : Supply :=
  { Supply.reset .powerOn with lowBattery := low, lowRun, highRun, shutArmed := armed, deepRun, rearmRun }

/-- Hypotheses of SupplyFiltersAndWakes: each filter at its thresholds and runs, with the input supplying, the steps they bring, and
the wakes by power state. -/
theorem witness_supply_filters :
    let low (u : Supply) (v : Nat) := (u.lowFilter v).2
    let shut (u : Supply) (v : Nat) := ((u.shutFilter v).2, (u.shutFilter v).1.shutArmed)
    let s (u : Supply) (vbat : Nat) : State := { cutting with supply := u, charger := { Charger.reset with meas := { Charger.reset.meas with vbat := BitVec.ofNat 16 vbat } } }
    let d (hot : Bool) (die : Nat) : State := { cutting with
      supply := { cutting.supply with dieHot := hot }, charger := { Charger.reset with meas := { Charger.reset.meas with die := BitVec.ofNat 16 die } } }
    let wakes (p : PowerState) (n : BitVec 16) := ((inPower p).directWake n).supply.wake
    [low (onBattery false 2 0 true 0 0) 3300, low (onBattery false 1 0 true 0 0) 3299, low (onBattery false 2 0 true 0 0) 3299,
     low (onBattery true 0 2 true 0 0) 3399, low (onBattery true 0 1 true 0 0) 3400, low (onBattery true 0 2 true 0 0) 3400,
     low { onBattery true 0 0 true 0 0 with present := true, inSw := true } 3000]
        = [.nothing, .nothing, .asserts, .nothing, .nothing, .clears, .clears]
      ∧ [shut (onBattery false 0 0 true 2 0) 3100, shut (onBattery false 0 0 true 1 0) 3099, shut (onBattery false 0 0 true 2 0) 3099,
         shut (onBattery false 0 0 false 0 2) 3199, shut (onBattery false 0 0 false 0 1) 3200, shut (onBattery false 0 0 false 0 2) 3200]
        = [(false, true), (false, true), (true, false), (false, false), (false, false), (false, true)]
      ∧ (let t := (s (onBattery false 2 0 true 0 0) 3299).lowStep emit
         (t.writer.reason, t.supply.lowBattery, t.xchg.cause, t.events.map Event.number)) = (.lowBattery, true, causeSupply, [0x0505])
      ∧ (((s (onBattery false 0 0 true 2 0) 3099).shutStep emit).events.map Event.number) = [0x0506]
      ∧ [d false 1199, d false 1200, d true 1200, d true 1000, d true 999, d false 999].map (fun s => (s.dieStep.supply.dieHot, s.dieStep.writer.state))
        = [(false, .opened), (true, .closing), (true, .opened), (true, .opened), (false, .opened), (false, .opened)]
      ∧ [wakes .parked 0x0300, wakes .parked 0x0203, wakes .sleep 0x0300, wakes .sleep 0x0500, wakes .active 0x0500]
        = [.shock, .timer, .none, .inputAttach, .none]
      ∧ [0x0104, 0x0200].map (fun n => ((inPower .sleep).act emit .wakeA { number := n, time := 0, arg := .num 0 }).supply.wake) = [.button, .routed]
      ∧ (live.supply.held = false ∧ timeReached (live.arrive (after 10000)).time live.charger.nextMeasure = true) := by decide +kernel

/-- Hypotheses of LineEdgeAndTimerExpiry, the sinks' actions: CUT and CLOSE in OPEN and IDLE, a line driven both ways, RECENTRE, PAUSE in
each kind of state and on a pause that stands, RESUME out of the host's pause, in FAULT, and without one. -/
theorem witness_sink_actions :
    let acted (k : Sink) (s : State) : State := s.act emit k { number := 0x0200, time := 7, arg := .num 0 }
    let chg (st : ChState) (host : Bool) : State := charging { fastAt 1500 5000 3800 with state := st, hostPause := host, driven := 5, term := 4 }
    let charge (k : Sink) (s : State) := ((acted k s).charger.hostPause, (acted k s).charger.state, (acted k s).charger.driven, (acted k s).charger.term)
    let told (k : Sink) (s : State) := (acted k s).events.map Event.number
    let high := acted (.setLine 3) live
    let pauses := [chg .taper false, chg .fast false, chg (.paused .host) false, chg (.paused .hot) false, chg .full false, chg .fast true]
    let resumes := [chg (.paused .host) true, chg (.fault .timer) true, chg (.paused .hot) false]
    [cutting, live].map (fun s => ((acted .cut s).writer.cutRequest, (acted .close s).writer.state)) = [(true, .closing), (false, .idle)]
      ∧ (high.router.outs.a3.high, (acted (.clearLine 3) high).router.outs.a3.high, (acted .recentre live).path.recentre) = (true, false, true)
      ∧ pauses.map (charge .pause) = [(true, .paused .host, 0, 0), (true, .paused .host, 0, 4), (true, .paused .host, 5, 4),
          (true, .paused .host, 0, 4), (true, .full, 5, 4), (true, .fast, 5, 4)]
      ∧ pauses.map (told .pause) = [[0x0503], [0x0503], [], [0x0503], [], []]
      ∧ resumes.map (charge .resume) = [(false, .fast, 5, 4), (false, .fault .timer, 5, 4), (false, .paused .hot, 5, 4)]
      ∧ resumes.map (told .resume) = [[0x0504], [], []] := by decide +kernel

/-- Hypotheses of PathSetAndSwitches, the limit of a change that owes an attach its close: IN_SW is driven anew. -/
theorem witness_owed_close :
    let u : Supply := { Supply.reset .powerOn with present := true, change := some { goal := .mode .inputSuspend, switch := .batSw, deadline := 2000, owed := true } }
    let t := nextOf (.switchConfirmTimeout (after 2000)) { live with supply := u }
    timeReached (live.arrive (after 2000)).time 2000 = true
      ∧ t.supply.change = some { goal := .attach, switch := .inSw, deadline := 4000, owed := false } ∧ t.supply.switchFails = 1 := by
  decide +kernel

/-- Hypotheses of PowerStateIsCheckedAndEntered: each code, each cause of BUSY alone, and none. -/
theorem witness_power_state :
    let go (s : State) (n : Nat) := answered (nextOf (.powerState calm) (given .control (.powerState n) s))
    (given .control (.powerState 2) live).frameBody .control = some (.powerState 2) ∧ live.supply.held = false
      ∧ [go live 3, go live 0, go cutting 1, go (live.onXchg fun x => { x with stack := [linkRec] }) 1,
         go (live.onCard fun c => { c with state := .writing }) 2, go (live.onCard fun c => { c with draining := true }) 2, go live 2]
        = [(3, 2), (2, 32), (3, 1), (3, 1), (3, 1), (3, 1), (2, 0)]
      ∧ (nextOf (.powerState calm) (given .control (.powerState 2) live)).motion.port = .off := by decide +kernel

/-! ## Witnesses: the whole part, and the last few commands -/

/-- Hypotheses of the invariants of the whole part: states with a command in front that step, from reset and while recording. -/
theorem witness_invariants :
    let s : State := { State.reset with pending := [.inputLineEdge calm 1 false] }
    let r : State := { cutting with pending := [.cardWriteAccepted calm] }
    (s.memGood = true ∧ r.memGood = true) ∧ s.xchg.anchorAligned = true ∧ r.xchg.anchorAligned = true
      ∧ (s.motion.ring.length ≤ 64 ∧ r.card.list.length ≤ 3 ∧ r.store.table.length ≤ 16 ∧ r.writer.queue.length ≤ 4)
      ∧ (∃ t, step s = .next t ∧ t.pending = []) ∧ ∃ t, step r = .next t ∧ t.pending = [] := by
  refine ⟨by decide +kernel, by decide +kernel, by decide +kernel, by decide +kernel, ⟨_, rfl, by decide +kernel⟩, ⟨_, rfl, by decide +kernel⟩⟩

/-- The invariants' premises hold of a recording part. -/
theorem witness_recording_sound : cutting.Capacities ∧ cutting.supply.SwitchesGood := by
  refine ⟨⟨by decide +kernel, by decide +kernel, by decide +kernel, by decide +kernel, by decide +kernel, by decide +kernel,
    by decide +kernel, by decide +kernel, by decide +kernel, by decide +kernel, by decide +kernel⟩, ⟨by decide +kernel, by decide +kernel, by decide +kernel, ?_⟩⟩
  exact fun c h => absurd (h.symm.trans (show cutting.supply.change = none by decide +kernel)) (Option.some_ne_none c)

/-- Hypotheses of the two statements of which commands change what: a command that answers a next state. -/
theorem witness_only_theirs : live.supply.held = false ∧ ∃ t, exec (.nudge calm) live = .next t := ⟨by decide +kernel, _, rfl⟩

/-- R82, R42, R76: what a link reset leaves, and with START beside it the check begins. -/
theorem test_link_reset :
    let s := nextOf (.linkReset calm false) (cutting.onXchg fun x => { x with anchorLow := 0x1000, cause := 5, mask := 7 })
    let t := nextOf (.linkReset calm true) (cutting.onXchg fun x => { x with anchorLow := 0x1000 })
    (s.xchg.state, s.xchg.cause, s.xchg.mask, s.writer.state) = (.off, 0, 0, .idle)
      ∧ (s.card.list, s.card.draining, s.supply.cause) = ([], true, .link)
      ∧ t.xchg.starting = some 4096 := by decide +kernel

/-- R186, R189: a release with reset cause BROWNOUT; the loss of the link in PARKED resets nothing. -/
theorem test_brownout_and_link_down :
    let s := nextOf (.brownoutRelease calm) (nextOf (.brownoutReset calm) live)
    let t := nextOf (.linkDown calm) (inPower .parked)
    (s.supply.held, s.supply.cause, s.supply.hostPower, s.time, s.xchg.state) = (false, .brownout, true, 0, .off)
      ∧ (t.supply.power, t.supply.cause, t.xchg.linkUp) = (.parked, .powerOn, false)
      ∧ (nextOf (.linkDown calm) live).supply.cause = .link := by decide +kernel

/-- R2: a power-on reset reads the card-detect line and leaves host memory. -/
theorem test_power_on :
    let s := nextOf (.powerOnReset calm 6) (cutting.onXchg fun x => { x with mem := [(5, 1)] })
    (s.card.state, s.xchg.mem, s.writer.state, s.time, (s.router.lines.get 1).level) = (.present, [(5, 1)], .idle, 0, true) := by
  decide +kernel

/-! ## Witnesses: reset rows, the window's reads, production, returned packs and single steps of block work -/

/-- Hypotheses of LinkResetClearsTheEngineAndBlocks, its rows: a pack, then the tail in flight, a FAILED, an OFF and a RUNNING port. -/
theorem witness_reset_rows :
    let s := cutting.onXchg fun x => { x with mask := 7 }
    let t := nextOf (.linkReset calm false) s
    let tail : Entry := { packEntry 0 40960 7 true with source := .tail, count := 1 }
    let u := nextOf (.linkReset calm false) ((s.onCard fun c => { c with list := [tail], removals := 3, attachResult := .noAnswer }).onWriter
      fun w => { w with tail := { w.tail with st := .writing } })
    let port (p : PortState) : PortState × Nat × Bool :=
      let m := (nextOf (.linkReset calm false) { s with motion := { shaken with port := p, restarts := 2, gaps := 4 } }).motion
      (m.port, m.restarts, m.armed)
    (s.card.flyingSource, t.card.drainSource, t.writer.bufs.toList.map (·.st)) = (some (.buf 0), some (.buf 0), [.writing, .empty, .empty, .empty])
      ∧ (u.card.drainSource, u.writer.bufs.toList.map (·.st), u.writer.tail.st) = (some .tail, [.empty, .empty, .empty, .empty], .writing)
      ∧ (t.writer.tail.st, u.card.removals, u.card.attachResult, t.card.busySince) = (.empty, 0, .none, none)
      ∧ [PortState.failed, .off, .running].map port = [(.failed, 2, true), (.off, 2, true), (.starting, 0, true)] := by decide +kernel

/-- Hypotheses of StartBeginsTheAnchorCheck, the return: a RUNNING port with the comparator DISARMED and ARMED, in PARKED and SLEEP; the
link reset with START after a wake; and the reset that races the entry. -/
theorem witness_return :
    let s (p : PowerState) (armed : Bool) : State := { inPower p with motion := { shaken with armed } }
    let back (t : State) := (t.supply.power, t.motion.armed, t.motion.port, t.events.map Event.number)
    let raced : State := { inPower .sleep with supply := { (inPower .sleep).supply with entered := some 0 }, motion := Motion.reset }
    [s .parked false, s .parked true, s .sleep false].map (fun s => back (nextOf (.start calm) s))
        = [(.active, true, .starting, [0x0301]), (.active, true, .starting, []), (.active, true, .starting, [0x0301])]
      ∧ back (nextOf (.linkReset calm true) { woken with motion := shaken }) = (.active, true, .starting, [])
      ∧ ((s .parked false).supply.held, (s .parked false).xchg.state, (s .parked false).xchg.starting) = (false, .off, none)
      ∧ (nextOf (.linkReset calm true) raced).supply.cause = .powerOn
      ∧ ((nextOf (.linkReset calm true) raced).supply.power, (nextOf (.linkReset calm true) raced).xchg.starting) = (.active, some 0) := by
  decide +kernel

/-- Hypotheses of RegisterWindowWrites, its reads: PART_STATE in several states, part time at 2^32, and the reads that give 0. -/
theorem witness_register_reads :
    let ps (s : State) : Nat := (s.readRegister 0x18 4).toNat
    let late : State := { live with time := 0x100000005 }
    [ps live, ps (xAt .stopped), ps (inPower .sleep), ps woken, ps (nextOf (.linkReset calm false) live),
      ps ((xAt .anchorBad).onXchg fun e => { e with check := .faultArea })] = [1, 3, 0x200, 0x30100, 0x2000, 0x82]
      ∧ late.readRegister 0x1C 4 = 5
      ∧ [(0x08, 4), (0x0C, 4), (0x18, 2), (0x1A, 4), (0x20, 4)].map (fun p => late.readRegister p.1 p.2) = List.replicate 5 0 := by decide +kernel

/-- Hypotheses of VideoFrameStartsAndEnds and ExtrapolationDeadline, production on a RUNNING exchange: two entries ready in turn, the
first with a flag of its mask; a sink that listens; an entry forced out; the bound of the examination. -/
theorem witness_produced :
    let lit : VFrame := { (opening.endAt 1016000 625 true false) with alert := 0x100 }
    let next : VFrame := { lit with number := 8, alert := 0 }
    let s : State := { live with time := 1020000, path := { Path.reset with counter := 8, frames := [lit, next] } }
    let heard : State := { s with router := { Router.reset with routes := { Routes.default with recentre := 0x0303 } } }
    let t := nextOf (.extrapolationDeadline calm) s
    let f := s.frameStart emit 1020000
    (endingOf lit).ready [] 1020000 = true ∧ s.xchg.anchor.isSome = true ∧ s.xchg.state = .running ∧ s.xchg.consumed = some 0
      ∧ (t.path.frames, t.xchg.cause, t.events.map Event.number) = ([], causeWarp ||| causeAlert, [0x0304, 0x0303, 0x0303])
      ∧ (memNat t.xchg.mem (65536 + 192 * 7) 4, memNat t.xchg.mem (65536 + 192 * 8) 4) = (7, 8)
      ∧ (heard.router.routes.listening 0x0303, (nextOf (.extrapolationDeadline calm) heard).path.recentre, t.path.recentre)
        = ([.recentre], true, false)
      ∧ ((State.examineFor emit 1 s).path.frames.map (·.number)) = [8]
      ∧ (f.path.forced, f.path.frames.map (·.number), f.events.map Event.number) = (1, [9], [0x0304, 0x0303, 0x0303]) := by
  decide +kernel

/-- The map with a pack of its open segment returned. -/
def withReturned (block : Nat) (st : Store) : Store := { st with table := st.table.map fun g => { g with returned := some block } }

/-- The returned pack, the next pack and the packs used of a segment. -/
def taking (serial : Word) (st : Store) : List (Option Nat) :=
  match st.seg serial with
  | some g => [g.returned, g.next, some g.used]
  | none => []

/-- Hypotheses of SegmentsOpenAndTakePositions, a pack returned: the last one taken, inside its extent and at its end, and one before
later packs; the next position, the eight extents full by it alone, and the packs counted free. -/
theorem witness_returned_pack :
    let back (exts : List Extent) (next : Option Nat) := taking 60 ((openIn exts next []).returnPack 60 12800)
    let st := openIn [packsAt 1 1, packsAt 2 3] (some 25728) (poolOf 1)
    let two := withReturned 12800 st
    let eight := withReturned 0 (openIn ((List.range 8).map fun k => packsAt k 1) none [])
    [back [packsAt 1 3] (some 12928), back [packsAt 1 1] none, back [packsAt 1 1, packsAt 2 3] (some 25728), back [packsAt 1 3] (some 13056)]
        = [[none, some 12800, some 0], [none, some 12800, some 0], [some 12800, some 25728, some 0], [some 12800, some 13056, some 0]]
      ∧ [two.nextPack 0 false 60, eight.nextPack 0 false 60, eight.nextPack 0 true 60].map replied
        = [some (some (.position 12800)), some (some .extentsFull), some (some (.position 0))]
      ∧ taking 60 (afterReply two (two.nextPack 0 false 60)) = [none, some 25728, some 2]
      ∧ [two.freePacks, st.freePacks] = [5, 4] := by decide +kernel

/-- Hypotheses of SegmentsCloseCompleteAndLoseExtents, a pack returned: the close with packs after it to split off, with a full pool and
with none; the removal that takes it along and the one that does not. -/
theorem witness_returned_close :
    let two := withReturned 12800 (openIn [packsAt 1 1, packsAt 2 3] (some 25728) (poolOf 1))
    let all := [two, { two with pool := poolOf 64 }, withReturned 0 (openIn ((List.range 8).map fun k => packsAt k 1) none [])]
    let shut := all.map fun st => afterReply st (st.closeSegment 0 60 false)
    let lost := [12800, 25600].map fun b => afterReply two (two.removeRange 0 60 b)
    shut.map (taking 60) = [[none, none, some 2], [none, some 25728, some 2], [none, none, some 2]]
      ∧ shut.map (fun st => (st.seg 60).map (·.tail)) = [some (.pending 12800), some (.pending 12800), some (.pending 0)]
      ∧ shut.map (fun st => st.pool.length) = [2, 64, 0]
      ∧ lost.map (taking 60) = [[none, some 25728, some 1], [some 12800, none, some 0]]
      ∧ lost.map (fun st => (st.seg 60).map (·.exts)) = [some [packsAt 2 3], some [packsAt 1 1]] := by decide +kernel

/-- Hypotheses of SegmentWorkReportsAndLevels, the opening: with a FILLING buffer and without; and a PAUSE on 0x0400 whose event, 0x0503,
closes the clip before the position is handed, which goes back (R146). -/
theorem witness_opened :
    let chained : Routes := { Routes.default with pause := 0x0400, close := 0x0503 }
    let opens : State := working (.opening 8 1 3) pooled
    let cut (s : State) : State := s.onWriter fun w => { w with cut := (some { reason := .time, stage := .waitOpen, outer := none }) }
    let empty (s : State) : State := withFilling { bufAt .filling 0 0 with pos := none } s
    let chain (s : State) : State := { s with charger := { fastAt 500 5000 3700 with state := .fast }, router := { s.router with routes := chained } }
    let all := [cut opens, withFilling .empty opens, chain (empty (cut opens))].filterMap State.matterStep
    all.map (fun t => t.writer.seg.map (·.serial)) = [some 8, some 8, some 8]
      ∧ all.map (fun t => taking 8 t.store) = [[none, some 1280128, some 1], [none, some 1280000, some 0], [none, some 1280000, some 0]]
      ∧ all.map (fun t => t.writer.bufs.a2.pos) = [some 1280000, none, none]
      ∧ all.map (fun t => t.writer.state) = [.opened, .opened, .closing]
      ∧ all.map (fun t => t.events.map Event.number) = [[0x0400], [0x0400], [0x0400, 0x0503]] := by decide +kernel

/-- Hypotheses of SegmentWorkReportsAndLevels, the segment that asks for its completion: the tail written and missing; a tail still
pending, an entry of it left, its completion asked already, a segment open; and the pieces of block work: none that acts, and one. -/
theorem witness_completion :
    let ending (tail : SegTail) (list : List Entry) (l : List Matter) : Option (List Matter) :=
      let s : State := { readied with store := { Store.reset with table := [{ segAt 7 .ending none with tail }], matters := l } }
      (s.onCard fun c => { c with list }).completionStep.map fun t => t.store.matters
    [ending (.written 5) [] [], ending .missing [packEntry 0 5 8 false] [], ending .noneYet [] [], ending (.pending 5) [] [],
     ending .missing [packEntry 0 5 7 false] [], ending .missing [] [.closed 7]]
        = [some [.closed 7], some [.closed 7], none, none, none, none]
      ∧ readied.completionStep = none ∧ cutting.completionStep = none := by decide +kernel

/-- Hypotheses of ChunkIsCheckedCopiedAndFaulted, the middle of a copy: an empty run, bytes, zeros, host bytes good and failing, a run for
which the buffer has one byte of room and none, a buffer without its position, and the last part, which waits. -/
theorem witness_copy :
    let feeding (l : List Src) (fill : Nat) (pos : Option Nat) : State := copying.onWriter fun w =>
      { w with feed := l, bufs := w.bufs.set 2 { bufAt .filling 0 fill with pos } }
    let on (l : List Src) (fill : Nat) := ((feeding l fill (some 40704)).feedStep).map fun t => (t.writer.feed, t.writer.bufs.a2.fill)
    let failing := ((feeding [.host 500001 9, .zeros 1] 65534 (some 40704)).onXchg fun x => { x with badReads := [{ first := 500002, length := 1 }] }).feedStep
    [on [.bytes [], .zeros 1] 65536, on [.bytes [1, 2]] 65534, on [.bytes [1, 2], .zeros 1] 65535, on [.zeros 9] 65532, on [.host 500001 9] 65532]
        = [some ([.zeros 1], 65536), some ([], 65536), some ([.bytes [2], .zeros 1], 65536), some ([.zeros 5], 65536),
           some ([.host 500005 5], 65536)]
      ∧ [on [.bytes [1]] 65536, on [.host 500001 4] 65532, on [.zeros 0] 0, on [] 0] = [none, none, some ([], 0), none]
      ∧ (feeding [.bytes [1]] 0 none).feedStep = none
      ∧ (failing.map fun t => t.writer.feed) = some [.bytes [0], .zeros 9]
      ∧ (failing.map fun t => t.xchg.laneState .chunk) = some .held := by decide +kernel

/-- Hypotheses of ChunkIsCheckedCopiedAndFaulted, a full buffer: queued; the list full, by a raw write in flight and not by a raw read; a
LIVE record; a cut and a close at their first step and past it; no EMPTY buffer; one byte of room; no position. -/
theorem witness_full_buffer :
    let raw (write : Bool) (s : State) : State := s.onCard fun c => { c with raw := some (rawJob write true true) }
    let cut (st : CutStage) (s : State) : State := s.onWriter fun w => { w with cut := (some { reason := .time, stage := st, outer := none }) }
    let closes (st : CloseStage) (s : State) : State := s.onWriter fun w => { w with state := .closing, closing := st }
    let steps (f : State → State) : Bool := (f (fullBuffer cutting)).fullStep.isSome
    let t := (fullBuffer cutting).fullStep
    [id, raw false, cut .place, closes .drain].map steps = List.replicate 4 true
      ∧ [listFull, raw true, fun s => s.onXchg fun x => { x with stack := [cardRec true] }, cut .queue, closes .queue,
         fun s => s.onWriter fun w => { w with bufs := w.bufs.set 3 (bufAt .queued 0 0) }, withFilling (bufAt .filling 40704 65535),
         withFilling { bufAt .filling 0 65536 with pos := none }].map steps = List.replicate 8 false
      ∧ (t.map fun t => t.writer.bufs.toList.map (·.st)) = some [.writing, .queued, .queued, .filling]
      ∧ (t.map fun t => t.card.list.map (·.block)) = some [40448, 40576, 40704] ∧ (t.map fun t => t.store.matters) = some [.position 3] := by
  decide +kernel

/-- Hypotheses of GraceAndDrain, the end of a resumption: over, for RETRY and for CLOSE with its clip ended; a resumed entry left, a
re-placement or its removal asked, the clip of a CLOSE open; a removal that is no part of it; no resumption. -/
theorem witness_resumption_end :
    let s : State := given .recovery .resume (cutting.onCard fun c => { c with resumption := some false })
    let asks (m : Matter) : State := s.onStore fun st => { st with matters := [m] }
    let closes (s : State) : State := s.onCard fun c => { c with resumption := some true }
    let shut : State := closes (s.onWriter fun w => { w with state := .idle })
    let left : State := s.onCard fun c => { c with list := c.list.map fun e => { e with resumed := true } }
    [s, shut, asks (.removal 7 40448 false), asks (.position 2)].map (fun s => s.resumeStep.map answered) = List.replicate 4 (some (2, 0))
      ∧ [left, closes s, asks (.replaceFilling 2), asks (.replace .tail true true), asks (.removal 7 40448 true), cutting].map
          (fun s => s.resumeStep.isSome) = [false, false, true, false, false, false]
      ∧ (s.resumeStep.map fun t => t.card.resumption) = some none := by decide +kernel

/-- Hypotheses of RawTransfers, a raw write that fails: at the limit, one microsecond before it and after it, and while WRITING. -/
theorem witness_raw_timeout :
    let t (i : Instr) (s : State) := let u := nextOf i s; (answered u, u.card.timeouts, u.card.writeErrors)
    let writing : State := rawBusy.onCard fun c => { c with state := .writing, busySince := none }
    [t (.cardBusyTimeout (after 499999)) rawBusy, t (.cardBusyTimeout (after 500000)) rawBusy, t (.cardWriteAccepted (after 500001)) rawBusy,
     t (.cardWriteError (after 500001)) rawBusy, t (.cardWriteError calm) writing, t (.cardWriteAccepted calm) writing, t (.cardBusyTimeout calm) writing]
        = [((0, 0), 0, 0), ((2, 131092), 1, 0), ((2, 131092), 1, 0), ((2, 131092), 1, 0), ((2, 65556), 0, 1), ((0, 0), 0, 0), ((0, 0), 0, 0)]
      ∧ (nextOf (.cardProgramming (after 7)) writing).card.busySince = some 7
      ∧ (rawBusy.supply.held, rawBusy.card.state, writing.card.state) = (false, .busy, .writing) := by decide +kernel

/-- Hypotheses of SegmentWorkReportsAndLevels, block work: none of its pieces acts; the first of them, and the last, acts. -/
theorem witness_rest :
    let works : List (State → Option State) :=
      [State.takeBacklog, State.levelStep, State.reportStep, State.joinStep, State.matterStep, State.completionStep, State.endUnbegun emit,
        State.arbitrate emit, State.lostStep, State.cutStep, State.closeStep, State.fullStep, State.feedStep, State.queueStep,
        State.jobStep, State.resumeStep]
    let acts (s : State) : List Bool := works.map fun f => (f s).isSome
    let last : State := given .recovery .resume (live.onCard fun c => { c with resumption := some false })
    let first : State := { live with backlog := [{ number := 0x0400, time := 0, arg := .num 1 }] }
    acts live = List.replicate 16 false ∧ acts last = List.replicate 15 false ++ [true] ∧ (acts first).head? = some true := by
  decide +kernel

/-- Hypotheses of PowerStateIsCheckedAndEntered where a free value stands: a FAILED port at an entry to SLEEP. -/
theorem witness_free_values :
    let sleep : State := given .control (.powerState 2) { live with motion := { shaken with port := .failed } }
    sleep.frameBody .control = some (.powerState 2) ∧ sleep.motion.port = .failed ∧ sleep.supply.held = false
      ∧ (sleep.writer.state, sleep.xchg.stack, sleep.card.state, sleep.card.draining) = (.idle, [], .absent, false) := by decide +kernel

/-- R185: the low-battery filter's request for SUPPLY is taken in RUNNING alone, the assertion made in every exchange state. -/
theorem test_low_battery_request :
    let low (x : XState) : State :=
      { xAt x with supply := onBattery false 2 0 true 0 0, charger := { Charger.reset with meas := volts 3299 0 } }
    [XState.off, .running, .anchorBad, .stopped].map (fun x => ((low x).lowStep emit).xchg.cause) = [0, causeSupply, 0, 0]
      ∧ [XState.off, .running, .anchorBad, .stopped].map (fun x => ((low x).lowStep emit).supply.lowBattery) = List.replicate 4 true := by
  decide +kernel

/-- Hypotheses of FinishWritesTheFrame, a frame in hand and none; the last result code (11.3). -/
theorem witness_finish_hand :
    let s := given .control .statusAck live
    (s.xchg.hand .control).isSome = true ∧ live.xchg.hand .control = none
      ∧ answered (s.finish .control .done .ok 7) = (2, 458752) ∧ answered (s.finish .control .faulted .dataError 0) = (5, 38) := by
  decide +kernel

/-- 11.3: the format codes at the ends of the table and beside it, the fields read of a CHUNK body in both forms, and its pieces in WIDE. -/
theorem test_formats :
    let m := memOfCells [(1024 + 26, 1), (1024 + 44, 1), (1024 + 48, 5)]
    [0x00, 0x01, 0x04, 0x05, 0x13, 0x22, 0x61, 0x71, 0x72].map formatOf
        = [none, some .motionSetup, some .statusAck, none, some .outputWrite, some .chunk, some .powerState, some .abandon, none]
      ∧ Format.chunk.bodyFields .narrow = [(24, 3), (32, 8), (40, 6), (48, 6), (56, 6), (64, 6)]
      ∧ Format.chunk.bodyFields .wide = [(24, 3), (32, 8), (40, 12), (56, 12), (72, 12), (88, 12)]
      ∧ readBody m 1024 .chunk .wide = .chunk { stream := 0, flags := 0, count := 1, time := 0, pieces := [{ address := 4294967296, length := 5 }] }
      ∧ [effectiveForm .narrow true 0x70, effectiveForm .wide true 3, effectiveForm .narrow true 3] = [.wide, .narrow, .wide]
      ∧ [8, 9, 12].map (fun a => readsOk [{ first := 12, length := 2 }] a [(0, 2), (2, 2)]) = [true, false, false]
      ∧ readsOk [{ first := 12, length := 2 }] 14 [(0, 2)] = true := by decide +kernel

/-- Hypotheses of SampleMarksAndSampleReadComplete, the comparator's event: in ACTIVE before the record that the sample makes ready, and in
PARKED with the wake (R14, R48, R190). -/
theorem witness_sample_events :
    let m : Motion := { shaken with armed := true, reading := some 1016000, average := 625 }
    let s : State := { live with motion := m, path := { Path.reset with counter := 7, frames := [workedFrame] }, time := 1015000 }
    let p : State := { inPower .parked with motion := { m with parked := true } }
    let a := nextOf (.sampleReadComplete calm (still 20000)) s
    let b := nextOf (.sampleReadComplete calm (still 20000)) p
    (s.supply.power, s.motion.port, s.motion.reading) = (.active, .running, some 1016000) ∧ p.supply.power = .parked
      ∧ (a.events.map Event.number, a.path.frames.length, a.motion.armed) = ([0x0300, 0x0303], 0, false)
      ∧ (b.events.map Event.number, b.supply.wake, b.supply.hostPower) = ([0x0300], .shock, true)
      ∧ (b.motion.samples, b.motion.lossDeadline) = (0, some 1096000) := by decide +kernel

/-- Hypotheses of RecordStaysWithinMargins, the path value: an empty ring, before the oldest entry, at an entry, between two, before an
entry with GAP, at the newest and behind it (R28, R29, R30). -/
theorem witness_path_at :
    let p : Path := { Path.reset with acc := { yaw := 9, pitch := 0, roll := 0 }, swref := { yaw := 100, pitch := 0, roll := 0 } }
    let ring := [yawAt 1000 10, yawAt 2000 30, { yawAt 3000 90 with gap := true, gx := 5000, gy := 5000, gz := 5000 }]
    let at_ (l : List RingEntry) (t : Nat) := ((p.at l (BitVec.ofNat 48 t)).1.yaw.toNat, (p.at l (BitVec.ofNat 48 t)).2)
    [at_ [] 5, at_ ring 5] = [(109, .before), (110, .before)]
      ∧ [1000, 1500, 2000, 2999, 3000, 3400].map (at_ ring)
        = [(110, .inside), (120, .inside), (130, .inside), (130, .inside), (190, .inside), (190 + 35736, .after)] := by decide +kernel

/-- Hypotheses of RecordStaysWithinMargins, the flags: the span from the entry at band 0 through the newest, a clip and a GAP in it, bands
clamped and the centre not, times behind the newest entry, an end assumed (R38). -/
theorem witness_record_flags :
    let ring := [yawAt 999000 0, { yawAt 1000000 0 with clipY := true }, { yawAt 1007500 3000000 with gap := true }]
    let c := Path.reset.compute ring { workedFrame with assumed := true } (endingOf workedFrame)
    (endingOf workedFrame).noMotion = false ∧ (c.record.flags, c.record.span, c.pushed) = (0x0B9, 2, 0)
      ∧ c.record.bands.map Band.yaw = [0, 0, 0, 0, -3072, -3072, -3072, -3072] := by decide +kernel

/-- Hypotheses of ExtrapolationDeadline, when an entry is ready: a ring entry at its last band time and one behind it, its deadline and the
moment before, its NO_MOTION mark; of VideoFrameStartsAndEnds, a start with one ENDED entry before and at its deadline, and with one
OPEN entry that is ready at once, by its deadline and without the IMU. -/
theorem witness_ready :
    let e := endingOf workedFrame
    let go (now : Time) (running : Bool) (f : VFrame) : List Word × List (BitVec 16) :=
      let t := ({ bouncing with
        time := now, motion := { bouncing.motion with port := if running then .running else .off, ring := [] }
        path := { Path.reset with counter := 7, frames := [f] } } : State).frameStart emit now
      (t.path.frames.map (·.number), t.events.map Event.number)
    [e.ready [yawAt 1014000 0] 0, e.ready [yawAt 1014001 0] 0, e.ready [] 1015874, e.ready [] 1015875, ({ e with noMotion := true } : Ending).ready [] 0]
        = [false, true, false, true, true]
      ∧ [go 1015874 true workedFrame, go 1015875 true workedFrame, go 1016700 true opening, go 1016700 false opening]
        = [([7, 8], []), ([8], [0x0303]), ([8], [0x0303]), ([8], [0x0303])] := by decide +kernel

/-- Hypotheses of CutsAreDueAndTaken, a chunk's unit begun with the stream's next sequence and, after a data error, with the kept one and
REPEAT (R106, R107). -/
theorem witness_start_chunk :
    let j : ChunkJob := { jobOf (jobAt .main .judged) with length := 101, pieces := [{ address := 500000, length := 60 }, { address := 600000, length := 41 }] }
    let w (r : Option (BitVec 16)) : Writer :=
      ({ cutting.writer with repeats := { Repeats.empty with main := r }, seqs := { cutting.writer.seqs with main := 9 } } : Writer).startChunk j
    let header (r : Option (BitVec 16)) : List Byte := match (w r).feed with
      | .bytes l :: _ => l
      | _ => []
    [none, some 5].map (fun r => ((header r).take 5, (w r).feed.map Src.length))
        = [([0, 1, 9, 0, 101], [16, 60, 41, 3]), ([0, 3, 5, 0, 101], [16, 60, 41, 3])]
      ∧ [none, some 5].map (fun r => ((w r).seqs.main, (w r).placed.main, (w r).job.map (·.seq))) = [(10, 1, some 9), (9, 1, some 5)] := by
  decide +kernel

/-- R110: a motion unit whose bytes fill the pack to its end leaves nothing to be placed; the position asked for then has to wait, and a
close that starts meanwhile empties the buffer and drops the request. A payload that is a multiple of 4 has no padding run. -/
theorem test_unanswered_position :
    let start : State := (cutting.onXchg fun x => { x with state := .stopped }).onStore (jammed ∘ looping ∘ spent 1)
    let s := ((start.onWriter fun w => { w with bufs := w.bufs.set 2 (bufAt .filling 40704 (65536 - 216)) }).onCard fun c =>
      { c with list := c.list.take 1 }).rest
    let c := s.startClose .closeSink
    (s.writer.feed, s.writer.queue, s.store.matters) = ([], [], [.position 3])
      ∧ (s.writer.bufs.a2.st, s.writer.bufs.a3.st, s.writer.bufs.a3.pos) = (.queued, .filling, none)
      ∧ (c.writer.bufs.a3.st, c.store.matters) = (.empty, [])
      ∧ [200, 197].map (fun n => (cutting.writer.startQueued { motion := true, time := 0, payload := zeroBytes n }).feed.map Src.length)
        = [[16, 200], [16, 197, 3]] := by decide +kernel

/-- Hypotheses of ClipCloseStartsTheClose, the port's tail by the state of the card at both tests (R135, R137; log entry 46), and a FILLING
buffer exactly full when the drain ends (log entry 78). -/
theorem witness_close_ready :
    let port (c : CardState) (s : State) : State := (s.onCard fun k => { k with state := c }).onWriter fun w => { w with tailBy := .settlement }
    let asked (c : CardState) := (closingAt .askTail (port c)).closeStep.map fun t => t.store.matters
    let full := (closingAt .drain fullBuffer).closeStep
    [CardState.ready, .writing, .busy].map asked
        = [some [.closing false false], some [.closing false true], some [.closing false true]]
      ∧ closeStages .handTail ([CardState.ready, .writing, .busy].map port) = [some .waitTailWrite, some .finish, some .finish]
      ∧ (full.map fun t => (t.writer.closing, t.store.matters)) = some (.queue, [])
      ∧ (full.map fun t => t.writer.bufs.toList.map (·.st)) = some [.writing, .queued, .filling, .empty] := by decide +kernel

/-- Hypotheses of PeriodicEvaluationAndSafetyTimers, a due evaluation whose step 1 faults: the state, its event and its refresh; and of
ChargerFaultsPausesAndTerminates, when the charger reads the card as busy; and INPUT_LIMIT's prompt evaluation (R167, R168, R175). -/
theorem witness_charger_run :
    let s := charging { fastAt 1500 5000 3800 with meas := { (fastAt 1500 5000 3800).meas with temp := BitVec.ofInt 16 (-401) } }
    let t := nextOf (.periodicEvaluation (after 100000)) s
    let u := nextOf (.inputLimit calm) (given .control (.inputLimit 99) (charging { fastAt 1500 5000 3800 with droop := 50 }))
    (t.charger.state, t.charger.nextEval, t.charger.driven) = (.fault .thermistor, 200000, 0) ∧ t.events.map Event.number = [0x0507]
      ∧ t.xchg.refreshCount = s.xchg.refreshCount + 2
      ∧ [CardState.absent, .present, .ready, .writing, .busy, .failed].map (fun c => ({ live with card := cardIn c } : State).around.cardBusy)
        = [false, false, false, true, true, false]
      ∧ (u.charger.iinLimit, u.charger.droop, u.charger.limitGiven, u.charger.terms.computed) = (100, 50, true, 0) := by decide +kernel

end Sys2Proof.Tests
end

section
/-! SUPPORT. The resets of the whole part (R2): what a reset leaves in each block, and the statement about the power-on reset. -/

namespace Sys2Proof.Machine

/-! ## Four like things, by index -/

@[simp] theorem Four.get_all {α : Type} (x : α) (n : Fin 4) : (Four.all x).get n = x := by
  match n with
  | 0 | 1 | 2 | 3 => rfl

@[simp] theorem Four.get_map {α β : Type} (f : α → β) (v : Four α) (n : Fin 4) : (v.map f).get n = f (v.get n) := by
  match n with
  | 0 | 1 | 2 | 3 => rfl

/-- The levels of the four input lines as the bits of POWER_ON_RESET's operand (log entry 34). -/
def lineLevels (levels : BitVec 4) : Four Bool :=
  { a0 := levels.getLsbD 0, a1 := levels.getLsbD 1, a2 := levels.getLsbD 2, a3 := levels.getLsbD 3 }

@[simp] theorem lineLevels_get (levels : BitVec 4) (n : Fin 4) : (lineLevels levels).get n = levels.getLsbD n.val := by
  match n with
  | 0 | 1 | 2 | 3 => rfl

@[simp] theorem lineLevels_a2 (levels : BitVec 4) : (lineLevels levels).a2 = levels.getLsbD 2 := rfl

/-! ## A reset of the whole part, block by block -/

section
variable (levels : Four Bool) (cause : ResetCause) (s : State)

@[simp] theorem State.fullReset_time : (s.fullReset levels cause).time = 0 := rfl
@[simp] theorem State.fullReset_xchg : (s.fullReset levels cause).xchg =
    { Exchange.reset with mem := s.xchg.mem, badReads := s.xchg.badReads, messages := s.xchg.messages } := rfl
@[simp] theorem State.fullReset_motion : (s.fullReset levels cause).motion = .reset := rfl
@[simp] theorem State.fullReset_path : (s.fullReset levels cause).path = .reset := rfl
@[simp] theorem State.fullReset_routes : (s.fullReset levels cause).router.routes = .default := rfl
@[simp] theorem State.fullReset_lines :
    (s.fullReset levels cause).router.lines = levels.map fun l => .reset l 0 := rfl
@[simp] theorem State.fullReset_timers : (s.fullReset levels cause).router.timers = .all .reset := rfl
@[simp] theorem State.fullReset_outs :
    (s.fullReset levels cause).router.outs = .all { high := false, hostSet := false, hostClear := false } := rfl
@[simp] theorem State.fullReset_writer : (s.fullReset levels cause).writer = .reset := rfl
@[simp] theorem State.fullReset_card : (s.fullReset levels cause).card = .reset levels.a2 := rfl
@[simp] theorem State.fullReset_store : (s.fullReset levels cause).store = .reset := rfl
@[simp] theorem State.fullReset_charger : (s.fullReset levels cause).charger = .reset := rfl
@[simp] theorem State.fullReset_supply : (s.fullReset levels cause).supply = .reset cause := rfl
@[simp] theorem State.fullReset_race : (s.fullReset levels cause).race = s.race := rfl
@[simp] theorem State.fullReset_events : (s.fullReset levels cause).events = [] := rfl
@[simp] theorem State.fullReset_backlog : (s.fullReset levels cause).backlog = [] := rfl
@[simp] theorem State.fullReset_pending : (s.fullReset levels cause).pending = s.pending := rfl

end

/-! ## The power-on reset -/

/-- The arm of POWER_ON_RESET: it acts also while the brownout reset is held. -/
theorem exec_powerOnReset (a : Ambient) (levels : BitVec 4) (s : State) :
    exec (.powerOnReset a levels) s = .next ((s.arrive a).fullReset (lineLevels levels) .powerOn) := rfl

/-- Settles O3: each block stands at its reset value, and its fields are read off there; the input lines and the card's detection by
the levels given. -/
theorem powerOnResetState : Obligations.PowerOnResetState := by
  unfold Obligations.PowerOnResetState
  intro a levels s
  refine ⟨_, exec_powerOnReset a levels s, by simp, by simp, by simp, ?exchange, ?motion, ?path, ?router, ?writer, ?card, ?store,
    ?charger, ?supply, ?wholeBlocks⟩
  case exchange => simp [Exchange.reset, LaneSt.reset]
  case motion => simp [Motion.reset]
  case path => simp [Path.reset]
  case router => simp [Routes.default, InLine.reset, TimerSt.reset]
  case writer => simp [Writer.reset, Buf.empty]
  case card => simp [Card.reset]
  case store => simp [Store.reset]
  case charger => simp [Charger.reset, Profile.default]
  case supply => simp [Supply.reset]
  case wholeBlocks => simp

end Sys2Proof.Machine
end

section
/-! SUPPORT. What every command answers: a next state, part time moved as R3 says, every list within its capacity. -/

namespace Sys2Proof.Machine

/-! ## Part time stays and capacities survive -/

/-- What the work of a command that makes no power-on or brownout reset leaves: part time, and every list within its capacity. -/
structure Within (s t : State) : Prop where
  time : t.time = s.time
  capacities : s.Capacities → t.Capacities

theorem Within.refl (s : State) : Within s s := ⟨rfl, id⟩

theorem Within.trans {s t u : State} (h : Within s t) (k : Within t u) : Within s u :=
  ⟨k.time.trans h.time, fun c => k.capacities (h.capacities c)⟩

/-- What comes after a change within the bounds. -/
theorem Within.after {s t u : State} (k : Within t u) (h : Within s t) : Within s u := h.trans k

theorem Kept.within {s t : State} (h : Kept s t) : Within s t := ⟨h.time, h.capacities⟩

theorem Moved.within {s t : State} (h : Moved s t) : Within s t := by
  obtain ⟨v, k⟩ := h.rest
  exact ⟨k.time, h.capacities⟩

/-- The capacities survive a change that touches none of the bounded lists but the ring, and keeps the ring's bound. -/
theorem State.Capacities.of_lists {s t : State} (c : s.Capacities) (ring : t.motion.ring.length ≤ 64)
    (frames : t.path.frames = s.path.frames := by rfl) (units : t.writer.queue = s.writer.queue := by rfl)
    (writes : t.card.list = s.card.list := by rfl) (store : t.store = s.store := by rfl) : t.Capacities :=
  ⟨ring, frames ▸ c.frames, units ▸ c.units, writes ▸ c.writes, store ▸ c.pool, store ▸ c.table, store ▸ c.reports,
    store ▸ c.extents, store ▸ c.incidents, store ▸ c.marked, store ▸ c.guarded⟩

theorem Within.of_lists {s t : State} (ring : s.motion.ring.length ≤ 64 → t.motion.ring.length ≤ 64)
    (time : t.time = s.time := by rfl) (frames : t.path.frames = s.path.frames := by rfl)
    (units : t.writer.queue = s.writer.queue := by rfl) (writes : t.card.list = s.card.list := by rfl)
    (store : t.store = s.store := by rfl) : Within s t :=
  ⟨time, fun c => c.of_lists (ring c.ring) frames units writes store⟩

/-- Nothing a capacity bounds is left after a reset of the whole part. -/
theorem State.Capacities.of_emptied {t : State} (ring : t.motion.ring = [] := by rfl) (frames : t.path.frames = [] := by rfl)
    (units : t.writer.queue = [] := by rfl) (writes : t.card.list = [] := by rfl) (store : t.store = .reset := by rfl) :
    t.Capacities := by
  constructor <;> simp [ring, frames, units, writes, store, Store.reset, Store.protectedCount]

/-! ## The resets and START -/

theorem State.fullReset_capacities (levels : Four Bool) (cause : ResetCause) (s : State) :
    (s.fullReset levels cause).Capacities := .of_emptied

theorem State.brownout_capacities (s : State) : s.brownout.Capacities := .of_emptied

@[simp] theorem State.brownout_time (s : State) : s.brownout.time = 0 := rfl

theorem State.within_linkResetByHost (s : State) : Within s s.linkResetByHost := by
  unfold State.linkResetByHost
  split
  case isTrue raced => exact .refl s
  case isFalse applied =>
    have emptied : Within s (s.linkReset false) := ⟨rfl, fun _ => s.linkReset_capacities false⟩
    exact emptied.trans (.of_lists id)

theorem State.within_start (s : State) : Within s s.start := by
  obtain ⟨begun, front, power, host, kept, ring⟩ := s.start_leaves
  exact .trans (.of_lists fun bound => ring ▸ bound) kept.within

theorem State.within_rest (s : State) : Within s s.rest := s.kept_rest.within

theorem State.within_controlWrite (value : Word) (s : State) : Within s (s.controlWrite value) := by
  unfold State.controlWrite
  extract_lets t
  have reset : Within s t := by
    unfold t
    split
    · exact s.within_linkResetByHost
    · exact .refl s
  split
  · exact reset.trans (t.within_start.trans (State.within_rest _))
  · exact reset

/-! ## Commands of a part that is not held -/

/-- The command answers a state within the bounds of the state its arrival makes. -/
def State.Answers (s : State) (i : Instr) : Prop := ∃ t, exec i s = .next t ∧ Within (s.arrive i.ambient) t

/-- A command that comes to a kept part by way of a state within the bounds. -/
theorem State.Answers.of_kept {i : Instr} {s t u : State} (arm : exec i s = .next t) (kept : Within u t)
    (h : Within (s.arrive i.ambient) u) : s.Answers i := ⟨t, arm, h.trans kept⟩

theorem State.linkDown_answers (a : Ambient) (s : State) (hs : s.supply.held = false) : s.Answers (.linkDown a) := by
  change ∃ t, execLinkDown a s = .next t ∧ Within (s.arrive a) t
  refine perform_exists hs ?_
  dsimp only
  split
  · exact (State.within_linkResetByHost _).after (.of_lists id)
  · exact .of_lists id

theorem State.linkReset_answers (a : Ambient) (alsoStart : Bool) (s : State) (hs : s.supply.held = false) :
    s.Answers (.linkReset a alsoStart) := by
  change ∃ t, execLinkReset a alsoStart s = .next t ∧ Within (s.arrive a) t
  refine perform_exists hs ?_
  have reset : Within (s.arrive a) (s.arrive a).linkSeen.linkResetByHost :=
    (State.within_linkResetByHost _).after (.of_lists id)
  dsimp only
  split
  · exact reset.trans ((State.within_start _).trans (State.within_rest _))
  · exact reset

theorem State.registerWrite_answers (a : Ambient) (offset width : Nat) (value : Word) (s : State) (hs : s.supply.held = false) :
    s.Answers (.registerWrite a offset width value) := by
  change ∃ t, execRegisterWrite a offset width value s = .next t ∧ Within (s.arrive a) t
  refine perform_exists hs ?_
  generalize s.arrive a = u
  have seen : Within u u.linkSeen := .of_lists id
  have register : ∀ f : Exchange → Exchange, Within u (u.linkSeen.onXchg f) := fun f => .of_lists id
  dsimp only
  split
  · exact seen
  · split
    · exact register _
    · exact register _
    · exact seen.trans (State.within_controlWrite value _)
    · exact seen.trans (Kept.refl _).poll.rest.within
    · exact register _
    · exact register _
    · exact seen

theorem State.powerState_answers (a : Ambient) (s : State) (hs : s.supply.held = false) : s.Answers (.powerState a) := by
  obtain ⟨t, ht, kept | ⟨x, power, front, parked, kept, -, ring⟩⟩ := execPowerState_leaves a s hs
  · exact ⟨t, ht, kept.within⟩
  · refine .of_kept ht kept.within ?_
    have emptied := State.linkReset_capacities { s.arrive a with xchg := x } parked
    exact ⟨rfl, fun _ => { emptied with ring := by simp [ring] }⟩

theorem State.measurement_answers (a : Ambient) (m : Measurement) (s : State) (hs : s.supply.held = false) :
    s.Answers (.measurement a m) := by
  obtain ⟨t, ht, ⟨-, rfl⟩ | ⟨-, _, _, _, _, _, moved⟩⟩ := execMeasurement_leaves a m s hs
  · exact ⟨_, ht, .refl _⟩
  · exact .of_kept ht moved.within (.of_lists id)

theorem State.rawBufferReadComplete_answers (a : Ambient) (s : State) (hs : s.supply.held = false) :
    s.Answers (.rawBufferReadComplete a) := by
  obtain ⟨t, ht, kept | ⟨r, kept⟩⟩ := execRawBufferReadComplete_leaves a s hs
  · exact ⟨t, ht, kept.within⟩
  · exact .of_kept ht kept.within (.of_lists id)

/-- A command that leaves the part after its arrival. -/
theorem LeavesPart.answers {i : Instr} {a : Ambient} {meaning : State → Host.Outcome State Fault Refusal} {s : State}
    (h : LeavesPart a meaning) (hs : s.supply.held = false) (ambient : i.ambient = a := by rfl)
    (arm : exec i s = meaning s := by rfl) : s.Answers i := by
  obtain ⟨t, ht, kept⟩ := h s hs
  exact ⟨t, arm.trans ht, ambient ▸ kept.within⟩

/-- The two commands that reset the whole part and bring part time back to 0. -/
def resetsPart : Instr → Bool
  | .powerOnReset .. | .brownoutReset _ => true
  | _ => false

/-- Every command of a part that is not held, but for the resets of the whole part. -/
theorem State.answers_of_free (i : Instr) (s : State) (hs : s.supply.held = false) (hi : resetsPart i = false) : s.Answers i := by
  cases i with
  | powerOnReset a levels => cases hi
  | brownoutReset a => cases hi
  | brownoutRelease a => exact ⟨_, if_neg (by simp [hs]), .refl _⟩
  | linkDown a => exact s.linkDown_answers a hs
  | linkReset a alsoStart => exact s.linkReset_answers a alsoStart hs
  | start a =>
    obtain ⟨t, _, _, _, _, ht, kept, ring⟩ := execStart_leaves a s hs
    exact .of_kept ht kept.within (.of_lists fun bound => ring ▸ bound)
  | anchorReadComplete a =>
    obtain ⟨t, _, ht, kept, -⟩ := execAnchorReadComplete_leaves a s hs
    exact .of_kept ht kept.within (.of_lists id)
  | nudge a =>
    obtain ⟨t, ht, kept⟩ := execNudge_leaves a s hs
    exact .of_kept ht kept.within (.of_lists id)
  | causeWrite a value =>
    obtain ⟨t, ht, kept⟩ := execCauseWrite_leaves a value s hs
    exact .of_kept ht kept.within (.of_lists id)
  | causeMaskWrite a value =>
    obtain ⟨t, ht, kept⟩ := execCauseMaskWrite_leaves a value s hs
    exact .of_kept ht kept.within (.of_lists id)
  | registerWrite a offset width value => exact s.registerWrite_answers a offset width value hs
  | scanTick a => exact (execScanTick_leaves a).answers hs
  | statusRefresh a =>
    obtain ⟨t, _, ht, kept⟩ := execStatusRefresh_leaves a s hs
    exact .of_kept ht kept.within (.of_lists id)
  | motionSetup a =>
    obtain ⟨t, _, _, ht, kept, ring, -, -, frames⟩ := execMotionSetup_leaves a s hs
    exact .of_kept ht kept.within (.of_lists (fun bound => ring ▸ bound) (frames := frames))
  | reference a => exact (execReference_leaves a).answers hs
  | exposure a =>
    obtain ⟨t, _, ht, kept⟩ := execExposure_leaves a s hs
    exact .of_kept ht kept.within (.of_lists id)
  | statusAck a => exact (execStatusAck_leaves a).answers hs
  | route a =>
    obtain ⟨t, ht, _, kept⟩ := execRoute_leaves a s hs
    exact .of_kept ht kept.within (.of_lists id)
  | lineSetup a =>
    obtain ⟨t, ht, _, kept⟩ := execLineSetup_leaves a s hs
    exact .of_kept ht kept.within (.of_lists id)
  | timerSetup a =>
    obtain ⟨t, ht, _, kept⟩ := execTimerSetup_leaves a s hs
    exact .of_kept ht kept.within (.of_lists id)
  | outputWrite a => exact (execOutputWrite_leaves a).answers hs
  | clipOpen a => exact (execClipOpen_leaves a).answers hs
  | clipClose a => exact (execClipClose_leaves a).answers hs
  | chunk a => exact (execChunk_leaves a).answers hs
  | cardAttach a => exact (execCardAttach_leaves a).answers hs
  | cardRead a => exact (execCardRead_leaves a).answers hs
  | cardWrite a => exact (execCardWrite_leaves a).answers hs
  | extentAdd a => exact (execExtentAdd_leaves a).answers hs
  | extentWithdraw a => exact (execExtentWithdraw_leaves a).answers hs
  | protect a => exact (execProtect_leaves a).answers hs
  | chargeSetup a =>
    obtain ⟨t, ht, _, _, _, kept⟩ := execChargeSetup_leaves a s hs
    exact .of_kept ht kept.within (.of_lists id)
  | inputLimit a =>
    obtain ⟨t, ht, _, _, _, kept⟩ := execInputLimit_leaves a s hs
    exact .of_kept ht kept.within (.of_lists id)
  | loadClass a =>
    obtain ⟨t, ht, _, kept⟩ := execLoadClass_leaves a s hs
    exact .of_kept ht kept.within (.of_lists id)
  | pathSet a =>
    obtain ⟨t, ht, moved⟩ := execPathSet_leaves a s hs
    exact ⟨t, ht, moved.within⟩
  | powerState a => exact s.powerState_answers a hs
  | resume a => exact (execResume_leaves a).answers hs
  | abandon a => exact (execAbandon_leaves a).answers hs
  | dataReadyEdge a =>
    obtain ⟨t, ht, _, kept, ring⟩ := execDataReadyEdge_leaves a s hs
    exact .of_kept ht kept.within (.of_lists fun bound => ring ▸ bound)
  | sampleReadComplete a sample =>
    obtain ⟨t, ht, _, _, kept, bound⟩ := execSampleReadComplete_leaves a sample s hs
    exact .of_kept ht kept.within (.of_lists bound)
  | imuSettleEnd a =>
    obtain ⟨t, ht, _, kept, ring⟩ := execImuSettleEnd_leaves a s hs
    exact .of_kept ht kept.within (.of_lists fun bound => ring ▸ bound)
  | lossDeadline a =>
    obtain ⟨t, ht, _, kept, ring⟩ := execLossDeadline_leaves a s hs
    exact .of_kept ht kept.within (.of_lists fun bound => ring ▸ bound)
  | lostPowerOffEnd a =>
    obtain ⟨t, ht, _, kept, ring⟩ := execLostPowerOffEnd_leaves a s hs
    exact .of_kept ht kept.within (.of_lists fun bound => ring ▸ bound)
  | runningOneSecond a =>
    obtain ⟨t, ht, _, kept, ring⟩ := execRunningOneSecond_leaves a s hs
    exact .of_kept ht kept.within (.of_lists fun bound => ring ▸ bound)
  | inputLineEdge a line level =>
    obtain ⟨t, ht, _, kept⟩ := execInputLineEdge_leaves a line level s hs
    exact .of_kept ht kept.within (.of_lists id)
  | timerExpiry a timer =>
    obtain ⟨t, ht, _, kept⟩ := execTimerExpiry_leaves a timer s hs
    exact .of_kept ht kept.within (.of_lists id)
  | extrapolationDeadline a => exact (execExtrapolationDeadline_leaves a).answers hs
  | chunkCopyComplete a => exact (execChunkCopyComplete_leaves a).answers hs
  | chunkPieceReadError a good => exact (execChunkPieceReadError_leaves a good).answers hs
  | cardDetectChange a => exact (execCardDetectChange_leaves a).answers hs
  | attachComplete a capacity usable => exact (execAttachComplete_leaves a capacity usable).answers hs
  | attachTimeout a => exact (execAttachTimeout_leaves a).answers hs
  | cardProgramming a => exact (execCardProgramming_leaves a).answers hs
  | cardWriteAccepted a => exact (execCardWriteAccepted_leaves a).answers hs
  | cardWriteError a => exact (execCardWriteError_leaves a).answers hs
  | cardBusyTimeout a => exact (execCardBusyTimeout_leaves a).answers hs
  | rawBufferReadComplete a => exact s.rawBufferReadComplete_answers a hs
  | rawReadComplete a ok data => exact (execRawReadComplete_leaves a ok data).answers hs
  | graceExpiry a => exact (execGraceExpiry_leaves a).answers hs
  | drainEnd a => exact (execDrainEnd_leaves a).answers hs
  | measurement a values => exact s.measurement_answers a values hs
  | periodicEvaluation a =>
    obtain ⟨t, ht, _, _, _, _, _, _, kept, -⟩ := execPeriodicEvaluation_leaves a s hs
    exact .of_kept ht kept.within (.of_lists id)
  | safetyTimerLimit a => exact (execSafetyTimerLimit_leaves a).answers hs
  | switchConfirm a switch =>
    obtain ⟨t, ht, moved⟩ := execSwitchConfirm_leaves a switch s hs
    exact ⟨t, ht, moved.within⟩
  | switchConfirmTimeout a =>
    obtain ⟨t, ht, moved⟩ := execSwitchConfirmTimeout_leaves a s hs
    exact ⟨t, ht, moved.within⟩
  | vinCollapse a =>
    obtain ⟨t, ht, moved⟩ := execVinCollapse_leaves a s hs
    exact ⟨t, ht, moved.within⟩

/-! ## Every command of every part -/

/-- The three commands that act on a part whose brownout reset is held (R186, log entry 35). -/
def actsHeld : Instr → Bool
  | .powerOnReset .. | .brownoutRelease _ | .inputLineEdge .. => true
  | _ => false

theorem exec_held {i : Instr} {s : State} (hs : s.supply.held = true) (hi : actsHeld i = false) :
    exec i s = .next (s.arriveHeld i.ambient) := by
  cases i with
  | powerOnReset | brownoutRelease | inputLineEdge => cases hi
  | _ =>
    dsimp only [exec]
    exact perform_held hs

/-- Part time after a command (R3, R186; log entries 1, 3 and 35). -/
def timeFrom (i : Instr) (s : State) : Time :=
  match i with
  | .powerOnReset _ _ => 0
  | .brownoutReset _ => if s.supply.held then s.time else 0
  | .brownoutRelease a => if s.supply.held then 0 else s.time + BitVec.ofNat 48 a.elapsed
  | i => if s.supply.held then s.time else s.time + BitVec.ofNat 48 i.ambient.elapsed

theorem timeFrom_of_free {i : Instr} {s : State} (hs : s.supply.held = false) (hi : resetsPart i = false) :
    timeFrom i s = s.time + BitVec.ofNat 48 i.ambient.elapsed := by
  cases i with
  | powerOnReset | brownoutReset => cases hi
  | _ => simp [timeFrom, hs, Instr.ambient]

theorem timeFrom_of_held {i : Instr} {s : State} (hs : s.supply.held = true) (hi : actsHeld i = false) :
    timeFrom i s = s.time := by
  cases i with
  | powerOnReset | brownoutRelease | inputLineEdge => cases hi
  | _ => simp [timeFrom, hs]

/-- What a command answers: a next state at the command's part time, within the capacities. -/
def State.Follows (s : State) (i : Instr) (t : State) : Prop :=
  exec i s = .next t ∧ t.time = timeFrom i s ∧ (s.Capacities → t.Capacities)

theorem exec_follows_of_free (i : Instr) (s : State) (hs : s.supply.held = false) : ∃ t, s.Follows i t := by
  cases hi : resetsPart i with
  | false =>
    obtain ⟨t, ht, time, capacities⟩ := State.answers_of_free i s hs hi
    exact ⟨t, ht, time.trans (timeFrom_of_free hs hi).symm, fun c => capacities (c.of_lists c.ring)⟩
  | true =>
    cases i with
    | powerOnReset a levels => exact ⟨_, exec_powerOnReset a levels s, rfl, fun _ => State.fullReset_capacities _ _ _⟩
    | brownoutReset a =>
      refine ⟨_, (perform_free hs : execBrownoutReset a s = _), by simp [timeFrom, hs], fun _ => ?_⟩
      exact (s.arrive a).brownout_capacities.of_lists (Nat.zero_le _)
    | _ => cases hi

theorem exec_follows_of_held (i : Instr) (s : State) (hs : s.supply.held = true) : ∃ t, s.Follows i t := by
  cases hi : actsHeld i with
  | false => exact ⟨_, exec_held hs hi, (timeFrom_of_held hs hi).symm, fun c => c.of_lists c.ring⟩
  | true =>
    cases i with
    | powerOnReset a levels => exact ⟨_, exec_powerOnReset a levels s, rfl, fun _ => State.fullReset_capacities _ _ _⟩
    | brownoutRelease a => exact ⟨_, if_pos hs, by simp [timeFrom, hs], fun _ => State.brownout_capacities _⟩
    | inputLineEdge a line level => exact ⟨_, if_pos hs, by simp [timeFrom, hs, State.arriveHeld], fun c => c.of_lists c.ring⟩
    | _ => cases hi

/-- Every command answers a next state, at its part time and within the capacities. -/
theorem exec_follows (i : Instr) (s : State) : ∃ t, s.Follows i t := by
  cases hs : s.supply.held with
  | false => exact exec_follows_of_free i s hs
  | true => exact exec_follows_of_held i s hs

/-- Settles O2: what every command answers, read for its part time. -/
theorem everyCommandAnswersAndPartTimePasses : Obligations.EveryCommandAnswersAndPartTimePasses := by
  unfold Obligations.EveryCommandAnswersAndPartTimePasses
  intro i s
  obtain ⟨t, answer, time, -⟩ := exec_follows i s
  refine ⟨t, answer, time.trans ?_⟩
  cases i <;> rfl

/-- Settles O56: an empty queue idles, and the front command is one of those that answer within the capacities; the queue of commands
is not among the lists that the manual bounds. -/
theorem stepsKeepCapacities : Obligations.StepsKeepCapacities := by
  unfold Obligations.StepsKeepCapacities
  intro s t capacities stepped
  unfold step at stepped
  split at stepped
  case h_1 idle =>
    cases stepped
    exact capacities
  case h_2 front rest queued =>
    obtain ⟨u, answer, -, kept⟩ := exec_follows front { s with pending := rest }
    cases answer.symm.trans stepped
    exact kept (capacities.of_lists capacities.ring)

end Sys2Proof.Machine
end

section
/-! SUPPORT. The motion front end: the comparator and its events, the port's times, marks and samples, the motion frames. -/

namespace Sys2Proof.Machine

/-! ## The record of an emitted event (R60) -/

theorem State.wake_events (r : WakeReason) (s : State) : (s.wake r).events = s.events := by
  unfold State.wake
  split <;> rfl

theorem State.directWake_events (n : BitVec 16) (s : State) : (s.directWake n).events = s.events := by
  unfold State.directWake
  split
  · exact s.wake_events _
  · split
    · exact s.wake_events _
    · split
      · exact s.wake_events _
      · rfl

/-- Outside SLEEP no event is silent (R74). -/
theorem State.silent_of_awake {s : State} (h : s.supply.power ≠ .sleep) (n : BitVec 16) : s.silent n = false := by
  simp [State.silent, h]

/-- Outside SLEEP an emitted event joins the record of events, ahead of those its sinks emit. -/
theorem emitFor_records (n : Nat) (e : Event) {s : State} (h : s.supply.power ≠ .sleep) :
    s.events ++ [e] <+: (emitFor (n + 1) e s).events := by
  have told : ∀ t : State, t.supply.power ≠ .sleep → t.events ++ [e] <+: (if t.silent e.number then t
      else (arrange t.race.sinks (t.router.routes.listening e.number)).foldl
        (fun t k => t.act (emitFor n) k e) { t with events := t.events ++ [e] }).events := by
    intro t ht
    rw [State.silent_of_awake ht, if_neg Bool.false_ne_true]
    exact (Kept.foldl (.refl { t with events := t.events ++ [e] }) _ _
      fun u k => u.kept_act (keeps_emitFor n) k e).events
  unfold emitFor
  dsimp only
  cases s.race.directFirst
  · simp only [Bool.false_eq_true, if_false, State.directWake_events]
    exact told s h
  · rw [← s.directWake_events e.number]
    exact told _ ((s.kept_directWake e.number).supply.power ▸ h)

theorem emit_records (e : Event) {s : State} (h : s.supply.power ≠ .sleep) : s.events ++ [e] <+: (emit e s).events :=
  emitFor_records 11 e h

theorem emit_records_onMotion (e : Event) (m : Motion) {s : State} (h : s.supply.power ≠ .sleep) :
    s.events ++ [e] <+: (emit e { s with motion := m }).events :=
  emit_records (s := { s with motion := m }) e h

/-! ## The comparator, case by case (R14) -/

theorem Motion.compare_begins {m : Motion} {M : Nat} (t : Time) (armed : m.armed = true) (high : m.shockHigh ≤ M) :
    m.compare t M = ({ m with armed := false, quiet := 0, shockTime := t, shockPeak := M }, .begins) := by
  simp [Motion.compare, armed, high]

theorem Motion.compare_below {m : Motion} {M : Nat} (t : Time) (armed : m.armed = true) (low : M < m.shockHigh) :
    m.compare t M = (m, .nothing) := by
  simp [Motion.compare, armed, Nat.not_le_of_lt low]

theorem Motion.compare_loud {m : Motion} {M : Nat} (t : Time) (disarmed : m.armed = false) (loud : m.quietLow < M) :
    m.compare t M = ({ m with quiet := 0, shockPeak := max m.shockPeak M }, .nothing) := by
  simp [Motion.compare, disarmed, loud]

theorem Motion.compare_ends {m : Motion} {M : Nat} (t : Time) (disarmed : m.armed = false) (quiet : M ≤ m.quietLow)
    (last : m.q ≤ m.quiet + 1) : m.compare t M = ({ m with armed := true, quiet := 0 }, .ends) := by
  simp [Motion.compare, disarmed, Nat.not_lt_of_le quiet, last]

theorem Motion.compare_quiet {m : Motion} {M : Nat} (t : Time) (disarmed : m.armed = false) (quiet : M ≤ m.quietLow)
    (more : m.quiet + 1 < m.q) : m.compare t M = ({ m with quiet := m.quiet + 1 }, .nothing) := by
  simp [Motion.compare, disarmed, Nat.not_lt_of_le quiet, Nat.not_le_of_lt more]

/-- A sample that begins a shock: SHOCK_TRUE at its recorded time, with its magnitude. -/
theorem State.shockStep_begins {s : State} {t : Time} {M : Nat} {m : Motion} (h : s.motion.compare t M = (m, .begins)) :
    s.shockStep t M = emit { number := 0x0300, time := t, arg := .num M } { s with motion := m } := by
  unfold State.shockStep
  rw [h]

/-- A sample that ends a shock: SHOCK_FALSE at its recorded time, with the peak. -/
theorem State.shockStep_ends {s : State} {t : Time} {M : Nat} {m : Motion} (h : s.motion.compare t M = (m, .ends)) :
    s.shockStep t M = emit { number := 0x0301, time := t, arg := .num m.shockPeak } { s with motion := m } := by
  unfold State.shockStep
  rw [h]

/-- Settles O25: the comparator case by case; its two events join the record of events. -/
theorem shockComparator : Obligations.ShockComparator := by
  unfold Obligations.ShockComparator
  intro m t M
  refine ⟨Motion.compare_begins t, Motion.compare_below t, Motion.compare_loud t, Motion.compare_ends t,
    Motion.compare_quiet t, fun s front awake => ⟨fun armed high => ?begins, fun disarmed quiet last => ?ends⟩⟩
  case begins =>
    subst front
    rw [State.shockStep_begins (Motion.compare_begins t armed high)]
    exact emit_records_onMotion _ _ awake
  case ends =>
    subst front
    rw [State.shockStep_ends (Motion.compare_ends t disarmed quiet last)]
    exact emit_records_onMotion _ _ awake

/-! ## The port's times (R4, R5, R8) -/

/-- The IMU's nominal period in µs, by the rate in effect or 100 Hz in PARKED (R7, R16). -/
theorem Motion.nominal_eq (m : Motion) : m.nominal = if m.parked then 10000 else match m.rate with
    | .hz400 => 2500
    | .hz800 => 1250
    | .hz1600 => 625
    | .hz3200 => 312 := by
  unfold Motion.nominal Rate.nominal
  split
  · rfl
  · cases m.rate <;> rfl

/-- A port that leaves RUNNING at its loss deadline, field by field (R5, R15). -/
theorem Motion.lose_running {m : Motion} (h : m.port = .running) (now : Time) : m.lose now = { m with
    port := if m.restarts < 3 then .lost else .failed
    restarts := if m.restarts < 3 then m.restarts + 1 else m.restarts
    offEnd := if m.restarts < 3 then some (now + 10000) else none
    losses := m.losses + 1, imuPower := false, settleEnd := none, lossDeadline := none, reading := none, waiting := none
    armed := true, quiet := if m.armed then m.quiet else 0 } := by
  unfold Motion.lose Motion.rearm
  by_cases few : m.restarts < 3
  · simp [h, few, timeAfter, Config.lostTime]
  · simp [h, few]

theorem Motion.owesShockFalse_running {m : Motion} (h : m.port = .running) : m.owesShockFalse = !m.armed := by
  simp [Motion.owesShockFalse, h]

/-- A port that leaves RUNNING gives the SHOCK_FALSE of a comparator that is not ARMED, with the last peak (R15). -/
theorem State.shockFalse_not (armed : Bool) (s : State) :
    s.shockFalse (!armed) = if armed then s else s.raise emit 0x0301 s.motion.shockPeak := by
  cases armed <;> rfl

/-- Settles O23: each of the five meanings on its two branches. -/
theorem imuPortTimes : Obligations.ImuPortTimes := by
  unfold Obligations.ImuPortTimes
  intro a s hs
  extract_lets u m put period
  have front : u.motion = m := rfl
  have nominal : m.nominal = period := m.nominal_eq
  refine ⟨?edge, ?settleEnd, ?offEnd, ?steady, ?loss⟩
  case edge =>
    have run : exec (.dataReadyEdge a) s = .next (put (m.edge u.time)) := (perform_free hs : execDataReadyEdge a s = _)
    rw [run]
    unfold Motion.edge
    by_cases off : m.port ≠ .running
    · rw [if_pos off, if_pos off]
      rfl
    · rw [if_neg off, if_neg off]
      cases m.reading <;> rfl
  case settleEnd =>
    have run : exec (.imuSettleEnd a) s = .next (if m.port = .starting ∧ dueAt u.time m.settleEnd then
        put (m.enterRunning u.time) else u) := (perform_free hs : execImuSettleEnd a s = _)
    rw [run]
    unfold Motion.enterRunning
    rw [nominal]
    rfl
  case offEnd => exact (perform_free hs : execLostPowerOffEnd a s = _)
  case steady => exact (perform_free hs : execRunningOneSecond a s = _)
  case loss =>
    have run : exec (.lossDeadline a) s = .next (if m.port = .running ∧ m.reading = none ∧ dueAt u.time m.lossDeadline then
        ((put (m.lose u.time)).shockFalse m.owesShockFalse).rest else u) := (perform_free hs : execLossDeadline a s = _)
    rw [run]
    by_cases lost : m.port = .running ∧ m.reading = none ∧ dueAt u.time m.lossDeadline = true
    · rw [if_pos lost, if_pos lost, Motion.lose_running lost.1, Motion.owesShockFalse_running lost.1, State.shockFalse_not]
    · rw [if_neg lost, if_neg lost]

/-! ## Marks, average, ring (R9 to R12) -/

theorem timeSince_eq_zero {t p : Time} : timeSince t p = 0 ↔ t = p := by
  unfold timeSince
  bv_omega

section
variable {m : Motion} {p : Time} (h : m.prev = some p) (t : Time)
include h

theorem Motion.raw_of_prev : m.raw t = some (timeSince t p) := by simp [Motion.raw, h]

theorem Motion.dt_of_prev : m.dt t = max 1 (min 4095 (t - p).toNat) := by
  simp [Motion.dt, Motion.raw_of_prev h, timeSince, clampTo, Config.maxDt]

theorem Motion.recorded_of_prev : m.recorded t = if t = p then p + 1 else t := by
  unfold Motion.recorded
  rw [h, Motion.raw_of_prev h]
  cases raw : timeSince t p with
  | zero => exact (if_pos (timeSince_eq_zero.mp raw)).symm
  | succ n =>
    have differs : t ≠ p := fun same => by simp [timeSince_eq_zero.mpr same] at raw
    exact (if_neg differs).symm

theorem Motion.gapMark_of_prev :
    m.gapMark t = true ↔ (4095 < (t - p).toNat ∨ 4 * m.average < (t - p).toNat) := by
  unfold Motion.gapMark
  rw [Motion.raw_of_prev h]
  simp only [Bool.or_eq_true, decide_eq_true_eq]
  rfl

/-- A recorded time lies after the previous one (R9). -/
theorem Motion.recorded_later : 0 < (m.recorded t - p).toNat := by
  rw [Motion.recorded_of_prev h]
  split
  · bv_omega
  · rename_i differs
    exact Nat.pos_of_ne_zero fun zero => differs (timeSince_eq_zero.mp zero)

end

/-- The first sample carries GAP, its dt the average, its recorded time its own (R9, R10). -/
theorem Motion.marks_of_first {m : Motion} (h : m.prev = none) (t : Time) :
    m.dt t = m.average ∧ m.recorded t = t ∧ m.gapMark t = true := by
  simp [Motion.dt, Motion.recorded, Motion.gapMark, Motion.raw, h]

theorem moveAverage_up {average dt : Nat} (h : average ≤ dt) : moveAverage average dt = average + (dt - average) / 16 := by
  unfold moveAverage
  rw [Int.tdiv_eq_ediv_of_nonneg (by omega)]
  omega

theorem moveAverage_down {average dt : Nat} (h : dt ≤ average) : moveAverage average dt = average - (average - dt) / 16 := by
  unfold moveAverage
  rw [show (dt : Int) - average = -(average - dt) by omega, Int.neg_tdiv, Int.tdiv_eq_ediv_of_nonneg (by omega)]
  omega

theorem clippedReading_iff (g : BitVec 16) : clippedReading g = true ↔ (g.toInt = 32767 ∨ g.toInt = -32768) := by
  have top : g = 0x7FFF ↔ g.toInt = 32767 := BitVec.toInt_inj.symm
  have bottom : g = 0x8000 ↔ g.toInt = -32768 := BitVec.toInt_inj.symm
  simp only [clippedReading, Bool.or_eq_true, beq_iff_eq, top, bottom]

theorem joinRing_eq_drop {l : List RingEntry} (h : l.length ≤ 64) (e : RingEntry) :
    joinRing l e = (l ++ [e]).drop (l.length + 1 - 64) := by
  unfold joinRing Config.ringSize
  split
  · rename_i full
    have one : l.length + 1 - 64 = 1 := by omega
    rw [one, List.drop_one, List.tail_append_of_ne_nil (List.ne_nil_of_length_pos (by omega))]
  · rename_i room
    have none : l.length + 1 - 64 = 0 := by omega
    simp [none]

/-! ## A completed sample read (R8, R14, R16) -/

theorem exec_sampleReadComplete_idle (a : Ambient) (x : Sample) {s : State} (hs : s.supply.held = false)
    (idle : s.motion.reading = none ∨ s.motion.port ≠ .running) : exec (.sampleReadComplete a x) s = .next (s.arrive a) := by
  refine (perform_free hs : execSampleReadComplete a x s = _).trans (congrArg Host.Outcome.next ?_)
  split
  next => rfl
  next t reading => exact if_pos (idle.resolve_left fun none => nomatch none.symm.trans reading)

section
variable (a : Ambient) (x : Sample) {s : State} (hs : s.supply.held = false) {t : Time} (reading : s.motion.reading = some t)
  (running : s.motion.port = .running)
include hs reading running

theorem exec_sampleReadComplete_running : exec (.sampleReadComplete a x) s = .next
    (if s.supply.power = .active then ((s.arrive a).activeSample t x).rest else ((s.arrive a).parkedSample t x).rest) := by
  refine (perform_free hs : execSampleReadComplete a x s = _).trans (congrArg Host.Outcome.next ?_)
  have read : (s.arrive a).motion.reading = some t := reading
  rw [read]
  exact if_neg (not_not_intro running)

theorem exec_sampleReadComplete_active (active : s.supply.power = .active) :
    exec (.sampleReadComplete a x) s = .next ((s.arrive a).activeSample t x).rest := by
  rw [exec_sampleReadComplete_running a x hs reading running, if_pos active]

theorem exec_sampleReadComplete_parked (parked : s.supply.power ≠ .active) :
    exec (.sampleReadComplete a x) s = .next ((s.arrive a).parkedSample t x).rest := by
  rw [exec_sampleReadComplete_running a x hs reading running, if_neg parked]

end

/-- Settles O24: the marks by whether a previous sample exists; a completed read by the power state, the comparator's step named once. -/
theorem sampleMarksAndSampleReadComplete : Obligations.SampleMarksAndSampleReadComplete := by
  unfold Obligations.SampleMarksAndSampleReadComplete
  refine ⟨⟨fun m t => ⟨fun first => Motion.marks_of_first first t, fun p prev => ?marks⟩,
    fun average dt => ⟨moveAverage_up, moveAverage_down⟩, clippedReading_iff, fun x => rfl⟩, fun a s x hs => ?read⟩
  case marks =>
    refine ⟨Motion.dt_of_prev prev t, Motion.recorded_of_prev prev t, Motion.gapMark_of_prev prev t,
      Motion.recorded_later prev t, fun clear => ?_⟩
    have notMarked := mt (Motion.gapMark_of_prev prev t).mpr (by simp [clear])
    omega
  case read =>
    refine ⟨exec_sampleReadComplete_idle a x hs, fun t reading running => ?_⟩
    extract_lets compared turned acc e average
    have compared_eq : ∀ n at_ v, compared n at_ v = State.shockStep at_ (magnitude x) { v with motion := n } := by
      intro n at_ v
      unfold compared State.shockStep
      dsimp only
      generalize n.compare at_ (magnitude x) = outcome
      obtain ⟨k, shock⟩ := outcome
      cases shock <;> rfl
    refine ⟨fun active => ?active, fun room => joinRing_eq_drop room e, fun parked => ?parked, fun v parked => ?wakes⟩
    case active =>
      rw [exec_sampleReadComplete_active a x hs reading running active, compared_eq]
      rfl
    case parked =>
      rw [exec_sampleReadComplete_parked a x hs reading running parked, compared_eq]
      rfl
    case wakes => simp [State.directWake, parked]

/-! ## The mount map (R21) -/

/-- The code that names a gyro axis. -/
def GyroAxis.code : GyroAxis → Nat
  | .x => 0
  | .y => 1
  | .z => 2

theorem GyroAxis.code_le (a : GyroAxis) : a.code ≤ 2 := by cases a <;> decide

theorem GyroAxis.code_inj {a b : GyroAxis} : a.code = b.code ↔ a = b := by
  cases a <;> cases b <;> decide

theorem gyroAxisOf_code (a : GyroAxis) : gyroAxisOf a.code = some a := by cases a <;> rfl

/-- A code names an axis or lies above 2. -/
theorem code_cases (n : Nat) : (∃ a : GyroAxis, n = a.code) ∨ 2 < n ∧ gyroAxisOf n = none := by
  match n with
  | 0 => exact .inl ⟨.x, rfl⟩
  | 1 => exact .inl ⟨.y, rfl⟩
  | 2 => exact .inl ⟨.z, rfl⟩
  | n + 3 => exact .inr ⟨by omega, rfl⟩

/-- A map is refused exactly when a code names no axis or an axis is named twice. -/
theorem mountOf_eq_none (axes signs : Axes Nat) : mountOf axes signs = none ↔
    (2 < axes.yaw ∨ 2 < axes.pitch ∨ 2 < axes.roll ∨ axes.yaw = axes.pitch ∨ axes.yaw = axes.roll ∨ axes.pitch = axes.roll) := by
  obtain ⟨yaw, pitch, roll⟩ := axes
  unfold mountOf
  dsimp only
  rcases code_cases yaw with ⟨b, rfl⟩ | ⟨outside, unnamed⟩
  · rcases code_cases pitch with ⟨p, rfl⟩ | ⟨outside, unnamed⟩
    · rcases code_cases roll with ⟨r, rfl⟩ | ⟨outside, unnamed⟩
      · simp [gyroAxisOf_code, GyroAxis.code_inj, Nat.not_lt_of_le (GyroAxis.code_le _)]
        tauto
      · simp [gyroAxisOf_code, outside, unnamed]
    · simp [gyroAxisOf_code, outside, unnamed]
  · simp [outside, unnamed]

/-! ## MOTION_SETUP (R4, R7, R13, R15) -/

section
variable (a : Ambient) {s : State} {f : MotionFields} (hs : s.supply.held = false)
  (body : s.frameBody .control = some (.motionSetup f))
include hs body

theorem exec_motionSetup_badMap (bad : mountOf f.axes f.signs = none) :
    exec (.motionSetup a) s = .next ((s.arrive a).finish .control .refused .badField 0) := by
  refine (perform_free hs : execMotionSetup a s = _).trans (congrArg Host.Outcome.next ?_)
  have arrived : (s.arrive a).frameBody .control = some (.motionSetup f) := body
  simp [arrived, bad]

theorem exec_motionSetup_busy {mount : Axes MapEntry} (good : mountOf f.axes f.signs = some mount)
    (changed : s.motion.changes f = true) (clip : s.writer.state ≠ .idle) :
    exec (.motionSetup a) s = .next ((s.arrive a).finish .control .refused .busy 0) := by
  refine (perform_free hs : execMotionSetup a s = _).trans (congrArg Host.Outcome.next ?_)
  have arrived : (s.arrive a).frameBody .control = some (.motionSetup f) := body
  simp [arrived, good, changed, clip]

theorem exec_motionSetup_taken {mount : Axes MapEntry} (good : mountOf f.axes f.signs = some mount)
    (free : s.motion.changes f = true → s.writer.state = .idle) : exec (.motionSetup a) s = .next (State.rest (State.finish
      (State.shockFalse (s.motion.changes f && s.motion.owesShockFalse) { s.arrive a with
        motion := (s.motion.applySetup f).setupPort (s.arrive a).time (s.motion.changes f)
        path := s.path.applySetup f mount })
      .control .done .ok 0)) := by
  refine (perform_free hs : execMotionSetup a s = _).trans (congrArg Host.Outcome.next ?_)
  have arrived : (s.arrive a).frameBody .control = some (.motionSetup f) := body
  rw [arrived]
  dsimp only
  rw [good]
  exact if_neg fun busy => busy.2 (free busy.1)

end

/-- The port set up keeps settings, ring, counts and peak. -/
theorem Motion.setupPort_keeps (now : Time) (changed : Bool) (m : Motion) :
    let n := m.setupPort now changed
    n.rate = m.rate ∧ n.dps2000 = m.dps2000 ∧ n.shockHigh = m.shockHigh ∧ n.quietLow = m.quietLow ∧ n.q = m.q
      ∧ n.samples = m.samples ∧ n.shockPeak = m.shockPeak := by
  unfold Motion.setupPort Motion.rearm
  dsimp only
  split
  · exact ⟨rfl, rfl, rfl, rfl, rfl, rfl, rfl⟩
  · exact ⟨rfl, rfl, rfl, rfl, rfl, rfl, rfl⟩
  · split
    · split <;> exact ⟨rfl, rfl, rfl, rfl, rfl, rfl, rfl⟩
    · exact ⟨rfl, rfl, rfl, rfl, rfl, rfl, rfl⟩

/-- From OFF and FAILED, and on a change, the port enters STARTING (R4, R6, R7); that FAILED alone clears the restart count is log
entry 40. -/
theorem Motion.setupPort_starting (now : Time) {changed : Bool} {m : Motion}
    (h : m.port = .off ∨ m.port = .failed ∨ changed = true) :
    let n := m.setupPort now changed
    n.port = .starting ∧ n.imuPower = true ∧ n.settleEnd = some (now + 50000) ∧ n.reading = none ∧ n.waiting = none
      ∧ n.restarts = if m.port = .failed then 0 else m.restarts := by
  unfold Motion.setupPort Motion.rearm
  split
  case h_1 off => simp [Motion.enterStarting, timeAfter, Config.settleTime, off]
  case h_2 failed => simp [Motion.enterStarting, timeAfter, Config.settleTime, failed]
  case h_3 notOff notFailed =>
    have moved : changed = true := (h.resolve_left notOff).resolve_left notFailed
    rw [if_pos moved, if_neg notFailed]
    split <;> simp [Motion.enterStarting, timeAfter, Config.settleTime]

/-- Otherwise the port stays as it is. -/
theorem Motion.setupPort_same (now : Time) {m : Motion} (notOff : m.port ≠ .off) (notFailed : m.port ≠ .failed) :
    m.setupPort now false = m := by
  unfold Motion.setupPort
  split
  · contradiction
  · contradiction
  · rfl

theorem Motion.applySetup_settings (m : Motion) (f : MotionFields) :
    let n := m.applySetup f
    n.rate = rateOf f.rate ∧ n.dps2000 = (f.fullScale != 0) ∧ n.shockHigh = max 1 (min 98304 f.shockHigh)
      ∧ n.quietLow = min (min 98304 f.quietLow) (n.shockHigh - 1) ∧ n.q = max 1 (min 255 f.q) := by
  simp [Motion.applySetup, clampShockHigh, clampQuietLow, clampTo, Config.maxProxy]

/-- The path's settings as they are clamped (R24, R33 to R35, R40, R45). -/
theorem Path.applySetup_eq (p : Path) (f : MotionFields) (mount : Axes MapEntry) : p.applySetup f mount = { p with
    mount
    gain := max 1 (min 65535 f.gain)
    shifts := { yaw := min 12 f.shifts.yaw, pitch := min 12 f.shifts.pitch, roll := min 12 f.shifts.roll }
    focal := max 200 (min 8000 f.focal)
    mx := min 32767 f.mx
    my := min 32767 f.my
    rl := min 16777216 f.rl
    alert := f.alert.setWidth 10
    bands := max 1 (min 16 f.bands)
    readout := max 100 (min 100000 f.readout) } := by
  have margin : ∀ x : Nat, min 32767 (min 65520 x) = min 32767 x := fun x => by omega
  simp [Path.applySetup, clampTo, Axes.map, margin]

/-! ## REFERENCE and EXPOSURE (R25, R46) -/

theorem clampReference_toInt (a : Angle) : (clampReference a).toInt = max (-67108864) (min 67108864 a.toInt) := by
  unfold clampReference angleOf clampInt
  rw [BitVec.toInt_ofInt]
  exact Int.bmod_eq_of_le (by omega) (by omega)

theorem exec_reference (a : Ambient) {s : State} (hs : s.supply.held = false) {v : Axes Angle}
    (body : s.frameBody .control = some (.reference v)) : exec (.reference a) s = .next (State.finish
      { s.arrive a with path := { s.path with pendingRef := some (v.map clampReference) } } .control .done .ok 0) := by
  refine (perform_free hs : execReference a s = _).trans (congrArg Host.Outcome.next ?_)
  have arrived : (s.arrive a).frameBody .control = some (.reference v) := body
  rw [arrived]
  rfl

theorem exec_exposure (a : Ambient) {s : State} (hs : s.supply.held = false) {us : Nat}
    (body : s.frameBody .control = some (.exposure us)) : exec (.exposure a) s = .next (State.finish
      { s.arrive a with path := { s.path with exposure := clampTo 0 500000 us } } .control .done .ok 0) := by
  refine (perform_free hs : execExposure a s = _).trans (congrArg Host.Outcome.next ?_)
  have arrived : (s.arrive a).frameBody .control = some (.exposure us) := body
  rw [arrived]
  rfl

/-- Settles O22: the refusals in their order, the frame taken, and the two path frames. -/
theorem motionSetupReferenceAndExposure : Obligations.MotionSetupReferenceAndExposure := by
  unfold Obligations.MotionSetupReferenceAndExposure
  refine ⟨⟨mountOf_eq_none, fun a s f hs body => ?setup⟩, fun a s hs => ⟨fun v body => ?reference, fun us body => ?exposure⟩⟩
  case setup =>
    refine ⟨exec_motionSetup_badMap a hs body, fun named differs clip => ?busy, fun mount good free => ?taken⟩
    case busy =>
      obtain ⟨mount, good⟩ := Option.ne_none_iff_exists'.mp named
      exact exec_motionSetup_busy a hs body good differs clip
    case taken =>
      obtain ⟨rate, scale, high, low, q, samples, peak⟩ :=
        (s.motion.applySetup f).setupPort_keeps (s.arrive a).time (s.motion.changes f)
      refine ⟨(s.motion.applySetup f).setupPort (s.arrive a).time (s.motion.changes f), s.path.applySetup f mount,
        (exec_motionSetup_taken a hs body good free).trans ?finished, ?settings,
        Motion.setupPort_starting (changed := s.motion.changes f) (m := s.motion.applySetup f) _,
        fun notOff notFailed same => ?same, Motion.setupPort_ring _ _ _, samples, Path.applySetup_eq _ _ _⟩
      case finished =>
        rw [Motion.owesShockFalse, ← Bool.and_assoc]
        unfold State.shockFalse
        dsimp only
        rw [peak]
        rfl
      case settings =>
        rw [rate, scale, high, low, q]
        exact s.motion.applySetup_settings f
      case same =>
        have unchanged : s.motion.changes f = false := same
        rw [unchanged, Motion.setupPort_same (m := s.motion.applySetup f) _ notOff notFailed]
        exact ⟨rfl, rfl, rfl, rfl, rfl, rfl⟩
  case reference =>
    exact ⟨_, exec_reference a hs body, clampReference_toInt _, clampReference_toInt _, clampReference_toInt _⟩
  case exposure =>
    rw [exec_exposure a hs body]
    simp [clampTo]

end Sys2Proof.Machine
end

section
/-! SUPPORT. In ACTIVE, events and block work leave the supply manager as it is: only a wake reaches it from there, and a wake acts
outside ACTIVE alone (R190). -/

namespace Sys2Proof.Machine

/-- In ACTIVE the supply manager has stayed as it was. -/
def KeepsActive (s t : State) : Prop := s.supply.power = .active → t.supply = s.supply

theorem KeepsActive.refl (s : State) : KeepsActive s s := fun _ => rfl

theorem KeepsActive.trans {s t u : State} (h : KeepsActive s t) (k : KeepsActive t u) : KeepsActive s u := fun active =>
  (k ((congrArg Supply.power (h active)).trans active)).trans (h active)

theorem KeepsActive.of_eq {s t u : State} (h : KeepsActive s t) (same : u.supply = t.supply) : KeepsActive s u :=
  h.trans fun _ => same

theorem KeepsActive.foldl {α : Type} {s t : State} (h : KeepsActive s t) (l : List α) (f : State → α → State)
    (k : ∀ u x, KeepsActive u (f u x)) : KeepsActive s (l.foldl f t) := by
  induction l generalizing t with
  | nil => exact h
  | cons x l ih => exact ih (h.trans (k _ _))

/-- What delivers events leaves the supply manager in ACTIVE. -/
def SparesActive (emit : Emit) : Prop := ∀ e s, KeepsActive s (emit e s)

theorem sparesActive_collect : SparesActive collect := fun _ s => .refl s

/-! ## Operations that reach no sink -/

theorem State.release_supply (l : Lane) (s : State) : (s.release l).supply = s.supply := by
  unfold State.release
  dsimp only
  split <;> rfl

theorem State.startClose_supply (r : CloseReason) (s : State) : (s.startClose r).supply = s.supply := by
  unfold State.startClose
  split
  · rfl
  · dsimp only
    split
    · split <;> rfl
    · rfl

theorem State.takeIncident_supply (t : Time) (n : BitVec 16) (s : State) : (s.takeIncident t n).supply = s.supply := by
  unfold State.takeIncident
  dsimp only
  split <;> rfl

theorem State.handMotion_supply (r : WarpRecord) (s : State) : (s.handMotion r).supply = s.supply := by
  unfold State.handMotion
  split
  · split <;> rfl
  · rfl

theorem State.buildTail_supply (r : CutReason) (b : Nat) (s : State) : (s.buildTail r b).supply = s.supply := by
  unfold State.buildTail
  split <;> rfl

theorem State.discards_supply (l : List Entry) (s : State) : (l.foldl (fun s e => s.discard e) s).supply = s.supply := by
  induction l generalizing s with
  | nil => rfl
  | cons e l ih => exact ih (s.discard e)

theorem State.dropRaw_supply (st : Status) (r : Result) (v : Nat) (s : State) : (s.dropRaw st r v).supply = s.supply := by
  unfold State.dropRaw
  split
  · rfl
  · split <;> rfl

theorem State.settleEntries_supply (resumed settling : Bool) (l : List Entry) (s : State) :
    (s.settleEntries resumed settling l).supply = s.supply := by
  unfold State.settleEntries
  dsimp only
  split <;> exact State.discards_supply _ s

theorem State.closeForCard_supply (b : TailBy) (s : State) : (s.closeForCard b).supply = s.supply := s.startClose_supply _

theorem State.noteUnit_supply (t : Time) (s : State) : (s.noteUnit t).supply = s.supply := by
  unfold State.noteUnit
  split <;> rfl

theorem State.fillingRemoved_supply (r : Option (Nat × Nat)) (s : State) : (s.fillingRemoved r).supply = s.supply := by
  unfold State.fillingRemoved
  split
  · split <;> rfl
  · rfl

theorem State.unplaced_supply (e : Entry) (first : Bool) (s : State) : (s.unplaced e first).supply = s.supply := by
  unfold State.unplaced
  extract_lets later a again b d
  have closed : d.supply = s.supply := (State.closeForCard_supply _ _).trans (State.discards_supply _ s)
  split <;> exact closed

/-! ## The delivery of an event -/

section
variable {emit : Emit} (k : SparesActive emit)
include k

theorem KeepsActive.emitted {s t : State} (same : t.supply = s.supply) (e : Event) : KeepsActive s (emit e t) := fun active =>
  (k e t ((congrArg Supply.power same).trans active)).trans same

theorem KeepsActive.raise {s t : State} (h : KeepsActive s t) (n : BitVec 16) (arg : Int) : KeepsActive s (t.raise emit n arg) :=
  h.trans (k _ _)

theorem KeepsActive.runCharger {s t : State} (h : KeepsActive s t) (f : Work → Work) : KeepsActive s (t.runCharger emit f) := by
  unfold State.runCharger
  refine .foldl ?_ _ _ fun u e => .raise k (.refl u) _ _
  refine h.of_eq ?_
  split <;> rfl

theorem KeepsActive.prompt {s t : State} (h : KeepsActive s t) : KeepsActive s (t.prompt emit) := h.runCharger k _

theorem State.keepsActive_publish (r : WarpRecord) (a : BitVec 10) (s : State) : KeepsActive s (s.publish emit r a).1 := by
  unfold State.publish
  split
  · exact .refl s
  · split
    · exact .refl s
    · dsimp only
      split
      · exact .refl s
      · refine .of_eq (t := emit _ _) ?_ rfl
        refine .emitted k ?_ _
        rfl

theorem State.keepsActive_produce (f : VFrame) (e : Ending) (s : State) : KeepsActive s (s.produce emit f e) := by
  unfold State.produce
  refine .of_eq (.trans (.trans ?_ (State.keepsActive_publish k _ _ _)) (k _ _)) (State.handMotion_supply _ _)
  split
  · exact .refl s
  · refine .emitted k ?_ _
    rfl

theorem State.keepsActive_whole (action : Emit → State → State) (h : ∀ u, KeepsActive u (action collect u)) (s : State) :
    KeepsActive s (s.whole emit action) := by
  unfold State.whole
  refine .foldl ?_ _ _ fun u e => k e u
  exact h { s with backlog := [] }

theorem State.keepsActive_examineFor (n : Nat) (s : State) : KeepsActive s (s.examineFor emit n) := by
  induction n generalizing s with
  | zero => exact .refl s
  | succ n ih =>
    unfold State.examineFor
    split
    · exact .refl s
    · split
      · exact .refl s
      · split
        · exact (State.keepsActive_whole k _ (State.keepsActive_produce sparesActive_collect _ _) s).trans (ih _)
        · exact .refl s

theorem State.keepsActive_hostPause (on : Bool) (s : State) : KeepsActive s (s.hostPause emit on) := by
  unfold State.hostPause
  split
  · exact .refl s
  · exact (KeepsActive.refl s).runCharger k _

end

theorem State.keepsActive_forceOut (s : State) : KeepsActive s (s.forceOut collect) := by
  unfold State.forceOut
  split
  · split
    · exact State.keepsActive_produce sparesActive_collect _ _ (s.onPath _)
    · exact .refl s
  · exact .refl s

theorem State.keepsActive_openVideo (t : Time) (s : State) : KeepsActive s (s.openVideo collect t) :=
  State.keepsActive_forceOut (s.onPath _)

/-- A wake acts outside ACTIVE alone (R190). -/
theorem State.keepsActive_wake (r : WakeReason) (s : State) : KeepsActive s (s.wake r) := by
  unfold State.wake
  split
  case isTrue away => exact fun active => absurd active away.1
  case isFalse => exact .refl s

theorem State.keepsActive_directWake (n : BitVec 16) (s : State) : KeepsActive s (s.directWake n) := by
  unfold State.directWake
  split
  · exact s.keepsActive_wake _
  · split
    · exact s.keepsActive_wake _
    · split
      · exact s.keepsActive_wake _
      · exact .refl s

theorem State.keepsActive_act {emit : Emit} (k : SparesActive emit) (sink : Sink) (e : Event) (s : State) :
    KeepsActive s (s.act emit sink e) := by
  cases sink with
  | frameStart =>
    change KeepsActive s (s.frameStart emit e.time)
    unfold State.frameStart
    split
    · exact .refl s
    · exact (State.keepsActive_whole k _ (State.keepsActive_openVideo _) s).trans (State.keepsActive_examineFor k 4 _)
  | frameEnd =>
    change KeepsActive s (s.frameEnd emit e.time)
    unfold State.frameEnd
    split
    · exact .refl s
    · split
      · exact State.keepsActive_examineFor k 4 (s.onPath _)
      · exact .refl s
  | incident => exact (KeepsActive.refl s).of_eq (s.takeIncident_supply _ _)
  | cut =>
    change KeepsActive s (if s.writer.state = .opened then s.onWriter fun w => { w with cutRequest := true } else s)
    split <;> exact .refl s
  | close => exact (KeepsActive.refl s).of_eq (s.startClose_supply _)
  | pause | resume => exact s.keepsActive_hostPause k _
  | recentre | setLine | clearLine => exact .refl s
  | wakeA | wakeB => exact s.keepsActive_wake _

/-- An emission, at any depth, leaves the supply manager in ACTIVE. -/
theorem sparesActive_emitFor (n : Nat) : SparesActive (emitFor n) := by
  induction n with
  | zero => exact sparesActive_collect
  | succ n ih =>
    intro e s
    have told : ∀ t : State, KeepsActive t (if t.silent e.number then t
        else (arrange t.race.sinks (t.router.routes.listening e.number)).foldl
          (fun t k => t.act (emitFor n) k e) { t with events := t.events ++ [e] }) := by
      intro t
      split
      · exact .refl t
      · refine .foldl ?_ _ _ fun u x => State.keepsActive_act ih _ _ _
        exact .refl t
    unfold emitFor
    dsimp only
    cases s.race.directFirst
    · exact (told s).trans (State.keepsActive_directWake _ _)
    · exact (s.keepsActive_directWake _).trans (told _)

theorem sparesActive_emit : SparesActive emit := sparesActive_emitFor _

/-! ## The pieces of block work -/

theorem KeepsActive.told {s t : State} (h : KeepsActive s t) (n : BitVec 16) (arg : Int) :
    KeepsActive s (t.raise Machine.emit n arg) := h.raise sparesActive_emit n arg

theorem KeepsActive.startClose {s t : State} (h : KeepsActive s t) (r : CloseReason) : KeepsActive s (t.startClose r) :=
  h.of_eq (t.startClose_supply r)

theorem KeepsActive.raiseFull {s t : State} (h : KeepsActive s t) : KeepsActive s t.raiseFull := h.told _ _

/-- A piece of block work that waits for a condition. -/
theorem KeepsActive.guarded {s t : State} (h : KeepsActive s t) (c : Prop) [Decidable c] :
    KeepsActive s ((if c then some t else none).getD s) := by
  split
  · exact h
  · exact .refl s

theorem State.keepsActive_takeBacklog (s : State) : KeepsActive s (s.takeBacklog.getD s) := by
  unfold State.takeBacklog
  split
  · exact .refl s
  · refine .emitted sparesActive_emit ?_ _
    rfl

theorem State.keepsActive_levelStep (s : State) : KeepsActive s (s.levelStep.getD s) := by
  unfold State.levelStep
  dsimp only
  split
  · refine .told ?_ _ _
    exact .refl s
  · exact .refl s

theorem State.keepsActive_reportStep (s : State) : KeepsActive s (s.reportStep.getD s) := by
  unfold State.reportStep
  split
  · split <;> exact .refl s
  · exact .refl s

theorem State.keepsActive_joinStep (s : State) : KeepsActive s (s.joinStep.getD s) := by
  unfold State.joinStep
  split
  · split <;> exact .refl s
  · exact .refl s

/-! ### Matters of the storage map -/

theorem KeepsActive.opened {s t : State} (h : KeepsActive s t) (n : Word) (i : Nat) (a : Option Nat) :
    KeepsActive s (t.opened n i a) := by
  unfold State.opened
  split
  · have told := h.told 0x0400 n.toNat
    dsimp only
    split <;> exact told
  · refine KeepsActive.startClose (t := State.onWriter _ _) ?_ _
    refine KeepsActive.raiseFull (t := State.onStore _ _) ?_
    exact h

theorem KeepsActive.positioned {s t : State} (h : KeepsActive s t) (i : Fin 4) (a : PosAnswer) :
    KeepsActive s (t.positioned i a) := by
  cases a with
  | position | extentsFull => exact h
  | none => exact h.raiseFull.startClose _

theorem KeepsActive.closeAnswered {s t : State} (h : KeepsActive s t) (b : Bool) (a : Option Nat) :
    KeepsActive s (t.closeAnswered b a) := by
  cases a with
  | none => exact h
  | some block => exact h.of_eq (t.buildTail_supply _ block)

theorem KeepsActive.removalMade {s t : State} (h : KeepsActive s t) (b : Nat) (asked : Bool) (r : Option (Nat × Nat)) :
    KeepsActive s (t.removalMade b asked r) := by
  unfold State.removalMade State.removed
  split <;> exact h.of_eq (State.fillingRemoved_supply _ _)

theorem KeepsActive.replaced {s t : State} (h : KeepsActive s t) (e : Entry) (settled first : Bool) (a : PosAnswer) :
    KeepsActive s (t.replaced e settled first a) := by
  have unplaced : KeepsActive s (t.unplaced e first) := h.of_eq (t.unplaced_supply e first)
  unfold State.replaced
  split
  · dsimp only
    split <;> exact h
  · split
    · exact h
    · dsimp only
      split
      · exact unplaced.raiseFull
      · exact unplaced

theorem KeepsActive.fillingReplaced {s t : State} (h : KeepsActive s t) (i : Fin 4) (a : PosAnswer) :
    KeepsActive s (t.fillingReplaced i a) := by
  unfold State.fillingReplaced
  split
  · exact h
  · have closed : KeepsActive s ((t.onWriter fun w => w.onBuf i fun _ => .empty).startClose .card) :=
      KeepsActive.startClose (t := t.onWriter _) h _
    dsimp only
    split
    · exact closed.raiseFull
    · exact closed

theorem KeepsActive.completed {s t : State} (h : KeepsActive s t) (n : Word) : KeepsActive s (t.completed n) := h.told _ _

/-- A matter's answer keeps the supply manager in ACTIVE when its sequel does. -/
theorem State.keepsActive_matterReply {α : Type} (rest : List Matter) (r : Reply α) {k : α → State → State}
    (hk : ∀ a s t, KeepsActive s t → KeepsActive s (k a t)) (s : State) : KeepsActive s ((s.matterReply rest r k).getD s) := by
  unfold State.matterReply
  split
  · split <;> exact .refl s
  · exact .refl s
  · exact hk _ s _ (.refl s)

theorem State.keepsActive_matterStep (s : State) : KeepsActive s (s.matterStep.getD s) := by
  unfold State.matterStep
  dsimp only
  split
  · exact .refl s
  · exact s.keepsActive_matterReply _ _ fun a _ _ h => h.opened _ _ a
  · exact s.keepsActive_matterReply _ _ fun a _ _ h => h.positioned _ a
  · exact s.keepsActive_matterReply _ _ fun a _ _ h => h.closeAnswered _ a
  · exact s.keepsActive_matterReply _ _ fun _ _ _ h => h.completed _
  · exact s.keepsActive_matterReply _ _ fun a _ _ h => h.removalMade _ _ a
  · split
    · exact .refl s
    · exact s.keepsActive_matterReply _ _ fun a _ _ h => h.replaced _ _ _ a
  · exact s.keepsActive_matterReply _ _ fun a _ _ h => h.fillingReplaced _ a

theorem State.keepsActive_completionStep (s : State) : KeepsActive s (s.completionStep.getD s) := by
  unfold State.completionStep
  dsimp only
  generalize List.find? _ s.store.table = found
  cases found <;> exact .refl s

/-! ### The card port -/

theorem State.keepsActive_cardFault (o : CardOutcome) (e : Entry) (s : State) : KeepsActive s (s.cardFault Machine.emit o e) := by
  unfold State.cardFault
  split
  · exact .refl s
  · extract_lets rest list u r a b c d f a'
    split
    · refine .told ?_ _ _
      have graced : b.supply = s.supply := by
        unfold b
        split <;> rfl
      have dropped : d.supply = s.supply := (State.dropRaw_supply _ _ _ c).trans graced
      unfold f
      split <;> exact (KeepsActive.refl s).of_eq dropped
    · refine (KeepsActive.refl s).of_eq ((State.closeForCard_supply _ _).trans ((State.settleEntries_supply _ _ _ _).trans ?_))
      unfold a'
      split <;> rfl

theorem State.keepsActive_endUnbegun (s : State) : KeepsActive s ((s.endUnbegun Machine.emit).getD s) := by
  unfold State.endUnbegun
  dsimp only
  split
  · split
    · exact s.keepsActive_cardFault _ _
    · exact .refl s
  · exact .refl s

theorem State.keepsActive_beginEntry (e : Entry) (s : State) : KeepsActive s (s.beginEntry Machine.emit e) := by
  unfold State.beginEntry
  refine .prompt sparesActive_emit (.told ?_ _ _)
  exact .refl s

theorem State.keepsActive_beginRaw (r : RawJob) (s : State) : KeepsActive s (s.beginRaw Machine.emit r) := by
  unfold State.beginRaw
  dsimp only
  split
  · refine .prompt sparesActive_emit (.told ?_ _ _)
    exact .refl s
  · exact .refl s

theorem State.keepsActive_arbitrate (s : State) : KeepsActive s ((s.arbitrate Machine.emit).getD s) := by
  have entry : ∀ o : Option Entry, KeepsActive s ((match o with
      | some e => if e.awaiting then none else some (s.beginEntry Machine.emit e)
      | none => none).getD s) := by
    intro o
    cases o with
    | none => exact .refl s
    | some e =>
      dsimp only
      split
      · exact .refl s
      · exact s.keepsActive_beginEntry e
  unfold State.arbitrate
  dsimp only
  split
  · exact .refl s
  · split
    · split
      · split
        · exact s.keepsActive_beginRaw _
        · split
          · exact s.keepsActive_beginRaw _
          · exact entry _
      · exact entry _
    · exact entry _

theorem State.keepsActive_resumeStep (s : State) : KeepsActive s (s.resumeStep.getD s) := by
  unfold State.resumeStep
  split <;> exact .refl s

/-! ### The clip assembler -/

theorem State.keepsActive_lostStep (s : State) : KeepsActive s (s.lostStep.getD s) := by
  unfold State.lostStep
  split
  · dsimp only
    split
    · split <;> exact .refl s
    · exact .refl s
  · exact .refl s

theorem State.keepsActive_fullStep (s : State) : KeepsActive s (s.fullStep.getD s) := by
  unfold State.fullStep
  dsimp only
  split
  · exact KeepsActive.guarded (t := State.onStore (State.onWriter (State.queueBuffer _ s) _) _) (.refl s) _
  · exact .refl s

theorem State.keepsActive_feedStep (s : State) : KeepsActive s (s.feedStep.getD s) := by
  unfold State.feedStep
  split
  · exact .refl s
  · cases s.writer.feedStep s.xchg.mem <;> exact .refl s

theorem State.keepsActive_queueStep (s : State) : KeepsActive s (s.queueStep.getD s) := by
  unfold State.queueStep
  dsimp only
  split
  · exact .guarded ((KeepsActive.refl s).of_eq (State.noteUnit_supply _ (s.onWriter _))) _
  · exact .refl s

theorem State.keepsActive_jobStep (s : State) : KeepsActive s (s.jobStep.getD s) := by
  unfold State.jobStep
  split
  · exact .refl s
  · dsimp only
    split
    · split
      · split
        · exact .refl s
        · split <;> exact .refl s
      · split <;> exact .refl s
    · split
      · split
        · exact (KeepsActive.refl s).of_eq (State.noteUnit_supply _ _)
        · exact .refl s
      · exact .refl s
    · exact .refl s

theorem State.keepsActive_cutStep (s : State) : KeepsActive s (s.cutStep.getD s) := by
  unfold State.cutStep
  dsimp only
  repeat' split
  all_goals exact .refl s

theorem State.keepsActive_endClose (s : State) : KeepsActive s s.endClose := by
  unfold State.endClose
  extract_lets w clip a b
  have finished : b.supply = s.supply := by
    unfold b
    split
    · split
      · split <;> rfl
      · rfl
    · rfl
  exact ((KeepsActive.refl s).of_eq finished).told 0x0402 _

theorem State.keepsActive_closeStep (s : State) : KeepsActive s (s.closeStep.getD s) := by
  unfold State.closeStep
  dsimp only
  split
  · exact .refl s
  · cases s.writer.closing with
    | finish => exact s.keepsActive_endClose
    | _ =>
      dsimp only
      repeat' split
      all_goals exact .refl s

/-- Every piece of block work. -/
theorem keepsActive_allWork : ∀ f ∈ allWork, ∀ s : State, KeepsActive s ((f s).getD s) := by
  simp only [allWork, List.forall_mem_cons]
  exact ⟨State.keepsActive_takeBacklog, State.keepsActive_levelStep, State.keepsActive_reportStep, State.keepsActive_joinStep,
    State.keepsActive_matterStep, State.keepsActive_completionStep, State.keepsActive_endUnbegun, State.keepsActive_arbitrate,
    State.keepsActive_lostStep, State.keepsActive_cutStep, State.keepsActive_closeStep, State.keepsActive_fullStep,
    State.keepsActive_feedStep, State.keepsActive_queueStep, State.keepsActive_jobStep, State.keepsActive_resumeStep,
    fun _ h => nomatch h⟩

theorem keepsActive_firstSome (l : List (State → Option State)) (hl : ∀ f ∈ l, ∀ s : State, KeepsActive s ((f s).getD s))
    (s : State) : KeepsActive s ((firstSome s l).getD s) := by
  induction l with
  | nil => exact .refl s
  | cons f l ih =>
    have first := hl f List.mem_cons_self s
    unfold firstSome
    split
    next t applies =>
      rw [applies] at first
      exact first
    next => exact ih fun g mem => hl g (List.mem_cons_of_mem _ mem)

theorem State.keepsActive_settleFor (n : Nat) (s : State) : KeepsActive s (s.settleFor n) := by
  induction n generalizing s with
  | zero => exact .refl s
  | succ n ih =>
    have piece := keepsActive_firstSome allWork keepsActive_allWork s
    unfold State.settleFor
    split
    next t applies =>
      rw [applies] at piece
      exact piece.trans (ih t)
    next => exact .refl s

theorem State.refresh_supply (s : State) : s.refresh.supply = s.supply := by
  unfold State.refresh
  split
  · rfl
  · split <;> rfl

theorem State.refreshIfAsked_supply (s : State) : s.refreshIfAsked.supply = s.supply := by
  unfold State.refreshIfAsked
  split
  · exact s.refresh_supply
  · rfl

/-- Coming to rest leaves the supply manager in ACTIVE. -/
theorem State.keepsActive_rest (s : State) : KeepsActive s s.rest :=
  (s.keepsActive_settleFor Config.settleBound).of_eq (State.refreshIfAsked_supply _)

end Sys2Proof.Machine
end

section
/-! SUPPORT. START and LINK_RESET with START: the anchor check begun, and the return to ACTIVE (R15, R18, R78, R191). -/

namespace Sys2Proof.Machine

/-! ## START case by case -/

/-- The state with the anchor check begun at the address of the ANCHOR registers (R78). -/
def State.checkBegun (s : State) : State := { s with xchg := { s.xchg with
  starting := some (s.xchg.anchorHigh.toNat * 4294967296 + s.xchg.anchorLow.toNat) } }

/-- The state back in ACTIVE, before the events of the return (R18, R191). -/
def State.returned (s : State) : State := { s with
  supply := { s.supply with power := .active, hostPower := true }
  motion := s.motion.wake s.time }

theorem State.start_ignored {s : State} (h : ¬((s.xchg.state = .off ∨ s.xchg.state = .anchorBad) ∧ s.xchg.starting = none)) :
    s.start = s := if_neg h

theorem State.start_active {s : State} (h : (s.xchg.state = .off ∨ s.xchg.state = .anchorBad) ∧ s.xchg.starting = none)
    (active : s.supply.power = .active) : s.start = s.checkBegun :=
  (if_pos h).trans (if_pos active)

theorem State.start_away {s : State} (h : (s.xchg.state = .off ∨ s.xchg.state = .anchorBad) ∧ s.xchg.starting = none)
    (away : s.supply.power ≠ .active) :
    s.start = (s.checkBegun.returned.shockFalse s.motion.owesShockFalse).prompt emit :=
  (if_pos h).trans (if_neg away)

/-- What the return comes to in the end, its events delivered and the part at rest: the supply manager as the return set it, and the
kept fields. -/
theorem State.start_away_rest {s : State} (h : (s.xchg.state = .off ∨ s.xchg.state = .anchorBad) ∧ s.xchg.starting = none)
    (away : s.supply.power ≠ .active) :
    Kept s.checkBegun.returned s.start.rest ∧ s.start.rest.supply = { s.supply with power := .active, hostPower := true } := by
  rw [State.start_away h away]
  refine ⟨((Kept.refl _).shockFalse _).prompt keeps_emit |>.rest, ?_⟩
  have told : KeepsActive s.checkBegun.returned (s.checkBegun.returned.shockFalse s.motion.owesShockFalse) := by
    unfold State.shockFalse
    split
    · exact (KeepsActive.refl _).told _ _
    · exact .refl _
  exact (told.prompt sparesActive_emit).trans (State.keepsActive_rest _) rfl

theorem Motion.owesShockFalse_iff (m : Motion) : m.owesShockFalse = true ↔ m.port = .running ∧ m.armed = false := by
  simp [Motion.owesShockFalse]

/-- The front end after a return, field by field (R15, R18). -/
theorem Motion.wake_eq (m : Motion) (now : Time) : m.wake now = { m with
    port := .starting, imuPower := true, restarts := 0, parked := false, settleEnd := some (now + 50000)
    offEnd := none, lossDeadline := none, reading := none, waiting := none
    armed := if m.port = .running ∧ m.armed = false then true else m.armed
    quiet := if m.port = .running ∧ m.armed = false then 0 else m.quiet } := by
  unfold Motion.wake Motion.rearm
  by_cases running : m.port = .running
  · cases m.armed <;> simp [running, Motion.enterStarting, timeAfter, Config.settleTime]
  · simp [running, Motion.enterStarting, timeAfter, Config.settleTime]

/-! ## LINK_RESET -/

/-- A link reset that does not race an entry (R78, R82). -/
theorem State.linkResetByHost_applied {s : State} (h : s.entryRaces = false) :
    s.linkResetByHost = (s.linkReset false).onSupply fun u => { u with cause := .link } := by
  unfold State.linkResetByHost
  rw [h]
  rfl

theorem State.entryRaces_of_active {s : State} (h : s.supply.power = .active) : s.entryRaces = false := by
  simp [State.entryRaces, h]

theorem State.entryRaces_of_woken {s : State} (h : s.supply.wake ≠ .none) : s.entryRaces = false := by
  simp [State.entryRaces, h]

/-- A powered port settles again at a link reset, and the others stay as they are (R19). -/
theorem Motion.linkReset_port_ne_running (m : Motion) (now : Time) (b : Bool) : (m.linkReset now b).port ≠ .running := by
  unfold Motion.linkReset
  dsimp only
  split
  case h_4 off => exact off.trans_ne (by decide)
  case h_5 failed => exact failed.trans_ne (by decide)
  all_goals exact PortState.noConfusion

/-- Settles O6: START by the exchange state and the power state, then LINK_RESET as the reset with START on what it leaves. -/
theorem startBeginsTheAnchorCheck : Obligations.StartBeginsTheAnchorCheck := by
  unfold Obligations.StartBeginsTheAnchorCheck
  intro a s hs
  have start : exec (.start a) s = .next (s.arrive a).linkSeen.start.rest := (perform_free hs : execStart a s = _)
  have reset : exec (.linkReset a false) s = .next (s.arrive a).linkSeen.linkResetByHost :=
    (perform_free hs : execLinkReset a false s = _)
  have resetStart : exec (.linkReset a true) s = .next (s.arrive a).linkSeen.linkResetByHost.start.rest :=
    (perform_free hs : execLinkReset a true s = _)
  refine ⟨fun stopped unchecked active => ?begins, fun busy => ?ignored, fun active => ?resetBegins,
    fun away stopped unchecked => ?returns, ?whole⟩
  case begins =>
    rw [start, State.start_active (s := (s.arrive a).linkSeen) ⟨stopped, unchecked⟩ active]
    rfl
  case ignored =>
    rw [start, State.start_ignored]
    · rfl
    · rintro ⟨stopped, unchecked⟩
      change s.xchg.state = .off ∨ s.xchg.state = .anchorBad at stopped
      change s.xchg.starting = none at unchecked
      rcases stopped with stopped | stopped <;> simp [stopped, unchecked] at busy
  case resetBegins =>
    refine ⟨_, _, reset, resetStart, ?_⟩
    rw [State.linkResetByHost_applied (s := (s.arrive a).linkSeen) (State.entryRaces_of_active active), State.start_active]
    · rfl
    · exact ⟨.inl rfl, rfl⟩
    · exact active
  case returns =>
    obtain ⟨kept, supply⟩ := State.start_away_rest (s := (s.arrive a).linkSeen) ⟨stopped, unchecked⟩ away
    have front := kept.motion.trans (Motion.wake_eq _ _)
    refine ⟨_, start, ?_, ?_, kept.xchg.starting, ?_⟩
    · rw [supply]
    · rw [supply]
    · rw [front]
      exact ⟨rfl, rfl, rfl, rfl, rfl, rfl, rfl⟩
  case whole =>
    intro returned started
    have start_eq : ∀ t : State, t.start = started t := by
      intro t
      by_cases free : (t.xchg.state = .off ∨ t.xchg.state = .anchorBad) ∧ t.xchg.starting = none
      · refine Eq.trans ?_ (if_pos free).symm
        by_cases active : t.supply.power = .active
        · exact (State.start_active free active).trans (if_pos active).symm
        · rw [State.start_away free active]
          refine Eq.trans ?_ (if_neg active).symm
          unfold State.shockFalse State.returned
          rw [if_congr t.motion.owesShockFalse_iff rfl rfl, Motion.wake_eq]
          rfl
      · exact (State.start_ignored free).trans (if_neg free).symm
    refine ⟨by rw [start, start_eq]; rfl, _, reset, by rw [resetStart, start_eq], fun away woken => ?_⟩
    rw [State.linkResetByHost_applied (s := (s.arrive a).linkSeen) (State.entryRaces_of_woken woken)]
    exact ⟨rfl, rfl, rfl, Motion.linkReset_port_ne_running _ _ _⟩

end Sys2Proof.Machine
end

section
/-! SUPPORT. The path unit's arithmetic: the mapped rate and the roundings of integration, interpolation, smoothing, conversion and margins. -/

namespace Sys2Proof.Machine

/-! ## The mapped rate (R22) -/

/-- The reading of the gyro axis an entry names. -/
def GyroAxis.reading (axis : GyroAxis) (gx gy gz : BitVec 16) : BitVec 16 :=
  match axis with
  | .x => gx
  | .y => gy
  | .z => gz

theorem reading16_bounds (g : BitVec 16) : -32768 ≤ g.toInt ∧ g.toInt ≤ 32767 := by
  have low := g.le_toInt
  have high := g.toInt_lt
  omega

theorem mappedRate_plus (axis : GyroAxis) (gx gy gz : BitVec 16) :
    mappedRate { axis, minus := false } gx gy gz = (axis.reading gx gy gz).toInt := by
  cases axis <;> rfl

theorem mappedRate_minus (axis : GyroAxis) (gx gy gz : BitVec 16) :
    mappedRate { axis, minus := true } gx gy gz = min 32767 (-(axis.reading gx gy gz).toInt) := by
  cases axis <;> rfl

/-! ## Divisions -/

/-- A quotient truncated toward zero, by the sign and the size of what is divided. -/
theorem tdiv_natCast_eq_sign_mul (x : Int) (n : Nat) : x.tdiv n = x.sign * ((x.natAbs / n : Nat) : Int) := by
  obtain ⟨k, rfl | rfl⟩ := x.eq_nat_or_neg
  · rw [← Int.ofNat_tdiv]
    rcases k.eq_zero_or_pos with rfl | pos
    · simp
    · simp [Int.sign_eq_one_of_pos (Int.natCast_pos.mpr pos)]
  · rw [Int.neg_tdiv, ← Int.ofNat_tdiv]
    rcases k.eq_zero_or_pos with rfl | pos
    · simp
    · simp [Int.sign_eq_one_of_pos (Int.natCast_pos.mpr pos)]

theorem sign_mul_natCast_of_pos {n : Nat} (r : Int) (pos : 0 < n) : (r * n).sign = r.sign := by
  rw [Int.sign_mul, Int.sign_eq_one_of_pos (Int.natCast_pos.mpr pos), mul_one]

/-! ## Integration, interpolation, extrapolation, smoothing (R23, R28, R29, R33) -/

theorem rotation_rounds (r : Int) (dt gain : Nat) : 65536 * rotation r dt gain ≤ r * dt * gain + 32768
    ∧ r * dt * gain + 32768 < 65536 * rotation r dt gain + 65536 := by
  unfold rotation
  rw [Int.fdiv_eq_ediv_of_nonneg _ (by decide)]
  omega

theorem interpolate_eq (a b : Angle) (part whole : Nat) : interpolate a b part whole = a +
    BitVec.ofInt 32 (((b - a).toInt * part).sign * ((((b - a).toInt * part).natAbs / whole : Nat) : Int)) := by
  unfold interpolate angleOf angleInt
  rw [tdiv_natCast_eq_sign_mul]

theorem extrapolate_eq (a : Angle) (r : Int) (us gain : Nat) : extrapolate a r us gain =
    a + BitVec.ofInt 32 (r.sign * ((r.natAbs * min us 4095 * gain / 65536 : Nat) : Int)) := by
  unfold extrapolate angleOf Config.maxDt
  refine congrArg (fun i => a + BitVec.ofInt 32 i) ((tdiv_natCast_eq_sign_mul _ 65536).trans ?_)
  rw [Int.natAbs_mul, Int.natAbs_mul, Int.natAbs_natCast, Int.natAbs_natCast]
  rw [mul_assoc r, ← Nat.cast_mul, mul_assoc r.natAbs]
  generalize min us 4095 * gain = scale
  rcases scale.eq_zero_or_pos with rfl | pos
  · simp
  · rw [sign_mul_natCast_of_pos r pos]

theorem smoothed_eq (s a : Angle) (k : Nat) : smoothed s a k = s + BitVec.ofInt 32 ((a - s).toInt / 2 ^ k) := by
  unfold smoothed angleOf angleInt
  rw [Int.fdiv_eq_ediv_of_nonneg _ (by positivity)]

/-! ## Conversion and margins (R34, R36, R37) -/

theorem toPixels_nearest (c : Int) (f : Nat) : 2 * (c * f - toPixels c f * 1048576).natAbs ≤ 1048576
    ∧ (2 * (c * f - toPixels c f * 1048576).natAbs = 1048576 → (c * f).natAbs < (toPixels c f * 1048576).natAbs) := by
  unfold toPixels divNearest
  generalize c * f = x
  split <;> omega

theorem toPixels_neg (c : Int) (f : Nat) : toPixels (-c) f = -toPixels c f := by
  unfold toPixels divNearest
  rw [neg_mul]
  generalize c * f = x
  split <;> split <;> omega

/-- An angle that fits a margin exactly converts to at most that margin. -/
theorem toPixels_le {c f m : Nat} (h : c * f ≤ m * 1048576) : toPixels c f ≤ m := by
  unfold toPixels divNearest
  rw [← Nat.cast_mul]
  split <;> omega

theorem toPixels_nonneg (c f : Nat) : 0 ≤ toPixels c f := by
  unfold toPixels divNearest
  rw [← Nat.cast_mul]
  split <;> omega

theorem marginAngle_mul_le (m f : Nat) : marginAngle m f * f ≤ m * 1048576 := Nat.div_mul_le_self _ _

theorem lt_marginAngle_succ_mul (m : Nat) {f : Nat} (pos : 0 < f) : m * 1048576 < (marginAngle m f + 1) * f := by
  have h := Nat.lt_div_mul_add (a := m * 1048576) pos
  rw [add_mul, one_mul]
  exact h

theorem pushAxis_within {checked : Int} {margin : Nat} (h : checked.natAbs ≤ margin) (s a : Angle) (angle : Nat) :
    pushAxis s a checked margin angle = (s, false) := if_neg (by omega)

theorem pushAxis_past {checked : Int} {margin : Nat} (h : margin < checked.natAbs) (s a : Angle) (angle : Nat) :
    pushAxis s a checked margin angle =
      (if 0 < (s - a).toInt then a + BitVec.ofInt 32 angle else a - BitVec.ofInt 32 angle, true) := if_pos (by omega)

theorem toInt_ofInt_of_small {n : Nat} (h : n < 2147483648) : (BitVec.ofInt 32 (n : Int)).toInt = n := by
  rw [BitVec.toInt_ofInt]
  exact Int.bmod_eq_of_le (by omega) (by omega)

/-- After a push the smoothed path lies from the path value by the margin angle, to the side it lay on (R36). -/
theorem pushAxis_distance {checked : Int} {margin angle : Nat} (past : margin < checked.natAbs) (small : angle < 2147483648)
    (s a : Angle) : ((pushAxis s a checked margin angle).1 - a).toInt = if 0 < (s - a).toInt then (angle : Int) else -(angle : Int) := by
  have exactly := toInt_ofInt_of_small small
  rw [pushAxis_past past]
  dsimp only
  split
  · rw [show a + BitVec.ofInt 32 (angle : Int) - a = BitVec.ofInt 32 (angle : Int) by bv_omega, exactly]
  · rw [show a - BitVec.ofInt 32 (angle : Int) - a = -BitVec.ofInt 32 (angle : Int) by bv_omega, BitVec.toInt_neg, exactly]
    exact Int.bmod_eq_of_le (by omega) (by omega)

/-- Settles O26: the two signs of a mount entry, and each rounding by the division that makes it. -/
theorem mappedRateAndRoundings : Obligations.MappedRateAndRoundings := by
  unfold Obligations.MappedRateAndRoundings
  refine ⟨fun axis gx gy gz => ?mapped, rotation_rounds, toPixels_nearest,
    fun m f pos => ⟨toPixels_le (marginAngle_mul_le m f), marginAngle_mul_le m f, lt_marginAngle_succ_mul m pos⟩,
    fun s a checked margin angle => ⟨fun within => pushAxis_within within s a angle,
      fun past small => ⟨by rw [pushAxis_past past], pushAxis_distance past small s a⟩⟩,
    fun a b part whole _ => interpolate_eq a b part whole, extrapolate_eq, smoothed_eq⟩
  case mapped =>
    extract_lets g
    have named : g = (axis.reading gx gy gz).toInt := by cases axis <;> rfl
    obtain ⟨low, high⟩ := reading16_bounds (axis.reading gx gy gz)
    rw [← named] at low high
    have plus := mappedRate_plus axis gx gy gz
    have minus := mappedRate_minus axis gx gy gz
    rw [← named] at plus minus
    refine ⟨plus, ?saturated, fun sign => ?bounds, fun m t x angles hx hy hz => ?clipped⟩
    case saturated =>
      rw [minus]
      split <;> omega
    case bounds =>
      cases sign
      · rw [plus]
        omega
      · rw [minus]
        omega
    case clipped =>
      subst hx hy hz
      exact ⟨clippedReading_iff _, clippedReading_iff _, clippedReading_iff _⟩

end Sys2Proof.Machine
end

section
/-! SUPPORT. The path unit's records: the path value at a time, the span and its flags, and a computed record part by part. -/

namespace Sys2Proof.Machine

/-! ## The entries around a time (R28 to R30) -/

theorem bracket_none {ring : List RingEntry} {t : Time} (h : ∀ r ∈ ring, timeReached t r.time = false) :
    bracket ring t = none := by
  cases ring with
  | nil => rfl
  | cons e l =>
    have first := h e (by simp)
    cases l with
    | nil => simp [bracket, first]
    | cons e' l => simp [bracket, first, h e' (by simp)]

/-- An entry behind which a reached one stands is not the one sought. -/
theorem bracket_skip {e e' : RingEntry} {l : List RingEntry} {t : Time} (h : timeReached t e'.time = true) :
    bracket (e :: e' :: l) t = bracket (e' :: l) t := by
  simp [bracket, h]

/-- What the entries up to a reached one come to is found from that one. -/
theorem bracket_append {pre : List RingEntry} {k : RingEntry} {post : List RingEntry} {t : Time}
    (h : ∀ r ∈ pre ++ [k], timeReached t r.time = true) : bracket (pre ++ k :: post) t = bracket (k :: post) t := by
  induction pre with
  | nil => rfl
  | cons p pre ih =>
    have behind := ih fun r mem => h r (by simp_all)
    cases pre with
    | nil => exact bracket_skip (h k (by simp))
    | cons q pre => exact (bracket_skip (h q (by simp))).trans behind

theorem bracket_last {pre : List RingEntry} {n : RingEntry} {t : Time} (h : ∀ r ∈ pre ++ [n], timeReached t r.time = true) :
    bracket (pre ++ [n]) t = some (n, none) := by
  simp [bracket_append h, bracket, h n (by simp)]

theorem bracket_between {pre : List RingEntry} {k l : RingEntry} {post : List RingEntry} {t : Time}
    (reached : ∀ r ∈ pre ++ [k], timeReached t r.time = true) (ahead : timeReached t l.time = false) :
    bracket (pre ++ k :: l :: post) t = some (k, some l) := by
  simp [bracket_append reached, bracket, ahead, reached k (by simp)]

section
variable (p : Path) {pre : List RingEntry} {k l : RingEntry} {post : List RingEntry} {t : Time}

theorem Path.at_empty : p.at [] t = (p.value p.acc, .before) := rfl

theorem Path.at_before (h : ∀ r ∈ k :: post, timeReached t r.time = false) :
    p.at (k :: post) t = (p.value k.angles, .before) := by
  simp [Path.at, bracket_none h]

theorem Path.at_newest (h : ∀ r ∈ pre ++ [k], timeReached t r.time = true) : p.at (pre ++ [k]) t =
    if t = k.time then (p.value k.angles, .inside)
    else (Axes.map₂ (fun a (m : MapEntry) => extrapolate a (mappedRate m k.gx k.gy k.gz) (timeSince t k.time) p.gain)
      (p.value k.angles) p.mount, .after) := by
  simp [Path.at, bracket_last h]

theorem Path.at_between (reached : ∀ r ∈ pre ++ [k], timeReached t r.time = true) (ahead : timeReached t l.time = false) :
    p.at (pre ++ k :: l :: post) t = (if t = k.time ∨ l.gap = true then p.value k.angles
      else Axes.map₂ (fun a b => interpolate a b (timeSince t k.time) (timeSince l.time k.time)) (p.value k.angles)
        (p.value l.angles), .inside) := by
  unfold Path.at
  rw [bracket_between reached ahead]
  dsimp only
  split <;> rfl

end

/-! ## The span (section 2.7) -/

theorem takeThrough_eq_take (t : Time) (l : List RingEntry) :
    takeThrough t l = l.take ((l.takeWhile fun r => !timeReached r.time t).length + 1) := by
  induction l with
  | nil => rfl
  | cons e l ih => cases h : timeReached e.time t <;> simp [takeThrough, h, ih]

/-! ## The flags of a record (R38) -/

theorem getLsbD_flagIf (c : Bool) (k i : Nat) (h : k < 10) :
    (flagIf c (BitVec.twoPow 10 k)).getLsbD i = true ↔ i = k ∧ c = true := by
  cases c <;> simp [flagIf, BitVec.getLsbD_twoPow, h, eq_comm]

theorem getLsbD_axisFlags (x y r : Bool) (i : Nat) : (axisFlags x y r).getLsbD i = true ↔
    ((i = 0 ∧ x = true) ∨ (i = 1 ∧ y = true) ∨ (i = 2 ∧ r = true)) := by
  have bitX := getLsbD_flagIf x 0 i (by decide)
  have bitY := getLsbD_flagIf y 1 i (by decide)
  have bitR := getLsbD_flagIf r 2 i (by decide)
  unfold axisFlags
  rw [BitVec.getLsbD_or, BitVec.getLsbD_or, Bool.or_eq_true, Bool.or_eq_true, or_assoc]
  exact or_congr bitX (or_congr bitY bitR)

/-- The flags of a computed record, each by its bit. -/
theorem getLsbD_recordFlags (px py pr cx cy cr clipped gap after before assumed : Bool) (i : Nat) :
    (axisFlags px py pr ||| axisFlags cx cy cr ||| flagIf clipped flagGyroClipped ||| flagIf gap flagGap
      ||| flagIf after flagExtrapolated ||| flagIf before flagHistoryShort ||| flagIf assumed flagEndAssumed).getLsbD i = true ↔
    ((i = 0 ∧ (px = true ∨ cx = true)) ∨ (i = 1 ∧ (py = true ∨ cy = true)) ∨ (i = 2 ∧ (pr = true ∨ cr = true))
      ∨ (i = 3 ∧ clipped = true) ∨ (i = 4 ∧ gap = true) ∨ (i = 5 ∧ after = true) ∨ (i = 6 ∧ before = true)
      ∨ (i = 7 ∧ assumed = true)) := by
  have bitClipped : (flagIf clipped flagGyroClipped).getLsbD i = true ↔ _ := getLsbD_flagIf clipped 3 i (by decide)
  have bitGap : (flagIf gap flagGap).getLsbD i = true ↔ _ := getLsbD_flagIf gap 4 i (by decide)
  have bitAfter : (flagIf after flagExtrapolated).getLsbD i = true ↔ _ := getLsbD_flagIf after 5 i (by decide)
  have bitBefore : (flagIf before flagHistoryShort).getLsbD i = true ↔ _ := getLsbD_flagIf before 6 i (by decide)
  have bitAssumed : (flagIf assumed flagEndAssumed).getLsbD i = true ↔ _ := getLsbD_flagIf assumed 7 i (by decide)
  simp only [BitVec.getLsbD_or, Bool.or_eq_true, getLsbD_axisFlags, bitClipped, bitGap, bitAfter, bitBefore, bitAssumed,
    and_or_left, or_assoc, or_left_comm]

/-! ## Margins (R36, R37) -/

theorem clampMargin_natAbs_le (m : Nat) (x : Int) : (clampMargin m x).natAbs ≤ m := by
  unfold clampMargin clampInt
  omega

theorem clampMargin_bne_iff (m : Nat) (x : Int) : (clampMargin m x != x) = true ↔ m < x.natAbs := by
  unfold clampMargin clampInt
  rw [bne_iff_ne]
  omega

/-- Band values past their margin on one axis, found among the band times (R38). -/
theorem any_clamped (values : Time → Band) (axis : Band → Int) (margin : Nat) (times : List Time) :
    (times.map values).any (fun b => clampMargin margin (axis b) != axis b) = true ↔
      ∃ t ∈ times, margin < (axis (values t)).natAbs := by
  simp only [List.any_map, List.any_eq_true, Function.comp_apply, clampMargin_bne_iff]

theorem marginAngle_lt {m f : Nat} (margin : m ≤ 32767) (focal : 200 ≤ f) : marginAngle m f < 2147483648 := by
  unfold marginAngle
  refine (Nat.div_lt_iff_lt_mul (by omega)).mpr ?_
  omega

/-- Past the margin check a correction in pixels lies within the margin (R36). -/
theorem toPixels_pushAxis_le (s a : Angle) {m f : Nat} (margin : m ≤ 32767) (focal : 200 ≤ f) :
    (toPixels ((pushAxis s a (toPixels (s - a).toInt f) m (marginAngle m f)).1 - a).toInt f).natAbs ≤ m := by
  rcases Nat.lt_or_ge m (toPixels (s - a).toInt f).natAbs with past | within
  · have most := toPixels_le (marginAngle_mul_le m f)
    have least := toPixels_nonneg (marginAngle m f) f
    rw [pushAxis_distance past (marginAngle_lt margin focal)]
    split
    · omega
    · rw [toPixels_neg]
      omega
  · rw [pushAxis_within within]
    exact within

/-- Past the margin check the roll correction lies within its margin (R36). -/
theorem pushAxis_roll_le (s a : Angle) {rl : Nat} (h : rl ≤ 16777216) :
    ((pushAxis s a (s - a).toInt rl rl).1 - a).toInt.natAbs ≤ rl := by
  rcases Nat.lt_or_ge rl (s - a).toInt.natAbs with past | within
  · rw [pushAxis_distance past (by omega)]
    split <;> omega
  · rw [pushAxis_within within]
    exact within

/-! ## The computation, part by part (R32, R52) -/

section
variable (p : Path) (ring : List RingEntry) (f : VFrame) (e : Ending)

/-- The references, field by field (R27). -/
theorem Path.applyReferences_refs : (p.applyReferences f).acc = p.acc ∧ (p.applyReferences f).swref = f.ref.getD p.swref
    ∧ (p.applyReferences f).hwref = f.recentre.getD p.hwref
    ∧ (p.applyReferences f).smooth = if f.recentre.isSome then f.ref.getD p.swref else p.smooth := by
  unfold Path.applyReferences
  cases f.recentre <;> exact ⟨rfl, rfl, rfl, rfl⟩

/-- What every computation leaves and names: the accumulators, the references, the video frame (R27, R32). -/
theorem Path.compute_names : let c := p.compute ring f e
    c.path.acc = p.acc ∧ c.path.swref = f.ref.getD p.swref ∧ c.path.hwref = f.recentre.getD p.hwref
    ∧ c.record.number = f.number ∧ c.record.start = f.start ∧ c.record.stop = e.stop := by
  obtain ⟨acc, swref, hwref, -⟩ := p.applyReferences_refs f
  unfold Path.compute
  dsimp only
  split <;> exact ⟨acc, swref, hwref, rfl, rfl, rfl⟩

theorem Path.compute_number : (p.compute ring f e).record.number = f.number := by
  obtain ⟨-, -, -, number, -, -⟩ := p.compute_names ring f e
  exact number

theorem Path.compute_noMotion (h : e.noMotion = true) : p.compute ring f e =
    { path := p.applyReferences f, record := noMotionRecord (p.applyReferences f) f e, pushed := 0 } := if_pos h

/-- A computed record, from what the path unit finds at the centre and what the margin check makes of it (R32 to R38). -/
theorem Path.compute_motion {q : Path} {mid : Axes Angle} {found : Sought} {yaw pitch roll : Angle × Bool}
    (motion : e.noMotion = false) (refs : p.applyReferences f = q) (centre : q.at ring e.centre = (mid, found))
    (pushedYaw : let s := smoothed q.smooth.yaw mid.yaw f.shifts.yaw
      pushAxis s mid.yaw (toPixels (s - mid.yaw).toInt f.focal) f.mx (marginAngle f.mx f.focal) = yaw)
    (pushedPitch : let s := smoothed q.smooth.pitch mid.pitch f.shifts.pitch
      pushAxis s mid.pitch (toPixels (s - mid.pitch).toInt f.focal) f.my (marginAngle f.my f.focal) = pitch)
    (pushedRoll : let s := smoothed q.smooth.roll mid.roll f.shifts.roll
      pushAxis s mid.roll (s - mid.roll).toInt f.rl f.rl = roll) :
    let s : Axes Angle := { yaw := yaw.1, pitch := pitch.1, roll := roll.1 }
    let values (t : Time) : Band := bandOf s (q.at ring t).1 f.focal
    let soughts := found :: e.bands.map fun t => (q.at ring t).2
    let span := spanOf ring e.first e.last
    p.compute ring f e =
      { path := { q with smooth := s }
        record :=
          { number := f.number
            flags := axisFlags yaw.2 pitch.2 roll.2
              ||| axisFlags ((e.bands.map values).any fun b => clampMargin f.mx b.yaw != b.yaw)
                    ((e.bands.map values).any fun b => clampMargin f.my b.pitch != b.pitch)
                    ((e.bands.map values).any fun b => clampMargin f.rl b.roll != b.roll)
              ||| flagIf (span.any fun r => r.clipX || r.clipY || r.clipZ) flagGyroClipped
              ||| flagIf (span.any fun r => r.gap) flagGap
              ||| flagIf (soughts.contains .after) flagExtrapolated
              ||| flagIf (soughts.contains .before) flagHistoryShort
              ||| flagIf f.assumed flagEndAssumed
            exposure := f.exposure
            start := f.start
            stop := e.stop
            centre := e.centre
            span := span.length
            smooth := s
            corrections := bandOf s mid f.focal
            bands := e.bands.map fun t => (values t).clamp f.mx f.my f.rl }
        pushed := axisFlags yaw.2 pitch.2 roll.2 } := by
  subst pushedYaw pushedPitch pushedRoll
  unfold Path.compute
  simp only [motion, refs, centre, Bool.false_eq_true, if_false, bandOf, angleInt, List.map_map, Function.comp_def]

end

/-- Settles O27: the path value by where the time lies; the computed record read off its computation, its flags bit by bit; its margins
by the margin check and the clamp. -/
theorem recordStaysWithinMargins : Obligations.RecordStaysWithinMargins := by
  unfold Obligations.RecordStaysWithinMargins
  refine ⟨fun p ring t => ?value, fun p ring f e motion => ?computed, fun p ring f e => ?margins⟩
  case value =>
    refine ⟨?empty, ?before, ?newest, ?between⟩
    case empty =>
      rintro rfl
      exact p.at_empty
    case before =>
      rintro n more rfl ahead
      exact p.at_before ahead
    case newest =>
      rintro pre n rfl reached
      exact p.at_newest reached
    case between =>
      rintro pre k l post rfl reached ahead
      exact p.at_between reached ahead
  case computed =>
    extract_lets c q at_ pixels mid yaw pitch roll pushedYaw pushedPitch pushedRoll s held first last behind span sought
    have refs : p.applyReferences f = q := by
      unfold q Path.applyReferences
      cases f.recentre <;> rfl
    have spans : spanOf ring e.first e.last = span := takeThrough_eq_take _ _
    have run := p.compute_motion ring f e (yaw := pushedYaw) (pitch := pushedPitch) (roll := pushedRoll) motion refs
      (Prod.mk.eta (p := q.at ring e.centre)).symm rfl rfl rfl
    rw [spans] at run
    change c = _ at run
    rw [run]
    clear run
    clear_value pushedYaw pushedPitch pushedRoll span
    have past (axis : Band → Int) (margin : Nat) := any_clamped (fun t => bandOf s (at_ t) f.focal) axis margin e.bands
    have sought_at (k : Sought) : ((q.at ring e.centre).2 :: e.bands.map fun t => (q.at ring t).2).contains k = true ↔
        ∃ t ∈ sought, (q.at ring t).2 = k := by
      rw [List.contains_iff_mem, ← List.map_cons (f := fun t => (q.at ring t).2), List.mem_map]
    refine ⟨rfl, rfl, rfl, rfl, rfl, rfl, rfl, getLsbD_axisFlags _ _ _,
      fun i => (getLsbD_recordFlags _ _ _ _ _ _ _ _ _ _ _ i).trans ?flags⟩
    case flags =>
      refine or_congr (and_congr .rfl (or_congr .rfl (past Band.yaw f.mx)))
        (or_congr (and_congr .rfl (or_congr .rfl (past Band.pitch f.my)))
        (or_congr (and_congr .rfl (or_congr .rfl (past Band.roll f.rl))) ?_))
      simp only [sought_at, List.any_eq_true, Bool.or_eq_true, or_assoc]
  case margins =>
    extract_lets c
    obtain ⟨acc, swref, hwref, number, start, stop⟩ := p.compute_names ring f e
    refine ⟨fun motion focal mx my rl => ?motion, fun still => ?noMotion, acc, swref, hwref, number, start, stop⟩
    case motion =>
      have run := p.compute_motion ring f e motion rfl (Prod.mk.eta (p := Path.at _ ring e.centre)).symm rfl rfl rfl
      change c = _ at run
      rw [run]
      clear run
      dsimp only [bandOf, angleInt]
      refine ⟨fun b mem => ?bands, toPixels_pushAxis_le _ _ mx focal, toPixels_pushAxis_le _ _ my focal,
        pushAxis_roll_le _ _ rl, List.length_map _, rfl⟩
      case bands =>
        obtain ⟨t, -, rfl⟩ := List.mem_map.mp mem
        exact ⟨clampMargin_natAbs_le _ _, clampMargin_natAbs_le _ _, clampMargin_natAbs_le _ _⟩
    case noMotion =>
      obtain ⟨-, -, -, smooth⟩ := p.applyReferences_refs f
      have run := p.compute_noMotion ring f e still
      change c = _ at run
      rw [run]
      refine ⟨fun b mem => ?zero, List.length_replicate, rfl, rfl, rfl, rfl, smooth⟩
      case zero =>
        obtain rfl := List.eq_of_mem_replicate mem
        exact ⟨rfl, rfl, rfl⟩

end Sys2Proof.Machine
end

section
/-! SUPPORT. The production of records: an event that no sink holds, an action carried out whole, a record's publication, a production
with what it leaves to be delivered, the list examined. -/

namespace Sys2Proof.Machine

/-! ## An event that no sink holds (R60) -/

theorem arrange_nil {α : Type} [DecidableEq α] (pref : List α) : arrange pref [] = [] := by simp [arrange]

/-- An event that wakes the part directly somewhere: SHOCK_TRUE, timer 3, an attach (R190). -/
def wakesDirectly (n : BitVec 16) : Bool := n == 0x0300 || n == 0x0203 || n == 0x0500

theorem State.directWake_of_not {n : BitVec 16} (h : wakesDirectly n = false) (s : State) : s.directWake n = s := by
  simp only [wakesDirectly, Bool.or_eq_false_iff, beq_eq_false_iff_ne] at h
  obtain ⟨⟨shock, timer⟩, attach⟩ := h
  unfold State.directWake
  rw [if_neg fun h => shock h.1, if_neg fun h => timer h.1, if_neg attach]

/-- Outside SLEEP an event that no sink holds and that wakes nothing is recorded, and that is all. -/
theorem emit_unheard {e : Event} {s : State} (unheard : s.router.routes.listening e.number = [])
    (awake : s.supply.power ≠ .sleep) (quiet : wakesDirectly e.number = false) :
    emit e s = { s with events := s.events ++ [e] } := by
  change emitFor (11 + 1) e s = _
  simp [emitFor, State.directWake_of_not quiet, State.silent_of_awake awake, unheard, arrange_nil]

/-! ## An action carried out whole (log entry 10) -/

/-- The state with other events in the backlog. -/
def State.withBacklog (s : State) (l : List Event) : State := { s with backlog := l }

/-- Run by the collector, the action comes to the state and leaves the events to be delivered after it. -/
structure State.Collects (s : State) (action : Emit → State → State) (events : List Event) (t : State) : Prop where
  acts : action collect (s.withBacklog []) = t.withBacklog events
  waits : t.backlog = s.backlog

theorem State.whole_of_collects {s t : State} {action : Emit → State → State} {events : List Event}
    (h : s.Collects action events t) (emit : Emit) : s.whole emit action = events.foldl (fun u e => emit e u) t := by
  change (action collect (s.withBacklog [])).backlog.foldl _ ((action collect (s.withBacklog [])).withBacklog s.backlog) = _
  rw [h.acts, ← h.waits]
  rfl

/-! ## Publication (R54, R56, R57, R39, R40) -/

section
variable (emit : Emit) (s : State) (r : WarpRecord) (alert : BitVec 10)

theorem State.publish_withheld (h : s.xchg.anchor = none ∨ s.xchg.state ≠ .running) :
    s.publish emit r alert = ({ s with path := { s.path with unpublished := s.path.unpublished + 1 } }, r) := by
  unfold State.publish
  cases anchor : s.xchg.anchor with
  | none => rfl
  | some a => exact if_pos (h.resolve_left fun none => nomatch none.symm.trans anchor)

/-- The record with OVERRUN where it is late (R56). -/
def WarpRecord.published (r : WarpRecord) (late : Bool) : WarpRecord :=
  { r with flags := r.flags ||| (if late then 0x200 else 0) }

/-- The state with a record written into the slot of its number and WARP asked for (R54, R56). -/
def State.warpWritten (s : State) (a : AnchorCopy) (number : Word) (late : Bool) (w : WarpRecord) : State :=
  { s with
    xchg := (s.xchg.writeWarp (a.warpBase + 192 * (number.toNat % a.warpSlots)) w).request causeWarp
    path := { s.path with
      accrued := s.path.accrued ||| w.flags
      overrun := if late then s.path.overrun + 1 else s.path.overrun } }

theorem State.publish_running {a : AnchorCopy} {k : Word} (anchor : s.xchg.anchor = some a) (running : s.xchg.state = .running)
    (consumed : s.xchg.consumed = some k) :
    let late := decide (a.warpSlots ≤ (r.number - k).toNat)
    let w := r.published late
    s.publish emit r alert = if w.flags &&& alert = 0 then (s.warpWritten a r.number late w, w)
      else ((emit { number := 0x0304, time := s.time, arg := .frame r.number (w.flags &&& alert) }
        (s.warpWritten a r.number late w)).onXchg fun x => x.request causeAlert, w) := by
  unfold State.publish
  simp only [anchor, running, consumed, overruns, ne_eq, not_true_eq_false, if_false]
  rfl

end

/-! ## A production, its events collected (R32, R48, R55, R58) -/

section
variable (s : State) (r : WarpRecord) (l : List Event)

theorem State.handMotion_withBacklog : (s.withBacklog l).handMotion r = (s.handMotion r).withBacklog l := by
  unfold State.handMotion State.withBacklog
  dsimp only
  split
  · split <;> rfl
  · rfl

theorem State.handMotion_backlog : (s.handMotion r).backlog = s.backlog := by
  unfold State.handMotion
  split
  · split <;> rfl
  · rfl

/-- Only an OPEN clip takes a record as a motion unit (R58). -/
theorem State.handMotion_of_not_open (h : s.writer.state ≠ .opened) : s.handMotion r = s := by
  unfold State.handMotion
  split
  · contradiction
  · rfl

end

/-- The path unit once a video frame has been computed and has left the list (R32). -/
def Path.computed (p : Path) (ring : List RingEntry) (f : VFrame) (e : Ending) : Path :=
  { (p.compute ring f e).path with frames := p.frames.filter fun g => g.number != f.number }

/-- MARGIN_HIT for the axes pushed, where there are any (R36). -/
def marginHits (t : Time) (f : VFrame) (pushed : BitVec 10) : List Event :=
  if pushed = 0 then [] else [{ number := 0x0302, time := t, arg := .frame f.number pushed }]

/-- MOTION_ALERT for the flags of the alert mask found, where there are any (R40). -/
def motionAlerts (t : Time) (f : VFrame) (found : BitVec 10) : List Event :=
  if found = 0 then [] else [{ number := 0x0304, time := t, arg := .frame f.number found }]

/-- RECORD_READY (R55). -/
def recordReady (t : Time) (f : VFrame) (flags : BitVec 10) : Event := { number := 0x0303, time := t, arg := .frame f.number flags }

section
variable (s : State) (f : VFrame) (e : Ending)

/-- A production by its steps: the frame computed and out of the list, MARGIN_HIT emitted, the record published (R32, R36, R54). -/
theorem State.produce_of_steps {emit : Emit} {b t : State} {w : WarpRecord}
    (told : (if (s.path.compute s.motion.ring f e).pushed = 0 then { s with path := s.path.computed s.motion.ring f e }
      else emit { number := 0x0302, time := s.time, arg := .frame f.number (s.path.compute s.motion.ring f e).pushed }
        { s with path := s.path.computed s.motion.ring f e }) = b)
    (published : b.publish emit (s.path.compute s.motion.ring f e).record f.alert = (t, w)) :
    s.produce emit f e = (emit { number := 0x0303, time := t.time, arg := .frame w.number w.flags } t).handMotion w := by
  unfold Path.computed at told
  unfold State.produce
  dsimp only
  rw [Path.compute_frames, told, published]

/-- A production as far as its publication: the frame computed and out of the list, MARGIN_HIT to be delivered. -/
def State.computing : State :=
  { s with
    path := s.path.computed s.motion.ring f e
    backlog := marginHits s.time f (s.path.compute s.motion.ring f e).pushed }

/-- What a production collects, from what its publication comes to. -/
theorem State.produce_collects {t : State} {l : List Event} {w : WarpRecord} (number : w.number = f.number)
    (waits : t.backlog = s.backlog)
    (published : (s.computing f e).publish collect (s.path.compute s.motion.ring f e).record f.alert = (t.withBacklog l, w)) :
    s.Collects (fun emit => State.produce emit f e) (l ++ [recordReady t.time f w.flags]) (t.handMotion w) := by
  refine ⟨?_, (State.handMotion_backlog _ _).trans waits⟩
  refine ((s.withBacklog []).produce_of_steps f e (b := s.computing f e) ?told published).trans ?ready
  case told =>
    unfold State.computing marginHits
    by_cases none : (s.path.compute s.motion.ring f e).pushed = 0
    · rw [if_pos none]
      exact if_pos none
    · rw [if_neg none]
      exact if_neg none
  case ready =>
    rw [number]
    exact t.handMotion_withBacklog w _

/-- On an exchange that is not RUNNING: the publication withheld and counted (R57). -/
theorem State.produce_collects_withheld (h : s.xchg.anchor = none ∨ s.xchg.state ≠ .running) :
    let c := s.path.compute s.motion.ring f e
    s.Collects (fun emit => State.produce emit f e) (marginHits s.time f c.pushed ++ [recordReady s.time f c.record.flags])
      (({ s with path := { s.path.computed s.motion.ring f e with unpublished := c.path.unpublished + 1 } } : State).handMotion
        c.record) :=
  s.produce_collects f e (t := { s with path := { s.path.computed s.motion.ring f e with unpublished := _ } })
    (Path.compute_number _ _ _ _) rfl (State.publish_withheld _ _ _ _ h)

/-- On a RUNNING exchange: the record in its slot, WARP, and MOTION_ALERT and ALERT by the alert mask (R39, R40, R54, R56). -/
theorem State.produce_collects_running {a : AnchorCopy} {k : Word} (anchor : s.xchg.anchor = some a)
    (running : s.xchg.state = .running) (consumed : s.xchg.consumed = some k) :
    let c := s.path.compute s.motion.ring f e
    let late := decide (a.warpSlots ≤ (f.number - k).toNat)
    let w := c.record.published late
    let found := w.flags &&& f.alert
    let t := ({ s with path := s.path.computed s.motion.ring f e } : State).warpWritten a f.number late w
    s.Collects (fun emit => State.produce emit f e)
      (marginHits s.time f c.pushed ++ motionAlerts s.time f found ++ [recordReady s.time f w.flags])
      ((t.onXchg fun x => if found = 0 then x else x.request causeAlert).handMotion w) := by
  intro c late w found t
  have number : c.record.number = f.number := Path.compute_number _ _ _ _
  have published := (s.computing f e).publish_running collect c.record f.alert anchor running consumed
  rw [number] at published
  refine s.produce_collects f e (t := t.onXchg fun x => if found = 0 then x else x.request causeAlert) (w := w) number rfl
    (published.trans ?_)
  change (if found = 0 then _ else _) = _
  unfold motionAlerts
  split
  · rw [List.append_nil]
    rfl
  · rfl

end

/-! ## The list examined (R48, R49) -/

section
variable (emit : Emit) (n : Nat) {s : State}

/-- A list whose oldest entry is not ready, or that is empty, stays as it is. -/
theorem State.examineFor_still
    (h : ∀ f more e, s.path.frames = f :: more → f.ended = some e → e.ready s.motion.ring s.time = false) :
    s.examineFor emit n = s := by
  cases n with
  | zero => rfl
  | succ n =>
    unfold State.examineFor
    split
    · rfl
    · rename_i f more frames
      split
      · rfl
      · rename_i e ended
        rw [h f more e frames ended]
        rfl

theorem State.examineFor_empty (h : s.path.frames = []) : s.examineFor emit n = s :=
  State.examineFor_still emit n fun _ _ _ frames => nomatch h.symm.trans frames

/-- A ready oldest entry is produced, its events are delivered, and the list is examined again. -/
theorem State.examineFor_ready {f : VFrame} {more : List VFrame} {e : Ending} {events : List Event} {t : State}
    (frames : s.path.frames = f :: more) (ended : f.ended = some e) (ready : e.ready s.motion.ring s.time = true)
    (h : s.Collects (fun emit => State.produce emit f e) events t) :
    s.examineFor emit (n + 1) = (events.foldl (fun u x => emit x u) t).examineFor emit n := by
  rw [State.examineFor, frames]
  dsimp only
  rw [ended]
  dsimp only
  rw [if_pos ready, State.whole_of_collects h]

end

/-- An ENDED entry is ready by its mark, by the ring or by its deadline (R48, R49). -/
theorem Ending.ready_iff (e : Ending) (ring : List RingEntry) (now : Time) : e.ready ring now = true ↔
    (e.noMotion = true ∨ (∃ r ∈ ring, timeReached r.time e.last = true ∧ r.time ≠ e.last)
      ∨ timeReached now e.deadline = true) := by
  simp only [Ending.ready, timeLater, Bool.or_eq_true, List.any_eq_true, Bool.and_eq_true, bne_iff_ne, or_assoc]

theorem timeReached_iff (t t0 : Time) : timeReached t t0 = true ↔ (t - t0).toNat < 2 ^ 47 :=
  decide_eq_true_iff

theorem Path.computed_single (p : Path) (ring : List RingEntry) {f : VFrame} {e : Ending} (h : p.frames = [f]) :
    p.computed ring f e = { (p.compute ring f e).path with frames := [] } := by
  simp [Path.computed, h]

/-- MARGIN_HIT and RECORD_READY that no sink holds are recorded, and that is all. -/
theorem State.unheard_events {s : State} (awake : s.supply.power ≠ .sleep) (hits : s.router.routes.listening 0x0302 = [])
    (readies : s.router.routes.listening 0x0303 = []) (t : Time) (f : VFrame) (pushed flags : BitVec 10) :
    (marginHits t f pushed ++ [recordReady t f flags]).foldl (fun u x => emit x u) s =
      { s with events := s.events ++ (marginHits t f pushed ++ [recordReady t f flags]) } := by
  have ready : ∀ u : State, u.router = s.router → u.supply = s.supply → emit (recordReady t f flags) u =
      { u with events := u.events ++ [recordReady t f flags] } := fun u router supply =>
    emit_unheard (router ▸ readies) (supply ▸ awake) rfl
  unfold marginHits
  split
  · exact ready s rfl rfl
  · refine (congrArg (emit (recordReady t f flags)) (emit_unheard hits awake rfl)).trans
      ((ready { s with events := s.events ++ [_] } rfl rfl).trans ?_)
    dsimp only
    rw [List.append_assoc]

theorem exec_extrapolationDeadline (a : Ambient) {s : State} (hs : s.supply.held = false) :
    exec (.extrapolationDeadline a) s = .next ((s.arrive a).examineFor emit 4).rest :=
  (perform_free hs : execExtrapolationDeadline a s = _)

/-- Settles O29: when an entry is ready; the list examined, by what its oldest entry's production collects; the command as that
examination. -/
theorem extrapolationDeadline : Obligations.ExtrapolationDeadline := by
  unfold Obligations.ExtrapolationDeadline
  refine ⟨Ending.ready_iff, timeReached_iff, fun s n => ⟨rfl, rfl, State.examineFor_still emit n,
    fun f more e frames ended ready => ?examined⟩, fun a s hs => ?command⟩
  case examined =>
    intro c kept pushed delivered
    have left : s.path.computed s.motion.ring f e = kept := by
      unfold Path.computed
      rw [frames]
    refine ⟨fun off => ?withheld, fun a k anchor running consumed => ?running⟩
    case withheld =>
      have made := s.produce_collects_withheld f e off
      rw [left] at made
      exact State.examineFor_ready emit n frames ended ready made
    case running =>
      have made := s.produce_collects_running f e anchor running consumed
      rw [left] at made
      exact State.examineFor_ready emit n frames ended ready made
  case command =>
    intro u
    refine ⟨exec_extrapolationDeadline a hs, fun still => ?still,
      fun f e frames ended ready noAnchor idle awake hits readies => ?one⟩
    case still =>
      rw [exec_extrapolationDeadline a hs, State.examineFor_still (s := s.arrive a) emit 4 still]
    case one =>
      intro c
      have made := u.produce_collects_withheld f e (.inl noAnchor)
      have closed : u.writer.state ≠ .opened := fun opened => nomatch idle.symm.trans opened
      rw [Path.computed_single u.path u.motion.ring frames] at made
      rw [exec_extrapolationDeadline a hs, State.examineFor_ready (s := u) emit 3 frames ended ready made,
        State.handMotion_of_not_open, State.unheard_events, State.examineFor_empty emit 3 rfl]
      · rfl
      case h => exact closed
      case awake => exact awake
      case hits => exact hits
      case readies => exact readies

end Sys2Proof.Machine
end

section
/-! SUPPORT. The start and the end of a video frame: what they make of the list, the entry forced out, the times of an ENDED entry. -/

namespace Sys2Proof.Machine

/-! ## The list as an end leaves it (R44, R47, R50) -/

/-- An OPEN entry ended at its nominal readout time, its end assumed; an ENDED one as it is (R50). -/
def VFrame.assumedEnd (f : VFrame) (average : Nat) (noMotion : Bool) : VFrame :=
  if f.ended = none then f.endAt (f.start + BitVec.ofNat 48 f.readout) average noMotion true else f

/-- An OPEN entry ended at a time observed; an ENDED one as it is (R44). -/
def VFrame.observedEnd (f : VFrame) (t : Time) (average : Nat) (noMotion : Bool) : VFrame :=
  if f.ended = none then f.endAt t average noMotion false else f

theorem VFrame.observedEnd_of_ended {f : VFrame} (h : f.ended ≠ none) (t : Time) (average : Nat) (noMotion : Bool) :
    f.observedEnd t average noMotion = f := if_neg h

theorem VFrame.assumedEnd_number (f : VFrame) (average : Nat) (noMotion : Bool) :
    (f.assumedEnd average noMotion).number = f.number := by
  unfold VFrame.assumedEnd
  split <;> rfl

theorem Path.endOpen_assumed (p : Path) (average : Nat) (noMotion : Bool) :
    p.endOpen none average noMotion = { p with frames := p.frames.map fun f => f.assumedEnd average noMotion } := by
  unfold Path.endOpen VFrame.assumedEnd
  congr
  funext f
  cases f.ended <;> rfl

theorem Path.endOpen_observed (p : Path) (t : Time) (average : Nat) (noMotion : Bool) :
    p.endOpen (some t) average noMotion = { p with frames := p.frames.map fun f => f.observedEnd t average noMotion } := by
  unfold Path.endOpen VFrame.observedEnd
  congr
  funext f
  cases f.ended <;> rfl

/-- In ACTIVE a video frame that ends takes a NO_MOTION record exactly when the port is not RUNNING (R48). -/
theorem State.noMotionNow_active {s : State} (active : s.supply.power = .active) :
    s.noMotionNow = (s.motion.port != .running) := by
  simp [State.noMotionNow, active]

/-! ## FRAME_START (R43) -/

/-- The OPEN entries of the list ended, as a start makes them (R50). -/
def State.startEnds (s : State) : List VFrame := s.path.frames.map fun f => f.assumedEnd s.motion.average s.noMotionNow

section
variable (emit : Emit) (t : Time) {s : State}

theorem State.frameStart_away (h : s.supply.power ≠ .active) : s.frameStart emit t = s := if_pos h

/-- A start in ACTIVE, from what it collects: the events delivered, then the list examined. -/
theorem State.frameStart_of_collects {events : List Event} {v : State} (active : s.supply.power = .active)
    (h : s.Collects (fun emit => State.openVideo emit t) events v) :
    s.frameStart emit t = (events.foldl (fun u x => emit x u) v).examine emit := by
  unfold State.frameStart
  rw [if_neg (not_not_intro active), State.whole_of_collects h]

end

/-! ## An entry forced out (R51) -/

theorem State.forceOut_room {s : State} (emit : Emit) (room : s.path.frames.length ≤ 1) : s.forceOut emit = s := by
  unfold State.forceOut
  split
  · rename_i frames
    rw [frames] at room
    simp at room
  · rfl

theorem State.forceOut_full {s : State} {f g : VFrame} {e : Ending} (emit : Emit) (frames : s.path.frames = [f, g])
    (ended : f.ended = some e) :
    s.forceOut emit = ({ s with path := { s.path with forced := s.path.forced + 1 } } : State).produce emit f e := by
  unfold State.forceOut
  rw [frames]
  dsimp only
  rw [ended]
  rfl

theorem State.openVideo_eq (emit : Emit) (t : Time) (s : State) : s.openVideo emit t =
    (({ s with path := { s.path with frames := s.startEnds } } : State).forceOut emit).onPath fun p => p.openFrame t :=
  congrArg (fun p => (({ s with path := p } : State).forceOut emit).onPath fun p => p.openFrame t)
    (s.path.endOpen_assumed _ _)

section
variable (t : Time) {s : State}

/-- With at most one entry in the list nothing is forced out: it is ended and the new one opened. -/
theorem State.openVideo_collects_room (room : s.path.frames.length ≤ 1) : s.Collects (fun emit => State.openVideo emit t) []
    { s with path := ({ s.path with frames := s.startEnds } : Path).openFrame t } := by
  refine ⟨((s.withBacklog []).openVideo_eq collect t).trans ?_, rfl⟩
  rw [State.forceOut_room collect ((List.length_map _).le.trans room)]
  rfl

/-- Of two entries the older is produced, and the new one opened on what that leaves. -/
theorem State.openVideo_collects_full {f g : VFrame} {e : Ending} {events : List Event} {v : State}
    (frames : s.path.frames = [f, g]) (ended : f.ended = some e)
    (h : ({ s with path := { s.path with
        frames := [f, g.assumedEnd s.motion.average s.noMotionNow], forced := s.path.forced + 1 } } : State).Collects
      (fun emit => State.produce emit f e) events v) :
    s.Collects (fun emit => State.openVideo emit t) events { v with path := v.path.openFrame t } := by
  have startEnds : (s.withBacklog []).startEnds = [f, g.assumedEnd s.motion.average s.noMotionNow] := by
    have older : f.assumedEnd s.motion.average s.noMotionNow = f := if_neg (by simp [ended])
    change s.path.frames.map _ = _
    rw [frames]
    exact congrArg (· :: _) older
  refine ⟨((s.withBacklog []).openVideo_eq collect t).trans ?_, h.waits⟩
  rw [startEnds, State.forceOut_full collect rfl ended]
  exact congrArg (fun u : State => u.onPath fun p => p.openFrame t) h.acts

/-- A start that finds two entries, from what the older one's production collects. -/
theorem State.frameStart_full {f g : VFrame} {e : Ending} {events : List Event} {v : State} (emit : Emit)
    (active : s.supply.power = .active) (frames : s.path.frames = [f, g]) (ended : f.ended = some e)
    (h : ({ s with path := { s.path with
        frames := [f, g.assumedEnd s.motion.average (s.motion.port != .running)], forced := s.path.forced + 1 } } : State).Collects
      (fun emit => State.produce emit f e) events v) :
    s.frameStart emit t = (events.foldl (fun u x => emit x u) { v with path := v.path.openFrame t }).examine emit := by
  rw [← State.noMotionNow_active active] at h
  exact State.frameStart_of_collects emit t active (State.openVideo_collects_full t frames ended h)

end

/-! ## FRAME_END (R44) -/

section
variable (emit : Emit) (t : Time) {s : State}

theorem State.frameEnd_away (h : s.supply.power ≠ .active) : s.frameEnd emit t = s := if_pos h

/-- An end with no OPEN entry is a stray one. -/
theorem State.frameEnd_stray (active : s.supply.power = .active) (ended : ∀ f ∈ s.path.frames, f.ended ≠ none) :
    s.frameEnd emit t = { s with path := { s.path with stray := s.path.stray + 1 } } := by
  have closed : s.path.hasOpen = false := by
    simpa [Path.hasOpen] using ended
  unfold State.frameEnd
  rw [if_neg (not_not_intro active), closed]
  rfl

/-- An end with its OPEN entry last in the list: that entry ends, and the list is examined. -/
theorem State.frameEnd_observed {pre : List VFrame} {f : VFrame} (active : s.supply.power = .active)
    (frames : s.path.frames = pre ++ [f]) (older : ∀ g ∈ pre, g.ended ≠ none) (isOpen : f.ended = none) :
    s.frameEnd emit t = ({ s with path := { s.path with
      frames := pre ++ [f.endAt t s.motion.average (s.motion.port != .running) false] } } : State).examine emit := by
  have stands : s.path.hasOpen = true := by simp [Path.hasOpen, frames, isOpen]
  have kept : pre.map (fun g => g.observedEnd t s.motion.average s.noMotionNow) = pre :=
    (List.map_congr_left (g := id) fun g mem => VFrame.observedEnd_of_ended (older g mem) _ _ _).trans (List.map_id _)
  have last : f.observedEnd t s.motion.average s.noMotionNow = f.endAt t s.motion.average (s.motion.port != .running) false := by
    rw [← State.noMotionNow_active active]
    exact if_pos isOpen
  unfold State.frameEnd
  rw [if_neg (not_not_intro active), if_pos stands]
  refine congrArg (fun p => State.examine emit { s with path := p }) ((s.path.endOpen_observed _ _ _).trans ?_)
  rw [frames, List.map_append, kept, List.map_singleton, last]

end

/-! ## The times of an ENDED entry (R47) -/

section
variable (f : VFrame) (stop : Time) (average : Nat) (noMotion assumed : Bool)

/-- The ending of a video frame (R47, R48). -/
def VFrame.ending : Ending :=
  { stop, noMotion
    bands := (List.range f.bands).map (bandTime f.start (timeSince stop f.start) f.exposure f.bands)
    centre := centreTime f.start (timeSince stop f.start) f.exposure
    deadline := timeAfter (bandTime f.start (timeSince stop f.start) f.exposure f.bands (f.bands - 1)) (3 * average) }

theorem VFrame.endAt_eq : f.endAt stop average noMotion assumed =
    { f with ended := some (f.ending stop average noMotion), assumed } := rfl

theorem VFrame.ending_bands_length : (f.ending stop average noMotion).bands.length = f.bands := by
  simp [VFrame.ending]

theorem VFrame.ending_band {b : Nat} (h : b < f.bands) : (f.ending stop average noMotion).bands[b]? =
    some (bandTime f.start (timeSince stop f.start) f.exposure f.bands b) := by
  simp [VFrame.ending, h]

end

/-- Settles O28: a start by the number of entries, an entry forced out by what its production collects, an end by its OPEN entry. -/
theorem videoFrameStartsAndEnds : Obligations.VideoFrameStartsAndEnds := by
  unfold Obligations.VideoFrameStartsAndEnds
  intro opened
  refine ⟨fun t s away => ⟨State.frameStart_away emit t away, State.frameEnd_away emit t away⟩,
    fun t s active frames => ?empty, fun t s f active frames => ?single,
    fun t s f g e active frames ended differs noAnchor idle hits readies => ?unheard,
    fun t s f g e active frames ended => ?forced, fun t s active ended => State.frameEnd_stray emit t active ended,
    fun t s pre f active frames older isOpen => ?observed, fun f stop average noMotion assumed => ?times⟩
  case empty =>
    have startEnds : s.startEnds = s.path.frames := by simp [State.startEnds, frames]
    have made := State.openVideo_collects_room (s := s) t (by simp [frames])
    rw [startEnds] at made
    rw [State.frameStart_of_collects emit t active made]
    refine State.examineFor_still emit 4 fun f more e opens ended => ?_
    have opens : s.path.frames ++ [_] = f :: more := opens
    rw [frames] at opens
    cases opens
    cases ended
  case single =>
    intro g v
    have startEnds : s.startEnds = [g] := by
      rw [State.startEnds, frames, State.noMotionNow_active active]
      rfl
    have made := State.openVideo_collects_room (s := s) t (by simp [frames])
    rw [startEnds] at made
    refine ⟨State.frameStart_of_collects emit t active made, fun notReady => State.examineFor_still emit 4 ?_⟩
    intro f more e frames ended
    cases frames
    exact notReady e ended
  case unheard =>
    intro h notReady c
    let v : State := { s with path := { s.path with frames := [f, h], forced := s.path.forced + 1 } }
    have closed : s.writer.state ≠ .opened := fun opened => nomatch idle.symm.trans opened
    have awake : s.supply.power ≠ .sleep := fun sleep => nomatch active.symm.trans sleep
    have number : h.number = g.number := g.assumedEnd_number _ _
    have left : [f, h].filter (fun k => k.number != f.number) = [h] := by
      simp [number, Ne.symm differs]
    have computed : v.path.computed v.motion.ring f e = { c.path with frames := [h] } :=
      congrArg (fun l => { c.path with frames := l }) left
    have made := v.produce_collects_withheld f e (.inl noAnchor)
    rw [computed] at made
    refine (State.frameStart_full t emit active frames ended made).trans ?_
    rw [State.handMotion_of_not_open, State.unheard_events]
    · refine (State.examineFor_still emit 4 ?still).trans ?_
      case still =>
        intro k more e head ended
        cases head
        exact notReady e ended
      rw [← List.append_assoc]
      rfl
    case h => exact closed
    case awake => exact awake
    case hits => exact hits
    case readies => exact readies
  case forced =>
    intro h c kept pushed delivered
    let v : State := { s with path := { s.path with frames := [f, h], forced := s.path.forced + 1 } }
    exact ⟨fun off => State.frameStart_full t emit active frames ended (v.produce_collects_withheld f e off),
      fun a k anchor running consumed =>
        State.frameStart_full t emit active frames ended (v.produce_collects_running f e anchor running consumed)⟩
  case observed =>
    intro last v
    refine ⟨State.frameEnd_observed emit t active frames older isOpen, fun g e head ended notReady => ?_⟩
    refine State.examineFor_still emit 4 fun f more e' frames ended' => ?_
    have frames : pre ++ [last] = f :: more := frames
    rw [frames] at head
    cases head
    cases ended.symm.trans ended'
    exact notReady
  case times =>
    refine ⟨f.ending stop average noMotion, f.endAt_eq stop average noMotion assumed, rfl, rfl, f.ending_bands_length _ _ _,
      fun b h => f.ending_band _ _ _ h, rfl, fun some => ⟨_, f.ending_band _ _ _ (by omega), rfl⟩⟩

end Sys2Proof.Machine
end

section
/-! SUPPORT. Which commands can change the motion front end, the path unit's accumulators and settings, the routes, the lines and the
timers. -/

namespace Sys2Proof.Machine

/-- What is watched across a command: the motion front end, and the parts of the path unit and of the router that commands set. -/
inductive Watched where
  | front
  | accumulators
  | settings
  | exposure
  | routes
  | lines
  | timers

/-- The settings of MOTION_SETUP at the path unit (R24, R33 to R35, R40, R45). -/
def Path.settings (p : Path) : Axes MapEntry × Nat × Axes Nat × Nat × Nat × Nat × Nat × BitVec 10 × Nat × Nat :=
  (p.mount, p.gain, p.shifts, p.focal, p.mx, p.my, p.rl, p.alert, p.bands, p.readout)

/-- A watched part is the same in two states. -/
def Watched.Same (s t : State) : Watched → Prop
  | .front => t.motion = s.motion
  | .accumulators => t.path.acc = s.path.acc
  | .settings => t.path.settings = s.path.settings
  | .exposure => t.path.exposure = s.path.exposure
  | .routes => t.router.routes = s.router.routes
  | .lines => t.router.lines = s.router.lines
  | .timers => t.router.timers = s.router.timers

/-- The commands whose rules let them change a watched part; the resets change every one. -/
def mayChange (i : Instr) (w : Watched) : Bool :=
  match i with
  | .powerOnReset .. | .brownoutReset _ | .linkDown _ | .linkReset .. | .registerWrite .. | .powerState _ => true
  | .start _ | .dataReadyEdge _ | .imuSettleEnd _ | .lossDeadline _ | .lostPowerOffEnd _ | .runningOneSecond _ =>
    match w with
    | .front => true
    | _ => false
  | .motionSetup _ =>
    match w with
    | .front | .settings => true
    | _ => false
  | .sampleReadComplete .. =>
    match w with
    | .front | .accumulators => true
    | _ => false
  | .exposure _ =>
    match w with
    | .exposure => true
    | _ => false
  | .route _ =>
    match w with
    | .routes => true
    | _ => false
  | .lineSetup _ | .inputLineEdge .. =>
    match w with
    | .lines => true
    | _ => false
  | .timerSetup _ | .timerExpiry .. =>
    match w with
    | .timers => true
    | _ => false
  | _ => false

theorem PathKept.settings {p q : Path} (h : PathKept p q) : q.settings = p.settings := by
  simp only [Path.settings, h.mount, h.gain, h.shifts, h.focal, h.mx, h.my, h.rl, h.alert, h.bands, h.readout]

theorem Watched.Same.trans {s t u : State} {w : Watched} (h : w.Same s t) (k : w.Same t u) : w.Same s u := by
  cases w <;> exact Eq.trans k h

/-- Events and block work leave every watched part. -/
theorem Kept.same {s t : State} (h : Kept s t) (w : Watched) : w.Same s t :=
  match w with
  | .front => h.motion
  | .accumulators => h.path.acc
  | .settings => h.path.settings
  | .exposure => h.path.exposure
  | .routes => h.routes
  | .lines => h.lines
  | .timers => h.timers

/-- Two states with the same front end, path unit and router. -/
theorem Watched.same_of_blocks {s t : State} (motion : t.motion = s.motion := by rfl) (path : t.path = s.path := by rfl)
    (router : t.router = s.router := by rfl) (w : Watched) : w.Same s t := by
  cases w
  case front => exact motion
  case accumulators | settings | exposure => exact congrArg _ path
  case routes | lines | timers => exact congrArg _ router

/-- The command leaves every watched part that it may not change. -/
def State.Spares (s : State) (i : Instr) : Prop := ∀ t, exec i s = .next t → ∀ w, mayChange i w = false → w.Same s t

section
variable {i : Instr} {s t u : State}

/-- A command whose own changes make one state, from which the part is kept. -/
theorem State.Spares.of_kept (answer : exec i s = .next t) (kept : Kept u t)
    (own : ∀ w, mayChange i w = false → w.Same s u) : s.Spares i := by
  intro v answered w spared
  cases answer.symm.trans answered
  exact (own w spared).trans (kept.same w)

/-- A command whose own changes reach no watched part. -/
theorem State.Spares.of_elsewhere (answer : exec i s = .next t) (kept : Kept u t) (motion : u.motion = s.motion := by rfl)
    (path : u.path = s.path := by rfl) (router : u.router = s.router := by rfl) : s.Spares i :=
  .of_kept answer kept fun w _ => Watched.same_of_blocks motion path router w

/-- A command whose own changes reach the front end alone. -/
theorem State.Spares.of_front (answer : exec i s = .next t) (kept : Kept u t) (may : mayChange i .front = true := by rfl)
    (path : u.path = s.path := by rfl) (router : u.router = s.router := by rfl) : s.Spares i := by
  refine .of_kept answer kept fun w spared => ?_
  cases w
  case front => exact nomatch may.symm.trans spared
  case accumulators | settings | exposure => exact congrArg _ path
  case routes | lines | timers => exact congrArg _ router

/-- A command that leaves the part after its arrival. -/
theorem LeavesPart.spares {a : Ambient} {meaning : State → Host.Outcome State Fault Refusal} (h : LeavesPart a meaning)
    (hs : s.supply.held = false) (arm : exec i s = meaning s := by rfl) : s.Spares i := by
  obtain ⟨t, answer, kept⟩ := h s hs
  exact .of_elsewhere (arm.trans answer) kept

/-- A command that leaves the part but for the supply manager's switches, filters and conditions. -/
theorem State.Spares.of_moved {a : Ambient} (answer : exec i s = .next t) (moved : Moved (s.arrive a) t) : s.Spares i := by
  obtain ⟨v, kept⟩ := moved.rest
  exact .of_elsewhere answer kept

end

theorem State.spares_motionSetup (a : Ambient) (s : State) (hs : s.supply.held = false) : s.Spares (.motionSetup a) := by
  obtain ⟨t, m, p, answer, kept, -, acc, exposure, -⟩ := execMotionSetup_leaves a s hs
  refine .of_kept answer kept fun w spared => ?_
  cases w
  case front | settings => cases spared
  case accumulators => exact acc
  case exposure => exact exposure
  case routes | lines | timers => rfl

theorem State.spares_sampleReadComplete (a : Ambient) (x : Sample) (s : State) (hs : s.supply.held = false) :
    s.Spares (.sampleReadComplete a x) := by
  obtain ⟨t, answer, m, acc, kept, -⟩ := execSampleReadComplete_leaves a x s hs
  refine .of_kept answer kept fun w spared => ?_
  cases w
  case front | accumulators => cases spared
  case settings | exposure | routes | lines | timers => rfl

theorem State.spares_exposure (a : Ambient) (s : State) (hs : s.supply.held = false) : s.Spares (.exposure a) := by
  obtain ⟨t, n, answer, kept⟩ := execExposure_leaves a s hs
  refine .of_kept answer kept fun w spared => ?_
  cases w
  case exposure => cases spared
  case front | accumulators | settings | routes | lines | timers => rfl

/-- A command whose own changes reach the router alone. -/
theorem State.Spares.of_router {i : Instr} {s t : State} {a : Ambient} {r : Router} (answer : exec i s = .next t)
    (kept : Kept { s.arrive a with router := r } t) (routes : mayChange i .routes = false → r.routes = s.router.routes)
    (lines : mayChange i .lines = false → r.lines = s.router.lines)
    (timers : mayChange i .timers = false → r.timers = s.router.timers) : s.Spares i := by
  refine .of_kept answer kept fun w spared => ?_
  cases w
  case routes => exact routes spared
  case lines => exact lines spared
  case timers => exact timers spared
  case front | accumulators | settings | exposure => rfl

/-- Every command leaves the watched parts that it may not change. -/
theorem State.spares (i : Instr) (s : State) (hs : s.supply.held = false) : s.Spares i := by
  cases i with
  | powerOnReset | brownoutReset | linkDown | linkReset | registerWrite | powerState => exact fun _ _ _ spared => nomatch spared
  | brownoutRelease a => exact .of_elsewhere (if_neg (by simp [hs])) (.refl (s.arrive a))
  | start a =>
    obtain ⟨t, _, _, _, _, answer, kept, -⟩ := execStart_leaves a s hs
    exact .of_front answer kept
  | anchorReadComplete a =>
    obtain ⟨t, _, answer, kept, -⟩ := execAnchorReadComplete_leaves a s hs
    exact .of_elsewhere answer kept
  | nudge a =>
    obtain ⟨t, answer, kept⟩ := execNudge_leaves a s hs
    exact .of_elsewhere answer kept
  | causeWrite a value =>
    obtain ⟨t, answer, kept⟩ := execCauseWrite_leaves a value s hs
    exact .of_elsewhere answer kept
  | causeMaskWrite a value =>
    obtain ⟨t, answer, kept⟩ := execCauseMaskWrite_leaves a value s hs
    exact .of_elsewhere answer kept
  | scanTick a => exact (execScanTick_leaves a).spares hs
  | statusRefresh a =>
    obtain ⟨t, _, answer, kept⟩ := execStatusRefresh_leaves a s hs
    exact .of_elsewhere answer kept
  | motionSetup a => exact s.spares_motionSetup a hs
  | reference a => exact (execReference_leaves a).spares hs
  | exposure a => exact s.spares_exposure a hs
  | statusAck a => exact (execStatusAck_leaves a).spares hs
  | route a =>
    obtain ⟨t, answer, _, kept⟩ := execRoute_leaves a s hs
    exact .of_router answer kept (fun spared => nomatch spared) (fun _ => rfl) (fun _ => rfl)
  | lineSetup a =>
    obtain ⟨t, answer, _, kept⟩ := execLineSetup_leaves a s hs
    exact .of_router answer kept (fun _ => rfl) (fun spared => nomatch spared) (fun _ => rfl)
  | timerSetup a =>
    obtain ⟨t, answer, _, kept⟩ := execTimerSetup_leaves a s hs
    exact .of_router answer kept (fun _ => rfl) (fun _ => rfl) (fun spared => nomatch spared)
  | outputWrite a => exact (execOutputWrite_leaves a).spares hs
  | clipOpen a => exact (execClipOpen_leaves a).spares hs
  | clipClose a => exact (execClipClose_leaves a).spares hs
  | chunk a => exact (execChunk_leaves a).spares hs
  | cardAttach a => exact (execCardAttach_leaves a).spares hs
  | cardRead a => exact (execCardRead_leaves a).spares hs
  | cardWrite a => exact (execCardWrite_leaves a).spares hs
  | extentAdd a => exact (execExtentAdd_leaves a).spares hs
  | extentWithdraw a => exact (execExtentWithdraw_leaves a).spares hs
  | protect a => exact (execProtect_leaves a).spares hs
  | chargeSetup a =>
    obtain ⟨t, answer, _, _, _, kept⟩ := execChargeSetup_leaves a s hs
    exact .of_elsewhere answer kept
  | inputLimit a =>
    obtain ⟨t, answer, _, _, _, kept⟩ := execInputLimit_leaves a s hs
    exact .of_elsewhere answer kept
  | loadClass a =>
    obtain ⟨t, answer, _, kept⟩ := execLoadClass_leaves a s hs
    exact .of_elsewhere answer kept
  | pathSet a =>
    obtain ⟨t, answer, moved⟩ := execPathSet_leaves a s hs
    exact .of_moved answer moved
  | resume a => exact (execResume_leaves a).spares hs
  | abandon a => exact (execAbandon_leaves a).spares hs
  | dataReadyEdge a =>
    obtain ⟨t, answer, _, kept, -⟩ := execDataReadyEdge_leaves a s hs
    exact .of_front answer kept
  | sampleReadComplete a sample => exact s.spares_sampleReadComplete a sample hs
  | imuSettleEnd a =>
    obtain ⟨t, answer, _, kept, -⟩ := execImuSettleEnd_leaves a s hs
    exact .of_front answer kept
  | lossDeadline a =>
    obtain ⟨t, answer, _, kept, -⟩ := execLossDeadline_leaves a s hs
    exact .of_front answer kept
  | lostPowerOffEnd a =>
    obtain ⟨t, answer, _, kept, -⟩ := execLostPowerOffEnd_leaves a s hs
    exact .of_front answer kept
  | runningOneSecond a =>
    obtain ⟨t, answer, _, kept, -⟩ := execRunningOneSecond_leaves a s hs
    exact .of_front answer kept
  | inputLineEdge a line level =>
    obtain ⟨t, answer, _, kept⟩ := execInputLineEdge_leaves a line level s hs
    exact .of_router answer kept (fun _ => rfl) (fun spared => nomatch spared) (fun _ => rfl)
  | timerExpiry a timer =>
    obtain ⟨t, answer, _, kept⟩ := execTimerExpiry_leaves a timer s hs
    exact .of_router answer kept (fun _ => rfl) (fun _ => rfl) (fun spared => nomatch spared)
  | extrapolationDeadline a => exact (execExtrapolationDeadline_leaves a).spares hs
  | chunkCopyComplete a => exact (execChunkCopyComplete_leaves a).spares hs
  | chunkPieceReadError a good => exact (execChunkPieceReadError_leaves a good).spares hs
  | cardDetectChange a => exact (execCardDetectChange_leaves a).spares hs
  | attachComplete a capacity usable => exact (execAttachComplete_leaves a capacity usable).spares hs
  | attachTimeout a => exact (execAttachTimeout_leaves a).spares hs
  | cardProgramming a => exact (execCardProgramming_leaves a).spares hs
  | cardWriteAccepted a => exact (execCardWriteAccepted_leaves a).spares hs
  | cardWriteError a => exact (execCardWriteError_leaves a).spares hs
  | cardBusyTimeout a => exact (execCardBusyTimeout_leaves a).spares hs
  | rawBufferReadComplete a =>
    obtain ⟨t, answer, kept | ⟨_, kept⟩⟩ := execRawBufferReadComplete_leaves a s hs
    · exact .of_elsewhere answer kept
    · exact .of_elsewhere answer kept
  | rawReadComplete a ok data => exact (execRawReadComplete_leaves a ok data).spares hs
  | graceExpiry a => exact (execGraceExpiry_leaves a).spares hs
  | drainEnd a => exact (execDrainEnd_leaves a).spares hs
  | measurement a values =>
    obtain ⟨t, answer, ⟨-, rfl⟩ | ⟨-, _, _, _, _, _, moved⟩⟩ := execMeasurement_leaves a values s hs
    · exact .of_elsewhere answer (.refl _)
    · obtain ⟨v, kept⟩ := moved.rest
      exact .of_elsewhere answer kept
  | periodicEvaluation a =>
    obtain ⟨t, answer, _, _, _, _, _, _, kept, -⟩ := execPeriodicEvaluation_leaves a s hs
    exact .of_elsewhere answer kept
  | safetyTimerLimit a => exact (execSafetyTimerLimit_leaves a).spares hs
  | switchConfirm a switch =>
    obtain ⟨t, answer, moved⟩ := execSwitchConfirm_leaves a switch s hs
    exact .of_moved answer moved
  | switchConfirmTimeout a =>
    obtain ⟨t, answer, moved⟩ := execSwitchConfirmTimeout_leaves a s hs
    exact .of_moved answer moved
  | vinCollapse a =>
    obtain ⟨t, answer, moved⟩ := execVinCollapse_leaves a s hs
    exact .of_moved answer moved

/-- Settles O59: the watched parts that each command leaves, read for the commands that the statement names. -/
theorem onlyTheirCommandsChangeMotionPathAndRouter : Obligations.OnlyTheirCommandsChangeMotionPathAndRouter := by
  unfold Obligations.OnlyTheirCommandsChangeMotionPathAndRouter
  intro i s t hs answered resets senses
  have named := s.spares i hs t answered
  refine ⟨fun noReset noSense => named .front ?front, fun noReset other => named .accumulators ?accumulators,
    fun noReset other => ?settings, fun noReset other => named .exposure ?exposure, fun noReset other => named .routes ?routes,
    fun noReset other => named .lines ?lines, fun noReset other => named .timers ?timers⟩
  case settings =>
    have same : t.path.settings = s.path.settings := named .settings (by cases i <;> trivial)
    simpa only [Path.settings, Prod.mk.injEq] using same
  case front => cases i <;> trivial
  case accumulators => cases i <;> trivial
  case exposure => cases i <;> trivial
  case routes => cases i <;> trivial
  case lines => cases i <;> trivial
  case timers => cases i <;> trivial

end Sys2Proof.Machine
end

section
/-! SUPPORT. A record's ways out: its bytes in its slot, the cause flags, the motion unit handed on, the queue of units, the unit placed
and the marker of an incident. -/

namespace Sys2Proof.Machine

/-! ## Bytes laid in parts -/

theorem memBytes_add (m : Mem) (a n k : Nat) : memBytes m a (n + k) = memBytes m a n ++ memBytes m (a + n) k := by
  induction n generalizing a with
  | zero => simp [memBytes]
  | succ n ih => rw [Nat.add_right_comm, memBytes, ih, memBytes, List.cons_append, Nat.add_right_comm a, Nat.add_assoc]

/-- A write leaves the bytes of a range that it does not reach. -/
theorem memBytes_write_other {m : Mem} {a b n : Nat} {l : List Byte} (hm : memWf m = true) (h : b + n ≤ a ∨ a + l.length ≤ b) :
    memBytes (memWrite m a l) b n = memBytes m b n :=
  memBytes_congr fun _ _ _ => memByte_write_other hm (by omega)

/-- Bytes written behind others are read with them. -/
theorem memBytes_write_next {m : Mem} {a n : Nat} {l l' : List Byte} (hm : memWf m = true) (h : memBytes m a n = l) :
    memBytes (memWrite m (a + n) l') a (n + l'.length) = l ++ l' := by
  rw [memBytes_add, memBytes_write_other hm (by omega), h, memBytes_write_same hm]

theorem leWord_length {w : Nat} (n : Nat) (v : BitVec w) : (leWord n v).length = n := leBytes_length _ _

theorem leInt_length (n : Nat) (i : Int) : (leInt n i).length = n := leBytes_length _ _

theorem warpHeader_length (r : WarpRecord) : (warpHeader r).length = 60 := by
  simp [warpHeader, leWord_length, leInt_length, leBytes_length, zeroBytes]

theorem warpBands_length (r : WarpRecord) : (warpBands r).length = 128 := by
  have each : ∀ b : Band, (leInt 2 b.yaw ++ leInt 2 b.pitch ++ leInt 4 b.roll).length = 8 := fun b => by simp [leInt_length]
  have count : ((r.bands ++ List.replicate (16 - r.bands.length) ({ yaw := 0, pitch := 0, roll := 0 } : Band)).take 16).length =
      16 := by
    simp
    omega
  simp only [warpBands, List.length_flatMap, each, List.map_const', count, List.sum_replicate]
  rfl

theorem warpTail_length (r : WarpRecord) : (warpTail r).length = 4 := leWord_length _ _

/-! ## The record in its slot (R54) -/

section
variable (x : Exchange) (slot : Nat) (r : WarpRecord) (hm : memWf x.mem = true)
include hm

theorem Exchange.writeWarp_bytes : memBytes (x.writeWarp slot r).mem slot 192 = warpBytes r := by
  have wf1 : memWf (memWrite x.mem slot (warpHeader r)) = true := memWf_write hm
  have wf2 : memWf (memWrite (memWrite x.mem slot (warpHeader r)) (slot + 60) (warpBands r)) = true := memWf_write wf1
  have header := memBytes_write_same (a := slot) (l := warpHeader r) hm
  rw [warpHeader_length] at header
  have bands := memBytes_write_next (l' := warpBands r) wf1 header
  rw [warpBands_length] at bands
  have whole := memBytes_write_next (l' := warpTail r) wf2 bands
  rw [warpTail_length] at whole
  exact whole

theorem Exchange.writeWarp_other {b : Nat} (h : b < slot ∨ slot + 192 ≤ b) :
    memByte (x.writeWarp slot r).mem b = memByte x.mem b := by
  have header := warpHeader_length r
  have bands := warpBands_length r
  have tail := warpTail_length r
  have wf1 : memWf (memWrite x.mem slot (warpHeader r)) = true := memWf_write hm
  exact ((memByte_write_other (memWf_write wf1) (by omega)).trans (memByte_write_other wf1 (by omega))).trans
    (memByte_write_other hm (by omega))

end

/-! ## Cause flags asked for (R90) -/

theorem Exchange.request_mem (x : Exchange) (f : BitVec 9) : (x.request f).mem = x.mem := by
  unfold Exchange.request Exchange.message
  split
  · split <;> rfl
  · rfl

theorem Exchange.request_state (x : Exchange) (f : BitVec 9) : (x.request f).state = x.state := by
  unfold Exchange.request Exchange.message
  split
  · split <;> rfl
  · rfl

theorem Exchange.request_cause_running {x : Exchange} (h : x.state = .running) (f : BitVec 9) :
    (x.request f).cause = x.cause ||| f := by
  unfold Exchange.request
  rw [if_pos (by simp [XState.live, h])]

/-! ## The record handed on (R58) -/

/-- An OPEN clip that records motion takes the record as a motion unit, with its two counts. -/
theorem State.handMotion_recorded {s : State} (r : WarpRecord) {c : ClipSet} (opened : s.writer.state = .opened)
    (clip : s.writer.clip = some c) (motion : c.streams.getLsbD 3 = true) : s.handMotion r = { s with
      path := { s.path with clipCount := s.path.clipCount + 1 }
      writer := s.writer.enqueue
        { motion := true, time := r.start
          payload := warpBytes r ++ leBytes 4 r.span ++ leBytes 4 (s.path.clipCount + 1).toNat } } := by
  unfold State.handMotion
  rw [opened, clip]
  exact if_pos motion

theorem State.handMotion_unrecorded {s : State} (r : WarpRecord)
    (h : s.writer.state ≠ .opened ∨ s.writer.clip = none ∨ ∃ c, s.writer.clip = some c ∧ c.streams.getLsbD 3 = false) :
    s.handMotion r = s := by
  rcases h with closed | none | ⟨c, clip, still⟩
  · exact s.handMotion_of_not_open r closed
  · unfold State.handMotion
    rw [none]
    split <;> trivial
  · unfold State.handMotion
    rw [clip]
    split
    · rename_i k _ some
      cases some
      exact if_neg (by simpa [ClipSet.records] using still)
    · rfl

/-! ## The queue of units (R111) -/

theorem dropMotion_append {pre : List QUnit} {m : QUnit} (post : List QUnit) (motion : m.motion = true)
    (still : ∀ v ∈ pre, v.motion = false) : dropMotion (pre ++ m :: post) = pre ++ post := by
  induction pre with
  | nil => simp [dropMotion, motion]
  | cons v pre ih =>
    have first := still v (by simp)
    have rest := ih fun u mem => still u (by simp [mem])
    simp [dropMotion, first, rest]

theorem Writer.enqueue_room {w : Writer} (u : QUnit) (room : w.queue.length < 4) :
    w.enqueue u = { w with queue := w.queue ++ [u] } := if_pos room

/-- A full queue with motion in it loses its oldest motion unit for the one that comes. -/
theorem Writer.enqueue_over {w : Writer} (u : QUnit) {pre post : List QUnit} {m : QUnit} (full : 4 ≤ w.queue.length)
    (queue : w.queue = pre ++ m :: post) (motion : m.motion = true) (still : ∀ v ∈ pre, v.motion = false) :
    w.enqueue u = { w with queue := pre ++ post ++ [u], motionDropped := w.motionDropped + 1 } := by
  have any : w.queue.any (·.motion) = true := by simp [queue, motion]
  refine (if_neg (Nat.not_lt_of_le full)).trans ((if_pos any).trans ?_)
  rw [queue, dropMotion_append post motion still]

/-- A queue full of markers loses the unit that comes. -/
theorem Writer.enqueue_full {w : Writer} (u : QUnit) (full : 4 ≤ w.queue.length) (still : ∀ v ∈ w.queue, v.motion = false) :
    w.enqueue u = if u.motion = true then { w with motionDropped := w.motionDropped + 1 }
      else { w with markersDropped := w.markersDropped + 1 } := by
  have none : w.queue.any (·.motion) = false := by simpa using still
  exact (if_neg (Nat.not_lt_of_le full)).trans (if_neg (by simp [none]))

/-! ## The oldest unit placed (R112) -/

theorem Writer.copyBegun_eq_false (w : Writer) : w.copyBegun = false ↔ ∀ j, w.job = some j → j.stage ≠ .copying := by
  unfold Writer.copyBegun
  cases w.job <;> simp

/-- Placing can proceed into a buffer: no unit in progress, no chunk being copied, and the FILLING buffer has its position. -/
theorem Writer.placing_eq_some (w : Writer) (i : Fin 4) : w.placing = some i ↔
    w.feed = [] ∧ (∀ j, w.job = some j → j.stage ≠ .copying) ∧ w.filling = some i ∧ (w.bufs.get i).pos ≠ none := by
  rw [← Writer.copyBegun_eq_false]
  unfold Writer.placing
  cases filling : w.filling with
  | none => simp
  | some k =>
    by_cases same : k = i
    · subst same
      simp [Option.isSome_iff_ne_none, and_assoc]
    · simp [same]

theorem Buf.room_ne_zero (b : Buf) : b.room ≠ 0 ↔ b.fill < 65536 := by
  unfold Buf.room Config.packBytes
  omega

/-- A queued unit may be placed by the writer's state and its cut: OPEN, or before the final pack of a close; no cut past its first step. -/
def Writer.MayPlace (w : Writer) : Prop :=
  (w.state = .opened ∨ (w.state = .closing ∧ w.closing = .drain)) ∧ ∀ c, w.cut = some c → c.stage = .place

/-- A queued unit can be placed: it may be, and a buffer takes it. -/
def Writer.CanPlace (w : Writer) : Prop := w.MayPlace ∧ ∃ i, w.placing = some i ∧ (w.bufs.get i).room ≠ 0

section
variable {s : State}

theorem State.queueStep_empty (h : s.writer.queue = []) : s.queueStep = none := by
  unfold State.queueStep
  dsimp only
  rw [h]
  split
  · rename_i queue
    cases queue
  · rfl

theorem State.queueStep_blocked (h : ¬s.writer.CanPlace) : s.queueStep = none := by
  unfold State.queueStep
  dsimp only
  split
  · rename_i i u rest placing queue
    refine if_neg fun able => h ?_
    simp only [Bool.and_eq_true, Bool.or_eq_true, beq_iff_eq, bne_iff_ne] at able
    obtain ⟨⟨state, cut⟩, room⟩ := able
    refine ⟨⟨state, fun c cutting => ?_⟩, i, placing, room⟩
    simpa [cutting] using cut
  · rfl

theorem State.queueStep_placed {u : QUnit} {rest : List QUnit} (h : s.writer.CanPlace) (queue : s.writer.queue = u :: rest) :
    s.queueStep = some ((s.onWriter fun w => ({ w with queue := rest } : Writer).startQueued u).noteUnit u.time) := by
  obtain ⟨⟨state, cut⟩, i, placing, room⟩ := h
  unfold State.queueStep
  dsimp only
  rw [placing, queue]
  refine if_pos ?_
  simp only [Bool.and_eq_true, Bool.or_eq_true, beq_iff_eq, bne_iff_ne]
  refine ⟨⟨state, ?_⟩, room⟩
  cases cutting : s.writer.cut with
  | none => rfl
  | some c => exact beq_iff_eq.mpr (cut c cutting)

end

/-- A queued unit as it begins: its header, its payload and its padding to be placed, counted in the clip and in the segment open now
(R112; log entry 66). -/
theorem Writer.startQueued_eq (w : Writer) (u : QUnit) :
    let counted (v : Six Word) : Six Word :=
      if u.motion then { v with motion := v.motion + 1 } else { v with marker := v.marker + 1 }
    let header := if u.motion then unitHeader .motion 0 w.seqs.motion u.payload.length u.time
      else unitHeader .marker 0 w.seqs.marker u.payload.length u.time
    w.startQueued u = { w with
      placed := counted w.placed
      seg := w.seg.map fun g => { g with counts := counted g.counts }
      seqs := if u.motion then { w.seqs with motion := w.seqs.motion + 1 } else { w.seqs with marker := w.seqs.marker + 1 }
      feed := ([.bytes header, .bytes u.payload, .zeros ((4 - u.payload.length % 4) % 4)] : List Src).filter
        fun r => r.length != 0 } := by
  obtain ⟨motion, time, payload⟩ := u
  cases motion <;> rfl

/-- The storage map with a unit's time noted in the segment that is open (R145). -/
def Store.noted (st : Store) (t : Time) : Store :=
  match st.openSeg with
  | some g => st.mapSeg g.serial fun h => h.noteTime t
  | none => st

theorem State.noteUnit_eq (t : Time) (s : State) : s.noteUnit t = { s with store := s.store.noted t } := by
  unfold State.noteUnit Store.noted
  cases s.store.openSeg <;> rfl

/-! ## The marker of an incident (R113) -/

theorem Writer.takesMarkers_iff (w : Writer) : w.takesMarkers = true ↔
    (w.state = .opened ∨ (w.state = .closing ∧ (w.closing = .drain ∨ w.closing = .queue))) := by
  simp [Writer.takesMarkers]

theorem State.markerSerial_eq (s : State) : s.markerSerial = match s.store.opening, s.store.openSeg with
    | some n, _ => n
    | none, some g => g.serial
    | none, none => if s.writer.cut = none then 0 else s.store.nextSerial := by
  unfold State.markerSerial
  cases s.store.opening with
  | some n => rfl
  | none =>
    cases s.store.openSeg with
    | some g => rfl
    | none => cases s.writer.cut <;> rfl

/-- Settles O30: the publication by the exchange's state, the record handed on by the writer's, the queue by its room, the oldest unit by
whether it can be placed, the incident by whether a marker may be made. -/
theorem recordIsPublished : Obligations.RecordIsPublished := by
  unfold Obligations.RecordIsPublished
  refine ⟨fun s r alert => ⟨State.publish_withheld emit s r alert, fun a k anchor running consumed wf => ?published⟩,
    fun s r => ⟨fun c => State.handMotion_recorded r, State.handMotion_unrecorded r⟩,
    fun w u => ⟨Writer.enqueue_room u, fun pre m post => Writer.enqueue_over u, Writer.enqueue_full u⟩,
    fun s => ?placed, fun s t source => ?marked⟩
  case published =>
    intro late w slot
    have published (mask : BitVec 10) := s.publish_running emit r mask anchor running consumed
    refine ⟨?record, fun quiet => ?quiet, fun alerted => ?alerted⟩
    case record =>
      rw [published]
      split <;> rfl
    case quiet =>
      intro t
      have made : t = s.warpWritten a r.number late w := congrArg Prod.fst ((published alert).trans (if_pos quiet))
      rw [made]
      exact ⟨(congrArg (memBytes · slot 192) (Exchange.request_mem _ _)).trans (s.xchg.writeWarp_bytes slot w wf),
        fun b outside => (congrArg (memByte · b) (Exchange.request_mem _ _)).trans (s.xchg.writeWarp_other slot w wf outside),
        Exchange.request_cause_running (x := s.xchg.writeWarp slot w) running _, rfl, rfl⟩
    case alerted =>
      intro t told
      have written : t = s.warpWritten a r.number late w :=
        congrArg Prod.fst ((published 0).trans (if_pos BitVec.and_zero))
      have made : (s.publish emit r alert).1 = (emit told t).onXchg fun x => x.request causeAlert := by
        rw [written]
        exact congrArg Prod.fst ((published alert).trans (if_neg alerted))
      refine ⟨made, fun unheard awake => ?_⟩
      have emitted : emit told t = { t with events := s.events ++ [told] } := by
        rw [written]
        exact emit_unheard unheard awake rfl
      have running' : t.xchg.state = .running := by
        rw [written]
        exact (Exchange.request_state _ _).trans running
      have warp : t.xchg.cause = s.xchg.cause ||| causeWarp := by
        rw [written]
        exact Exchange.request_cause_running (x := s.xchg.writeWarp slot w) running _
      rw [made, emitted, ← warp]
      exact ⟨rfl, Exchange.request_cause_running running' _⟩
  case placed =>
    intro w able
    have can : s.writer.CanPlace ↔ able := by
      constructor
      · rintro ⟨⟨state, cut⟩, i, placing, room⟩
        obtain ⟨feed, job, filling, pos⟩ := (w.placing_eq_some i).mp placing
        exact ⟨state, cut, feed, job, i, filling, pos, (Buf.room_ne_zero _).mp room⟩
      · rintro ⟨state, cut, feed, job, i, filling, pos, fill⟩
        exact ⟨⟨state, cut⟩, i, (w.placing_eq_some i).mpr ⟨feed, job, filling, pos⟩, (Buf.room_ne_zero _).mpr fill⟩
    refine ⟨fun h => ?none, fun u rest free queue => ?some⟩
    case none =>
      rcases h with blocked | empty
      · exact State.queueStep_blocked (mt can.mp blocked)
      · exact State.queueStep_empty empty
    case some =>
      intro counted header
      have begun := Writer.startQueued_eq { w with queue := rest } u
      refine (State.queueStep_placed (can.mpr free) queue).trans (congrArg some ((State.noteUnit_eq _ _).trans ?_))
      exact congrArg (fun v : Writer => { s with writer := v, store := s.store.noted u.time }) begun
  case marked =>
    intro told w takes serial payload
    have carried : s.markerSerial = serial := s.markerSerial_eq
    refine ⟨fun may => ?_, fun not => if_neg (mt (Writer.takesMarkers_iff w).mp not)⟩
    refine (if_pos ((Writer.takesMarkers_iff w).mpr may)).trans ?_
    rw [carried]
    rfl

end Sys2Proof.Machine
end

section
/-! SUPPORT. The event router's tables: sinks by index, the numbers their owners raise, the route table's entries. -/

namespace Sys2Proof.Machine

/-! ## Sinks (section 4.2) -/

theorem sinkOf_eq_none_iff (n : Nat) : sinkOf n = none ↔ 17 < n := List.getElem?_eq_none_iff

theorem mem_allSinks (k : Sink) : k ∈ allSinks := by
  cases k with
  | setLine n => revert n; decide
  | clearLine n => revert n; decide
  | _ => decide

theorem allSinks_nodup : allSinks.Nodup := by decide

/-! ## Event numbers (section 4.1) -/

/-- The numbers that a sink's owner raises, by sink (R64). -/
def ownNumbers : Sink → List Nat
  | .frameStart | .frameEnd | .recentre => [0x300, 0x301, 0x302, 0x303, 0x304]
  | .incident | .cut | .close => [0x400, 0x401, 0x402, 0x403, 0x404, 0x405, 0x406, 0x407]
  | .pause | .resume => [0x500, 0x501, 0x502, 0x503, 0x504, 0x507]
  | .setLine _ | .clearLine _ => []
  | .wakeA | .wakeB => [0x505, 0x506]

theorem selfRaised_iff (k : Sink) (n : BitVec 16) : selfRaised k n = true ↔ n.toNat ∈ ownNumbers k := by
  cases k with
  | setLine _ | clearLine _ | wakeA | wakeB => simp [selfRaised, ownNumbers]
  | frameStart | frameEnd | recentre | incident | cut | close | pause | resume =>
    simp only [selfRaised, ownNumbers, Bool.and_eq_true, Bool.or_eq_true, decide_eq_true_eq, beq_iff_eq, List.mem_cons,
      List.not_mem_nil, or_false]
    omega

theorem isEventNumber_iff (n : BitVec 16) : isEventNumber n = true ↔ n.toNat ∈
    [0x100, 0x101, 0x102, 0x104, 0x105, 0x106, 0x108, 0x109, 0x10A, 0x10C, 0x10D, 0x10E, 0x200, 0x201, 0x202, 0x203,
     0x300, 0x301, 0x302, 0x303, 0x304, 0x400, 0x401, 0x402, 0x403, 0x404, 0x405, 0x406, 0x407,
     0x500, 0x501, 0x502, 0x503, 0x504, 0x505, 0x506, 0x507] := by
  simp only [isEventNumber, Bool.and_eq_true, Bool.or_eq_true, decide_eq_true_eq, bne_iff_ne, List.mem_cons, List.not_mem_nil,
    or_false]
  omega

/-! ## The route table (R62, R63) -/

section
variable (r : Routes) (n : BitVec 16)

theorem Routes.of_change_same (k : Sink) : (r.change k n).of k = n := by
  cases k with
  | setLine m => exact (Four.get_set _ m m n).trans (if_pos rfl)
  | clearLine m => exact (Four.get_set _ m m n).trans (if_pos rfl)
  | _ => rfl

theorem Routes.of_change_other {j k : Sink} (other : j ≠ k) : (r.change k n).of j = r.of j := by
  cases k with
  | setLine m =>
    cases j with
    | setLine i => exact (Four.get_set _ m i n).trans (if_neg fun same => other (congrArg Sink.setLine same))
    | _ => rfl
  | clearLine m =>
    cases j with
    | clearLine i => exact (Four.get_set _ m i n).trans (if_neg fun same => other (congrArg Sink.clearLine same))
    | _ => rfl
  | _ => cases j <;> trivial

theorem Routes.listening_nodup : (r.listening n).Nodup := by
  unfold Routes.listening
  split
  · exact List.nodup_nil
  · exact allSinks_nodup.filter _

theorem Routes.mem_listening (k : Sink) : k ∈ r.listening n ↔ n ≠ 0 ∧ r.of k = n := by
  unfold Routes.listening
  split
  case isTrue zero => exact ⟨(nomatch ·), fun h => absurd zero h.1⟩
  case isFalse nonzero => simp only [List.mem_filter, mem_allSinks, true_and, beq_iff_eq, ne_eq, nonzero, not_false_eq_true]

end

/-! ## ROUTE (R63, R64) -/

section
variable (a : Ambient) {s : State} {index : Nat} {n : BitVec 16} (hs : s.supply.held = false)
  (body : s.frameBody .control = some (.route index n))
include hs body

theorem exec_route_noSink (none : sinkOf index = none) :
    exec (.route a) s = .next ((s.arrive a).finish .control .refused .badField 0) := by
  refine (perform_free hs : execRoute a s = _).trans (congrArg Host.Outcome.next ?_)
  have arrived : (s.arrive a).frameBody .control = some (.route index n) := body
  simp [arrived, none]

theorem exec_route_noEvent {k : Sink} (sink : sinkOf index = some k) (nonzero : n ≠ 0) (unknown : isEventNumber n = false) :
    exec (.route a) s = .next ((s.arrive a).finish .control .refused .badField 0) := by
  refine (perform_free hs : execRoute a s = _).trans (congrArg Host.Outcome.next ?_)
  have arrived : (s.arrive a).frameBody .control = some (.route index n) := body
  simp only [arrived, sink]
  exact if_pos ⟨nonzero, by rw [unknown]; rfl⟩

theorem exec_route_selfRaised {k : Sink} (sink : sinkOf index = some k) (known : n = 0 ∨ isEventNumber n = true)
    (own : selfRaised k n = true) : exec (.route a) s = .next ((s.arrive a).finish .control .refused .selfRoute 0) := by
  refine (perform_free hs : execRoute a s = _).trans (congrArg Host.Outcome.next ?_)
  have arrived : (s.arrive a).frameBody .control = some (.route index n) := body
  have passes : ¬(n ≠ 0 ∧ (!isEventNumber n) = true) := by simpa [or_iff_not_imp_left] using known
  simp only [arrived, sink, if_neg passes, if_pos own]

theorem exec_route_set {k : Sink} (sink : sinkOf index = some k) (known : n = 0 ∨ isEventNumber n = true)
    (other : selfRaised k n = false) : exec (.route a) s = .next (State.finish
      { s.arrive a with router := { s.router with routes := s.router.routes.change k n } } .control .done .ok 0) := by
  refine (perform_free hs : execRoute a s = _).trans (congrArg Host.Outcome.next ?_)
  have arrived : (s.arrive a).frameBody .control = some (.route index n) := body
  have passes : ¬(n ≠ 0 ∧ (!isEventNumber n) = true) := by simpa [or_iff_not_imp_left] using known
  simp only [arrived, sink, if_neg passes, other]
  rfl

end

/-- Settles O31: the tables row by row, the entry set by its sink, and the frame by the first of its checks that fails. -/
theorem routeIsCheckedAndSet : Obligations.RouteIsCheckedAndSet := by
  unfold Obligations.RouteIsCheckedAndSet
  refine ⟨sinkOf_eq_none_iff, rfl, selfRaised_iff, fun r k n => ⟨r.of_change_same n k, fun j => r.of_change_other n⟩,
    isEventNumber_iff, fun a s index n hs body => ⟨fun past => ?noSink, fun k sink => ?sink⟩⟩
  case noSink => exact exec_route_noSink a hs body ((sinkOf_eq_none_iff index).mpr past)
  case sink =>
    exact ⟨exec_route_noEvent a hs body sink, exec_route_selfRaised a hs body sink, exec_route_set a hs body sink⟩

end Sys2Proof.Machine
end

section
/-! SUPPORT. LINE_SETUP, TIMER_SETUP and OUTPUT_WRITE: the index and the codes of a frame, one output line written, the four of them. -/

namespace Sys2Proof.Machine

/-! ## Indexes and codes -/

theorem existsIndex_iff (p : Fin 4 → Prop) : (∃ n, p n) ↔ p 0 ∨ p 1 ∨ p 2 ∨ p 3 := by
  simp only [Fin.exists_fin_succ, Fin.exists_fin_zero, or_false]
  rfl

theorem Four.toList_any {α : Type} (v : Four α) (p : α → Bool) : v.toList.any p = true ↔ ∃ n, p (v.get n) = true := by
  simp only [existsIndex_iff, Four.toList, List.any_cons, List.any_nil, Bool.or_eq_true, Bool.or_false]
  rfl

theorem fourIndex_of_lt {n : Nat} (h : n < 4) : fourIndex n = some ⟨n, h⟩ := dif_pos h

theorem fourIndex_of_past {n : Nat} (h : 3 < n) : fourIndex n = none := dif_neg (Nat.not_lt.mpr h)

theorem timerRun_named {run : Nat} (h : run ≤ 2) (now : Time) (period : Nat) (old : Option Time) :
    timerRun run now period old =
      some (if run = 0 then none else if run = 1 then some (now + BitVec.ofNat 48 period) else old) := by
  match run, h with
  | 0, _ | 1, _ | 2, _ => rfl

theorem timerRun_unnamed {run : Nat} (h : 2 < run) (now : Time) (period : Nat) (old : Option Time) :
    timerRun run now period old = none := by
  match run, h with
  | _ + 3, _ => rfl

/-! ## LINE_SETUP (R67) -/

section
variable (a : Ambient) {s : State} {n : Nat} {rise fall : Bool} {holdoff : Nat} (hs : s.supply.held = false)
  (body : s.frameBody .control = some (.lineSetup n rise fall holdoff))
include hs body

theorem exec_lineSetup_refused (past : 3 < n) :
    exec (.lineSetup a) s = .next ((s.arrive a).finish .control .refused .badField 0) := by
  refine (perform_free hs : execLineSetup a s = _).trans (congrArg Host.Outcome.next ?_)
  have arrived : (s.arrive a).frameBody .control = some (.lineSetup n rise fall holdoff) := body
  simp only [arrived, fourIndex_of_past past]

theorem exec_lineSetup_taken (h : n < 4) : exec (.lineSetup a) s = .next (State.finish { s.arrive a with
    router := { s.router with lines :=
      (s.router.lines.set ⟨n, h⟩ { (s.router.lines.get ⟨n, h⟩) with rise, fall, holdoff }) } } .control .done .ok 0) := by
  refine (perform_free hs : execLineSetup a s = _).trans (congrArg Host.Outcome.next ?_)
  have arrived : (s.arrive a).frameBody .control = some (.lineSetup n rise fall holdoff) := body
  simp only [arrived, fourIndex_of_lt h]
  rfl

end

/-! ## TIMER_SETUP (R68) -/

section
variable (a : Ambient) {s : State} {n mode run period : Nat} (hs : s.supply.held = false)
  (body : s.frameBody .control = some (.timerSetup n mode run period))
include hs body

theorem exec_timerSetup_refused (bad : 3 < n ∨ 1 < mode ∨ 2 < run) :
    exec (.timerSetup a) s = .next ((s.arrive a).finish .control .refused .badField 0) := by
  refine (perform_free hs : execTimerSetup a s = _).trans (congrArg Host.Outcome.next ?_)
  have arrived : (s.arrive a).frameBody .control = some (.timerSetup n mode run period) := body
  simp only [arrived]
  rcases Nat.lt_or_ge 3 n with past | index
  · simp only [fourIndex_of_past past]
  rcases Nat.lt_or_ge 2 run with unnamed | named
  · simp only [fourIndex_of_lt (Nat.lt_succ_of_le index), timerRun_unnamed unnamed]
  · have unnamed : 1 < mode := by omega
    simp only [fourIndex_of_lt (Nat.lt_succ_of_le index), timerRun_named named, if_pos unnamed]

theorem exec_timerSetup_taken (h : n < 4) (modes : mode ≤ 1) (runs : run ≤ 2) :
    exec (.timerSetup a) s = .next (State.finish { s.arrive a with
      router := { s.router with timers :=
        (s.router.timers.set ⟨n, h⟩
          { period := max 1 (min 16777216 period)
            periodic := mode == 1
            next := if run = 0 then none
              else if run = 1 then some ((s.arrive a).time + BitVec.ofNat 48 (max 1 (min 16777216 period)))
              else (s.router.timers.get ⟨n, h⟩).next }) } } .control .done .ok 0) := by
  refine (perform_free hs : execTimerSetup a s = _).trans (congrArg Host.Outcome.next ?_)
  have arrived : (s.arrive a).frameBody .control = some (.timerSetup n mode run period) := body
  simp only [arrived, fourIndex_of_lt h, timerRun_named runs, if_neg (Nat.not_lt.mpr modes)]
  rfl

end

/-! ## OUTPUT_WRITE (R72) -/

/-- A line with its masks replaced when the frame brings them. -/
def OutLine.withMasks (o : OutLine) (present set clear : Bool) : OutLine :=
  if present then { o with hostSet := set, hostClear := clear } else o

/-- A request that the line's masks ignore: SET under the set mask, CLEAR under the clear mask. -/
def OutLine.ignores (m : OutLine) (req : Nat) : Bool := (req == 1 && m.hostSet) || (req == 2 && m.hostClear)

/-- The level that a request leaves under the line's masks. -/
def OutLine.levelAfter (m : OutLine) (req : Nat) : Bool :=
  if req = 1 ∧ m.hostSet = false then true else if req = 2 ∧ m.hostClear = false then false else m.high

section
variable (o : OutLine) (req : Nat) (present set clear : Bool)

theorem OutLine.withMasks_hostSet : (o.withMasks present set clear).hostSet = if present then set else o.hostSet := by
  cases present <;> rfl

theorem OutLine.withMasks_hostClear : (o.withMasks present set clear).hostClear = if present then clear else o.hostClear := by
  cases present <;> rfl

theorem OutLine.withMasks_high : (o.withMasks present set clear).high = o.high := by
  cases present <;> rfl

/-- One line written: its request against its new masks. -/
theorem OutLine.write_eq : o.write req present set clear =
    let m := o.withMasks present set clear
    ({ m with high := m.levelAfter req }, m.ignores req) := by
  change (o.withMasks present set clear).write req false false false = _
  obtain ⟨high, hostSet, hostClear⟩ := o.withMasks present set clear
  match req with
  | 0 | _ + 3 => simp [OutLine.write, OutLine.levelAfter, OutLine.ignores]
  | 1 => cases hostSet <;> rfl
  | 2 => cases hostClear <;> rfl

end

section
variable (o : Four OutLine) (drives : Four Nat) (present : Bool) (sets clears : Byte)

theorem writeOuts_line (n : Fin 4) : (writeOuts o drives present sets clears).1.get n =
    ((o.get n).write (drives.get n) present (sets.getLsbD n.val) (clears.getLsbD n.val)).1 := by
  match n with
  | 0 | 1 | 2 | 3 => rfl

theorem writeOuts_ignored : (writeOuts o drives present sets clears).2 = true ↔
    ∃ n, ((o.get n).write (drives.get n) present (sets.getLsbD n.val) (clears.getLsbD n.val)).2 = true := by
  simp only [existsIndex_iff, writeOuts, Bool.or_eq_true, or_assoc]
  rfl

theorem writeOuts_masks (n : Fin 4) : let w := (writeOuts o drives present sets clears).1.get n
    w.hostSet = (if present then sets.getLsbD n.val else (o.get n).hostSet)
      ∧ w.hostClear = (if present then clears.getLsbD n.val else (o.get n).hostClear) := by
  rw [writeOuts_line, OutLine.write_eq]
  exact ⟨OutLine.withMasks_hostSet .., OutLine.withMasks_hostClear ..⟩

theorem writeOuts_high (n : Fin 4) : let w := (writeOuts o drives present sets clears).1.get n
    w.high = (if drives.get n = 1 ∧ w.hostSet = false then true
      else if drives.get n = 2 ∧ w.hostClear = false then false else (o.get n).high) := by
  rw [writeOuts_line, OutLine.write_eq, ← (o.get n).withMasks_high present (sets.getLsbD n.val) (clears.getLsbD n.val)]
  rfl

theorem writeOuts_masked : let w := writeOuts o drives present sets clears
    w.2 = true ↔ ∃ n, (drives.get n = 1 ∧ (w.1.get n).hostSet = true) ∨ (drives.get n = 2 ∧ (w.1.get n).hostClear = true) := by
  intro w
  refine (writeOuts_ignored ..).trans (exists_congr fun n => ?_)
  rw [writeOuts_line, OutLine.write_eq]
  simp only [OutLine.ignores, Bool.or_eq_true, Bool.and_eq_true, beq_iff_eq]

end

section
variable (a : Ambient) {s : State} {drives : Four Nat} {present : Bool} {sets clears : Byte} (hs : s.supply.held = false)
  (body : s.frameBody .control = some (.outputWrite drives present sets clears))
include hs body

theorem exec_outputWrite_refused (bad : ∃ n, 2 < drives.get n) :
    exec (.outputWrite a) s = .next ((s.arrive a).finish .control .refused .badField 0) := by
  refine (perform_free hs : execOutputWrite a s = _).trans (congrArg Host.Outcome.next ?_)
  have arrived : (s.arrive a).frameBody .control = some (.outputWrite drives present sets clears) := body
  simp only [arrived]
  obtain ⟨n, beyond⟩ := bad
  exact if_pos ((Four.toList_any drives fun d => decide (2 < d)).mpr ⟨n, decide_eq_true beyond⟩)

theorem exec_outputWrite_taken (named : ∀ n, drives.get n ≤ 2) :
    let w := writeOuts s.router.outs drives present sets clears
    exec (.outputWrite a) s = .next (State.finish { s.arrive a with router := { s.router with outs := w.1 } } .control .done
      (if w.2 then .masked else .ok) 0) := by
  refine (perform_free hs : execOutputWrite a s = _).trans (congrArg Host.Outcome.next ?_)
  have arrived : (s.arrive a).frameBody .control = some (.outputWrite drives present sets clears) := body
  have good : ¬drives.toList.any (fun d => decide (2 < d)) = true := by
    rw [Four.toList_any]
    exact fun ⟨n, beyond⟩ => Nat.not_lt.mpr (named n) (of_decide_eq_true beyond)
  simp only [arrived, if_neg good]
  rfl

end

/-- Settles O32: the two setups by index and codes; the outputs written line by line, and masked when a line ignores its request. -/
theorem lineTimerAndOutputFrames : Obligations.LineTimerAndOutputFrames := by
  unfold Obligations.LineTimerAndOutputFrames
  refine ⟨fun a s hs => ⟨fun n rise fall holdoff body => ?line, fun n mode run period body => ?timer⟩,
    fun a s drives present sets clears hs body => ⟨exec_outputWrite_refused a hs body, fun named => ?output⟩⟩
  case line => exact ⟨exec_lineSetup_refused a hs body, exec_lineSetup_taken a hs body⟩
  case timer => exact ⟨exec_timerSetup_refused a hs body, exec_timerSetup_taken a hs body⟩
  case output =>
    refine ⟨_, _, exec_outputWrite_taken a hs body named, fun n => ?_, writeOuts_masked ..⟩
    obtain ⟨set, clear⟩ := writeOuts_masks s.router.outs drives present sets clears n
    exact ⟨set, clear, writeOuts_high ..⟩

end Sys2Proof.Machine
end

section
/-! SUPPORT. The delivery of an event: the order of its sinks, the direct wake before or after them, the record of what is emitted. -/

namespace Sys2Proof.Machine

/-! ## An order chosen by the command (log entry 8) -/

section
variable {α : Type} [DecidableEq α] (pref all : List α)

theorem mem_arrange (x : α) : x ∈ arrange pref all ↔ x ∈ all := by
  by_cases preferred : x ∈ pref <;> simp [arrange, preferred]

theorem arrange_nodup (distinct : all.Nodup) : (arrange pref all).Nodup := by
  refine List.Nodup.append (List.nodup_dedup _) (distinct.filter _) fun x chosen left => ?_
  have unchosen := (List.mem_filter.mp left).2
  rw [List.contains_iff_mem.mpr chosen] at unchosen
  cases unchosen

theorem arrange_perm (distinct : all.Nodup) : (arrange pref all).Perm all :=
  (List.perm_ext_iff_of_nodup (arrange_nodup pref all distinct) distinct).mpr (mem_arrange pref all)

end

/-! ## Delivery (R60, R74) -/

theorem State.silent_iff (n : BitVec 16) (s : State) : s.silent n = true ↔ s.supply.power = .sleep ∧ 0x0300 ≤ n.toNat := by
  simp [State.silent]

theorem State.silent_directWake (m n : BitVec 16) (s : State) : (s.directWake m).silent n = s.silent n := by
  unfold State.silent
  rw [(s.kept_directWake m).supply.power]

/-- The sinks that take an event, in the order the command brings. -/
def State.sinksOf (s : State) (n : BitVec 16) : List Sink := arrange s.race.sinks (s.router.routes.listening n)

/-- An event recorded, then taken by each of the sinks in turn. -/
def State.taken (deliver : Emit) (e : Event) (sinks : List Sink) (s : State) : State :=
  sinks.foldl (fun t k => t.act deliver k e) { s with events := s.events ++ [e] }

theorem State.sinksOf_directWake (m n : BitVec 16) (s : State) : (s.directWake m).sinksOf n = s.sinksOf n := by
  have kept := s.kept_directWake m
  unfold State.sinksOf
  rw [kept.race, kept.routes]

section
variable (n : Nat) (e : Event) {s : State}

/-- Delivery in its three steps: the direct wake if it comes first, the sinks unless the event is silent, the wake if it comes after. -/
theorem emitFor_succ : emitFor (n + 1) e s =
    let before := if s.race.directFirst then s.directWake e.number else s
    let told := if before.silent e.number then before else before.taken (emitFor n) e (before.sinksOf e.number)
    if s.race.directFirst then told else told.directWake e.number := rfl

theorem emitFor_silent (silent : s.silent e.number = true) : emitFor (n + 1) e s = s.directWake e.number := by
  rw [emitFor_succ]
  cases s.race.directFirst with
  | false => exact congrArg (State.directWake e.number) (if_pos silent)
  | true => exact if_pos ((s.silent_directWake _ _).trans silent)

theorem emitFor_wakesAfter (after : s.race.directFirst = false) (heard : s.silent e.number = false) :
    emitFor (n + 1) e s = (s.taken (emitFor n) e (s.sinksOf e.number)).directWake e.number := by
  rw [emitFor_succ, after]
  exact congrArg (State.directWake e.number) (if_neg (Bool.eq_false_iff.mp heard))

theorem emitFor_wakesFirst (first : s.race.directFirst = true) (heard : s.silent e.number = false) :
    emitFor (n + 1) e s = (s.directWake e.number).taken (emitFor n) e (s.sinksOf e.number) := by
  rw [emitFor_succ, first, ← s.sinksOf_directWake e.number]
  exact if_neg (Bool.eq_false_iff.mp ((s.silent_directWake _ _).trans heard))

theorem State.taken_records (sinks : List Sink) (s : State) : s.events ++ [e] <+: (s.taken (emitFor n) e sinks).events :=
  (Kept.foldl (.refl { s with events := s.events ++ [e] }) _ _ fun u k => u.kept_act (keeps_emitFor n) k e).events

/-- An event that is heard joins the record of events, ahead of those its sinks emit. -/
theorem emitFor_records_heard (heard : s.silent e.number = false) : s.events ++ [e] <+: (emitFor (n + 1) e s).events := by
  cases order : s.race.directFirst with
  | false =>
    rw [emitFor_wakesAfter n e order heard, State.directWake_events]
    exact State.taken_records n e _ s
  | true =>
    rw [emitFor_wakesFirst n e order heard, ← s.directWake_events e.number]
    exact State.taken_records n e _ _

end

/-- The events of lines and timers are heard in every power state (R74). -/
theorem State.silent_of_below {n : BitVec 16} (below : n.toNat < 0x0300) (s : State) : s.silent n = false :=
  Bool.eq_false_iff.mpr fun silent => Nat.not_le.mpr below ((s.silent_iff n).mp silent).2

theorem emit_records_below (e : Event) (below : e.number.toNat < 0x0300) (s : State) : s.events ++ [e] <+: (emit e s).events :=
  emitFor_records_heard 11 e (s.silent_of_below below)

end Sys2Proof.Machine
end

section
/-! SUPPORT. Edges of the input lines and expiries of the timers: what each leaves, and the events it records. -/

namespace Sys2Proof.Machine

/-! ## Edges (R65, R66) -/

/-- The number of an edge's own kind. -/
def kindNumber (n : Fin 4) (level : Bool) : BitVec 16 := BitVec.ofNat 16 (0x100 + 4 * n.val + if level then 0 else 1)

/-- The number of an edge of either kind. -/
def eitherNumber (n : Fin 4) : BitVec 16 := BitVec.ofNat 16 (0x102 + 4 * n.val)

theorem kindNumber_below (n : Fin 4) (level : Bool) : (kindNumber n level).toNat < 0x0300 := by
  revert n level
  decide

theorem eitherNumber_below (n : Fin 4) : (eitherNumber n).toNat < 0x0300 := by
  revert n
  decide

theorem kindNumber_eq (n : Fin 4) (level : Bool) : kindNumber n level =
    if level then 0x0100 + BitVec.ofNat 16 (4 * n.val) else 0x0100 + BitVec.ofNat 16 (4 * n.val) + 1 := by
  revert n level
  decide

theorem eitherNumber_eq (n : Fin 4) : eitherNumber n = 0x0100 + BitVec.ofNat 16 (4 * n.val) + 2 := by
  revert n
  decide

/-- An event of an edge, by its number. -/
def edgeEvent (number : BitVec 16) (level : Bool) (t : Time) : Event := { number, time := t, arg := .num (if level then 1 else 0) }

/-- An edge of the kind produces events. -/
def InLine.enables (l : InLine) (level : Bool) : Bool := if level then l.rise else l.fall

/-- The last time at which the kind produced events. -/
def InLine.lastOf (l : InLine) (level : Bool) : Option Time := if level then l.lastRise else l.lastFall

/-- An edge at the time lies inside the holdoff of its kind (R66). -/
def InLine.Early (l : InLine) (level : Bool) (now : Time) : Prop := ∃ t, l.lastOf level = some t ∧ (now - t).toNat < l.holdoff

/-- The line at its new level. -/
def InLine.moved (l : InLine) (level : Bool) (now : Time) : InLine := { l with level, since := now }

/-- The line once its edge has produced events. -/
def InLine.produced (l : InLine) (level : Bool) (now : Time) : InLine :=
  if level then { l.moved level now with lastRise := some now } else { l.moved level now with lastFall := some now }

/-- The state with one line replaced. -/
def State.putLine (s : State) (n : Fin 4) (v : InLine) : State := s.onRouter fun r => { r with lines := r.lines.set n v }

section
variable {s : State} {n : Fin 4} {level : Bool}

theorem State.lineEdge_same (same : (s.router.lines.get n).level = level) : s.lineEdge n level = s := if_pos same

theorem State.lineEdge_disabled (edge : (s.router.lines.get n).level ≠ level)
    (disabled : (s.router.lines.get n).enables level = false) :
    s.lineEdge n level = s.putLine n ((s.router.lines.get n).moved level s.time) :=
  (if_neg edge).trans (if_pos (congrArg Bool.not disabled))

theorem State.lineEdge_early (edge : (s.router.lines.get n).level ≠ level)
    (enabled : (s.router.lines.get n).enables level = true) (early : (s.router.lines.get n).Early level s.time) :
    s.lineEdge n level = s.putLine n
      { (s.router.lines.get n).moved level s.time with suppressed := (s.router.lines.get n).suppressed + 1 } := by
  obtain ⟨t, last, inside⟩ := early
  unfold InLine.lastOf at last
  refine (if_neg edge).trans ((if_neg (ne_of_eq_of_ne (congrArg Bool.not enabled) Bool.false_ne_true)).trans (if_pos ?_))
  simp only [last]
  exact decide_eq_true inside

theorem State.lineEdge_produces (edge : (s.router.lines.get n).level ≠ level)
    (enabled : (s.router.lines.get n).enables level = true) (late : ¬(s.router.lines.get n).Early level s.time) :
    s.lineEdge n level = emit (edgeEvent (eitherNumber n) level s.time) (emit (edgeEvent (kindNumber n level) level s.time)
      (s.putLine n ((s.router.lines.get n).produced level s.time))) := by
  rw [eitherNumber_eq, kindNumber_eq]
  refine (if_neg edge).trans ((if_neg (ne_of_eq_of_ne (congrArg Bool.not enabled) Bool.false_ne_true)).trans (if_neg ?_))
  unfold InLine.Early InLine.lastOf at late
  split
  case h_1 => exact Bool.false_ne_true
  case h_2 t last => exact fun inside => late ⟨t, last, of_decide_eq_true inside⟩

/-- An edge that produces events leaves its line so, and a record that begins with its kind's event and holds the either-event. -/
theorem State.lineEdge_rest (edge : (s.router.lines.get n).level ≠ level)
    (enabled : (s.router.lines.get n).enables level = true) (late : ¬(s.router.lines.get n).Early level s.time)
    (fresh : s.events = []) : let t := (s.lineEdge n level).rest
      t.router.lines = s.router.lines.set n ((s.router.lines.get n).produced level s.time)
        ∧ [edgeEvent (kindNumber n level) level s.time] <+: t.events ∧ edgeEvent (eitherNumber n) level s.time ∈ t.events := by
  rw [State.lineEdge_produces edge enabled late]
  generalize hk : edgeEvent (kindNumber n level) level s.time = kind
  generalize he : edgeEvent (eitherNumber n) level s.time = either
  generalize hu : s.putLine n ((s.router.lines.get n).produced level s.time) = u
  have lines : u.router.lines = s.router.lines.set n ((s.router.lines.get n).produced level s.time) := hu ▸ rfl
  have unrecorded : u.events = [] := hu ▸ fresh
  have first := emit_records_below kind (hk ▸ kindNumber_below n level) u
  have second := (emit_records_below either (he ▸ eitherNumber_below n) (emit kind u)).trans (State.kept_rest _).events
  rw [unrecorded] at first
  exact ⟨(((Kept.refl u).emit keeps_emit kind).emit keeps_emit either).rest.lines.trans lines,
    (first.trans (List.prefix_append _ _)).trans second, second.subset (List.mem_append_right _ (List.mem_singleton_self _))⟩

end

/-! ## INPUT_LINE_EDGE -/

theorem exec_inputLineEdge (a : Ambient) {s t : State} {n : Fin 4} {level : Bool} (hs : s.supply.held = false)
    (edge : (s.arrive a).lineEdge n level = t) : exec (.inputLineEdge a n level) s = .next t.rest :=
  edge ▸ if_neg (Bool.eq_false_iff.mp hs)

/-! ## TIMER_EXPIRY (R69) -/

/-- The event of a timer's expiry. -/
def timerEvent (n : Fin 4) (t : Time) : Event := { number := BitVec.ofNat 16 (0x200 + n.val), time := t, arg := .num n.val }

theorem timerNumber_below (n : Fin 4) : (BitVec.ofNat 16 (0x200 + n.val)).toNat < 0x0300 := by
  revert n
  decide

theorem timerNumber_eq (n : Fin 4) : BitVec.ofNat 16 (0x200 + n.val) = 0x0200 + BitVec.ofNat 16 n.val := by
  revert n
  decide

/-- The timer once it has expired. -/
def TimerSt.expired (t : TimerSt) (e : Time) : TimerSt :=
  { t with next := if t.periodic then some (e + BitVec.ofNat 48 t.period) else none }

section
variable (n : Fin 4) (e : Time) (s : State)

theorem State.timerExpires_eq : s.timerExpires n e = let t := emit (timerEvent n e) s
    { t with router := { t.router with timers := s.router.timers.set n ((s.router.timers.get n).expired e) } } := by
  have timers : (emit (timerEvent n e) s).router.timers = s.router.timers := (keeps_emit _ s).timers
  unfold State.timerExpires
  rw [← timerNumber_eq]
  change { emit (timerEvent n e) s with router := { (emit (timerEvent n e) s).router with
    timers := (emit (timerEvent n e) s).router.timers.set n { (emit (timerEvent n e) s).router.timers.get n with
      next := if (s.router.timers.get n).periodic then some (timeAfter e (s.router.timers.get n).period) else none } } } = _
  rw [timers]
  rfl

theorem State.timerExpires_rest_timers :
    (s.timerExpires n e).rest.router.timers = s.router.timers.set n ((s.router.timers.get n).expired e) := by
  rw [(State.kept_rest _).timers, State.timerExpires_eq]

theorem State.timerExpires_rest_records : s.events ++ [timerEvent n e] <+: (s.timerExpires n e).rest.events := by
  refine .trans ?_ (State.kept_rest _).events
  rw [State.timerExpires_eq]
  exact emit_records_below (timerEvent n e) (timerNumber_below n) s

end

section
variable (a : Ambient) {s : State} {n : Fin 4} (hs : s.supply.held = false)
include hs

theorem exec_timerExpiry_stopped (stopped : (s.router.timers.get n).next = none) :
    exec (.timerExpiry a n) s = .next (s.arrive a) := by
  refine (perform_free hs : execTimerExpiry a n s = _).trans (congrArg Host.Outcome.next ?_)
  simp only [State.arrive_router, stopped]

theorem exec_timerExpiry_early {e : Time} (runs : (s.router.timers.get n).next = some e)
    (early : timeReached (s.arrive a).time e = false) : exec (.timerExpiry a n) s = .next (s.arrive a) := by
  refine (perform_free hs : execTimerExpiry a n s = _).trans (congrArg Host.Outcome.next ?_)
  simp only [State.arrive_router, runs]
  exact if_neg (Bool.eq_false_iff.mp early)

theorem exec_timerExpiry_due {e : Time} (runs : (s.router.timers.get n).next = some e)
    (due : timeReached (s.arrive a).time e = true) :
    exec (.timerExpiry a n) s = .next ((s.arrive a).timerExpires n e).rest := by
  refine (perform_free hs : execTimerExpiry a n s = _).trans (congrArg Host.Outcome.next ?_)
  simp only [State.arrive_router, runs]
  exact if_pos due

end

end Sys2Proof.Machine
end

section
/-! SUPPORT. The host pause: the charger's pause tests by its state, and its work taken into the state with one event or none. -/

namespace Sys2Proof.Machine

/-! ## The pause tests (R164) -/

theorem Charger.pauseCondition_host {c : Charger} (h : c.hostPause = true) (path : PathMode) :
    c.pauseCondition path = some .host := if_pos h

theorem Charger.enter_paused (c : Charger) (r : PauseReason) :
    c.enter (.paused r) = { c with state := .paused r, driven := 0, term := if c.state = .taper then 0 else c.term } := by
  simp [Charger.enter, ChState.charging]

section
variable {w : Work} {path : PathMode} {r : PauseReason}

theorem Work.pauseTests_charging (charging : w.c.state.charging = true) (cond : w.c.pauseCondition path = some r) :
    w.pauseTests path = (w.on fun c => c.enter (.paused r)).emit 0x0503 r.code := by
  unfold Work.pauseTests
  cases state : w.c.state with
  | precharge | fast | taper => simp only [cond]
  | _ => simp [state, ChState.charging] at charging

theorem Work.pauseTests_stays (paused : w.c.state = .paused r) (cond : w.c.pauseCondition path = some r) :
    w.pauseTests path = w := by
  unfold Work.pauseTests
  simp only [paused, cond, if_true]

theorem Work.pauseTests_moves {old : PauseReason} (paused : w.c.state = .paused old) (other : r ≠ old)
    (cond : w.c.pauseCondition path = some r) :
    w.pauseTests path = (w.on fun c => c.enter (.paused r)).emit 0x0503 r.code := by
  unfold Work.pauseTests
  simp only [paused, cond, if_neg other]

theorem Work.pauseTests_elsewhere (still : w.c.state.charging = false) (unpaused : ∀ r, w.c.state ≠ .paused r) :
    w.pauseTests path = w := by
  unfold Work.pauseTests
  cases state : w.c.state with
  | precharge | fast | taper => simp [state, ChState.charging] at still
  | paused r => exact absurd state (unpaused r)
  | _ => rfl

end

/-! ## What a change of state shows (R164) -/

theorem ChState.shows_self (st : ChState) : st.shows st = false := by simp [ChState.shows]

theorem ChState.paused_shows_charging {st : ChState} (charging : st.charging = true) (r : PauseReason) :
    (ChState.paused r).shows st = true := by
  cases st with
  | precharge | fast | taper => rfl
  | _ => cases charging

theorem ChState.pausedHost_shows_paused {r : PauseReason} (other : r ≠ .host) :
    (ChState.paused .host).shows (.paused r) = true := by
  cases r with
  | host => exact absurd rfl other
  | _ => rfl

/-! ## The charger's work in the state -/

section
variable (emit : Emit) {s : State} {f : Work → Work} {c : Charger}

theorem State.runCharger_untold (work : f s.charger.work = c.work) (unshown : c.state.shows s.charger.state = false) :
    s.runCharger emit f = { s with charger := c } := by
  unfold State.runCharger
  rw [work]
  simp only [Charger.work, unshown]
  rfl

theorem State.runCharger_told {n : BitVec 16} {arg : Int} (work : f s.charger.work = c.work.emit n arg)
    (shown : c.state.shows s.charger.state = true) : s.runCharger emit f =
      State.raise emit n arg { s with charger := c, xchg := { s.xchg with refreshAsked := true } } := by
  unfold State.runCharger
  rw [work]
  simp only [Work.emit, Charger.work, shown]
  rfl

end

/-! ## The sinks PAUSE and RESUME (R164, R177) -/

/-- The charger with the host pause flag set or cleared. -/
def Charger.withHostPause (c : Charger) (on : Bool) : Charger := { c with hostPause := on }

section
variable (emit : Emit) {s : State}

theorem State.hostPause_same {on : Bool} (same : s.charger.hostPause = on) : s.hostPause emit on = s := if_pos same

theorem State.hostPause_changed {on : Bool} (changed : s.charger.hostPause = !on) : s.hostPause emit on =
    s.runCharger emit fun w => (w.on fun c => c.withHostPause on).pauseTests s.supply.mode :=
  if_neg (by simp [changed])

theorem State.hostPause_elsewhere {on : Bool} (changed : s.charger.hostPause = !on) (still : s.charger.state.charging = false)
    (unpaused : ∀ r, s.charger.state ≠ .paused r) : s.hostPause emit on = { s with charger := s.charger.withHostPause on } := by
  rw [State.hostPause_changed emit changed]
  exact State.runCharger_untold emit
    (Work.pauseTests_elsewhere (w := (s.charger.withHostPause on).work) still unpaused) (ChState.shows_self _)

theorem State.hostPause_stays (clear : s.charger.hostPause = false) (paused : s.charger.state = .paused .host) :
    s.hostPause emit true = { s with charger := s.charger.withHostPause true } := by
  rw [State.hostPause_changed (on := true) emit clear]
  exact State.runCharger_untold emit (Work.pauseTests_stays (w := (s.charger.withHostPause true).work) paused
    (Charger.pauseCondition_host rfl _)) (ChState.shows_self _)

theorem State.hostPause_charging (clear : s.charger.hostPause = false) (charging : s.charger.state.charging = true) :
    s.hostPause emit true = State.raise emit 0x0503 0 { s with
      charger := (s.charger.withHostPause true).enter (.paused .host), xchg := { s.xchg with refreshAsked := true } } := by
  rw [State.hostPause_changed (on := true) emit clear]
  exact State.runCharger_told emit (Work.pauseTests_charging (w := (s.charger.withHostPause true).work) charging
    (Charger.pauseCondition_host rfl _)) (ChState.paused_shows_charging charging _)

theorem State.hostPause_moves {r : PauseReason} (clear : s.charger.hostPause = false) (paused : s.charger.state = .paused r)
    (other : r ≠ .host) : s.hostPause emit true = State.raise emit 0x0503 0 { s with
      charger := (s.charger.withHostPause true).enter (.paused .host), xchg := { s.xchg with refreshAsked := true } } := by
  rw [State.hostPause_changed (on := true) emit clear]
  refine State.runCharger_told emit (Work.pauseTests_moves (w := (s.charger.withHostPause true).work) paused other.symm
    (Charger.pauseCondition_host rfl _)) ?_
  rw [paused]
  exact ChState.pausedHost_shows_paused other

end

/-! ## The statement -/

/-- Settles O33: an edge by its four cases and a timer by its three; delivery by the wake's place and the event's silence; the sinks'
actions, those of the host pause by the charger's state. -/
theorem lineEdgeAndTimerExpiry : Obligations.LineEdgeAndTimerExpiry := by
  unfold Obligations.LineEdgeAndTimerExpiry
  refine ⟨fun a s n hs => ⟨fun level => ?edge, exec_timerExpiry_stopped a hs,
      fun e runs => ⟨exec_timerExpiry_early a hs runs, fun due => ?due⟩⟩,
    fun r n => ⟨r.listening_nodup n, r.mem_listening n⟩,
    fun s e => ⟨arrange_perm _ _ (s.router.routes.listening_nodup _), fun n => ?delivery⟩, fun s e => rfl, rfl,
    fun f e s => ⟨rfl, rfl, rfl, rfl, rfl, rfl, fun n => ⟨rfl, rfl⟩, State.hostPause_same f, State.hostPause_same f,
      fun clear => ?pause, fun set => ⟨fun unpaused still => ?resumeElsewhere, ?resume⟩⟩⟩
  case edge =>
    refine ⟨fun same => exec_inputLineEdge a hs (State.lineEdge_same (s := s.arrive a) same),
      fun edge disabled => exec_inputLineEdge a hs (State.lineEdge_disabled (s := s.arrive a) edge disabled),
      fun edge enabled early => exec_inputLineEdge a hs (State.lineEdge_early (s := s.arrive a) edge enabled early),
      fun edge enabled late => ⟨exec_inputLineEdge a hs (State.lineEdge_produces (s := s.arrive a) edge enabled late),
        _, exec_inputLineEdge a hs rfl, State.lineEdge_rest (s := s.arrive a) edge enabled late rfl⟩⟩
  case due =>
    exact ⟨_, exec_timerExpiry_due a hs runs due, (s.arrive a).timerExpires_rest_records n e,
      (s.arrive a).timerExpires_rest_timers n e⟩
  case delivery =>
    have heard (spoken : ¬(s.supply.power = .sleep ∧ 0x0300 ≤ e.number.toNat)) : s.silent e.number = false :=
      Bool.eq_false_iff.mpr (mt (s.silent_iff _).mp spoken)
    exact ⟨fun _ silent => emitFor_silent n e ((s.silent_iff _).mpr silent),
      fun after spoken => emitFor_wakesAfter n e after (heard spoken),
      fun _ silent => emitFor_silent n e ((s.silent_iff _).mpr silent),
      fun first spoken => emitFor_wakesFirst n e first (heard spoken)⟩
  case pause =>
    refine ⟨fun charging => ?charging, State.hostPause_stays f clear, fun r paused other => ?moves,
      State.hostPause_elsewhere (on := true) f clear⟩
    case charging =>
      refine (State.hostPause_charging f clear charging).trans ?_
      rw [Charger.enter_paused]
      rfl
    case moves =>
      refine (State.hostPause_moves f clear paused other).trans ?_
      have untapered : (s.charger.withHostPause true).state ≠ .taper := ne_of_eq_of_ne paused nofun
      rw [Charger.enter_paused, if_neg untapered]
      rfl
  case resumeElsewhere =>
    exact State.hostPause_elsewhere (on := false) f set still unpaused
  case resume => exact State.hostPause_changed (on := false) f set

end Sys2Proof.Machine
end

section
/-! SUPPORT. Which commands can change the register window's ANCHOR registers and mask, the charger's settings, measurement and
schedules, and the supply manager's class, power state and switches. -/

namespace Sys2Proof.Machine

/-- What is guarded across a command: the queue, the register window, and the parts of the charger and of the supply manager that
commands set. -/
inductive Guarded where
  | queue
  | anchor
  | mask
  | profile
  | measured
  | inputLimit
  | evaluation
  | loadClass
  | power
  | switches

/-- The path mode, the two switches, the input's presence and the count of failures (R180). -/
def Supply.switching (u : Supply) : PathMode × Bool × Bool × Bool × Word := (u.mode, u.inSw, u.batSw, u.present, u.switchFails)

/-- A guarded part is the same in two states. -/
def Guarded.Same (s t : State) : Guarded → Prop
  | .queue => t.pending = s.pending
  | .anchor => (t.xchg.anchorLow, t.xchg.anchorHigh) = (s.xchg.anchorLow, s.xchg.anchorHigh)
  | .mask => t.xchg.mask = s.xchg.mask
  | .profile => t.charger.profile = s.charger.profile
  | .measured => (t.charger.meas, t.charger.nextMeasure) = (s.charger.meas, s.charger.nextMeasure)
  | .inputLimit => (t.charger.iinLimit, t.charger.limitGiven) = (s.charger.iinLimit, s.charger.limitGiven)
  | .evaluation => t.charger.nextEval = s.charger.nextEval
  | .loadClass => t.supply.loadClass = s.supply.loadClass
  | .power => t.supply.power = s.supply.power
  | .switches => t.supply.switching = s.supply.switching

/-- The commands whose rules let them set a guarded part; the resets of the whole part set every one but the queue. -/
def maySet (i : Instr) (g : Guarded) : Bool :=
  match g with
  | .queue => false
  | .anchor =>
    match i with
    | .powerOnReset .. | .brownoutReset _ | .registerWrite .. => true
    | _ => false
  | .mask =>
    match i with
    | .powerOnReset .. | .brownoutReset _ | .registerWrite .. | .causeMaskWrite .. | .linkReset .. | .linkDown _
    | .powerState _ => true
    | _ => false
  | .profile =>
    match i with
    | .powerOnReset .. | .brownoutReset _ | .chargeSetup _ => true
    | _ => false
  | .measured =>
    match i with
    | .powerOnReset .. | .brownoutReset _ | .measurement .. => true
    | _ => false
  | .inputLimit =>
    match i with
    | .powerOnReset .. | .brownoutReset _ | .inputLimit _ | .measurement .. => true
    | _ => false
  | .evaluation =>
    match i with
    | .powerOnReset .. | .brownoutReset _ | .periodicEvaluation _ => true
    | _ => false
  | .loadClass =>
    match i with
    | .powerOnReset .. | .brownoutReset _ | .loadClass _ => true
    | _ => false
  | .power =>
    match i with
    | .powerOnReset .. | .brownoutReset _ | .start _ | .linkReset .. | .registerWrite .. | .powerState _ => true
    | _ => false
  | .switches =>
    match i with
    | .powerOnReset .. | .brownoutReset _ | .pathSet _ | .switchConfirm .. | .switchConfirmTimeout _ | .vinCollapse _
    | .measurement .. => true
    | _ => false

theorem Guarded.Same.trans {s t u : State} {g : Guarded} (h : g.Same s t) (k : g.Same t u) : g.Same s u := by
  cases g <;> exact Eq.trans k h

/-- Events and block work leave every guarded part. -/
theorem Kept.guards {s t : State} (h : Kept s t) (g : Guarded) : g.Same s t := by
  cases g with
  | queue => exact h.pending
  | anchor => exact congrArg₂ _ h.xchg.anchorLow h.xchg.anchorHigh
  | mask => exact h.xchg.mask
  | profile => exact h.charger.profile
  | measured => exact congrArg₂ _ h.charger.meas h.charger.nextMeasure
  | inputLimit => exact congrArg₂ _ h.charger.iinLimit h.charger.limitGiven
  | evaluation => exact h.charger.nextEval
  | loadClass => exact h.supply.loadClass
  | power => exact h.supply.power
  | switches => simp only [Guarded.Same, Supply.switching, h.supply.mode, h.supply.inSw, h.supply.batSw, h.supply.present,
      h.supply.switchFails]

/-- Part time that passes moves the safety timers alone (R173). -/
theorem Charger.pass_timers (c : Charger) (us : Nat) : ∃ pre fast, c.pass us = { c with prechargeUs := pre, fastUs := fast } := by
  unfold Charger.pass
  split
  · exact ⟨_, _, rfl⟩
  · exact ⟨_, _, rfl⟩
  · exact ⟨_, _, rfl⟩
  · exact ⟨_, _, rfl⟩

/-- An arrival leaves every guarded part. -/
theorem State.arrive_guards (s : State) (a : Ambient) (g : Guarded) : g.Same s (s.arrive a) := by
  obtain ⟨pre, fast, passed⟩ := s.charger.pass_timers a.elapsed
  cases g with
  | profile | measured | inputLimit | evaluation => simp only [Guarded.Same, State.arrive_charger, passed]
  | queue | anchor | mask | loadClass | power | switches => rfl

/-- Two states with the same guarded part of the register window, charger and supply manager. -/
theorem Guarded.same_of_blocks {s t : State} (pending : t.pending = s.pending := by rfl)
    (low : t.xchg.anchorLow = s.xchg.anchorLow := by rfl) (high : t.xchg.anchorHigh = s.xchg.anchorHigh := by rfl)
    (mask : t.xchg.mask = s.xchg.mask := by rfl) (charger : t.charger = s.charger := by rfl)
    (supply : t.supply = s.supply := by rfl) (g : Guarded) : g.Same s t := by
  cases g with
  | queue => exact pending
  | anchor => exact congrArg₂ _ low high
  | mask => exact mask
  | profile | measured | inputLimit | evaluation => simp only [Guarded.Same, charger]
  | loadClass | power | switches => simp only [Guarded.Same, supply]

/-- The command leaves every guarded part that it may not set. -/
def State.Guards (s : State) (i : Instr) : Prop := ∀ t, exec i s = .next t → ∀ g, maySet i g = false → g.Same s t

section
variable {i : Instr} {s t u : State} {a : Ambient}

/-- A command whose own changes, after its arrival, make one state, from which the part is kept. -/
theorem State.Guards.of_kept (answer : exec i s = .next t) (kept : Kept u t)
    (own : ∀ g, maySet i g = false → g.Same (s.arrive a) u) : s.Guards i := by
  intro v answered g spared
  cases answer.symm.trans answered
  exact ((s.arrive_guards a g).trans (own g spared)).trans (kept.guards g)

/-- A command whose own changes reach no guarded part. -/
theorem State.Guards.of_elsewhere (a : Ambient) (answer : exec i s = .next t) (kept : Kept u t)
    (pending : u.pending = (s.arrive a).pending := by rfl) (low : u.xchg.anchorLow = (s.arrive a).xchg.anchorLow := by rfl)
    (high : u.xchg.anchorHigh = (s.arrive a).xchg.anchorHigh := by rfl) (mask : u.xchg.mask = (s.arrive a).xchg.mask := by rfl)
    (charger : u.charger = (s.arrive a).charger := by rfl) (supply : u.supply = (s.arrive a).supply := by rfl) : s.Guards i :=
  .of_kept answer kept fun g _ => Guarded.same_of_blocks pending low high mask charger supply g

/-- A command that leaves the part after its arrival. -/
theorem LeavesPart.guards {meaning : State → Host.Outcome State Fault Refusal} (h : LeavesPart a meaning)
    (hs : s.supply.held = false) (arm : exec i s = meaning s := by rfl) : s.Guards i := by
  obtain ⟨t, answer, kept⟩ := h s hs
  exact .of_elsewhere a (arm.trans answer) kept

/-- What a change of switches and filters leaves: every guarded part but the switches. -/
theorem Moved.guards (h : Moved u t) (g : Guarded) (fixed : g ≠ .switches) : g.Same u t := by
  obtain ⟨v, kept⟩ := h.rest
  cases g with
  | switches => exact absurd rfl fixed
  | loadClass => exact h.supply.loadClass
  | power => exact h.supply.power
  | queue => exact kept.guards .queue
  | anchor => exact kept.guards .anchor
  | mask => exact kept.guards .mask
  | profile => exact kept.guards .profile
  | measured => exact kept.guards .measured
  | inputLimit => exact kept.guards .inputLimit
  | evaluation => exact kept.guards .evaluation

/-- A command that leaves the part but for the supply manager's switches, filters and conditions. -/
theorem State.Guards.of_moved (answer : exec i s = .next t) (moved : Moved u t) (may : maySet i .switches = true)
    (own : ∀ g, maySet i g = false → g.Same (s.arrive a) u) : s.Guards i := by
  intro v answered g spared
  cases answer.symm.trans answered
  refine ((s.arrive_guards a g).trans (own g spared)).trans (moved.guards g ?_)
  rintro rfl
  exact nomatch may.symm.trans spared

end

/-! ## The resets and the register window -/

/-- The guarded parts that a link reset with the return to ACTIVE can set: the mask and the power state (R82, R191). -/
theorem State.linkResetByHost_guards (s : State) (g : Guarded) (fixed : g ≠ .mask) : g.Same s s.linkResetByHost := by
  unfold State.linkResetByHost
  split
  · exact Guarded.same_of_blocks (g := g)
  · cases g with
    | mask => exact absurd rfl fixed
    | _ => rfl

theorem State.start_guards (s : State) (g : Guarded) (fixed : g ≠ .power) : g.Same s s.start := by
  obtain ⟨_, _, _, _, kept, -⟩ := s.start_leaves
  refine Guarded.Same.trans ?_ (kept.guards g)
  cases g with
  | power => exact absurd rfl fixed
  | _ => rfl

theorem State.controlWrite_guards (value : Word) (s : State) (g : Guarded) (mask : g ≠ .mask) (power : g ≠ .power) :
    g.Same s (s.controlWrite value) := by
  unfold State.controlWrite
  extract_lets t
  have reset : g.Same s t := by
    unfold t
    split
    · exact s.linkResetByHost_guards g mask
    · exact Guarded.same_of_blocks (g := g)
  split
  · exact (reset.trans (t.start_guards g power)).trans (t.start.kept_rest.guards g)
  · exact reset

theorem State.guards_linkDown (a : Ambient) (s : State) (hs : s.supply.held = false) : s.Guards (.linkDown a) := by
  refine .of_kept (a := a) (perform_free hs : execLinkDown a s = _) (.refl _) fun g spared => ?_
  have fixed : g ≠ .mask := fun e => nomatch (e ▸ spared : maySet (.linkDown a) .mask = false)
  dsimp only
  split
  · exact Guarded.Same.trans (Guarded.same_of_blocks (g := g)) (State.linkResetByHost_guards _ g fixed)
  · exact Guarded.same_of_blocks (g := g)

theorem State.guards_linkReset (a : Ambient) (alsoStart : Bool) (s : State) (hs : s.supply.held = false) :
    s.Guards (.linkReset a alsoStart) := by
  refine .of_kept (a := a) (perform_free hs : execLinkReset a alsoStart s = _) (.refl _) fun g spared => ?_
  have mask : g ≠ .mask := fun e => nomatch (e ▸ spared : maySet (.linkReset a alsoStart) .mask = false)
  have power : g ≠ .power := fun e => nomatch (e ▸ spared : maySet (.linkReset a alsoStart) .power = false)
  have reset : g.Same (s.arrive a) (s.arrive a).linkSeen.linkResetByHost :=
    Guarded.Same.trans (Guarded.same_of_blocks (g := g)) (State.linkResetByHost_guards _ g mask)
  dsimp only
  split
  · exact (reset.trans (State.start_guards _ g power)).trans ((State.kept_rest _).guards g)
  · exact reset

theorem State.guards_registerWrite (a : Ambient) (offset width : Nat) (value : Word) (s : State) (hs : s.supply.held = false) :
    s.Guards (.registerWrite a offset width value) := by
  refine .of_kept (a := a) (perform_free hs : execRegisterWrite a offset width value s = _) (.refl _) fun g spared => ?_
  have anchor : g ≠ .anchor := fun e => nomatch (e ▸ spared : maySet (.registerWrite a offset width value) .anchor = false)
  have mask : g ≠ .mask := fun e => nomatch (e ▸ spared : maySet (.registerWrite a offset width value) .mask = false)
  have power : g ≠ .power := fun e => nomatch (e ▸ spared : maySet (.registerWrite a offset width value) .power = false)
  generalize s.arrive a = u
  have seen : g.Same u u.linkSeen := Guarded.same_of_blocks (g := g)
  have register (f : Exchange → Exchange) : g.Same u (u.linkSeen.onXchg f) := by
    cases g with
    | anchor => exact absurd rfl anchor
    | mask => exact absurd rfl mask
    | _ => rfl
  dsimp only
  split
  · exact seen
  · split
    · exact register _
    · exact register _
    · exact seen.trans (State.controlWrite_guards value _ g mask power)
    · exact seen.trans ((Kept.refl _).poll.rest.guards g)
    · exact register _
    · exact register _
    · exact seen

theorem State.guards_powerState (a : Ambient) (s : State) (hs : s.supply.held = false) : s.Guards (.powerState a) := by
  obtain ⟨t, answer, kept | ⟨x, power, front, parked, kept, left, -⟩⟩ := execPowerState_leaves a s hs
  · exact .of_elsewhere a answer kept
  · refine .of_kept (a := a) answer kept fun g spared => ?_
    cases g with
    | anchor => exact congrArg₂ _ left.anchorLow left.anchorHigh
    | mask | power => cases spared
    | _ => rfl

theorem Charger.measure_profile (c : Charger) (m : Measurement) : (c.measure m).profile = c.profile := by
  unfold Charger.measure
  split <;> rfl

theorem Charger.measure_nextEval (c : Charger) (m : Measurement) : (c.measure m).nextEval = c.nextEval := by
  unfold Charger.measure
  split <;> rfl

theorem State.guards_measurement (a : Ambient) (values : Measurement) (s : State) (hs : s.supply.held = false) :
    s.Guards (.measurement a values) := by
  obtain ⟨t, answer, ⟨-, rfl⟩ | ⟨-, _, _, _, _, _, moved⟩⟩ := execMeasurement_leaves a values s hs
  · exact .of_elsewhere a answer (.refl _)
  · refine .of_moved (a := a) answer moved rfl fun g spared => ?_
    cases g with
    | measured | inputLimit | switches => cases spared
    | profile => exact Charger.measure_profile _ values
    | evaluation => exact Charger.measure_nextEval _ values
    | queue | anchor | mask | loadClass | power => rfl

/-- A command that sets the charger's profile, limit or schedule alone. -/
theorem State.Guards.of_charger {i : Instr} {s t : State} {a : Ambient} {c : Charger} (answer : exec i s = .next t)
    (kept : Kept { s.arrive a with charger := c } t)
    (meas : (c.meas, c.nextMeasure) = ((s.arrive a).charger.meas, (s.arrive a).charger.nextMeasure))
    (profile : maySet i .profile = false → c.profile = (s.arrive a).charger.profile)
    (limit : maySet i .inputLimit = false →
      (c.iinLimit, c.limitGiven) = ((s.arrive a).charger.iinLimit, (s.arrive a).charger.limitGiven))
    (evaluation : maySet i .evaluation = false → c.nextEval = (s.arrive a).charger.nextEval) : s.Guards i := by
  refine .of_kept (a := a) answer kept fun g spared => ?_
  cases g with
  | measured => exact meas
  | profile => exact profile spared
  | inputLimit => exact limit spared
  | evaluation => exact evaluation spared
  | queue | anchor | mask | loadClass | power | switches => rfl

theorem State.guards_causeMaskWrite (a : Ambient) (value : Word) (s : State) (hs : s.supply.held = false) :
    s.Guards (.causeMaskWrite a value) := by
  obtain ⟨t, answer, kept⟩ := execCauseMaskWrite_leaves a value s hs
  refine .of_kept (a := a) answer kept fun g spared => ?_
  cases g with
  | mask => cases spared
  | _ => rfl

theorem State.guards_loadClass (a : Ambient) (s : State) (hs : s.supply.held = false) : s.Guards (.loadClass a) := by
  obtain ⟨t, answer, _, kept⟩ := execLoadClass_leaves a s hs
  refine .of_kept (a := a) answer kept fun g spared => ?_
  cases g with
  | loadClass => cases spared
  | _ => rfl

theorem State.guards_start (a : Ambient) (s : State) (hs : s.supply.held = false) : s.Guards (.start a) := by
  obtain ⟨t, _, _, _, _, answer, kept, -⟩ := execStart_leaves a s hs
  refine .of_kept (a := a) answer kept fun g spared => ?_
  cases g with
  | power => cases spared
  | _ => rfl

/-! ## The resets of the whole part -/

theorem State.guards_powerOnReset (a : Ambient) (levels : BitVec 4) (s : State) : s.Guards (.powerOnReset a levels) := by
  intro t answered g spared
  cases answered
  cases g with
  | queue => rfl
  | _ => cases spared

theorem State.guards_brownoutReset (a : Ambient) (s : State) (hs : s.supply.held = false) : s.Guards (.brownoutReset a) := by
  intro t answered g spared
  cases ((perform_free hs : execBrownoutReset a s = _).symm.trans answered)
  cases g with
  | queue => rfl
  | _ => cases spared

/-! ## Every command -/

/-- Every command leaves the guarded parts that it may not set. -/
theorem State.guards (i : Instr) (s : State) (hs : s.supply.held = false) : s.Guards i := by
  cases i with
  | powerOnReset a levels => exact s.guards_powerOnReset a levels
  | brownoutReset a => exact s.guards_brownoutReset a hs
  | brownoutRelease a => exact .of_elsewhere a (if_neg (by simp [hs])) (.refl (s.arrive a))
  | linkDown a => exact s.guards_linkDown a hs
  | linkReset a alsoStart => exact s.guards_linkReset a alsoStart hs
  | start a => exact s.guards_start a hs
  | anchorReadComplete a =>
    obtain ⟨t, _, answer, kept, low, high, mask, -⟩ := execAnchorReadComplete_leaves a s hs
    exact .of_elsewhere a answer kept rfl low high mask
  | nudge a =>
    obtain ⟨t, answer, kept⟩ := execNudge_leaves a s hs
    exact .of_elsewhere a answer kept
  | causeWrite a value =>
    obtain ⟨t, answer, kept⟩ := execCauseWrite_leaves a value s hs
    exact .of_elsewhere a answer kept
  | causeMaskWrite a value => exact s.guards_causeMaskWrite a value hs
  | registerWrite a offset width value => exact s.guards_registerWrite a offset width value hs
  | scanTick a => exact (execScanTick_leaves a).guards hs
  | statusRefresh a =>
    obtain ⟨t, _, answer, kept⟩ := execStatusRefresh_leaves a s hs
    exact .of_elsewhere a answer kept
  | motionSetup a =>
    obtain ⟨t, _, _, answer, kept, -⟩ := execMotionSetup_leaves a s hs
    exact .of_elsewhere a answer kept
  | reference a => exact (execReference_leaves a).guards hs
  | exposure a =>
    obtain ⟨t, _, answer, kept⟩ := execExposure_leaves a s hs
    exact .of_elsewhere a answer kept
  | statusAck a => exact (execStatusAck_leaves a).guards hs
  | route a =>
    obtain ⟨t, answer, _, kept⟩ := execRoute_leaves a s hs
    exact .of_elsewhere a answer kept
  | lineSetup a =>
    obtain ⟨t, answer, _, kept⟩ := execLineSetup_leaves a s hs
    exact .of_elsewhere a answer kept
  | timerSetup a =>
    obtain ⟨t, answer, _, kept⟩ := execTimerSetup_leaves a s hs
    exact .of_elsewhere a answer kept
  | outputWrite a => exact (execOutputWrite_leaves a).guards hs
  | clipOpen a => exact (execClipOpen_leaves a).guards hs
  | clipClose a => exact (execClipClose_leaves a).guards hs
  | chunk a => exact (execChunk_leaves a).guards hs
  | cardAttach a => exact (execCardAttach_leaves a).guards hs
  | cardRead a => exact (execCardRead_leaves a).guards hs
  | cardWrite a => exact (execCardWrite_leaves a).guards hs
  | extentAdd a => exact (execExtentAdd_leaves a).guards hs
  | extentWithdraw a => exact (execExtentWithdraw_leaves a).guards hs
  | protect a => exact (execProtect_leaves a).guards hs
  | chargeSetup a =>
    obtain ⟨t, answer, _, _, _, kept⟩ := execChargeSetup_leaves a s hs
    exact .of_charger answer kept rfl (fun spared => nomatch spared) (fun _ => rfl) (fun _ => rfl)
  | inputLimit a =>
    obtain ⟨t, answer, _, _, _, kept⟩ := execInputLimit_leaves a s hs
    exact .of_charger answer kept rfl (fun _ => rfl) (fun spared => nomatch spared) (fun _ => rfl)
  | loadClass a => exact s.guards_loadClass a hs
  | pathSet a =>
    obtain ⟨t, answer, moved⟩ := execPathSet_leaves a s hs
    exact .of_moved answer moved rfl fun g _ => Guarded.same_of_blocks (g := g)
  | powerState a => exact s.guards_powerState a hs
  | resume a => exact (execResume_leaves a).guards hs
  | abandon a => exact (execAbandon_leaves a).guards hs
  | dataReadyEdge a =>
    obtain ⟨t, answer, _, kept, -⟩ := execDataReadyEdge_leaves a s hs
    exact .of_elsewhere a answer kept
  | sampleReadComplete a sample =>
    obtain ⟨t, answer, _, _, kept, -⟩ := execSampleReadComplete_leaves a sample s hs
    exact .of_elsewhere a answer kept
  | imuSettleEnd a =>
    obtain ⟨t, answer, _, kept, -⟩ := execImuSettleEnd_leaves a s hs
    exact .of_elsewhere a answer kept
  | lossDeadline a =>
    obtain ⟨t, answer, _, kept, -⟩ := execLossDeadline_leaves a s hs
    exact .of_elsewhere a answer kept
  | lostPowerOffEnd a =>
    obtain ⟨t, answer, _, kept, -⟩ := execLostPowerOffEnd_leaves a s hs
    exact .of_elsewhere a answer kept
  | runningOneSecond a =>
    obtain ⟨t, answer, _, kept, -⟩ := execRunningOneSecond_leaves a s hs
    exact .of_elsewhere a answer kept
  | inputLineEdge a line level =>
    obtain ⟨t, answer, _, kept⟩ := execInputLineEdge_leaves a line level s hs
    exact .of_elsewhere a answer kept
  | timerExpiry a timer =>
    obtain ⟨t, answer, _, kept⟩ := execTimerExpiry_leaves a timer s hs
    exact .of_elsewhere a answer kept
  | extrapolationDeadline a => exact (execExtrapolationDeadline_leaves a).guards hs
  | chunkCopyComplete a => exact (execChunkCopyComplete_leaves a).guards hs
  | chunkPieceReadError a good => exact (execChunkPieceReadError_leaves a good).guards hs
  | cardDetectChange a => exact (execCardDetectChange_leaves a).guards hs
  | attachComplete a capacity usable => exact (execAttachComplete_leaves a capacity usable).guards hs
  | attachTimeout a => exact (execAttachTimeout_leaves a).guards hs
  | cardProgramming a => exact (execCardProgramming_leaves a).guards hs
  | cardWriteAccepted a => exact (execCardWriteAccepted_leaves a).guards hs
  | cardWriteError a => exact (execCardWriteError_leaves a).guards hs
  | cardBusyTimeout a => exact (execCardBusyTimeout_leaves a).guards hs
  | rawBufferReadComplete a =>
    obtain ⟨t, answer, kept | ⟨_, kept⟩⟩ := execRawBufferReadComplete_leaves a s hs
    · exact .of_elsewhere a answer kept
    · exact .of_elsewhere a answer kept
  | rawReadComplete a ok data => exact (execRawReadComplete_leaves a ok data).guards hs
  | graceExpiry a => exact (execGraceExpiry_leaves a).guards hs
  | drainEnd a => exact (execDrainEnd_leaves a).guards hs
  | measurement a values => exact s.guards_measurement a values hs
  | periodicEvaluation a =>
    obtain ⟨t, answer, _, _, _, _, _, _, kept, -⟩ := execPeriodicEvaluation_leaves a s hs
    exact .of_charger answer kept rfl (fun _ => rfl) (fun _ => rfl) (fun spared => nomatch spared)
  | safetyTimerLimit a => exact (execSafetyTimerLimit_leaves a).guards hs
  | switchConfirm a switch =>
    obtain ⟨t, answer, moved⟩ := execSwitchConfirm_leaves a switch s hs
    exact .of_moved answer moved rfl fun g _ => Guarded.same_of_blocks (g := g)
  | switchConfirmTimeout a =>
    obtain ⟨t, answer, moved⟩ := execSwitchConfirmTimeout_leaves a s hs
    exact .of_moved answer moved rfl fun g _ => Guarded.same_of_blocks (g := g)
  | vinCollapse a =>
    obtain ⟨t, answer, moved⟩ := execVinCollapse_leaves a s hs
    exact .of_moved answer moved rfl fun g _ => Guarded.same_of_blocks (g := g)

/-- Settles O60: the guarded parts that each command leaves, read for the commands that the statement names. -/
theorem onlyTheirCommandsChangeSettingsAndSupply : Obligations.OnlyTheirCommandsChangeSettingsAndSupply := by
  unfold Obligations.OnlyTheirCommandsChangeSettingsAndSupply
  intro i s t hs answered full
  have named := s.guards i hs t answered
  refine ⟨named .queue rfl, fun partly other => Prod.ext_iff.mp (named .anchor ?anchor), fun partly other => named .mask ?mask,
    fun partly other => named .profile ?profile, fun partly other => Prod.ext_iff.mp (named .measured ?measured),
    fun partly other => Prod.ext_iff.mp (named .inputLimit ?limit), fun partly other => named .evaluation ?evaluation,
    fun partly other => named .loadClass ?loadClass, fun partly other => named .power ?power, fun partly other => ?switches⟩
  case switches =>
    have same : t.supply.switching = s.supply.switching := named .switches (by cases i <;> trivial)
    simpa only [Supply.switching, Prod.mk.injEq] using same
  case anchor => cases i <;> trivial
  case mask => cases i <;> trivial
  case profile => cases i <;> trivial
  case measured => cases i <;> trivial
  case limit => cases i <;> trivial
  case evaluation => cases i <;> trivial
  case loadClass => cases i <;> trivial
  case power => cases i <;> trivial

end Sys2Proof.Machine
end

section
/-! SUPPORT. The exchange engine's own operations said once: bytes laid into host memory, lanes, the anchor's fields, cause flags. -/

namespace Sys2Proof.Machine

/-! ## Several writes, oldest first -/

/-- Host memory after several writes of the part. -/
def memLaid (m : Mem) (ws : List (Nat × List Byte)) : Mem := ws.foldl (fun m w => memWrite m w.1 w.2) m

@[simp] theorem memLaid_nil (m : Mem) : memLaid m [] = m := rfl

theorem memLaid_append (m : Mem) (ws vs : List (Nat × List Byte)) : memLaid m (ws ++ vs) = memLaid (memLaid m ws) vs :=
  List.foldl_append

theorem memLaid_cons (m : Mem) (w : Nat × List Byte) (ws : List (Nat × List Byte)) :
    memLaid m (w :: ws) = memLaid (memWrite m w.1 w.2) ws := rfl

section
variable {m : Mem} {ws : List (Nat × List Byte)} (hm : memWf m = true)
include hm

theorem memWf_laid : memWf (memLaid m ws) = true := by
  induction ws generalizing m with
  | nil => exact hm
  | cons w ws ih => exact ih (memWf_write hm)

/-- A byte that none of the writes reaches. -/
theorem memByte_laid_other {b : Nat} (apart : ∀ w ∈ ws, b < w.1 ∨ w.1 + w.2.length ≤ b) :
    memByte (memLaid m ws) b = memByte m b := by
  induction ws generalizing m with
  | nil => rfl
  | cons w ws ih =>
    rw [memLaid_cons, ih (memWf_write hm) fun v mem => apart v (by simp [mem]), memByte_write_other hm (apart w (by simp))]

/-- Bytes that none of the writes reaches. -/
theorem memBytes_laid_other {a n : Nat} (apart : ∀ w ∈ ws, a + n ≤ w.1 ∨ w.1 + w.2.length ≤ a) :
    memBytes (memLaid m ws) a n = memBytes m a n :=
  memBytes_congr fun _ _ _ => memByte_laid_other hm fun w mem => by have := apart w mem; omega

/-- The bytes of one of the writes, which no later write reaches. -/
theorem memBytes_laid (i : Nat) {a : Nat} {l : List Byte} (laid : ws[i]? = some (a, l))
    (apart : ∀ w ∈ ws.drop (i + 1), a + l.length ≤ w.1 ∨ w.1 + w.2.length ≤ a) :
    memBytes (memLaid m ws) a l.length = l := by
  induction ws generalizing m i with
  | nil => simp at laid
  | cons w ws ih =>
    cases i with
    | zero =>
      obtain rfl : w = (a, l) := by simpa using laid
      have later : ∀ w ∈ ws, a + l.length ≤ w.1 ∨ w.1 + w.2.length ≤ a := apart
      rw [memLaid_cons, memBytes_laid_other (memWf_write hm) later, memBytes_write_same hm]
    | succ i => exact ih (memWf_write hm) i (by simpa using laid) (by simpa using apart)

/-- The number of one of the writes, which no later write reaches. -/
theorem memNat_laid (i : Nat) {a n x : Nat} (laid : ws[i]? = some (a, leBytes n x))
    (apart : ∀ w ∈ ws.drop (i + 1), a + n ≤ w.1 ∨ w.1 + w.2.length ≤ a) : memNat (memLaid m ws) a n = x % 256 ^ n := by
  have bytes := memBytes_laid hm i laid (by simpa only [leBytes_length] using apart)
  rw [leBytes_length] at bytes
  rw [memNat, bytes, leNat_leBytes]

end

theorem leBytes_take (n k x : Nat) (h : k ≤ n) : (leBytes n x).take k = leBytes k x := by
  induction k generalizing n x with
  | zero => simp [leBytes]
  | succ k ih =>
    obtain ⟨n, rfl⟩ : ∃ p, n = p + 1 := ⟨n - 1, by omega⟩
    simp [leBytes, ih n (x / 256) (by omega)]

/-- The low bytes of a number read alone. -/
theorem memNat_low {m : Mem} {a n k x : Nat} (h : k ≤ n) (bytes : memBytes m a n = leBytes n x) :
    memNat m a k = x % 256 ^ k := by
  have low : memBytes m a k = (memBytes m a n).take k := by rw [← memBytes_min, Nat.min_eq_left h]
  rw [memNat, low, bytes, leBytes_take n k x h, leNat_leBytes]

/-- The writes that show a state for each lane in its descriptor (section 5.2). -/
def laneBytes (base : Nat) (f : Lane → LaneState) : List (Nat × List Byte) :=
  allLanes.map fun l => (base + (descOffset l + 10), leBytes 1 (f l).code)

theorem LaneState.code_lt (v : LaneState) : v.code < 4 := by cases v <;> decide

section
variable {m : Mem} {ws : List (Nat × List Byte)} {base : Nat} {f : Lane → LaneState} (hm : memWf m = true)
include hm

/-- A lane state shown last is read back. -/
theorem memNat_laneBytes (l : Lane) : memNat (memLaid m (ws ++ laneBytes base f)) (base + descOffset l + 10) 1 = (f l).code := by
  have byte : (f l).code % 256 ^ 1 = (f l).code := Nat.mod_eq_of_lt (by have := (f l).code_lt; omega)
  rw [memLaid_append, Nat.add_assoc, ← byte]
  cases l with
  | control => exact memNat_laid (memWf_laid hm) 0 rfl (by simp [laneBytes, allLanes, leBytes_length, descOffset])
  | chunk => exact memNat_laid (memWf_laid hm) 1 rfl (by simp [laneBytes, allLanes, leBytes_length, descOffset])
  | recovery => exact memNat_laid (memWf_laid hm) 2 rfl (by simp [laneBytes, allLanes])

/-- Bytes outside the lane states. -/
theorem memBytes_laneBytes_other {a n : Nat}
    (apart : ∀ l, a + n ≤ base + descOffset l + 10 ∨ base + descOffset l + 10 < a) :
    memBytes (memLaid m (ws ++ laneBytes base f)) a n = memBytes (memLaid m ws) a n := by
  rw [memLaid_append]
  refine memBytes_laid_other (memWf_laid hm) ?_
  simp only [laneBytes, List.forall_mem_map, leBytes_length]
  intro l _
  have := apart l
  omega

theorem memByte_laneBytes_other {b : Nat} (apart : ∀ l, b ≠ base + descOffset l + 10) :
    memByte (memLaid m (ws ++ laneBytes base f)) b = memByte (memLaid m ws) b := by
  rw [memLaid_append]
  refine memByte_laid_other (memWf_laid hm) ?_
  simp only [laneBytes, List.forall_mem_map, leBytes_length]
  intro l _
  have := apart l
  omega

end

theorem memNat_one (m : Mem) (a : Nat) : memNat m a 1 = (memByte m a).toNat := by simp [memNat, memBytes, leNat]

/-! ## Lanes -/

section
variable (x : Exchange) (l : Lane) (v w : LaneSt)

@[simp] theorem Exchange.lane_setLane : (x.setLane l v).lane l = v := by cases l <;> rfl

@[simp] theorem Exchange.lane_setLane_of_ne {k : Lane} (h : k ≠ l) : (x.setLane l v).lane k = x.lane k := by
  cases l <;> cases k <;> trivial

@[simp] theorem Exchange.setLane_setLane : (x.setLane l v).setLane l w = x.setLane l w := by cases l <;> rfl
@[simp] theorem Exchange.setLane_lane : x.setLane l (x.lane l) = x := by cases l <;> rfl
@[simp] theorem Exchange.setLane_state : (x.setLane l v).state = x.state := by cases l <;> rfl
@[simp] theorem Exchange.setLane_anchor : (x.setLane l v).anchor = x.anchor := by cases l <;> rfl
@[simp] theorem Exchange.setLane_stack : (x.setLane l v).stack = x.stack := by cases l <;> rfl
@[simp] theorem Exchange.setLane_cause : (x.setLane l v).cause = x.cause := by cases l <;> rfl
@[simp] theorem Exchange.setLane_mask : (x.setLane l v).mask = x.mask := by cases l <;> rfl
@[simp] theorem Exchange.setLane_messages : (x.setLane l v).messages = x.messages := by cases l <;> rfl
@[simp] theorem Exchange.setLane_mem : (x.setLane l v).mem = x.mem := by cases l <;> rfl
@[simp] theorem Exchange.setLane_badReads : (x.setLane l v).badReads = x.badReads := by cases l <;> rfl
@[simp] theorem Exchange.setLane_recErrors : (x.setLane l v).recErrors = x.recErrors := by cases l <;> rfl
@[simp] theorem Exchange.setLane_holds (k : Lane) : (x.setLane l v).holds k = x.holds k := by cases l <;> rfl

end

/-! ## Bytes laid into host memory -/

/-- The engine with several writes made into host memory. -/
def Exchange.laid (x : Exchange) (ws : List (Nat × List Byte)) : Exchange := { x with mem := memLaid x.mem ws }

section
variable (x : Exchange) (ws : List (Nat × List Byte)) (l : Lane)

@[simp] theorem Exchange.laid_mem : (x.laid ws).mem = memLaid x.mem ws := rfl
@[simp] theorem Exchange.laid_lane : (x.laid ws).lane l = x.lane l := by cases l <;> rfl
@[simp] theorem Exchange.laid_hand : (x.laid ws).hand l = x.hand l := by cases l <;> rfl
@[simp] theorem Exchange.laid_state : (x.laid ws).state = x.state := rfl
@[simp] theorem Exchange.laid_anchor : (x.laid ws).anchor = x.anchor := rfl
@[simp] theorem Exchange.laid_stack : (x.laid ws).stack = x.stack := rfl
@[simp] theorem Exchange.laid_cause : (x.laid ws).cause = x.cause := rfl
@[simp] theorem Exchange.laid_mask : (x.laid ws).mask = x.mask := rfl
@[simp] theorem Exchange.laid_messages : (x.laid ws).messages = x.messages := rfl
@[simp] theorem Exchange.laid_badReads : (x.laid ws).badReads = x.badReads := rfl
@[simp] theorem Exchange.laid_nextScan : (x.laid ws).nextScan = x.nextScan := rfl
@[simp] theorem Exchange.laid_recErrors : (x.laid ws).recErrors = x.recErrors := rfl
@[simp] theorem Exchange.laid_refreshCount : (x.laid ws).refreshCount = x.refreshCount := rfl
@[simp] theorem Exchange.laid_writeCount : (x.laid ws).writeCount = x.writeCount := rfl
@[simp] theorem Exchange.laid_holds : (x.laid ws).holds l = x.holds l := rfl
@[simp] theorem Exchange.laid_depth : (x.laid ws).depth = x.depth := rfl
@[simp] theorem Exchange.laid_laneState : (x.laid ws).laneState l = x.laneState l := by cases l <;> rfl

@[simp] theorem Exchange.laid_laid (vs : List (Nat × List Byte)) : (x.laid ws).laid vs = x.laid (ws ++ vs) := by
  simp only [Exchange.laid, memLaid_append]

theorem Exchange.put_eq_laid (a : Nat) (b : List Byte) : x.put a b = x.laid [(a, b)] := rfl

@[simp] theorem Exchange.setLane_laid (v : LaneSt) : (x.laid ws).setLane l v = (x.setLane l v).laid ws := by cases l <;> rfl

variable {x} {c : AnchorCopy} (h : x.anchor = some c)
include h

theorem Exchange.putAnchor_eq_laid (o : Nat) (b : List Byte) : x.putAnchor o b = x.laid [(c.base + o, b)] := by
  rw [Exchange.putAnchor, h]
  rfl

theorem Exchange.putAnchor_laid (o : Nat) (b : List Byte) : (x.laid ws).putAnchor o b = x.laid (ws ++ [(c.base + o, b)]) :=
  (Exchange.putAnchor_eq_laid (x := x.laid ws) h o b).trans (x.laid_laid ws _)

theorem Exchange.showLane_laid :
    (x.laid ws).showLane l = x.laid (ws ++ [(c.base + (descOffset l + 10), leBytes 1 (x.laneState l).code)]) := by
  rw [Exchange.showLane, Exchange.putAnchor_laid ws h, Exchange.laid_laneState]

/-- The lane states shown in the three descriptors. -/
theorem Exchange.showLanes_laid : (x.laid ws).showLanes = x.laid (ws ++ laneBytes c.base x.laneState) := by
  rw [Exchange.showLanes, Exchange.showLane_laid ws .control h, Exchange.showLane_laid _ .chunk h,
    Exchange.showLane_laid _ .recovery h, List.append_assoc, List.append_assoc]
  rfl

theorem Exchange.showLanes_eq_laid : x.showLanes = x.laid (laneBytes c.base x.laneState) := Exchange.showLanes_laid [] h

end

/-- Every descriptor lies within the first 256 bytes of the anchor, behind its first 16. -/
theorem descOffset_range (l : Lane) : 16 ≤ descOffset l ∧ descOffset l + 32 ≤ 112 := by cases l <;> decide

/-! ## Cause flags asked for (R90, R91) -/

/-- A request changes the cause flags and the count of messages alone. -/
theorem Exchange.request_eq (x : Exchange) (f : BitVec 9) :
    x.request f = { x with cause := (x.request f).cause, messages := (x.request f).messages } := by
  unfold Exchange.request Exchange.message
  split
  · split <;> rfl
  · rfl

section
variable (x : Exchange) (f : BitVec 9)

@[simp] theorem Exchange.request_lane (l : Lane) : (x.request f).lane l = x.lane l := by
  rw [Exchange.request_eq]
  cases l <;> rfl

@[simp] theorem Exchange.request_stack : (x.request f).stack = x.stack := by rw [Exchange.request_eq]
@[simp] theorem Exchange.request_anchor : (x.request f).anchor = x.anchor := by rw [Exchange.request_eq]
@[simp] theorem Exchange.request_mask : (x.request f).mask = x.mask := by rw [Exchange.request_eq]
@[simp] theorem Exchange.request_nextScan : (x.request f).nextScan = x.nextScan := by rw [Exchange.request_eq]

theorem Exchange.request_laneState (l : Lane) : (x.request f).laneState l = x.laneState l := by
  rw [Exchange.request_eq]
  cases l <;> rfl

/-- A request on a RUNNING or STOPPED exchange sets its flags (R90). -/
theorem Exchange.request_cause_live (h : x.state.live = true) : (x.request f).cause = x.cause ||| f := by
  unfold Exchange.request
  rw [if_pos h]

/-- A request on a RUNNING or STOPPED exchange sends a message for a clear flag that the mask lets through (R91). -/
theorem Exchange.request_messages_live (h : x.state.live = true) : (x.request f).messages =
    if x.linkUp = true ∧ f &&& ~~~x.cause &&& x.mask ≠ 0 then x.messages + 1 else x.messages := by
  unfold Exchange.request Exchange.message
  rw [if_pos h]
  simp only [bne_iff_ne, Bool.and_eq_true, And.comm (a := x.linkUp = true)]
  split <;> rfl

theorem Exchange.request_dead (h : x.state.live = false) : x.request f = x := by
  unfold Exchange.request
  rw [if_neg (by simp [h])]

end

theorem XState.live_iff (v : XState) : v.live = true ↔ v = .running ∨ v = .stopped := by cases v <;> decide

theorem XState.live_running {v : XState} (h : v = .running) : v.live = true := by rw [h]; rfl

end Sys2Proof.Machine
end

section
/-! SUPPORT. The fault stack: pushes, stops and pops (R94, R95). -/

namespace Sys2Proof.Machine

theorem recEntryBytes_length (e : Option RecEntry) : (recEntryBytes e).length = 16 := by
  cases e <;> simp [recEntryBytes, zeroBytes, flagByte, leBytes_length]

/-- A record takes as many bytes as its format says (section 5.7). -/
theorem faultBytes_length (r : FaultRec) : (faultBytes r).length = r.size := by
  cases r <;> simp [faultBytes, FaultRec.size, leWord_length, leBytes_length, flagByte, zeroBytes, recEntryBytes_length]

/-- The engine with another internal copy of the fault stack. -/
def Exchange.stacked (x : Exchange) (stack : List FaultRec) : Exchange := { x with stack }

/-- The engine as a stop leaves it, before anything is shown (R95). -/
def Exchange.halted (x : Exchange) : Exchange := { x with state := .stopped, nextScan := none }

section
variable (x : Exchange) (stack : List FaultRec) (l : Lane)

@[simp] theorem Exchange.stacked_stack : (x.stacked stack).stack = stack := rfl
@[simp] theorem Exchange.stacked_state : (x.stacked stack).state = x.state := rfl
@[simp] theorem Exchange.stacked_cause : (x.stacked stack).cause = x.cause := rfl
@[simp] theorem Exchange.stacked_mem : (x.stacked stack).mem = x.mem := rfl
@[simp] theorem Exchange.stacked_anchor : (x.stacked stack).anchor = x.anchor := rfl
@[simp] theorem Exchange.stacked_lane : (x.stacked stack).lane l = x.lane l := by cases l <;> rfl
@[simp] theorem Exchange.halted_lane : x.halted.lane l = x.lane l := by cases l <;> rfl
@[simp] theorem Exchange.halted_laneState : x.halted.laneState l = .stopped := rfl

variable {x} {r : FaultRec} {c : AnchorCopy} (anchor : x.anchor = some c)
include anchor

/-! ## Pushes -/

theorem Exchange.push_off (off : x.state ≠ .running) : x.push r = x := by
  simp [Exchange.push, anchor, off]

/-- What a push that fits makes: the record and the depth laid, the lane states shown, FAULT asked for (R94). -/
theorem Exchange.push_fits (running : x.state = .running) (room : x.depth + r.size ≤ c.faultSize) :
    x.push r = ((x.stacked (r :: x.stack)).laid
      ([(c.faultTop - x.depth - r.size, faultBytes r), (c.base + 0xA4, leBytes 4 (r.size + x.depth))]
        ++ laneBytes c.base (x.stacked (r :: x.stack)).laneState)).request causeFault := by
  have fits : x.fits r = true := by simp [Exchange.fits, anchor, running, room]
  have pushed : x.push r = (((x.stacked (r :: x.stack)).laid [(c.faultTop - x.depth - r.size, faultBytes r)]).putAnchor 0xA4
      (leBytes 4 (r.size + x.depth))).showLanes.request causeFault := by
    unfold Exchange.push
    rw [anchor]
    exact (if_neg (not_not.mpr running)).trans (if_pos fits)
  have known : (x.stacked (r :: x.stack)).anchor = some c := anchor
  rw [pushed, Exchange.putAnchor_laid _ known, Exchange.showLanes_laid _ known]
  rfl

/-- What a push that does not fit makes: the exchange STOPPED, the lane states shown, STOPPED asked for (R95). -/
theorem Exchange.push_stops (running : x.state = .running) (full : c.faultSize < x.depth + r.size) :
    x.push r = (x.halted.laid (laneBytes c.base x.halted.laneState)).request causeStopped := by
  have misfit : x.fits r = false := by simp [Exchange.fits, anchor, running, full]
  have pushed : x.push r = x.halted.showLanes.request causeStopped := by
    unfold Exchange.push
    rw [anchor]
    exact (if_neg (not_not.mpr running)).trans (if_neg (by simp [misfit]))
  rw [pushed, Exchange.showLanes_eq_laid (x := x.halted) anchor]

/-- What a pop makes: the top record gone from the internal copy, the depth laid. -/
theorem Exchange.pop_eq_laid :
    x.pop = (x.stacked x.stack.tail).laid [(c.base + 0xA4, leBytes 4 (x.stacked x.stack.tail).depth)] :=
  Exchange.putAnchor_eq_laid (x := x.stacked x.stack.tail) anchor _ _

end

/-- The bytes that a push lays: the record whole, the depth, the lane states, nothing else (R94). -/
theorem memLaid_pushed {m : Mem} {r : FaultRec} {p base depth : Nat} {f : Lane → LaneState} (wf : memWf m = true)
    (apart : p + r.size ≤ base ∨ base + 256 ≤ p) :
    let y := memLaid m ([(p, faultBytes r), (base + 0xA4, leBytes 4 depth)] ++ laneBytes base f)
    memBytes y p r.size = faultBytes r ∧ memNat y (base + 0xA4) 4 = depth % 256 ^ 4
    ∧ (∀ l, memNat y (base + descOffset l + 10) 1 = (f l).code)
    ∧ ∀ b, ¬(p ≤ b ∧ b < p + r.size) → ¬(base + 0xA4 ≤ b ∧ b < base + 0xA8) → (∀ l, b ≠ base + descOffset l + 10) →
        memByte y b = memByte m b := by
  have size := faultBytes_length r
  refine ⟨?record, ?depth, memNat_laneBytes wf, fun b outRecord outDepth outLanes => ?other⟩
  case record =>
    rw [memBytes_laneBytes_other wf fun l => by have := descOffset_range l; omega, ← size]
    refine memBytes_laid wf 0 rfl ?_
    simp [leBytes_length, size]
    omega
  case depth =>
    rw [memNat, memBytes_laneBytes_other wf fun l => by have := descOffset_range l; omega]
    exact memNat_laid wf 1 rfl (by simp)
  case other =>
    rw [memByte_laneBytes_other wf outLanes]
    refine memByte_laid_other wf ?_
    simp only [List.forall_mem_cons, List.not_mem_nil, false_imp_iff, implies_true, and_true, leBytes_length, size]
    omega

/-- Settles O17: a push and a pop by what they lay into host memory, each field read where no later write reaches. -/
theorem faultStackPushesStopsAndPops : Obligations.FaultStackPushesStopsAndPops := by
  unfold Obligations.FaultStackPushesStopsAndPops
  intro x r c anchor
  refine ⟨Exchange.push_off anchor, fun running room inside wf apart => ?fits, fun running full wf => ?stops, fun wf => ?pops⟩
  case fits =>
    rw [Exchange.push_fits anchor running room]
    obtain ⟨record, depth, shown, other⟩ := memLaid_pushed (r := r) (p := c.faultTop - x.depth - r.size) (base := c.base)
      (depth := r.size + x.depth) (f := (x.stacked (r :: x.stack)).laneState) wf (by omega)
    refine ⟨by simp, by simp [Exchange.request_state, running], ?cause, ?record, ?depth, fun l => ?shown, ?other, by simp⟩
    case cause =>
      rw [Exchange.request_cause_live]
      · rfl
      · exact XState.live_running running
    case record => rw [Exchange.request_mem]; exact record
    case depth => rw [Exchange.request_mem, Nat.add_comm x.depth]; exact depth
    case shown => rw [Exchange.request_mem, Exchange.request_laneState, Exchange.laid_laneState]; exact shown l
    case other => rw [Exchange.request_mem]; exact other
  case stops =>
    rw [Exchange.push_stops anchor running full]
    refine ⟨by rw [Exchange.request_state]; rfl, by simp; rfl, ?cause, by simp; rfl, fun l => ?shown, fun b lanes => ?other, by simp⟩
    case cause =>
      rw [Exchange.request_cause_live]
      · rfl
      · rfl
    case shown => rw [Exchange.request_mem]; exact memNat_laneBytes (ws := []) wf l
    case other => rw [Exchange.request_mem]; exact memByte_laneBytes_other (ws := []) wf lanes
  case pops =>
    rw [Exchange.pop_eq_laid anchor]
    refine ⟨rfl, memNat_laid wf 0 rfl (by simp), fun b depth => memByte_laid_other wf ?other, by simp, rfl⟩
    simp only [List.forall_mem_cons, List.not_mem_nil, false_imp_iff, implies_true, and_true, leBytes_length]
    omega

end Sys2Proof.Machine
end

section
/-! SUPPORT. The entry into RUNNING: the engine's values and what is laid into the anchor (R81). -/

namespace Sys2Proof.Machine

/-- The writes that an entry into RUNNING makes: retire mark, taken count and lane state of each lane, write count and depth. -/
def entryWrites (base : Nat) : List (Nat × List Byte) :=
  (allLanes.flatMap fun l => [(base + (descOffset l + 16), leBytes 8 0), (base + (descOffset l + 12), leBytes 4 0),
    (base + (descOffset l + 10), leBytes 1 LaneState.idle.code)])
  ++ [(base + 0x90, leBytes 4 0), (base + 0xA4, leBytes 4 0)]

/-- Reading the counts changes their two copies alone (R89). -/
theorem Exchange.readCounts_eq (x : Exchange) :
    x.readCounts = { x with consumed := x.readCounts.consumed, readCopy := x.readCounts.readCopy } := by
  unfold Exchange.readCounts
  split
  · rfl
  · split <;> rfl

@[simp] theorem Exchange.readCounts_lane (x : Exchange) (l : Lane) : x.readCounts.lane l = x.lane l := by
  rw [x.readCounts_eq]
  cases l <;> rfl

/-- A lane as an entry into RUNNING sets it: before the frame at its first-frame address (R81). -/
def AnchorCopy.freshLane (c : AnchorCopy) (l : Lane) : LaneSt := { LaneSt.reset with place := .take (c.desc l).first }

/-- The engine's own values at an entry into RUNNING, host memory untouched (R81). -/
def Exchange.begun (now : Time) (c : AnchorCopy) (x : Exchange) : Exchange :=
  { x with
    state := .running, check := .none, starting := none, anchor := some c, consumed := none, readCopy := none, writeCount := 0
    control := c.freshLane .control, chunk := c.freshLane .chunk, recovery := c.freshLane .recovery, stack := []
    nextScan := if c.scanPeriod = 0 then none else some (timeAfter now c.scanPeriod)
    nextRefresh := some (timeAfter now Config.refreshPeriod), refreshCount := 0, recErrors := 0 }

theorem Exchange.begun_laneState (now : Time) (c : AnchorCopy) (x : Exchange) (l : Lane) :
    (x.begun now c).laneState l = .idle := by cases l <;> rfl

/-- An entry into RUNNING: the engine's values, the anchor's fields laid, the counts read. -/
theorem Exchange.enterRunning_eq (x : Exchange) (now : Time) (c : AnchorCopy) :
    x.enterRunning now c = ((x.begun now c).laid (entryWrites c.base)).readCounts := by
  have anchor : (x.begun now c).anchor = some c := rfl
  have cleared (ws : List (Nat × List Byte)) (l : Lane) :
      ((((x.begun now c).laid ws).putAnchor (descOffset l + 16) (leBytes 8 0)).putAnchor (descOffset l + 12) (leBytes 4 0)).showLane l
        = (x.begun now c).laid (ws ++ [(c.base + (descOffset l + 16), leBytes 8 0), (c.base + (descOffset l + 12), leBytes 4 0),
            (c.base + (descOffset l + 10), leBytes 1 LaneState.idle.code)]) := by
    rw [Exchange.putAnchor_laid _ anchor, Exchange.putAnchor_laid _ anchor, Exchange.showLane_laid _ _ anchor,
      Exchange.begun_laneState, List.append_assoc, List.append_assoc]
    rfl
  have control := cleared [] .control
  change Exchange.readCounts (Exchange.putAnchor (Exchange.putAnchor (Exchange.showLane (Exchange.putAnchor (Exchange.putAnchor
    (Exchange.showLane (Exchange.putAnchor (Exchange.putAnchor (Exchange.showLane (Exchange.putAnchor (Exchange.putAnchor
      ((x.begun now c).laid []) _ _) _ _) .control) _ _) _ _) .chunk) _ _) _ _) .recovery) _ _) _ _) = _
  rw [control, cleared _ .chunk, cleared _ .recovery, Exchange.putAnchor_laid _ anchor, Exchange.putAnchor_laid _ anchor]
  rfl

section
variable {m : Mem} (wf : memWf m = true) (base : Nat)
include wf

/-- Retire mark, taken count and lane state of every lane read 0 after the entry. -/
theorem memLaid_entryWrites_lane (l : Lane) : memNat (memLaid m (entryWrites base)) (base + descOffset l + 16) 8 = 0
    ∧ memNat (memLaid m (entryWrites base)) (base + descOffset l + 12) 4 = 0
    ∧ memByte (memLaid m (entryWrites base)) (base + descOffset l + 10) = 0 := by
  have field (i : Nat) (o n : Nat) (hit : (entryWrites base)[i]? = some (base + o, leBytes n 0))
      (apart : ∀ w ∈ (entryWrites base).drop (i + 1), base + o + n ≤ w.1 ∨ w.1 + w.2.length ≤ base + o) :
      memNat (memLaid m (entryWrites base)) (base + o) n = 0 := (memNat_laid wf i hit apart).trans (Nat.zero_mod _)
  have byte {o : Nat} (h : memNat (memLaid m (entryWrites base)) o 1 = 0) : memByte (memLaid m (entryWrites base)) o = 0 :=
    BitVec.eq_of_toNat_eq ((memNat_one _ _).symm.trans h)
  rw [Nat.add_assoc, Nat.add_assoc, Nat.add_assoc]
  cases l with
  | control =>
    exact ⟨field 0 _ 8 rfl (by simp [entryWrites, allLanes, descOffset, leBytes_length]),
      field 1 _ 4 rfl (by simp [entryWrites, allLanes, descOffset, leBytes_length]),
      byte (field 2 _ 1 rfl (by simp [entryWrites, allLanes, descOffset, leBytes_length]))⟩
  | chunk =>
    exact ⟨field 3 _ 8 rfl (by simp [entryWrites, allLanes, descOffset, leBytes_length]),
      field 4 _ 4 rfl (by simp [entryWrites, allLanes, descOffset, leBytes_length]),
      byte (field 5 _ 1 rfl (by simp [entryWrites, allLanes, descOffset, leBytes_length]))⟩
  | recovery =>
    exact ⟨field 6 _ 8 rfl (by simp [entryWrites, allLanes, descOffset, leBytes_length]),
      field 7 _ 4 rfl (by simp [entryWrites, allLanes, descOffset, leBytes_length]),
      byte (field 8 _ 1 rfl (by simp [entryWrites, allLanes, descOffset, leBytes_length]))⟩

/-- Write count and depth read 0 after the entry. -/
theorem memLaid_entryWrites_counts : memNat (memLaid m (entryWrites base)) (base + 0x90) 4 = 0
    ∧ memNat (memLaid m (entryWrites base)) (base + 0xA4) 4 = 0 :=
  ⟨memNat_laid (x := 0) wf 9 rfl (by simp [entryWrites, allLanes, leBytes_length]),
    memNat_laid (x := 0) wf 10 rfl (by simp [entryWrites, allLanes])⟩

end

/-- The entry leaves the engine's values with the two copies of the counts and the writes laid. -/
theorem Exchange.enterRunning_values (x : Exchange) (now : Time) (c : AnchorCopy) : ∃ consumed readCopy,
    x.enterRunning now c =
      { x.begun now c with consumed, readCopy, mem := memLaid x.mem (entryWrites c.base) } :=
  ⟨_, _, (x.enterRunning_eq now c).trans (Exchange.readCounts_eq _)⟩

/-- Settles O9: the engine's values are read off, the anchor's fields and the other bytes by the writes made. -/
theorem runningEntryWritesTheAnchor : Obligations.RunningEntryWritesTheAnchor := by
  unfold Obligations.RunningEntryWritesTheAnchor
  intro x now c wf
  obtain ⟨consumed, readCopy, made⟩ := x.enterRunning_values now c
  rw [made]
  obtain ⟨writes, depth⟩ := memLaid_entryWrites_counts wf c.base
  refine ⟨rfl, rfl, rfl, rfl, rfl, fun l => ?lane, rfl, memLaid_entryWrites_lane wf c.base, writes, depth,
    fun b lanes outWrites outDepth => memByte_laid_other wf ?other⟩
  case lane => cases l <;> exact ⟨rfl, rfl, rfl, rfl⟩
  case other =>
    have control := lanes .control
    have chunk := lanes .chunk
    have recovery := lanes .recovery
    simp only [descOffset] at control chunk recovery
    simp only [entryWrites, allLanes, descOffset, leBytes_length, List.flatMap_cons, List.flatMap_nil, List.cons_append,
      List.nil_append, List.forall_mem_cons, List.not_mem_nil, false_imp_iff, implies_true, and_true]
    omega

end Sys2Proof.Machine
end

section
/-! SUPPORT. The finish of a frame: what it lays into host memory and what it leaves of the engine (R87). -/

namespace Sys2Proof.Machine

/-- A lane that has finished a frame stands at the frame's link, its hand empty (R87, R88). -/
def LaneSt.after (v : LaneSt) (f : HeldFrame) : LaneSt :=
  { v with hand := none, place := .link f.address f.form f.code f.tag, retire := f.address }

/-- The lane state of a lane with an empty hand on a RUNNING exchange: HELD or IDLE (section 5.2). -/
def Exchange.restState (x : Exchange) (l : Lane) : LaneState := if x.holds l then .held else .idle

/-- The writes of a finish: result word, status word, retire mark, lane state (R87). -/
def Exchange.finishWrites (x : Exchange) (base : Nat) (l : Lane) (f : HeldFrame) (st : Status) (r : Result) (v : Nat) :
    List (Nat × List Byte) :=
  [(f.address + 16, resultBytes f.form r v), (f.address + 14, leBytes 2 st.code),
    (base + (descOffset l + 16), leBytes 8 f.address), (base + (descOffset l + 10), leBytes 1 (x.restState l).code)]

section
variable {x : Exchange} {c : AnchorCopy} (l : Lane) (f : HeldFrame) (st : Status) (r : Result) (v : Nat)
  (anchor : x.anchor = some c) (running : x.state = .running)
include anchor running

/-- A finish: the writes laid, the lane at the frame's link, its flag asked for when notify or notify-all is set (R87). -/
theorem Exchange.complete_eq : x.complete l f st r v =
    if f.notify || (c.desc l).notifyAll then
      ((x.setLane l ((x.lane l).after f)).laid (x.finishWrites c.base l f st r v)).request (laneFlag l)
    else (x.setLane l ((x.lane l).after f)).laid (x.finishWrites c.base l f st r v) := by
  have known : (x.setLane l ((x.lane l).after f)).anchor = some c := by simp [anchor]
  have state : (x.setLane l ((x.lane l).after f)).laneState l = x.restState l := by
    simp [Exchange.laneState, Exchange.hand, running, LaneSt.after, Exchange.restState]
  have shown : (((((x.put (f.address + 16) (resultBytes f.form r v)).put (f.address + 14) (leBytes 2 st.code)).setLane l
      ((x.lane l).after f)).putAnchor (descOffset l + 16) (leBytes 8 f.address)).showLane l)
      = (x.setLane l ((x.lane l).after f)).laid (x.finishWrites c.base l f st r v) := by
    rw [x.put_eq_laid, Exchange.put_eq_laid, Exchange.laid_laid, Exchange.setLane_laid, Exchange.putAnchor_laid _ known,
      Exchange.showLane_laid _ _ known, state]
    rfl
  unfold Exchange.complete
  rw [anchor]
  have lane : ((x.put (f.address + 16) (resultBytes f.form r v)).put (f.address + 14) (leBytes 2 st.code)).lane l = x.lane l := by
    cases l <;> rfl
  simp only [lane]
  exact if_congr Iff.rfl (congrArg (Exchange.request · (laneFlag l)) shown) shown

theorem Exchange.complete_mem : (x.complete l f st r v).mem = memLaid x.mem (x.finishWrites c.base l f st r v) := by
  rw [Exchange.complete_eq l f st r v anchor running]
  split
  · rw [Exchange.request_mem, Exchange.laid_mem, Exchange.setLane_mem]
  · rw [Exchange.laid_mem, Exchange.setLane_mem]

/-- Every other part of a finish: the lane itself, the other lanes, the flag, and what stays. -/
theorem Exchange.complete_values : (x.complete l f st r v).lane l = (x.lane l).after f
    ∧ (∀ k, k ≠ l → (x.complete l f st r v).lane k = x.lane k)
    ∧ (x.complete l f st r v).cause = (if f.notify || (c.desc l).notifyAll then x.cause ||| laneFlag l else x.cause)
    ∧ (x.complete l f st r v).state = .running ∧ (x.complete l f st r v).stack = x.stack
    ∧ (x.complete l f st r v).anchor = x.anchor ∧ (x.complete l f st r v).mask = x.mask := by
  rw [Exchange.complete_eq l f st r v anchor running]
  split
  case isTrue notified =>
    refine ⟨by simp, fun k other => by simp [other], ?_, by simp [Exchange.request_state, running], by simp, by simp, by simp⟩
    rw [Exchange.request_cause_live _ _ (XState.live_running (by simp [running]))]
    simp
  case isFalse silent => exact ⟨by simp, fun k other => by simp [other], by simp, by simp [running], by simp, by simp, by simp⟩

end

/-! ## The words a finish lays -/

theorem Result.code_lt (r : Result) : r.code < 39 := by cases r <;> decide

theorem Status.code_lt (st : Status) : st.code < 6 := by cases st <;> decide

/-- The number of a result word: the code below, the value above, a NARROW value that does not fit left open (log entry 18). -/
def resultNumber (form : Form) (r : Result) (v : Nat) : Nat :=
  match form with
  | .narrow => r.code + 65536 * narrowHalf v
  | .wide => r.code + 65536 * v

theorem resultBytes_eq (form : Form) (r : Result) (v : Nat) :
    resultBytes form r v = leBytes form.addressBytes (resultNumber form r v) := by cases form <;> rfl

theorem Form.two_le_addressBytes (form : Form) : 2 ≤ form.addressBytes := by cases form <;> decide

theorem resultNumber_fits {form : Form} {r : Result} {v : Nat} (fits : form = .narrow → v < 65536) :
    resultNumber form r v = r.code + 65536 * v := by
  cases form with
  | narrow => simp [resultNumber, narrowHalf, fits rfl]
  | wide => rfl

theorem resultNumber_code (form : Form) (r : Result) (v : Nat) : resultNumber form r v % 65536 = r.code := by
  have := r.code_lt
  cases form <;> simp [resultNumber] <;> omega

section
variable {x : Exchange} {base : Nat} {l : Lane} {f : HeldFrame} {st : Status} {r : Result} {v : Nat}
  (wf : memWf x.mem = true) (apart : f.address + 24 ≤ base ∨ base + 256 ≤ f.address)
include wf apart

/-- The fields that a finish lays, read back, and every byte outside them. -/
theorem Exchange.finishWrites_read :
    let m := memLaid x.mem (x.finishWrites base l f st r v)
    memBytes m (f.address + 16) f.form.addressBytes = leBytes f.form.addressBytes (resultNumber f.form r v)
    ∧ memNat m (f.address + 14) 2 = st.code ∧ memNat m (base + (descOffset l + 16)) 8 = f.address % 256 ^ 8
    ∧ memNat m (base + (descOffset l + 10)) 1 = (x.restState l).code
    ∧ ∀ b, ¬(f.address + 14 ≤ b ∧ b < f.address + 16 + f.form.addressBytes) →
        ¬(base + (descOffset l + 16) ≤ b ∧ b < base + (descOffset l + 24)) → b ≠ base + (descOffset l + 10) →
        memByte m b = memByte x.mem b := by
  have range := descOffset_range l
  have width : f.form.addressBytes ≤ 8 := by cases f.form <;> decide
  have status : st.code % 256 ^ 2 = st.code := Nat.mod_eq_of_lt (by have := st.code_lt; omega)
  have state : (x.restState l).code % 256 ^ 1 = (x.restState l).code :=
    Nat.mod_eq_of_lt (by have := (x.restState l).code_lt; omega)
  have result : (x.finishWrites base l f st r v)[0]? =
      some (f.address + 16, leBytes f.form.addressBytes (resultNumber f.form r v)) :=
    congrArg (fun b => some (f.address + 16, b)) (resultBytes_eq _ _ _)
  refine ⟨?result, ?status, ?retire, ?state, fun b outFrame outRetire outState => memByte_laid_other wf ?other⟩
  case result =>
    have read := memBytes_laid wf 0 result (by simp [Exchange.finishWrites, leBytes_length]; omega)
    rwa [leBytes_length] at read
  case status =>
    rw [← status]
    exact memNat_laid wf 1 rfl (by simp [Exchange.finishWrites, leBytes_length]; omega)
  case retire => exact memNat_laid wf 2 rfl (by simp [Exchange.finishWrites, leBytes_length])
  case state =>
    rw [← state]
    exact memNat_laid wf 3 rfl (by simp [Exchange.finishWrites])
  case other =>
    simp only [Exchange.finishWrites, resultBytes_eq, leBytes_length, List.forall_mem_cons, List.not_mem_nil, false_imp_iff,
      implies_true, and_true]
    omega

end

/-! ## The statement -/

/-- Settles O14: a finish by its writes and the engine's other parts; an owner's finish by the exchange's state and the hand. -/
theorem finishWritesTheFrame : Obligations.FinishWritesTheFrame := by
  unfold Obligations.FinishWritesTheFrame
  refine ⟨fun x l f st r v c anchor running wf apart => ?complete, fun x gate now l st r v off => ?off,
    fun x gate now l st r v running => ⟨fun empty => ?empty, fun f hand => ?hand⟩, fun s l st r v => rfl, rfl, rfl⟩
  case complete =>
    obtain ⟨lane, others, cause, state, stack, anchorStays, mask⟩ := Exchange.complete_values l f st r v anchor running
    obtain ⟨result, status, retire, shown, other⟩ := Exchange.finishWrites_read (l := l) (st := st) (r := r) (v := v) wf apart
    have mem := Exchange.complete_mem l f st r v anchor running
    dsimp only
    rw [mem]
    refine ⟨fun fits => ?number, ?code, status, retire, ?state, other, lane, others, cause, state, stack, anchorStays, mask⟩
    case number => rw [← resultNumber_fits fits, memNat, result, leNat_leBytes]
    case code => exact (memNat_low f.form.two_le_addressBytes result).trans (resultNumber_code _ _ _)
    case state =>
      refine shown.trans ?_
      unfold Exchange.restState
      split <;> rfl
  case off =>
    have unheld : x.hand l = none → x.setLane l { (x.lane l) with hand := none } = x := fun empty => by
      have same : ({ (x.lane l) with hand := none } : LaneSt) = x.lane l :=
        (congrArg (fun h => ({ (x.lane l) with hand := h } : LaneSt)) empty).symm
      rw [same, Exchange.setLane_lane]
    unfold Exchange.finish Exchange.finishOnly
    cases hand : x.hand l with
    | none => simp [unheld hand]
    | some f => simp [off]
  case empty => simp [Exchange.finish, Exchange.finishOnly, empty]
  case hand => simp [Exchange.finish, Exchange.finishOnly, hand, running, Taken.toHeld]

end Sys2Proof.Machine
end

section
/-! SUPPORT. A frame taken by its lane, and the frames that are not handed on (R83 to R86). -/

namespace Sys2Proof.Machine

/-! ## Taking (R84) -/

/-- The writes of step 2 of R84: TAKEN, the taken count, lane state RUNNING. -/
def takenWrites (base : Nat) (l : Lane) (addr : Nat) (count : Word) : List (Nat × List Byte) :=
  [(addr + 14, leBytes 2 1), (base + (descOffset l + 12), leWord 4 count),
    (base + (descOffset l + 10), leBytes 1 LaneState.running.code)]

/-- The taken count after a frame is taken: one more, but for a held frame taken again (R99). -/
def LaneSt.countTaken (v : LaneSt) (again : Bool) : Word := if again then v.taken else v.taken + 1

/-- The head of the frame at an address as its lane reads it, in the effective form (R83). -/
def Exchange.headAt (x : Exchange) (l : Lane) (addr : Nat) : HeldFrame where
  address := addr
  form := effectiveForm (x.defaultForm l) ((memByte x.mem (addr + 10)).getLsbD 0) (BitVec.ofNat 16 (memNat x.mem (addr + 8) 2))
  notify := (memByte x.mem (addr + 10)).getLsbD 1
  code := BitVec.ofNat 16 (memNat x.mem (addr + 8) 2)
  tag := BitVec.ofNat 16 (memNat x.mem (addr + 12) 2)

theorem Exchange.defaultForm_eq {x : Exchange} {c : AnchorCopy} (anchor : x.anchor = some c) (l : Lane) :
    x.defaultForm l = (c.desc l).form := by
  rw [Exchange.defaultForm, anchor]

theorem Exchange.markTaken_eq {x : Exchange} {c : AnchorCopy} (anchor : x.anchor = some c) (l : Lane) (addr : Nat) (again : Bool) :
    x.markTaken l addr again = (x.setLane l { (x.lane l) with taken := (x.lane l).countTaken again }).laid
      (takenWrites c.base l addr ((x.lane l).countTaken again)) := by
  have known : (x.setLane l { (x.lane l) with taken := (x.lane l).countTaken again }).anchor = some c := by simp [anchor]
  change Exchange.putAnchor (Exchange.putAnchor ((x.laid [(addr + 14, leBytes 2 1)]).setLane l
    { (x.lane l) with taken := (x.lane l).countTaken again }) _ _) _ _ = _
  rw [Exchange.setLane_laid, Exchange.putAnchor_laid _ known, Exchange.putAnchor_laid _ known]
  rfl

section
variable (x : Exchange) (now : Time) (l : Lane) (addr : Nat) (again : Bool)

/-- A head that cannot be read keeps the RECOVERY lane before the frame, and is counted (R86). -/
theorem Exchange.takeFrame_unread_recovery (bad : readsOk x.badReads addr headFields = false) :
    x.takeFrame now .recovery addr again =
      { (x.setLane .recovery { (x.lane .recovery) with place := .take addr }) with recErrors := x.recErrors + 1 } :=
  (if_pos (by simp [bad])).trans (if_pos rfl)

/-- A head that cannot be read faults the CONTROL and CHUNK lanes (R86). -/
theorem Exchange.takeFrame_unread (bad : readsOk x.badReads addr headFields = false) (other : l ≠ .recovery) :
    x.takeFrame now l addr again = x.frameFault now l .frame
      { address := addr, form := x.defaultForm l, notify := false, code := 0, tag := 0 } .fetchError :=
  (if_pos (by simp [bad])).trans (if_neg other)

variable {x l addr} (head : readsOk x.badReads addr headFields = true)
include head

/-- An unknown format on the RECOVERY lane is finished BAD_FORMAT (R85). -/
theorem Exchange.takeFrame_unknown_recovery (unknown : formatOf (x.headAt .recovery addr).code = none) :
    x.takeFrame now .recovery addr again =
      (x.markTaken .recovery addr again).complete .recovery (x.headAt .recovery addr) .refused .badFormat 0 := by
  refine (if_neg (by simp [head])).trans ?_
  change (match formatOf (x.headAt .recovery addr).code with
    | none => _
    | some fmt => _) = _
  rw [unknown]
  exact if_pos rfl

/-- An unknown format faults the CONTROL and CHUNK lanes (R85). -/
theorem Exchange.takeFrame_unknown (unknown : formatOf (x.headAt l addr).code = none) (other : l ≠ .recovery) :
    x.takeFrame now l addr again = (x.markTaken l addr again).frameFault now l .frame (x.headAt l addr) .unknownFormat := by
  refine (if_neg (by simp [head])).trans ?_
  change (match formatOf (x.headAt l addr).code with
    | none => _
    | some fmt => _) = _
  rw [unknown]
  exact if_neg other

variable {fmt : Format} (format : formatOf (x.headAt l addr).code = some fmt)
include format

/-- A format of another lane is finished WRONG_LANE (R85). -/
theorem Exchange.takeFrame_wrongLane (strange : fmt.lane ≠ l) :
    x.takeFrame now l addr again = (x.markTaken l addr again).complete l (x.headAt l addr) .refused .wrongLane 0 := by
  refine (if_neg (by simp [head])).trans ?_
  change (match formatOf (x.headAt l addr).code with
    | none => _
    | some fmt => _) = _
  rw [format]
  exact if_pos strange

variable (own : fmt.lane = l)
include own

/-- A body that cannot be read faults the lane (R86). -/
theorem Exchange.takeFrame_bodyUnread
    (bad : readsOk x.badReads addr (fmt.bodyFields (x.headAt l addr).form) = false) :
    x.takeFrame now l addr again = (x.markTaken l addr again).frameFault now l .frame (x.headAt l addr) .fetchError := by
  have same := (x.kept_markTaken l addr again).badReads
  refine (if_neg (by simp [head])).trans ?_
  change (match formatOf (x.headAt l addr).code with
    | none => _
    | some fmt => _) = _
  rw [format]
  exact (if_neg (not_not.mpr own)).trans (if_pos (by rw [same, Bool.not_eq_true']; exact bad))

/-- A frame whose reads succeed is in hand (R84). -/
theorem Exchange.takeFrame_taken
    (body : readsOk x.badReads addr (fmt.bodyFields (x.headAt l addr).form) = true) :
    x.takeFrame now l addr again = ((x.markTaken l addr again).setLane l { ((x.markTaken l addr again).lane l) with
      hand := some
        { address := addr, form := (x.headAt l addr).form, notify := (x.headAt l addr).notify, tag := (x.headAt l addr).tag
          code := (x.headAt l addr).code
          body := readBody (x.markTaken l addr again).mem addr fmt (x.headAt l addr).form, started := false }
      held := none
      place := .nowhere }).showLane l := by
  have same := (x.kept_markTaken l addr again).badReads
  refine (if_neg (by simp [head])).trans ?_
  change (match formatOf (x.headAt l addr).code with
    | none => _
    | some fmt => _) = _
  rw [format]
  exact (if_neg (not_not.mpr own)).trans (if_neg (by rw [same, Bool.not_eq_true', Bool.not_eq_false]; exact body))

end

end Sys2Proof.Machine
end

section
/-! SUPPORT. The tables of formats, fields and bodies (5.3, 11.3), the effective form and the reads that fail (R83, R86). -/

namespace Sys2Proof.Machine

/-! ## The frame in hand -/

/-- What a taken frame leaves in its lane (R84). -/
def LaneSt.taking (v : LaneSt) (f : Taken) (count : Word) : LaneSt :=
  { v with hand := some f, place := .nowhere, held := none, taken := count }

/-- The frame that the head at an address and the body read with it put in hand. -/
def HeldFrame.inHand (f : HeldFrame) (body : Body) : Taken :=
  { address := f.address, form := f.form, notify := f.notify, tag := f.tag, code := f.code, body, started := false }

section
variable {x : Exchange} {c : AnchorCopy} (now : Time) {l : Lane} {addr : Nat} (again : Bool) {fmt : Format}
  (anchor : x.anchor = some c) (running : x.state = .running) (free : x.holds l = false)
  (head : readsOk x.badReads addr headFields = true) (format : formatOf (x.headAt l addr).code = some fmt) (own : fmt.lane = l)
  (body : readsOk x.badReads addr (fmt.bodyFields (x.headAt l addr).form) = true)
include anchor running free head format own body

/-- A frame taken: its lane with the frame in hand, and the writes of R84, the lane state shown twice. -/
theorem Exchange.takeFrame_eq : x.takeFrame now l addr again =
    (x.setLane l ((x.lane l).taking
      ((x.headAt l addr).inHand (readBody (x.markTaken l addr again).mem addr fmt (x.headAt l addr).form))
      ((x.lane l).countTaken again))).laid
      (takenWrites c.base l addr ((x.lane l).countTaken again)
        ++ [(c.base + (descOffset l + 10), leBytes 1 LaneState.running.code)]) := by
  rw [Exchange.takeFrame_taken now again head format own body]
  generalize readBody (x.markTaken l addr again).mem addr fmt (x.headAt l addr).form = read
  generalize hf : (x.headAt l addr) = f
  have at_ : f.address = addr := by rw [← hf]; rfl
  have known : (x.setLane l ((x.lane l).taking (f.inHand read) ((x.lane l).countTaken again))).anchor = some c := by simp [anchor]
  have state : (x.setLane l ((x.lane l).taking (f.inHand read) ((x.lane l).countTaken again))).laneState l = .running := by
    simp [Exchange.laneState, Exchange.hand, running, free, LaneSt.taking]
  rw [Exchange.markTaken_eq anchor, Exchange.setLane_laid, Exchange.setLane_setLane, Exchange.laid_lane, Exchange.lane_setLane,
    ← state, ← Exchange.showLane_laid _ l known]
  subst at_
  rfl

end

/-- The fields that taking a frame lays, read back, and every byte outside them. -/
theorem takenWrites_read {m : Mem} {base : Nat} {l : Lane} {addr : Nat} {count : Word} (wf : memWf m = true)
    (apart : addr + 16 ≤ base ∨ base + 256 ≤ addr) :
    let y := memLaid m (takenWrites base l addr count ++ [(base + (descOffset l + 10), leBytes 1 LaneState.running.code)])
    memNat y (addr + 14) 2 = 1 ∧ memNat y (base + (descOffset l + 12)) 4 = count.toNat
    ∧ memNat y (base + (descOffset l + 10)) 1 = 1
    ∧ ∀ b, ¬(addr + 14 ≤ b ∧ b < addr + 16) → ¬(base + (descOffset l + 12) ≤ b ∧ b < base + (descOffset l + 16)) →
        b ≠ base + (descOffset l + 10) → memByte y b = memByte m b := by
  have range := descOffset_range l
  have number : count.toNat % 256 ^ 4 = count.toNat := Nat.mod_eq_of_lt count.isLt
  refine ⟨?status, ?count, memNat_laid (x := 1) wf 3 rfl (by simp [takenWrites]), fun b outStatus outCount outState => ?other⟩
  case status => exact memNat_laid (x := 1) wf 0 rfl (by simp [takenWrites, leWord_length, leBytes_length]; omega)
  case count =>
    rw [← number]
    exact memNat_laid wf 1 rfl (by simp [takenWrites, leBytes_length])
  case other =>
    refine memByte_laid_other wf ?_
    simp only [takenWrites, List.cons_append, List.nil_append, leWord_length, leBytes_length, List.forall_mem_cons,
      List.not_mem_nil, false_imp_iff, implies_true, and_true]
    omega

/-! ## The formats and the effective form -/

/-- The formats that RESUME and ABANDON have, by code (R83). -/
theorem effectiveForm_recovery (dflt : Form) (alt : Bool) {code : BitVec 16} (h : code = 0x70 ∨ code = 0x71) :
    effectiveForm dflt alt code = .wide := by
  rcases h with rfl | rfl <;> rfl

theorem effectiveForm_other (dflt : Form) (alt : Bool) {code : BitVec 16} (resume : code ≠ 0x70) (abandon : code ≠ 0x71) :
    effectiveForm dflt alt code = if alt then dflt.flip else dflt := by
  have notResume : code.toNat ≠ 0x70 := fun e => resume (BitVec.eq_of_toNat_eq e)
  have notAbandon : code.toNat ≠ 0x71 := fun e => abandon (BitVec.eq_of_toNat_eq e)
  unfold effectiveForm
  split
  case h_1 is => unfold formatOf at is; split at is <;> simp_all
  case h_2 is => unfold formatOf at is; split at is <;> simp_all
  case h_3 => rfl

theorem flip_wide_iff (dflt : Form) (alt : Bool) :
    (if alt then dflt.flip else dflt) = .wide ↔ ((dflt = .wide) ↔ (alt = false)) := by
  cases dflt <;> cases alt <;> decide

/-! ## The reads that fail (R86) -/

theorem readOk_iff (bad : List Span) (a n : Nat) :
    readOk bad a n = true ↔ ∀ b, a ≤ b → b < a + n → ∀ r ∈ bad, b < r.first ∨ r.first + r.length ≤ b := by
  simp only [readOk, List.all_eq_true, Bool.or_eq_true, decide_eq_true_eq, beq_iff_eq]
  constructor
  · intro ok b low high r mem
    have := ok r mem
    omega
  · intro ok r mem
    by_contra fails
    have := ok (max a r.first) (by omega) (by omega) r mem
    omega

theorem readsOk_iff (bad : List Span) (a : Nat) (fields : List (Nat × Nat)) : readsOk bad a fields = true ↔
    ∀ g ∈ fields, ∀ b, a + g.1 ≤ b → b < a + g.1 + g.2 → ∀ r ∈ bad, b < r.first ∨ r.first + r.length ≤ b := by
  simp only [readsOk, List.all_eq_true, readOk_iff]

/-! ## The bodies (11.3) -/

theorem readFlag_eq (m : Mem) (a : Nat) : readFlag m a = (memNat m a 1 != 0) := by
  rw [memNat_one, readFlag, Bool.eq_iff_iff, bne_iff_ne, bne_iff_ne, ne_eq, ne_eq, ← BitVec.toNat_inj]
  rfl

theorem Form.addressBytes_eq (form : Form) : form.addressBytes = if form = .wide then 8 else 4 := by cases form <;> rfl

theorem readPieces_length (m : Mem) (form : Form) (a n : Nat) : (readPieces m form a n).length = n := by
  induction n generalizing a with
  | zero => rfl
  | succ n ih => simp [readPieces, ih]

/-- Each piece stands at its own place behind the first (11.3). -/
theorem readPieces_get (m : Mem) (form : Form) (a n i : Nat) (h : i < n) :
    (readPieces m form a n)[i]? = some
      { address := memNat m (a + i * form.pieceBytes) form.addressBytes
        length := memNat m (a + i * form.pieceBytes + form.addressBytes) form.lengthBytes } := by
  induction i generalizing a n with
  | zero =>
    obtain ⟨n, rfl⟩ : ∃ k, n = k + 1 := ⟨n - 1, by omega⟩
    simp [readPieces]
  | succ i ih =>
    obtain ⟨n, rfl⟩ : ∃ k, n = k + 1 := ⟨n - 1, by omega⟩
    rw [readPieces, List.getElem?_cons_succ, ih (a + form.pieceBytes) n (by omega), Nat.succ_mul,
      Nat.add_assoc a, Nat.add_comm form.pieceBytes]

/-! ## The statement -/

/-- Settles O15: the taking by its lane and its writes; the tables by cases over the formats, each body field by field. -/
theorem laneTakesAFrame : Obligations.LaneTakesAFrame := by
  unfold Obligations.LaneTakesAFrame
  refine ⟨fun x now l addr again c fmt => ?taken, ⟨fun code fmt => ?codes, ?fields, rfl⟩,
    fun dflt alt code => ⟨effectiveForm_recovery dflt alt, fun resume abandon => ?other⟩, readsOk_iff, fun m f form => ?bodies⟩
  case taken =>
    intro code opts form count anchor running free wf apart format own head body
    have read : x.headAt l addr =
        { address := addr, form, notify := opts.getLsbD 1, code, tag := BitVec.ofNat 16 (memNat x.mem (addr + 12) 2) } := by
      rw [Exchange.headAt, Exchange.defaultForm_eq anchor]
    have made := Exchange.takeFrame_eq now again anchor running free head (fmt := fmt) format own (by rw [read]; exact body)
    rw [read] at made
    dsimp only
    rw [made]
    obtain ⟨status, counted, state, other⟩ := takenWrites_read (l := l) (count := (x.lane l).countTaken again) wf apart
    exact ⟨by rw [Exchange.laid_lane, Exchange.lane_setLane]; rfl, by rw [Exchange.laid_mem, Exchange.setLane_mem]; exact status,
      by rw [Exchange.laid_mem, Exchange.setLane_mem]; exact counted, by rw [Exchange.laid_mem, Exchange.setLane_mem]; exact state,
      by rw [Exchange.laid_mem, Exchange.setLane_mem]; exact other,
      fun k ne => by rw [Exchange.laid_lane, Exchange.lane_setLane_of_ne _ _ _ ne], by simp, by simp, by simp, by simp⟩
  case codes =>
    generalize hn : code.toNat = n
    simp only [List.mem_cons, List.not_mem_nil, or_false, exists_eq_or_imp, exists_eq_left, @eq_comm _ _ n]
    unfold formatOf
    rw [hn]
    split <;> simp_all
  case fields => decide
  case other =>
    rw [effectiveForm_other dflt alt resume abandon]
    exact flip_wide_iff dflt alt
  case bodies =>
    simp only [← readFlag_eq, ← Form.addressBytes_eq]
    refine ⟨rfl, rfl, rfl, rfl, rfl, rfl, rfl, rfl, rfl, rfl, rfl, rfl, rfl, rfl, rfl, rfl, rfl, rfl, rfl, _, rfl,
      readPieces_length _ _ _ _, fun i inside => (readPieces_get _ _ _ _ i inside).trans ?_⟩
    cases form with
    | narrow =>
      exact congrArg₂ (fun a b => some ({ address := memNat m a 4, length := memNat m b 2 } : Piece))
        (by simp only [Form.pieceBytes]; omega) (by simp only [Form.pieceBytes, Form.addressBytes]; omega)
    | wide =>
      exact congrArg₂ (fun a b => some ({ address := memNat m a 8, length := memNat m b 4 } : Piece))
        (by simp only [Form.pieceBytes]; omega) (by simp only [Form.pieceBytes, Form.addressBytes]; omega)

end Sys2Proof.Machine
end

section
/-! SUPPORT. The statement about the frames that are not handed on (R85, R86, R96). -/

namespace Sys2Proof.Machine

/-- Settles O16: the cases in which a frame is not handed on, each by its lemma; a frame fault by its point. -/
theorem framesNotHandedOn : Obligations.FramesNotHandedOn := by
  unfold Obligations.FramesNotHandedOn
  refine ⟨fun x now l addr again c anchor => ?taking, fun x now l f e => ⟨rfl, rfl⟩⟩
  intro code opts form f
  have read : x.headAt l addr = f := by
    rw [Exchange.headAt, Exchange.defaultForm_eq anchor]
  refine ⟨fun bad => ⟨?recovery, fun other => ?unread⟩, fun head => ⟨fun unknown => ⟨?unknownRecovery, fun other => ?unknown⟩,
    fun fmt format strange => ?wrongLane, fun fmt format own bad => ?bodyUnread⟩⟩
  case recovery =>
    rintro rfl
    rw [Exchange.takeFrame_unread_recovery x now addr again bad]
    exact ⟨rfl, rfl, rfl, rfl⟩
  case unread => rw [Exchange.takeFrame_unread x now l addr again bad other, Exchange.defaultForm_eq anchor]
  case unknownRecovery =>
    rintro rfl
    rw [← read]
    exact Exchange.takeFrame_unknown_recovery now again head unknown
  case unknown =>
    rw [← read]
    exact Exchange.takeFrame_unknown now again head unknown other
  case wrongLane =>
    rw [← read]
    exact Exchange.takeFrame_wrongLane now again head format strange
  case bodyUnread =>
    rw [← read]
    exact Exchange.takeFrame_bodyUnread now again head format own (by rw [read]; exact bad)

end Sys2Proof.Machine
end

section
/-! SUPPORT. The eight checks of the anchor in their order, and the copy of one that passes them (R80, R81). -/

namespace Sys2Proof.Machine

theorem formOf_above {n : Nat} (h : 1 < n) : formOf n = none := by
  unfold formOf
  split
  · omega
  · omega
  · rfl

theorem formOf_upTo {n : Nat} (h : n ≤ 1) : formOf n = some (if n = 0 then .narrow else .wide) := by
  obtain rfl | rfl : n = 0 ∨ n = 1 := by omega
  · rfl
  · rfl

theorem laneAddressOk_iff (a : Nat) : laneAddressOk a = true ↔ ¬(a = 0 ∨ a % 64 ≠ 0) := by
  simp [laneAddressOk]

theorem warpSlots_iff (n : Nat) : (n == 16 || n == 32 || n == 64) = true ↔ n ∈ [16, 32, 64] := by simp [or_assoc]

theorem reportEntries_iff (n : Nat) :
    (n == 16 || n == 32 || n == 64 || n == 128 || n == 256) = true ↔ n ∈ [16, 32, 64, 128, 256] := by simp [or_assoc]

/-- A lane's descriptor as the anchor at `base` gives it, in a form (R81). -/
def laneDescAt (m : Mem) (base : Nat) (l : Lane) (form : Form) : LaneDesc where
  first := memNat m (base + descOffset l) 8
  form := form
  notifyAll := readFlag m (base + descOffset l + 9)

/-- The copy that the anchor at `base` gives, in three default forms (R81). -/
def anchorCopyAt (m : Mem) (base : Nat) (control chunk recovery : Form) : AnchorCopy where
  base := base
  scanPeriod := scanPeriodOf (memNat m (base + 4) 4)
  control := laneDescAt m base .control control
  chunk := laneDescAt m base .chunk chunk
  recovery := laneDescAt m base .recovery recovery
  warpBase := memNat m (base + 0x70) 8
  warpSlots := memNat m (base + 0x78) 4
  reportBase := memNat m (base + 0x80) 8
  reportEntries := memNat m (base + 0x88) 4
  faultTop := memNat m (base + 0x98) 8
  faultSize := min (memNat m (base + 0xA0) 4) Config.faultAreaMax

/-- The checks from the warp slots on, in three default forms (R80). -/
def checkAreas (m : Mem) (base : Nat) (control chunk recovery : Form) : AnchorCheck ⊕ AnchorCopy :=
  if !(memNat m (base + 0x78) 4 == 16 || memNat m (base + 0x78) 4 == 32 || memNat m (base + 0x78) 4 == 64) then .inl .warpSlots
  else if !(memNat m (base + 0x88) 4 == 16 || memNat m (base + 0x88) 4 == 32 || memNat m (base + 0x88) 4 == 64
      || memNat m (base + 0x88) 4 == 128 || memNat m (base + 0x88) 4 == 256) then .inl .reportEntries
  else if memNat m (base + 0xA0) 4 < 512 then .inl .faultArea
  else .inr (anchorCopyAt m base control chunk recovery)

section
variable {m : Mem} {bad : List Span} {base : Nat} (placed : base ≠ 0)
include placed

theorem checkAnchor_unread (unread : readsOk bad base anchorFields = false) : checkAnchor m bad base = .inl .readError :=
  (if_neg placed).trans (if_pos (by simp [unread]))

variable (read : readsOk bad base anchorFields = true)
include read

theorem checkAnchor_version (other : memNat m base 4 ≠ 1) : checkAnchor m bad base = .inl .version :=
  ((if_neg placed).trans (if_neg (by simp [read]))).trans (if_pos other)

variable (version : memNat m base 4 = 1)
include version

theorem checkAnchor_laneAddress {l : Lane} (wrong : laneAddressOk (memNat m (base + descOffset l) 8) = false) :
    checkAnchor m bad base = .inl .laneAddress := by
  refine (((if_neg placed).trans (if_neg (by simp [read]))).trans (if_neg (not_not.mpr version))).trans (if_pos ?_)
  cases l <;> simp [wrong]

variable (lanes : ∀ l, laneAddressOk (memNat m (base + descOffset l) 8) = true)
include lanes

theorem checkAnchor_form {l : Lane} (above : formOf (memNat m (base + descOffset l + 8) 1) = none) :
    checkAnchor m bad base = .inl .form := by
  refine (((if_neg placed).trans (if_neg (by simp [read]))).trans (if_neg (not_not.mpr version))).trans
    ((if_neg (by simp [lanes])).trans ?_)
  split
  · cases l <;> simp_all
  · rfl

theorem checkAnchor_areas {control chunk recovery : Form} (h0 : formOf (memNat m (base + descOffset .control + 8) 1) = some control)
    (h1 : formOf (memNat m (base + descOffset .chunk + 8) 1) = some chunk)
    (h2 : formOf (memNat m (base + descOffset .recovery + 8) 1) = some recovery) :
    checkAnchor m bad base = checkAreas m base control chunk recovery := by
  refine (((if_neg placed).trans (if_neg (by simp [read]))).trans (if_neg (not_not.mpr version))).trans
    ((if_neg (by simp [lanes])).trans ?_)
  dsimp only
  rw [h0, h1, h2]
  rfl

end

section
variable {m : Mem} {base : Nat} (control chunk recovery : Form)

theorem checkAreas_slots (no : memNat m (base + 0x78) 4 ∉ [16, 32, 64]) :
    checkAreas m base control chunk recovery = .inl .warpSlots :=
  if_pos (by rw [Bool.not_eq_true', Bool.eq_false_iff]; exact mt (warpSlots_iff _).mp no)

variable (slots : memNat m (base + 0x78) 4 ∈ [16, 32, 64])
include slots

theorem checkAreas_entries (no : memNat m (base + 0x88) 4 ∉ [16, 32, 64, 128, 256]) :
    checkAreas m base control chunk recovery = .inl .reportEntries :=
  (if_neg (by rw [Bool.not_eq_true', (warpSlots_iff _).mpr slots]; exact nofun)).trans
    (if_pos (by rw [Bool.not_eq_true', Bool.eq_false_iff]; exact mt (reportEntries_iff _).mp no))

variable (entries : memNat m (base + 0x88) 4 ∈ [16, 32, 64, 128, 256])
include entries

theorem checkAreas_area :
    checkAreas m base control chunk recovery = if memNat m (base + 0xA0) 4 < 512 then .inl .faultArea
      else .inr (anchorCopyAt m base control chunk recovery) :=
  (if_neg (by rw [Bool.not_eq_true', (warpSlots_iff _).mpr slots]; exact nofun)).trans
    (if_neg (by rw [Bool.not_eq_true', (reportEntries_iff _).mpr entries]; exact nofun))

end

/-- Settles O7: the checks by their lemmas, in the order of R80. -/
theorem anchorChecksInOrder : Obligations.AnchorChecksInOrder := by
  unfold Obligations.AnchorChecksInOrder
  intro m bad base first form badLane slots entries area lane period
  refine ⟨fun zero => if_pos zero, checkAnchor_unread, fun placed read => ⟨checkAnchor_version placed read,
    fun version => ⟨fun wrong => ?lane, fun lanes => ?passed⟩⟩⟩
  case lane =>
    have fails {l : Lane} (h : badLane (first (descOffset l))) : checkAnchor m bad base = .inl .laneAddress :=
      checkAnchor_laneAddress placed read version (l := l)
        (Bool.eq_false_iff.mpr fun ok => (laneAddressOk_iff _).mp ok h)
    exact wrong.elim (fails (l := .control)) fun rest => rest.elim (fails (l := .chunk)) (fails (l := .recovery))
  case passed =>
    have ok (l : Lane) : laneAddressOk (memNat m (base + descOffset l) 8) = true := by
      obtain ⟨control, chunk, recovery⟩ := And.imp_right not_or.mp (not_or.mp lanes)
      rw [laneAddressOk_iff]
      cases l with
      | control => exact control
      | chunk => exact chunk
      | recovery => exact recovery
    refine ⟨fun above => ?form, fun control chunk recovery => ?areas⟩
    case form =>
      have fails {l : Lane} (h : 1 < form (descOffset l + 8)) : checkAnchor m bad base = .inl .form :=
        checkAnchor_form placed read version ok (l := l) (formOf_above (by rw [Nat.add_assoc]; exact h))
      exact above.elim (fails (l := .control)) fun rest => rest.elim (fails (l := .chunk)) (fails (l := .recovery))
    case areas =>
      rw [checkAnchor_areas placed read version ok (formOf_upTo control) (formOf_upTo chunk) (formOf_upTo recovery)]
      refine ⟨checkAreas_slots _ _ _, fun slotsOk => ⟨checkAreas_entries _ _ _ slotsOk, fun entriesOk => ?_⟩⟩
      rw [checkAreas_area _ _ _ slotsOk entriesOk]
      exact ⟨fun small => if_pos small, fun large => ⟨_, if_neg (Nat.not_lt.mpr large), rfl, rfl, rfl, rfl, ⟨rfl, rfl, rfl⟩,
        ⟨rfl, rfl, rfl⟩, ⟨rfl, rfl, rfl⟩, rfl, rfl, rfl, rfl⟩⟩

end Sys2Proof.Machine
end

section
/-! SUPPORT. The register window: its writes and reads, the codes and the places of PART_STATE (R77 to R79). -/

namespace Sys2Proof.Machine

/-! ## PART_STATE (R79, 11.2) -/

theorem XState.code_lt (v : XState) : v.code < 4 := by cases v <;> decide
theorem AnchorCheck.code_lt (v : AnchorCheck) : v.code < 16 := by cases v <;> decide
theorem PowerState.code_lt (v : PowerState) : v.code < 4 := by cases v <;> decide
theorem ResetCause.code_lt (v : ResetCause) : v.code < 4 := by cases v <;> decide
theorem WakeReason.code_lt (v : WakeReason) : v.code < 8 := by cases v <;> decide

section
variable {a b c d e : Nat} (ha : a < 4) (hb : b < 16) (hc : c < 4) (hd : d < 4) (he : e < 8)
include ha hb hc hd he

/-- Five fields at their places in a word, each read back by its place and width. -/
theorem packed_fields : let p := BitVec.ofNat 32 (a + 16 * b + 256 * c + 4096 * d + 65536 * e)
    (p.extractLsb' 0 2).toNat = a ∧ (p.extractLsb' 4 4).toNat = b ∧ (p.extractLsb' 8 2).toNat = c
    ∧ (p.extractLsb' 12 2).toNat = d ∧ (p.extractLsb' 16 3).toNat = e := by
  simp only [BitVec.extractLsb'_toNat, BitVec.toNat_ofNat, Nat.shiftRight_eq_div_pow]
  omega

/-- The bits between the five fields are 0. -/
theorem packed_gaps : BitVec.ofNat 32 (a + 16 * b + 256 * c + 4096 * d + 65536 * e) &&& 0xFFF8CC0C = 0 := by
  refine BitVec.eq_of_getLsbD_eq fun i hi => ?_
  simp only [BitVec.getLsbD_and, BitVec.getLsbD_ofNat, hi, Nat.testBit_eq_decide_div_mod_eq]
  interval_cases i <;> simp <;> omega

end

/-! ## Writes (R77, R78) -/

section
variable (a : Ambient) {s : State} (v : Word) (hs : s.supply.held = false)
include hs

theorem exec_registerWrite_control :
    exec (.registerWrite a 0x08 4 v) s = .next ((s.arrive a).linkSeen.controlWrite v) :=
  (perform_free hs : execRegisterWrite a 0x08 4 v s = _)

/-- A write of another width, or outside the six writable registers, shows the link up and no more. -/
theorem exec_registerWrite_ignored {o w : Nat} (h : w ≠ 4 ∨ o ∉ [0x00, 0x04, 0x08, 0x0C, 0x10, 0x14]) :
    exec (.registerWrite a o w v) s = .next (s.arrive a).linkSeen := by
  refine (perform_free hs : execRegisterWrite a o w v s = _).trans (congrArg Host.Outcome.next ?_)
  dsimp only
  rcases h with width | offset
  · rw [if_pos width]
  · split
    · rfl
    · split <;> simp_all

end

/-! ## The statement -/

/-- Settles O11: each register's write and read by its offset; PART_STATE by the places of its fields. -/
theorem registerWindowWrites : Obligations.RegisterWindowWrites := by
  unfold Obligations.RegisterWindowWrites
  intro a s v hs u
  have control := exec_registerWrite_control a v hs
  refine ⟨(perform_free hs : execRegisterWrite a 0x00 4 v s = _), (perform_free hs : execRegisterWrite a 0x04 4 v s = _), ?cause, ?mask,
    fun start stay => ?start,
    fun reset => ?reset, fun noStart noReset => ?neither, ?nudge, fun o w => exec_registerWrite_ignored a v hs,
    rfl, rfl, rfl, rfl, BitVec.toNat_setWidth 32 s.time, ?state, fun o w outside => ?unread⟩
  case cause => exact (perform_free hs : execRegisterWrite a 0x10 4 v s = _).trans (perform_free hs : execCauseWrite a v s = _).symm
  case mask => exact (perform_free hs : execRegisterWrite a 0x14 4 v s = _).trans (perform_free hs : execCauseMaskWrite a v s = _).symm
  case nudge => exact (perform_free hs : execRegisterWrite a 0x0C 4 v s = _).trans (perform_free hs : execNudge a s = _).symm
  case start =>
    rw [control, State.controlWrite, stay, start]
    exact (perform_free hs : execStart a s = _).symm
  case reset =>
    rw [control, State.controlWrite, reset]
    exact (perform_free hs : execLinkReset a (v.getLsbD 0) s = _).symm
  case neither =>
    rw [control, State.controlWrite, noStart, noReset]
    rfl
  case state =>
    obtain ⟨state, check, power, cause, wake⟩ := packed_fields s.xchg.state.code_lt s.xchg.check.code_lt
      s.supply.power.code_lt s.supply.cause.code_lt s.supply.wake.code_lt
    refine ⟨state.trans ?_, check.trans ?_, power.trans ?_, cause.trans ?_, wake.trans ?_,
      packed_gaps s.xchg.state.code_lt s.xchg.check.code_lt s.supply.power.code_lt s.supply.cause.code_lt s.supply.wake.code_lt⟩
    · cases s.xchg.state <;> rfl
    · cases s.xchg.check <;> rfl
    · cases s.supply.power <;> rfl
    · cases s.supply.cause <;> rfl
    · cases s.supply.wake <;> rfl
  case unread =>
    unfold State.readRegister
    rcases outside with width | offset
    · rw [if_pos width]
    · split
      · rfl
      · split <;> simp_all

end Sys2Proof.Machine
end

section
/-! SUPPORT. The status block: its bytes as fields at their places, and a refresh (11.2, R92, R93). -/

namespace Sys2Proof.Machine

/-! ## Fields one behind the other -/

/-- The bytes of fields one behind the other, each a width and a value. -/
def bytesOf (fs : List (Nat × Nat)) : List Byte := fs.flatMap fun f => leBytes f.1 f.2

/-- The bytes that fields take. -/
def widthOf (fs : List (Nat × Nat)) : Nat := (fs.map (·.1)).sum

/-- Fields one behind the other from an offset upward, each with its own offset. -/
def placed : Nat → List (Nat × Nat) → List (Nat × Nat × Nat)
  | _, [] => []
  | b, f :: fs => (b, f.1, f.2) :: placed (b + f.1) fs

@[simp] theorem bytesOf_nil : bytesOf [] = [] := rfl
@[simp] theorem bytesOf_cons (f : Nat × Nat) (fs : List (Nat × Nat)) : bytesOf (f :: fs) = leBytes f.1 f.2 ++ bytesOf fs := rfl

theorem bytesOf_append (fs gs : List (Nat × Nat)) : bytesOf (fs ++ gs) = bytesOf fs ++ bytesOf gs := List.flatMap_append

theorem widthOf_append (fs gs : List (Nat × Nat)) : widthOf (fs ++ gs) = widthOf fs + widthOf gs := by simp [widthOf]

@[simp] theorem widthOf_nil : widthOf [] = 0 := rfl
@[simp] theorem widthOf_cons (f : Nat × Nat) (fs : List (Nat × Nat)) : widthOf (f :: fs) = f.1 + widthOf fs := rfl

theorem bytesOf_length (fs : List (Nat × Nat)) : (bytesOf fs).length = widthOf fs := by
  simp [bytesOf, widthOf, List.length_flatMap, leBytes_length]

theorem placed_append (b : Nat) (fs gs : List (Nat × Nat)) : placed b (fs ++ gs) = placed b fs ++ placed (b + widthOf fs) gs := by
  induction fs generalizing b with
  | nil => simp [placed, widthOf]
  | cons f fs ih => simp [placed, ih, widthOf, Nat.add_assoc]

/-- Each placed field is read back at its offset, whatever stands behind the fields. -/
theorem placed_read (b : Nat) (fs : List (Nat × Nat)) (rest : List Byte) : ∀ f ∈ placed b fs,
    b ≤ f.1 ∧ f.1 + f.2.1 ≤ b + widthOf fs
    ∧ leNat (((bytesOf fs ++ rest).drop (f.1 - b)).take f.2.1) = f.2.2 % 256 ^ f.2.1 := by
  induction fs generalizing b with
  | nil => simp [placed]
  | cons g fs ih =>
    simp only [placed, List.forall_mem_cons, widthOf_cons]
    refine ⟨⟨Nat.le_refl b, by omega, ?first⟩, fun f mem => ?later⟩
    case first =>
      rw [Nat.sub_self, List.drop_zero, bytesOf_cons, List.append_assoc, List.take_left' (leBytes_length _ _), leNat_leBytes]
    case later =>
      obtain ⟨behind, inside, read⟩ := ih (b + g.1) f mem
      have skip : f.1 - b = (leBytes g.1 g.2).length + (f.1 - (b + g.1)) := by rw [leBytes_length]; omega
      rw [bytesOf_cons, List.append_assoc, skip, List.drop_length_add_append, read]
      exact ⟨by omega, by omega, rfl⟩

/-- Fields of one width, place by place. -/
theorem placed_finRange (b w k : Nat) (g : Fin k → Nat) : placed b ((List.finRange k).map fun n => (w, g n)) =
    (List.finRange k).map fun n => (b + w * n.val, w, g n) := by
  induction k generalizing b with
  | zero => rfl
  | succ k ih =>
    have rest := ih (b + w) fun n => g n.succ
    simp only [List.finRange_succ, List.map_cons, List.map_map, placed] at rest ⊢
    simp only [Function.comp_def, rest, Fin.val_zero, Fin.val_succ, Nat.mul_zero, Nat.add_zero, Nat.mul_succ, Nat.add_assoc,
      Nat.add_comm w]

theorem placed_range (b w k : Nat) (g : Nat → Nat) : placed b ((List.range k).map fun n => (w, g n)) =
    (List.range k).map fun n => (b + w * n, w, g n) := by
  simpa [← List.map_coe_finRange_eq_range, Function.comp_def] using placed_finRange b w k fun n => g n

theorem zeroBytes_eq (n : Nat) : zeroBytes n = leBytes n 0 := by
  induction n with
  | zero => rfl
  | succ n ih => exact congrArg (0 :: ·) ih

theorem fillTo_bytesOf (n : Nat) (fs : List (Nat × Nat)) : fillTo n (bytesOf fs) = bytesOf (fs ++ [(n - widthOf fs, 0)]) := by
  rw [fillTo, bytesOf_length, zeroBytes_eq, bytesOf_append]
  simp

theorem bytesOf_zeros (w : Nat) (f : Nat → Nat) (k : Nat) (zero : ∀ i, f i = 0) :
    bytesOf ((List.range k).map fun i => (w, f i)) = zeroBytes (w * k) := by
  induction k with
  | zero => rfl
  | succ k ih =>
    rw [List.range_succ, List.map_append, bytesOf_append, ih, List.map_singleton, bytesOf_cons, zero, ← zeroBytes_eq]
    simp [zeroBytes, Nat.mul_succ]

/-- A table shown place by place, the places behind it filled with zeros. -/
theorem fillTo_table {α : Type} (w k : Nat) (g : α → Nat) (l : List α) (h : l.length ≤ k) :
    fillTo (w * k) (l.flatMap fun x => leBytes w (g x)) = bytesOf ((List.range k).map fun i => (w, (l[i]?.map g).getD 0)) := by
  induction l generalizing k with
  | nil => exact (bytesOf_zeros w _ k fun i => by simp).symm
  | cons x l ih =>
    obtain ⟨k, rfl⟩ : ∃ n, k = n + 1 := ⟨k - 1, by simp at h; omega⟩
    have rest := ih k (by simpa using h)
    simp only [fillTo, List.length_flatMap, leBytes_length, List.map_const', List.sum_replicate_nat] at rest ⊢
    rw [List.range_succ_eq_map, List.map_cons, bytesOf_cons, List.map_map, List.flatMap_cons, List.append_assoc]
    refine congrArg₂ (· ++ ·) rfl ?_
    rw [show w * (k + 1) - (x :: l).length * w = w * k - l.length * w by
      rw [List.length_cons, Nat.mul_succ, Nat.succ_mul]; omega, rest]
    rfl

/-! ## The sections as fields (11.2) -/

/-- A flag as its field shows it. -/
def flagNumber (b : Bool) : Nat := if b then 1 else 0

theorem flagByte_eq (b : Bool) : flagByte b = leBytes 1 (flagNumber b) := by cases b <;> rfl

/-- One place of the pending-write list: its entry, or nothing (R124). -/
def entryFields : Option Entry → List (Nat × Nat)
  | some e => [(4, e.block), (2, e.count), (1, e.source.code), (1, 1)]
  | none => [(8, 0)]

theorem entryBytes_eq (e : Option Entry) : entryBytes e = bytesOf (entryFields e) := by
  cases e with
  | none => exact (zeroBytes_eq 8).trans (List.append_nil _).symm
  | some e =>
    simp only [entryBytes, entryFields, bytesOf_cons, bytesOf_nil, List.append_assoc]
    rfl

theorem entryFields_width (e : Option Entry) : widthOf (entryFields e) = 8 := by cases e <;> rfl

section
variable (s : State)

/-- 0x108: the exchange section. -/
def State.exchangeFields : List (Nat × Nat) :=
  [(8, s.time.toNat), (1, s.xchg.state.code), (1, s.xchg.check.code), (2, s.xchg.cause.toNat), (4, s.xchg.depth),
    (4, s.xchg.recErrors.toNat), (4, 0)]

/-- 0x120: the motion section. -/
def State.motionFields : List (Nat × Nat) :=
  [(1, s.motion.port.code), (1, s.motion.restarts), (1, flagNumber !s.motion.armed), (1, flagNumber s.path.recentred),
    (4, s.motion.losses.toNat), (4, s.motion.samples.toNat), (4, s.motion.gaps.toNat), (4, s.motion.clipped.toNat),
    (4, s.motion.shockPeak), (8, s.motion.shockTime.toNat), (2, s.path.accrued.toNat), (1, s.path.frames.length), (1, 0),
    (4, s.path.counter.toNat), (4, s.path.overrun.toNat), (4, s.path.stray.toNat), (4, s.path.unpublished.toNat),
    (4, s.path.forced.toNat), (8, 0)]

/-- 0x160: the route table. -/
def State.routeFields : List (Nat × Nat) := allSinks.map fun k => (2, (s.router.routes.of k).toNat)

/-- 0x184: the lines' suppressed counts. -/
def State.lineFields : List (Nat × Nat) := (List.finRange 4).map fun n => (4, (s.router.lines.get n).suppressed.toNat)

/-- 0x194: the timers that run. -/
def State.runningFields : List (Nat × Nat) := (List.finRange 4).map fun n => (1, flagNumber (s.router.timers.get n).next.isSome)

/-- 0x198: the time left to each timer's expiry. -/
def State.leftFields : List (Nat × Nat) := (List.finRange 4).map fun n => (4, remaining s.time (s.router.timers.get n).next)

/-- One bit for each of four. -/
def bitsNumber (b : Fin 4 → Bool) : Nat := flagNumber (b 0) + 2 * flagNumber (b 1) + 4 * flagNumber (b 2) + 8 * flagNumber (b 3)

theorem fourBits_map {α : Type} (f : α → Bool) (v : Four α) : fourBits (v.map f) = bitsNumber fun n => f (v.get n) := by
  have bit (b : Bool) (k : Nat) : (if b then k else 0) = k * flagNumber b := by cases b <;> simp [flagNumber]
  simp only [fourBits, bit, Nat.one_mul]
  rfl

theorem Writer.clipNumber_toNat (w : Writer) : w.clipNumber.toNat = (w.clip.map fun c => c.number.toNat).getD 0 := by
  unfold Writer.clipNumber
  cases w.clip <;> rfl

/-- 0x1A8: the output lines and the masks of the host. -/
def State.outFields : List (Nat × Nat) :=
  [(1, bitsNumber fun n => (s.router.outs.get n).high), (1, bitsNumber fun n => (s.router.outs.get n).hostSet),
    (1, bitsNumber fun n => (s.router.outs.get n).hostClear), (5, 0)]

/-- 0x1B0: the clip and the open segment. -/
def State.clipFields : List (Nat × Nat) :=
  [(1, s.writer.state.code), (1, (s.writer.clip.map fun c => c.streams.toNat).getD 0), (1, flagNumber s.writer.gate),
    (1, flagNumber s.writer.cutRequest), (4, (s.writer.clip.map fun c => c.number.toNat).getD 0),
    (4, (s.store.openSeg.map fun g => g.serial.toNat).getD 0), (2, (s.store.openSeg.map fun g => g.index).getD 0),
    (1, s.writer.queue.length), (1, s.writer.reason.code)]

/-- 0x1C0: the states of the pack buffers. -/
def State.bufFields : List (Nat × Nat) := (List.finRange 4).map fun n => (1, (s.writer.bufs.get n).st.code)

/-- 0x1C4: the bytes in the pack buffers. -/
def State.fillFields : List (Nat × Nat) := (List.finRange 4).map fun n => (4, (s.writer.bufs.get n).fill)

/-- 0x1D4: the assembler's counts. -/
def State.countFields : List (Nat × Nat) :=
  [(4, s.writer.placed.main.toNat), (4, s.writer.placed.proxy.toNat), (4, s.writer.placed.audio.toNat),
    (4, s.writer.placed.motion.toNat), (4, s.writer.placed.marker.toNat), (4, s.writer.placed.filler.toNat),
    (4, s.writer.chunksDropped.toNat), (4, s.writer.motionDropped.toNat), (4, s.writer.markersDropped.toNat)]

/-- 0x1F8: the card port. -/
def State.portFields : List (Nat × Nat) :=
  [(1, s.card.state.code), (1, flagNumber s.card.attaching), (1, s.card.attachResult.code),
    (1, match s.card.raw with
      | some j => if j.isWrite then 2 else 1
      | none => 0), (4, s.card.capacity)]

/-- 0x200: the pending-write list. -/
def State.writeFields : List (Nat × Nat) :=
  entryFields s.card.list[0]? ++ entryFields s.card.list[1]? ++ entryFields s.card.list[2]?

/-- 0x218: the grace and the card's counts. -/
def State.graceFields : List (Nat × Nat) :=
  [(4, remaining s.time s.card.grace), (4, s.card.accepted.toNat), (4, s.card.writeErrors.toNat), (4, s.card.timeouts.toNat),
    (4, s.card.removals.toNat)]

/-- 0x22C: the storage map. -/
def State.mapFields : List (Nat × Nat) :=
  [(1, s.store.pool.length), (1, s.store.protectedCount), (1, s.store.queue.length),
    (1, (s.store.waiting.map fun w => w.producer.bit).sum), (4, s.store.freePacks),
    (4, (s.store.pool.head?.map fun e => e.first).getD 0), (4, (s.store.pool.head?.map fun e => e.count).getD 0),
    (4, s.store.lost.toNat), (8, (s.store.protectUntil.map fun t => t.toNat).getD 0)]

/-- 0x248: the serials of the segment table. -/
def State.serialFields : List (Nat × Nat) := (List.range 16).map fun i => (4, (s.store.table[i]?.map fun g => g.serial.toNat).getD 0)

/-- 0x288: the states of the segment table. -/
def State.shownFields : List (Nat × Nat) := (List.range 16).map fun i => (1, (s.store.table[i]?.map Seg.shownCode).getD 0)

/-- 0x2B0: the charger section. -/
def State.chargerFields : List (Nat × Nat) :=
  [(2, s.charger.meas.vbat.toNat), (2, s.charger.meas.ibat.toNat), (2, s.charger.meas.vin.toNat), (2, s.charger.meas.iin.toNat),
    (2, s.charger.meas.temp.toNat), (2, s.charger.meas.die.toNat), (1, s.charger.state.code), (1, s.charger.state.reasonCode),
    (1, s.charger.band.code), (1, flagNumber s.charger.dieCap), (2, s.charger.iinLimit), (2, s.charger.terms.lp),
    (2, s.charger.terms.lc), (2, s.charger.terms.lcard), (2, s.charger.droop), (2, s.charger.terms.available),
    (4, s.charger.terms.budget), (2, s.charger.terms.phaseLimit), (2, s.charger.terms.cap), (2, s.charger.veff),
    (2, s.charger.terms.computed), (2, s.charger.driven), (1, s.charger.term), (1, flagNumber s.charger.hold),
    (1, flagNumber s.charger.hostPause), (3, 0), (4, s.charger.prechargeUs / 1000000), (4, s.charger.fastUs / 1000000), (8, 0)]

/-- 0x2F0: the supply section. -/
def State.supplyFields : List (Nat × Nat) :=
  [(1, flagNumber s.supply.inSw), (1, flagNumber s.supply.batSw), (1, s.supply.mode.code), (1, flagNumber s.supply.present),
    (1, flagNumber s.supply.supplied), (1, s.supply.loadClass), (1, flagNumber s.supply.lowBattery), (1, s.supply.lowRun),
    (1, s.supply.highRun), (1, flagNumber !s.supply.shutArmed), (1, s.supply.deepRun), (1, s.supply.rearmRun),
    (1, flagNumber s.supply.dieHot), (1, s.supply.power.code), (1, flagNumber s.supply.hostPower), (1, s.supply.wake.code),
    (4, s.supply.switchFails.toNat), (12, 0)]

theorem State.exchangeSection_eq : s.exchangeSection = bytesOf s.exchangeFields := by
  simp [State.exchangeSection, State.exchangeFields, fillTo, zeroBytes_eq, leWord, leBytes_length]

theorem State.motionSection_eq : s.motionSection = bytesOf s.motionFields := by
  simp [State.motionSection, State.motionFields, fillTo, zeroBytes_eq, flagByte_eq, leWord, leBytes_length]

theorem State.routerSection_eq : s.routerSection =
    bytesOf (s.routeFields ++ s.lineFields ++ s.runningFields ++ s.leftFields ++ s.outFields) := by
  simp [State.routerSection, State.routeFields, State.lineFields, State.runningFields, State.leftFields, State.outFields,
    fillTo, zeroBytes_eq, flagByte_eq, leWord, leBytes_length, allSinks, Four.toList, List.finRange_succ, Four.get, fourBits_map]

theorem State.assemblerBytes_eq : s.assemblerBytes = bytesOf (s.clipFields ++ s.bufFields ++ s.fillFields ++ s.countFields) := by
  simp [State.assemblerBytes, State.clipFields, State.bufFields, State.fillFields, State.countFields, flagByte_eq, leWord,
    Writer.clipNumber_toNat, fourBytes, sixBytes, Four.toList, Four.map, Six.toList, List.finRange_succ, Four.get]

theorem State.cardBytes_eq : s.cardBytes = bytesOf (s.portFields ++ s.writeFields ++ s.graceFields) := by
  simp [State.cardBytes, State.portFields, State.writeFields, State.graceFields, flagByte_eq, leWord, bytesOf_append, entryBytes_eq]
  cases s.card.raw <;> rfl

theorem State.storeBytes_eq (h : s.store.table.length ≤ 16) :
    s.storeBytes = bytesOf (s.mapFields ++ s.serialFields ++ s.shownFields) := by
  have serials := fillTo_table 4 16 (fun g => g.serial.toNat) s.store.table h
  have shown := fillTo_table 1 16 Seg.shownCode s.store.table h
  have until_ : optTime s.store.protectUntil = leBytes 8 ((s.store.protectUntil.map fun t => t.toNat).getD 0) := by
    cases s.store.protectUntil <;> rfl
  have absent : zeroBytes 8 = leBytes 4 0 ++ leBytes 4 0 := rfl
  simp only [State.storeBytes, leWord] at serials shown ⊢
  rw [serials, shown, until_]
  simp only [State.mapFields, State.serialFields, State.shownFields, bytesOf_append]
  cases s.store.pool.head? with
  | none => simp [absent]
  | some e => simp

theorem State.chargerSection_eq : s.chargerSection = bytesOf s.chargerFields := by
  simp [State.chargerSection, State.chargerFields, fillTo, zeroBytes_eq, flagByte_eq, leWord, leBytes_length]

theorem State.supplySection_eq : s.supplySection = bytesOf s.supplyFields := by
  simp [State.supplySection, State.supplyFields, fillTo, zeroBytes_eq, flagByte_eq, leWord, leBytes_length]

/-- Every field from 0x108 up to 0x3FF. -/
def State.fields : List (Nat × Nat) :=
  s.exchangeFields ++ s.motionFields ++ (s.routeFields ++ s.lineFields ++ s.runningFields ++ s.leftFields ++ s.outFields)
  ++ ((s.clipFields ++ s.bufFields ++ s.fillFields ++ s.countFields) ++ (s.portFields ++ s.writeFields ++ s.graceFields)
    ++ (s.mapFields ++ s.serialFields ++ s.shownFields) ++ [(24, 0)])
  ++ s.chargerFields ++ s.supplyFields ++ [(240, 0)]

/-! ### The widths -/

@[simp] theorem State.widthOf_exchangeFields : widthOf s.exchangeFields = 24 := by simp [widthOf, State.exchangeFields]
@[simp] theorem State.widthOf_motionFields : widthOf s.motionFields = 64 := by simp [widthOf, State.motionFields]
@[simp] theorem State.widthOf_routeFields : widthOf s.routeFields = 36 := by simp [widthOf, State.routeFields, allSinks]
@[simp] theorem State.widthOf_lineFields : widthOf s.lineFields = 16 := by simp [widthOf, State.lineFields, Function.comp_def]
@[simp] theorem State.widthOf_runningFields : widthOf s.runningFields = 4 := by simp [widthOf, State.runningFields, Function.comp_def]
@[simp] theorem State.widthOf_leftFields : widthOf s.leftFields = 16 := by simp [widthOf, State.leftFields, Function.comp_def]
@[simp] theorem State.widthOf_outFields : widthOf s.outFields = 8 := by simp [widthOf, State.outFields]
@[simp] theorem State.widthOf_clipFields : widthOf s.clipFields = 16 := by simp [widthOf, State.clipFields]
@[simp] theorem State.widthOf_bufFields : widthOf s.bufFields = 4 := by simp [widthOf, State.bufFields, Function.comp_def]
@[simp] theorem State.widthOf_fillFields : widthOf s.fillFields = 16 := by simp [widthOf, State.fillFields, Function.comp_def]
@[simp] theorem State.widthOf_countFields : widthOf s.countFields = 36 := by simp [widthOf, State.countFields]
@[simp] theorem State.widthOf_portFields : widthOf s.portFields = 8 := by simp [widthOf, State.portFields]
@[simp] theorem State.widthOf_graceFields : widthOf s.graceFields = 20 := by simp [widthOf, State.graceFields]
@[simp] theorem State.widthOf_mapFields : widthOf s.mapFields = 28 := by simp [widthOf, State.mapFields]
@[simp] theorem State.widthOf_serialFields : widthOf s.serialFields = 64 := by simp [widthOf, State.serialFields, Function.comp_def]
@[simp] theorem State.widthOf_shownFields : widthOf s.shownFields = 16 := by simp [widthOf, State.shownFields, Function.comp_def]
@[simp] theorem State.widthOf_chargerFields : widthOf s.chargerFields = 64 := by simp [widthOf, State.chargerFields]
@[simp] theorem State.widthOf_supplyFields : widthOf s.supplyFields = 32 := by simp [widthOf, State.supplyFields]

@[simp] theorem State.widthOf_writeFields : widthOf s.writeFields = 24 := by
  simp [State.writeFields, widthOf_append, entryFields_width]

theorem State.sections_eq (h : s.store.table.length ≤ 16) : s.sections = bytesOf s.fields := by
  have width : widthOf ((s.clipFields ++ s.bufFields ++ s.fillFields ++ s.countFields)
      ++ (s.portFields ++ s.writeFields ++ s.graceFields) ++ (s.mapFields ++ s.serialFields ++ s.shownFields)) = 232 := by
    simp [widthOf_append]
  have writer := fillTo_bytesOf 256 ((s.clipFields ++ s.bufFields ++ s.fillFields ++ s.countFields)
    ++ (s.portFields ++ s.writeFields ++ s.graceFields) ++ (s.mapFields ++ s.serialFields ++ s.shownFields))
  rw [width, bytesOf_append, bytesOf_append] at writer
  simp only [State.sections, State.writerSection, s.exchangeSection_eq, s.motionSection_eq, s.routerSection_eq,
    s.assemblerBytes_eq, s.cardBytes_eq, s.storeBytes_eq h, s.chargerSection_eq, s.supplySection_eq, zeroBytes_eq 240, writer]
  simp only [State.fields, bytesOf_append, bytesOf_cons, bytesOf_nil, List.append_nil]

/-- The fields of 0x108 to 0x3FF at their places. -/
theorem State.placed_fields : placed 0x108 s.fields =
    placed 0x108 s.exchangeFields ++ placed 0x120 s.motionFields ++ placed 0x160 s.routeFields ++ placed 0x184 s.lineFields
    ++ placed 0x194 s.runningFields ++ placed 0x198 s.leftFields ++ placed 0x1A8 s.outFields ++ placed 0x1B0 s.clipFields
    ++ placed 0x1C0 s.bufFields ++ placed 0x1C4 s.fillFields ++ placed 0x1D4 s.countFields ++ placed 0x1F8 s.portFields
    ++ placed 0x200 s.writeFields ++ placed 0x218 s.graceFields ++ placed 0x22C s.mapFields ++ placed 0x248 s.serialFields
    ++ placed 0x288 s.shownFields ++ [(0x298, 24, 0)] ++ placed 0x2B0 s.chargerFields ++ placed 0x2F0 s.supplyFields
    ++ [(0x310, 240, 0)] := by
  simp [State.fields, placed_append, placed]

theorem State.sections_length (h : s.store.table.length ≤ 16) : s.sections.length = 760 := by
  rw [s.sections_eq h, bytesOf_length]
  simp [State.fields, widthOf_append]

/-- A field of the status block reads its value at its place (11.2). -/
def State.Shows (s : State) (f : Nat × Nat × Nat) : Prop :=
  leNat ((s.sections.drop (f.1 - 0x108)).take f.2.1) = f.2.2 % 256 ^ f.2.1

/-- Every placed field is shown. -/
theorem State.shows_placed (h : s.store.table.length ≤ 16) : ∀ f ∈ placed 0x108 s.fields, s.Shows f := by
  intro f mem
  obtain ⟨-, -, read⟩ := placed_read 0x108 s.fields [] f mem
  rwa [List.append_nil, ← s.sections_eq h] at read

end

end Sys2Proof.Machine
end

section
/-! SUPPORT. What a refresh lays into host memory and what is read from it (R92, R193). -/

namespace Sys2Proof.Machine

/-- Bytes read from the middle of a longer run of bytes. -/
theorem memBytes_inner {m : Mem} {a len k n : Nat} {l : List Byte} (bytes : memBytes m a len = l) (inside : k + n ≤ len) :
    memBytes m (a + k) n = (l.drop k).take n := by
  obtain ⟨rest, rfl⟩ := Nat.exists_eq_add_of_le inside
  rw [← bytes, memBytes_add, memBytes_add, List.append_assoc, List.drop_left' (memBytes_length m a k),
    List.take_left' (memBytes_length m (a + k) n)]

/-- What a refresh writes at the status block: the count made odd with the reserved bytes, the sections, the count made even. -/
def AnchorCopy.refreshWrites (c : AnchorCopy) (count : Word) (sections : List Byte) : List (Nat × List Byte) :=
  [(c.base + 0x100, leWord 4 (count + 1) ++ zeroBytes 4), (c.base + 0x108, sections), (c.base + 0x100, leWord 4 (count + 2))]

theorem AnchorCopy.refreshWrites_eq (c : AnchorCopy) (count : Word) (sections : List Byte) :
    c.refreshWrites count sections =
    [(c.base + 0x100, leWord 4 (count + 1) ++ zeroBytes 4), (c.base + 0x108, sections), (c.base + 0x100, leWord 4 (count + 2))] :=
  rfl

section
variable {s : State} {c : AnchorCopy} (known : s.xchg.anchor = some c) (live : s.xchg.state.live = true)
include known live

theorem State.refresh_live : s.refresh = s.onXchg fun x =>
    { x.laid (c.refreshWrites x.refreshCount s.sections) with refreshCount := x.refreshCount + 2 } := by
  simp only [State.refresh, known, live]
  rfl

theorem State.refresh_mem : s.refresh.xchg.mem = memLaid s.xchg.mem (c.refreshWrites s.xchg.refreshCount s.sections) := by
  rw [State.refresh_live known live]
  rfl

theorem State.refresh_count : s.refresh.xchg.refreshCount = s.xchg.refreshCount + 2 := by
  rw [State.refresh_live known live]
  rfl

variable (hm : memWf s.xchg.mem = true)
include hm

/-- The sections stand behind the count and the reserved bytes. -/
theorem State.refresh_sections : memBytes s.refresh.xchg.mem (c.base + 0x108) s.sections.length = s.sections := by
  rw [State.refresh_mem known live]
  refine memBytes_laid hm 1 rfl ?_
  simp [AnchorCopy.refreshWrites, leWord, leBytes_length]

/-- A field of the sections is read at its place. -/
theorem State.refresh_field {k n : Nat} (inside : k + n ≤ s.sections.length) :
    memNat s.refresh.xchg.mem (c.base + 0x108 + k) n = leNat ((s.sections.drop k).take n) := by
  rw [memNat, memBytes_inner (State.refresh_sections known live hm) inside]

theorem State.refresh_byte {k : Nat} (inside : k < s.sections.length) :
    memByte s.refresh.xchg.mem (c.base + 0x108 + k) = s.sections.getD k 0 := by
  have one := memBytes_inner (State.refresh_sections known live hm) (k := k) (n := 1) inside
  rw [List.take_one_drop_eq_of_lt_length inside] at one
  simpa [memBytes, inside] using one

theorem State.refresh_countShown : memNat s.refresh.xchg.mem (c.base + 0x100) 4 = (s.xchg.refreshCount + 2).toNat := by
  rw [State.refresh_mem known live,
    memNat_laid (n := 4) (x := (s.xchg.refreshCount + 2).toNat) hm 2 rfl (by simp [AnchorCopy.refreshWrites])]
  exact Nat.mod_eq_of_lt (s.xchg.refreshCount + 2).isLt

/-- The reserved bytes behind the count are 0 (R193). -/
theorem State.refresh_reserved : memNat s.refresh.xchg.mem (c.base + 0x104) 4 = 0 := by
  have head : memBytes (memLaid s.xchg.mem [(c.base + 0x100, leWord 4 (s.xchg.refreshCount + 1) ++ zeroBytes 4)]) (c.base + 0x100)
      (leWord 4 (s.xchg.refreshCount + 1) ++ zeroBytes 4).length = leWord 4 (s.xchg.refreshCount + 1) ++ zeroBytes 4 :=
    memBytes_laid hm 0 rfl (by simp)
  have zeros := memBytes_inner head (k := 4) (n := 4) (by simp [leWord, leBytes_length, zeroBytes])
  have later : memBytes s.refresh.xchg.mem (c.base + 0x104) 4
      = memBytes (memLaid s.xchg.mem [(c.base + 0x100, leWord 4 (s.xchg.refreshCount + 1) ++ zeroBytes 4)]) (c.base + 0x100 + 4) 4 := by
    rw [State.refresh_mem known live, AnchorCopy.refreshWrites_eq, ← List.singleton_append, memLaid_append]
    exact memBytes_laid_other (memWf_laid hm) (by simp [leWord, leBytes_length])
  rw [memNat, later, zeros, leWord, List.drop_left' (leBytes_length _ _)]
  rfl

/-- Every byte before the count and behind the sections stays. -/
theorem State.refresh_other {b : Nat} (apart : b < c.base + 0x100 ∨ c.base + 0x108 + s.sections.length ≤ b) :
    memByte s.refresh.xchg.mem b = memByte s.xchg.mem b := by
  rw [State.refresh_mem known live]
  refine memByte_laid_other hm ?_
  simp [AnchorCopy.refreshWrites, leWord, leBytes_length, zeroBytes]
  omega

/-- A field of the exchange or the motion section is read from host memory, whatever the segment table holds. -/
theorem State.refresh_early : ∀ f ∈ placed 0x108 (s.exchangeFields ++ s.motionFields),
    memNat s.refresh.xchg.mem (c.base + f.1) f.2.1 = f.2.2 % 256 ^ f.2.1 := by
  intro f mem
  have whole : s.sections = bytesOf (s.exchangeFields ++ s.motionFields)
      ++ (s.routerSection ++ s.writerSection ++ s.chargerSection ++ s.supplySection ++ zeroBytes 240) := by
    simp only [State.sections, bytesOf_append, s.exchangeSection_eq, s.motionSection_eq, List.append_assoc]
  obtain ⟨behind, inside, read⟩ := placed_read 0x108 (s.exchangeFields ++ s.motionFields) _ f mem
  rw [← whole] at read
  have long : (f.1 - 0x108) + f.2.1 ≤ s.sections.length := by
    rw [whole, List.length_append, bytesOf_length]
    omega
  have place : c.base + f.1 = c.base + 0x108 + (f.1 - 0x108) := by omega
  rw [place, State.refresh_field known live hm long, read]

end

theorem State.refresh_dead {s : State} (h : s.xchg.state.live = false) : s.refresh = s := by
  unfold State.refresh
  cases s.xchg.anchor <;> simp [h]

/-- A refresh changes host memory and its count alone. -/
theorem State.refresh_eq (s : State) : s.refresh =
    { s with xchg := { s.xchg with mem := s.refresh.xchg.mem, refreshCount := s.refresh.xchg.refreshCount } } := by
  cases live : s.xchg.state.live with
  | false => rw [State.refresh_dead live]
  | true =>
    cases known : s.xchg.anchor with
    | none => rw [show s.refresh = s by rw [State.refresh, known]]
    | some c =>
      rw [State.refresh_live known live]
      rfl

@[simp] theorem State.refresh_path (s : State) : s.refresh.path = s.path := by rw [State.refresh_eq]

end Sys2Proof.Machine
end

section
/-! SUPPORT. The status block settled field by field (O13). -/

namespace Sys2Proof.Machine

/-- The bytes that fields with their offsets take. -/
def placedWidth (fs : List (Nat × Nat × Nat)) : Nat := (fs.map fun f => f.2.1).sum

theorem placedWidth_append (fs gs : List (Nat × Nat × Nat)) : placedWidth (fs ++ gs) = placedWidth fs + placedWidth gs := by
  simp [placedWidth]

theorem placedWidth_flatMap {α : Type} (w : Nat) (g : α → List (Nat × Nat × Nat)) (l : List α)
    (same : ∀ i, placedWidth (g i) = w) : placedWidth (l.flatMap g) = l.length * w := by
  induction l with
  | nil => simp [placedWidth]
  | cons i l ih => rw [List.flatMap_cons, placedWidth_append, ih, same, List.length_cons, Nat.succ_mul, Nat.add_comm]

section
variable (s : State) (h : s.store.table.length ≤ 16)
include h

/-- What the placed fields of a group show. -/
theorem State.shows_group : (∀ f ∈ placed 0x108 s.exchangeFields, s.Shows f) ∧ (∀ f ∈ placed 0x120 s.motionFields, s.Shows f)
    ∧ (∀ f ∈ placed 0x160 s.routeFields, s.Shows f) ∧ (∀ f ∈ placed 0x184 s.lineFields, s.Shows f)
    ∧ (∀ f ∈ placed 0x194 s.runningFields, s.Shows f) ∧ (∀ f ∈ placed 0x198 s.leftFields, s.Shows f)
    ∧ (∀ f ∈ placed 0x1A8 s.outFields, s.Shows f) ∧ (∀ f ∈ placed 0x1B0 s.clipFields, s.Shows f)
    ∧ (∀ f ∈ placed 0x1C0 s.bufFields, s.Shows f) ∧ (∀ f ∈ placed 0x1C4 s.fillFields, s.Shows f)
    ∧ (∀ f ∈ placed 0x1D4 s.countFields, s.Shows f) ∧ (∀ f ∈ placed 0x1F8 s.portFields, s.Shows f)
    ∧ (∀ f ∈ placed 0x200 s.writeFields, s.Shows f) ∧ (∀ f ∈ placed 0x218 s.graceFields, s.Shows f)
    ∧ (∀ f ∈ placed 0x22C s.mapFields, s.Shows f) ∧ (∀ f ∈ placed 0x248 s.serialFields, s.Shows f)
    ∧ (∀ f ∈ placed 0x288 s.shownFields, s.Shows f) ∧ s.Shows (0x298, 24, 0)
    ∧ (∀ f ∈ placed 0x2B0 s.chargerFields, s.Shows f) ∧ (∀ f ∈ placed 0x2F0 s.supplyFields, s.Shows f)
    ∧ s.Shows (0x310, 240, 0) := by
  have shows := s.shows_placed h
  simp only [s.placed_fields, List.forall_mem_append, List.forall_mem_singleton, and_assoc] at shows
  exact shows

/-- What a line, a timer and a pack buffer of one number show. -/
theorem State.shows_numbered (n : Fin 4) :
    s.Shows (0x184 + 4 * n.val, 4, (s.router.lines.get n).suppressed.toNat)
    ∧ s.Shows (0x194 + n.val, 1, flagNumber (s.router.timers.get n).next.isSome)
    ∧ s.Shows (0x198 + 4 * n.val, 4, remaining s.time (s.router.timers.get n).next)
    ∧ s.Shows (0x1C0 + n.val, 1, (s.writer.bufs.get n).st.code) ∧ s.Shows (0x1C4 + 4 * n.val, 4, (s.writer.bufs.get n).fill) := by
  obtain ⟨-, -, -, lines, running, left, -, -, bufs, fills, -⟩ := s.shows_group h
  simp only [State.lineFields, State.runningFields, State.leftFields, State.bufFields, State.fillFields, placed_finRange,
    List.forall_mem_map, Nat.one_mul] at lines running left bufs fills
  have mem := List.mem_finRange n
  exact ⟨lines n mem, running n mem, left n mem, bufs n mem, fills n mem⟩

/-- What a place of the pending-write list shows. -/
theorem State.shows_entry {i : Nat} (place : i < 3) : ∀ f ∈ placed (0x200 + 8 * i) (entryFields s.card.list[i]?), s.Shows f := by
  obtain ⟨-, -, -, -, -, -, -, -, -, -, -, -, writes, -⟩ := s.shows_group h
  simp only [State.writeFields, placed_append, List.forall_mem_append, widthOf_append, entryFields_width] at writes
  obtain ⟨⟨first, second⟩, third⟩ := writes
  obtain rfl | rfl | rfl : i = 0 ∨ i = 1 ∨ i = 2 := by omega
  exacts [first, second, third]

/-- What a place of the segment table shows. -/
theorem State.shows_segment {i : Nat} (place : i < 16) :
    s.Shows (0x248 + 4 * i, 4, (s.store.table[i]?.map fun g => g.serial.toNat).getD 0)
    ∧ s.Shows (0x288 + i, 1, (s.store.table[i]?.map Seg.shownCode).getD 0) := by
  obtain ⟨-, -, -, -, -, -, -, -, -, -, -, -, -, -, -, serials, shown, -⟩ := s.shows_group h
  simp only [State.serialFields, State.shownFields, placed_range, List.forall_mem_map, Nat.one_mul] at serials shown
  exact ⟨serials i (List.mem_range.2 place), shown i (List.mem_range.2 place)⟩

end

/-- Settles O13: a refresh is three writes, and each section is its fields one behind the other, read back group by group. -/
theorem statusRefreshAndAck : Obligations.StatusRefreshAndAck := by
  refine ⟨⟨?refresh, fun s => State.refresh_dead, ?due⟩, ?ack, ?fields, ?codes⟩
  case refresh =>
    intro s c known live hm t
    refine ⟨State.refresh_count known live, State.refresh_countShown known live hm, fun k => State.refresh_byte known live hm,
      State.refresh_reserved known live hm, fun b => State.refresh_other known live hm, ?_⟩
    exact s.refresh_eq
  case due =>
    intro a s due hs scheduled u
    have next : u.xchg.nextRefresh = some due := scheduled
    have run : exec (.statusRefresh a) s = .next _ := (perform_free hs : execStatusRefresh a s = _)
    refine ⟨fun reached => ?_, fun early => ?_⟩
    · rw [run]
      simp only [show (s.arrive a).xchg.nextRefresh = some due from scheduled, show timeReached (s.arrive a).time due = true from reached]
      rfl
    · rw [run]
      simp only [show (s.arrive a).xchg.nextRefresh = some due from scheduled, show timeReached (s.arrive a).time due = false from early]
      rfl
  case ack =>
    intro a s hs inHand u v
    have body : u.frameBody .control = some .statusAck := inHand
    have run : exec (.statusAck a) s = .next _ := (perform_free hs : execStatusAck a s = _)
    refine ⟨?_, ?_, ?_⟩
    · rw [run]
      simp only [show (s.arrive a).frameBody .control = some .statusAck from inHand]
      rfl
    · exact State.refresh_path _
    · intro c known live hm
      have early := State.refresh_early (s := { u with path := { s.path with accrued := 0, recentred := false } }) known live hm
      refine ⟨State.refresh_count (s := { u with path := { s.path with accrued := 0, recentred := false } }) known live,
        early (0x140, 2, 0) (by simp [placed, State.motionFields, State.exchangeFields]), ?_⟩
      have one := early (0x123, 1, 0) (by simp [placed, State.motionFields, State.exchangeFields, flagNumber])
      rw [memNat_one] at one
      exact BitVec.eq_of_toNat_eq one
  case fields =>
    intro s h
    obtain ⟨exchange, motion, routes, -, -, -, outs, clip, -, -, counts, port, -, grace, map, -, -, gap, charger, supply, rest⟩ :=
      s.shows_group h
    refine ⟨s.sections_length h, ?sum, ?each⟩
    case sum =>
      show placedWidth _ = 760
      simp only [placedWidth_append]
      rw [placedWidth_flatMap 8 _ (List.range 3) ?entry, placedWidth_flatMap 5 _ (List.range 16) ?segment,
        placedWidth_flatMap 14 _ (List.finRange 4) fun n => rfl]
      · simp [placedWidth, Function.comp_def]
      case entry =>
        intro i
        cases s.card.list[i]? <;> rfl
      case segment =>
        intro i
        cases s.store.table[i]? <;> rfl
    case each =>
      simp only [List.forall_mem_append, and_assoc]
      refine ⟨exchange, motion, ?routes, ?four, outs, List.forall_mem_append.2 ⟨clip, counts⟩,
        ?port, ?list, map, ?table, List.forall_mem_singleton.2 gap, charger,
        List.forall_mem_append.2 ⟨supply, List.forall_mem_singleton.2 rest⟩⟩
      case routes => exact routes
      case four =>
        refine List.forall_mem_flatMap.2 fun n _ => ?_
        obtain ⟨line, running, left, buf, fill⟩ := s.shows_numbered h n
        cases known : (s.router.timers.get n).next <;> rw [known] at running left <;> simp only [List.forall_mem_cons] <;>
          exact ⟨line, running, left, buf, fill, by simp⟩
      case port =>
        rw [State.graceFields] at grace
        rw [State.portFields] at port
        cases known : s.card.grace <;> cases raw : s.card.raw <;> rw [known] at grace <;> rw [raw] at port <;>
          exact List.forall_mem_append.2 ⟨port, grace⟩
      case list =>
        refine List.forall_mem_flatMap.2 fun i place => ?_
        have entry := s.shows_entry h (List.mem_range.1 place)
        cases known : s.card.list[i]? <;>
          simp only [known, entryFields, placed, Nat.add_right_comm _ (8 * i), Nat.reduceAdd] at entry <;> exact entry
      case table =>
        refine List.forall_mem_flatMap.2 fun i place => ?_
        obtain ⟨serial, state⟩ := s.shows_segment h (List.mem_range.1 place)
        cases known : s.store.table[i]? <;> rw [known] at serial state <;>
          exact List.forall_mem_cons.2 ⟨serial, List.forall_mem_singleton.2 state⟩
  case codes => exact ⟨fun n p r => rfl, rfl, rfl, rfl, rfl, rfl, rfl, rfl, rfl, rfl, rfl, rfl, rfl, rfl, rfl, rfl, rfl⟩

end Sys2Proof.Machine
end

section
/-! The cause flags and the interrupt messages (O12). -/

namespace Sys2Proof.Machine

section
variable (x : Exchange) (v : Word)

@[simp] theorem Exchange.clearCause_cause : (x.clearCause v).cause = x.cause &&& ~~~(v.setWidth 9) := rfl
@[simp] theorem Exchange.clearCause_state : (x.clearCause v).state = x.state := rfl
@[simp] theorem Exchange.clearCause_none : x.clearCause 0 = x := by
  have kept : x.cause &&& ~~~(BitVec.setWidth 9 (0 : Word)) = x.cause := BitVec.and_allOnes
  rw [Exchange.clearCause, kept]

/-- A write to CAUSE_MASK replaces the mask and sends at most one message. -/
theorem Exchange.writeMask_eq : x.writeMask v = { x with
    mask := v.setWidth 9
    messages := if x.linkUp = true ∧ v.setWidth 9 &&& ~~~x.mask &&& x.cause ≠ 0 then x.messages + 1 else x.messages } := by
  unfold Exchange.writeMask Exchange.message
  simp only [bne_iff_ne, Bool.and_eq_true, And.comm (a := x.linkUp = true)]
  split <;> rfl

theorem Exchange.writeMask_messages : (x.writeMask v).messages =
    if x.linkUp = true ∧ v.setWidth 9 &&& ~~~x.mask &&& x.cause ≠ 0 then x.messages + 1 else x.messages := by
  rw [Exchange.writeMask_eq]

theorem Exchange.writeMask_messages_down (h : x.linkUp = false) : (x.writeMask v).messages = x.messages := by
  simp [Exchange.writeMask_messages, h]

@[simp] theorem Exchange.request_linkUp (f : BitVec 9) : (x.request f).linkUp = x.linkUp := by rw [Exchange.request_eq]

/-- A request of flags that are all set already changes nothing. -/
theorem Exchange.request_set {f : BitVec 9} (h : f &&& ~~~x.cause = 0) : x.request f = x := by
  have kept : x.cause ||| f = x.cause := by
    ext i hi
    have bit : (f &&& ~~~x.cause)[i] = false := by simp [h]
    simp only [BitVec.getElem_and, BitVec.getElem_not, BitVec.getElem_or] at bit ⊢
    cases asked : f[i] <;> simp_all
  unfold Exchange.request Exchange.message
  split
  · simp [h, kept]
  · rfl

end

theorem setWidth_flag (n : Fin 9) : (1#32 <<< n.val).setWidth 9 = 1#9 <<< n.val := by
  revert n
  decide

/-- A flag asked for against no flag and a full view of it is seen. -/
theorem flag_ne_zero (n : Fin 9) : 1#9 <<< n.val &&& ~~~0#9 &&& (1#9 <<< n.val) ≠ 0 := by
  revert n
  decide

/-- Settles O12: requests, host writes and mask writes by their equations, the flags shown by the early fields of a refresh. -/
theorem causeFlagsAndInterruptMessages : Obligations.CauseFlagsAndInterruptMessages := by
  refine ⟨⟨?taken, ?dropped, fun x f => x.request_set, ?write, fun x => x.clearCause_none, fun s => rfl, ?order, ?shown⟩,
    ?messages, ?mask, fun x v => x.writeMask_messages_down v, ?together⟩
  case taken =>
    intro x f live
    exact x.request_cause_live f ((XState.live_iff _).2 live)
  case dropped =>
    intro x f dead
    refine x.request_dead f ?_
    obtain off | bad := dead
    · rw [off]; rfl
    · rw [bad]; rfl
  case write =>
    intro a s v hs
    exact ⟨true, (perform_free hs : execCauseWrite a v s = _)⟩
  case order =>
    intro x n v live written
    have taken (y : Exchange) (state : y.state = x.state) : (y.request (1#9 <<< n.val)).cause = y.cause ||| 1#9 <<< n.val :=
      y.request_cause_live _ ((XState.live_iff _).2 (by rwa [state]))
    have bit : (1#9 <<< n.val).getLsbD n.val = true := by simp
    refine ⟨?cleared, ?stays⟩
    case cleared => simp [taken x rfl, written, n.isLt]
    case stays => rw [taken (x.clearCause v) rfl, BitVec.getLsbD_or, bit, Bool.or_true]
  case shown =>
    intro s c known live hm
    have shown := State.refresh_early known live hm (0x112, 2, s.xchg.cause.toNat)
      (by simp [placed, State.exchangeFields])
    rw [shown]
    exact Nat.mod_eq_of_lt (Nat.lt_trans s.xchg.cause.isLt (Nat.pow_lt_pow_right (by decide) (by decide) : 2 ^ 9 < 2 ^ 16))
  case messages =>
    intro x f live
    exact x.request_messages_live f ((XState.live_iff _).2 live)
  case mask =>
    intro a s v hs
    refine (perform_free hs : execCauseMaskWrite a v s = _).trans ?_
    simp only [Exchange.writeMask_eq, State.linkSeen, State.onXchg, true_and]
    rfl
  case together =>
    intro x n live up clear noMask
    have hl := (XState.live_iff _).2 live
    have clear : x.cause = 0#9 := clear
    refine ⟨?maskLast, ?flagLast⟩
    case maskLast =>
      have silent : (x.request (1#9 <<< n.val)).messages = x.messages := by
        rw [x.request_messages_live _ hl, noMask]
        simp
      rw [Exchange.writeMask_messages, setWidth_flag, Exchange.request_linkUp, Exchange.request_mask, x.request_cause_live _ hl,
        clear, noMask, silent, BitVec.zero_or]
      exact if_pos ⟨up, flag_ne_zero n⟩
    case flagLast =>
      have silent : (x.writeMask (1#32 <<< n.val)).messages = x.messages := by simp [Exchange.writeMask_messages, clear]
      rw [Exchange.request_messages_live (x.writeMask (1#32 <<< n.val)) _ ((Exchange.writeMask_eq x _).symm ▸ hl), silent,
        Exchange.writeMask_eq, setWidth_flag, clear]
      exact if_pos ⟨up, flag_ne_zero n⟩

end Sys2Proof.Machine
end

section
/-! SUPPORT. A lane's look for its next frame, said once (R83, R86, R88), and the settlements that rest on it (O8, O10). -/

namespace Sys2Proof.Machine

section
variable {x : Exchange} {gate : Bool} {l : Lane} (now : Time)

/-- When a lane may look for a frame. -/
theorem Exchange.mayLook_iff : x.mayLook gate l = true ↔
    x.state = .running ∧ x.hand l = none ∧ x.holds l = false ∧ (l = .chunk → gate = true) := by
  simp only [Exchange.mayLook, Bool.and_eq_true, beq_iff_eq, Option.isNone_iff_eq_none, Bool.not_eq_true', Bool.or_eq_true,
    bne_iff_ne, and_assoc]
  cases gate <;> simp [imp_false]

/-- The lane standing at another place of its chain. -/
def Exchange.standing (x : Exchange) (l : Lane) (p : Place) : Exchange := x.setLane l { (x.lane l) with place := p }

section
variable (x l) (p : Place)

theorem Exchange.standing_eq : x.standing l p = x.setLane l { (x.lane l) with place := p } := rfl

@[simp] theorem Exchange.standing_place : ((x.standing l p).lane l).place = p := by simp [Exchange.standing_eq]
@[simp] theorem Exchange.standing_badReads : (x.standing l p).badReads = x.badReads := Exchange.setLane_badReads _ _ _
@[simp] theorem Exchange.standing_mem : (x.standing l p).mem = x.mem := Exchange.setLane_mem _ _ _

theorem Exchange.standing_mayLook : (x.standing l p).mayLook gate l = x.mayLook gate l := by cases l <;> rfl

theorem Exchange.standing_headAt (addr : Nat) : (x.standing l p).headAt l addr = x.headAt l addr := by cases l <;> rfl

theorem Exchange.standing_putAnchor (o : Nat) (b : List Byte) :
    (x.standing l p).putAnchor o b = (x.putAnchor o b).standing l p := by
  unfold Exchange.putAnchor
  rw [show (x.standing l p).anchor = x.anchor from x.setLane_anchor l _]
  cases x.anchor with
  | none => rfl
  | some c => cases l <;> rfl

theorem Exchange.standing_markTaken (addr : Nat) (again : Bool) :
    (x.standing l p).markTaken l addr again = (x.markTaken l addr again).standing l p := by
  have marked : (x.standing l p).markTaken l addr again =
      ((((x.put (addr + 14) (leBytes 2 1)).setLane l { (x.lane l) with taken := (x.lane l).countTaken again }).standing l p).putAnchor
        (descOffset l + 12) (leWord 4 ((x.lane l).countTaken again))).putAnchor (descOffset l + 10)
          (leBytes 1 LaneState.running.code) := by
    cases l <;> rfl
  rw [marked, Exchange.standing_putAnchor, Exchange.standing_putAnchor]
  rfl

theorem Exchange.standing_complete (f : HeldFrame) (st : Status) (r : Result) (v : Nat) :
    (x.standing l p).complete l f st r v = x.complete l f st r v := by
  cases l <;> rfl

theorem Exchange.standing_frameFault (f : HeldFrame) (r : FrameReason) :
    (x.standing l p).frameFault now l .frame f r = x.frameFault now l .frame f r := by
  cases l <;> rfl

end

/-- A frame taken leaves no trace of where the lane stood. -/
theorem Exchange.standing_takeFrame (p : Place) (addr : Nat) (again : Bool) :
    (x.standing l p).takeFrame now l addr again = x.takeFrame now l addr again := by
  cases head : readsOk x.badReads addr headFields with
  | false =>
    have still : readsOk (x.standing l p).badReads addr headFields = false := by simpa using head
    by_cases recovery : l = .recovery
    · subst recovery
      rw [Exchange.takeFrame_unread_recovery _ _ _ _ still, Exchange.takeFrame_unread_recovery _ _ _ _ head]
      rfl
    · rw [Exchange.takeFrame_unread _ _ _ _ _ still recovery, Exchange.takeFrame_unread _ _ _ _ _ head recovery,
        Exchange.standing_frameFault]
      cases l <;> rfl
  | true =>
    have still : readsOk (x.standing l p).badReads addr headFields = true := by simpa using head
    have same := x.standing_headAt l p addr
    cases format : formatOf (x.headAt l addr).code with
    | none =>
      have unknown : formatOf ((x.standing l p).headAt l addr).code = none := by rw [same, format]
      by_cases recovery : l = .recovery
      · subst recovery
        rw [Exchange.takeFrame_unknown_recovery _ _ still unknown, Exchange.takeFrame_unknown_recovery _ _ head format,
          Exchange.standing_markTaken, Exchange.standing_complete, same]
      · rw [Exchange.takeFrame_unknown _ _ still unknown recovery, Exchange.takeFrame_unknown _ _ head format recovery,
          Exchange.standing_markTaken, Exchange.standing_frameFault, same]
    | some fmt =>
      have known : formatOf ((x.standing l p).headAt l addr).code = some fmt := by rw [same, format]
      by_cases own : fmt.lane = l
      · cases body : readsOk x.badReads addr (fmt.bodyFields (x.headAt l addr).form) with
        | false =>
          rw [Exchange.takeFrame_bodyUnread _ _ still known own (by simpa [same] using body),
            Exchange.takeFrame_bodyUnread _ _ head format own body, Exchange.standing_markTaken, Exchange.standing_frameFault, same]
        | true =>
          rw [Exchange.takeFrame_taken _ _ still known own (by simpa [same] using body),
            Exchange.takeFrame_taken _ _ head format own body, Exchange.standing_markTaken, same]
          cases l <;> rfl
      · rw [Exchange.takeFrame_wrongLane _ _ still known own, Exchange.takeFrame_wrongLane _ _ head format own,
          Exchange.standing_markTaken, Exchange.standing_complete, same]

/-- A lane that may not look stays as it is. -/
theorem Exchange.follow_stuck (n : Nat) (h : x.mayLook gate l = false) : x.follow gate now l n = x := by
  cases n with
  | zero => rfl
  | succ n => simp [Exchange.follow, Exchange.laneMove, h]

section
variable (h : x.mayLook gate l = true) (n : Nat)
include h

theorem Exchange.follow_nowhere (place : (x.lane l).place = .nowhere) : x.follow gate now l n = x := by
  cases n with
  | zero => rfl
  | succ n => simp [Exchange.follow, Exchange.laneMove, h, place]

/-- A lane before a frame takes it. -/
theorem Exchange.laneMove_take {a : Nat} (place : (x.lane l).place = .take a) :
    x.laneMove gate now l = (x.takeFrame now l a false, ((x.takeFrame now l a false).lane l).place != .take a) := by
  simp [Exchange.laneMove, h, place]

/-- A lane goes on behind a frame that it has taken, unless it stands before the same frame again. -/
theorem Exchange.follow_take {a : Nat} (place : (x.lane l).place = .take a) :
    x.follow gate now l (n + 1) = if ((x.takeFrame now l a false).lane l).place = .take a then x.takeFrame now l a false
      else (x.takeFrame now l a false).follow gate now l n := by
  rw [Exchange.follow, Exchange.laneMove_take now h place]
  by_cases same : ((x.takeFrame now l a false).lane l).place = .take a <;> simp [same]

section
variable {at_ : Nat} {form : Form} {code : BitVec 16} {tag : BitVec 16} (place : (x.lane l).place = .link at_ form code tag)
include place

theorem Exchange.follow_unreadLink (bad : readOk x.badReads at_ form.addressBytes = false) :
    x.follow gate now l (n + 1) = x.linkFault now l { address := at_, form, notify := false, code, tag } := by
  simp [Exchange.follow, Exchange.laneMove, h, place, bad]

variable (read : readOk x.badReads at_ form.addressBytes = true)
include read

theorem Exchange.follow_noLink (none : linkAddress (memNat x.mem at_ form.addressBytes) = 0) : x.follow gate now l (n + 1) = x := by
  simp [Exchange.follow, Exchange.laneMove, h, place, read, none]

theorem Exchange.follow_link (some : linkAddress (memNat x.mem at_ form.addressBytes) ≠ 0) :
    x.follow gate now l (n + 1) = (x.setLane l { (x.lane l) with
      place := .take (linkAddress (memNat x.mem at_ form.addressBytes)) }).follow gate now l n := by
  simp [Exchange.follow, Exchange.laneMove, h, place, read, some]

end

end

end

/-! ## The entry into RUNNING with its first refresh (R81, O8) -/

/-- The state of the exchange that a part with a good anchor has after the first refresh. -/
theorem State.entry_values (s : State) (now : Time) (c : AnchorCopy) :
    let v := State.refresh { s with xchg := s.xchg.enterRunning now c }
    v.xchg.state = .running ∧ v.xchg.stack = [] ∧ (∀ l, v.xchg.lane l = c.freshLane l) ∧ v.xchg.anchor = some c
    ∧ v.xchg.starting = none ∧ v.xchg.check = .none ∧ v.xchg.nextRefresh = some (timeAfter now Config.refreshPeriod) := by
  obtain ⟨consumed, readCopy, made⟩ := s.xchg.enterRunning_values now c
  intro v
  have same : v = _ := State.refresh_eq { s with xchg := s.xchg.enterRunning now c }
  rw [made] at same
  rw [same]
  exact ⟨rfl, rfl, fun l => by cases l <;> rfl, rfl, rfl, rfl, rfl⟩

/-- Settles O8: the values at the entry stand through the refresh, the lanes' looks and the coming to rest. -/
theorem anchorReadEndsTheCheck : Obligations.AnchorReadEndsTheCheck := by
  intro a s base hs reading u
  have run : exec (.anchorReadComplete a) s = .next _ := (perform_free hs : execAnchorReadComplete a s = _)
  refine ⟨fun c failed => ?bad, fun c passed => ?good⟩
  case bad =>
    rw [run]
    simp only [show (s.arrive a).xchg.starting = some base from reading,
      show checkAnchor (s.arrive a).xchg.mem (s.arrive a).xchg.badReads base = .inl c from failed]
    rfl
  case good =>
    let v := State.refresh { u with xchg := u.xchg.enterRunning u.time c }
    have ends : exec (.anchorReadComplete a) s = .next v.lookAll.rest := by
      rw [run]
      simp only [show (s.arrive a).xchg.starting = some base from reading,
        show checkAnchor (s.arrive a).xchg.mem (s.arrive a).xchg.badReads base = .inr c from passed]
      rfl
    have same : v = _ := State.refresh_eq { u with xchg := u.xchg.enterRunning u.time c }
    obtain ⟨running, stack, lanes, anchor, starting, check, next⟩ := u.entry_values u.time c
    have kept : Kept v v.lookAll.rest := ((Kept.refl v).onXchg (Exchange.kept_lookAll _ _ _ _)).rest
    have time : v.lookAll.rest.time = u.time := kept.time.trans (State.kept_refresh _).time
    have motion : v.lookAll.rest.motion = u.motion := kept.motion.trans (State.kept_refresh _).motion
    refine ⟨v.lookAll.rest, ends, kept.xchg.anchor.trans anchor, kept.xchg.starting.trans starting, kept.xchg.check.trans check,
      kept.xchg.nextRefresh.trans next, time, motion, v, rfl, running, stack, fun l => ?hand, fun l gate => ?first, ?looks⟩
    case hand => rw [lanes]; rfl
    case first =>
      have hand : v.xchg.hand l = none := by
        rw [Exchange.hand, lanes]
        rfl
      have may : v.xchg.mayLook s.writer.gate l = true :=
        Exchange.mayLook_iff.2 ⟨running, hand, by rw [Exchange.holds, stack]; rfl, gate⟩
      rw [Exchange.laneMove_take v.time may (a := (c.desc l).first) (by rw [lanes]; rfl)]
    case looks =>
      rw [same]
      rfl

/-! ## NUDGE, SCAN_TICK and a lane's look (O10) -/

theorem State.poll_running {s : State} (h : s.xchg.state = .running) :
    s.poll = s.onXchg fun x => x.readCounts.lookAll s.writer.gate s.time s.laneOrder := by
  unfold State.poll State.onXchg Exchange.poll
  dsimp only
  rw [if_pos h]

theorem State.poll_off {s : State} (h : s.xchg.state ≠ .running) : s.poll = s := by
  unfold State.poll State.onXchg Exchange.poll
  dsimp only
  rw [if_neg h]

theorem linkAddress_eq (word : Nat) : linkAddress word = word - word % 64 := by
  unfold linkAddress
  omega

section
variable {x : Exchange} {gate : Bool} {l : Lane} {a : Nat} (now : Time) (n : Nat)

/-- What follows a frame that a lane takes: nothing where it may not go on, else its way along the chain (R88). -/
theorem Exchange.follow_taken (may : x.mayLook gate l = true) (place : (x.lane l).place = .take a) :
    let y := x.takeFrame now l a false
    ((y.hand l ≠ none ∨ y.holds l = true ∨ y.state ≠ .running ∨ (y.lane l).place = .take a) → x.follow gate now l (n + 1) = y)
    ∧ ((y.lane l).place ≠ .take a → x.follow gate now l (n + 1) = y.follow gate now l n) := by
  intro y
  have move := Exchange.follow_take now may n place
  refine ⟨fun ends => ?_, fun on => move.trans (if_neg on)⟩
  rw [move]
  split
  · rfl
  next on =>
    refine Exchange.follow_stuck now n (Bool.eq_false_iff.2 fun may => ?_)
    obtain ⟨running, empty, free, -⟩ := Exchange.mayLook_iff.1 may
    obtain hand | held | state | same := ends
    · exact hand empty
    · exact absurd held (by rw [free]; decide)
    · exact state running
    · exact on same

end

/-- Settles O10: the commands poll by their equations, and a lane's look is its first move. -/
theorem nudgeAndScanTick : Obligations.NudgeAndScanTick := by
  refine ⟨?nudge, ?tick, ?look⟩
  case nudge =>
    intro a s i v hs which u
    have run : exec i s = .next u.linkSeen.poll.rest := by
      obtain rfl | rfl := which
      · exact (perform_free hs : execNudge a s = _)
      · exact (perform_free hs : execRegisterWrite a 0x0C 4 v s = _)
    refine ⟨fun running => ?_, fun other => ?_, fun x c known => ?_⟩
    · rw [run, State.poll_running (s := u.linkSeen) running]
      rfl
    · rw [run, State.poll_off (s := u.linkSeen) other]
      rfl
    · simp only [Exchange.readCounts, known, Bool.and_eq_true]
  case tick =>
    intro a s due c hs scheduled known u
    have run : exec (.scanTick a) s = .next _ := (perform_free hs : execScanTick a s = _)
    simp only [show (s.arrive a).xchg.nextScan = some due from scheduled, show (s.arrive a).xchg.anchor = some c from known] at run
    refine ⟨fun reached running => ?_, fun early => ?_⟩
    · rw [run, if_pos reached, State.poll_running
        (s := u.onXchg fun x => { x with nextScan := some (timeAfter due c.scanPeriod) }) running]
      rfl
    · rw [run, if_neg (by rw [early]; decide)]
  case look =>
    intro x gate now l looks able takes
    have may (h : able) : x.mayLook gate l = true := Exchange.mayLook_iff.2 h
    have moves : 2 * x.chainLength = (2 * x.chainLength - 1) + 1 := by
      have : 64 ≤ x.chainLength := Nat.le_add_left _ _
      omega
    refine ⟨fun unable => ?stuck, fun h => Exchange.follow_nowhere now (may h) _, fun at_ h place => ?take,
      fun at_ form code tag h place => ?link⟩
    case stuck => exact Exchange.follow_stuck now _ (Bool.eq_false_iff.2 fun h => unable (Exchange.mayLook_iff.1 h))
    case take =>
      have step := Exchange.follow_taken now (2 * x.chainLength - 1) (may h) place
      rw [← moves] at step
      exact step
    case link =>
      intro width word
      have bytes : form.addressBytes = width := by cases form <;> rfl
      refine ⟨fun bad => ?unread, fun read => ⟨fun zero => ?none, fun some => ?some⟩⟩
      case unread =>
        have fault := Exchange.follow_unreadLink now (may h) (2 * x.chainLength - 1) place (by rw [bytes]; exact bad)
        rw [← moves] at fault
        exact ⟨fun recovery => fault.trans (if_pos recovery), fun other => fault.trans (if_neg other)⟩
      case none =>
        have none := Exchange.follow_noLink now (may h) (2 * x.chainLength - 1) place (by rw [bytes]; exact read)
          (by rw [bytes]; exact Nat.div_eq_of_lt zero ▸ Nat.zero_mul 64)
        rw [← moves] at none
        exact none
      case some =>
        have goes := Exchange.follow_link now (may h) (2 * x.chainLength - 1) place (by rw [bytes]; exact read)
          (by
            rw [bytes]
            unfold linkAddress
            have : 64 ≤ word := some
            omega)
        have first := linkAddress_eq word
        rw [← moves, bytes, show linkAddress (memNat x.mem at_ width) = word - word % 64 from first, ← Exchange.standing_eq,
          show 2 * x.chainLength - 1 = (2 * x.chainLength - 2) + 1 by
            have : 64 ≤ x.chainLength := Nat.le_add_left _ _
            omega] at goes
        have step := Exchange.follow_taken now (2 * x.chainLength - 2) ((x.standing_mayLook l _).trans (may h))
          (x.standing_place l (.take (word - word % 64)))
        rw [Exchange.standing_takeFrame, ← goes] at step
        exact step

end Sys2Proof.Machine
end

section
/-! Frame commands without their frame (O21). -/

namespace Sys2Proof.Machine

/-- Settles O21: every frame command does its work under a match on the frame of its own format. -/
theorem frameCommandsNeedTheirFrame : Obligations.FrameCommandsNeedTheirFrame := by
  intro a s hs idle control recovery
  refine ⟨?_, ?_, ?_, ?_, ?_, ?_, ?_, ?_, ?_, ?_, ?_, ?_, ?_, ?_, ?_, ?_, ?_, ?_, ?_, ?_, ?_, ?_, ?_, ?chunk⟩
  case chunk =>
    intro empty
    refine (perform_free hs : execChunk a s = _).trans ?_
    have none : (s.arrive a).xchg.hand .chunk = none := empty
    simp only [none]
  all_goals
    intro strange
    change exec _ s = .next (s.arrive a)
    simp only [exec, execMotionSetup, execReference, execExposure, execStatusAck, execRoute, execLineSetup, execTimerSetup,
      execOutputWrite, execClipOpen, execClipClose, execCardAttach, execCardRead, execCardWrite, execExtentAdd, execExtentWithdraw,
      execProtect, execChargeSetup, execInputLimit, execLoadClass, execPathSet, execPowerState, execResume, execAbandon,
      perform_free hs]
    split
    next body => exact (strange _ body (by simp)).elim
    next => rfl

end Sys2Proof.Machine
end

section
/-! A link reset block by block (O5). -/

namespace Sys2Proof.Machine

/-! ## The router (R76) -/

section
variable (r : Router) (n : Fin 4)

theorem Router.afterReset_line : (r.afterReset false).lines.get n = { r.lines.get n with
    rise := true, fall := true, holdoff := 0, lastRise := none, lastFall := none, suppressed := 0 } := Four.get_map _ _ _

theorem Router.afterReset_timer : (r.afterReset false).timers.get n = { period := 1000000, periodic := false, next := none } :=
  Four.get_all _ _

theorem Router.afterReset_out : (r.afterReset false).outs.get n = { high := false, hostSet := false, hostClear := false } :=
  Four.get_all _ _

end

/-! ## The writer (R121) -/

section
variable (w : Writer) (flying : Option Source)

/-- Every row of the writer but its buffers is at reset. -/
theorem Writer.afterReset_eq : w.afterReset flying =
    { Writer.reset with bufs := (w.afterReset flying).bufs, tail := (w.afterReset flying).tail } := by
  unfold Writer.afterReset
  split <;> rfl

theorem Writer.afterReset_idle : (w.afterReset flying).state = .idle ∧ (w.afterReset flying).gate = true
    ∧ (w.afterReset flying).queue = [] ∧ (w.afterReset flying).job = none ∧ (w.afterReset flying).cut = none := by
  rw [Writer.afterReset_eq]
  exact ⟨rfl, rfl, rfl, rfl, rfl⟩

theorem Writer.afterReset_rows : (w.afterReset flying).clip = none ∧ (w.afterReset flying).reason = .none
    ∧ (w.afterReset flying).cutRequest = false ∧ (w.afterReset flying).seqs = .all 0 ∧ (w.afterReset flying).placed = .all 0
    ∧ (w.afterReset flying).chunksDropped = 0 ∧ (w.afterReset flying).motionDropped = 0 ∧ (w.afterReset flying).markersDropped = 0
    ∧ (w.afterReset flying).feed = [] ∧ (w.afterReset flying).seg = none
    ∧ (w.afterReset flying).repeats = { main := none, proxy := none, audio := none } := by
  rw [Writer.afterReset_eq]
  exact ⟨rfl, rfl, rfl, rfl, rfl, rfl, rfl, rfl, rfl, rfl, rfl⟩

/-- A pack buffer stays as it is while its write is in flight, and is EMPTY otherwise. -/
theorem Writer.afterReset_buf (i : Fin 4) : (w.afterReset flying).bufs.get i =
    if flying = some (.buf i) then w.bufs.get i else { st := .empty, fill := 0, pos := none, data := [] } := by
  match flying with
  | some (.buf j) =>
    refine (Four.get_set _ _ _ _).trans ?_
    by_cases same : i = j
    · simp [same]
    · simp only [same, if_false, Four.get_all, Option.some.injEq, Source.buf.injEq, Ne.symm same]
      rfl
  | some .tail => exact Four.get_all _ _
  | none => exact Four.get_all _ _

theorem Writer.afterReset_tail : (w.afterReset flying).tail =
    if flying = some .tail then w.tail else { st := .empty, pos := 0, serial := 0, data := [] } := by
  match flying with
  | some (.buf j) => rfl
  | some .tail => rfl
  | none => rfl

end

/-! ## The motion front end (R19) -/

/-- The front end at its reset values, the port and what R19 keeps with it as they were. -/
def Motion.resetAround (inParked : Bool) (m : Motion) : Motion :=
  { Motion.reset with port := m.port, imuPower := m.imuPower, restarts := m.restarts, parked := inParked, runEntry := m.runEntry }

section
variable {m : Motion} (now : Time) (inParked : Bool)

/-- A port that is OFF or FAILED stays so. -/
theorem Motion.linkReset_unpowered (h : m.port = .off ∨ m.port = .failed) : m.linkReset now inParked = m.resetAround inParked := by
  unfold Motion.linkReset
  split
  case h_4 => rfl
  case h_5 => rfl
  all_goals next powered => exact absurd h (by simp [powered])

/-- A powered port settles again. -/
theorem Motion.linkReset_powered (h : ¬(m.port = .off ∨ m.port = .failed)) :
    m.linkReset now inParked = { (m.resetAround inParked).enterStarting now with restarts := 0 } := by
  unfold Motion.linkReset
  split
  case h_4 off => exact absurd (.inl off) h
  case h_5 failed => exact absurd (.inr failed) h
  all_goals rfl

/-- The front end after a link reset: everything at reset but what follows the port. -/
theorem Motion.linkReset_shape : ∃ port imuPower restarts settleEnd,
    m.linkReset now inParked =
      { Motion.reset with port, imuPower, restarts, settleEnd, parked := inParked, runEntry := m.runEntry }
    ∧ if m.port = .off ∨ m.port = .failed then
        port = m.port ∧ restarts = m.restarts ∧ imuPower = m.imuPower ∧ settleEnd = none
      else port = .starting ∧ restarts = 0 ∧ imuPower = true ∧ settleEnd = some (now + 50000) := by
  by_cases unpowered : m.port = .off ∨ m.port = .failed
  · exact ⟨_, _, _, _, Motion.linkReset_unpowered now inParked unpowered, by rw [if_pos unpowered]; exact ⟨rfl, rfl, rfl, rfl⟩⟩
  · exact ⟨_, _, _, _, Motion.linkReset_powered now inParked unpowered, by rw [if_neg unpowered]; exact ⟨rfl, rfl, rfl, rfl⟩⟩

end

/-- Settles O5: the two commands are the same reset of a part whose link is seen up or down, and each block's reset is its own lemma. -/
theorem linkResetClearsTheEngineAndBlocks : Obligations.LinkResetClearsTheEngineAndBlocks := by
  refine ⟨fun a s hs away => ⟨?down, fun fresh entered => ?races⟩, fun a s i hs which => ?resets⟩
  case down =>
    refine (perform_free hs : execLinkDown a s = _).trans ?_
    rw [if_neg (show (s.arrive a).supply.power ≠ .active from away)]
    rfl
  case races =>
    refine (perform_free hs : execLinkReset a false s = _).trans ?_
    have races : (s.arrive a).linkSeen.entryRaces = true := by
      have due : (s.arrive a).linkSeen.supply.entered = some (s.arrive a).linkSeen.time := entered
      simp only [State.entryRaces, due, show (s.arrive a).linkSeen.supply.wake = .none from fresh]
      simpa using (show (s.arrive a).linkSeen.supply.power ≠ .active from away)
    simp only [State.linkResetByHost, races]
    rfl
  case resets =>
    obtain ⟨up, run⟩ : ∃ up, exec i s = .next ((State.linkReset false { s.arrive a with
        xchg := { (s.arrive a).xchg with linkUp := up } }).onSupply fun u => { u with cause := .link }) := by
      obtain ⟨rfl, applies⟩ | ⟨rfl, active⟩ := which
      · refine ⟨true, (perform_free hs : execLinkReset a false s = _).trans ?_⟩
        have alone : (s.arrive a).linkSeen.entryRaces = false := by
          refine Bool.eq_false_iff.2 fun races => ?_
          simp only [State.entryRaces, Bool.and_eq_true, bne_iff_ne, beq_iff_eq] at races
          obtain ⟨⟨away, fresh⟩, entered⟩ := races
          obtain active | woken | earlier := applies
          · exact away active
          · exact woken fresh
          · exact earlier entered
        rw [State.linkResetByHost_applied alone]
        rfl
      · refine ⟨false, (perform_free hs : execLinkDown a s = _).trans ?_⟩
        rw [if_pos (show (s.arrive a).supply.power = .active from active)]
        exact congrArg Host.Outcome.next (State.linkResetByHost_applied (State.entryRaces_of_active active))
    refine ⟨_, run, rfl, ⟨rfl, rfl, rfl, rfl, rfl, rfl, rfl, rfl, rfl, rfl, rfl, rfl, rfl, rfl, rfl, rfl, rfl, rfl, rfl, rfl⟩,
      rfl, rfl, ⟨rfl, rfl, fun n => ⟨?high, ?level⟩⟩,
      fun n => ⟨s.router.afterReset_line n, s.router.afterReset_timer n, s.router.afterReset_out n⟩, ?idle, ?rows,
      ⟨rfl, rfl, rfl, rfl, rfl, rfl, rfl⟩, ⟨rfl, rfl, rfl, rfl, rfl, rfl, rfl, rfl⟩, ?front, ?settings, rfl, rfl⟩
    case high => exact congrArg OutLine.high (s.router.afterReset_out n)
    case level =>
      have level := congrArg InLine.level (s.router.afterReset_line n)
      exact level
    case idle => exact s.writer.afterReset_idle _
    case rows =>
      intro flying
      obtain ⟨clip, reason, cut, seqs, placed, chunks, motion, markers, feed, seg, repeats⟩ := s.writer.afterReset_rows flying
      exact ⟨s.writer.afterReset_eq flying, clip, reason, cut, seqs, placed, chunks, motion, markers, feed, seg, repeats,
        s.writer.afterReset_buf flying, s.writer.afterReset_tail flying, rfl⟩
    case front =>
      obtain ⟨port, imuPower, restarts, settleEnd, shape, which⟩ :=
        Motion.linkReset_shape (m := s.motion) (s.arrive a).time (s.supply.power == .parked)
      refine ⟨congrArg Motion.ring shape, congrArg Motion.samples shape, congrArg Motion.rate shape, congrArg Motion.dps2000 shape,
        congrArg Motion.armed shape, congrArg Motion.prev shape, congrArg Motion.reading shape, congrArg Motion.waiting shape, ?_⟩
      split at which
      next unpowered =>
        obtain ⟨rfl, rfl, rfl, rfl⟩ := which
        exact (if_pos unpowered).mpr ⟨(congrArg Motion.port shape :), (congrArg Motion.restarts shape :)⟩
      next powered =>
        obtain ⟨rfl, rfl, rfl, rfl⟩ := which
        exact (if_neg powered).mpr ⟨(congrArg Motion.port shape :), (congrArg Motion.restarts shape :),
          (congrArg Motion.settleEnd shape :)⟩
    case settings =>
      obtain ⟨port, imuPower, restarts, settleEnd, shape, which⟩ :=
        Motion.linkReset_shape (m := s.motion) (s.arrive a).time (s.supply.power == .parked)
      refine ⟨congrArg Motion.average shape, congrArg Motion.gaps shape, congrArg Motion.clipped shape, congrArg Motion.losses shape,
        congrArg Motion.quiet shape, congrArg Motion.shockTime shape, congrArg Motion.shockPeak shape, congrArg Motion.shockHigh shape,
        congrArg Motion.quietLow shape, congrArg Motion.q shape, congrArg Motion.offEnd shape, congrArg Motion.lossDeadline shape,
        (congrArg Motion.runEntry shape :), ?_, ?_⟩
      · have parked := congrArg Motion.parked shape
        exact (Bool.eq_iff_iff.1 parked).trans beq_iff_eq
      split at which
      next unpowered =>
        obtain ⟨rfl, rfl, rfl, rfl⟩ := which
        exact (if_pos unpowered).mpr ⟨(congrArg Motion.imuPower shape :), (congrArg Motion.settleEnd shape :)⟩
      next powered =>
        obtain ⟨rfl, rfl, rfl, rfl⟩ := which
        exact (if_neg powered).mpr (congrArg Motion.imuPower shape :)

end Sys2Proof.Machine
end

section
/-! RESUME on the top record (O18). -/

namespace Sys2Proof.Machine

/-- A finish on an exchange that is not RUNNING empties the hand and writes nothing (R95). -/
theorem State.finish_off {s : State} (l : Lane) (st : Status) (r : Result) (v : Nat) (h : s.xchg.state ≠ .running) :
    s.finish l st r v = s.onXchg fun x => x.setLane l { (x.lane l) with hand := none } :=
  congrArg (fun y => ({ s with xchg := y } : State)) (finishWritesTheFrame.2.1 s.xchg s.writer.gate s.time l st r v h).1

section
variable {a : Ambient} {s : State} (hs : s.supply.held = false) (body : s.frameBody .recovery = some .resume)
include hs body

theorem exec_resume : exec (.resume a) s = .next (s.arrive a).resumeTop.rest := by
  have inHand : (s.arrive a).frameBody .recovery = some .resume := body
  refine (perform_free hs : execResume a s = _).trans ?_
  rw [inHand]

theorem exec_resume_running (running : s.xchg.state = .running) : exec (.resume a) s = .next (s.arrive a).resumeRecord.rest := by
  rw [exec_resume hs body, State.resumeTop, if_pos (show (s.arrive a).xchg.state = .running from running)]

theorem exec_resume_off (off : s.xchg.state ≠ .running) : exec (.resume a) s = .next (State.rest { s.arrive a with
    xchg := (s.arrive a).xchg.setLane .recovery { s.xchg.recovery with hand := none } }) := by
  rw [exec_resume hs body, State.resumeTop, if_neg (show (s.arrive a).xchg.state ≠ .running from off),
    State.finish_off (s := s.arrive a) _ _ _ _ off]
  rfl

end

/-! ## The top record by its format (R97) -/

section
variable {s : State} {more : List FaultRec}

theorem State.resumeRecord_none (top : s.xchg.stack = []) : s.resumeRecord = s.finish .recovery .refused .nothingPending 0 := by
  rw [State.resumeRecord, top]

theorem State.resumeRecord_record {was3 : Bool} {code : BitVec 16} {depth address : Nat} {t : Time}
    (top : s.xchg.stack = .record was3 code depth address t :: more) :
    s.resumeRecord = s.finish .recovery .refused .notResumable 0 := by
  rw [State.resumeRecord, top]

section
variable {l : Lane} {p : Point} {f : Nat} {code tag : BitVec 16} {e : FrameReason} {t : Time}
  (top : s.xchg.stack = .frame l p f code tag e t :: more)
include top

theorem State.resumeRecord_frame_unread (bad : readOk s.xchg.badReads s.xchg.topAddress 32 = false) :
    s.resumeRecord = s.finish .recovery .refused .fetchError 0 := by
  rw [State.resumeRecord, top]
  exact if_pos (by rw [FaultRec.size, bad]; rfl)

theorem State.resumeRecord_frame (read : readOk s.xchg.badReads s.xchg.topAddress 32 = true) :
    s.resumeRecord = if memBytes s.xchg.mem s.xchg.topAddress 24 = (faultBytes (.frame l p f code tag e t)).take 24 then
      ((s.onXchg fun x => x.popForRetake l p).finish .recovery .done .ok 0).release l else s.badRecord := by
  rw [State.resumeRecord, top]
  refine (if_neg (by rw [FaultRec.size, read]; decide)).trans ?_
  by_cases same : memBytes s.xchg.mem s.xchg.topAddress 24 = (faultBytes (.frame l p f code tag e t)).take 24
  · rw [if_pos same]
    exact if_pos (if_pos (beq_iff_eq.2 same))
  · rw [if_neg same]
    exact if_neg (by rw [checkRecord, if_neg (by rwa [beq_iff_eq])]; exact Checked.noConfusion)

end

section
variable {e : CardOutcome} {block : Nat} {serial clip : Word} {es : List RecEntry} {cont : Continuation} {live : Bool} {t : Time}
  (top : s.xchg.stack = .card e block serial clip es cont live t :: more)
include top

theorem State.resumeRecord_card_unread (bad : readOk s.xchg.badReads s.xchg.topAddress 96 = false) :
    s.resumeRecord = s.finish .recovery .refused .fetchError 0 := by
  rw [State.resumeRecord, top]
  exact if_pos (by rw [FaultRec.size, bad]; rfl)

variable (read : readOk s.xchg.badReads s.xchg.topAddress 96 = true)
include read

theorem State.resumeRecord_superseded (superseded : live = false) :
    s.resumeRecord = (s.onXchg Exchange.pop).finish .recovery .done .superseded 0 := by
  rw [State.resumeRecord, top]
  exact (if_neg (by rw [FaultRec.size, read]; decide)).trans (if_pos (by rw [superseded]; rfl))

end

end

/-- A record other than format 3 that cannot be read (R97). -/
theorem State.resumeRecord_unread {s : State} {r : FaultRec} {more : List FaultRec} (top : s.xchg.stack = r :: more)
    (resumable : ∀ was3 code depth address t, r ≠ .record was3 code depth address t)
    (bad : readOk s.xchg.badReads s.xchg.topAddress r.size = false) : s.resumeRecord = s.finish .recovery .refused .fetchError 0 := by
  cases r with
  | frame => exact State.resumeRecord_frame_unread top bad
  | card => exact State.resumeRecord_card_unread top bad
  | record => exact absurd rfl (resumable _ _ _ _ _)

/-- Settles O18, by the format of the top record. -/
theorem resumeTakesTheTopRecord : Obligations.ResumeTakesTheTopRecord := by
  intro a s hs body u top
  refine ⟨fun off => exec_resume_off hs body off, fun running => ?_⟩
  rw [exec_resume_running hs body running]
  refine ⟨fun none => ?_, fun _ _ _ _ _ more record => ?_, fun r more record resumable bad => ?_,
    fun _ _ _ _ _ _ _ more record read => ?_, fun l p f code tag e t more record read => ⟨fun same => ?_, fun changed => ?_⟩⟩
  · rw [State.resumeRecord_none (s := s.arrive a) none]
  · rw [State.resumeRecord_record (s := s.arrive a) record]
  · rw [State.resumeRecord_unread (s := s.arrive a) record resumable bad]
  · rw [State.resumeRecord_superseded (s := s.arrive a) record read rfl]
  · rw [State.resumeRecord_frame (s := s.arrive a) record read, if_pos same]
  · rw [State.resumeRecord_frame (s := s.arrive a) record read, if_neg changed]
    rfl

end Sys2Proof.Machine
end

section
/-! ABANDON on the top record (O20). -/

namespace Sys2Proof.Machine

section
variable {a : Ambient} {s : State} (hs : s.supply.held = false) (body : s.frameBody .recovery = some .abandon)
include hs body

theorem exec_abandon : exec (.abandon a) s = .next (s.arrive a).abandonTop.rest := by
  have inHand : (s.arrive a).frameBody .recovery = some .abandon := body
  refine (perform_free hs : execAbandon a s = _).trans ?_
  rw [inHand]

theorem exec_abandon_running (running : s.xchg.state = .running) : exec (.abandon a) s = .next (s.arrive a).abandonRecord.rest := by
  rw [exec_abandon hs body, State.abandonTop, if_pos (show (s.arrive a).xchg.state = .running from running)]

theorem exec_abandon_off (off : s.xchg.state ≠ .running) : exec (.abandon a) s = .next (State.rest { s.arrive a with
    xchg := (s.arrive a).xchg.setLane .recovery { s.xchg.recovery with hand := none } }) := by
  rw [exec_abandon hs body, State.abandonTop, if_neg (show (s.arrive a).xchg.state ≠ .running from off),
    State.finish_off (s := s.arrive a) _ _ _ _ off]
  rfl

end

/-! ## The top record by its format (R100) -/

section
variable {s : State} {more : List FaultRec}

theorem State.abandonRecord_none (top : s.xchg.stack = []) : s.abandonRecord = s.finish .recovery .refused .nothingPending 0 := by
  rw [State.abandonRecord, top]

theorem State.abandonRecord_record {was3 : Bool} {code : BitVec 16} {depth address : Nat} {t : Time}
    (top : s.xchg.stack = .record was3 code depth address t :: more) :
    s.abandonRecord = (s.onXchg Exchange.pop).finish .recovery .done .ok 0 := by
  rw [State.abandonRecord, top]

theorem State.abandonRecord_link {l : Lane} {f : Nat} {code tag : BitVec 16} {e : FrameReason} {t : Time}
    (top : s.xchg.stack = .frame l .link f code tag e t :: more) :
    s.abandonRecord = ((s.onXchg Exchange.pop).release l).finish .recovery .done .ok 0 := by
  rw [State.abandonRecord, top]

theorem State.abandonRecord_frame {l : Lane} {f : Nat} {code tag : BitVec 16} {e : FrameReason} {t : Time}
    (top : s.xchg.stack = .frame l .frame f code tag e t :: more) :
    s.abandonRecord = (((((s.onXchg Exchange.pop).onXchg fun x => x.faultHeld l e).dropRepeats l).release l).finish
      .recovery .done .ok 0) := by
  rw [State.abandonRecord, top]

theorem State.abandonRecord_card {e : CardOutcome} {block : Nat} {serial clip : Word} {es : List RecEntry} {cont : Continuation}
    {live : Bool} {t : Time} (top : s.xchg.stack = .card e block serial clip es cont live t :: more) :
    s.abandonRecord = if live then (((s.onXchg Exchange.pop).release .chunk).abandonCard).finish .recovery .done .ok 0
      else (s.onXchg Exchange.pop).finish .recovery .done .superseded 0 := by
  rw [State.abandonRecord, top]

end

/-- A pop changes the stack and host memory alone. -/
theorem Exchange.pop_eq (x : Exchange) : x.pop = { x with stack := x.stack.tail, mem := x.pop.mem } := by
  unfold Exchange.pop Exchange.putAnchor
  cases x.anchor <;> rfl

@[simp] theorem Exchange.pop_state (x : Exchange) : x.pop.state = x.state := by rw [Exchange.pop_eq]
@[simp] theorem Exchange.pop_lane (x : Exchange) (l : Lane) : x.pop.lane l = x.lane l := by
  rw [Exchange.pop_eq]
  cases l <;> rfl

/-- A lane's held frame finished FAULTED with its reason. -/
theorem Exchange.faultHeld_held {x : Exchange} {l : Lane} {h : HeldFrame} (reason : FrameReason) (held : (x.lane l).held = some h)
    (running : x.state = .running) :
    x.faultHeld l reason = (x.setLane l { (x.lane l) with held := none }).complete l h .faulted reason.result 0 := by
  rw [Exchange.faultHeld, held]
  exact if_pos (by simpa using running)

/-! ## A LIVE card record given up (R137) -/

/-- The port's own list settled and the grace stopped. -/
def State.ownSettled (s : State) : State := (s.settleEntries false true s.card.list).onCard fun c => { c with grace := none }

/-- The work asked of the segments for the FILLING buffer is dropped. -/
def Store.unasked (st : Store) (extents : Bool) : Store :=
  let t := st.dropMatters fun m => m.asksPosition || m.replacesFilling
  if extents then t else t.dropOpening

/-- The FILLING buffer given up, with what was asked for it. -/
def State.fillingGivenUp (s : State) (i : Fin 4) : State :=
  { s with
    writer := { s.writer with bufs := s.writer.bufs.set i .empty, cut := s.writer.cut.filter Cut.stays }
    store := if (s.writer.bufs.get i).pos.isSome then
        (s.store.unasked s.writer.extentCut).packDiscarded ((s.writer.seg.map (·.serial)).getD 0)
      else s.store.unasked s.writer.extentCut }

theorem State.abandonCard_idle {s : State} (none : s.ownSettled.writer.filling = none) :
    s.abandonCard = s.ownSettled.closeForCard .settlement := by
  unfold State.abandonCard
  change (match s.ownSettled.writer.filling with
    | .none => s.ownSettled
    | some i => _).closeForCard .settlement = _
  rw [none]

theorem State.abandonCard_filling {s : State} {i : Fin 4} (some : s.ownSettled.writer.filling = some i) :
    s.abandonCard = (s.ownSettled.fillingGivenUp i).closeForCard .settlement := by
  unfold State.abandonCard
  change (match s.ownSettled.writer.filling with
    | .none => s.ownSettled
    | .some i => _).closeForCard .settlement = _
  rw [some]
  rfl

/-- The FILLING buffer given up, the matters that leave told by any tests that agree with the model's. -/
theorem State.fillingGivenUp_eq {asks opens : Matter → Bool} (asked : ∀ m, asks m = (m.asksPosition || m.replacesFilling))
    (opened : ∀ m, opens m = m.opens) (s : State) (i : Fin 4) : s.fillingGivenUp i =
    let t := s.store.dropMatters asks
    let unopened : Store := { t.dropMatters opens with openIncidents := [], openIncidentCount := 0, openMark := none }
    let st := if s.writer.extentCut then t else unopened
    { s with
      writer := { s.writer with
        bufs := s.writer.bufs.set i .empty
        cut := s.writer.cut.filter fun c => c.reason == .extents || c.stage == .waitClose || c.stage == .handTail }
      store := if (s.writer.bufs.get i).pos.isSome then st.packDiscarded ((s.writer.seg.map (·.serial)).getD 0) else st } := by
  obtain rfl : asks = fun m => m.asksPosition || m.replacesFilling := funext asked
  obtain rfl : opens = Matter.opens := funext opened
  rfl

/-- Settles O20, by the format of the top record, a LIVE card record by its settlement and its FILLING buffer. -/
theorem abandonPopsTheTopRecord : Obligations.AbandonPopsTheTopRecord := by
  intro a s hs body u v
  refine ⟨fun off => exec_abandon_off hs body off, fun running => ?_⟩
  rw [exec_abandon_running hs body running]
  refine ⟨fun none => ?_, fun _ _ _ _ _ more record => ?_, fun _ _ _ _ _ _ more record => ?_,
    fun l f code tag e t more h record held => ?held, fun _ _ _ _ _ _ _ more record => ?_, fun _ _ _ _ _ _ _ more record => ?live⟩
  · rw [State.abandonRecord_none (s := s.arrive a) none]
  · rw [State.abandonRecord_record (s := s.arrive a) record]
  · rw [State.abandonRecord_link (s := s.arrive a) record]
  case held =>
    have faulted : v.xchg.faultHeld l e = (v.xchg.setLane l { (v.xchg.lane l) with held := none }).complete l h .faulted e.result 0 :=
      Exchange.faultHeld_held e (by
        rw [show v.xchg.lane l = u.xchg.lane l from Exchange.pop_lane _ _]
        exact held) ((Exchange.pop_state _).trans running)
    have finished : v.onXchg (fun x => x.faultHeld l e) =
        v.onXchg fun x => (x.setLane l { (x.lane l) with held := none }).complete l h .faulted e.result 0 :=
      congrArg (fun y => ({ v with xchg := y } : State)) faulted
    rw [State.abandonRecord_frame (s := s.arrive a) record, show u.onXchg Exchange.pop = v from rfl, finished]
    cases e <;> rfl
  · rw [State.abandonRecord_card (s := s.arrive a) record]
    rfl
  case live =>
    intro r packs first freed settled w given closed
    rw [State.abandonRecord_card (s := s.arrive a) record, if_pos rfl]
    have own : r.ownSettled = settled := by
      rw [State.ownSettled, State.settleEntries_list]
      rfl
    cases filling : settled.writer.filling with
    | none =>
      have kept : given = settled := by simp only [given, w, filling]
      rw [State.abandonCard_idle (s := r) (own ▸ filling), own,
        show closed = settled.startClose .card from congrArg (State.startClose .card) kept]
      rfl
    | some i =>
      have up : given = settled.fillingGivenUp i := by
        simp only [given, w, filling]
        refine (State.fillingGivenUp_eq ?asked ?opened settled i).symm
        case asked =>
          intro m
          cases m <;> rfl
        case opened =>
          intro m
          cases m <;> rfl
      rw [State.abandonCard_filling (s := r) (own ▸ filling), own,
        show closed = (settled.fillingGivenUp i).startClose .card from congrArg (State.startClose .card) up]
      rfl

end Sys2Proof.Machine
end

section
/-! SUPPORT. The check of a LIVE card record as it is read back (R131). -/

namespace Sys2Proof.Machine

/-- Exactly one continuation flag reads set. -/
theorem contOf_iff (b : Byte) (k : Continuation) : contOf b = some k ↔
    (b.getLsbD 0 = true ↔ k = .retry) ∧ (b.getLsbD 1 = true ↔ k = .nextExtent) ∧ (b.getLsbD 2 = true ↔ k = .close) := by
  unfold contOf
  cases b.getLsbD 0 <;> cases b.getLsbD 1 <;> cases b.getLsbD 2 <;> cases k <;> decide

/-- What a place of a card record must read for the record to be good: its entry, with the valid flag at most cleared, or nothing. -/
def EntryReads (m : Mem) (a : Nat) : Option RecEntry → Prop
  | none => memByte m a = 0 ∧ memNat m (a + 1) 1 = 0 ∧ memNat m (a + 4) 4 = 0 ∧ memNat m (a + 8) 4 = 0
  | some e => memNat m (a + 1) 1 = e.source.code ∧ memNat m (a + 4) 4 = e.block ∧ memNat m (a + 8) 4 = e.count
      ∧ (memByte m a ≠ 0 → e.valid = true)

theorem checkEntry_iff (m : Mem) (a : Nat) (e : Option RecEntry) (v : Bool) :
    checkEntry m a e = some v ↔ EntryReads m a e ∧ (memByte m a != 0) = v := by
  have flag : memByte m a = 0 ↔ (memByte m a != 0) = false := by simp
  cases e with
  | none =>
    simp only [checkEntry, EntryReads, flag]
    cases memByte m a != 0 <;> simp [and_assoc]
  | some e =>
    simp only [checkEntry, EntryReads, flag, ne_eq]
    cases memByte m a != 0 <;> simp [and_assoc]

/-- An entry with another valid flag. -/
def RecEntry.flagged (e : RecEntry) (v : Bool) : RecEntry := { e with valid := v }

/-- The entries with the valid flags of their places. -/
theorem flagged_iff {es rs : List RecEntry} (f : Nat → Bool) (short : es.length ≤ 3) :
    (es.zip ((List.range 3).map f)).map (fun q => q.1.flagged q.2) = rs ↔
      rs.length = es.length ∧ ∀ (i : Nat) (x : RecEntry), es[i]? = some x → rs[i]? = some (x.flagged (f i)) := by
  have read (i : Nat) (x : RecEntry) (h : es[i]? = some x) :
      ((es.zip ((List.range 3).map f)).map fun q => q.1.flagged q.2)[i]? = some (x.flagged (f i)) := by
    have place : i < 3 := Nat.lt_of_lt_of_le (List.getElem?_eq_some_iff.1 h).1 short
    have pair : (es.zip ((List.range 3).map f))[i]? = some (x, f i) := by
      rw [List.getElem?_zip_eq_some]
      exact ⟨h, by simp [place]⟩
    rw [List.getElem?_map, pair]
    rfl
  have length : ((es.zip ((List.range 3).map f)).map fun q => q.1.flagged q.2).length = es.length := by
    simpa using short
  constructor
  · rintro rfl
    exact ⟨length, read⟩
  · rintro ⟨same, reads⟩
    refine List.ext_getElem (length.trans same.symm) fun i hi _ => ?_
    have inside : i < es.length := by rwa [length] at hi
    have left := read i _ (List.getElem?_eq_getElem inside)
    have right := reads i _ (List.getElem?_eq_getElem inside)
    rw [List.getElem?_eq_getElem hi] at left
    rw [List.getElem?_eq_getElem (by rwa [same])] at right
    exact Option.some.inj (left.trans right.symm)

section
variable (m : Mem) (p : Nat) {e : CardOutcome} {block : Nat} {serial clip : Word} {es : List RecEntry} {cont : Continuation} {t : Time}

/-- A card record is good by its head, its continuation and its three places. -/
theorem checkRecord_card (rs : List RecEntry) (k : Continuation) :
    checkRecord m p (.card e block serial clip es cont true t) = .cardGood rs k ↔
      (memByte m p = 2 ∧ memBytes m (p + 1) 1 = leBytes 1 e.reasonCode
        ∧ memBytes m (p + 3) 21 = ((faultBytes (.card e block serial clip es cont true t)).drop 3).take 21)
      ∧ contOf (memByte m (p + 2)) = some k
      ∧ (EntryReads m (p + 24) es[0]? ∧ EntryReads m (p + 40) es[1]? ∧ EntryReads m (p + 56) es[2]?)
      ∧ (es.zip ((List.range 3).map fun i => memByte m (p + 24 + 16 * i) != 0)).map (fun q => q.1.flagged q.2) = rs := by
  have second : ((faultBytes (.card e block serial clip es cont true t)).drop 1).take 1 = leBytes 1 e.reasonCode := rfl
  have flags : (List.range 3).map (fun i => memByte m (p + 24 + 16 * i) != 0)
      = [memByte m (p + 24) != 0, memByte m (p + 40) != 0, memByte m (p + 56) != 0] := rfl
  rw [flags]
  constructor
  · intro good
    unfold checkRecord at good
    dsimp only at good
    split at good
    next head =>
      simp only [Bool.and_eq_true, beq_iff_eq, second, and_assoc] at head
      split at good
      next c v0 v1 v2 hc h0 h1 h2 =>
        obtain ⟨reads0, rfl⟩ := (checkEntry_iff _ _ _ _).1 h0
        obtain ⟨reads1, rfl⟩ := (checkEntry_iff _ _ _ _).1 h1
        obtain ⟨reads2, rfl⟩ := (checkEntry_iff _ _ _ _).1 h2
        cases good
        exact ⟨head, hc, ⟨reads0, reads1, reads2⟩, rfl⟩
      next => cases good
    next => cases good
  · rintro ⟨head, hc, ⟨reads0, reads1, reads2⟩, rfl⟩
    unfold checkRecord
    dsimp only
    rw [if_pos (by simpa only [Bool.and_eq_true, beq_iff_eq, second, and_assoc] using head), hc,
      (checkEntry_iff _ _ _ _).2 ⟨reads0, rfl⟩, (checkEntry_iff _ _ _ _).2 ⟨reads1, rfl⟩, (checkEntry_iff _ _ _ _).2 ⟨reads2, rfl⟩]
    rfl

end

theorem CardOutcome.reasonCode_lt (e : CardOutcome) : e.reasonCode < 256 := by cases e <;> decide

/-- One byte read as a number. -/
theorem memBytes_one_iff (m : Mem) (a n : Nat) (small : n < 256) : memBytes m a 1 = leBytes 1 n ↔ memNat m a 1 = n := by
  have bytes : memBytes m a 1 = [memByte m a] := rfl
  have wanted : leBytes 1 n = [BitVec.ofNat 8 n] := by simp [leBytes]
  rw [bytes, wanted, memNat_one, List.cons.injEq]
  simp only [and_true]
  constructor
  · intro same
    rw [same, BitVec.toNat_ofNat, Nat.mod_eq_of_lt small]
  · intro same
    rw [← same, BitVec.ofNat_toNat, BitVec.setWidth_eq]

/-- The three places of a record, told by the entries it has and the places it leaves empty. -/
theorem entryReads_iff (m : Mem) (p : Nat) {es : List RecEntry} (short : es.length ≤ 3) :
    (EntryReads m (p + 24) es[0]? ∧ EntryReads m (p + 40) es[1]? ∧ EntryReads m (p + 56) es[2]?) ↔
      (∀ (i : Nat) (x : RecEntry), es[i]? = some x → EntryReads m (p + 24 + 16 * i) (some x))
      ∧ ∀ i, es.length ≤ i → i < 3 → EntryReads m (p + 24 + 16 * i) none := by
  constructor
  · rintro ⟨first, second, third⟩
    have all (i : Nat) (place : i < 3) : EntryReads m (p + 24 + 16 * i) es[i]? := by
      obtain rfl | rfl | rfl : i = 0 ∨ i = 1 ∨ i = 2 := by omega
      exacts [first, second, third]
    refine ⟨fun i x h => ?_, fun i behind place => ?_⟩
    · rw [← h]
      exact all i (Nat.lt_of_lt_of_le (List.getElem?_eq_some_iff.1 h).1 short)
    · rw [← List.getElem?_eq_none behind]
      exact all i place
  · rintro ⟨entries, empty⟩
    have all (i : Nat) (place : i < 3) : EntryReads m (p + 24 + 16 * i) es[i]? := by
      cases h : es[i]? with
      | none => exact empty i (List.getElem?_eq_none_iff.1 h) place
      | some x => exact entries i x h
    exact ⟨all 0 (by decide), all 1 (by decide), all 2 (by decide)⟩

/-- A card record is good exactly when it reads as R131 lists. -/
theorem checkRecord_good_iff (m : Mem) (p : Nat) (e : CardOutcome) (block : Nat) (serial clip : Word) (es : List RecEntry)
    (cont : Continuation) (t : Time) (rs : List RecEntry) (k : Continuation) (short : es.length ≤ 3) :
    checkRecord m p (.card e block serial clip es cont true t) = .cardGood rs k ↔
      memByte m p = 2 ∧ memNat m (p + 1) 1 = e.reasonCode
      ∧ memBytes m (p + 3) 21 = ((faultBytes (.card e block serial clip es cont true t)).drop 3).take 21
      ∧ ((memByte m (p + 2)).getLsbD 0 = true ↔ k = .retry) ∧ ((memByte m (p + 2)).getLsbD 1 = true ↔ k = .nextExtent)
      ∧ ((memByte m (p + 2)).getLsbD 2 = true ↔ k = .close)
      ∧ (∀ i x, es[i]? = some x →
          memNat m (p + 25 + 16 * i) 1 = x.source.code ∧ memNat m (p + 28 + 16 * i) 4 = x.block
          ∧ memNat m (p + 32 + 16 * i) 4 = x.count ∧ (memByte m (p + 24 + 16 * i) ≠ 0 → x.valid = true)
          ∧ rs[i]? = some { x with valid := memByte m (p + 24 + 16 * i) != 0 })
      ∧ (∀ i, es.length ≤ i → i < 3 → memByte m (p + 24 + 16 * i) = 0 ∧ memNat m (p + 25 + 16 * i) 1 = 0
          ∧ memNat m (p + 28 + 16 * i) 4 = 0 ∧ memNat m (p + 32 + 16 * i) 4 = 0)
      ∧ rs.length = es.length := by
  have source (i : Nat) : p + 24 + 16 * i + 1 = p + 25 + 16 * i := by omega
  have first (i : Nat) : p + 24 + 16 * i + 4 = p + 28 + 16 * i := by omega
  have count (i : Nat) : p + 24 + 16 * i + 8 = p + 32 + 16 * i := by omega
  rw [checkRecord_card, contOf_iff, memBytes_one_iff _ _ _ e.reasonCode_lt, entryReads_iff m p short, flagged_iff _ short]
  simp only [EntryReads, source, first, count]
  constructor
  · rintro ⟨⟨format, reason, head⟩, ⟨retry, next, close⟩, ⟨entries, empty⟩, length, flags⟩
    refine ⟨format, reason, head, retry, next, close, fun i x h => ?_, empty, length⟩
    obtain ⟨src, blk, cnt, valid⟩ := entries i x h
    exact ⟨src, blk, cnt, valid, flags i x h⟩
  · rintro ⟨format, reason, head, retry, next, close, entries, empty, length⟩
    refine ⟨⟨format, reason, head⟩, ⟨retry, next, close⟩, ⟨fun i x h => ?_, empty⟩, length, fun i x h => ?_⟩
    · obtain ⟨src, blk, cnt, valid, -⟩ := entries i x h
      exact ⟨src, blk, cnt, valid⟩
    · obtain ⟨-, -, -, -, flag⟩ := entries i x h
      exact flag

/-! ## The start of a close, block by block -/

theorem State.startClose_other {s : State} (r : CloseReason) (h : s.writer.state ≠ .opened) : s.startClose r = s := by
  rw [State.startClose, if_pos h]

/-- The start of a close makes an OPEN writer CLOSING with its reason, and changes writer, storage map and exchange alone. -/
theorem State.startClose_opened {s : State} (r : CloseReason) (h : s.writer.state = .opened) : ∃ writer store xchg,
    s.startClose r = { s with writer, store, xchg } ∧ writer.state = .closing ∧ writer.reason = r := by
  unfold State.startClose
  rw [if_neg (not_not.2 h)]
  extract_lets begun job w dropBuf replacing w' store s'
  have closing : w'.state = .closing ∧ w'.reason = r := by
    unfold w'
    split
    · split <;> exact ⟨rfl, rfl⟩
    · exact ⟨rfl, rfl⟩
  split
  · split
    · exact ⟨w', _, _, rfl, closing⟩
    · exact ⟨{ w' with repeats := .empty }, _, _, rfl, closing⟩
  · exact ⟨w', _, _, rfl, closing⟩

/-- What a close for the card leaves: the writer CLOSING where it was not IDLE, its tail the port's, and the other blocks as they were. -/
theorem State.closeForCard_shape (tail : TailBy) (s : State) : ∃ writer store xchg,
    s.closeForCard tail = { s with writer, store, xchg }
    ∧ (s.writer.state = .opened → writer.state = .closing ∧ writer.reason = .card ∧ writer.tailBy = tail)
    ∧ (s.writer.state = .closing → writer.state = .closing ∧ writer.reason = s.writer.reason ∧ writer.tailBy = tail) := by
  by_cases opened : s.writer.state = .opened
  · obtain ⟨writer, store, xchg, made, closing, reason⟩ := State.startClose_opened .card opened
    refine ⟨{ writer with tailBy := tail }, store, xchg, ?_, fun _ => ⟨closing, reason, rfl⟩,
      fun h => absurd (opened.symm.trans h) (by decide)⟩
    rw [State.closeForCard, made, State.onWriter, if_pos closing]
  · by_cases closing : s.writer.state = .closing
    · refine ⟨{ s.writer with tailBy := tail }, s.store, s.xchg, ?_, fun h => absurd h opened, fun _ => ⟨closing, rfl, rfl⟩⟩
      rw [State.closeForCard, State.startClose_other _ opened, State.onWriter, if_pos closing]
    · refine ⟨s.writer, s.store, s.xchg, ?_, fun h => absurd h opened, fun h => absurd h closing⟩
      rw [State.closeForCard, State.startClose_other _ opened, State.onWriter, if_neg closing]

theorem State.discards_shape (l : List Entry) (s : State) : ∃ card writer store,
    l.foldl (fun s e => s.discard e) s = { s with card, writer, store } := by
  induction l generalizing s with
  | nil => exact ⟨s.card, s.writer, s.store, rfl⟩
  | cons e l ih =>
    obtain ⟨card, writer, store, made⟩ := ih (s.discard e)
    exact ⟨card, writer, store, made⟩

theorem State.release_shape (l : Lane) (s : State) : ∃ xchg writer, s.release l = { s with xchg, writer } := by
  unfold State.release
  dsimp only
  split <;> exact ⟨_, _, rfl⟩

/-- What a settlement of entries leaves on the list: entries of it whose source is none of the settled packs. -/
theorem State.settleEntries_shape (resumed settling : Bool) (es : List Entry) (s : State) : ∃ list bufs store,
    s.settleEntries resumed settling es =
      { s with card := { s.card with list }, writer := { s.writer with bufs }, store }
    ∧ ∀ x ∈ list, ∃ o ∈ s.card.list, x.source = o.source ∧ ∀ e ∈ es, e.source.isPack = true → e.source ≠ o.source := by
  have packs : ∀ e ∈ es.filter fun e => e.source.isPack, e.source ≠ .tail := fun e mem tail => by
    have := (List.mem_filter.1 mem).2
    rw [tail] at this
    exact Bool.noConfusion this
  have discarded := State.discards_eq _ s packs
  unfold State.settleEntries
  extract_lets packs first a mark b
  have sources : ∀ x ∈ a.card.list.map mark,
      ∃ o ∈ s.card.list, x.source = o.source ∧ ∀ e ∈ es, e.source.isPack = true → e.source ≠ o.source := by
    intro x mem
    obtain ⟨o, left, rfl⟩ := List.mem_map.1 mem
    rw [show a.card.list = _ from congrArg (fun v : State => v.card.list) discarded] at left
    obtain ⟨listed, spared⟩ := List.mem_filter.1 left
    refine ⟨o, listed, ?_, fun e settled pack same => ?_⟩
    · unfold mark
      split <;> rfl
    · have found : (packs.any fun e => e.source == o.source) = true :=
        List.any_eq_true.2 ⟨e, List.mem_filter.2 ⟨settled, pack⟩, beq_iff_eq.2 same⟩
      rw [found] at spared
      exact Bool.noConfusion spared
  have made : b = { s with
      card := { s.card with list := a.card.list.map mark }, writer := { s.writer with bufs := a.writer.bufs }, store := a.store } := by
    unfold b State.onCard
    rw [show a = _ from discarded]
  rw [made]
  split <;> exact ⟨_, _, _, rfl, sources⟩

/-! ## The record resumed -/

section
variable {s : State} {more : List FaultRec} {e : CardOutcome} {block : Nat} {serial clip : Word} {es : List RecEntry}
  {cont : Continuation} {t : Time} (top : s.xchg.stack = .card e block serial clip es cont true t :: more)
  (read : readOk s.xchg.badReads s.xchg.topAddress 96 = true)
include top read

/-- A LIVE card record that reads as R131 lists is resumed under the continuation read. -/
theorem State.resumeRecord_live {rs : List RecEntry} {k : Continuation}
    (good : checkRecord s.xchg.mem s.xchg.topAddress (.card e block serial clip es cont true t) = .cardGood rs k) :
    s.resumeRecord = ((s.onXchg fun x => x.pop.startHand .recovery).release .chunk).resumeCard rs k serial block := by
  rw [State.resumeRecord, top]
  refine (if_neg (by rw [FaultRec.size, read]; decide)).trans ((if_neg (by decide)).trans ?_)
  rw [good]

/-- One that does not stays under a format-3 record (R98). -/
theorem State.resumeRecord_live_bad
    (bad : ∀ rs k, checkRecord s.xchg.mem s.xchg.topAddress (.card e block serial clip es cont true t) ≠ .cardGood rs k) :
    s.resumeRecord = s.badRecord := by
  rw [State.resumeRecord, top]
  refine (if_neg (by rw [FaultRec.size, read]; decide)).trans ((if_neg (by decide)).trans ?_)
  split
  next rs k good => exact absurd good (bad rs k)
  next => rfl

end

/-- The list and the port as the entries with a cleared flag are discarded (R132). -/
def State.clearedGone (s : State) (rs : List RecEntry) : State :=
  (s.card.list.filter fun x => !rs.any fun r => r.source == x.source && r.valid).foldl (fun s x => s.discard x) s

/-- RETRY: the entries are to be written again at their blocks (R133). -/
theorem State.resumeCard_retry (s : State) (rs : List RecEntry) (serial : Word) (block : Nat) :
    s.resumeCard rs .retry serial block = (s.clearedGone rs).onCard fun c => { c with
      resumption := some false, grace := none, list := c.list.map fun e => { e with begun := false, resumed := true } } := rfl

/-- NEXT_EXTENT: the entries await new positions, and the removal of the range is asked for (R134). -/
theorem State.resumeCard_next (s : State) (rs : List RecEntry) (serial : Word) (block : Nat) :
    s.resumeCard rs .nextExtent serial block = ((s.clearedGone rs).onCard fun c => { c with
      resumption := some false, grace := none
      list := c.list.map fun e => { e with begun := false, resumed := true, awaiting := true } }).onStore fun st =>
        { st with matters := st.matters ++ [.removal serial block true] } := rfl

/-- The entries that a CLOSE settles: all that are left, without the tails where entry 1 of the record is gone (R135). -/
def closeEntries (valid : List Entry) (firstSource : Option Source) : List Entry :=
  if valid.head?.map (·.source) = firstSource then valid else valid.filter fun e => e.source.isPack

/-- Every pack that is left is settled. -/
theorem mem_closeEntries {valid : List Entry} {o : Entry} (firstSource : Option Source) (mem : o ∈ valid)
    (pack : o.source.isPack = true) : o ∈ closeEntries valid firstSource := by
  unfold closeEntries
  split
  · exact mem
  · exact List.mem_filter.2 ⟨mem, pack⟩

/-- A CLOSE: the tails stay to be written again, the clip closes for the card with its tail the resumption's, and no other block than
card, writer, storage map and exchange changes (R135). -/
theorem State.resumeCard_close (s : State) (rs : List RecEntry) (serial : Word) (block : Nat) :
    let w := s.clearedGone rs
    let z := s.resumeCard rs .close serial block
    z.card.resumption = some true ∧ z.card.grace = none
    ∧ (∀ x ∈ z.card.list, x.source = .tail ∧ x.resumed = true ∧ x.begun = false)
    ∧ (w.writer.state = .opened → z.writer.state = .closing ∧ z.writer.reason = .card ∧ z.writer.tailBy = .resumption)
    ∧ (w.writer.state = .closing → z.writer.state = .closing ∧ z.writer.reason = w.writer.reason ∧ z.writer.tailBy = .resumption)
    ∧ z.time = s.time ∧ z.supply = s.supply ∧ z.path = s.path := by
  intro w z
  let b : State := w.onCard fun c => { c with resumption := some true, grace := none }
  let es := closeEntries w.card.list (s.card.list.head?.map (·.source))
  have whole : z = ((b.settleEntries true false es).onCard fun k =>
      { k with list := k.list.map fun e => { e with resumed := true, begun := false } }).closeForCard .resumption := rfl
  obtain ⟨card, writer, store, gone⟩ : ∃ card writer store, w = { s with card, writer, store } := State.discards_shape _ s
  obtain ⟨list, bufs, kept, settled, sources⟩ := b.settleEntries_shape true false es
  rw [settled] at whole
  obtain ⟨closer, asked, xchg, closed, opened, closing⟩ := State.closeForCard_shape .resumption
    (({ b with card := { b.card with list }, writer := { b.writer with bufs }, store := kept } : State).onCard fun k =>
      { k with list := k.list.map fun e => { e with resumed := true, begun := false } })
  rw [closed] at whole
  rw [whole]
  have outer : w.time = s.time ∧ w.supply = s.supply ∧ w.path = s.path := by
    rw [gone]
    exact ⟨rfl, rfl, rfl⟩
  refine ⟨rfl, rfl, fun x mem => ?_, opened, closing, outer⟩
  obtain ⟨y, left, rfl⟩ := List.mem_map.1 mem
  obtain ⟨o, listed, same, spared⟩ := sources y left
  refine ⟨same.trans ?_, rfl, rfl⟩
  cases source : o.source with
  | tail => rfl
  | buf i => exact absurd rfl (spared o (mem_closeEntries _ listed (by rw [source]; rfl)) (by rw [source]; rfl))

/-- Settles O19: the check place by place, then the continuation that was read. -/
theorem cardRecordIsResumed : Obligations.CardRecordIsResumed := by
  refine ⟨fun m p e block serial clip es cont t rs k short => checkRecord_good_iff m p e block serial clip es cont t rs k short, ?_⟩
  intro a s hs body running u top e block serial clip es cont t more record read
  refine ⟨fun bad => ?bad, fun rs k good => ?good⟩
  case bad =>
    rw [exec_resume_running hs body running, State.resumeRecord_live_bad (s := s.arrive a) record read bad]
    rfl
  case good =>
    intro v w
    have run : exec (.resume a) s = .next (v.resumeCard rs k serial block).rest := by
      rw [exec_resume_running hs body running, State.resumeRecord_live (s := s.arrive a) record read good]
    refine ⟨fun retry => ?_, fun next => ?_, fun close => ?_⟩
    · rw [run, retry, State.resumeCard_retry]
      rfl
    · rw [run, next, State.resumeCard_next]
      rfl
    · rw [close] at run
      obtain ⟨resumption, grace, tails, opened, closing, time, supply, path⟩ := v.resumeCard_close rs serial block
      obtain ⟨xchg, writer, released⟩ := State.release_shape .chunk (u.onXchg fun x => x.pop.startHand .recovery)
      have outer : v.time = u.time ∧ v.supply = s.supply ∧ v.path = s.path := by
        rw [show v = _ from released]
        exact ⟨rfl, rfl, rfl⟩
      exact ⟨_, run, resumption, grace, tails, opened, closing, time.trans outer.1, supply.trans outer.2.1, path.trans outer.2.2⟩

end Sys2Proof.Machine
end

section
/-! SUPPORT. CHUNK's checks, and the copy of a unit run by run (R104 to R109). -/

namespace Sys2Proof.Machine

/-! ## The checks of CHUNK (R104) -/

/-- The fields of a CHUNK that are refused BAD_FIELD. -/
def ChunkFields.Bad (f : ChunkFields) (form : Form) : Prop :=
  f.count = 0 ∨ 4 < f.count ∨ (∃ p ∈ f.pieces, p.length = 0) ∨ (form = .wide ∧ 16777216 < f.length) ∨ 2 < f.stream

/-- The answer of the writer to a chunk of a stream, once its fields are good. -/
def Writer.streamCheck (w : Writer) (st : Stream) : Result ⊕ Stream :=
  match w.state with
  | .idle => .inl .noClip
  | .closing => .inl .closing
  | .opened =>
    match w.clip with
    | none => .inl .noClip
    | some c => if c.records st then .inr st else .inl .streamOff

theorem chunkStream_none_iff (n : Nat) : chunkStream n = none ↔ 2 < n := by
  unfold chunkStream
  split <;> simp_all
  omega

section
variable {s : State} {form : Form} {f : ChunkFields}

theorem State.chunkCheck_bad (bad : f.Bad form) : s.chunkCheck form f = .inl .badField := by
  unfold State.chunkCheck
  simp only [List.any_eq_true, beq_iff_eq]
  obtain none | many | empty | long | stream := bad
  · rw [if_pos (.inl none)]
  · rw [if_pos (.inr (.inl many))]
  · rw [if_pos (.inr (.inr empty))]
  · rw [if_pos long, ite_self]
  · rw [(chunkStream_none_iff _).2 stream]
    simp only [ite_self]

variable (sound : ¬f.Bad form)
include sound

theorem State.chunkCheck_sound {st : Stream} (stream : chunkStream f.stream = some st) :
    s.chunkCheck form f = s.writer.streamCheck st := by
  have pieces : ¬(f.count = 0 ∨ 4 < f.count ∨ ∃ p ∈ f.pieces, p.length = 0) := by
    rintro (none | many | empty)
    exacts [sound (.inl none), sound (.inr (.inl many)), sound (.inr (.inr (.inl empty)))]
  have short : ¬(form = .wide ∧ 16777216 < f.length) := fun long => sound (.inr (.inr (.inr (.inl long))))
  unfold State.chunkCheck
  simp only [List.any_eq_true, beq_iff_eq]
  rw [if_neg pieces, if_neg short, stream]
  rfl

theorem ChunkFields.stream_of_sound : ∃ st, chunkStream f.stream = some st := by
  rw [← Option.ne_none_iff_exists', ne_eq, chunkStream_none_iff]
  exact fun stream => sound (.inr (.inr (.inr (.inr stream))))

theorem State.chunkCheck_idle (idle : s.writer.state = .idle) : s.chunkCheck form f = .inl .noClip := by
  obtain ⟨st, stream⟩ := ChunkFields.stream_of_sound sound
  rw [State.chunkCheck_sound sound stream, Writer.streamCheck, idle]

theorem State.chunkCheck_closing (closing : s.writer.state = .closing) : s.chunkCheck form f = .inl .closing := by
  obtain ⟨st, stream⟩ := ChunkFields.stream_of_sound sound
  rw [State.chunkCheck_sound sound stream, Writer.streamCheck, closing]

theorem State.chunkCheck_opened {st : Stream} {c : ClipSet} (stream : chunkStream f.stream = some st)
    (opened : s.writer.state = .opened) (clip : s.writer.clip = some c) :
    s.chunkCheck form f = if c.records st then .inr st else .inl .streamOff := by
  rw [State.chunkCheck_sound sound stream, Writer.streamCheck, opened, clip]

end

/-! ## The last part of a copy (R106) -/

/-- A chunk's last part stands at the link. -/
theorem Writer.awaitsCopy_iff (w : Writer) : w.awaitsCopy = true ↔
    ∃ j i src rest, w.job = some j ∧ j.stage = .copying ∧ w.filling = some i ∧ w.feed = src :: rest
      ∧ (∀ l, src ≠ .bytes l) ∧ (w.bufs.get i).pos ≠ none ∧ srcLength w.feed ≤ 65536 - (w.bufs.get i).fill := by
  have payload (src : Src) : src.isPayload = true ↔ ∀ l, src ≠ .bytes l := by cases src <;> simp [Src.isPayload]
  unfold Writer.awaitsCopy
  split
  next j i src rest job filling feed =>
    simp only [Bool.and_eq_true, beq_iff_eq, payload, Option.isSome_iff_ne_none, decide_eq_true_eq, and_assoc]
    constructor
    · rintro ⟨stage, head, pos, room⟩
      exact ⟨j, i, src, rest, job, stage, filling, feed, head, pos, room⟩
    · rintro ⟨j', i', src', rest', job', stage, filling', feed', head, pos, room⟩
      obtain rfl := Option.some.inj (job.symm.trans job')
      obtain rfl := Option.some.inj (filling.symm.trans filling')
      obtain ⟨rfl, rfl⟩ := List.cons.inj (feed.symm.trans feed')
      exact ⟨stage, head, pos, room⟩
  next none =>
    simp only [Bool.false_eq_true, false_iff]
    rintro ⟨j, i, src, rest, job, stage, filling, feed, -⟩
    exact none j i src rest job filling feed

/-- Every run placed at once, by any placing that agrees with the model's. -/
theorem Writer.feedAll_eq {w : Writer} {m : Mem} {i : Fin 4} {place : Buf → Src → Buf}
    (same : ∀ b src, place b src = b.placeSrc m src)
    (filling : w.filling = some i) :
    w.feedAll m = { w with bufs := w.bufs.set i (w.feed.foldl place (w.bufs.get i)), feed := [] } := by
  obtain rfl : place = fun b src => b.placeSrc m src := funext fun b => funext (same b)
  rw [Writer.feedAll, filling]
  rfl

/-! ## The bytes that a failed read leaves (R107) -/

/-- The bytes of header that a run stands for. -/
def Src.headerBytes : Src → List Byte
  | .bytes l => l
  | _ => []

/-- What a failed read leaves to be placed: the header, the good bytes of host memory, zeros to the unit's end. -/
theorem State.pieceFault_eq {s : State} (j : ChunkJob) (good : Nat) {bytes host : Src → List Byte} {x : Exchange} {r : Repeats}
    (header : ∀ src, bytes src = src.headerBytes) (read : ∀ src, host src = src.hostBytes s.xchg.mem)
    (fault : s.xchg.dataFault s.time .chunk = x) (kept : s.writer.repeats.keep j.stream j.seq = r) :
    s.pieceFault j good = { s with
      xchg := x
      writer := { s.writer with
        feed := ([.bytes (s.writer.feed.flatMap bytes), .bytes ((s.writer.feed.flatMap host).take good),
          .zeros (srcLength s.writer.feed - (s.writer.feed.flatMap bytes).length - min good (s.writer.feed.flatMap host).length)]
          : List Src).filter fun r => r.length != 0
        job := none
        repeats := r } } := by
  subst fault kept
  obtain rfl : bytes = Src.headerBytes := funext header
  obtain rfl : host = Src.hostBytes s.xchg.mem := funext read
  have headers : headerLeft s.writer.feed = s.writer.feed.flatMap Src.headerBytes := rfl
  have length := length_hostBytes s.xchg.mem s.writer.feed
  have first : dataBytes s.xchg.mem (min good (dataLeft s.writer.feed)) s.writer.feed
      = (s.writer.feed.flatMap (Src.hostBytes s.xchg.mem)).take good := by
    rw [dataBytes_eq_take, ← length, ← List.take_eq_take_min]
  rw [State.pieceFault, State.onWriter, Writer.zeroComplete, headers, first, length]
  rfl

/-! ## One step of a copy (R106) -/

section
variable {w : Writer} {src : Src} {rest : List Src} {i : Fin 4} (feed : w.feed = src :: rest) (filling : w.filling = some i)
include feed filling

/-- When a run of bytes cannot move: the buffer lacks its position or its room, or the run is a chunk's last part. -/
def Writer.stuck (w : Writer) (i : Fin 4) : Bool := (w.bufs.get i).pos.isNone || (w.bufs.get i).room == 0 || w.awaitsCopy

omit feed filling in
/-- A buffer without its position or full, or a last part that waits. -/
theorem Writer.stuck_iff (w : Writer) (i : Fin 4) : w.stuck i = true ↔
    ((w.bufs.get i).pos = none ∨ 65536 ≤ (w.bufs.get i).fill) ∨ w.awaitsCopy = true := by
  unfold Writer.stuck Buf.room Config.packBytes
  simp only [Bool.or_eq_true, Option.isNone_iff_eq_none, beq_iff_eq, Nat.sub_eq_zero_iff_le]

theorem Writer.feedStep_empty (m : Mem) (none : src.length = 0) : w.feedStep m = some { w with feed := rest } := by
  rw [Writer.feedStep, feed, filling]
  exact if_pos none

theorem Writer.feedStep_stuck (m : Mem) (some : 0 < src.length) (stuck : w.stuck i = true) : w.feedStep m = none := by
  rw [Writer.feedStep, feed, filling]
  exact (if_neg (Nat.pos_iff_ne_zero.1 some)).trans (if_pos stuck)

/-- A run moves, as much of it as fits. -/
theorem Writer.feedStep_moves (m : Mem) (some : 0 < src.length) (free : w.stuck i = false) :
    w.feedStep m = .some { w with
      bufs := w.bufs.set i ((w.bufs.get i).placeSrc m (src.splitAt (w.bufs.get i).room).1)
      feed := if (src.splitAt (w.bufs.get i).room).2.length = 0 then rest else (src.splitAt (w.bufs.get i).room).2 :: rest } := by
  rw [Writer.feedStep, feed, filling]
  exact (if_neg (Nat.pos_iff_ne_zero.1 some)).trans (if_neg (by rw [← Writer.stuck, free]; decide))

omit filling in
/-- No run of the part's own bytes is a read of host memory. -/
theorem Writer.badRun_own (bad : List Span) (own : ∀ a n, src ≠ .host a n) : w.badRun bad = none := by
  unfold Writer.badRun
  split
  next a n _ _ head _ => exact absurd (List.cons.inj (feed.symm.trans head)).1 (own a n)
  next => rfl

omit feed in
theorem Writer.badRun_stuck (bad : List Span) (stuck : w.stuck i = true) : w.badRun bad = none := by
  unfold Writer.badRun
  split
  next a n rest' i' head filling' =>
    obtain rfl := Option.some.inj (filling.symm.trans filling')
    exact if_pos (by rw [← Writer.stuck, stuck, Bool.true_or])
  next => rfl

end

section
variable {w : Writer} {a n : Nat} {rest : List Src} {i : Fin 4} (feed : w.feed = .host a n :: rest) (filling : w.filling = some i)
  (bad : List Span)
include feed filling

/-- A read of host memory that does not fail. -/
theorem Writer.badRun_read (read : readOk bad a (min (w.bufs.get i).room n) = true) : w.badRun bad = none := by
  rw [Writer.badRun, feed, filling]
  exact if_pos (by rw [Nat.min_comm, read, Bool.or_true])

/-- A read of host memory that fails, the run free to move. -/
theorem Writer.badRun_unread (free : w.stuck i = false) (unread : readOk bad a (min (w.bufs.get i).room n) = false) :
    w.badRun bad = some (goodBytes bad a (min (w.bufs.get i).room n)) := by
  rw [Writer.badRun, feed, filling, Nat.min_comm]
  exact if_neg (by rw [← Writer.stuck, Nat.min_comm, free, unread]; decide)

end

section
variable {s : State}

theorem State.feedStep_read (h : s.writer.job = none ∨ s.writer.badRun s.xchg.badReads = none) :
    s.feedStep = (s.writer.feedStep s.xchg.mem).map fun w => { s with writer := w } := by
  unfold State.feedStep
  split
  next j good job run =>
    obtain none | none := h
    · exact nomatch job.symm.trans none
    · exact nomatch run.symm.trans none
  next => rfl

theorem State.feedStep_idle (h : s.writer.feed = [] ∨ s.writer.filling = none) : s.feedStep = none := by
  have none : s.writer.feedStep s.xchg.mem = none := by
    unfold Writer.feedStep
    split
    next feed filling => exact (h.elim (fun e => nomatch feed.symm.trans e) fun e => nomatch filling.symm.trans e)
    next => rfl
  have run : s.writer.badRun s.xchg.badReads = .none := by
    unfold Writer.badRun
    split
    next feed filling => exact (h.elim (fun e => nomatch feed.symm.trans e) fun e => nomatch filling.symm.trans e)
    next => rfl
  rw [State.feedStep_read (.inr run), none]
  rfl

theorem State.feedStep_unread {j : ChunkJob} {good : Nat} (job : s.writer.job = some j)
    (run : s.writer.badRun s.xchg.badReads = some good) : s.feedStep = some (s.pieceFault j good) := by
  rw [State.feedStep, job, run]

end

section
variable {s : State} {src : Src} {rest : List Src} {i : Fin 4} (feed : s.writer.feed = src :: rest)
  (filling : s.writer.filling = some i)
include feed filling

/-- A run stands still in a buffer that is full or lacks its position, and at a chunk's last part. -/
theorem Writer.stuck_run : s.writer.stuck i = true ↔
    ((s.writer.bufs.get i).pos = none ∨ 65536 ≤ (s.writer.bufs.get i).fill)
    ∨ (∃ j, s.writer.job = some j ∧ j.stage = .copying) ∧ (∀ l, src ≠ .bytes l)
      ∧ srcLength s.writer.feed ≤ 65536 - (s.writer.bufs.get i).fill := by
  rw [Writer.stuck_iff, Writer.awaitsCopy_iff]
  constructor
  · rintro (full | ⟨j, i', src', rest', job, stage, filling', feed', own, -, room⟩)
    · exact .inl full
    · obtain rfl := Option.some.inj (filling.symm.trans filling')
      obtain ⟨rfl, rfl⟩ := List.cons.inj (feed.symm.trans feed')
      exact .inr ⟨⟨j, job, stage⟩, own, room⟩
  · rintro (full | ⟨⟨j, job, stage⟩, own, room⟩)
    · exact .inl full
    · by_cases pos : (s.writer.bufs.get i).pos = none
      · exact .inl (.inl pos)
      · exact .inr ⟨j, i, src, rest, job, stage, filling, feed, own, pos, room⟩

/-- A run that is free to move, its read made, moves as much of itself as fits. -/
theorem State.feedStep_moved (some : 0 < src.length) (free : s.writer.stuck i = false)
    (read : s.writer.job = none ∨ s.writer.badRun s.xchg.badReads = none) {c : Buf} {more : List Src}
    (placed : (s.writer.bufs.get i).placeSrc s.xchg.mem (src.splitAt (s.writer.bufs.get i).room).1 = c)
    (left : (if (src.splitAt (s.writer.bufs.get i).room).2.length = 0 then rest
      else (src.splitAt (s.writer.bufs.get i).room).2 :: rest) = more) :
    s.feedStep = .some { s with writer := { s.writer with bufs := s.writer.bufs.set i c, feed := more } } := by
  rw [State.feedStep_read read, Writer.feedStep_moves feed filling _ some free, placed, left]
  rfl

end

/-! ## A full buffer (R109) -/

/-- The pack buffers are queued as they fill: while OPEN or draining, with no cut past its first step. -/
def Writer.queues (w : Writer) : Prop :=
  (w.state = .opened ∨ (w.state = .closing ∧ w.closing = .drain)) ∧ ∀ c, w.cut = some c → c.stage = .place

/-- A full FILLING buffer with its position may be queued and succeeded. -/
theorem State.fullStep_queues {s : State} {i j : Fin 4} (queues : s.writer.queues) (room : s.listRoom = true)
    (filling : s.writer.filling = some i) (spare : s.writer.spare = some j) (full : (s.writer.bufs.get i).room = 0)
    (placed : (s.writer.bufs.get i).pos ≠ none) :
    s.fullStep = some (((s.queueBuffer i).onWriter fun w => w.onBuf j fun _ => .fresh).onStore fun st =>
      { st with matters := st.matters ++ [.position j] }) := by
  obtain ⟨state, cut⟩ := queues
  have first : (s.writer.state == .opened || (s.writer.state == .closing && s.writer.closing == .drain)) = true := by
    simpa using state
  rw [State.fullStep, filling, spare]
  refine if_pos ?_
  simp only [Bool.and_eq_true]
  refine ⟨⟨⟨⟨first, ?cut⟩, beq_iff_eq.2 full⟩, Option.isSome_iff_ne_none.2 placed⟩, room⟩
  cases known : s.writer.cut with
  | none => rfl
  | some c => exact beq_iff_eq.2 (cut c known)

/-- Otherwise it stays. -/
theorem State.fullStep_stays {s : State} (stays : ¬s.writer.queues ∨ s.listRoom = false ∨ s.writer.spare = none
    ∨ ∀ i, s.writer.filling = some i → (s.writer.bufs.get i).room ≠ 0 ∨ (s.writer.bufs.get i).pos = none) :
    s.fullStep = none := by
  unfold State.fullStep
  dsimp only
  split
  next i j filling spare =>
    refine if_neg fun able => ?_
    simp only [Bool.and_eq_true, beq_iff_eq, Bool.or_eq_true] at able
    obtain ⟨⟨⟨⟨state, cut⟩, full⟩, placed⟩, room⟩ := able
    obtain barred | shut | none | blocked := stays
    · refine barred ⟨state, fun c known => ?_⟩
      rw [known] at cut
      exact beq_iff_eq.1 cut
    · exact Bool.false_ne_true (shut.symm.trans room)
    · exact nomatch spare.symm.trans none
    · obtain some | unplaced := blocked i filling
      · exact some full
      · rw [unplaced] at placed
        exact Bool.noConfusion placed
  next => rfl

end Sys2Proof.Machine
end

section
/-! CHUNK, its copy and its data error (O36). -/

namespace Sys2Proof.Machine

/-- CHUNK with its frame in hand and not begun (R104). -/
theorem exec_chunk {a : Ambient} {s : State} {h : Taken} {f : ChunkFields} (hs : s.supply.held = false)
    (inHand : s.xchg.hand .chunk = some h) (fresh : h.started = false) (body : h.body = .chunk f) :
    (∀ r, s.chunkCheck h.form f = .inl r → exec (.chunk a) s = .next (State.rest (State.finish
      { s.arrive a with writer := { s.writer with repeats := .empty } } .chunk .refused r 0)))
    ∧ ∀ st, s.chunkCheck h.form f = .inr st → s.writer.job = none → exec (.chunk a) s = .next (State.rest { s.arrive a with
      xchg := (s.arrive a).xchg.startHand .chunk, writer := { s.writer with job := some (f.job st) } }) := by
  have run : exec (.chunk a) s = .next _ := (perform_free hs : execChunk a s = _)
  simp only [show (s.arrive a).xchg.hand .chunk = some h from inHand, fresh, body] at run
  refine ⟨fun r refused => ?_, fun st passes idle => ?_⟩
  · rw [run]
    simp only [show (s.arrive a).chunkCheck h.form f = .inl r from refused]
    rfl
  · rw [run]
    simp only [show (s.arrive a).chunkCheck h.form f = .inr st from passes, show (s.arrive a).writer.job = none from idle]
    rfl

section
variable {a : Ambient} {s : State} (hs : s.supply.held = false)
include hs

/-- CHUNK_COPY_COMPLETE without a last part at the link. -/
theorem exec_copyComplete_early (early : (s.arrive a).writer.awaitsCopy = false) :
    exec (.chunkCopyComplete a) s = .next (s.arrive a) := by
  refine (perform_free hs : execChunkCopyComplete a s = _).trans (congrArg Host.Outcome.next ?_)
  split
  · exact if_neg (by rw [early]; decide)
  · rfl

/-- CHUNK_COPY_COMPLETE with the last part at the link (R106). -/
theorem exec_copyComplete_ends {j : ChunkJob} (job : (s.arrive a).writer.job = some j) (ends : (s.arrive a).writer.awaitsCopy = true) :
    exec (.chunkCopyComplete a) s = .next ((((s.arrive a).onWriter fun w =>
      { w.feedAll (s.arrive a).xchg.mem with job := none, repeats := .empty }).finish .chunk .done .ok j.seq.toNat).rest) := by
  refine (perform_free hs : execChunkCopyComplete a s = _).trans (congrArg Host.Outcome.next ?_)
  rw [job]
  exact if_pos ends

/-- CHUNK_PIECE_READ_ERROR with no data of a chunk left to be read. -/
theorem exec_pieceError_none (good : Nat) (none : ∀ j, (s.arrive a).writer.job = some j → j.stage = .copying →
    dataLeft (s.arrive a).writer.feed = 0) : exec (.chunkPieceReadError a good) s = .next (s.arrive a) := by
  refine (perform_free hs : execChunkPieceReadError a good s = _).trans (congrArg Host.Outcome.next ?_)
  split
  next j job => exact if_neg fun able => Nat.ne_of_gt able.2 (none j job able.1)
  next => rfl

/-- CHUNK_PIECE_READ_ERROR in the middle of a copy (R107). -/
theorem exec_pieceError (good : Nat) {j : ChunkJob} (job : (s.arrive a).writer.job = some j) (copying : j.stage = .copying)
    (left : 0 < dataLeft (s.arrive a).writer.feed) :
    exec (.chunkPieceReadError a good) s = .next ((s.arrive a).pieceFault j good).rest := by
  refine (perform_free hs : execChunkPieceReadError a good s = _).trans (congrArg Host.Outcome.next ?_)
  rw [job]
  exact if_pos ⟨copying, left⟩

end

/-- Settles O36: the checks in order, the ends of a copy, one step of it, and the full buffer. -/
theorem chunkIsCheckedCopiedAndFaulted : Obligations.ChunkIsCheckedCopiedAndFaulted := by
  refine ⟨fun a s hs => ?commands, fun s => ?middle, fun s => ?full⟩
  case commands =>
    intro u
    refine ⟨fun h f inHand fresh body => ?chunk, ?copy⟩
    case chunk =>
      intro total bad refused
      have isBad : bad ↔ f.Bad h.form := Iff.rfl
      obtain ⟨refuse, pass⟩ := exec_chunk (a := a) hs inHand fresh body
      refine ⟨fun b => refuse _ (State.chunkCheck_bad b), fun sound idle => refuse _ (State.chunkCheck_idle sound idle),
        fun sound closing => refuse _ (State.chunkCheck_closing sound closing), fun c st sound opened clip stream => ?_⟩
      have check := State.chunkCheck_opened sound stream opened clip
      exact ⟨fun off => refuse _ (by rw [check, off]; rfl), fun on idle => pass st (by rw [check, on]; rfl) idle⟩
    case copy =>
      intro feed last
      have waits : last ↔ u.writer.awaitsCopy = true := (Writer.awaitsCopy_iff s.writer).symm
      refine ⟨fun early => exec_copyComplete_early hs (Bool.eq_false_iff.2 fun await => early (waits.2 await)),
        fun j i ends job filling => ?ends, ?fault⟩
      case ends =>
        have all := Writer.feedAll_eq (w := u.writer) (m := u.xchg.mem) (i := i) (place := fun b src => match src with
              | .bytes l => { b with data := memWrite b.data b.fill l, fill := b.fill + l.length }
              | .host m n => { b with data := memCopy b.data b.fill u.xchg.mem m n, fill := b.fill + n }
              | .zeros n => { b with fill := b.fill + n }) (fun b src => by cases src <;> rfl) filling
        rw [exec_copyComplete_ends hs job (waits.1 ends), State.onWriter, all]
        rfl
      case fault =>
        intro good data header
        have whole : feed.flatMap (Src.hostBytes u.xchg.mem) = data :=
          congrArg (fun g => feed.flatMap g) (funext fun src => by cases src <;> rfl)
        have left : data.length = dataLeft u.writer.feed := by
          rw [← whole]
          exact length_hostBytes _ _
        refine ⟨fun none => exec_pieceError_none hs good fun j job copying => ?none, fun j job copying some => ?some⟩
        case none => rw [← left, none j job copying, List.length_nil]
        case some =>
          rw [exec_pieceError hs good job copying (left ▸ List.length_pos_iff.2 some)]
          exact congrArg Host.Outcome.next (congrArg State.rest (State.pieceFault_eq (s := u) j good
            (fun src => by cases src <;> rfl) (fun src => by cases src <;> rfl)
            (by rw [Exchange.dataFault, show u.xchg.hand .chunk = s.xchg.hand .chunk from rfl]; cases s.xchg.hand .chunk <;> rfl)
            (by cases j.stream <;> rfl)))
  case middle =>
    intro w
    refine ⟨fun idle => ?idle, fun src rest i feed filling => ?run⟩
    case idle => exact State.feedStep_idle idle
    case run =>
      intro b full last moved
      have stuck : s.writer.stuck i = true ↔ full ∨ last := Writer.stuck_run feed filling
      have still (own : ∀ a n, src ≠ .host a n) : s.feedStep = (s.writer.feedStep s.xchg.mem).map fun w => { s with writer := w } :=
        State.feedStep_read (.inr (Writer.badRun_own feed _ own))
      refine ⟨fun l m n => ⟨rfl, rfl, rfl⟩, fun empty => ?empty, fun some blocked => ?blocked, fun some open_ goes => ?moves⟩
      case empty =>
        obtain rfl | rfl := empty <;> rw [still (by simp), Writer.feedStep_empty feed filling _ rfl] <;> rfl
      case blocked =>
        rw [State.feedStep_read (.inr (Writer.badRun_stuck filling _ (stuck.2 blocked))),
          Writer.feedStep_stuck feed filling _ some (stuck.2 blocked)]
        rfl
      case moves =>
        have free : s.writer.stuck i = false := Bool.eq_false_iff.2 fun h => (stuck.1 h).elim open_ goes
        intro room
        refine ⟨fun l bytes => ?ownBytes, fun n zeros => ?zeroRun, fun m n host => ?hostRun⟩
        case ownBytes =>
          subst bytes
          refine State.feedStep_moved feed filling some free (.inr (Writer.badRun_own feed _ (by simp))) ?_ (if_congr ?_ rfl rfl)
          · exact congrArg (fun k => ({ b with data := memWrite b.data b.fill (l.take room), fill := b.fill + k } : Buf))
              List.length_take
          · exact (Nat.sub_eq_zero_iff_le.symm.trans (by rw [← List.length_drop]; rfl)).symm
        case zeroRun =>
          subst zeros
          exact State.feedStep_moved feed filling some free (.inr (Writer.badRun_own feed _ (by simp))) rfl
            (if_congr Nat.sub_eq_zero_iff_le rfl rfl)
        case hostRun =>
          subst host
          intro k
          refine ⟨fun readable => ?read, fun j unread job => ?unread⟩
          case read =>
            refine State.feedStep_moved feed filling some free ?_ rfl ?_
            · exact readable.symm.imp id fun read => Writer.badRun_read feed filling _ read
            · by_cases fits : n ≤ room
              · rw [if_pos fits]
                exact if_pos (Nat.sub_eq_zero_iff_le.2 fits)
              · have part : n - k = n - room := by
                  unfold k
                  omega
                rw [if_neg fits, part]
                exact if_neg fun none => fits (Nat.sub_eq_zero_iff_le.1 none)
          case unread =>
            intro good data header
            rw [State.feedStep_unread job (Writer.badRun_unread feed filling _ free unread)]
            exact congrArg Option.some (State.pieceFault_eq j good (fun src => by cases src <;> rfl) (fun src => by cases src <;> rfl)
              (by rw [Exchange.dataFault]; cases s.xchg.hand .chunk <;> rfl) (by cases j.stream <;> rfl))
  case full =>
    intro w allowed raw room
    have queues : s.writer.queues ↔ allowed := Iff.rfl
    have counted : (if s.card.rawWriting then 1 else 0) = raw := by
      unfold raw Card.rawWriting
      cases s.card.raw with
      | none => rfl
      | some r => simp only [Bool.and_eq_true]
    have rooms : s.listRoom = true ↔ room := by
      unfold room State.listRoom Card.load
      rw [counted, Bool.and_eq_true, decide_eq_true_eq, Bool.not_eq_true']
      rfl
    have fulls (i : Fin 4) : (s.writer.bufs.get i).room = 0 ↔ 65536 ≤ (s.writer.bufs.get i).fill := Nat.sub_eq_zero_iff_le
    refine ⟨fun i j p allow free filling spare full placed => ?_, fun stays => State.fullStep_stays ?_⟩
    · have known : (w.bufs.get i).pos.getD 0 = p := by rw [placed]; rfl
      rw [State.fullStep_queues allow (rooms.2 free) filling spare ((fulls i).2 full) (by rw [placed]; simp), ← known]
      rfl
    · obtain barred | shut | none | blocked := stays
      · exact .inl barred
      · exact .inr (.inl (Bool.eq_false_iff.2 fun h => shut (rooms.1 h)))
      · exact .inr (.inr (.inl none))
      · refine .inr (.inr (.inr fun i filling => ?_))
        obtain less | unplaced := blocked i filling
        · exact .inl fun full => Nat.not_le_of_lt less ((fulls i).1 full)
        · exact .inr unplaced

end Sys2Proof.Machine
end

section
/-! SUPPORT. The grace, the drain, a record superseded, a lane released, the arbiter and the end of a resumption, each said once. -/

namespace Sys2Proof.Machine

/-! ## The grace (R139) -/

/-- What the end of the grace settles: the port's own list with the grace gone, the record superseded. -/
def State.graceSettled (s : State) : State :=
  let a := s.onCard fun c => { c with grace := none }
  (a.settleEntries false true a.card.list).onXchg Exchange.supersede

theorem State.graceEnds_eq (s : State) : s.graceEnds = (s.graceSettled.closeForCard .settlement).release .chunk := rfl

section
variable {a : Ambient} {s : State} (hs : s.supply.held = false)
include hs

theorem exec_graceExpiry_due (due : dueAt (s.arrive a).time s.card.grace = true) (live : s.xchg.liveRecord = true) :
    exec (.graceExpiry a) s = .next (s.arrive a).graceEnds.rest :=
  (perform_free hs : execGraceExpiry a s = _).trans (congrArg Host.Outcome.next (if_pos ⟨due, live⟩))

theorem exec_graceExpiry_idle (idle : dueAt (s.arrive a).time s.card.grace = false ∨ s.xchg.liveRecord = false) :
    exec (.graceExpiry a) s = .next (s.arrive a) := by
  refine (perform_free hs : execGraceExpiry a s = _).trans (congrArg Host.Outcome.next (if_neg ?_))
  rintro ⟨due, live⟩
  obtain early | none := idle
  · exact Bool.false_ne_true (early.symm.trans due)
  · exact Bool.false_ne_true (none.symm.trans live)

theorem exec_drainEnd_idle (idle : s.card.draining = false) : exec (.drainEnd a) s = .next (s.arrive a) :=
  (perform_free hs : execDrainEnd a s = _).trans (congrArg Host.Outcome.next (if_neg (by
    rw [show (s.arrive a).card.draining = false from idle]
    decide)))

end

/-! ## A record superseded (R139) -/

theorem Exchange.supersede_top {x : Exchange} {c : AnchorCopy} {e : CardOutcome} {b : Nat} {n k : Word} {es : List RecEntry}
    {t : Continuation} {time : Time} {more : List FaultRec} (anchor : x.anchor = some c)
    (top : x.stack = .card e b n k es t true time :: more) :
    x.supersede = ({ x with stack := .card e b n k es t false time :: more } : Exchange).laid [(c.faultTop - x.depth + 3, [1])] := by
  have depth : x.depth = (more.map FaultRec.size).sum + 96 := by
    rw [Exchange.depth, top, List.map_cons, List.sum_cons, FaultRec.size, Nat.add_comm]
  rw [Exchange.supersede, top, markSuperseded, anchor, depth]
  rfl

/-! ## A lane released (R96, R99) -/

section
variable {x : Exchange} (gate : Bool) (now : Time) {l : Lane}

theorem Exchange.release_kept (kept : x.holds l = true ∨ x.state ≠ .running) : x.release gate now l = x :=
  if_pos (by simpa using kept)

theorem Exchange.release_looks (free : ¬(x.holds l = true ∨ x.state ≠ .running)) (idle : (x.lane l).retake = none) :
    x.release gate now l = (x.showLane l).look gate now l := by
  rw [Exchange.release, if_neg (by simpa using free), idle]

theorem Exchange.release_retakes (free : ¬(x.holds l = true ∨ x.state ≠ .running)) {a : Nat} (waits : (x.lane l).retake = some a) :
    x.release gate now l = ((x.setLane l { (x.lane l) with retake := none }).takeFrame now l a true).look gate now l := by
  rw [Exchange.release, if_neg (by simpa using free), waits]

end

/-- A release changes the engine, and of the writer at most the repeat sequences. -/
theorem State.release_eq (l : Lane) (s : State) : ∃ repeats, s.release l =
    { s with xchg := s.xchg.release s.writer.gate s.time l, writer := { s.writer with repeats } } := by
  unfold State.release
  dsimp only
  split
  · exact ⟨.empty, rfl⟩
  · exact ⟨s.writer.repeats, rfl⟩

/-! ## The arbiter (R125, R126) -/

theorem firstOf_isSome {α : Type} (v : Four α) (p : α → Bool) : (firstOf v p).isSome = v.toList.any p := by
  simp only [firstOf, Four.toList, List.any_cons, List.any_nil]
  cases p v.a0 <;> cases p v.a1 <;> cases p v.a2 <;> cases p v.a3 <;> rfl

/-- A pack buffer is EMPTY. -/
theorem Writer.spare_isSome_iff (w : Writer) : w.spare.isSome = true ↔ ∃ i, (w.bufs.get i).st = .empty := by
  rw [Writer.spare, firstOf_isSome, Four.toList_any]
  simp only [beq_iff_eq]

section
variable (emit : Emit) (s : State)

/-- The write that the arbiter begins with no raw frame before it: the oldest entry not begun, unless it awaits its block. -/
def State.entryBegun : Option State :=
  match s.card.list.find? fun e => !e.begun with
  | some e => if e.awaiting then none else some (s.beginEntry emit e)
  | none => none

/-- The card is free for the arbiter: READY, with no drain and no LIVE record. -/
def State.arbitrates : Prop := s.card.state = .ready ∧ s.card.draining = false ∧ s.xchg.liveRecord = false

theorem State.arbitrates_iff :
    (s.card.state != .ready || s.card.draining || s.xchg.liveRecord) = false ↔ s.arbitrates := by
  simp [State.arbitrates, and_assoc]

variable {s}

theorem State.arbitrate_barred (barred : ¬s.arbitrates) : s.arbitrate emit = none :=
  if_pos (Bool.eq_true_of_not_eq_false fun free => barred (s.arbitrates_iff.1 free))

section
variable (free : s.arbitrates)
include free

/-- With no raw frame ready the oldest entry goes. -/
theorem State.arbitrate_entry (none : ∀ r, s.card.raw = some r → r.ready = false ∨ r.inFlight = true) :
    s.arbitrate emit = s.entryBegun emit := by
  refine (if_neg (by rw [s.arbitrates_iff.2 free]; decide)).trans ?_
  split
  next r raw =>
    refine if_neg fun able => ?_
    simp only [Bool.and_eq_true, Bool.not_eq_true'] at able
    obtain waits | flies := none r raw
    · exact Bool.false_ne_true (waits.symm.trans able.1)
    · exact Bool.false_ne_true (able.2.symm.trans flies)
  next => rfl

/-- A ready raw frame goes while a buffer is EMPTY and, for a write, the list has room, or while no entry waits. -/
theorem State.arbitrate_raw {r : RawJob} (raw : s.card.raw = some r) (ready : r.ready = true) (waits : r.inFlight = false) :
    s.arbitrate emit = if (s.writer.spare.isSome && (!r.isWrite || decide (s.card.list.length < 3)))
        || (s.card.list.find? fun e => !e.begun).isNone then some (s.beginRaw emit r)
      else s.entryBegun emit := by
  refine (if_neg (by rw [s.arbitrates_iff.2 free]; decide)).trans ?_
  rw [raw]
  refine (if_pos (by rw [ready, waits]; rfl)).trans ?_
  by_cases first : (s.writer.spare.isSome && (!r.isWrite || decide (s.card.list.length < 3))) = true
  · rw [first, Bool.true_or, if_pos rfl]
    exact if_pos first
  · rw [Bool.eq_false_iff.2 first, Bool.false_or]
    exact if_neg first

end

/-- The card is not there for the entries of its list. -/
def State.cardAway (s : State) : Prop :=
  (s.card.state = .absent ∨ s.card.state = .present ∨ s.card.state = .failed) ∧ s.card.draining = false ∧ s.xchg.liveRecord = false

theorem State.endUnbegun_there (there : ¬s.cardAway) : s.endUnbegun emit = none := by
  refine if_neg fun away => there ?_
  simpa [State.cardAway] using away

theorem State.endUnbegun_away (away : s.cardAway) {next : Option Entry} (oldest : (s.card.list.find? fun e => !e.begun) = next) :
    s.endUnbegun emit = next.map (s.cardFault emit .removed) := by
  refine (if_pos (by simpa [State.cardAway] using away)).trans ?_
  rw [oldest]
  cases next <;> rfl

end

/-! ## The end of a resumption (R132) -/

/-- When a resumption is over: no resumed entry, no re-placement asked, and a CLOSE with its clip ended. -/
theorem State.resumptionOver_iff (s : State) : s.resumptionOver = true ↔
    ∃ close, s.card.resumption = some close ∧ (∀ e ∈ s.card.list, e.resumed = false)
      ∧ (close = true → s.writer.state = .idle)
      ∧ ∀ m ∈ s.store.matters, (∀ src settled first, m ≠ .replace src settled first) ∧ ∀ n b, m ≠ .removal n b true := by
  have replaces (m : Matter) : m.replaces = false ↔
      (∀ src settled first, m ≠ .replace src settled first) ∧ ∀ n b, m ≠ .removal n b true := by
    cases m <;> simp [Matter.replaces]
  unfold State.resumptionOver
  cases s.card.resumption with
  | none => simp
  | some close =>
    simp only [Bool.and_eq_true, Bool.not_eq_true', List.any_eq_false, Bool.not_eq_true, replaces, Bool.or_eq_true, beq_iff_eq,
      Option.some.injEq, exists_eq_left', and_assoc]
    cases close <;> simp

end Sys2Proof.Machine
end

section
/-! The grace, the drain, the arbiter and the end of a resumption (O41). -/

namespace Sys2Proof.Machine

/-- The end of a drained transfer: its buffer given back, a waiting attach begun (R121, R123). -/
def State.drained (s : State) : State :=
  (s.onWriter fun w => match s.card.drainSource with
    | some src => w.giveBack src
    | none => w).onCard fun c =>
      { c with draining := false, drainSource := none, attachStart := if c.attaching then some s.time else none }

theorem exec_drainEnd {a : Ambient} {s : State} (hs : s.supply.held = false) (drains : s.card.draining = true) :
    exec (.drainEnd a) s = .next (s.arrive a).drained.finishAttach.rest :=
  (perform_free hs : execDrainEnd a s = _).trans (congrArg Host.Outcome.next (if_pos drains))

theorem State.attachFrame_iff (s : State) : s.attachFrame = true ↔
    ∃ h, s.xchg.hand .control = some h ∧ h.started = true ∧ h.body = .cardAttach := by
  unfold State.attachFrame
  cases s.xchg.hand .control <;> simp

/-- Settles O41, each piece by its equation. -/
theorem graceAndDrain : Obligations.GraceAndDrain := by
  refine ⟨fun a s hs => ?commands, fun x c e b n k es t time more known hm top => ?superseded, fun s => ?released, fun s => ?arbiter⟩
  case commands =>
    intro u
    refine ⟨fun t grace passed live => ?grace, fun none => exec_graceExpiry_idle hs ?idle,
      fun t grace early => exec_graceExpiry_idle hs ?early,
      fun idle => exec_drainEnd_idle hs idle, fun drains => ?drain⟩
    case grace =>
      intro packs first freed settled closed
      have due : dueAt u.time s.card.grace = true := by
        rw [grace]
        exact passed
      have own : u.graceSettled = settled := by
        rw [State.graceSettled, State.settleEntries_list]
        rfl
      rw [exec_graceExpiry_due hs due live, State.graceEnds_eq, own]
      rfl
    case idle =>
      refine none.imp (fun none => ?_) id
      rw [none]
      rfl
    case early =>
      left
      rw [grace]
      exact early
    case drain =>
      intro ended
      have made : u.drained = ended := rfl
      refine ⟨fun other => ?_, fun h inHand started attach => ?_⟩
      · have none : ended.attachFrame = false := Bool.eq_false_iff.2 fun found => by
          obtain ⟨h, inHand, started, attach⟩ := (State.attachFrame_iff _).1 found
          obtain fresh | strange := other h inHand
          · exact Bool.false_ne_true (fresh.symm.trans started)
          · exact strange attach
        rw [exec_drainEnd hs drains, made, State.finishAttach, none]
        rfl
      · have found : ended.attachFrame = true := (State.attachFrame_iff _).2 ⟨h, inHand, started, attach⟩
        rw [exec_drainEnd hs drains, made, State.finishAttach, found]
        rfl
  case superseded =>
    intro y
    have made : y = _ := Exchange.supersede_top known top
    rw [made]
    refine ⟨rfl, ?_, fun j other => ?_⟩
    · have byte := memBytes_laid (ws := [(c.faultTop - x.depth + 3, [1])]) hm 0 rfl (by simp)
      exact (List.cons.inj byte).1
    · exact memByte_laid_other hm (by simp; omega)
  case released =>
    intro x gate held y
    obtain ⟨repeats, made⟩ := State.release_eq .chunk s
    have engine : y.xchg = x.release gate s.time .chunk := congrArg State.xchg made
    have others : y.card = s.card ∧ y.store = s.store ∧ y.writer.bufs = s.writer.bufs ∧ y.writer.state = s.writer.state
        ∧ y.writer.tailBy = s.writer.tailBy := by
      rw [show y = _ from made]
      exact ⟨rfl, rfl, rfl, rfl, rfl⟩
    refine ⟨fun kept => engine.trans (Exchange.release_kept _ _ kept),
      fun free idle => engine.trans (Exchange.release_looks _ _ free idle),
      fun at_ free waits => engine.trans (Exchange.release_retakes _ _ free waits), others⟩
  case arbiter =>
    intro k may absent next begun written rawBegun
    have begins (e : Entry) : s.beginEntry emit e = State.prompt emit (State.raise emit 0x0406 e.count (begun e)) := by
      obtain ⟨source, block, count, serial, clip, isBegun, resumed, awaiting, settling⟩ := e
      cases source <;> rfl
    have entry : s.entryBegun emit = written := by
      unfold State.entryBegun
      simp only [begins]
      rfl
    refine ⟨State.arbitrate_barred emit, fun free none => (State.arbitrate_entry emit free none).trans entry,
      fun r free raw ready waits => ?raw, fun away => ?away, State.endUnbegun_there emit, ?resumption⟩
    case raw =>
      intro first
      have goes : (s.writer.spare.isSome && (!r.isWrite || decide (k.list.length < 3))) = true ↔ first := by
        rw [Bool.and_eq_true, Writer.spare_isSome_iff, Bool.or_eq_true, Bool.not_eq_true', decide_eq_true_eq,
          ← Bool.not_eq_true, ← imp_iff_not_or]
      have step := State.arbitrate_raw emit free raw ready waits
      rw [entry] at step
      refine ⟨fun able => ?_, fun blocked some => ?_⟩
      · refine step.trans (if_pos ?_)
        rw [Bool.or_eq_true, goes]
        exact able.imp id Option.isNone_iff_eq_none.2
      · refine step.trans (if_neg ?_)
        rw [Bool.or_eq_true, goes]
        exact fun able => able.elim blocked fun none => some (Option.isNone_iff_eq_none.1 none)
    case away =>
      rw [State.endUnbegun_away emit away (next := next) rfl]
      cases next <;> rfl
    case resumption =>
      intro ended
      have isOver : s.resumptionOver = true ↔ ended := State.resumptionOver_iff s
      exact ⟨fun h => if_pos (isOver.2 h), fun h => if_neg fun done => h (isOver.1 done)⟩

end Sys2Proof.Machine
end

section
/-! SUPPORT. Every command keeps the canonical form of every run of bytes (log entry 5): what each leaves is read off its law. -/

namespace Sys2Proof.Machine

/-! ## Canonical bytes stay canonical -/

/-- From one state to another the canonical form survives. -/
def KeepsBytes (s t : State) : Prop := s.memGood = true → t.memGood = true

theorem KeepsBytes.refl (s : State) : KeepsBytes s s := id

theorem KeepsBytes.trans {s t u : State} (h : KeepsBytes s t) (k : KeepsBytes t u) : KeepsBytes s u := fun good => k (h good)

theorem Kept.keepsBytes {s t : State} (h : Kept s t) : KeepsBytes s t := h.memGood

theorem Moved.keepsBytes {s t : State} (h : Moved s t) : KeepsBytes s t := h.memGood

/-- Three blocks hold every run of bytes: a change of the others loses nothing. -/
theorem KeepsBytes.of_blocks {s t : State} (mem : t.xchg.mem = s.xchg.mem := by rfl) (writer : t.writer = s.writer := by rfl)
    (card : t.card = s.card := by rfl) : KeepsBytes s t := by
  unfold KeepsBytes State.memGood
  rw [mem, writer, card]
  exact id

/-- Host memory changes, the assembler and the card port stay. -/
theorem KeepsBytes.of_memory {s t : State} (mem : memWf s.xchg.mem = true → memWf t.xchg.mem = true)
    (writer : t.writer = s.writer := by rfl) (card : t.card = s.card := by rfl) : KeepsBytes s t := by
  unfold KeepsBytes State.memGood
  simp only [writer, card, Bool.and_eq_true]
  exact fun ⟨⟨host, buffers⟩, slot⟩ => ⟨⟨mem host, buffers⟩, slot⟩

/-! ## The arrival, the resets and START -/

/-- The host's writes reach its memory in canonical form. -/
theorem State.arrive_keepsBytes (a : Ambient) (s : State) : KeepsBytes s (s.arrive a) := .of_memory (memWf_applyWrites _ _)

theorem State.arriveHeld_keepsBytes (a : Ambient) (s : State) : KeepsBytes s (s.arriveHeld a) := .of_memory (memWf_applyWrites _ _)

/-- A reset of the whole part leaves host memory alone and empties every buffer. -/
theorem State.fullReset_keepsBytes (levels : Four Bool) (cause : ResetCause) (s : State) :
    KeepsBytes s (s.fullReset levels cause) := by
  unfold KeepsBytes State.memGood
  simp only [Bool.and_eq_true]
  exact fun ⟨⟨host, _⟩, _⟩ => ⟨⟨host, rfl⟩, rfl⟩

theorem State.brownout_keepsBytes (s : State) : KeepsBytes s s.brownout := by
  unfold State.brownout
  exact (State.fullReset_keepsBytes _ .brownout s).trans .of_blocks

theorem State.linkResetByHost_keepsBytes (s : State) : KeepsBytes s s.linkResetByHost := by
  unfold State.linkResetByHost
  split
  case isTrue raced => exact .refl s
  case isFalse applied => exact KeepsBytes.trans (s.linkReset_memGood false) .of_blocks

theorem State.start_keepsBytes (s : State) : KeepsBytes s s.start := by
  obtain ⟨_, _, _, _, kept, -⟩ := s.start_leaves
  exact KeepsBytes.trans .of_blocks kept.keepsBytes

theorem State.rest_keepsBytes (s : State) : KeepsBytes s s.rest := s.kept_rest.keepsBytes

theorem State.controlWrite_keepsBytes (value : Word) (s : State) : KeepsBytes s (s.controlWrite value) := by
  obtain ⟨t, reset, kept | ⟨_, _, _, _, kept, -⟩⟩ := s.controlWrite_leaves value
  all_goals
    have before : KeepsBytes s t := by
      obtain rfl | rfl := reset
      · exact .refl _
      · exact s.linkResetByHost_keepsBytes
  · exact before.trans kept.keepsBytes
  · exact before.trans (KeepsBytes.trans .of_blocks kept.keepsBytes)

/-! ## Every command of a part that is not held -/

/-- The command answers a state whose bytes are canonical where those of the arrival are. -/
def State.AnswersBytes (s : State) (i : Instr) : Prop := ∃ t, exec i s = .next t ∧ KeepsBytes (s.arrive i.ambient) t

section
variable {i : Instr} {s t u : State}

/-- The command's own changes reach no bytes, and from there the part is kept. -/
theorem State.AnswersBytes.of_kept (answer : exec i s = .next t) (kept : Kept u t)
    (own : KeepsBytes (s.arrive i.ambient) u := by exact .of_blocks) : s.AnswersBytes i :=
  ⟨t, answer, own.trans kept.keepsBytes⟩

theorem State.AnswersBytes.of_moved (answer : exec i s = .next t) (moved : Moved u t)
    (own : KeepsBytes (s.arrive i.ambient) u := by exact .of_blocks) : s.AnswersBytes i :=
  ⟨t, answer, own.trans moved.keepsBytes⟩

/-- A command that leaves the part after its arrival. -/
theorem LeavesPart.answersBytes {a : Ambient} {meaning : State → Host.Outcome State Fault Refusal} (h : LeavesPart a meaning)
    (hs : s.supply.held = false) (ambient : i.ambient = a := by rfl) (arm : exec i s = meaning s := by rfl) :
    s.AnswersBytes i := by
  obtain ⟨t, answer, kept⟩ := h s hs
  subst ambient
  exact .of_kept (arm.trans answer) kept (.refl _)

end

theorem State.linkDown_answersBytes (a : Ambient) (s : State) (hs : s.supply.held = false) : s.AnswersBytes (.linkDown a) := by
  change ∃ t, execLinkDown a s = .next t ∧ KeepsBytes (s.arrive a) t
  refine perform_exists hs ?_
  dsimp only
  split
  · exact KeepsBytes.trans .of_blocks (State.linkResetByHost_keepsBytes _)
  · exact .of_blocks

theorem State.linkReset_answersBytes (a : Ambient) (alsoStart : Bool) (s : State) (hs : s.supply.held = false) :
    s.AnswersBytes (.linkReset a alsoStart) := by
  change ∃ t, execLinkReset a alsoStart s = .next t ∧ KeepsBytes (s.arrive a) t
  refine perform_exists hs ?_
  have reset : KeepsBytes (s.arrive a) (s.arrive a).linkSeen.linkResetByHost :=
    KeepsBytes.trans .of_blocks (State.linkResetByHost_keepsBytes _)
  dsimp only
  split
  · exact reset.trans ((State.start_keepsBytes _).trans (State.rest_keepsBytes _))
  · exact reset

theorem State.registerWrite_answersBytes (a : Ambient) (offset width : Nat) (value : Word) (s : State)
    (hs : s.supply.held = false) : s.AnswersBytes (.registerWrite a offset width value) := by
  change ∃ t, execRegisterWrite a offset width value s = .next t ∧ KeepsBytes (s.arrive a) t
  refine perform_exists hs ?_
  generalize s.arrive a = u
  have seen : KeepsBytes u u.linkSeen := .of_blocks
  dsimp only
  split
  case isTrue ignored => exact seen
  case isFalse word =>
    split
    case h_1 | h_2 | h_5 => exact .of_blocks
    case h_3 => exact seen.trans (State.controlWrite_keepsBytes value _)
    case h_4 => exact seen.trans (Kept.refl _).poll.rest.keepsBytes
    case h_6 => exact seen.trans (KeepsBytes.trans .of_blocks (Kept.writeMask _ value).keepsBytes)
    case h_7 => exact seen

/-- The anchor check that passes lays the engine's values into host memory and no other bytes. -/
theorem State.anchorReadComplete_answersBytes (a : Ambient) (s : State) (hs : s.supply.held = false) :
    s.AnswersBytes (.anchorReadComplete a) := by
  obtain ⟨t, y, answer, kept, -, -, -, mem⟩ := execAnchorReadComplete_leaves a s hs
  exact .of_kept answer kept (.of_memory mem)

theorem State.powerState_answersBytes (a : Ambient) (s : State) (hs : s.supply.held = false) :
    s.AnswersBytes (.powerState a) := by
  obtain ⟨t, answer, kept | ⟨x, power, front, parked, kept, left, -⟩⟩ := execPowerState_leaves a s hs
  · exact .of_kept answer kept
  · have reset : KeepsBytes (s.arrive a) (({ s.arrive a with xchg := x } : State).linkReset parked) :=
      KeepsBytes.trans (.of_memory left.mem) (State.linkReset_memGood _ parked)
    exact .of_kept answer kept (reset.trans .of_blocks)

/-- The raw slot takes what it copies from host memory in canonical form. -/
theorem State.rawBufferReadComplete_answersBytes (a : Ambient) (s : State) (hs : s.supply.held = false) :
    s.AnswersBytes (.rawBufferReadComplete a) := by
  obtain ⟨t, answer, kept | ⟨r, kept⟩⟩ := execRawBufferReadComplete_leaves a s hs
  · exact .of_kept answer kept
  · refine .of_kept answer kept ?_
    change KeepsBytes (s.arrive a) _
    generalize s.arrive a = u
    unfold KeepsBytes State.memGood
    simp only [Bool.and_eq_true]
    exact fun ⟨⟨host, buffers⟩, _⟩ => ⟨⟨host, buffers⟩, memWf_copy rfl host⟩

theorem State.measurement_answersBytes (a : Ambient) (m : Measurement) (s : State) (hs : s.supply.held = false) :
    s.AnswersBytes (.measurement a m) := by
  obtain ⟨t, answer, ⟨-, rfl⟩ | ⟨-, _, _, _, _, _, moved⟩⟩ := execMeasurement_leaves a m s hs
  · exact .of_kept answer (.refl _)
  · exact .of_moved answer moved

/-- Every command of a part that is not held, but for the resets of the whole part. -/
theorem State.answersBytes_of_free (i : Instr) (s : State) (hs : s.supply.held = false) (hi : resetsPart i = false) :
    s.AnswersBytes i := by
  cases i with
  | powerOnReset | brownoutReset => cases hi
  | brownoutRelease a => exact .of_kept (if_neg (by simp [hs])) (.refl (s.arrive a))
  | linkDown a => exact s.linkDown_answersBytes a hs
  | linkReset a alsoStart => exact s.linkReset_answersBytes a alsoStart hs
  | start a =>
    obtain ⟨t, _, _, _, _, answer, kept, -⟩ := execStart_leaves a s hs
    exact .of_kept answer kept
  | anchorReadComplete a => exact s.anchorReadComplete_answersBytes a hs
  | nudge a =>
    obtain ⟨t, answer, kept⟩ := execNudge_leaves a s hs
    exact .of_kept answer kept
  | causeWrite a value =>
    obtain ⟨t, answer, kept⟩ := execCauseWrite_leaves a value s hs
    exact .of_kept answer kept
  | causeMaskWrite a value =>
    obtain ⟨t, answer, kept⟩ := execCauseMaskWrite_leaves a value s hs
    exact .of_kept answer kept
  | registerWrite a offset width value => exact s.registerWrite_answersBytes a offset width value hs
  | scanTick a => exact (execScanTick_leaves a).answersBytes hs
  | statusRefresh a =>
    obtain ⟨t, _, answer, kept⟩ := execStatusRefresh_leaves a s hs
    exact .of_kept answer kept
  | motionSetup a =>
    obtain ⟨t, _, _, answer, kept, -⟩ := execMotionSetup_leaves a s hs
    exact .of_kept answer kept
  | reference a => exact (execReference_leaves a).answersBytes hs
  | exposure a =>
    obtain ⟨t, _, answer, kept⟩ := execExposure_leaves a s hs
    exact .of_kept answer kept
  | statusAck a => exact (execStatusAck_leaves a).answersBytes hs
  | route a =>
    obtain ⟨t, answer, _, kept⟩ := execRoute_leaves a s hs
    exact .of_kept answer kept
  | lineSetup a =>
    obtain ⟨t, answer, _, kept⟩ := execLineSetup_leaves a s hs
    exact .of_kept answer kept
  | timerSetup a =>
    obtain ⟨t, answer, _, kept⟩ := execTimerSetup_leaves a s hs
    exact .of_kept answer kept
  | outputWrite a => exact (execOutputWrite_leaves a).answersBytes hs
  | clipOpen a => exact (execClipOpen_leaves a).answersBytes hs
  | clipClose a => exact (execClipClose_leaves a).answersBytes hs
  | chunk a => exact (execChunk_leaves a).answersBytes hs
  | cardAttach a => exact (execCardAttach_leaves a).answersBytes hs
  | cardRead a => exact (execCardRead_leaves a).answersBytes hs
  | cardWrite a => exact (execCardWrite_leaves a).answersBytes hs
  | extentAdd a => exact (execExtentAdd_leaves a).answersBytes hs
  | extentWithdraw a => exact (execExtentWithdraw_leaves a).answersBytes hs
  | protect a => exact (execProtect_leaves a).answersBytes hs
  | chargeSetup a =>
    obtain ⟨t, answer, _, _, _, kept⟩ := execChargeSetup_leaves a s hs
    exact .of_kept answer kept
  | inputLimit a =>
    obtain ⟨t, answer, _, _, _, kept⟩ := execInputLimit_leaves a s hs
    exact .of_kept answer kept
  | loadClass a =>
    obtain ⟨t, answer, _, kept⟩ := execLoadClass_leaves a s hs
    exact .of_kept answer kept
  | pathSet a =>
    obtain ⟨t, answer, moved⟩ := execPathSet_leaves a s hs
    exact .of_moved answer moved
  | powerState a => exact s.powerState_answersBytes a hs
  | resume a => exact (execResume_leaves a).answersBytes hs
  | abandon a => exact (execAbandon_leaves a).answersBytes hs
  | dataReadyEdge a =>
    obtain ⟨t, answer, _, kept, -⟩ := execDataReadyEdge_leaves a s hs
    exact .of_kept answer kept
  | sampleReadComplete a sample =>
    obtain ⟨t, answer, _, _, kept, -⟩ := execSampleReadComplete_leaves a sample s hs
    exact .of_kept answer kept
  | imuSettleEnd a =>
    obtain ⟨t, answer, _, kept, -⟩ := execImuSettleEnd_leaves a s hs
    exact .of_kept answer kept
  | lossDeadline a =>
    obtain ⟨t, answer, _, kept, -⟩ := execLossDeadline_leaves a s hs
    exact .of_kept answer kept
  | lostPowerOffEnd a =>
    obtain ⟨t, answer, _, kept, -⟩ := execLostPowerOffEnd_leaves a s hs
    exact .of_kept answer kept
  | runningOneSecond a =>
    obtain ⟨t, answer, _, kept, -⟩ := execRunningOneSecond_leaves a s hs
    exact .of_kept answer kept
  | inputLineEdge a line level =>
    obtain ⟨t, answer, _, kept⟩ := execInputLineEdge_leaves a line level s hs
    exact .of_kept answer kept
  | timerExpiry a timer =>
    obtain ⟨t, answer, _, kept⟩ := execTimerExpiry_leaves a timer s hs
    exact .of_kept answer kept
  | extrapolationDeadline a => exact (execExtrapolationDeadline_leaves a).answersBytes hs
  | chunkCopyComplete a => exact (execChunkCopyComplete_leaves a).answersBytes hs
  | chunkPieceReadError a good => exact (execChunkPieceReadError_leaves a good).answersBytes hs
  | cardDetectChange a => exact (execCardDetectChange_leaves a).answersBytes hs
  | attachComplete a capacity usable => exact (execAttachComplete_leaves a capacity usable).answersBytes hs
  | attachTimeout a => exact (execAttachTimeout_leaves a).answersBytes hs
  | cardProgramming a => exact (execCardProgramming_leaves a).answersBytes hs
  | cardWriteAccepted a => exact (execCardWriteAccepted_leaves a).answersBytes hs
  | cardWriteError a => exact (execCardWriteError_leaves a).answersBytes hs
  | cardBusyTimeout a => exact (execCardBusyTimeout_leaves a).answersBytes hs
  | rawBufferReadComplete a => exact s.rawBufferReadComplete_answersBytes a hs
  | rawReadComplete a ok data => exact (execRawReadComplete_leaves a ok data).answersBytes hs
  | graceExpiry a => exact (execGraceExpiry_leaves a).answersBytes hs
  | drainEnd a => exact (execDrainEnd_leaves a).answersBytes hs
  | measurement a values => exact s.measurement_answersBytes a values hs
  | periodicEvaluation a =>
    obtain ⟨t, answer, _, _, _, _, _, _, kept, -⟩ := execPeriodicEvaluation_leaves a s hs
    exact .of_kept answer kept
  | safetyTimerLimit a => exact (execSafetyTimerLimit_leaves a).answersBytes hs
  | switchConfirm a switch =>
    obtain ⟨t, answer, moved⟩ := execSwitchConfirm_leaves a switch s hs
    exact .of_moved answer moved
  | switchConfirmTimeout a =>
    obtain ⟨t, answer, moved⟩ := execSwitchConfirmTimeout_leaves a s hs
    exact .of_moved answer moved
  | vinCollapse a =>
    obtain ⟨t, answer, moved⟩ := execVinCollapse_leaves a s hs
    exact .of_moved answer moved

/-! ## Every command of every part -/

theorem exec_keepsBytes_of_free (i : Instr) (s : State) (hs : s.supply.held = false) :
    ∃ t, exec i s = .next t ∧ KeepsBytes s t := by
  cases hi : resetsPart i with
  | false =>
    obtain ⟨t, answer, kept⟩ := State.answersBytes_of_free i s hs hi
    exact ⟨t, answer, (s.arrive_keepsBytes i.ambient).trans kept⟩
  | true =>
    cases i with
    | powerOnReset a levels =>
      exact ⟨_, exec_powerOnReset a levels s, (s.arrive_keepsBytes a).trans (State.fullReset_keepsBytes _ _ _)⟩
    | brownoutReset a =>
      refine ⟨_, (perform_free hs : execBrownoutReset a s = _), ?_⟩
      exact (s.arrive_keepsBytes a).trans ((State.brownout_keepsBytes _).trans .of_blocks)
    | _ => cases hi

theorem exec_keepsBytes_of_held (i : Instr) (s : State) (hs : s.supply.held = true) :
    ∃ t, exec i s = .next t ∧ KeepsBytes s t := by
  cases hi : actsHeld i with
  | false => exact ⟨_, exec_held hs hi, s.arriveHeld_keepsBytes i.ambient⟩
  | true =>
    cases i with
    | powerOnReset a levels =>
      exact ⟨_, exec_powerOnReset a levels s, (s.arrive_keepsBytes a).trans (State.fullReset_keepsBytes _ _ _)⟩
    | brownoutRelease a => exact ⟨_, if_pos hs, (s.arriveHeld_keepsBytes a).trans (State.brownout_keepsBytes _)⟩
    | inputLineEdge a line level => exact ⟨_, if_pos hs, (s.arriveHeld_keepsBytes a).trans .of_blocks⟩
    | _ => cases hi

/-- Settles O55: an idle step changes nothing, and the front command keeps the canonical form, whether the brownout reset is held or
not; the queue of commands holds no bytes of the part. -/
theorem stepsKeepBytesCanonical : Obligations.StepsKeepBytesCanonical := by
  unfold Obligations.StepsKeepBytesCanonical
  intro s t good stepped
  unfold step at stepped
  split at stepped
  case h_1 idle =>
    cases stepped
    exact good
  case h_2 front rest queued =>
    obtain ⟨u, answer, kept⟩ : ∃ u, exec front { s with pending := rest } = .next u ∧ KeepsBytes { s with pending := rest } u := by
      cases hs : s.supply.held with
      | false => exact exec_keepsBytes_of_free front _ hs
      | true => exact exec_keepsBytes_of_held front _ hs
    cases answer.symm.trans stepped
    exact kept good

end Sys2Proof.Machine
end

section
/-! CLIP_OPEN: its checks in order and the clip that it opens (O34). -/

namespace Sys2Proof.Machine

/-! ## The checks of CLIP_OPEN (R102) -/

theorem Card.usable_iff (c : Card) : c.usable = true ↔ c.state = .ready ∨ c.state = .writing ∨ c.state = .busy := by
  simp [Card.usable, or_assoc]

theorem Supply.lowPower_iff (u : Supply) : u.lowPower = true ↔ u.lowBattery = true ∨ u.dieHot = true := by
  simp [Supply.lowPower]

theorem Seg.releasable_iff (g : Seg) : g.releasable = true ↔ g.phase = .complete ∧ g.owner = none := by
  simp [Seg.releasable]

/-- Room in the table and a first pack, each perhaps by a release (R152). -/
theorem Store.canOpen_iff (loop : Bool) (st : Store) :
    let releasable := ∃ g ∈ st.table, g.phase = .complete ∧ g.owner = none
    st.canOpen loop = true ↔ (st.table.length < 16 ∨ releasable) ∧ (st.pool ≠ [] ∨ (loop = true ∧ releasable)) := by
  intro releasable
  have any : st.table.any Seg.releasable = true ↔ releasable := by
    simp only [List.any_eq_true, Seg.releasable_iff, releasable]
  have size : Config.tableSize = 16 := rfl
  simp only [Store.canOpen, Bool.and_eq_true, Bool.or_eq_true, decide_eq_true_eq, any, size, Bool.not_eq_true',
    List.isEmpty_eq_false_iff, ne_eq]

section
variable {s : State} {f : ClipFields}

/-- The streams mask of a clip: MAIN in it, and no bit that names no stream. -/
def ClipFields.Maskable (f : ClipFields) : Prop := f.streams.getLsbD 0 = true ∧ f.streams.toNat < 16

theorem State.clipRefusal_busy (open_ : s.writer.state ≠ .idle) : s.clipRefusal f = some .busy := if_pos open_

variable (idle : s.writer.state = .idle)
include idle

theorem State.clipRefusal_mask (bad : ¬f.Maskable) : s.clipRefusal f = some .badField := by
  refine (if_neg (not_not.2 idle)).trans (if_pos ?_)
  rw [Bool.or_eq_true, Bool.not_eq_true', decide_eq_true_eq, ← Bool.not_eq_true, ge_iff_le, ← Nat.not_lt, ← not_and_or]
  exact bad

/-- With a good mask the card, the power and the room are looked at in turn. -/
theorem State.clipRefusal_masked (mask : f.Maskable) : s.clipRefusal f =
    if s.card.usable = true then
      if s.supply.lowPower = true then some .lowPower else if s.store.canOpen f.loop = true then none else some .noSpace
    else some .noCard := by
  have passes : ¬(!f.streams.getLsbD 0 || decide (f.streams.toNat ≥ 16)) = true := by
    rw [Bool.or_eq_true, Bool.not_eq_true', decide_eq_true_eq, ← Bool.not_eq_true, ge_iff_le, ← Nat.not_lt, ← not_and_or]
    exact not_not.2 mask
  refine (if_neg (not_not.2 idle)).trans ((if_neg passes).trans ?_)
  cases s.card.usable <;> cases s.store.canOpen f.loop <;> rfl

end

/-! ## The clip opened (R103) -/

theorem ClipFields.settings_eq (f : ClipFields) : f.settings =
    { number := f.number, streams := f.streams.setWidth 4, loop := f.loop, watermark := f.watermark
      duration := max 10 (min 600 f.duration), pre := min 120 f.pre, post := min 120 f.post } := by
  simp only [ClipFields.settings, clampTo, Nat.zero_max]

/-- The writer as it is opened, its buffers but for the one that becomes FILLING. -/
def Writer.cleared (w : Writer) (c : ClipSet) : Writer :=
  { w with
    state := .opened, clip := some c, reason := .none, gate := true, cutRequest := false, seqs := .all 0, placed := .all 0
    chunksDropped := 0, motionDropped := 0, markersDropped := 0, repeats := .empty, closing := .drain, tailBy := .assembler
    seg := none, lastIndex := 0 }

theorem Writer.openClip_eq (w : Writer) (c : ClipSet) : w.openClip c = { w.cleared c with bufs := match w.spare with
    | some i => w.bufs.set i .fresh
    | none => w.bufs } := by
  unfold Writer.openClip
  extract_lets v
  rw [show v.spare = w.spare from rfl]
  cases w.spare <;> rfl

section
variable {a : Ambient} {s : State} {f : ClipFields} (hs : s.supply.held = false) (body : s.frameBody .control = some (.clipOpen f))
include hs body

theorem exec_clipOpen_refused {r : Result} (refused : s.clipRefusal f = some r) :
    exec (.clipOpen a) s = .next ((s.arrive a).finish .control .refused r 0) := by
  refine (perform_free hs : execClipOpen a s = _).trans (congrArg Host.Outcome.next ?_)
  rw [show (s.arrive a).frameBody .control = _ from body]
  simp only [show (s.arrive a).clipRefusal f = some r from refused]

theorem exec_clipOpen_taken (passes : s.clipRefusal f = none) :
    exec (.clipOpen a) s = .next (State.rest (State.look .chunk (State.finish
      { s.arrive a with
        writer := s.writer.openClip f.settings
        path := { s.path with clipCount := 0 }
        store := s.store.openClip f.settings } .control .done .ok 0))) := by
  refine (perform_free hs : execClipOpen a s = _).trans (congrArg Host.Outcome.next ?_)
  rw [show (s.arrive a).frameBody .control = _ from body]
  simp only [show (s.arrive a).clipRefusal f = none from passes]
  rfl

end

/-- Settles O34: each check decides with those before it passed, and the clip opened is read field by field. -/
theorem clipOpenIsCheckedAndTaken : Obligations.ClipOpenIsCheckedAndTaken := by
  unfold Obligations.ClipOpenIsCheckedAndTaken
  intro a s f hs body u refused mask card low releasable room idle
  have refuse (r : Result) : s.clipRefusal f = some r → refused r := exec_clipOpen_refused hs body
  have usable : s.card.usable = true ↔ card := s.card.usable_iff
  have weak : s.supply.lowPower = true ↔ low := s.supply.lowPower_iff
  have roomy : s.store.canOpen f.loop = true ↔ room := s.store.canOpen_iff f.loop
  refine ⟨fun open_ => refuse _ (State.clipRefusal_busy open_), fun rest bad => refuse _ (State.clipRefusal_mask rest bad),
    fun rest good noCard => refuse _ ?card, fun rest good there weakens => refuse _ ?power,
    fun rest good there strong full => refuse _ ?space, fun rest good there strong free => ?taken⟩
  all_goals have masked := State.clipRefusal_masked (f := f) rest good
  case card => rw [masked, if_neg (mt usable.1 noCard)]
  case power => rw [masked, if_pos (usable.2 there), if_pos (weak.2 weakens)]
  case space => rw [masked, if_pos (usable.2 there), if_neg (mt weak.1 strong), if_neg (mt roomy.1 full)]
  case taken =>
    have passes : s.clipRefusal f = none := by
      rw [masked, if_pos (usable.2 there), if_neg (mt weak.1 strong), if_pos (roomy.2 free)]
    refine ⟨s.writer.openClip f.settings, ?state, ?writer⟩
    case state =>
      rw [exec_clipOpen_taken hs body passes, Store.openClip, f.settings_eq]
    case writer =>
      rw [Writer.openClip_eq, f.settings_eq]
      refine ⟨rfl, rfl, rfl, rfl, rfl, rfl, rfl, rfl, rfl, rfl, rfl, rfl, rfl, rfl, fun i spare => ?_⟩
      rw [spare]
      rfl

end Sys2Proof.Machine
end

section
/-! SUPPORT. The start of a close and its steps, each said once (R107, R116, R118, R119, R148). -/

namespace Sys2Proof.Machine

/-! ## The start of a close (R119 step 1) -/

theorem Exchange.finish_none (gate : Bool) (now : Time) {l : Lane} (st : Status) (r : Result) (v : Nat) {x : Exchange}
    (none : x.hand l = none) : x.finish gate now l st r v = x := by
  rw [Exchange.finish, none]

/-- A chunk that is not being copied. -/
theorem Writer.copyBegun_other {w : Writer} {j : ChunkJob} (job : w.job = some j) (other : j.stage ≠ .copying) :
    ¬w.copyBegun = true := by
  simpa [Writer.copyBegun, job] using other

theorem Writer.copyBegun_copying {w : Writer} {j : ChunkJob} (job : w.job = some j) (copying : j.stage = .copying) :
    w.copyBegun = true := by
  simpa [Writer.copyBegun, job] using copying

theorem Writer.copyBegun_none {w : Writer} (job : w.job = none) : ¬w.copyBegun = true := by
  simp [Writer.copyBegun, job]

/-- The writer as a close starts, its buffers and repeat sequences apart. -/
def Writer.closeStarted (w : Writer) (r : CloseReason) : Writer :=
  { w with
    state := .closing, reason := r, gate := false, cutRequest := false
    job := if w.copyBegun then w.job else none
    cut := (w.cut.filter Cut.stays).map fun c => { c with outer := none }
    closing := .drain, tailBy := .assembler }

/-- What the start of a close makes of the part: beside the writer only a buffer, the matters asked for, and the CHUNK frame in hand,
which is refused unless its copy has begun. -/
theorem State.startClose_eq {s : State} (r : CloseReason) (opened : s.writer.state = .opened) : ∃ bufs store,
    s.startClose r = { s with
      writer := { s.writer.closeStarted r with
        bufs, repeats := if s.xchg.hand .chunk = none ∨ s.writer.copyBegun = true then s.writer.repeats else .empty }
      store
      xchg := if s.writer.copyBegun = true then s.xchg else s.xchg.finish false s.time .chunk .refused .closing 0 } := by
  unfold State.startClose
  rw [if_neg (not_not.2 opened)]
  extract_lets begun job w dropBuf replacing w' store s'
  obtain ⟨bufs, same⟩ : ∃ bufs, w' = { s.writer.closeStarted r with bufs } := by
    unfold w'
    split
    · split <;> exact ⟨_, rfl⟩
    · exact ⟨_, rfl⟩
  have made : s' = { s with writer := { s.writer.closeStarted r with bufs }, store := store s.store } :=
    congrArg (fun v : Writer => { s with writer := v, store := store s.store }) same
  refine ⟨bufs, store s.store, ?_⟩
  rw [made]
  cases inHand : s.xchg.hand .chunk with
  | none =>
    simp only [Exchange.finish_none _ _ _ _ _ inHand, ite_self, true_or, if_true]
    rfl
  | some f =>
    cases copying : s.writer.copyBegun with
    | true =>
      simp only [show begun = true from copying, or_true, if_true]
      rfl
    | false =>
      simp only [show begun = false from copying, Bool.false_eq_true, reduceCtorEq, or_self, if_false]
      rfl

/-! ## CLIP_CLOSE (R118) -/

theorem Exchange.cardRecord_iff (x : Exchange) : x.cardRecord = true ↔
    ∃ e b n c es k l t, FaultRec.card e b n c es k l t ∈ x.stack := by
  unfold Exchange.cardRecord
  rw [List.any_eq_true]
  constructor
  · rintro ⟨r, mem, card⟩
    cases r with
    | card e b n c es k l t => exact ⟨e, b, n, c, es, k, l, t, mem⟩
    | frame | record => exact Bool.noConfusion card
  · rintro ⟨e, b, n, c, es, k, l, t, mem⟩
    exact ⟨_, mem, rfl⟩

section
variable {a : Ambient} {s : State} (hs : s.supply.held = false) (body : s.frameBody .control = some .clipClose)
include hs body

theorem exec_clipClose_faultPending (record : s.xchg.cardRecord = true) :
    exec (.clipClose a) s = .next ((s.arrive a).finish .control .refused .faultPending 0) := by
  refine (perform_free hs : execClipClose a s = _).trans (congrArg Host.Outcome.next ?_)
  rw [show (s.arrive a).frameBody .control = _ from body]
  exact if_pos record

/-- With no format-2 record the writer's state decides. -/
theorem exec_clipClose_free (none : ¬s.xchg.cardRecord = true) : exec (.clipClose a) s = .next (match s.writer.state with
    | .idle => ((((s.arrive a).onWriter fun w => { w with gate := true }).finish .control .done .notOpen 0).look .chunk).rest
    | .opened => (((s.arrive a).onXchg fun x => x.startHand .control).startClose .host).rest
    | .closing => ((s.arrive a).onXchg fun x => x.startHand .control).rest) := by
  refine (perform_free hs : execClipClose a s = _).trans (congrArg Host.Outcome.next ?_)
  rw [show (s.arrive a).frameBody .control = _ from body]
  exact (if_neg none).trans rfl

end

/-! ## The steps of a close (R119) -/

/-- A position is asked for a buffer, new or re-placed. -/
theorem Store.asks_iff (st : Store) : (st.matters.any fun m => m.asksPosition || m.replacesFilling) = true ↔
    ∃ m ∈ st.matters, (∃ i, m = .position i) ∨ ∃ i, m = .replaceFilling i := by
  have test (m : Matter) : (m.asksPosition || m.replacesFilling) = true ↔ (∃ i, m = .position i) ∨ ∃ i, m = .replaceFilling i := by
    cases m <;> simp [Matter.asksPosition, Matter.replacesFilling]
  simp only [List.any_eq_true, test]

theorem Store.replacing_iff (st : Store) : st.matters.any Matter.replacesFilling = true ↔ ∃ i, .replaceFilling i ∈ st.matters := by
  have test (m : Matter) : m.replacesFilling = true ↔ ∃ i, .replaceFilling i = m := by
    cases m <;> simp [Matter.replacesFilling]
  simp only [List.any_eq_true, test]
  exact ⟨fun ⟨_, mem, i, same⟩ => ⟨i, same ▸ mem⟩, fun ⟨i, mem⟩ => ⟨_, mem, i, rfl⟩⟩

theorem Writer.drained_iff (w : Writer) : w.drained = true ↔ (∀ i, (w.bufs.get i).st = .empty) ∧ w.tail.st = .empty := by
  have all : (w.bufs.toList.all fun b => b.st == .empty) = true ↔ ∀ i, (w.bufs.get i).st = .empty := by
    simp only [Four.toList, List.all_cons, List.all_nil, Bool.and_true, Bool.and_eq_true, beq_iff_eq]
    constructor
    · rintro ⟨h0, h1, h2, h3⟩ i
      match i with
      | 0 => exact h0
      | 1 => exact h1
      | 2 => exact h2
      | 3 => exact h3
    · exact fun h => ⟨h 0, h 1, h 2, h 3⟩
  rw [Writer.drained, Bool.and_eq_true, all, beq_iff_eq]

/-- The port has the tail of the close, and the card is not there to write it (R135, R137). -/
def State.TailGone (s : State) : Prop := s.writer.tailBy ≠ .assembler ∧ s.card.state ≠ .ready

theorem State.tailGone_iff (s : State) : (s.writer.tailBy != .assembler && s.card.state != .ready) = true ↔ s.TailGone := by
  simp [State.TailGone]

theorem State.closeStep_none {s : State} (h : s.writer.state ≠ .closing ∨ s.writer.cut ≠ none) : s.closeStep = none :=
  if_pos (h.imp id Option.isSome_iff_ne_none.2)

/-- The storage map as an empty final buffer gives its position back. -/
def State.finalReturned (s : State) (i : Fin 4) : Store :=
  match (s.writer.bufs.get i).pos, s.writer.seg with
  | some p, some g => s.store.returnPack g.serial p
  | _, _ => s.store

section
variable {s : State} (closing : s.writer.state = .closing) (uncut : s.writer.cut = none)
include closing uncut

/-- A step of a close at a stage of it. -/
theorem State.close_unbarred : ¬(s.writer.state ≠ .closing ∨ s.writer.cut.isSome = true) := by
  rw [closing, uncut]
  decide

section
variable (stage : s.writer.closing = .drain)
include stage

theorem State.closeStep_drain_busy (busy : s.writer.feed ≠ [] ∨ s.writer.job ≠ none) : s.closeStep = none := by
  refine (if_neg (State.close_unbarred closing uncut)).trans ?_
  rw [stage]
  refine if_neg fun free => ?_
  simp only [Bool.and_eq_true, List.isEmpty_iff, Option.isNone_iff_eq_none] at free
  exact busy.elim (· free.1) (· free.2)

variable (feed : s.writer.feed = []) (job : s.writer.job = none)
include feed job

theorem State.closeStep_drain_none (none : s.writer.filling = none) :
    s.closeStep = some { s with writer := { s.writer with closing := .waitWrites } } := by
  refine (if_neg (State.close_unbarred closing uncut)).trans ?_
  rw [stage]
  refine (if_pos (by rw [feed, job]; rfl)).trans ?_
  rw [none]
  rfl

variable {i : Fin 4} (filling : s.writer.filling = some i)
include filling

/-- Units wait for the final buffer, which has its position. -/
theorem State.closeStep_drain_units (placed : (s.writer.bufs.get i).pos ≠ none) (units : s.writer.queue ≠ []) :
    s.closeStep = none := by
  refine (if_neg (State.close_unbarred closing uncut)).trans ?_
  rw [stage]
  refine (if_pos (by rw [feed, job]; rfl)).trans ?_
  rw [filling]
  exact if_pos (by simpa [Option.isSome_iff_ne_none] using ⟨placed, units⟩)

/-- The final buffer waits for the position asked for it. -/
theorem State.closeStep_drain_asked (unplaced : (s.writer.bufs.get i).pos = none)
    (asked : (s.store.matters.any fun m => m.asksPosition || m.replacesFilling) = true) : s.closeStep = none := by
  refine (if_neg (State.close_unbarred closing uncut)).trans ?_
  rw [stage]
  refine (if_pos (by rw [feed, job]; rfl)).trans ?_
  rw [filling]
  dsimp only
  rw [unplaced, asked]
  rfl

section
variable (ready : ((s.writer.bufs.get i).pos ≠ none ∧ s.writer.queue = [])
  ∨ ((s.writer.bufs.get i).pos = none ∧ ¬(s.store.matters.any fun m => m.asksPosition || m.replacesFilling) = true))
include ready

/-- The final buffer is looked at: the queue drained, or no position for it on its way. -/
theorem State.closeStep_drain_final : s.closeStep =
    if (s.writer.bufs.get i).fill = 0 then
      some { s with writer := { s.writer with bufs := s.writer.bufs.set i .empty, closing := .waitWrites }, store := s.finalReturned i }
    else some { s with writer := { s.writer.pad s.time with closing := .queue } } := by
  have drained : ¬((s.writer.bufs.get i).pos.isSome && !s.writer.queue.isEmpty) = true := by
    obtain ⟨-, empty⟩ | ⟨unplaced, -⟩ := ready
    · simp [empty]
    · simp [unplaced]
  have settled : ¬((s.writer.bufs.get i).pos.isNone && s.store.matters.any fun m => m.asksPosition || m.replacesFilling) = true := by
    obtain ⟨placed, -⟩ | ⟨-, unasked⟩ := ready
    · simp [placed]
    · simp only [Bool.and_eq_true]
      exact fun h => unasked h.2
  refine (if_neg (State.close_unbarred closing uncut)).trans ?_
  rw [stage]
  refine (if_pos (by rw [feed, job]; rfl)).trans ?_
  rw [filling]
  refine (if_neg drained).trans ((if_neg settled).trans ?_)
  have returned : ∀ (p : Option Nat) (g : Option SegInfo) (t : State), (match p, g with
      | some p, some g => t.onStore fun st => st.returnPack g.serial p
      | _, _ => t) = { t with store := match p, g with
        | some p, some g => t.store.returnPack g.serial p
        | _, _ => t.store } := by
    intro p g t
    cases p <;> cases g <;> rfl
  exact if_congr Iff.rfl (congrArg (fun t : State => some (t.onWriter fun w => { w with closing := .waitWrites }))
    (returned (s.writer.bufs.get i).pos s.writer.seg (s.onWriter fun w => w.onBuf i fun _ => .empty))) rfl

end

end

section
variable (stage : s.writer.closing = .queue)
include stage

theorem State.closeStep_queue_none (none : s.writer.filling = none) :
    s.closeStep = some { s with writer := { s.writer with closing := .waitWrites } } := by
  refine (if_neg (State.close_unbarred closing uncut)).trans ?_
  rw [stage, none]
  rfl

variable {i : Fin 4} (filling : s.writer.filling = some i)
include filling

/-- The final pack is handed once the list has room. -/
theorem State.closeStep_queue_placed {p : Nat} (pos : (s.writer.bufs.get i).pos = some p) : s.closeStep =
    if s.listRoom = true then some { s with
      writer := { s.writer with
        bufs := s.writer.bufs.set i { s.writer.bufs.get i with st := .queued }, closing := .waitWrites }
      card := { s.card with list := s.card.list ++
        [s.writer.entry (.buf i) p 128 ((s.writer.seg.map (·.serial)).getD 0) false] } }
    else none := by
  refine (if_neg (State.close_unbarred closing uncut)).trans ?_
  rw [stage, filling]
  cases room : s.listRoom with
  | false => simp [pos]
  | true =>
    have known : (s.writer.bufs.get i).pos.getD 0 = p := by rw [pos]; rfl
    rw [if_pos rfl, ← known]
    exact if_pos (by simp [pos])

/-- Without a position, and none on its way, the final pack is given up. -/
theorem State.closeStep_queue_unplaced (pos : (s.writer.bufs.get i).pos = none) : s.closeStep =
    if s.store.matters.any Matter.replacesFilling = true then none
    else some { s with writer := { s.writer with bufs := s.writer.bufs.set i .empty, closing := .waitWrites } } := by
  refine (if_neg (State.close_unbarred closing uncut)).trans ?_
  rw [stage, filling]
  refine (if_neg (by simp [pos])).trans ?_
  by_cases asked : s.store.matters.any Matter.replacesFilling = true
  · rw [if_pos asked]
    exact if_neg (by rw [asked]; simp)
  · rw [if_neg asked]
    exact if_pos (by rw [pos, Bool.eq_false_iff.2 asked]; rfl)

end

theorem State.closeStep_waitWrites (stage : s.writer.closing = .waitWrites) : s.closeStep =
    if s.writer.drained = true then some { s with writer := { s.writer with closing := .askTail } } else none := by
  refine (if_neg (State.close_unbarred closing uncut)).trans ?_
  rw [stage]
  rfl

theorem State.closeStep_askTail (stage : s.writer.closing = .askTail) : s.closeStep = match s.writer.seg with
    | none => some { s with writer := { s.writer with closing := .finish } }
    | some g => some { s with
        writer := { s.writer with closing := .waitTail }
        store := { s.store.mapSeg g.serial (fun h => h.noteClose s.time) with
          matters := s.store.matters ++ [.closing false (s.writer.tailBy != .assembler && s.card.state != .ready)] } } := by
  refine (if_neg (State.close_unbarred closing uncut)).trans ?_
  rw [stage]
  rfl

theorem State.closeStep_waitTail (stage : s.writer.closing = .waitTail) : s.closeStep = none := by
  refine (if_neg (State.close_unbarred closing uncut)).trans ?_
  rw [stage]

section
variable (stage : s.writer.closing = .handTail)
include stage

theorem State.closeStep_handTail_gone (gone : s.TailGone) : s.closeStep = some { s with
    writer := { s.writer with tail := .empty, closing := .finish }
    store := s.store.tailMissing s.writer.tail.serial } := by
  refine (if_neg (State.close_unbarred closing uncut)).trans ?_
  rw [stage]
  exact if_pos (s.tailGone_iff.2 gone)

theorem State.closeStep_handTail_there (there : ¬s.TailGone) : s.closeStep =
    if s.listRoom = true then some { s with
      writer := { s.writer with tail := { s.writer.tail with st := .queued }, closing := .waitTailWrite }
      card := { s.card with list := s.card.list ++
        [s.writer.entry .tail s.writer.tail.pos 1 s.writer.tail.serial (s.writer.tailBy == .settlement)] } }
    else none := by
  refine (if_neg (State.close_unbarred closing uncut)).trans ?_
  rw [stage]
  exact if_neg (mt s.tailGone_iff.1 there)

end

theorem State.closeStep_waitTailWrite (stage : s.writer.closing = .waitTailWrite) : s.closeStep =
    if s.writer.tail.st = .empty then some { s with writer := { s.writer with closing := .finish } } else none := by
  refine (if_neg (State.close_unbarred closing uncut)).trans ?_
  rw [stage]
  rfl

theorem State.closeStep_finish (stage : s.writer.closing = .finish) : s.closeStep = some s.endClose := by
  refine (if_neg (State.close_unbarred closing uncut)).trans ?_
  rw [stage]

end

/-! ## The end of a close (R119 step 6) -/

/-- The writer back in IDLE, its clip gone. -/
def State.clipEnded (s : State) : State :=
  { s with writer := { s.writer with
    state := .idle, clip := none, queue := [], repeats := .empty, closing := .drain, tailBy := .assembler, seg := none } }

/-- The end of a close told: event 0x0402, then the report. -/
def State.closeTold (s t : State) : State :=
  let v := State.raise emit 0x0402 s.writer.clipNumber.toNat t
  { v with store := v.store.offer s.time .clip (.clipClosed s.writer.clipNumber s.writer.reason s.writer.placed
    s.writer.chunksDropped s.writer.motionDropped s.writer.markersDropped) }

theorem State.endClose_frame {s : State} {f : Taken} (inHand : s.xchg.hand .control = some f) (started : f.started = true)
    (body : f.body = .clipClose) :
    s.endClose = s.closeTold (s.clipEnded.finish .control .done .ok s.writer.clipNumber.toNat) := by
  unfold State.endClose
  dsimp only
  rw [inHand]
  dsimp only
  rw [body]
  dsimp only
  rw [if_pos started]
  rfl

theorem State.endClose_noFrame {s : State}
    (none : ∀ f, s.xchg.hand .control = some f → f.started = false ∨ f.body ≠ .clipClose) :
    s.endClose = s.closeTold s.clipEnded := by
  unfold State.endClose
  dsimp only
  split
  next f inHand =>
    split
    next body =>
      have fresh : f.started = false := (none f inHand).resolve_right (not_not.2 body)
      rw [if_neg (by rw [fresh]; decide)]
      rfl
    next => rfl
  next => rfl

/-! ## The answer to the close of a segment (R116 step 3, R148) -/

/-- The tail block of the segment that the assembler knows. -/
def State.tailBuilt (s : State) (g : SegInfo) (block : Nat) (reason : CutReason) : TailBuf :=
  let times := match s.store.seg g.serial with
    | some h => (h.start, h.stop, h.used)
    | none => (s.time, s.time, 0)
  { st := .built, pos := block, serial := g.serial
    data := memCells 0 (tailBytes s.writer.clipNumber g.serial g.index reason s.writer.reason times.2.2 g.counts s.writer.seqs
      times.1 times.2.1) }

theorem State.buildTail_eq {s : State} {g : SegInfo} (seg : s.writer.seg = some g) (reason : CutReason) (block : Nat) :
    s.buildTail reason block = { s with writer := { s.writer with tail := s.tailBuilt g block reason } } := by
  unfold State.buildTail
  rw [seg]
  rfl

section
variable {s : State} {g : SegInfo} (seg : s.writer.seg = some g) (block : Nat)
include seg

theorem State.closeAnswered_close : s.closeAnswered false (some block) =
    { s with writer := { s.writer with tail := s.tailBuilt g block .close, seg := none, closing := .handTail } } :=
  congrArg (fun t : State => t.onWriter fun w => { w with seg := none, closing := .handTail }) (State.buildTail_eq seg .close block)

/-- The cut keeps its reason in the tail it builds. -/
theorem State.closeAnswered_cut {c : Cut} (cut : s.writer.cut = some c) : s.closeAnswered true (some block) =
    { s with writer := { s.writer with
      tail := s.tailBuilt g block c.reason, seg := none, cut := some { c with stage := .handTail } } } := by
  have reason : (s.writer.cut.map (·.reason)).getD .close = c.reason := by rw [cut]; rfl
  have built := State.buildTail_eq seg ((s.writer.cut.map (·.reason)).getD .close) block
  refine (congrArg (fun t : State => t.onWriter fun w =>
    { w with seg := none, cut := w.cut.map fun c => { c with stage := .handTail } }) built).trans ?_
  rw [reason]
  exact congrArg (fun o => ({ s with writer := { s.writer with
    tail := s.tailBuilt g block c.reason, seg := none, cut := o } } : State)) (by rw [cut]; rfl)

end

/-- With no block left for its tail the cut goes on to its opening. -/
theorem State.closeAnswered_cut_none {s : State} {c : Cut} (cut : s.writer.cut = some c) : s.closeAnswered true none =
    { s with writer := { s.writer with seg := none, cut := some { c with stage := .askOpen } } } :=
  congrArg (fun o => ({ s with writer := { s.writer with seg := none, cut := o } } : State)) (by rw [cut]; rfl)

end Sys2Proof.Machine
end

section
/-! CLIP_CLOSE and the close of a clip (O35). -/

namespace Sys2Proof.Machine

/-- Settles O35: CLIP_CLOSE by the record and the writer's state, the start of a close field by field, its steps stage by stage, and the
answer to the close of a segment. -/
theorem clipCloseStartsTheClose : Obligations.ClipCloseStartsTheClose := by
  unfold Obligations.ClipCloseStartsTheClose
  refine ⟨fun a s hs body => ?command, fun r s other => State.startClose_other r other, fun r s opened => ?start,
    fun s barred => State.closeStep_none barred, fun s closing uncut => ?steps, fun s g block seg => ?answer⟩
  case command =>
    intro u record
    have stands : s.xchg.cardRecord = true ↔ record := s.xchg.cardRecord_iff
    refine ⟨fun r => exec_clipClose_faultPending hs body (stands.2 r), fun none idle => ?_, fun none opened => ?_,
      fun none closing => ?_⟩
    all_goals rw [exec_clipClose_free hs body (mt stands.1 none)]
    · rw [idle]
      rfl
    · rw [opened]
    · rw [closing]
  case start =>
    obtain ⟨bufs, store, started⟩ := State.startClose_eq r opened
    intro t
    rw [show t = _ from started]
    refine ⟨rfl, rfl, rfl, rfl, rfl, rfl, rfl,
      fun kept => if_pos (kept.imp id fun ⟨j, job, copying⟩ => Writer.copyBegun_copying job copying),
      fun inHand none => if_neg (not_or.2 ⟨inHand, Bool.eq_false_iff.1 (s.writer.copyBegun_eq_false.2 none)⟩),
      fun none => if_neg (Writer.copyBegun_none none), fun j job other => ?other, fun j job copying => ?copying,
      rfl, rfl, rfl, rfl, rfl, rfl⟩
    case other => exact ⟨if_neg (Writer.copyBegun_other job other), if_neg (Writer.copyBegun_other job other)⟩
    case copying =>
      have begun := Writer.copyBegun_copying job copying
      exact ⟨if_pos begun, (if_pos begun).trans job⟩
  case steps =>
    intro w steps waits goes emptied asked replacing gone entry
    have asks : (s.store.matters.any fun m => m.asksPosition || m.replacesFilling) = true ↔ asked := s.store.asks_iff
    have replaces : s.store.matters.any Matter.replacesFilling = true ↔ replacing := s.store.replacing_iff
    refine ⟨fun stage => ?drain, fun stage => ?queue, fun stage => ?waitWrites, fun stage => ?askTail,
      State.closeStep_waitTail closing uncut, fun stage => ?handTail, fun stage => ?waitTailWrite, fun stage => ?finish⟩
    case drain =>
      refine ⟨State.closeStep_drain_busy closing uncut stage, fun feed job => ⟨State.closeStep_drain_none closing uncut stage feed job,
        fun i filling => ?_⟩⟩
      refine ⟨State.closeStep_drain_units closing uncut stage feed job filling,
        fun unplaced ask => State.closeStep_drain_asked closing uncut stage feed job filling unplaced (asks.2 ask), fun ready => ?_⟩
      have final := State.closeStep_drain_final closing uncut stage feed job filling (by rwa [asks])
      exact ⟨fun some => final.trans (if_neg some), fun empty => final.trans (if_pos empty)⟩
    case queue =>
      refine ⟨State.closeStep_queue_none closing uncut stage, fun i filling => ⟨fun p pos => ?placed, fun pos => ?unplaced⟩⟩
      case placed =>
        have step := State.closeStep_queue_placed closing uncut stage filling pos
        exact ⟨fun full => step.trans (if_neg (by rw [full]; decide)), fun room => step.trans (if_pos room)⟩
      case unplaced =>
        have step := State.closeStep_queue_unplaced closing uncut stage filling pos
        exact ⟨fun some => step.trans (if_pos (replaces.2 some)), fun none => step.trans (if_neg (mt replaces.1 none))⟩
    case waitWrites =>
      intro drained
      have empty : s.writer.drained = true ↔ drained := s.writer.drained_iff
      have step := State.closeStep_waitWrites closing uncut stage
      exact ⟨fun all => step.trans (if_pos (empty.2 all)), fun some => step.trans (if_neg (mt empty.1 some))⟩
    case askTail =>
      have step := State.closeStep_askTail closing uncut stage
      refine ⟨fun none => step.trans (by rw [none]), fun g seg => ⟨_, s.tailGone_iff, step.trans (by rw [seg])⟩⟩
    case handTail =>
      refine ⟨State.closeStep_handTail_gone closing uncut stage, fun there => ?_⟩
      have step := State.closeStep_handTail_there closing uncut stage there
      exact ⟨fun full => step.trans (if_neg (by rw [full]; decide)), fun room => step.trans (if_pos room)⟩
    case waitTailWrite =>
      have step := State.closeStep_waitTailWrite closing uncut stage
      exact ⟨fun empty => step.trans (if_pos empty), fun some => step.trans (if_neg some)⟩
    case finish =>
      intro clip report idle told
      have step := State.closeStep_finish closing uncut stage
      exact ⟨fun f inHand started body => step.trans (congrArg some (State.endClose_frame inHand started body)),
        fun none => step.trans (congrArg some (State.endClose_noFrame none))⟩
  case answer =>
    intro w built
    exact ⟨State.closeAnswered_close seg block, rfl,
      fun c cut => ⟨State.closeAnswered_cut seg block cut, State.closeAnswered_cut_none cut⟩⟩

end Sys2Proof.Machine
end

section
/-! SUPPORT. When a cut is due, a chunk's frame at placing, the start of its unit and the steps of a cut (R106, R107, R114 to R116). -/

namespace Sys2Proof.Machine

/-! ## When a cut is due (R115) -/

/-- The cut that the host has asked for. -/
def Writer.hostCut (w : Writer) : Option CutReason := if w.cutRequest = true then some .host else none

section
variable {s : State} {j : ChunkJob}

theorem State.cutDue_none (never : s.writer.clip = none ∨ j.stream ≠ .main) : s.cutDue j = none := by
  unfold State.cutDue
  split
  next => rfl
  next c clip => exact if_pos (never.resolve_left (by rw [clip]; simp))

variable {c : ClipSet} (clip : s.writer.clip = some c) (main : j.stream = .main)
include clip main

/-- With no unit in the open segment no time has passed in it. -/
theorem State.cutDue_untimed (untimed : s.store.openSeg = none ∨ ∃ g, s.store.openSeg = some g ∧ g.timed = false) :
    s.cutDue j = s.writer.hostCut := by
  rw [State.cutDue, clip]
  refine (if_neg (not_not.2 main)).trans ?_
  obtain none | ⟨g, seg, fresh⟩ := untimed
  · simp only [none, Bool.and_false, Bool.false_eq_true, if_false]
    rfl
  · simp only [seg, fresh, Bool.false_and, Bool.and_false, Bool.false_eq_true, if_false]
    rfl

theorem State.cutDue_timed {g : Seg} (seg : s.store.openSeg = some g) (timed : g.timed = true) :
    let elapsed := if timeLater j.time g.start then timeSince j.time g.start else 0
    let point := j.flags.getLsbD 0
    s.cutDue j = if point = true ∧ c.duration * 1000000 ≤ elapsed then some .time
      else if point = false ∧ (c.duration + 2) * 1000000 ≤ elapsed then some .forced else s.writer.hostCut := by
  intro elapsed point
  have passed : (if g.timed && timeLater j.time g.start then some (timeSince j.time g.start) else if g.timed then some 0 else none)
      = some elapsed := by
    unfold elapsed
    rw [timed]
    cases timeLater j.time g.start <;> rfl
  rw [State.cutDue, clip]
  refine (if_neg (not_not.2 main)).trans ?_
  simp only [seg, passed]
  simp only [Bool.and_eq_true, Bool.not_eq_true', decide_eq_true_eq]
  rfl

end

/-! ## A chunk's frame at placing (R114) -/

theorem State.stagingFull_iff (s : State) : s.stagingFull = true ↔
    ∃ i, s.writer.filling = some i ∧ 65536 ≤ (s.writer.bufs.get i).fill ∧ (s.writer.bufs.get i).pos ≠ none
      ∧ ¬(s.writer.spare ≠ none ∧ s.listRoom = true) := by
  have full (b : Buf) : (b.room == 0) = true ↔ 65536 ≤ b.fill := by
    rw [beq_iff_eq, Buf.room, Nat.sub_eq_zero_iff_le]
    rfl
  unfold State.stagingFull
  cases filling : s.writer.filling with
  | none => simp
  | some i =>
    simp only [Bool.and_eq_true, full, Option.isSome_iff_ne_none, Bool.not_eq_true', ← Bool.not_eq_true, Option.some.injEq,
      exists_eq_left', and_assoc]

section
variable {s : State} {j : ChunkJob} (job : s.writer.job = some j)
include job

/-- The chunk's frame judged. -/
def Writer.jobJudged (w : Writer) (j : ChunkJob) : Writer := { w with job := some { j with stage := .judged } }

section
variable (arrived : j.stage = .arrived) (main : j.stream = .main)
include arrived main

theorem State.jobStep_main_waits (waits : s.writer.cut ≠ none ∨ s.writer.placing = none) : s.jobStep = none := by
  rw [State.jobStep, job]
  dsimp only
  rw [arrived]
  refine (if_pos main).trans (if_pos ?_)
  rw [Bool.or_eq_true, Option.isSome_iff_ne_none, Option.isNone_iff_eq_none]
  exact waits

/-- A MAIN frame that can be placed is judged, and begins the cut that it causes. -/
theorem State.jobStep_main (uncut : s.writer.cut = none) (placing : s.writer.placing ≠ none) : s.jobStep = match s.cutDue j with
    | some r => some { s with writer := { s.writer.jobJudged j with
        cut := some { reason := r, stage := .place, outer := none }, cutRequest := false } }
    | none => some { s with writer := s.writer.jobJudged j } := by
  rw [State.jobStep, job]
  dsimp only
  rw [arrived]
  refine (if_pos main).trans ((if_neg ?_).trans ?_)
  · rw [Bool.or_eq_true, Option.isSome_iff_ne_none, Option.isNone_iff_eq_none]
    exact fun h => h.elim (· uncut) placing
  · cases s.cutDue j <;> rfl

end

section
variable (arrived : j.stage = .arrived) (other : j.stream ≠ .main)
include arrived other

theorem State.jobStep_dropped (full : j.stream = .proxy ∧ s.stagingFull = true) : s.jobStep = some (State.finish { s with
    writer := { s.writer with job := none, repeats := .empty, chunksDropped := s.writer.chunksDropped + 1 } }
    .chunk .dropped .stagingFull 0) := by
  rw [State.jobStep, job]
  dsimp only
  rw [arrived]
  exact (if_neg other).trans (if_pos full)

theorem State.jobStep_other (room : ¬(j.stream = .proxy ∧ s.stagingFull = true)) :
    s.jobStep = some { s with writer := s.writer.jobJudged j } := by
  rw [State.jobStep, job]
  dsimp only
  rw [arrived]
  exact (if_neg other).trans (if_neg room)

end

section
variable (judged : j.stage = .judged)
include judged

theorem State.jobStep_begins {i : Fin 4} (placing : s.writer.placing = some i) (uncut : s.writer.cut = none)
    (room : (s.writer.bufs.get i).fill < 65536) (queue : s.writer.queue = []) :
    s.jobStep = some (State.noteUnit j.time { s with writer := s.writer.startChunk j }) := by
  rw [State.jobStep, job]
  dsimp only
  rw [judged, placing]
  exact if_pos ⟨Option.isNone_iff_eq_none.2 uncut, (Buf.room_ne_zero _).2 room, List.isEmpty_iff.2 queue⟩

theorem State.jobStep_judged_waits (waits : s.writer.placing = none ∨ s.writer.cut ≠ none ∨ s.writer.queue ≠ []) :
    s.jobStep = none := by
  rw [State.jobStep, job]
  dsimp only
  rw [judged]
  dsimp only
  split
  next i placing =>
    refine if_neg fun ⟨uncut, _, empty⟩ => ?_
    obtain none | cut | queue := waits
    · exact nomatch placing.symm.trans none
    · exact cut (Option.isNone_iff_eq_none.1 uncut)
    · exact queue (List.isEmpty_iff.1 empty)
  next => rfl

end

theorem State.jobStep_copying (copying : j.stage = .copying) : s.jobStep = none := by
  rw [State.jobStep, job]
  dsimp only
  rw [copying]

end

/-! ## A chunk's unit begins (R106, R107, R194) -/

/-- CUTPOINT and REPEAT as the flags byte of a unit header. -/
theorem unitFlags_eq_ofNat (flags : Byte) (again : Bool) : (flags &&& 1) ||| (if again then 2 else 0) =
    BitVec.ofNat 8 ((if flags.getLsbD 0 then 1 else 0) + (if again then 2 else 0)) := by
  rw [show flags &&& 1 = _ from BitVec.and_one_eq_setWidth_ofBool_getLsbD]
  cases flags.getLsbD 0 <;> cases again <;> rfl

/-- The unit of a chunk, its parts told by any functions that agree with the model's. -/
theorem Writer.startChunk_eq {w : Writer} {j : ChunkJob} {kept : Option (BitVec 16)} {own : BitVec 16}
    {counted : Six Word → Six Word} {taken : Six (BitVec 16)} (repeats : w.repeats.of j.stream = kept)
    (next : streamGet w.seqs j.stream = own) (counts : ∀ v, streamSet v j.stream (· + 1) = counted v)
    (takes : streamSet w.seqs j.stream (· + 1) = taken) :
    w.startChunk j = { w with
      placed := counted w.placed
      seg := w.seg.map fun g => { g with counts := counted g.counts }
      seqs := if kept.isSome then w.seqs else taken
      feed := ((.bytes (leBytes 1 j.stream.code
            ++ leBytes 1 ((if j.flags.getLsbD 0 then 1 else 0) + (if kept.isSome then 2 else 0))
            ++ leBytes 2 (kept.getD own).toNat ++ leBytes 4 j.length ++ leBytes 8 j.time.toNat)
          :: j.pieces.map (fun p => .host p.address p.length)) ++ [.zeros ((4 - j.length % 4) % 4)]
        : List Src).filter fun r => r.length != 0
      job := some { j with seq := kept.getD own, stage := .copying } } := by
  subst repeats next takes
  obtain rfl : (fun v => streamSet v j.stream (· + 1)) = counted := funext counts
  have flags : [(j.flags &&& 1) ||| (if (w.repeats.of j.stream).isSome then 2 else 0)] =
      leBytes 1 ((if j.flags.getLsbD 0 then 1 else 0) + (if (w.repeats.of j.stream).isSome then 2 else 0)) :=
    congrArg (fun b => [b]) (unitFlags_eq_ofNat _ _)
  rw [← flags]
  rfl

/-! ## The padding of step 2 (R116) -/

section
variable {w : Writer} {i : Fin 4} (now : Time) (filling : w.filling = some i)
include filling

theorem Writer.pad_full (full : (w.bufs.get i).room = 0) : w.pad now = w := by
  rw [Writer.pad, filling]
  exact if_pos full

theorem Writer.pad_zeros (some : 0 < (w.bufs.get i).room) (few : (w.bufs.get i).room < 16) :
    w.pad now = w.onBuf i fun b => b.placeZeros (w.bufs.get i).room := by
  rw [Writer.pad, filling]
  exact (if_neg (Nat.ne_of_gt some)).trans (if_pos few)

/-- A FILLER unit of the rest of the buffer, counted. -/
theorem Writer.pad_filler (many : 16 ≤ (w.bufs.get i).room) : w.pad now = { (w.countUnit .filler).onBuf i
    (fun b => (b.place (unitHeader .filler 0 w.seqs.filler ((w.bufs.get i).room - 16) now)).placeZeros ((w.bufs.get i).room - 16)) with
      seqs := { w.seqs with filler := w.seqs.filler + 1 } } := by
  rw [Writer.pad, filling]
  exact (if_neg (by omega)).trans (if_neg (by omega))

end

/-! ## The steps of a cut (R116) -/

/-- The writer with its cut at another stage. -/
def Writer.cutTo (w : Writer) (c : Cut) (st : CutStage) : Writer := { w with cut := some { c with stage := st } }

/-- A close has turned the cut into itself. -/
def Writer.CutClosing (w : Writer) (c : Cut) : Prop := w.state = .closing ∧ c.reason ≠ .extents

theorem Writer.cutClosing_iff (w : Writer) (c : Cut) : (w.state == .closing && c.reason != .extents) = true ↔ w.CutClosing c := by
  simp [Writer.CutClosing]

section
variable {s : State} {c : Cut} (cut : s.writer.cut = some c)
include cut

section
variable (stage : c.stage = .place)
include stage

theorem State.cutStep_pads (queue : s.writer.queue = []) (placing : s.writer.placing ≠ none) :
    s.cutStep = some { s with writer := (s.writer.pad s.time).cutTo c .queue } := by
  rw [State.cutStep, cut]
  dsimp only
  rw [stage]
  exact if_pos (by simp [queue, Option.isSome_iff_ne_none, placing])

theorem State.cutStep_place_waits (waits : s.writer.queue ≠ [] ∨ s.writer.placing = none) : s.cutStep = none := by
  rw [State.cutStep, cut]
  dsimp only
  rw [stage]
  refine if_neg fun able => ?_
  simp only [Bool.and_eq_true, List.isEmpty_iff, Option.isSome_iff_ne_none] at able
  exact waits.elim (· able.1) able.2

end

section
variable (stage : c.stage = .queue)
include stage

theorem State.cutStep_queues {i j : Fin 4} {p : Nat} (filling : s.writer.filling = some i) (spare : s.writer.spare = some j)
    (room : s.listRoom = true) (pos : (s.writer.bufs.get i).pos = some p) : s.cutStep = some { s with
      writer := Writer.cutTo { s.writer with
        bufs := (s.writer.bufs.set i { s.writer.bufs.get i with st := .queued }).set j .fresh } c .askClose
      card := { s.card with list := s.card.list ++
        [s.writer.entry (.buf i) p 128 ((s.writer.seg.map (·.serial)).getD 0) false] } } := by
  have known : (s.writer.bufs.get i).pos.getD 0 = p := by rw [pos]; rfl
  rw [State.cutStep, cut]
  dsimp only
  rw [stage, filling, spare, ← known]
  exact if_pos (by rw [room, pos]; rfl)

theorem State.cutStep_queue_waits {i j : Fin 4} (filling : s.writer.filling = some i) (spare : s.writer.spare = some j)
    (waits : s.listRoom = false ∨ (s.writer.bufs.get i).pos = none) : s.cutStep = none := by
  rw [State.cutStep, cut]
  dsimp only
  rw [stage, filling, spare]
  refine if_neg fun able => ?_
  obtain ⟨room, placed⟩ := Bool.and_eq_true_iff.1 able
  obtain full | unplaced := waits
  · exact Bool.false_ne_true (full.symm.trans room)
  · rw [unplaced] at placed
    exact Bool.noConfusion placed

theorem State.cutStep_queue_none (away : s.writer.filling = none ∨ s.writer.spare = none) : s.cutStep = none := by
  rw [State.cutStep, cut]
  dsimp only
  rw [stage]
  dsimp only
  split
  next i j filling spare =>
    exact away.elim (fun h => nomatch filling.symm.trans h) fun h => nomatch spare.symm.trans h
  next => rfl

end

section
variable (stage : c.stage = .askClose)
include stage

/-- With no segment there is nothing to close; with one its close waits for the tail buffer. -/
theorem State.cutStep_askClose : s.cutStep = match s.writer.seg with
    | none => some { s with writer := s.writer.cutTo c .askOpen }
    | some g => if s.writer.tail.st = .empty then some { s with
          writer := s.writer.cutTo c .waitClose
          store := { s.store.mapSeg g.serial (fun h => h.noteClose s.time) with
            matters := s.store.matters ++ [.closing true false] } }
        else none := by
  rw [State.cutStep, cut]
  dsimp only
  rw [stage]
  cases s.writer.seg <;> rfl

end

theorem State.cutStep_waits (stage : c.stage = .waitClose ∨ c.stage = .waitOpen) : s.cutStep = none := by
  rw [State.cutStep, cut]
  dsimp only
  obtain stage | stage := stage <;> rw [stage]

theorem State.cutStep_handTail (stage : c.stage = .handTail) : s.cutStep =
    if s.listRoom = true then some { s.queueTail false with
      writer := if s.writer.state == .closing && c.reason != .extents then { (s.queueTail false).writer with cut := none }
        else (s.queueTail false).writer.cutTo c .askOpen }
    else none := by
  rw [State.cutStep, cut]
  dsimp only
  rw [stage]
  cases s.writer.state == .closing && c.reason != .extents <;> rfl

section
variable (stage : c.stage = .askOpen)
include stage

theorem State.cutStep_ends (closing : s.writer.CutClosing c) : s.cutStep = some { s with writer := { s.writer with cut := none } } := by
  rw [State.cutStep, cut]
  dsimp only
  rw [stage]
  exact if_pos ((s.writer.cutClosing_iff c).2 closing)

theorem State.cutStep_opens (going : ¬s.writer.CutClosing c) : s.cutStep = some { s with
    writer := s.writer.cutTo c .waitOpen
    store := { s.store with
      nextSerial := s.store.nextSerial + 1
      matters := s.store.matters ++ [.opening s.store.nextSerial s.writer.clipNumber (s.writer.lastIndex + 1)] } } := by
  rw [State.cutStep, cut]
  dsimp only
  rw [stage]
  exact if_neg (mt (s.writer.cutClosing_iff c).1 going)

end

end

end Sys2Proof.Machine
end

section
/-! Cuts: when one is due, a chunk's frame at placing, and the steps (O37). -/

namespace Sys2Proof.Machine

/-- Settles O37: the table of R115 by the time in the open segment, a frame by its stage and its stream, a unit's start by the stream,
the padding by the room left, the cut step by step. -/
theorem cutsAreDueAndTaken : Obligations.CutsAreDueAndTaken := by
  unfold Obligations.CutsAreDueAndTaken
  refine ⟨fun s j => ?due, fun s j job => ?placing, fun w j => ?unit, fun w now i filling => ?padding, fun s c cut => ?steps⟩
  case due =>
    exact ⟨State.cutDue_none, fun c clip main =>
      ⟨State.cutDue_untimed clip main, fun g seg timed => State.cutDue_timed clip main seg timed⟩⟩
  case placing =>
    intro judged full
    have staging : s.stagingFull = true ↔ full := s.stagingFull_iff
    refine ⟨fun arrived main => ?main, fun arrived other => ?other, fun stage => ?judged, State.jobStep_copying job⟩
    case main =>
      refine ⟨State.jobStep_main_waits job arrived main, fun uncut placing => ?_⟩
      have step := State.jobStep_main job arrived main uncut placing
      exact ⟨fun none => step.trans (by rw [none]; rfl), fun r due => step.trans (by rw [due]; rfl)⟩
    case other =>
      refine ⟨fun ⟨proxy, filled⟩ => State.jobStep_dropped job arrived other ⟨proxy, staging.2 filled⟩, fun room => ?_⟩
      exact State.jobStep_other job arrived other fun ⟨proxy, filled⟩ => room ⟨proxy, staging.1 filled⟩
    case judged =>
      exact ⟨fun i placing uncut room queue => State.jobStep_begins job stage placing uncut room queue,
        State.jobStep_judged_waits job stage⟩
  case unit =>
    intro kept own seq flags header counted taken
    refine ⟨Writer.startChunk_eq ?_ ?_ (fun v => ?_) ?_, rfl⟩
    · unfold kept
      cases j.stream <;> rfl
    · unfold own
      cases j.stream <;> rfl
    · unfold counted
      cases j.stream <;> rfl
    · unfold taken own
      cases j.stream <;> rfl
  case padding =>
    intro b room
    refine ⟨Writer.pad_full now filling, Writer.pad_zeros now filling, fun many => ?_⟩
    have filled : b.fill + (unitHeader .filler 0 w.seqs.filler (room - 16) now).length + (room - 16) = 65536 := by
      rw [unitHeader_length]
      unfold room at many ⊢
      omega
    rw [Writer.pad_filler now filling many]
    exact ⟨congrArg (fun n => w.bufs.set i { b with
      data := memWrite b.data b.fill (unitHeader .filler 0 w.seqs.filler (room - 16) now), fill := n }) filled, rfl, rfl⟩
  case steps =>
    intro goes ended closing
    have turned : s.writer.CutClosing c ↔ closing := Iff.rfl
    refine ⟨fun stage => ⟨State.cutStep_pads cut stage, State.cutStep_place_waits cut stage⟩, fun stage => ?queue,
      fun stage => ?askClose, State.cutStep_waits cut, fun stage => ?handTail,
      fun stage => ⟨State.cutStep_ends cut stage, State.cutStep_opens cut stage⟩⟩
    case queue =>
      exact ⟨fun i j filling spare => ⟨State.cutStep_queue_waits cut stage filling spare,
        fun p room pos => State.cutStep_queues cut stage filling spare room pos⟩, State.cutStep_queue_none cut stage⟩
    case askClose =>
      have step := State.cutStep_askClose cut stage
      refine ⟨fun none => step.trans (by rw [none]; rfl), fun g seg => ⟨fun some => ?_, fun empty => ?_⟩⟩
      all_goals rw [seg] at step
      · exact step.trans (if_neg some)
      · exact step.trans (if_pos empty)
    case handTail =>
      have step := State.cutStep_handTail cut stage
      refine ⟨fun full => step.trans (if_neg (by rw [full]; decide)), fun room =>
        ⟨_, step.trans (if_pos room), if_congr (s.writer.cutClosing_iff c) rfl rfl, rfl, rfl, rfl⟩⟩

end Sys2Proof.Machine
end

section
/-! SUPPORT. The matters of the storage map, one answer at a time (R110, R134, R135, R146 to R150, R158). -/

namespace Sys2Proof.Machine

/-! ## A matter's evaluation in the state (R158) -/

section
variable {α : Type} {rest : List Matter} {r : Reply α} {k : α → State → State} {s : State}

/-- Work without report room takes its place among those that wait, once. -/
theorem State.matterReply_blocked (h : r = .blocked) : s.matterReply rest r k =
    if s.store.waiting.contains .segmentWork then none
    else some { s with store := { s.store with waiting := s.store.waiting ++ [.segmentWork] } } := by
  subst h
  by_cases placed : s.store.waiting.contains .segmentWork = true
  · rw [if_pos placed]
    exact if_pos placed
  · rw [if_neg placed]
    refine (if_neg placed).trans (congrArg (fun st => some ({ s with store := st } : State)) ?_)
    exact if_neg placed

theorem State.matterReply_moved {st : Store} (h : r = .moved st) : s.matterReply rest r k = some { s with store := st } := by
  subst h
  rfl

theorem State.matterReply_answer {st : Store} {a : α} (h : r = .answer st a) :
    s.matterReply rest r k = some (k a { s with store := { st.clearWork with matters := rest } }) := by
  subst h
  rfl

end

section
variable {s : State} {rest : List Matter}

theorem State.matterStep_opening {n clip : Word} {i : Nat} (h : s.store.matters = .opening n clip i :: rest) :
    s.matterStep = s.matterReply rest (s.store.openSegment s.time n clip i) (State.opened n i) := by
  rw [State.matterStep, h]

theorem State.matterStep_position {i : Fin 4} (h : s.store.matters = .position i :: rest) : s.matterStep =
    s.matterReply rest (s.store.nextPack s.time false ((s.writer.seg.map (·.serial)).getD 0)) (State.positioned i) := by
  rw [State.matterStep, h]

theorem State.matterStep_closing {forCut noTail : Bool} (h : s.store.matters = .closing forCut noTail :: rest) : s.matterStep =
    s.matterReply rest (s.store.closeSegment s.time ((s.writer.seg.map (·.serial)).getD 0) noTail) (State.closeAnswered forCut) := by
  rw [State.matterStep, h]

theorem State.matterStep_closed {n : Word} (h : s.store.matters = .closed n :: rest) :
    s.matterStep = s.matterReply rest (s.store.completeSegment s.time n) fun _ => State.completed n := by
  rw [State.matterStep, h]

theorem State.matterStep_removal {n : Word} {block : Nat} {asked : Bool} (h : s.store.matters = .removal n block asked :: rest) :
    s.matterStep = s.matterReply rest (s.store.removeRange s.time n block) (State.removalMade block asked) := by
  rw [State.matterStep, h]

theorem State.matterStep_replaceFilling {i : Fin 4} (h : s.store.matters = .replaceFilling i :: rest) : s.matterStep =
    s.matterReply rest (s.store.nextPack s.time false ((s.writer.seg.map (·.serial)).getD 0)) (State.fillingReplaced i) := by
  rw [State.matterStep, h]

section
variable {source : Source} {settled first : Bool} (h : s.store.matters = .replace source settled first :: rest)
include h

/-- An entry that has left the list is not re-placed. -/
theorem State.matterStep_replace_gone (gone : ∀ e ∈ s.card.list, e.source ≠ source) :
    s.matterStep = some { s with store := { s.store with matters := rest } } := by
  have absent : s.card.list.find? (fun e => e.source == source) = none := by simpa using gone
  rw [State.matterStep, h]
  dsimp only
  rw [absent]
  rfl

theorem State.matterStep_replace {e : Entry} (found : s.card.list.find? (fun e => e.source == source) = some e) :
    s.matterStep = s.matterReply rest (s.store.nextPack s.time settled e.serial) (State.replaced e settled first) := by
  rw [State.matterStep, h]
  dsimp only
  rw [found]

end

end

/-! ## The answer to an opening (R146) -/

/-- The first position handed after the event. -/
theorem State.opened_handed {s : State} (n : Word) (i b : Nat) (filling : (State.raise emit 0x0400 n.toNat s).writer.filling ≠ none) :
    let t := State.raise emit 0x0400 n.toNat s
    s.opened n i (some b) = { t with writer := { t.writer.openSegment n i b with lastIndex := i, cut := t.writer.cutAfter } } :=
  if_neg (mt Option.isNone_iff_eq_none.1 filling)

/-- With no FILLING buffer left the first position goes back (log entry 59). -/
theorem State.opened_returned {s : State} (n : Word) (i b : Nat) (gone : (State.raise emit 0x0400 n.toNat s).writer.filling = none) :
    let t := State.raise emit 0x0400 n.toNat s
    s.opened n i (some b) = { t with
      writer := { t.writer.openSegment n i b with lastIndex := i, cut := t.writer.cutAfter }, store := t.store.returnPack n b } :=
  if_pos (Option.isNone_iff_eq_none.2 gone)

/-! ## STORAGE_FULL (R152) -/

/-- The event for a clip, then its report. -/
def State.fullTold (now : Time) (clip : Word) (s : State) : State :=
  let t := State.raise emit 0x0404 clip.toNat s
  { t with store := t.store.offer now .level (.storageFull clip t.store.freePacks) }

theorem State.raiseFull_eq {s : State} {now : Time} {clip : Word} (time : s.time = now) (known : s.writer.clipNumber = clip) :
    s.raiseFull = s.fullTold now clip := by
  subst time known
  rfl

theorem State.startClose_time (r : CloseReason) (s : State) : (s.startClose r).time = s.time := by
  by_cases opened : s.writer.state = .opened
  · obtain ⟨bufs, store, started⟩ := State.startClose_eq r opened
    rw [started]
  · rw [State.startClose_other r opened]

theorem State.startClose_clipNumber (r : CloseReason) (s : State) : (s.startClose r).writer.clipNumber = s.writer.clipNumber := by
  by_cases opened : s.writer.state = .opened
  · obtain ⟨bufs, store, started⟩ := State.startClose_eq r opened
    rw [started]
    rfl
  · rw [State.startClose_other r opened]

/-! ## The answer to a removal (R150) -/

theorem inRange_iff (range : Option (Nat × Nat)) (b : Nat) :
    inRange range b = true ↔ ∃ lo k, range = some (lo, k) ∧ lo ≤ b ∧ b < lo + k := by
  obtain _ | ⟨lo, k⟩ := range <;> simp [inRange]

section
variable {s : State} (range : Option (Nat × Nat))

/-- The FILLING buffer inside the range asks for a new position. -/
theorem State.fillingRemoved_inside {i : Fin 4} {b : Nat} (filling : s.writer.filling = some i)
    (pos : (s.writer.bufs.get i).pos = some b) (inside : inRange range b = true) : s.fillingRemoved range = { s with
      store := { s.store with matters := s.store.matters ++ [.replaceFilling i] }
      writer := { s.writer with bufs := s.writer.bufs.set i { s.writer.bufs.get i with pos := none } } } := by
  rw [State.fillingRemoved, filling]
  exact if_pos (by rw [pos]; exact inside)

theorem State.fillingRemoved_outside
    (outside : ∀ i b, s.writer.filling = some i → (s.writer.bufs.get i).pos = some b → ¬inRange range b = true) :
    s.fillingRemoved range = s := by
  unfold State.fillingRemoved
  split
  next i filling =>
    refine if_neg fun inside => ?_
    cases pos : (s.writer.bufs.get i).pos with
    | none =>
      rw [pos] at inside
      exact Bool.noConfusion inside
    | some b =>
      rw [pos] at inside
      exact outside i b filling pos inside
  next => rfl

end

/-! ## The answer to a re-placement (R134, R135, R150) -/

section
variable {s : State} {e : Entry}

/-- The list with the entries of a source at a new block. -/
def Card.replaced (c : Card) (source : Source) (block : Nat) : List Entry :=
  c.list.map fun o => if o.source = source then { o with block, awaiting := false } else o

theorem State.replaced_pack (settled first : Bool) (block : Nat) {i : Fin 4} (source : e.source = .buf i) :
    s.replaced e settled first (.position block) = { s with
      card := { s.card with list := s.card.replaced e.source block }
      writer := { s.writer with bufs := s.writer.bufs.set i { s.writer.bufs.get i with pos := some block } } } := by
  unfold State.replaced
  dsimp only
  split
  next k known =>
    obtain rfl : i = k := Source.buf.inj (source.symm.trans known)
    rfl
  next known => exact nomatch source.symm.trans known

theorem State.replaced_tail (settled first : Bool) (block : Nat) (source : e.source = .tail) :
    s.replaced e settled first (.position block) = { s with
      store := s.store.mapSeg e.serial fun g => { g with tail := .pending block }
      card := { s.card with list := s.card.replaced e.source block }
      writer := { s.writer with tail := { s.writer.tail with pos := block } } } := by
  unfold State.replaced
  dsimp only
  split
  next k known => exact nomatch source.symm.trans known
  next => rfl

section
variable (first : Bool) {answer : PosAnswer} (unplaced : ∀ b, answer ≠ .position b)
include unplaced

theorem State.replaced_settled : s.replaced e true first answer = s.discard e := by
  cases answer with
  | position b => exact absurd rfl (unplaced b)
  | extentsFull | none => rfl

theorem State.replaced_resumed : s.replaced e false first answer =
    if answer = .none then (s.unplaced e first).raiseFull else s.unplaced e first := by
  cases answer with
  | position b => exact absurd rfl (unplaced b)
  | extentsFull | none => rfl

theorem State.fillingReplaced_none (i : Fin 4) : s.fillingReplaced i answer =
    let closed := State.startClose .card { s with writer := { s.writer with bufs := s.writer.bufs.set i .empty } }
    if answer = .none then closed.raiseFull else closed := by
  cases answer with
  | position b => exact absurd rfl (unplaced b)
  | extentsFull | none => rfl

end

/-! ## An entry that has got no position (R134, R135) -/

/-- The packs of the resumption from an entry on. -/
def State.packsFrom (s : State) (source : Source) : List Entry :=
  ((s.card.list.dropWhile fun o => o.source != source).filter fun o => o.resumed).filter fun o => o.source != .tail

/-- The packs of the resumption from the entry on discarded, and the re-placements withdrawn. -/
def State.packsGone (s : State) (source : Source) (again : Bool) : State :=
  let packs := s.packsFrom source
  { s with
    card := { s.card with list := (s.card.list.filter fun o => !packs.any fun x => x.source == o.source).map fun o =>
      { o with awaiting := again && o.source == .tail } }
    writer := { s.writer with bufs := s.writer.freed packs }
    store := Store.dropReplaces { s.store with table := s.store.table.map fun g =>
      { g with unwritten := g.unwritten + (packs.filter fun o => o.serial == g.serial).length } } }

/-- The clip closed for CARD, its tail the port's; a first tail asks once more. -/
def State.closedUnplaced (kept : State) (again : Bool) : State :=
  let closed := kept.startClose .card
  { closed with
    writer := if closed.writer.state = .closing then { closed.writer with tailBy := .resumption } else closed.writer
    store := { closed.store with matters := closed.store.matters ++ if again then [.replace .tail true true] else [] } }

theorem State.closedUnplaced_eq (kept : State) (again : Bool) : kept.closedUnplaced again =
    if again then (kept.closeForCard .resumption).onStore fun st => { st with matters := st.matters ++ [.replace .tail true true] }
    else kept.closeForCard .resumption := by
  cases again with
  | true => rfl
  | false =>
    unfold State.closedUnplaced
    simp only [Bool.false_eq_true, if_false, List.append_nil]
    rfl

theorem State.unplaced_eq (s : State) (e : Entry) (first : Bool) :
    s.unplaced e first = (s.packsGone e.source (first && e.source == .tail)).closedUnplaced (first && e.source == .tail) := by
  have packs : ((s.card.list.dropWhile fun o => o.source != e.source).filter (·.resumed)).filter (fun o => o.source.isPack)
      = s.packsFrom e.source := List.filter_congr fun o _ => by cases o.source <;> rfl
  have noTail : ∀ o ∈ s.packsFrom e.source, o.source ≠ .tail := fun o mem => by simpa using (List.mem_filter.1 mem).2
  unfold State.unplaced
  dsimp only
  rw [packs, State.discards_eq _ _ noTail, State.closedUnplaced_eq]
  rfl

theorem State.closedUnplaced_time (kept : State) (again : Bool) : (kept.closedUnplaced again).time = kept.time :=
  State.startClose_time .card kept

theorem State.closedUnplaced_clipNumber (kept : State) (again : Bool) :
    (kept.closedUnplaced again).writer.clipNumber = kept.writer.clipNumber := by
  rw [← State.startClose_clipNumber .card kept]
  unfold State.closedUnplaced
  dsimp only
  split <;> rfl

end

end Sys2Proof.Machine
end

section
/-! SUPPORT. Completion of a segment, block work coming to rest, the report queue and its ring, and the levels (R142, R149, R152, R157,
R158; log entry 7). -/

namespace Sys2Proof.Machine

/-! ## The segment that asks for its completion (R149) -/

/-- A segment asks for its completion: its close ended, its tail settled, none of its writes left, and not asked yet. -/
def State.CompletesSeg (s : State) (g : Seg) : Prop :=
  g.phase = .ending ∧ (g.tail = .missing ∨ ∃ b, g.tail = .written b)
    ∧ (∀ e ∈ s.card.list, e.serial ≠ g.serial) ∧ Matter.closed g.serial ∉ s.store.matters

/-- The tail is written or missing. -/
def Seg.tailSettled (g : Seg) : Bool :=
  match g.tail with
  | .written _ => true
  | .missing => true
  | _ => false

theorem Seg.tailSettled_iff (g : Seg) : g.tailSettled = true ↔ g.tail = .missing ∨ ∃ b, g.tail = .written b := by
  unfold Seg.tailSettled
  cases g.tail <;> simp

/-- The first such segment of the table asks. -/
theorem State.completionStep_eq (s : State) : ∃ ready : Seg → Bool, (∀ g, ready g = true ↔ s.CompletesSeg g)
    ∧ s.completionStep = (s.store.table.find? ready).map fun g =>
      { s with store := { s.store with matters := s.store.matters ++ [.closed g.serial] } } := by
  refine ⟨_, fun g => ?_, rfl⟩
  have unlisted : (s.card.list.any fun e => e.serial == g.serial) = false ↔ ∀ e ∈ s.card.list, e.serial ≠ g.serial := by simp
  have unasked : s.store.matters.contains (.closed g.serial) = false ↔ Matter.closed g.serial ∉ s.store.matters := by simp
  change (g.phase == .ending && g.tailSettled && !(s.card.list.any fun e => e.serial == g.serial)
    && !s.store.matters.contains (.closed g.serial)) = true ↔ s.CompletesSeg g
  simp only [Bool.and_eq_true, beq_iff_eq, Bool.not_eq_true', g.tailSettled_iff, unlisted, unasked, and_assoc, State.CompletesSeg]

theorem State.completionStep_none {s : State} (never : ∀ g ∈ s.store.table, ¬s.CompletesSeg g) : s.completionStep = none := by
  obtain ⟨ready, known, step⟩ := s.completionStep_eq
  rw [step, List.find?_eq_none.2 fun g mem => mt (known g).1 (never g mem)]
  rfl

theorem State.completionStep_first {s : State} {pre post : List Seg} {g : Seg} (table : s.store.table = pre ++ g :: post)
    (others : ∀ h ∈ pre, ¬s.CompletesSeg h) (completes : s.CompletesSeg g) :
    s.completionStep = some { s with store := { s.store with matters := s.store.matters ++ [.closed g.serial] } } := by
  obtain ⟨ready, known, step⟩ := s.completionStep_eq
  have found : s.store.table.find? ready = some g := List.find?_eq_some_iff_append.2
    ⟨(known g).2 completes, pre, post, table, fun h mem => by simpa using mt (known h).1 (others h mem)⟩
  rw [step, found]
  rfl

/-! ## The blocks come to rest (log entry 7) -/

theorem firstSome_none {s : State} {works : List (State → Option State)} (rests : ∀ f ∈ works, f s = none) :
    firstSome s works = none := by
  induction works with
  | nil => rfl
  | cons f fs ih =>
    rw [firstSome, rests f List.mem_cons_self]
    exact ih fun g mem => rests g (List.mem_cons_of_mem _ mem)

theorem firstSome_first {s t : State} {pre post : List (State → Option State)} {f : State → Option State}
    (rest : ∀ g ∈ pre, g s = none) (works : f s = some t) : firstSome s (pre ++ f :: post) = some t := by
  induction pre with
  | nil => rw [List.nil_append, firstSome, works]
  | cons g gs ih =>
    rw [List.cons_append, firstSome, rest g List.mem_cons_self]
    exact ih fun h mem => rest h (List.mem_cons_of_mem _ mem)

theorem State.settleFor_rests {s : State} (n : Nat) (rests : firstSome s allWork = none) : s.settleFor (n + 1) = s := by
  rw [State.settleFor, rests]

theorem State.settleFor_works {s t : State} (n : Nat) (works : firstSome s allWork = some t) :
    s.settleFor (n + 1) = t.settleFor n := by
  rw [State.settleFor, works]

/-! ## A report of another producer (R158) -/

theorem ReportBody.isFull_iff (b : ReportBody) : b.isFull = true ↔ ∃ c f, b = .storageFull c f := by
  cases b <;> simp [ReportBody.isFull]

theorem ReportBody.isLow_iff (b : ReportBody) : b.isLow = true ↔ ∃ f k, b = .storageLow f k := by
  cases b <;> simp [ReportBody.isLow]

/-- The place holds a STORAGE_LOW that waits. -/
theorem Waiting.isLow_iff (w : Waiting) : w.isLow = true ↔ ∃ q o f k, w = .held q o ∧ o.body = .storageLow f k := by
  cases w with
  | segmentWork => simp [Waiting.isLow]
  | held q o =>
    rw [Waiting.isLow, ReportBody.isLow_iff]
    constructor
    · rintro ⟨f, k, body⟩
      exact ⟨q, o, f, k, rfl, body⟩
    · rintro ⟨_, _, f, k, same, body⟩
      obtain ⟨-, rfl⟩ := Waiting.held.inj same
      exact ⟨f, k, body⟩

section
variable (now : Time) (p : Producer) (b : ReportBody) {st : Store}

theorem Store.offer_joins (room : st.queue.length < 8) (free : st.waiting = []) :
    st.offer now p b = { st with queue := st.queue ++ [{ time := now, body := b }] } :=
  if_pos (by
    rw [free, List.isEmpty_nil, Bool.and_true]
    exact decide_eq_true room)

variable (busy : 8 ≤ st.queue.length ∨ st.waiting ≠ [])
include busy

/-- A report that does not join the queue. -/
theorem Store.offer_busy : ¬(decide (st.queue.length < Config.reportQueue) && st.waiting.isEmpty) = true := by
  rw [Bool.and_eq_true, decide_eq_true_eq, List.isEmpty_iff]
  exact fun ⟨room, free⟩ => busy.elim (Nat.not_le_of_lt room) (· free)

theorem Store.offer_waits (unplaced : ¬∃ w ∈ st.waiting, w.producer = p) :
    st.offer now p b = { st with waiting := st.waiting ++ [.held p { time := now, body := b }] } :=
  (if_neg (Store.offer_busy busy)).trans (if_neg (by simpa using unplaced))

variable (placed : ∃ w ∈ st.waiting, w.producer = p)
include placed

theorem Store.offer_lost (keeps : ¬(b.isFull = true ∧ ∃ w ∈ st.waiting, w.isLow = true)) :
    st.offer now p b = { st with lost := st.lost + 1 } :=
  (if_neg (Store.offer_busy busy)).trans ((if_pos (by simpa using placed)).trans (if_neg (by simpa using keeps)))

/-- A STORAGE_FULL takes the turn of the one STORAGE_LOW that waits (log entry 77). -/
theorem Store.offer_replaces {pre post : List Waiting} {w : Waiting} (isFull : b.isFull = true)
    (waiting : st.waiting = pre ++ w :: post) (low : w.isLow = true) (others : ∀ v, v ∈ pre ∨ v ∈ post → ¬v.isLow = true) :
    st.offer now p b = { st with waiting := pre ++ .held p { time := now, body := b } :: post } := by
  have same (l : List Waiting) (still : ∀ v ∈ l, ¬v.isLow = true) :
      (l.map fun v => if v.isLow then .held p { time := now, body := b } else v) = l :=
    (List.map_congr_left fun v mem => if_neg (still v mem)).trans (List.map_id' _)
  have replaced : (st.waiting.map fun v => if v.isLow then .held p { time := now, body := b } else v)
      = pre ++ .held p { time := now, body := b } :: post := by
    rw [waiting, List.map_append, List.map_cons, if_pos low, same pre fun v mem => others v (.inl mem),
      same post fun v mem => others v (.inr mem)]
  have waits : st.waiting.any Waiting.isLow = true := List.any_eq_true.2 ⟨w, by simp [waiting], low⟩
  refine (if_neg (Store.offer_busy busy)).trans ((if_pos (by simpa using placed)).trans ((if_pos ?_).trans ?_))
  · rw [isFull, waits]
    rfl
  · exact congrArg (fun l => { st with waiting := l }) replaced

end

/-! ## The queue and the ring (R157, R158) -/

section
variable {s : State}

theorem State.joinStep_joins {p : Producer} {r : Report} {rest : List Waiting} (waiting : s.store.waiting = .held p r :: rest)
    (room : s.store.queue.length < 8) :
    s.joinStep = some { s with store := { s.store with queue := s.store.queue ++ [r], waiting := rest } } := by
  rw [State.joinStep, waiting]
  exact if_pos room

theorem State.joinStep_none
    (still : 8 ≤ s.store.queue.length ∨ s.store.waiting = [] ∨ s.store.waiting.head? = some .segmentWork) : s.joinStep = none := by
  unfold State.joinStep
  split
  next p r rest waiting =>
    rw [waiting] at still
    obtain full | empty | work := still
    · exact if_neg (Nat.not_lt_of_le full)
    · exact nomatch empty
    · exact nomatch work
  next => rfl

theorem State.reportStep_none (still : s.xchg.state ≠ .running ∨ s.store.queue = []) : s.reportStep = none := by
  unfold State.reportStep
  split
  next r rest a queue anchor =>
    refine if_neg fun ⟨running, _⟩ => ?_
    exact still.elim (· running) fun empty => nomatch queue.symm.trans empty
  next => rfl

/-- The engine with a report in the ring. -/
def Exchange.reported (x : Exchange) (a : AnchorCopy) (r : Report) : Exchange :=
  ((({ x.put (a.reportBase + 128 * (x.writeCount.toNat % a.reportEntries)) (reportBytes r) with
    writeCount := x.writeCount + 1 } : Exchange).putAnchor 0x90 (leWord 4 (x.writeCount + 1))).request causeReport)

section
variable {r : Report} {rest : List Report} {a : AnchorCopy} {c : Word} (running : s.xchg.state = .running)
  (anchor : s.xchg.anchor = some a) (copy : s.xchg.readCopy = some c) (queue : s.store.queue = r :: rest)
include running anchor copy queue

theorem State.reportStep_eq : s.reportStep = if (s.xchg.writeCount - c).toNat < a.reportEntries then
    some { s with store := { s.store with queue := rest }, xchg := s.xchg.reported a r } else none := by
  have room : s.xchg.ringRoom a.reportEntries = true ↔ (s.xchg.writeCount - c).toNat < a.reportEntries := by
    rw [Exchange.ringRoom, copy]
    exact decide_eq_true_iff
  rw [State.reportStep, queue, anchor]
  exact if_congr ((and_iff_right running).trans room) rfl rfl

end

section
variable {x : Exchange} {a : AnchorCopy} (r : Report) (anchor : x.anchor = some a)
include anchor

/-- The report in its slot and the count in the anchor, then the request. -/
theorem Exchange.reported_eq : x.reported a r = Exchange.request { x with
    mem := memWrite (memWrite x.mem (a.reportBase + 128 * (x.writeCount.toNat % a.reportEntries)) (reportBytes r))
      (a.base + 0x90) (leBytes 4 (x.writeCount + 1).toNat)
    writeCount := x.writeCount + 1 } causeReport := by
  unfold Exchange.reported Exchange.putAnchor
  rw [show ({ x.put (a.reportBase + 128 * (x.writeCount.toNat % a.reportEntries)) (reportBytes r) with
    writeCount := x.writeCount + 1 } : Exchange).anchor = some a from anchor]
  rfl

end

/-! ## The levels (R142, R152) -/

theorem Seg.untaken_eq (g : Seg) : g.untaken = (if g.returned = none then 0 else 1) + match g.next, g.exts.getLast? with
    | some n, some e => (e.first + e.count - n) / 128
    | _, _ => 0 := by
  have returned : g.returned.toList.length = if g.returned = none then 0 else 1 := by cases g.returned <;> rfl
  rw [Seg.untaken, returned]
  rfl

theorem Store.freePacks_eq (st : Store) : st.freePacks = (st.pool.map fun e => e.count / 128).sum +
    match st.table.find? fun g => g.phase == .opened with
    | some g => g.untaken
    | none => 0 := by
  unfold Store.freePacks Store.openSeg
  cases st.table.find? fun g => g.phase == .opened <;> rfl

theorem State.levelStep_none (still : s.store.lowArmed = false ∨ s.store.loops.watermark ≤ s.store.freePacks) :
    s.levelStep = none := by
  refine if_neg fun able => ?_
  rw [Bool.and_eq_true, decide_eq_true_eq] at able
  exact still.elim (fun h => Bool.false_ne_true (h.symm.trans able.1)) (Nat.not_le_of_lt able.2)

theorem State.levelStep_low (armed : s.store.lowArmed = true) (below : s.store.freePacks < s.store.loops.watermark) :
    s.levelStep = some (State.raise emit 0x0403 s.store.freePacks { s with
      store := ({ s.store with lowArmed := false } : Store).offer s.time .level
        (.storageLow s.store.freePacks s.store.loops.watermark) }) :=
  if_pos (by rw [armed, decide_eq_true below]; rfl)

end

end Sys2Proof.Machine
end

section
/-! Segment work, reports and levels (O46). -/

namespace Sys2Proof.Machine

/-- Settles O46: segment work matter by matter and answer by answer; then the completion, the blocks' rest, the waiting reports, the ring
and the levels. -/
theorem segmentWorkReportsAndLevels : Obligations.SegmentWorkReportsAndLevels := by
  unfold Obligations.SegmentWorkReportsAndLevels
  refine ⟨fun s m rest matters => ?matters, fun s => ⟨State.completionStep_none, fun pre g post => State.completionStep_first⟩,
    fun s => ?rest, fun now p b st => ?offer, fun s => ?levels⟩
  case matters =>
    intro serial waits answered full reported
    refine ⟨fun n clip i made => ?opening, fun i made => ?position, fun n made => ?closed, fun forCut noTail made => ?closing,
      fun n block asked made => ?removal, fun source settled first made => ?replace, fun i made => ?replaceFilling⟩
    all_goals subst made
    case opening =>
      have step := State.matterStep_opening matters
      refine ⟨fun r => step.trans (State.matterReply_blocked r), fun st r => step.trans (State.matterReply_moved r),
        fun st b r => ⟨fun filling => ?_, fun gone => ?_⟩, fun st r => step.trans (State.matterReply_answer r)⟩
      · exact step.trans ((State.matterReply_answer r).trans (congrArg some (State.opened_handed n i b filling)))
      · exact step.trans ((State.matterReply_answer r).trans (congrArg some (State.opened_returned n i b gone)))
    case position =>
      have step := State.matterStep_position matters
      exact ⟨fun r => step.trans (State.matterReply_blocked r), fun st r => step.trans (State.matterReply_moved r),
        fun st b r => step.trans (State.matterReply_answer r), fun st r => step.trans (State.matterReply_answer r),
        fun st r => step.trans (State.matterReply_answer r)⟩
    case closed =>
      have step := State.matterStep_closed matters
      exact ⟨fun r => step.trans (State.matterReply_blocked r), fun st r => step.trans (State.matterReply_answer r)⟩
    case closing =>
      have step := State.matterStep_closing matters
      exact ⟨fun r => step.trans (State.matterReply_blocked r), fun st r => step.trans (State.matterReply_moved r),
        fun st b r => step.trans (State.matterReply_answer r)⟩
    case removal =>
      have step := State.matterStep_removal matters
      refine ⟨fun r => step.trans (State.matterReply_blocked r), fun st range r => ?_⟩
      have answer := step.trans (State.matterReply_answer r)
      refine ⟨fun yes => ?asked, fun no => ⟨fun i b lo k found filling pos above below => ?inside, fun outside => ?outside⟩⟩
      case asked =>
        subst yes
        exact answer
      all_goals subst no
      case inside =>
        have within : inRange range b = true := (inRange_iff _ _).2 ⟨lo, k, found, above, below⟩
        exact answer.trans (congrArg some (State.fillingRemoved_inside range filling pos within))
      case outside =>
        refine answer.trans (congrArg some (State.fillingRemoved_outside range fun i b filling pos inside => ?_))
        obtain ⟨lo, k, found, range⟩ := (inRange_iff _ _).1 inside
        exact outside i b lo k found filling pos range
    case replace =>
      refine ⟨State.matterStep_replace_gone matters, fun e found => ?_⟩
      intro placed
      have step := State.matterStep_replace matters found
      have same : e.source = source := by simpa using List.find?_some found
      subst same
      refine ⟨fun r => step.trans (State.matterReply_blocked r), fun st r => step.trans (State.matterReply_moved r),
        fun st b r => ⟨fun i pack => ?pack, fun tail => ?tail⟩,
        fun st answer r unplaced => ⟨fun yes => ?settled, fun no => ?resumed⟩⟩
      all_goals have reply := step.trans (State.matterReply_answer r)
      case pack => exact reply.trans (congrArg some (State.replaced_pack settled first b pack))
      case tail => exact reply.trans (congrArg some (State.replaced_tail settled first b tail))
      case settled =>
        subst yes
        exact reply.trans (congrArg some (State.replaced_settled first unplaced))
      case resumed =>
        subst no
        intro later packs again freed kept closed ported
        have port : ({ s with store := answered st } : State).unplaced e first = ported := State.unplaced_eq _ e first
        have told : ported.raiseFull = reported (full ported) :=
          State.raiseFull_eq (State.closedUnplaced_time kept again) (State.closedUnplaced_clipNumber kept again)
        exact reply.trans (congrArg some ((State.replaced_resumed first unplaced).trans
          (if_congr Iff.rfl ((congrArg State.raiseFull port).trans told) port)))
    case replaceFilling =>
      have step := State.matterStep_replaceFilling matters
      refine ⟨fun r => step.trans (State.matterReply_blocked r), fun st r => step.trans (State.matterReply_moved r),
        fun st b r => step.trans (State.matterReply_answer r), fun st answer r unplaced => ?_⟩
      intro closed
      have told : closed.raiseFull = reported (full closed) :=
        State.raiseFull_eq (State.startClose_time .card _) (State.startClose_clipNumber .card _)
      exact (step.trans (State.matterReply_answer r)).trans (congrArg some ((State.fillingReplaced_none unplaced i).trans
        (if_congr Iff.rfl told rfl)))
  case rest =>
    intro works
    exact ⟨rfl, rfl, fun n => ⟨fun rests => State.settleFor_rests n (firstSome_none rests), fun pre f post t order rests moves =>
      State.settleFor_works n ((congrArg (firstSome s) order).trans (firstSome_first rests moves))⟩⟩
  case offer =>
    intro r placed low isFull
    have lows (w : Waiting) : w.isLow = true ↔ low w := w.isLow_iff
    have isFulls : b.isFull = true ↔ isFull := b.isFull_iff
    refine ⟨Store.offer_joins now p b, fun busy => ⟨Store.offer_waits now p b busy, fun place keeps => ?lost,
      fun pre q o post f k place fulls waiting body others => ?replaces⟩⟩
    case lost =>
      refine Store.offer_lost now p b busy place fun ⟨fulls, w, mem, lowW⟩ => keeps ⟨isFulls.1 fulls, w, mem, (lows w).1 lowW⟩
    case replaces =>
      exact Store.offer_replaces now p b busy place (isFulls.2 fulls) waiting ((lows _).2 ⟨q, o, f, k, rfl, body⟩)
        fun v mem => mt (lows v).1 (others v mem)
  case levels =>
    intro st free
    have packs : st.freePacks = free := by
      rw [Store.freePacks_eq]
      unfold free
      cases st.table.find? fun g => g.phase == .opened with
      | none => rfl
      | some g => exact congrArg ((st.pool.map fun e => e.count / 128).sum + ·) g.untaken_eq
    refine ⟨fun p r rest => State.joinStep_joins, State.joinStep_none, State.reportStep_none,
      fun r rest a c running anchor copy queue => ?ring, packs, ?_, ?_⟩
    case ring =>
      have step := State.reportStep_eq running anchor copy queue
      have made := Exchange.reported_eq r anchor
      refine ⟨fun full => step.trans (if_neg (Nat.not_lt_of_le full)), fun room => ⟨_, step.trans (if_pos room), rfl, ?_, ?_, ?_, ?_,
        rfl, rfl⟩⟩
      · exact (congrArg Exchange.writeCount made).trans (by rw [Exchange.request_eq])
      · exact (congrArg Exchange.mem made).trans (Exchange.request_mem _ _)
      · exact (congrArg Exchange.cause made).trans (Exchange.request_cause_running (by exact running) _)
      · exact (congrArg Exchange.stack made).trans (Exchange.request_stack _ _)
    · rw [← packs]
      exact State.levelStep_none
    · rw [← packs]
      exact State.levelStep_low

end Sys2Proof.Machine
end

section
/-! SUPPORT. The card's attach and detection: CARD_ATTACH by the card's state, the ends of an attach, and the card taken away, state by
state (R122, R123). -/

namespace Sys2Proof.Machine

/-! ## CARD_ATTACH (R123) -/

theorem timeAfter_attachLimit (t : Time) : timeAfter t Config.attachLimit = t + 1000000 := rfl

section
variable {a : Ambient} {s : State} (hs : s.supply.held = false)
include hs

section
variable (body : s.frameBody .control = some .cardAttach)
include body

theorem exec_cardAttach_absent (absent : s.card.state = .absent) :
    exec (.cardAttach a) s = .next ((s.arrive a).finish .control .refused .noCard 0) := by
  refine (perform_free hs : execCardAttach a s = _).trans (congrArg Host.Outcome.next ?_)
  rw [show (s.arrive a).frameBody .control = _ from body]
  simp only [State.arrive_card, absent]

theorem exec_cardAttach_usable (there : s.card.state = .ready ∨ s.card.state = .writing ∨ s.card.state = .busy) :
    exec (.cardAttach a) s = .next ((s.arrive a).finish .control .done .alreadyReady 0) := by
  refine (perform_free hs : execCardAttach a s = _).trans (congrArg Host.Outcome.next ?_)
  rw [show (s.arrive a).frameBody .control = _ from body]
  obtain state | state | state := there <;> simp only [State.arrive_card, state]

/-- A card that is not attached begins its attach, or waits with the frame in hand for the drain's end. -/
theorem exec_cardAttach_unattached (unattached : s.card.state = .present ∨ s.card.state = .failed) :
    exec (.cardAttach a) s = .next (
      if s.card.attaching = true then (s.arrive a).finish .control .done .attaching 0
      else if s.card.draining = true then
        ((s.arrive a).onCard fun c => { c with state := .present, attaching := true, attachStart := none }).onXchg
          fun x => x.startHand .control
      else
        ((s.arrive a).onCard fun c =>
          { c with state := .present, attaching := true, attachStart := some (s.arrive a).time }).finish .control .done .ok 0) := by
  refine (perform_free hs : execCardAttach a s = _).trans (congrArg Host.Outcome.next ?_)
  rw [show (s.arrive a).frameBody .control = _ from body]
  obtain state | state := unattached <;> (simp only [State.arrive_card, state]; rfl)

end

/-! ## The ends of an attach (R123) -/

section
variable {capacity : Word} {usable : Bool}

theorem exec_attachComplete_idle (idle : s.card.attaching = false ∨ s.card.attachStart = none) :
    exec (.attachComplete a capacity usable) s = .next (s.arrive a) := by
  refine (perform_free hs : execAttachComplete a capacity usable s = _).trans (congrArg Host.Outcome.next ?_)
  rw [State.arrive_card]
  obtain none | none := idle
  · rw [none]
  · rw [none]
    cases s.card.attaching <;> rfl

theorem exec_attachComplete {t : Time} (attaching : s.card.attaching = true) (start : s.card.attachStart = some t) :
    exec (.attachComplete a capacity usable) s = .next (
      if timeLater (s.arrive a).time (t + 1000000) = true then (s.arrive a).onCard (Card.attachFails .noAnswer)
      else if usable = true ∧ 128 ≤ capacity.toNat then
        ((s.arrive a).onCard fun c => { c with
          state := .ready, attaching := false, attachStart := none, attachResult := .ok, capacity := capacity.toNat }).rest
      else (s.arrive a).onCard (Card.attachFails .unusable)) := by
  refine (perform_free hs : execAttachComplete a capacity usable s = _).trans (congrArg Host.Outcome.next ?_)
  rw [State.arrive_card, attaching, start, ← timeAfter_attachLimit]

end

theorem exec_attachTimeout {t : Time} (start : s.card.attachStart = some t) : exec (.attachTimeout a) s = .next (
    if s.card.attaching = true ∧ timeReached (s.arrive a).time (t + 1000000) = true then
      (s.arrive a).onCard (Card.attachFails .noAnswer)
    else s.arrive a) := by
  refine (perform_free hs : execAttachTimeout a s = _).trans (congrArg Host.Outcome.next ?_)
  rw [State.arrive_card, start, ← timeAfter_attachLimit]
  rfl

/-! ## CARD_DETECT_CHANGE (R122) -/

theorem exec_cardDetectChange_early (early : ¬10000 ≤ ((s.arrive a).time - s.router.lines.a2.since).toNat) :
    exec (.cardDetectChange a) s = .next (s.arrive a) :=
  (perform_free hs : execCardDetectChange a s = _).trans (congrArg Host.Outcome.next (if_pos (Nat.not_le.1 early)))

section
variable (held : 10000 ≤ ((s.arrive a).time - s.router.lines.a2.since).toNat)
include held

theorem exec_cardDetectChange_high (high : s.router.lines.a2.level = true) : exec (.cardDetectChange a) s = .next (
    if s.card.state = .absent then (s.arrive a).onCard Card.inserted else s.arrive a) :=
  (perform_free hs : execCardDetectChange a s = _).trans (congrArg Host.Outcome.next
    ((if_neg (Nat.not_lt.2 held)).trans (if_pos high)))

section
variable (low : s.router.lines.a2.level = false)
include low

theorem exec_cardDetectChange_absent (absent : s.card.state = .absent) : exec (.cardDetectChange a) s = .next (s.arrive a) :=
  (perform_free hs : execCardDetectChange a s = _).trans (congrArg Host.Outcome.next
    ((if_neg (Nat.not_lt.2 held)).trans ((if_neg (Bool.eq_false_iff.1 low)).trans (if_pos absent))))

theorem exec_cardDetectChange_removed (there : s.card.state ≠ .absent) :
    exec (.cardDetectChange a) s = .next ((s.arrive a).cardRemoved emit).rest :=
  (perform_free hs : execCardDetectChange a s = _).trans (congrArg Host.Outcome.next
    ((if_neg (Nat.not_lt.2 held)).trans ((if_neg (Bool.eq_false_iff.1 low)).trans (if_neg there))))

end

end

end

/-! ## The card taken away, by its state (R122) -/

section
variable (emit : Emit) {s : State}

/-- A card taken away, its removal counted. -/
def State.removalCounted (s : State) : State := s.onCard fun c => { c with removals := c.removals + 1 }

theorem State.cardRemoved_present (state : s.card.state = .present) : s.cardRemoved emit =
    (s.removalCounted.onCard fun c => { c with
      state := .absent, attachResult := if c.attaching then .removed else c.attachResult
      attaching := false, attachStart := none }).finishAttach := by
  rw [State.cardRemoved, state]
  rfl

theorem State.cardRemoved_failed (state : s.card.state = .failed) :
    s.cardRemoved emit = s.removalCounted.onCard fun c => { c with state := .absent } := by
  rw [State.cardRemoved, state]
  rfl

theorem State.cardRemoved_ready (state : s.card.state = .ready) : s.cardRemoved emit =
    (((s.removalCounted.onCard fun c => { c with state := .absent, capacity := 0 }).dropRaw .done .cardError 3).startClose
      .card) := by
  rw [State.cardRemoved, state]
  rfl

/-- The transfer in flight, if any, as the card leaves: a raw read ends, any other ends as a write. -/
def State.transferRemoved (s waiting : State) : State :=
  if s.card.rawFlying = true ∧ s.card.rawWriting = false then
    (waiting.onCard fun c => { c with state := .absent, busySince := none }).rawEnded .removed
  else waiting.writeEnded emit .removed .absent

theorem State.cardRemoved_transferring (state : s.card.state = .writing ∨ s.card.state = .busy) : s.cardRemoved emit =
    ((s.transferRemoved emit (s.removalCounted.dropRaw .done .cardError 3)).onCard fun c => { c with capacity := 0 }).startClose
      .card := by
  have read : (s.card.rawFlying && !s.card.rawWriting) = true ↔ s.card.rawFlying = true ∧ s.card.rawWriting = false := by
    rw [Bool.and_eq_true, Bool.not_eq_true']
  unfold State.cardRemoved State.transferRemoved
  obtain state | state := state <;> simp only [state, read] <;> rfl

end

/-- The frame that waits for the drain is finished with what it waited for. -/
theorem State.finishAttach_waits {s : State} {h : Taken} (inHand : s.xchg.hand .control = some h) (started : h.started = true)
    (attach : h.body = .cardAttach) : s.finishAttach = s.finish .control .done .ok 0 :=
  if_pos (s.attachFrame_iff.2 ⟨h, inHand, started, attach⟩)

theorem State.finishAttach_none {s : State}
    (other : ∀ h, s.xchg.hand .control = some h → h.started = false ∨ h.body ≠ .cardAttach) : s.finishAttach = s := by
  refine if_neg fun found => ?_
  obtain ⟨h, inHand, started, attach⟩ := s.attachFrame_iff.1 found
  obtain fresh | strange := other h inHand
  · exact Bool.false_ne_true (fresh.symm.trans started)
  · exact strange attach

end Sys2Proof.Machine
end

section
/-! The card's attach and its detection (O38). -/

namespace Sys2Proof.Machine

/-- Settles O38: CARD_ATTACH by the card's state, an attach's answer and its limit, and a level that has held by the card's state. -/
theorem cardAttachAndDetection : Obligations.CardAttachAndDetection := by
  intro a s hs u k put
  refine ⟨fun body => ?frame, fun capacity usable => ⟨exec_attachComplete_idle hs, fun t attaching start => ?answer⟩,
    fun t start => ?limit, ?detection⟩
  case frame =>
    refine ⟨exec_cardAttach_absent hs body, fun state attaching => ?_, fun state attaching => ⟨fun draining => ?_, fun draining => ?_⟩,
      exec_cardAttach_usable hs body⟩
    all_goals rw [exec_cardAttach_unattached hs body state]
    · rw [if_pos attaching]
    all_goals rw [if_neg (Bool.eq_false_iff.1 attaching)]
    · rw [if_neg (Bool.eq_false_iff.1 draining)]
      rfl
    · rw [if_pos draining]
      rfl
  case answer =>
    rw [exec_attachComplete hs attaching start]
    refine ⟨fun late => ?_, fun inTime good large => ?_, fun inTime bad => ?_⟩
    · rw [if_pos late]
      rfl
    all_goals rw [if_neg (Bool.eq_false_iff.1 inTime)]
    · rw [if_pos ⟨good, large⟩]
      rfl
    · rw [if_neg ?_]
      · rfl
      · rintro ⟨good, large⟩
        obtain unusable | small := bad
        · exact Bool.false_ne_true (unusable.symm.trans good)
        · exact Nat.not_lt.2 large small
  case limit =>
    rw [exec_attachTimeout hs start]
    refine ⟨fun attaching passed => ?_, fun idle => ?_⟩
    · rw [if_pos ⟨attaching, passed⟩]
      rfl
    · rw [if_neg ?_]
      rintro ⟨attaching, passed⟩
      obtain none | early := idle
      · exact Bool.false_ne_true (none.symm.trans attaching)
      · exact Bool.false_ne_true (early.symm.trans passed)
  case detection =>
    intro l held
    refine ⟨exec_cardDetectChange_early hs, fun long high => exec_cardDetectChange_high hs long high, fun long low => ?_⟩
    have removed (there : s.card.state ≠ .absent) := exec_cardDetectChange_removed hs long low there
    refine ⟨exec_cardDetectChange_absent hs long low, fun state => ?present, fun state => ?failed, fun state => ?ready,
      fun state => ?transferring⟩
    case present =>
      intro gone
      rw [removed (fun absent => nomatch state.symm.trans absent), State.cardRemoved_present (s := u) emit state]
      exact ⟨fun other => congrArg (Host.Outcome.next ∘ State.rest) (State.finishAttach_none (s := gone) other),
        fun h inHand started attach => congrArg (Host.Outcome.next ∘ State.rest)
          (State.finishAttach_waits (s := gone) inHand started attach)⟩
    case failed =>
      rw [removed (fun absent => nomatch state.symm.trans absent), State.cardRemoved_failed (s := u) emit state]
      rfl
    case ready =>
      rw [removed (fun absent => nomatch state.symm.trans absent), State.cardRemoved_ready (s := u) emit state]
      rfl
    case transferring =>
      rw [removed (fun absent => by simp [k, absent] at state), State.cardRemoved_transferring (s := u) emit state]
      rfl

end Sys2Proof.Machine
end

section
/-! The withdrawal of a resumption's re-placements, and what it frees (O39). -/

namespace Sys2Proof.Machine

/-- The waiting place of segment work falls free where the oldest matter is a re-placement that is withdrawn (R158). -/
theorem Store.dropReplaces_waiting {st : Store} {src : Source} {settled first : Bool} {more : List Matter}
    (oldest : st.matters = .replace src settled first :: more) :
    st.dropReplaces.waiting = st.waiting.filter fun w => w != .segmentWork := by
  rw [Store.dropReplaces, Store.dropMatters, oldest]
  rfl

/-- A re-placement that waits for report room, in the place of segment work. -/
def Store.replacementWaits : Store := { Store.reset with matters := [.replace .tail true true], waiting := [.segmentWork] }

/-- Refutes O39: a re-placement withdrawn while it waits for report room gives up the waiting place of segment work, and the last part
of the statement keeps every place that waits. -/
theorem not_cardWritesEnd : ¬ Obligations.CardWritesEnd := by
  rintro ⟨-, -, withdrawn⟩
  have stays : Store.replacementWaits.dropReplaces.waiting = [.segmentWork] :=
    congrArg Store.waiting (withdrawn Store.replacementWaits)
  have freed : Store.replacementWaits.dropReplaces.waiting = [] := Store.dropReplaces_waiting rfl
  exact List.cons_ne_nil _ _ (stays.symm.trans freed)

end Sys2Proof.Machine
end

section
/-! SUPPORT. Raw frames: their checks, the host buffer read, and the ends of the write in flight, by the card's answer or its limit
(R126, R128, R129). -/

namespace Sys2Proof.Machine

/-! ## The checks of a raw frame (R128) -/

theorem Store.meets_iff (st : Store) (first count : Nat) : st.meets first count = true ↔
    ∃ e ∈ st.known, first < e.first + e.count ∧ e.first < first + count := by
  simp [Store.meets, runsMeet]

section
variable {s : State} {isWrite : Bool} {first count : Nat}

theorem State.rawRefusal_faultPending (record : s.xchg.cardRecord = true) :
    s.rawRefusal isWrite first count = some .faultPending := if_pos record

variable (free : ¬s.xchg.cardRecord = true)
include free

theorem State.rawRefusal_noCard (gone : ¬s.card.usable = true) : s.rawRefusal isWrite first count = some .noCard :=
  (if_neg free).trans (if_pos (by rw [Bool.eq_false_iff.2 gone]; rfl))

/-- With a card there the run of blocks decides. -/
theorem State.rawRefusal_usable (there : s.card.usable = true) : s.rawRefusal isWrite first count =
    if count = 0 ∨ 128 < count then some .badField
    else if s.card.capacity < first + count then some .outOfRange
    else if isWrite && s.store.meets first count then some .overlap
    else none := by
  refine (if_neg free).trans (if_neg ?_)
  rw [there]
  decide

end

section
variable {a : Ambient} {s : State} (hs : s.supply.held = false) {first count address : Nat}
include hs

section
variable (body : s.frameBody .control = some (.cardRead first count address))
include body

theorem exec_cardRead_refused {r : Result} (refused : s.rawRefusal false first count = some r) :
    exec (.cardRead a) s = .next ((s.arrive a).finish .control .refused r 0) := by
  refine (perform_free hs : execCardRead a s = _).trans (congrArg Host.Outcome.next ?_)
  rw [show (s.arrive a).frameBody .control = _ from body]
  simp only [show (s.arrive a).rawRefusal false first count = some r from refused]

theorem exec_cardRead_held (passes : s.rawRefusal false first count = none) :
    exec (.cardRead a) s = .next ((s.arrive a).holdRaw false first count address).rest := by
  refine (perform_free hs : execCardRead a s = _).trans (congrArg Host.Outcome.next ?_)
  rw [show (s.arrive a).frameBody .control = _ from body]
  simp only [show (s.arrive a).rawRefusal false first count = none from passes]

end

section
variable (body : s.frameBody .control = some (.cardWrite first count address))
include body

theorem exec_cardWrite_refused {r : Result} (refused : s.rawRefusal true first count = some r) :
    exec (.cardWrite a) s = .next ((s.arrive a).finish .control .refused r 0) := by
  refine (perform_free hs : execCardWrite a s = _).trans (congrArg Host.Outcome.next ?_)
  rw [show (s.arrive a).frameBody .control = _ from body]
  simp only [show (s.arrive a).rawRefusal true first count = some r from refused]

theorem exec_cardWrite_held (passes : s.rawRefusal true first count = none) :
    exec (.cardWrite a) s = .next ((s.arrive a).holdRaw true first count address) := by
  refine (perform_free hs : execCardWrite a s = _).trans (congrArg Host.Outcome.next ?_)
  rw [show (s.arrive a).frameBody .control = _ from body]
  simp only [show (s.arrive a).rawRefusal true first count = none from passes]

end

/-! ## The host buffer read (R128) -/

theorem exec_rawBufferReadComplete_idle (idle : ∀ r, s.card.raw = some r → r.isWrite = false ∨ r.ready = true) :
    exec (.rawBufferReadComplete a) s = .next (s.arrive a) := by
  refine (perform_free hs : execRawBufferReadComplete a s = _).trans (congrArg Host.Outcome.next ?_)
  rw [State.arrive_card]
  split
  next r raw =>
    refine if_neg ?_
    obtain read | done := idle r raw
    · simp [read]
    · simp [done]
  next => rfl

/-- A raw write that waits for its buffer gets it, or DATA_ERROR. -/
theorem exec_rawBufferReadComplete {r : RawJob} (raw : s.card.raw = some r) (write : r.isWrite = true) (waits : r.ready = false) :
    exec (.rawBufferReadComplete a) s = .next (if readOk a.badReads r.address (r.count * 512) = true then
        ((s.arrive a).onCard fun c => { c with raw :=
          (some { r with ready := true, data := memCopy [] 0 (s.arrive a).xchg.mem r.address (r.count * 512) }) }).rest
      else (((s.arrive a).onCard fun c => { c with raw := none }).onXchg fun x => x.dataFault (s.arrive a).time .control).rest) := by
  refine (perform_free hs : execRawBufferReadComplete a s = _).trans (congrArg Host.Outcome.next ?_)
  rw [State.arrive_card, raw]
  exact if_pos (by rw [write, waits]; rfl)

/-! ## The end of a raw read (R129) -/

variable {data : List Host.Cell}

theorem exec_rawReadComplete_idle {ok : Bool} (idle : ∀ r, s.card.raw = some r → r.isWrite = true ∨ r.inFlight = false) :
    exec (.rawReadComplete a ok data) s = .next (s.arrive a) := by
  refine (perform_free hs : execRawReadComplete a ok data s = _).trans (congrArg Host.Outcome.next ?_)
  rw [State.arrive_card]
  split
  next r raw =>
    refine if_neg ?_
    obtain write | still := idle r raw
    · simp [write]
    · simp [still]
  next => rfl

/-- A raw read in flight ends: its blocks in host memory, or the failure. -/
theorem exec_rawReadComplete {r : RawJob} (raw : s.card.raw = some r) (read : r.isWrite = false) (flies : r.inFlight = true)
    (ok : Bool) :
    let t := (s.arrive a).onCard fun c => { c with state := .ready }
    exec (.rawReadComplete a ok data) s = .next (if ok = true then
        ((t.onXchg fun x => { x with mem := memCopy x.mem r.address (memOfCells data) 0 (r.count * 512) }).rawEnded .accepted).rest
      else (t.rawEnded .writeError).rest) := by
  refine (perform_free hs : execRawReadComplete a ok data s = _).trans (congrArg Host.Outcome.next ?_)
  rw [State.arrive_card, raw]
  exact if_pos (by rw [read, flies]; rfl)

/-! ## The card's answers to a write (R126) -/

theorem exec_cardProgramming (writing : s.card.state = .writing) (flies : s.card.writeFlying = true) :
    exec (.cardProgramming a) s = .next ((s.arrive a).onCard fun c =>
      { c with state := .busy, busySince := some (s.arrive a).time }) :=
  (perform_free hs : execCardProgramming a s = _).trans (congrArg Host.Outcome.next (if_pos ⟨writing, flies⟩))

theorem exec_cardWriteAccepted_idle (idle : s.card.state ≠ .busy) : exec (.cardWriteAccepted a) s = .next (s.arrive a) :=
  (perform_free hs : execCardWriteAccepted a s = _).trans (congrArg Host.Outcome.next (if_neg fun able => idle able.1))

theorem exec_cardWriteAccepted (busy : s.card.state = .busy) (flies : s.card.writeFlying = true) :
    exec (.cardWriteAccepted a) s = .next (((s.arrive a).writeEnded emit ((s.arrive a).answered .accepted) .ready).rest) :=
  (perform_free hs : execCardWriteAccepted a s = _).trans (congrArg Host.Outcome.next (if_pos ⟨busy, flies⟩))

theorem exec_cardWriteError (able : s.card.state = .writing ∨ s.card.state = .busy) (flies : s.card.writeFlying = true) :
    exec (.cardWriteError a) s = .next (((s.arrive a).writeEnded emit ((s.arrive a).answered .writeError) .ready).rest) :=
  (perform_free hs : execCardWriteError a s = _).trans (congrArg Host.Outcome.next (if_pos ⟨able, flies⟩))

theorem exec_cardBusyTimeout (busy : s.card.state = .busy) (flies : s.card.writeFlying = true) {t : Time}
    (since : s.card.busySince = some t) (passed : timeReached (s.arrive a).time (t + 500000) = true) :
    exec (.cardBusyTimeout a) s = .next ((s.arrive a).writeEnded emit .timeout .ready).rest := by
  refine (perform_free hs : execCardBusyTimeout a s = _).trans (congrArg Host.Outcome.next (if_pos ⟨busy, flies, ?_⟩))
  rw [State.arrive_card, since]
  exact passed

/-- Before the end of the 500 ms, or with no write BUSY, the limit does nothing. -/
theorem exec_cardBusyTimeout_idle (idle : s.card.state ≠ .busy
    ∨ ∃ t, s.card.busySince = some t ∧ timeReached (s.arrive a).time (t + 500000) = false) :
    exec (.cardBusyTimeout a) s = .next (s.arrive a) := by
  refine (perform_free hs : execCardBusyTimeout a s = _).trans (congrArg Host.Outcome.next (if_neg ?_))
  rintro ⟨busy, -, due⟩
  obtain other | ⟨t, since, early⟩ := idle
  · exact other busy
  · rw [State.arrive_card, since] at due
    exact Bool.false_ne_true (early.symm.trans due)

end

/-! ## An answer after the limit (R126, log entry 52) -/

theorem timeAfter_busyLimit (t : Time) : timeAfter t Config.busyLimit = t + 500000 := rfl

theorem Card.overLimit_iff (c : Card) (now : Time) : c.overLimit now = true ↔
    c.state = .busy ∧ ∃ t, c.busySince = some t ∧ timeLater now (t + 500000) = true := by
  rw [Card.overLimit, Bool.and_eq_true, beq_iff_eq]
  refine and_congr_right fun _ => ?_
  cases c.busySince with
  | none => simp
  | some t => simp [timeAfter_busyLimit]

section
variable {s : State} (o : CardOutcome)

theorem State.answered_late {t : Time} (busy : s.card.state = .busy) (since : s.card.busySince = some t)
    (late : timeLater s.time (t + 500000) = true) : s.answered o = .timeout :=
  if_pos ((Card.overLimit_iff ..).2 ⟨busy, t, since, late⟩)

theorem State.answered_inTime
    (inTime : s.card.state = .busy → ∀ t, s.card.busySince = some t → timeLater s.time (t + 500000) = false) :
    s.answered o = o := by
  refine if_neg fun limit => ?_
  obtain ⟨busy, t, since, late⟩ := (Card.overLimit_iff ..).1 limit
  exact Bool.false_ne_true ((inTime busy t since).symm.trans late)

theorem State.answered_writing (writing : s.card.state = .writing) : s.answered o = o :=
  State.answered_inTime o fun busy => nomatch writing.symm.trans busy

end

/-! ## The end of a raw write (R126, R129) -/

section
variable {c : Card} {r : RawJob} (raw : c.raw = some r) (flies : r.inFlight = true)
include raw flies

theorem Card.rawFlying_raw : c.rawFlying = true := by rw [Card.rawFlying, raw]; exact flies

theorem Card.writeFlying_raw (write : r.isWrite = true) : c.writeFlying = true := by
  refine (if_pos (Card.rawFlying_raw raw flies)).trans ?_
  rw [Card.rawWriting, raw]
  exact (Bool.and_eq_true _ _).mpr ⟨write, flies⟩

end

theorem State.writeEnded_raw (emit : Emit) (o : CardOutcome) (after : CardState) {s : State} (flies : s.card.rawFlying = true) :
    s.writeEnded emit o after =
      ((((s.onCard fun c => { c with state := after, busySince := none }).rawEnded o).raise emit 0x0407 o.code).prompt emit) :=
  if_pos flies

end Sys2Proof.Machine
end

section
/-! Raw transfers (O40). -/

namespace Sys2Proof.Machine

/-- Settles O40: the checks in their order, once for both frames; then the buffer read, the end of a read, and the end of a write by the
outcome that the answer has. -/
theorem rawTransfers : Obligations.RawTransfers := by
  intro a s hs u record card checks
  have recorded : s.xchg.cardRecord = true ↔ record := s.xchg.cardRecord_iff
  have usable : s.card.usable = true ↔ card := s.card.usable_iff
  have checked (i : Instr) (isWrite : Bool) (first count address : Nat) (after : State → State)
      (refused : ∀ {r}, s.rawRefusal isWrite first count = some r → exec i s = .next (u.finish .control .refused r 0))
      (held : s.rawRefusal isWrite first count = none → exec i s = .next (after (u.holdRaw isWrite first count address))) :
      checks i isWrite first count address after := by
    refine ⟨fun pending => refused (State.rawRefusal_faultPending (recorded.2 pending)),
      fun free gone => refused (State.rawRefusal_noCard (mt recorded.1 free) (mt usable.1 gone)),
      fun free there bad => refused ?_, fun free there some few beyond => refused ?_,
      fun free there some few within write meets => refused ?_, fun free there some few within apart => held ?_⟩
    all_goals rw [State.rawRefusal_usable (mt recorded.1 free) (usable.2 there)]
    · exact if_pos bad
    all_goals rw [if_neg (show ¬(count = 0 ∨ 128 < count) by omega)]
    · exact if_pos beyond
    all_goals rw [if_neg (Nat.not_lt.2 within)]
    · exact if_pos ((Bool.and_eq_true _ _).mpr ⟨write, (Store.meets_iff ..).2 meets⟩)
    · refine if_neg fun both => ?_
      obtain ⟨write, meets⟩ := (Bool.and_eq_true _ _).mp both
      obtain ⟨e, known, met⟩ := (Store.meets_iff ..).1 meets
      exact apart write e known met
  refine ⟨fun first count address body => checked _ _ _ _ _ _ (exec_cardRead_refused hs body) (exec_cardRead_held hs body),
    fun first count address body => checked _ _ _ _ _ _ (exec_cardWrite_refused hs body) (exec_cardWrite_held hs body),
    fun r raw write waits => ?buffer, exec_rawBufferReadComplete_idle hs,
    fun r data raw read flies => ⟨exec_rawReadComplete hs raw read flies true, exec_rawReadComplete hs raw read flies false⟩,
    fun ok data => exec_rawReadComplete_idle hs, fun r raw write flies => ?inTime, fun r raw write flies => ?fails⟩
  case buffer =>
    have done := exec_rawBufferReadComplete (a := a) hs raw write waits
    exact ⟨fun good => done.trans (congrArg Host.Outcome.next (if_pos good)),
      fun bad => done.trans (congrArg Host.Outcome.next (if_neg (Bool.eq_false_iff.1 bad)))⟩
  all_goals
    have rawFlies : u.card.rawFlying = true := Card.rawFlying_raw raw flies
    have writeFlies : s.card.writeFlying = true := Card.writeFlying_raw raw flies write
  case inTime =>
    intro busy inTime ended
    rw [exec_cardWriteAccepted hs busy writeFlies, exec_cardWriteError hs (.inr busy) writeFlies,
      State.answered_inTime (s := u) _ fun _ => inTime, State.answered_inTime (s := u) _ fun _ => inTime, State.writeEnded_raw emit _ _ rawFlies,
      State.writeEnded_raw emit _ _ rawFlies]
    exact ⟨rfl, rfl⟩
  case fails =>
    intro failed timedOut
    have atLimit : u.writeEnded emit .timeout .ready = timedOut := State.writeEnded_raw emit _ _ rawFlies
    refine ⟨fun t busy since => ⟨fun passed => ?_, fun early => exec_cardBusyTimeout_idle hs (.inr ⟨t, since, early⟩), fun late => ?_⟩,
      fun writing => ⟨?_, exec_cardWriteAccepted_idle hs (by simp [writing]), exec_cardBusyTimeout_idle hs (.inl (by simp [writing])),
        exec_cardProgramming hs writing writeFlies⟩⟩
    · rw [exec_cardBusyTimeout hs busy writeFlies since passed, atLimit]
    · rw [exec_cardWriteAccepted hs busy writeFlies, exec_cardWriteError hs (.inr busy) writeFlies,
        State.answered_late (s := u) _ busy since late, State.answered_late (s := u) _ busy since late, atLimit]
      exact ⟨rfl, rfl⟩
    · rw [exec_cardWriteError hs (.inl writing) writeFlies, State.answered_writing (s := u) _ writing,
        State.writeEnded_raw emit _ _ rawFlies]
      rfl

end Sys2Proof.Machine
end

section
/-! SUPPORT. One segment of a table changed: what the table, its serials, its protected segments and a selection of it are then. -/

namespace Sys2Proof.Machine

/-! ## One segment of a table changed -/

section
variable {p : Seg → Bool} {f : Seg → Seg} {l : List Seg}

theorem map_serial_mapFirst (hf : ∀ g, (f g).serial = g.serial) : (mapFirst p f l).map (·.serial) = l.map (·.serial) := by
  induction l with
  | nil => rfl
  | cons g l ih =>
    unfold mapFirst
    split
    · rw [List.map_cons, List.map_cons, hf]
    · rw [List.map_cons, List.map_cons, ih]

theorem mapFirst_none (others : ∀ g ∈ l, ¬p g = true) : mapFirst p f l = l := by
  induction l with
  | nil => rfl
  | cons g l ih =>
    exact (if_neg (others g List.mem_cons_self)).trans (congrArg (g :: ·) (ih fun h mem => others h (List.mem_cons_of_mem _ mem)))

theorem mapFirst_append {pre post : List Seg} {g : Seg} (others : ∀ h ∈ pre, ¬p h = true) (this : p g = true) :
    mapFirst p f (pre ++ g :: post) = pre ++ f g :: post := by
  induction pre with
  | nil => exact if_pos this
  | cons h pre ih =>
    exact (if_neg (others h List.mem_cons_self)).trans
      (congrArg (h :: ·) (ih fun k mem => others k (List.mem_cons_of_mem _ mem)))

/-- With serials distinct the change is that of the segment found. -/
theorem mapFirst_eq_map (nodup : (l.map (·.serial)).Nodup) {v : Seg} (found : l.find? p = some v) :
    mapFirst p f l = l.map fun g => if g.serial = v.serial then f g else g := by
  obtain ⟨this, pre, post, rfl, others⟩ := List.find?_eq_some_iff_append.1 found
  have apart (h : Seg) (mem : h ∈ pre ∨ h ∈ post) : h.serial ≠ v.serial := by
    intro same
    rw [List.map_append, List.map_cons, List.nodup_append] at nodup
    obtain ⟨-, after, across⟩ := nodup
    obtain before | behind := mem
    · exact across _ (List.mem_map_of_mem before) _ List.mem_cons_self same
    · exact (List.nodup_cons.1 after).1 (same ▸ List.mem_map_of_mem behind)
  have still (k : List Seg) (away : ∀ h ∈ k, h.serial ≠ v.serial) : (k.map fun g => if g.serial = v.serial then f g else g) = k :=
    (List.map_congr_left fun h mem => if_neg (away h mem)).trans (List.map_id' k)
  rw [mapFirst_append (fun h mem => by simpa using others h mem) this, List.map_append, List.map_cons, if_pos rfl,
    still pre fun h mem => apart h (.inl mem), still post fun h mem => apart h (.inr mem)]

/-- An unprotected segment protected adds one to their count. -/
theorem guards_protected {v : Seg} (found : l.find? p = some v) (free : v.owner = none) (hf : (f v).owner.isSome = true) :
    guards (mapFirst p f l) = guards l + 1 := by
  obtain ⟨this, pre, post, rfl, others⟩ := List.find?_eq_some_iff_append.1 found
  rw [mapFirst_append (fun h mem => by simpa using others h mem) this, guards_append, guards_append, guards_cons, guards_cons, hf, free]
  simp only [if_true, Option.isSome_none, Bool.false_eq_true, if_false]
  omega

theorem filter_mapFirst {q : Seg → Bool} {v : Seg} (found : l.find? p = some v) (before : ¬q v = true) (after : ¬q (f v) = true) :
    (mapFirst p f l).filter q = l.filter q := by
  obtain ⟨this, pre, post, rfl, others⟩ := List.find?_eq_some_iff_append.1 found
  rw [mapFirst_append (fun h mem => by simpa using others h mem) this, List.filter_append, List.filter_append,
    List.filter_cons_of_neg after, List.filter_cons_of_neg before]

/-- The first of a property that loses it by the change. -/
theorem filter_mapFirst_self {v : Seg} (found : l.find? p = some v) (after : ¬p (f v) = true) :
    l.filter p = v :: (mapFirst p f l).filter p := by
  obtain ⟨this, pre, post, rfl, others⟩ := List.find?_eq_some_iff_append.1 found
  have before : pre.filter p = [] := List.filter_eq_nil_iff.2 fun h mem => by simpa using others h mem
  rw [mapFirst_append (fun h mem => by simpa using others h mem) this, List.filter_append, List.filter_append,
    List.filter_cons_of_neg after, List.filter_cons_of_pos this, before, List.nil_append, List.nil_append]

/-- With serials distinct a segment of the table is known by its own. -/
theorem find?_serial (nodup : (l.map (·.serial)).Nodup) {v : Seg} (mem : v ∈ l) : l.find? (fun g => g.serial == v.serial) = some v := by
  cases found : l.find? (fun g => g.serial == v.serial) with
  | none => exact absurd (List.find?_eq_none.1 found v mem) (by simp)
  | some w =>
    exact congrArg some (List.inj_on_of_nodup_map nodup (List.mem_of_find?_eq_some found) mem (by simpa using List.find?_some found))

end

/-! ## The segment of a serial -/

section
variable {st : Store} {serial : Word} (f : Seg → Seg)

theorem Store.mapSeg_absent (absent : ∀ h ∈ st.table, h.serial ≠ serial) : st.mapSeg serial f = st := by
  rw [Store.mapSeg, mapFirst_none fun g mem => by simpa using absent g mem]

theorem Store.mapSeg_present {pre post : List Seg} {g : Seg} (table : st.table = pre ++ g :: post)
    (others : ∀ h ∈ pre, h.serial ≠ serial) (this : g.serial = serial) :
    st.mapSeg serial f = { st with table := pre ++ f g :: post } := by
  rw [Store.mapSeg, table, mapFirst_append (fun h mem => by simpa using others h mem) (by simpa using this)]

end

end Sys2Proof.Machine
end

section
/-! SUPPORT. The frames of the storage map: EXTENT_ADD's checks in order and the pool it joins, EXTENT_WITHDRAW, PROTECT (R143, R144,
R152, R156). -/

namespace Sys2Proof.Machine

/-! ## The checks of EXTENT_ADD (R143) -/

/-- An extent's first block and block count are whole packs. -/
def PackAligned (first count : Nat) : Prop := first % 128 = 0 ∧ count ≠ 0 ∧ count % 128 = 0

/-- An extent lies inside the addresses of blocks, and inside the card there is. -/
def InsideCard (capacity : Option Nat) (first count : Nat) : Prop :=
  first + count ≤ 4294967296 ∧ ∀ c, capacity = some c → first + count ≤ c

section
variable {st : Store} {capacity : Option Nat} {first count : Nat}

theorem insideCard_iff : InsideCard capacity first count ↔
    ¬(first + count > 4294967296 ∨ (capacity.any fun c => decide (c < first + count)) = true) := by
  cases capacity <;> simp [InsideCard]

theorem Store.addExtent_misaligned (bad : ¬PackAligned first count) : st.addExtent capacity first count = .inl .misaligned :=
  if_pos (Decidable.or_iff_not_not_and_not.2 fun ⟨firstWhole, rest⟩ =>
    bad ⟨not_not.1 firstWhole, (not_or.1 rest).1, not_not.1 (not_or.1 rest).2⟩)

section
variable (aligned : PackAligned first count)
include aligned

/-- An aligned extent is looked at for its place. -/
theorem Store.addExtent_aligned : st.addExtent capacity first count =
    if first + count > 4294967296 ∨ (capacity.any fun c => decide (c < first + count)) then .inl .outOfRange
    else if st.meets first count then .inl .overlap
    else if st.pool.length ≥ 64 then .inl .poolFull
    else .inr ({ st with pool := st.pool ++ [{ first, count }] } : Store).rearm := by
  obtain ⟨firstWhole, nonempty, countWhole⟩ := aligned
  exact if_neg fun bad => bad.elim (· firstWhole) (·.elim nonempty (· countWhole))

theorem Store.addExtent_outOfRange (outside : ¬InsideCard capacity first count) :
    st.addExtent capacity first count = .inl .outOfRange := by
  rw [Store.addExtent_aligned aligned]
  exact if_pos (not_not.1 (mt insideCard_iff.2 outside))

variable (inside : InsideCard capacity first count)
include inside

theorem Store.addExtent_overlap (meets : st.meets first count = true) : st.addExtent capacity first count = .inl .overlap := by
  rw [Store.addExtent_aligned aligned, if_neg (insideCard_iff.1 inside)]
  exact if_pos meets

variable (apart : ¬st.meets first count = true)
include apart

theorem Store.addExtent_poolFull (full : 64 ≤ st.pool.length) : st.addExtent capacity first count = .inl .poolFull := by
  rw [Store.addExtent_aligned aligned, if_neg (insideCard_iff.1 inside), if_neg apart]
  exact if_pos full

theorem Store.addExtent_joins (room : st.pool.length < 64) : st.addExtent capacity first count =
    .inr ({ st with pool := st.pool ++ [{ first, count }] } : Store).rearm := by
  rw [Store.addExtent_aligned aligned, if_neg (insideCard_iff.1 inside), if_neg apart]
  exact if_neg (Nat.not_le_of_lt room)

end

/-! ## EXTENT_WITHDRAW (R144) -/

theorem Store.withdraw_pooled (pooled : ∃ e ∈ st.pool, e.first = first) :
    st.withdraw first = .inr { st with pool := st.pool.filter fun e => e.first != first } :=
  if_pos (by simpa using pooled)

variable (elsewhere : ¬∃ e ∈ st.pool, e.first = first)
include elsewhere

theorem Store.withdraw_busy (segment : ∃ g ∈ st.table, ∃ e ∈ g.exts, e.first = first) : st.withdraw first = .inl .busy :=
  (if_neg (by simpa using elsewhere)).trans (if_pos (by simpa using segment))

theorem Store.withdraw_notFound (nowhere : ¬∃ g ∈ st.table, ∃ e ∈ g.exts, e.first = first) : st.withdraw first = .inl .notFound :=
  (if_neg (by simpa using elsewhere)).trans (if_neg (by simpa using nowhere))

end

/-! ## PROTECT (R156) -/

section
variable {st : Store} {serial : Word}

theorem Store.protect_badField {action : Nat} (unknown : 1 < action) : st.protect serial action = .inl .badField := by
  obtain ⟨k, rfl⟩ := Nat.exists_eq_add_of_le' unknown
  rfl

theorem Store.protect_notFound {action : Nat} (known : action ≤ 1) (missing : st.seg serial = none) :
    st.protect serial action = .inl .notFound := by
  unfold Store.protect
  rw [missing]
  obtain rfl | rfl := Nat.le_one_iff_eq_zero_or_eq_one.1 known <;> rfl

variable {g : Seg} (found : st.seg serial = some g)
include found

/-- The host takes an owned segment always, an unprotected one under the cap. -/
theorem Store.protect_set : st.protect serial 0 =
    if g.owner.isNone && decide (8 ≤ st.protectedCount) then .inl .protectFull
    else .inr (st.mapSeg serial fun h => { h with owner := some .host }) := by
  unfold Store.protect
  rw [found]
  rfl

theorem Store.protect_clear : st.protect serial 1 = .inr (st.mapSeg serial fun h => { h with owner := none }) := by
  unfold Store.protect
  rw [found]
  rfl

end

/-! ## The frames -/

section
variable {a : Ambient} {s : State} (hs : s.supply.held = false)
include hs

section
variable {first count : Nat} (body : s.frameBody .control = some (.extentAdd first count))
include body

theorem exec_extentAdd_refused {r : Result}
    (refused : s.store.addExtent (if s.card.usable then some s.card.capacity else none) first count = .inl r) :
    exec (.extentAdd a) s = .next ((s.arrive a).finish .control .refused r 0) := by
  refine (perform_free hs : execExtentAdd a s = _).trans (congrArg Host.Outcome.next ?_)
  rw [show (s.arrive a).frameBody .control = _ from body]
  simp only [show (s.arrive a).store.addExtent (if (s.arrive a).card.usable then some (s.arrive a).card.capacity else none)
    first count = .inl r from refused]

theorem exec_extentAdd_taken {st : Store}
    (taken : s.store.addExtent (if s.card.usable then some s.card.capacity else none) first count = .inr st) :
    exec (.extentAdd a) s = .next (State.rest (State.finish { s.arrive a with store := st } .control .done .ok st.pool.length)) := by
  refine (perform_free hs : execExtentAdd a s = _).trans (congrArg Host.Outcome.next ?_)
  rw [show (s.arrive a).frameBody .control = _ from body]
  simp only [show (s.arrive a).store.addExtent (if (s.arrive a).card.usable then some (s.arrive a).card.capacity else none)
    first count = .inr st from taken]

end

section
variable {first : Nat} (body : s.frameBody .control = some (.extentWithdraw first))
include body

theorem exec_extentWithdraw_refused {r : Result} (refused : s.store.withdraw first = .inl r) :
    exec (.extentWithdraw a) s = .next ((s.arrive a).finish .control .refused r 0) := by
  refine (perform_free hs : execExtentWithdraw a s = _).trans (congrArg Host.Outcome.next ?_)
  rw [show (s.arrive a).frameBody .control = _ from body]
  simp only [State.arrive_store, refused]

theorem exec_extentWithdraw_taken {st : Store} (taken : s.store.withdraw first = .inr st) : exec (.extentWithdraw a) s =
    .next (State.rest (State.finish { s.arrive a with store := st } .control .done .ok st.pool.length)) := by
  refine (perform_free hs : execExtentWithdraw a s = _).trans (congrArg Host.Outcome.next ?_)
  rw [show (s.arrive a).frameBody .control = _ from body]
  simp only [State.arrive_store, taken]

end

section
variable {serial : Word} {action : Nat} (body : s.frameBody .control = some (.protect serial action))
include body

theorem exec_protect_refused {r : Result} (refused : s.store.protect serial action = .inl r) :
    exec (.protect a) s = .next ((s.arrive a).finish .control .refused r 0) := by
  refine (perform_free hs : execProtect a s = _).trans (congrArg Host.Outcome.next ?_)
  rw [show (s.arrive a).frameBody .control = _ from body]
  simp only [State.arrive_store, refused]

theorem exec_protect_taken {st : Store} (taken : s.store.protect serial action = .inr st) : exec (.protect a) s =
    .next (State.rest (State.finish { s.arrive a with store := st } .control .done .ok st.protectedCount)) := by
  refine (perform_free hs : execProtect a s = _).trans (congrArg Host.Outcome.next ?_)
  rw [show (s.arrive a).frameBody .control = _ from body]
  simp only [State.arrive_store, taken]

end

end

/-- Settles O42: each frame's answer is that of the storage map's own operation, case by case. -/
theorem extentAndProtectFrames : Obligations.ExtentAndProtectFrames := by
  unfold Obligations.ExtentAndProtectFrames
  refine ⟨fun a s first count hs body => ?add, fun a s hs => ⟨fun first body => ?withdraw, fun serial action body => ?protect⟩⟩
  case add =>
    intro u refused card aligned inside apart
    have refuse {r : Result} : _ → refused r := exec_extentAdd_refused hs body
    have within : InsideCard (if s.card.usable then some s.card.capacity else none) first count ↔ inside := by
      have usable : s.card.usable = true ↔ card := s.card.usable_iff
      refine and_congr_right fun _ => ?_
      by_cases there : s.card.usable = true
      · simp [there, usable.1 there]
      · simp [there, mt usable.2 there]
    have met : s.store.meets first count = true ↔ ¬apart := by
      rw [Store.meets_iff]
      simp [apart]
    refine ⟨fun bad => refuse (Store.addExtent_misaligned bad),
      fun good outside => refuse (Store.addExtent_outOfRange good (mt within.1 outside)),
      fun good isIn meets => refuse (Store.addExtent_overlap good (within.2 isIn) (met.2 meets)),
      fun good isIn clear full => refuse (Store.addExtent_poolFull good (within.2 isIn) (mt met.1 (not_not.2 clear)) full),
      fun good isIn clear room => ?_⟩
    refine (exec_extentAdd_taken hs body (Store.addExtent_joins good (within.2 isIn) (mt met.1 (not_not.2 clear)) room)).trans ?_
    exact congrArg (fun n => Host.Outcome.next (State.rest (State.finish _ .control .done .ok n))) (by simp [Store.rearm])
  case withdraw =>
    exact ⟨fun pooled => exec_extentWithdraw_taken hs body (Store.withdraw_pooled pooled),
      fun elsewhere segment => exec_extentWithdraw_refused hs body (Store.withdraw_busy elsewhere segment),
      fun elsewhere nowhere => exec_extentWithdraw_refused hs body (Store.withdraw_notFound elsewhere nowhere)⟩
  case protect =>
    refine ⟨fun unknown => exec_protect_refused hs body (Store.protect_badField unknown),
      fun known missing => exec_protect_refused hs body (Store.protect_notFound known missing),
      fun g found => ⟨?full, ?set, ?clear⟩⟩
    case full =>
      rintro rfl free full
      refine exec_protect_refused hs body ((Store.protect_set found).trans (if_pos ?_))
      rw [free]
      exact decide_eq_true full
    case set =>
      rintro rfl able
      refine exec_protect_taken hs body ((Store.protect_set found).trans (if_neg ?_))
      rw [Bool.and_eq_true, Option.isNone_iff_eq_none, decide_eq_true_eq, not_and_or, Nat.not_le]
      exact able
    case clear =>
      rintro rfl
      exact exec_protect_taken hs body (Store.protect_clear found)

end Sys2Proof.Machine
end

section
/-! SUPPORT. A segment's release, its opening and its positions, each answer said once (R146, R147, R151, R158; log entry 76). -/

namespace Sys2Proof.Machine

/-! ## Releases (R151) -/

section
variable {now : Time} {st : Store}

theorem Store.release_noLoop (noLoop : st.loops.loop = false) : st.release now = .answer st () :=
  if_pos (by rw [noLoop]; rfl)

theorem Store.release_none (nothing : st.table.find? Seg.releasable = none) : st.release now = .answer st () := by
  unfold Store.release
  rw [nothing]
  split <;> rfl

/-- A release that is not to be had leaves the map. -/
theorem Store.release_answer {u : Store} {x : Unit} (h : st.release now = .answer u x) : u = st := by
  unfold Store.release at h
  split at h
  · cases h; rfl
  · split at h
    · cases h; rfl
    · split at h
      · cases h; rfl
      · split at h <;> cases h

variable {g : Seg} (loop : st.loops.loop = true) (oldest : st.table.find? Seg.releasable = some g)
include loop oldest

/-- In loop mode the oldest releasable segment is looked at. -/
theorem Store.release_oldest : st.release now =
    if 64 < st.pool.length + g.exts.length then .answer st ()
    else if !st.segmentRoom then .blocked
    else
      let t := st.segmentReport now (.segmentReleased g.serial g.clip g.index g.exts)
      .moved ({ t with pool := t.pool ++ g.exts, table := t.table.filter fun h => h.serial != g.serial } : Store).rearm := by
  unfold Store.release
  rw [loop, oldest]
  rfl

theorem Store.release_noPool (full : 64 < st.pool.length + g.exts.length) : st.release now = .answer st () :=
  (Store.release_oldest loop oldest).trans (if_pos full)

variable (fits : st.pool.length + g.exts.length ≤ 64)
include fits

theorem Store.release_blocked (noRoom : ¬st.segmentRoom = true) : st.release now = .blocked := by
  rw [Store.release_oldest loop oldest, if_neg (Nat.not_lt_of_le fits)]
  exact if_pos (by simpa using noRoom)

theorem Store.release_moved (room : st.segmentRoom = true) : st.release now =
    .moved ({ st.segmentReport now (.segmentReleased g.serial g.clip g.index g.exts) with
      pool := st.pool ++ g.exts, table := st.table.filter fun h => h.serial != g.serial } : Store).rearm := by
  rw [Store.release_oldest loop oldest, if_neg (Nat.not_lt_of_le fits)]
  exact if_neg (by simpa using room)

end

/-! ## The opening (R146) -/

section
variable {now : Time} {st : Store} {serial clip : Word} {index : Nat}

/-- Work that asks for a release answers `x` where there is none. -/
def Store.orRelease {α : Type} (now : Time) (st : Store) (x : α) : Reply α :=
  match st.release now with
  | .blocked => .blocked
  | .moved u => .moved u
  | .answer u _ => .answer u x

theorem Store.openSegment_releases (starved : 16 ≤ st.table.length ∨ st.pool = []) :
    st.openSegment now serial clip index = st.orRelease now none := by
  unfold Store.openSegment
  dsimp only
  split
  · rfl
  · rename_i room
    rw [starved.resolve_left room]
    rfl

variable (room : st.table.length < 16) {e : Extent} {rest : List Extent} (pool : st.pool = e :: rest)
include room pool

theorem Store.openSegment_blocked (noRoom : ¬st.segmentRoom = true) : st.openSegment now serial clip index = .blocked := by
  refine (if_neg (Nat.not_le_of_lt room)).trans ?_
  rw [pool]
  exact if_pos (by simpa using noRoom)

/-- The segment that an opening puts into the table. -/
def Store.entering (now : Time) (serial clip : Word) (index : Nat) (e : Extent) (st : Store) : Seg :=
  { serial, clip, index, phase := .opened, owner := (st.entryProtection now).1, start := now, stop := now, timed := false, exts := [e]
    next := nextAfter e e.first, returned := none, used := 1, unwritten := 0, tail := .noneYet, incidents := st.openIncidents
    incidentCount := st.openIncidentCount, loop := st.loops.loop }

theorem Store.openSegment_opens (reports : st.segmentRoom = true) : st.openSegment now serial clip index = .answer
    { st.segmentReport now (.segmentOpened serial clip index e.first (st.entryProtection now).1 (st.entryProtection now).2.2) with
      pool := rest, openIncidents := [], openIncidentCount := 0, openMark := none
      table := (st.entryProtection now).2.1 ++ [st.entering now serial clip index e] } (some e.first) := by
  refine (if_neg (Nat.not_le_of_lt room)).trans ?_
  rw [pool]
  exact if_neg (by simpa using reports)

end

/-! ## Positions (R147) -/

section
variable {now : Time} {st : Store} {serial : Word} {g : Seg}

theorem Store.leavesNoTail_iff (st : Store) (g : Seg) : st.leavesNoTail g = true ↔ (g.exts.length = 8 ∧ g.untaken ≤ 1)
    ∨ (g.exts.length = 7 ∧ g.untaken = 0 ∧ ∃ e rest, st.pool = e :: rest ∧ e.count / 128 = 1) := by
  unfold Store.leavesNoTail
  cases st.pool <;> simp [Config.segExtents, Config.packBlocks, Extent.packs, and_comm, and_left_comm]

variable (found : st.seg serial = some g)
include found

theorem Store.nextPack_full (full : st.leavesNoTail g = true) : st.nextPack now false serial = .answer st .extentsFull := by
  unfold Store.nextPack
  rw [found]
  exact if_pos (by rw [full]; rfl)

variable {forTail : Bool} (able : forTail = true ∨ ¬st.leavesNoTail g = true)
include able

/-- A request that leaves a pack for the tail, or is the tail's. -/
theorem Store.nextPack_able : st.nextPack now forTail serial =
    match g.returned with
    | some n => .answer (st.mapSeg serial fun h => { h with returned := none, used := h.used + 1 }) (.position n)
    | none =>
      match g.next, g.exts.getLast? with
      | some n, some e => .answer (st.mapSeg serial fun h => { h with next := nextAfter e n, used := h.used + 1 }) (.position n)
      | _, _ =>
        if g.exts.length ≥ 8 then .answer st .none
        else match st.pool with
          | e :: rest => .answer ({ st with pool := rest }.mapSeg serial fun h =>
              { h with exts := h.exts ++ [e], next := nextAfter e e.first, used := h.used + 1 }) (.position e.first)
          | [] => st.orRelease now .none := by
  unfold Store.nextPack
  rw [found]
  refine if_neg fun refused => ?_
  obtain ⟨other, full⟩ := (Bool.and_eq_true _ _).mp refused
  obtain rfl | fits := able
  · exact nomatch other
  · exact fits full

theorem Store.nextPack_returned {p : Nat} (returned : g.returned = some p) : st.nextPack now forTail serial =
    .answer (st.mapSeg serial fun h => { h with returned := none, used := h.used + 1 }) (.position p) := by
  rw [Store.nextPack_able found able, returned]

variable (kept : g.returned = none)
include kept

theorem Store.nextPack_next {n : Nat} {e : Extent} (next : g.next = some n) (last : g.exts.getLast? = some e) :
    st.nextPack now forTail serial =
      .answer (st.mapSeg serial fun h => { h with next := nextAfter e n, used := h.used + 1 }) (.position n) := by
  rw [Store.nextPack_able found able, kept, next, last]

variable (used : g.next = none)
include used

/-- With its last extent used up a segment takes another. -/
theorem Store.nextPack_usedUp : st.nextPack now forTail serial =
    if g.exts.length ≥ 8 then .answer st .none
    else match st.pool with
      | e :: rest => .answer ({ st with pool := rest }.mapSeg serial fun h =>
          { h with exts := h.exts ++ [e], next := nextAfter e e.first, used := h.used + 1 }) (.position e.first)
      | [] => st.orRelease now .none := by
  rw [Store.nextPack_able found able, kept, used]

theorem Store.nextPack_none (eight : 8 ≤ g.exts.length) : st.nextPack now forTail serial = .answer st .none :=
  (Store.nextPack_usedUp found able kept used).trans (if_pos eight)

variable (fewer : g.exts.length < 8)
include fewer

theorem Store.nextPack_head {e : Extent} {rest : List Extent} (pool : st.pool = e :: rest) : st.nextPack now forTail serial =
    .answer ({ st with pool := rest }.mapSeg serial fun h =>
      { h with exts := h.exts ++ [e], next := nextAfter e e.first, used := h.used + 1 }) (.position e.first) := by
  rw [Store.nextPack_usedUp found able kept used, if_neg (Nat.not_le_of_lt fewer), pool]

theorem Store.nextPack_releases (pool : st.pool = []) : st.nextPack now forTail serial = st.orRelease now .none := by
  rw [Store.nextPack_usedUp found able kept used, if_neg (Nat.not_le_of_lt fewer), pool]

end

theorem Seg.tookLast_iff (g : Seg) (block : Nat) : g.tookLast block = true ↔
    ∃ e, g.exts.getLast? = some e ∧ e.first ≤ block ∧ block < e.first + e.count ∧ g.next = nextAfter e block := by
  unfold Seg.tookLast
  cases g.exts.getLast? with
  | none => simp
  | some e =>
    simp only [Bool.and_eq_true, decide_eq_true_eq, beq_iff_eq, Option.some.injEq, exists_eq_left', and_assoc,
      eq_comm (a := nextAfter e block)]
    rfl

/-- Settles O43: the segment of a serial, and the answers of a release, an opening, a position request and a pack returned. -/
theorem segmentsOpenAndTakePositions : Obligations.SegmentsOpenAndTakePositions := by
  unfold Obligations.SegmentsOpenAndTakePositions
  refine ⟨fun st serial f => ⟨fun absent => ⟨?_, Store.mapSeg_absent f absent⟩, fun pre g post table others this => ⟨?_, ?_⟩⟩,
    fun now st => ?_⟩
  · simpa [Store.seg] using absent
  · rw [Store.seg, table]
    exact List.find?_eq_some_iff_append.2 ⟨by simpa using this, pre, post, rfl, by simpa using others⟩
  · exact Store.mapSeg_present f table others this
  intro room told oldest
  have roomy : st.segmentRoom = true ↔ room := st.segmentRoom_iff
  refine ⟨fun starved => ?none, fun g loop first => ⟨Store.release_noPool loop first,
      fun fits noRoom => Store.release_blocked loop first fits (mt roomy.1 noRoom),
      fun fits reports => Store.release_moved loop first fits (roomy.2 reports)⟩,
    fun serial clip index => ⟨Store.openSegment_releases, fun table pool noRoom => ?blocked,
      fun e rest table pool reports => Store.openSegment_opens table pool (roomy.2 reports)⟩,
    fun serial g found => ?positions⟩
  case none =>
    obtain noLoop | nothing := starved
    · exact Store.release_noLoop noLoop
    · exact Store.release_none nothing
  case blocked =>
    obtain ⟨e, rest, pool⟩ := List.exists_cons_of_ne_nil pool
    exact Store.openSegment_blocked table pool (mt roomy.1 noRoom)
  case positions =>
    intro untaken full
    have leaves : st.leavesNoTail g = true ↔ full := by
      have counted : g.untaken = untaken := Seg.untaken_eq g
      have iff := st.leavesNoTail_iff g
      rw [counted] at iff
      exact iff
    refine ⟨fun isFull => Store.nextPack_full found (leaves.2 isFull), fun forTail able => ?_, fun block => ?_⟩
    · have able := able.imp_right (mt leaves.1)
      exact ⟨fun p => Store.nextPack_returned found able, fun kept => ⟨fun n e => Store.nextPack_next found able kept,
        fun e rest used fewer => Store.nextPack_head found able kept used fewer,
        Store.nextPack_releases found able kept, Store.nextPack_none found able kept⟩⟩
    · intro u last
      have took : g.tookLast block = true ↔ last := g.tookLast_iff block
      refine ⟨fun isLast => Store.seg_returnPack_last found block (took.2 isLast),
        fun behind => Store.seg_returnPack_behind found block (Bool.eq_false_iff.2 (mt took.1 behind)), rfl, fun k other => ?_⟩
      exact Store.seg_mapSeg_of_ne st other _ fun h => by split <;> rfl

end Sys2Proof.Machine
end

section
/-! SUPPORT. A segment's times, its close with the split, its completion, and the removal of the rest of a faulting extent (R145, R147 to
R151; log entries 43, 57, 76). -/

namespace Sys2Proof.Machine

/-! ## Times (R145) -/

theorem Seg.noteTime_first {g : Seg} (t : Time) (untimed : g.timed = false) :
    g.noteTime t = { g with start := t, stop := t, timed := true } := if_neg (Bool.eq_false_iff.1 untimed)

theorem Seg.noteTime_later {g : Seg} (t : Time) (timed : g.timed = true) :
    g.noteTime t = { g with stop := if timeLater t g.stop then t else g.stop } := if_pos timed

theorem Seg.noteClose_untimed {g : Seg} (t : Time) (untimed : g.timed = false) :
    g.noteClose t = { g with start := t, stop := t } := if_neg (Bool.eq_false_iff.1 untimed)

theorem Seg.noteClose_timed {g : Seg} (t : Time) (timed : g.timed = true) : g.noteClose t = g := if_pos timed

/-! ## The split (R148) -/

section
variable {st : Store} {serial : Word} {g : Seg} (found : st.seg serial = some g)
include found

theorem Store.splitTail_stays (nothing : g.next = none ∨ g.exts = []) : st.splitTail serial = st := by
  unfold Store.splitTail
  rw [found]
  dsimp only
  obtain used | empty := nothing
  · rw [used]
  · rw [empty]
    cases g.next <;> rfl

variable {e : Extent} (last : g.exts.getLast? = some e)
include last

theorem Store.splitTail_cut {cut : Nat} (next : g.next = some cut) : st.splitTail serial =
    if cut < e.stop ∧ st.pool.length < 64 then
      ({ st with pool := { first := cut, count := e.stop - cut } :: st.pool }.mapSeg serial fun h =>
        { h with exts := h.exts.dropLast ++ [({ first := e.first, count := cut - e.first } : Extent)], next := none }).rearm
    else st := by
  unfold Store.splitTail
  rw [found]
  dsimp only
  rw [next, last]
  rfl

/-- The packs of the last extent from `cut` on join the pool's head, where there are any and the pool has room. -/
theorem Store.splitTail_spec {cut : Nat} (next : g.next = some cut) :
    let u := st.splitTail serial
    let split := cut < e.first + e.count ∧ st.pool.length < 64
    u.pool = (if split then { first := cut, count := e.first + e.count - cut } :: st.pool else st.pool)
      ∧ u.seg serial = some { g with
          exts := if split then g.exts.dropLast ++ [{ first := e.first, count := cut - e.first }] else g.exts
          next := if split then none else some cut }
      ∧ u.lowArmed = (if split then st.lowArmed || decide (st.loops.watermark ≤ u.freePacks) else st.lowArmed)
      ∧ u.queue = st.queue ∧ ∀ k, k ≠ serial → u.seg k = st.seg k := by
  intro u split
  have eq : u = if split then _ else st := Store.splitTail_cut found last next
  by_cases able : split
  · rw [if_pos able] at eq
    simp only [if_pos able]
    rw [eq]
    exact ⟨rfl, Store.seg_mapSeg_self found _ fun _ => rfl, rfl, rfl, fun k other => Store.seg_mapSeg_of_ne _ other _ fun _ => rfl⟩
  · rw [if_neg able] at eq
    simp only [if_neg able]
    rw [eq, ← next]
    exact ⟨rfl, found, rfl, rfl, fun _ _ => rfl⟩

/-- The split behind a pack just taken. -/
theorem Store.splitTail_after {n : Nat} (next : g.next = nextAfter e n) :
    let u := st.splitTail serial
    let stop := e.first + e.count
    let split := n + 128 < stop ∧ st.pool.length < 64
    u.pool = (if split then { first := n + 128, count := stop - (n + 128) } :: st.pool else st.pool)
      ∧ u.seg serial = some { g with
          exts := if split then g.exts.dropLast ++ [{ first := e.first, count := n + 128 - e.first }] else g.exts
          next := if n + 128 < stop ∧ ¬split then some (n + 128) else none }
      ∧ u.lowArmed = (if split then st.lowArmed || decide (st.loops.watermark ≤ u.freePacks) else st.lowArmed)
      ∧ u.queue = st.queue ∧ ∀ k, k ≠ serial → u.seg k = st.seg k := by
  intro u stop split
  by_cases more : n + 128 < stop
  · have cut : g.next = some (n + 128) := next.trans (if_pos more)
    obtain ⟨pool, seg, rest⟩ := Store.splitTail_spec found last cut
    refine ⟨pool, seg.trans ?_, rest⟩
    have left : (if split then none else some (n + 128)) = if n + 128 < stop ∧ ¬split then some (n + 128) else none := by
      by_cases able : split <;> simp [able, more]
    rw [← left]
  · have used : g.next = none := next.trans (if_neg more)
    have stays : ¬split := fun able => more able.1
    simp only [if_neg stays, more, false_and, if_false, ← used]
    rw [show u = st from Store.splitTail_stays found (.inl used)]
    exact ⟨rfl, found, rfl, rfl, fun _ _ => rfl⟩

end

theorem Store.splitTail_frame (serial : Word) (st : Store) :
    (st.splitTail serial).queue = st.queue ∧ ∀ k, k ≠ serial → (st.splitTail serial).seg k = st.seg k := by
  have whole (stays : st.splitTail serial = st) :
      (st.splitTail serial).queue = st.queue ∧ ∀ k, k ≠ serial → (st.splitTail serial).seg k = st.seg k :=
    ⟨congrArg Store.queue stays, fun k _ => congrArg (Store.seg · k) stays⟩
  cases found : st.seg serial with
  | none => exact whole (by rw [Store.splitTail, found])
  | some g =>
    cases next : g.next with
    | none => exact whole (Store.splitTail_stays found (.inl next))
    | some cut =>
      cases last : g.exts.getLast? with
      | none => exact whole (Store.splitTail_stays found (.inr (List.getLast?_eq_none_iff.1 last)))
      | some e =>
        obtain ⟨-, -, -, frame⟩ := Store.splitTail_spec found last next
        exact frame

/-! ## The close (R148) -/

section
variable {now : Time} {st : Store} {serial : Word}

theorem Store.closeSegment_noTail : st.closeSegment now serial true =
    .answer (st.mapSeg serial fun g => { g with tail := .missing, phase := .ending }) none := rfl

/-- The map with a change of a segment that takes a pack for its tail. -/
def Store.tailed (st : Store) (serial : Word) (take : Seg → Seg) (b : Nat) : Store :=
  (st.mapSeg serial take).mapSeg serial fun g => { g with tail := .pending b, phase := .ending }

theorem Store.seg_tailed {g : Seg} (found : st.seg serial = some g) (take : Seg → Seg) (b : Nat)
    (keeps : ∀ g, (take g).serial = g.serial := by exact fun _ => rfl) :
    (st.tailed serial take b).seg serial = some { take g with tail := .pending b, phase := .ending } :=
  Store.seg_mapSeg_self (Store.seg_mapSeg_self found take keeps) _ fun _ => rfl

theorem Store.seg_tailed_ne {k : Word} (other : k ≠ serial) (take : Seg → Seg) (b : Nat)
    (keeps : ∀ g, (take g).serial = g.serial := by exact fun _ => rfl) : (st.tailed serial take b).seg k = st.seg k :=
  (Store.seg_mapSeg_of_ne (st.mapSeg serial take) other (fun g => { g with tail := .pending b, phase := .ending }) fun _ => rfl).trans
    (Store.seg_mapSeg_of_ne st other take keeps)

theorem Store.closeSegment_position {t : Store} {take : Seg → Seg} {b : Nat}
    (pack : st.nextPack now true serial = .answer (t.mapSeg serial take) (.position b)) :
    st.closeSegment now serial false = .answer ((t.tailed serial take b).splitTail serial) (some b) := by
  unfold Store.closeSegment
  rw [pack]
  rfl

theorem Store.closeSegment_none (pack : st.nextPack now true serial = .answer st .none) :
    st.closeSegment now serial false = st.closeSegment now serial true := by
  unfold Store.closeSegment
  rw [pack]
  rfl

theorem Store.closeSegment_releases (pack : st.nextPack now true serial = st.orRelease now .none) :
    st.closeSegment now serial false = match st.release now with
      | .blocked => .blocked
      | .moved u => .moved u
      | .answer _ _ => st.closeSegment now serial true := by
  unfold Store.closeSegment
  rw [pack, Store.orRelease]
  cases released : st.release now with
  | blocked => rfl
  | moved u => rfl
  | answer u x =>
    obtain rfl := Store.release_answer released
    rfl

end

/-! ## The completion (R149) -/

section
variable {now : Time} {st : Store} {serial : Word} {g : Seg}

/-- A segment of the table still there after its change is the changed one, or another. -/
theorem Store.mem_mapSeg (f : Seg → Seg) (hf : ∀ g, (f g).serial = g.serial) (only : ∀ h ∈ st.table, h.serial = serial → h = g)
    {h : Seg} (mem : h ∈ (st.mapSeg serial f).table) (this : h.serial = serial) : h = g ∨ h = f g := by
  obtain old | ⟨k, first, rfl⟩ := mem_mapFirst mem
  · exact .inl (only h old this)
  · exact .inr (congrArg f (only k (List.mem_of_find?_eq_some first) ((hf k).symm.trans this)))

theorem Store.leaveTable_stays (all : ∀ h ∈ st.table, h.serial = serial → h.loop = true ∧ h.exts ≠ []) :
    st.leaveTable serial = st := by
  have kept : (st.table.filter fun g => g.serial != serial || (g.loop && !g.exts.isEmpty)) = st.table := by
    refine List.filter_eq_self.2 fun h mem => ?_
    by_cases this : h.serial = serial
    · simpa [this] using all h mem this
    · simp [this]
  exact congrArg (fun table => { st with table }) kept

theorem Store.leaveTable_leaves (all : ∀ h ∈ st.table, h.serial = serial → h.loop = false ∨ h.exts = []) :
    st.leaveTable serial = { st with table := st.table.filter fun h => h.serial != serial } := by
  refine congrArg (fun table => { st with table }) (List.filter_congr fun h mem => ?_)
  by_cases this : h.serial = serial
  · obtain noLoop | empty := all h mem this
    · simp [this, noLoop]
    · simp [this, empty]
  · simp [this]

variable (found : st.seg serial = some g)
include found

theorem Store.completeSegment_blocked (noRoom : ¬st.segmentRoom = true) : st.completeSegment now serial = .blocked := by
  unfold Store.completeSegment
  rw [found]
  exact if_pos (by simpa using noRoom)

theorem Store.completeSegment_answer (room : st.segmentRoom = true) : st.completeSegment now serial =
    .answer ((st.segmentReport now g.closedReport).mapSeg serial fun h => { h with phase := .complete }) () := by
  unfold Store.completeSegment
  rw [found]
  exact if_neg (by simpa using room)

end

/-! ## The removal (R150) -/

section
variable {g : Seg} {block : Nat} {pre post : List Extent} {e : Extent}

/-- The first block that leaves with an extent cut at a block. -/
def Extent.cutAt (e : Extent) (block : Nat) : Nat := max e.first (block / 128 * 128)

/-- The end of the packs taken of an extent from its cut on. -/
def Seg.takenTop (g : Seg) (e : Extent) (block : Nat) : Nat :=
  match g.next with
  | some n => if g.exts.getLast? = some e then max (e.cutAt block) (min n (e.first + e.count)) else e.first + e.count
  | none => e.first + e.count

/-- The returned pack, where it leaves with the extent. -/
def Seg.takenBack (g : Seg) (e : Extent) (block : Nat) : Nat :=
  if g.returned.any (fun b => decide (e.cutAt block ≤ b ∧ b < e.first + e.count)) then 1 else 0

/-- The segment without the rest of an extent from its cut on. -/
def Seg.removed (g : Seg) (e : Extent) (block : Nat) (h : Seg) : Seg :=
  { h with
    exts := cutExtents block h.exts
    next := if (match g.exts.getLast? with
      | some l => decide (l.first + l.count = e.cutAt block + (e.first + e.count - e.cutAt block))
      | none => false) then none else h.next
    returned := h.returned.filter fun b =>
      !(decide (e.cutAt block ≤ b) && decide (b < e.cutAt block + (e.first + e.count - e.cutAt block)))
    used := h.used - ((g.takenTop e block - e.cutAt block) / 128 - g.takenBack e block) }

variable (exts : g.exts = pre ++ e :: post) (others : ∀ f ∈ pre, ¬(f.first ≤ block ∧ block < f.first + f.count))
  (from_ : e.first ≤ block) (upTo : block < e.first + e.count)
include from_ upTo

theorem Extent.cutAt_lt : e.cutAt block < e.first + e.count := by
  unfold Extent.cutAt
  omega

/-- The removed range ends where the extent does. -/
theorem Extent.cutAt_add : e.cutAt block + (e.first + e.count - e.cutAt block) = e.first + e.count :=
  Nat.add_sub_of_le (Nat.le_of_lt (Extent.cutAt_lt from_ upTo))

include exts others

theorem Seg.badRange_eq : g.badRange block = some (e.cutAt block, e.first + e.count - e.cutAt block,
    (g.takenTop e block - e.cutAt block) / 128 - g.takenBack e block) := by
  have holds : g.exts.find? (fun f => decide (f.first ≤ block) && decide (block < f.stop)) = some e := by
    refine List.find?_eq_some_iff_append.2 ⟨?_, pre, post, exts, fun f mem => ?_⟩
    · rw [Bool.and_eq_true, decide_eq_true_eq, decide_eq_true_eq]
      exact ⟨from_, upTo⟩
    · rw [Bool.not_eq_true', Bool.eq_false_iff, ne_eq, Bool.and_eq_true, decide_eq_true_eq, decide_eq_true_eq]
      exact others f mem
  have back : (g.returned.toList.filter fun b => decide (e.cutAt block ≤ b) && decide (b < e.first + e.count)).length
      = g.takenBack e block := by
    unfold Seg.takenBack
    cases g.returned with
    | none => rfl
    | some b => by_cases inside : e.cutAt block ≤ b ∧ b < e.first + e.count <;> simp [inside]
  unfold Seg.badRange
  rw [holds]
  dsimp only
  rw [← back]
  rfl

theorem Seg.removed_eq [Decidable (∃ l, g.exts.getLast? = some l ∧ l.first + l.count = e.first + e.count)] :
    g.removed e block g = { g with
      exts := pre ++ (if block / 128 * 128 ≤ e.first then [] else [{ first := e.first, count := block / 128 * 128 - e.first }]) ++ post
      next := if (∃ l, g.exts.getLast? = some l ∧ l.first + l.count = e.first + e.count) then none else g.next
      returned := if g.takenBack e block = 1 then none else g.returned
      used := g.used - ((g.takenTop e block - e.cutAt block) / 128 - g.takenBack e block) } := by
  have isLast : (match g.exts.getLast? with
      | some l => decide (l.first + l.count = e.first + e.count)
      | none => false) = true ↔ ∃ l, g.exts.getLast? = some l ∧ l.first + l.count = e.first + e.count := by
    cases g.exts.getLast? <;> simp
  have returned : (g.returned.filter fun b => !(decide (e.cutAt block ≤ b) && decide (b < e.first + e.count)))
      = if g.takenBack e block = 1 then none else g.returned := by
    unfold Seg.takenBack
    cases g.returned with
    | none => rfl
    | some b => by_cases inside : e.cutAt block ≤ b ∧ b < e.first + e.count <;> simp [inside, Option.filter]
  have cut := (congrArg (cutExtents block) exts).trans (cutExtents_append block pre post e others from_ upTo)
  unfold Seg.removed
  rw [Extent.cutAt_add from_ upTo, if_congr isLast rfl rfl, returned, cut]

section
variable {now : Time} {st : Store} {serial : Word} (found : st.seg serial = some g)
include found

theorem Store.removeRange_blocked (noRoom : ¬st.segmentRoom = true) : st.removeRange now serial block = .blocked := by
  unfold Store.removeRange
  rw [found]
  dsimp only
  rw [Seg.badRange_eq exts others from_ upTo]
  exact if_pos (by simpa using noRoom)

theorem Store.removeRange_answer (room : st.segmentRoom = true) : st.removeRange now serial block = .answer
    ((st.segmentReport now (.badExtent serial (e.cutAt block) (e.first + e.count - e.cutAt block))).mapSeg serial (g.removed e block))
    (some (e.cutAt block, e.first + e.count - e.cutAt block)) := by
  unfold Store.removeRange
  rw [found]
  dsimp only
  rw [Seg.badRange_eq exts others from_ upTo]
  exact if_neg (by simpa using room)

end

end

/-- The list of the card's entries and what it asks, once a range has left the entries of the record. -/
def State.asking (s : State) (list : List Entry) (asks : List Matter) : State :=
  { s with card := { s.card with list }, store := { s.store with matters := s.store.matters ++ asks } }

theorem State.fillingRemoved_card (range : Option (Nat × Nat)) (s : State) : (s.fillingRemoved range).card = s.card := by
  unfold State.fillingRemoved
  split
  · split <;> rfl
  · rfl

/-- Settles O44: times, the close by where the tail's pack comes from, the completion, and the removal with what asks for new
positions. -/
theorem segmentsCloseCompleteAndLoseExtents : Obligations.SegmentsCloseCompleteAndLoseExtents := by
  unfold Obligations.SegmentsCloseCompleteAndLoseExtents
  refine ⟨fun g t => ⟨fun untimed => ⟨Seg.noteTime_first t untimed, Seg.noteClose_untimed t untimed⟩,
    fun timed => ⟨Seg.noteTime_later t timed, Seg.noteClose_timed t timed⟩⟩, fun now st serial g found => ?segment,
    fun s block lo n => ?asks⟩
  case segment =>
    intro room othersStand told
    have roomy : st.segmentRoom = true ↔ room := st.segmentRoom_iff
    refine ⟨⟨_, Store.closeSegment_noTail, Store.seg_mapSeg_self found _ fun _ => rfl, rfl, rfl,
        fun k other => Store.seg_mapSeg_of_ne st other _ fun _ => rfl⟩,
      fun kept used eight => Store.closeSegment_none (Store.nextPack_none found (.inl rfl) kept used eight),
      fun p returned => ?returned, fun n e kept next last => ?next, fun e rest kept used fewer pool => ?head,
      fun kept used fewer pool => Store.closeSegment_releases (Store.nextPack_releases found (.inl rfl) kept used fewer pool),
      fun noRoom => Store.completeSegment_blocked found (mt roomy.1 noRoom), fun reports => ?complete,
      fun block pre e post exts others from_ upTo => ?removal⟩
    case returned =>
      have after := Store.seg_tailed found (fun h => { h with returned := none, used := h.used + 1 }) p
      obtain ⟨queue, others⟩ :=
        Store.splitTail_frame serial (st.tailed serial (fun h => { h with returned := none, used := h.used + 1 }) p)
      refine ⟨_, Store.closeSegment_position (Store.nextPack_returned found (.inl rfl) returned), fun n e next last => ?_,
        fun nothing => ?_, queue, fun k other => (others k other).trans (Store.seg_tailed_ne other _ p)⟩
      · obtain ⟨pool, seg, armed, -⟩ := Store.splitTail_spec after last next
        exact ⟨pool, seg, armed⟩
      · rw [Store.splitTail_stays after nothing]
        exact ⟨rfl, rfl, after⟩
    case next =>
      have after := Store.seg_tailed found (fun h => { h with next := nextAfter e n, used := h.used + 1 }) n
      obtain ⟨pool, seg, armed, queue, others⟩ := Store.splitTail_after after last rfl
      exact ⟨_, Store.closeSegment_position (Store.nextPack_next found (.inl rfl) kept next last), pool, seg, armed, queue,
        fun k other => (others k other).trans (Store.seg_tailed_ne other _ n)⟩
    case head =>
      have after := Store.seg_tailed (st := { st with pool := rest }) found
        (fun h => { h with exts := h.exts ++ [e], next := nextAfter e e.first, used := h.used + 1 }) e.first
      obtain ⟨pool', seg, armed, queue, others⟩ := Store.splitTail_after after List.getLast?_concat rfl
      intro stop split
      refine ⟨_, Store.closeSegment_position (Store.nextPack_head found (.inl rfl) kept used fewer pool), pool', seg.trans ?_,
        armed, queue, fun k other => (others k other).trans (Store.seg_tailed_ne other _ e.first)⟩
      have exts : (if split then (g.exts ++ [e]).dropLast ++ [({ first := e.first, count := e.first + 128 - e.first } : Extent)]
          else g.exts ++ [e]) = g.exts ++ [if split then { first := e.first, count := 128 } else e] := by
        rw [List.dropLast_concat, Nat.add_sub_cancel_left]
        split <;> rfl
      rw [← exts]
      rfl
    case complete =>
      have finished {h : Seg} (only : ∀ h ∈ st.table, h.serial = serial → h = g)
          (mem : h ∈ (st.mapSeg serial fun h => { h with phase := .complete }).table) (this : h.serial = serial) :
          h.loop = g.loop ∧ h.exts = g.exts := by
        obtain rfl | rfl := Store.mem_mapSeg (fun h => { h with phase := .complete }) (fun _ => rfl) only mem this <;> exact ⟨rfl, rfl⟩
      refine ⟨_, Store.completeSegment_answer found (roomy.2 reports), rfl,
        Store.seg_mapSeg_self (st := st.segmentReport now _) found _ fun _ => rfl, fun only loop nonempty => ?_, fun only gone => ?_,
        rfl, fun k other => Store.seg_mapSeg_of_ne _ other _ fun _ => rfl⟩
      · refine Store.leaveTable_stays fun h mem this => ?_
        obtain ⟨sameLoop, sameExts⟩ := finished only mem this
        exact ⟨sameLoop.trans loop, sameExts ▸ nonempty⟩
      · refine Store.leaveTable_leaves fun h mem this => ?_
        obtain ⟨sameLoop, sameExts⟩ := finished only mem this
        exact gone.imp sameLoop.trans sameExts.trans
    case removal =>
      intro pack lo stop top back
      refine ⟨fun noRoom => Store.removeRange_blocked exts others from_ upTo found (mt roomy.1 noRoom), fun reports =>
        ⟨_, Store.removeRange_answer exts others from_ upTo found (roomy.2 reports), rfl, ?_, rfl, fun k other => ?_⟩⟩
      · refine (Store.seg_mapSeg_self (st := st.segmentReport now _) found (g.removed e block) fun _ => rfl).trans (congrArg some ?_)
        exact Seg.removed_eq exts others from_ upTo
      · exact Store.seg_mapSeg_of_ne _ other _ fun _ => rfl
  case asks =>
    intro inside list asks t
    have within (b : Nat) : inRange (some (lo, n)) b = true ↔ inside b := by simp [inRange, inside]
    have same : (s.card.list.map fun e => if e.awaiting && !inRange (some (lo, n)) e.block then { e with awaiting := false } else e)
        = list := List.map_congr_left fun e _ => if_congr (by
      rw [Bool.and_eq_true, Bool.not_eq_true', ← within, Bool.not_eq_true]) rfl rfl
    have removed : t = (s.asking list asks).fillingRemoved (some (lo, n)) := by
      simp only [t, State.removed, same]
      rfl
    refine ⟨?_, fun i b filling pos isIn => ?_, fun outside => ?_⟩
    · rw [removed, State.fillingRemoved_card]
      rfl
    · rw [removed, State.fillingRemoved_inside (s := s.asking list asks) _ filling pos ((within b).2 isIn)]
      exact ⟨rfl, rfl⟩
    · rw [removed, State.fillingRemoved_outside (s := s.asking list asks) _
        fun i b filling pos => mt (within b).1 (outside i b filling pos)]
      exact ⟨rfl, rfl⟩

end Sys2Proof.Machine
end

section
/-! SUPPORT. Incidents: the lists they join, the window they protect segment by segment, and the protection of a segment that enters
(R153 to R155). -/

namespace Sys2Proof.Machine

/-! ## The second pass of R154 -/

/-- A segment that an incident's window may displace: protected for an earlier one and outside the window. -/
def Seg.displaceable (n : Word) (from_ : Nat) (g : Seg) : Bool := g.ownedBefore n && !g.inWindow from_

/-- A segment after serials were taken for an incident and others freed. -/
def Seg.marked (n : Word) (taken freed : List Word) (g : Seg) : Seg :=
  if taken.contains g.serial then { g with owner := some (.incident n) }
  else if freed.contains g.serial then { g with owner := none }
  else g

theorem Seg.marked_nil (n : Word) : Seg.marked n [] [] = id := rfl

/-- One more serial taken first, which is not freed after. -/
theorem Seg.marked_taken (n : Word) {s : Word} (taken : List Word) {freed : List Word} (stays : s ∉ freed) (g : Seg) :
    Seg.marked n taken freed (if g.serial = s then { g with owner := some (.incident n) } else g) = g.marked n (s :: taken) freed := by
  by_cases this : g.serial = s
  · subst this
    simp [Seg.marked, stays]
  · simp [Seg.marked, this]

/-- One more serial freed first. -/
theorem Seg.marked_freed (n s : Word) (taken freed : List Word) (g : Seg) :
    Seg.marked n taken freed (if g.serial = s then { g with owner := none } else g) = g.marked n taken (s :: freed) := by
  by_cases this : g.serial = s
  · subst this
    simp [Seg.marked]
  · simp [Seg.marked, this]

theorem Seg.ownedBefore_self {n : Word} {g : Seg} (own : g.owner = some (.incident n)) : g.ownedBefore n = false := by
  simp [Seg.ownedBefore, own]

theorem Seg.ownedBefore_none {n : Word} {g : Seg} (free : g.owner = none) : g.ownedBefore n = false := by
  simp [Seg.ownedBefore, free]

section
variable {n : Word} {f : Nat} {s : Word} {more : List Word} {t : List Seg} (k : Nat)

/-- The segment of a serial protected for an incident. -/
def protectSerial (n s : Word) (t : List Seg) : List Seg :=
  mapFirst (fun g => g.serial == s) (fun g => { g with owner := some (.incident n) }) t

/-- The oldest segment that may be displaced freed. -/
def displaceOldest (n : Word) (f : Nat) (t : List Seg) : List Seg :=
  mapFirst (Seg.displaceable n f) (fun g => { g with owner := none }) t

theorem protectPass_room (room : guards t < 8) :
    protectPass n f (s :: more) t k = protectPass n f more (protectSerial n s t) (k + 1) := if_pos room

theorem protectPass_displaces (full : 8 ≤ guards t) (able : t.any (Seg.displaceable n f) = true) :
    protectPass n f (s :: more) t k = protectPass n f more (protectSerial n s (displaceOldest n f t)) (k + 1) :=
  (if_neg (Nat.not_lt_of_le full)).trans (if_pos able)

theorem protectPass_short (full : 8 ≤ guards t) (stuck : ¬t.any (Seg.displaceable n f) = true) :
    protectPass n f (s :: more) t k = (t, k, true) :=
  (if_neg (Nat.not_lt_of_le full)).trans (if_neg stuck)

end

/-- The serials name unprotected segments of a table, each one. -/
def NamesUnprotected (free : List Word) (t : List Seg) : Prop := ∀ s ∈ free, ∃ v ∈ t, v.serial = s ∧ v.owner = none

section
variable {n : Word} {f : Nat} {t : List Seg} (nodup : (t.map (·.serial)).Nodup)
include nodup

/-- A table and the serials still to be protected once the first of them is. -/
theorem protectSerial_next {s : Word} {more : List Word} (apart : (s :: more).Nodup) (free : NamesUnprotected (s :: more) t) :
    ((protectSerial n s t).map (·.serial)).Nodup ∧ NamesUnprotected more (protectSerial n s t)
      ∧ guards (protectSerial n s t) = guards t + 1
      ∧ (protectSerial n s t).filter (Seg.displaceable n f) = t.filter (Seg.displaceable n f)
      ∧ (∀ F : Seg → Seg, (protectSerial n s t).map F
        = t.map fun g => F (if g.serial = s then { g with owner := some (.incident n) } else g))
      ∧ s ∉ (t.filter (Seg.displaceable n f)).map (·.serial) := by
  obtain ⟨v, mem, rfl, unowned⟩ := free s List.mem_cons_self
  have found := find?_serial nodup mem
  have still : ¬v.displaceable n f = true := by simp [Seg.displaceable, Seg.ownedBefore_none unowned]
  have serials : (protectSerial n v.serial t).map (·.serial) = t.map (·.serial) := map_serial_mapFirst fun _ => rfl
  have mapped : protectSerial n v.serial t = _ := mapFirst_eq_map nodup found
  refine ⟨serials.symm ▸ nodup, fun s' mem' => ?_, guards_protected found unowned rfl,
    filter_mapFirst found still ?_, fun F => by rw [mapped, List.map_map]; rfl, fun mem' => ?_⟩
  · obtain ⟨w, there, rfl, wFree⟩ := free s' (List.mem_cons_of_mem _ mem')
    refine ⟨w, ?_, rfl, wFree⟩
    rw [mapped]
    refine List.mem_map.2 ⟨w, there, if_neg fun same => ?_⟩
    exact (List.nodup_cons.1 apart).1 (same ▸ mem')
  · simp [Seg.displaceable, Seg.ownedBefore]
  · obtain ⟨w, there, same⟩ := List.mem_map.1 mem'
    obtain ⟨wMem, displaceable⟩ := List.mem_filter.1 there
    exact still (List.inj_on_of_nodup_map nodup wMem mem same ▸ displaceable)

/-- A table and the serials still to be protected once its oldest displaceable segment is freed. -/
theorem displaceOldest_next {free : List Word} (named : NamesUnprotected free t) {v : Seg} {rest : List Seg}
    (displaceable : t.filter (Seg.displaceable n f) = v :: rest) :
    ((displaceOldest n f t).map (·.serial)).Nodup ∧ NamesUnprotected free (displaceOldest n f t)
      ∧ guards (displaceOldest n f t) + 1 = guards t
      ∧ (displaceOldest n f t).filter (Seg.displaceable n f) = rest
      ∧ ∀ F : Seg → Seg, (displaceOldest n f t).map F
        = t.map fun g => F (if g.serial = v.serial then { g with owner := none } else g) := by
  have found : t.find? (Seg.displaceable n f) = some v := by rw [← List.head?_filter, displaceable]; rfl
  have freed : ∀ g : Seg, ¬Seg.displaceable n f { g with owner := none } = true := fun g => by
    simp [Seg.displaceable, Seg.ownedBefore]
  have owned : ∀ g : Seg, g.displaceable n f = true → g.owner.isSome = true := fun g h =>
    Seg.ownedBefore_isSome g (Bool.and_eq_true_iff.1 h).1
  have serials : (displaceOldest n f t).map (·.serial) = t.map (·.serial) := map_serial_mapFirst fun _ => rfl
  have mapped : displaceOldest n f t = _ := mapFirst_eq_map nodup found
  refine ⟨serials.symm ▸ nodup, fun s mem => ?_, guards_freed _ _ t ?_ owned fun _ => rfl,
    ?_, fun F => by rw [mapped, List.map_map]; rfl⟩
  · obtain ⟨w, there, rfl, wFree⟩ := named s mem
    refine ⟨w, ?_, rfl, wFree⟩
    rw [mapped]
    refine List.mem_map.2 ⟨w, there, ?_⟩
    split
    · cases w
      cases wFree
      rfl
    · rfl
  · exact List.any_eq_true.2 ⟨v, List.mem_of_find?_eq_some found, List.find?_some found⟩
  · have := filter_mapFirst_self (f := fun g => { g with owner := none }) found (freed v)
    exact (List.cons.inj (this.symm.trans displaceable)).2

end

/-- How many of `free` serials the pass protects: those the cap leaves room for, and one for each segment to be displaced. -/
def passCount (n : Word) (f free : Nat) (t : List Seg) : Nat :=
  min free (8 - guards t + (t.filter (Seg.displaceable n f)).length)

/-- The segments that the pass displaces, oldest first: one for each serial beyond the room. -/
def passDisplaced (n : Word) (f free : Nat) (t : List Seg) : List Word :=
  ((t.filter (Seg.displaceable n f)).take (passCount n f free t - (8 - guards t))).map (·.serial)

section
variable {n : Word} {f m : Nat} {t u : List Seg}

/-- One more protected while there is room. -/
theorem passCount_room (room : guards t < 8) (more : guards u = guards t + 1)
    (outside : u.filter (Seg.displaceable n f) = t.filter (Seg.displaceable n f)) :
    passCount n f (m + 1) t = passCount n f m u + 1 ∧ passDisplaced n f (m + 1) t = passDisplaced n f m u := by
  have count : passCount n f (m + 1) t = passCount n f m u + 1 := by
    simp only [passCount, more, outside]
    omega
  refine ⟨count, ?_⟩
  rw [passDisplaced, passDisplaced, count, more, outside]
  congr 2
  omega

/-- One more protected in the place of a displaced one. -/
theorem passCount_full (full : 8 ≤ guards t) (same : guards u = guards t) {v : Seg}
    (outside : t.filter (Seg.displaceable n f) = v :: u.filter (Seg.displaceable n f)) :
    passCount n f (m + 1) t = passCount n f m u + 1 ∧ passDisplaced n f (m + 1) t = v.serial :: passDisplaced n f m u := by
  have noRoom : 8 - guards t = 0 := Nat.sub_eq_zero_of_le full
  have count : passCount n f (m + 1) t = passCount n f m u + 1 := by
    simp only [passCount, same, outside, noRoom, List.length_cons]
    omega
  refine ⟨count, ?_⟩
  rw [passDisplaced, passDisplaced, count, same, outside, noRoom, Nat.sub_zero, Nat.sub_zero, List.take_succ_cons, List.map_cons]

/-- With no room and nothing to displace none is protected. -/
theorem passCount_stuck (full : 8 ≤ guards t) (outside : t.filter (Seg.displaceable n f) = []) : passCount n f m t = 0 := by
  rw [passCount, Nat.sub_eq_zero_of_le full, outside]
  exact Nat.min_zero _

theorem passDisplaced_subset : passDisplaced n f m t ⊆ (t.filter (Seg.displaceable n f)).map (·.serial) :=
  List.map_subset _ (List.take_subset _ _)

end

theorem any_displaceable_iff {n : Word} {f : Nat} {t : List Seg} :
    t.any (Seg.displaceable n f) = true ↔ t.filter (Seg.displaceable n f) ≠ [] := by
  simp [List.filter_eq_nil_iff]

/-- The pass said once: the first serials are protected while there is room, then each in the place of a displaced segment. -/
theorem protectPass_eq (n : Word) (f : Nat) (free : List Word) (t : List Seg) (k : Nat) (nodup : (t.map (·.serial)).Nodup)
    (apart : free.Nodup) (named : NamesUnprotected free t) :
    protectPass n f free t k =
      (t.map (Seg.marked n (free.take (passCount n f free.length t)) (passDisplaced n f free.length t)),
        k + passCount n f free.length t, decide (passCount n f free.length t < free.length)) := by
  induction free generalizing t k with
  | nil =>
    have zero : passCount n f 0 t = 0 := Nat.zero_min _
    simp [protectPass, passDisplaced, zero, Seg.marked_nil]
  | cons s more ih =>
    have further : more.Nodup := (List.nodup_cons.1 apart).2
    by_cases room : guards t < 8
    · obtain ⟨nodup', named', guards', outside, mapped, stays⟩ := protectSerial_next (n := n) (f := f) nodup apart named
      obtain ⟨count, displaced⟩ := passCount_room (m := more.length) room guards' outside
      rw [protectPass_room k room, ih _ _ nodup' further named', List.length_cons, count, displaced, List.take_succ_cons, mapped]
      refine Prod.ext (List.map_congr_left fun g _ => Seg.marked_taken n _ (fun mem => stays ?_) g)
        (Prod.ext (by dsimp only; omega) (by simp))
      exact outside ▸ passDisplaced_subset mem
    have full : 8 ≤ guards t := Nat.le_of_not_lt room
    cases outside : t.filter (Seg.displaceable n f) with
    | nil =>
      have stuck : ¬t.any (Seg.displaceable n f) = true := fun able => any_displaceable_iff.1 able outside
      rw [protectPass_short k full stuck, passDisplaced, passCount_stuck full outside]
      simp [Seg.marked_nil]
    | cons v rest =>
      have able : t.any (Seg.displaceable n f) = true := any_displaceable_iff.2 (outside ▸ List.cons_ne_nil v rest)
      obtain ⟨nodup', named', guards', outside', mapped⟩ := displaceOldest_next nodup named outside
      obtain ⟨nodup'', named'', guards'', outside'', mapped', stays⟩ := protectSerial_next (n := n) (f := f) nodup' apart named'
      have behind := outside''.trans outside'
      obtain ⟨count, displaced⟩ := passCount_full (m := more.length) full (guards''.trans guards') 
        (outside.trans (congrArg (v :: ·) behind.symm))
      rw [protectPass_displaces k full able, ih _ _ nodup'' further named'', List.length_cons, count, displaced,
        List.take_succ_cons, mapped', mapped]
      refine Prod.ext (List.map_congr_left fun g _ => ?_) (Prod.ext (by dsimp only; omega) (by simp))
      rw [← Seg.marked_freed]
      exact Seg.marked_taken n _ (fun mem => stays (outside'' ▸ passDisplaced_subset mem)) _

/-! ## The window of an incident (R154) -/

/-- A segment of an earlier incident in the window is the new incident's. -/
def Seg.renewed (n : Word) (f : Nat) (g : Seg) : Seg :=
  if g.inWindow f && g.ownedBefore n then { g with owner := some (.incident n) } else g

theorem Seg.renewed_of_mem {n : Word} {f : Nat} {g : Seg} (earlier : (g.inWindow f && g.ownedBefore n) = true) :
    g.renewed n f = { g with owner := some (.incident n) } := if_pos earlier

theorem Seg.renewed_of_not {n : Word} {f : Nat} {g : Seg} (other : ¬(g.inWindow f && g.ownedBefore n) = true) : g.renewed n f = g :=
  if_neg other

/-- The renewal moves no segment into a selection that none of the renewed is in, before or after. -/
theorem filter_map_renewed {n : Word} {f : Nat} {q : Seg → Bool} (l : List Seg)
    (before : ∀ g : Seg, (g.inWindow f && g.ownedBefore n) = true → q g = false)
    (after : ∀ g : Seg, g.owner = some (.incident n) → q g = false) : (l.map (Seg.renewed n f)).filter q = l.filter q := by
  induction l with
  | nil => rfl
  | cons g l ih =>
    by_cases earlier : (g.inWindow f && g.ownedBefore n) = true
    · rw [List.map_cons, Seg.renewed_of_mem earlier, List.filter_cons_of_neg (Bool.eq_false_iff.1 (after _ rfl)),
        List.filter_cons_of_neg (Bool.eq_false_iff.1 (before g earlier)), ih]
    · rw [List.map_cons, Seg.renewed_of_not earlier, List.filter_cons, List.filter_cons, ih]

section
variable (n : Word) (f : Nat) (st : Store)

/-- The unprotected segments of a window, newest first. -/
def Store.unowned : List Seg := (st.table.filter fun g => g.inWindow f && g.owner.isNone).reverse

/-- How many of them are protected. -/
def Store.windowCount : Nat := passCount n f (st.unowned f).length st.table

/-- The serials of those that are. -/
def Store.windowTaken : List Word := ((st.unowned f).take (st.windowCount n f)).map (·.serial)

/-- The serials of the segments displaced for them. -/
def Store.windowDisplaced : List Word := passDisplaced n f (st.unowned f).length st.table

/-- A segment after its table's window is protected. -/
def Store.windowed (g : Seg) : Seg :=
  if (g.inWindow f && g.ownedBefore n) || (st.windowTaken n f).contains g.serial then { g with owner := some (.incident n) }
  else if (st.windowDisplaced n f).contains g.serial then { g with owner := none }
  else g

@[simp] theorem Store.windowed_serial (g : Seg) : (st.windowed n f g).serial = g.serial := by
  unfold Store.windowed
  split
  · rfl
  · split <;> rfl

theorem Store.windowed_unowned (g : Seg) : { st.windowed n f g with owner := none } = { g with owner := none } := by
  unfold Store.windowed
  split
  · rfl
  · split <;> rfl

theorem Store.windowed_inWindow (g : Seg) : (st.windowed n f g).inWindow f = g.inWindow f := by
  unfold Store.windowed
  split
  · rfl
  · split <;> rfl

variable {n f st} (nodup : (st.table.map (·.serial)).Nodup) {g : Seg} (mem : g ∈ st.table)
include nodup mem

theorem Store.mem_windowTaken (taken : g.serial ∈ st.windowTaken n f) : g.inWindow f = true ∧ g.owner = none := by
  obtain ⟨v, there, same⟩ := List.mem_map.1 taken
  obtain ⟨vMem, free⟩ := List.mem_filter.1 (List.mem_reverse.1 (List.take_subset _ _ there))
  obtain rfl : v = g := List.inj_on_of_nodup_map nodup vMem mem same
  simpa using free

theorem Store.mem_windowDisplaced (displaced : g.serial ∈ st.windowDisplaced n f) : g.displaceable n f = true := by
  obtain ⟨v, there, same⟩ := List.mem_map.1 displaced
  obtain ⟨vMem, displaceable⟩ := List.mem_filter.1 (List.take_subset _ _ there)
  exact List.inj_on_of_nodup_map nodup vMem mem same ▸ displaceable

/-- The two passes on one segment. -/
theorem Store.marked_renewed :
    (g.renewed n f).marked n (st.windowTaken n f) (st.windowDisplaced n f) = st.windowed n f g := by
  by_cases earlier : (g.inWindow f && g.ownedBefore n) = true
  · have stays : g.serial ∉ st.windowDisplaced n f := fun displaced => by
      have := Store.mem_windowDisplaced nodup mem displaced
      simp_all [Seg.displaceable]
    simp [Seg.renewed_of_mem earlier, Seg.marked, Store.windowed, earlier, stays]
  · simp [Seg.renewed_of_not earlier, Seg.marked, Store.windowed, Bool.eq_false_iff.2 earlier]

theorem Store.windowed_host (host : g.owner = some .host) : st.windowed n f g = g := by
  have notEarlier : g.ownedBefore n = false := by simp [Seg.ownedBefore, host]
  have notTaken : g.serial ∉ st.windowTaken n f := fun taken =>
    nomatch host.symm.trans (Store.mem_windowTaken nodup mem taken).2
  have notDisplaced : g.serial ∉ st.windowDisplaced n f := fun displaced => by
    simpa [Seg.displaceable, notEarlier] using Store.mem_windowDisplaced nodup mem displaced
  simp [Store.windowed, notEarlier, notTaken, notDisplaced]

/-- A segment of the window left unprotected is one that the pass did not reach. -/
theorem Store.windowed_left (window : g.inWindow f = true) (free : (st.windowed n f g).owner = none) :
    st.windowCount n f < (st.unowned f).length := by
  refine Nat.lt_of_not_le fun all => ?_
  have stays : g.serial ∉ st.windowDisplaced n f := fun displaced => by
    simpa [Seg.displaceable, window] using Store.mem_windowDisplaced nodup mem displaced
  have unowned : g.owner = none := by
    unfold Store.windowed at free
    split at free
    · cases free
    · simpa [stays] using free
  have taken : g.serial ∈ st.windowTaken n f := by
    rw [Store.windowTaken, List.take_of_length_le all]
    refine List.mem_map_of_mem (List.mem_reverse.2 (List.mem_filter.2 ⟨mem, ?_⟩))
    rw [window, unowned]
    rfl
  simp [Store.windowed, taken] at free

end

/-- What the second pass makes of the renewed table, for the serials of its unprotected segments newest first. -/
theorem Store.windowPass_eq (n : Word) (f : Nat) {st : Store} (nodup : (st.table.map (·.serial)).Nodup) :
    let first := st.table.map (Seg.renewed n f)
    protectPass n f ((first.filter fun g => g.inWindow f && g.owner.isNone).map (·.serial)).reverse first 0
      = (st.table.map (st.windowed n f), st.windowCount n f, decide (st.windowCount n f < (st.unowned f).length)) := by
  intro first
  have serials : first.map (·.serial) = st.table.map (·.serial) := by
    rw [List.map_map]
    refine List.map_congr_left fun g _ => ?_
    unfold Seg.renewed Function.comp
    dsimp only
    split <;> rfl
  have free : ((first.filter fun g => g.inWindow f && g.owner.isNone).map (·.serial)).reverse = (st.unowned f).map (·.serial) := by
    rw [filter_map_renewed, Store.unowned, List.map_reverse]
    · intro g earlier
      have owned := Seg.ownedBefore_isSome g (Bool.and_eq_true_iff.1 earlier).2
      rw [← Option.not_isSome, owned, Bool.not_true, Bool.and_false]
    · intro g own
      rw [own, Option.isNone_some, Bool.and_false]
  have outside : first.filter (Seg.displaceable n f) = st.table.filter (Seg.displaceable n f) := by
    refine filter_map_renewed _ (fun g earlier => ?_) fun g own => ?_
    · rw [Seg.displaceable, (Bool.and_eq_true_iff.1 earlier).1, Bool.not_true, Bool.and_false]
    · rw [Seg.displaceable, Seg.ownedBefore_self own, Bool.false_and]
  have count : guards first = guards st.table := guards_map _ fun g => (renewed_seg n f g).1
  have apart : ((st.unowned f).map (·.serial)).Nodup := by
    rw [Store.unowned, List.map_reverse, List.nodup_reverse]
    exact nodup.sublist (List.filter_sublist.map _)
  have named : NamesUnprotected ((st.unowned f).map (·.serial)) first := by
    intro s mem
    rw [← free, List.mem_reverse] at mem
    obtain ⟨v, there, same⟩ := List.mem_map.1 mem
    obtain ⟨vMem, able⟩ := List.mem_filter.1 there
    exact ⟨v, vMem, same, Option.isNone_iff_eq_none.1 (Bool.and_eq_true_iff.1 able).2⟩
  have passed : passCount n f (st.unowned f).length first = st.windowCount n f := by
    rw [Store.windowCount, passCount, passCount, count, outside]
  have freed : passDisplaced n f (st.unowned f).length first = st.windowDisplaced n f := by
    rw [Store.windowDisplaced, passDisplaced, passDisplaced, passed, count, outside, Store.windowCount]
  rw [free, protectPass_eq n f _ first 0 (serials.symm ▸ nodup) apart named, List.length_map, passed, freed, ← List.map_take,
    List.map_map, Nat.zero_add]
  exact congrArg (·, _) (List.map_congr_left fun g mem => Store.marked_renewed nodup mem)

/-- The protection of a window said once: its table, how many segments it protects, and whether it leaves one. -/
theorem Store.protectWindow_eq (n : Word) (t : Time) {st : Store} (nodup : (st.table.map (·.serial)).Nodup) :
    let f := t.toNat - st.loops.pre * 1000000
    (st.protectWindow n t).1.table = st.table.map (st.windowed n f)
      ∧ (st.protectWindow n t).2.1 = (st.table.filter fun g => g.inWindow f && g.ownedBefore n).length + st.windowCount n f
      ∧ (st.protectWindow n t).2.2 = decide (st.windowCount n f < (st.unowned f).length) := by
  unfold Store.protectWindow
  dsimp only
  generalize t.toNat - st.loops.pre * 1000000 = f
  have pass := st.windowPass_eq n f nodup
  unfold Seg.renewed at pass
  dsimp only at pass
  rw [pass]
  exact ⟨rfl, rfl, rfl⟩

/-- The segments by serial of a table whose every segment has changed, serials kept. -/
theorem Store.seg_of_map {u st : Store} {F : Seg → Seg} (table : u.table = st.table.map F) (hF : ∀ g, (F g).serial = g.serial)
    (k : Word) : u.seg k = (st.seg k).map F := by
  rw [Store.seg, table, List.find?_map]
  refine congrArg (fun p => (st.table.find? p).map F) (funext fun g => ?_)
  exact congrArg (· == k) (hF g)

/-- A time passes protect-until, or nothing is protected until a time. -/
def Store.outlasted (st : Store) (u : Time) : Bool :=
  match st.protectUntil with
  | none => true
  | some o => decide (o.toNat < u.toNat)

theorem Store.outlasted_iff (st : Store) (u : Time) : st.outlasted u = true ↔ ∀ o, st.protectUntil = some o → o.toNat < u.toNat := by
  unfold Store.outlasted
  split
  next unset => simp [unset]
  next o until_ => simp [until_]

/-- Protect-until moves to a later time only (R154). -/
theorem Store.protectWindow_until (n : Word) (t : Time) (st : Store) :
    ((st.protectWindow n t).1.protectUntil, (st.protectWindow n t).1.untilOwner) =
      if st.outlasted (timeAfter t (st.loops.post * 1000000)) then (some (timeAfter t (st.loops.post * 1000000)), some n)
      else (st.protectUntil, st.untilOwner) := by
  unfold Store.protectWindow
  dsimp only
  generalize timeAfter t (st.loops.post * 1000000) = u
  generalize protectPass n _ _ _ 0 = pass
  change (if st.outlasted u = true then _ else _, if st.outlasted u = true then _ else _) = _
  split <;> rfl

/-! ## The lists of incidents (R153) -/

section
variable {n : Word} {i : Incident} {st : Store}

theorem Store.listIncident_opening {serial : Word} (opening : st.opening = some serial) : st.listIncident n i =
    ({ st with
        openIncidents := if st.openIncidents.length < 8 then st.openIncidents ++ [i] else st.openIncidents
        openIncidentCount := st.openIncidentCount + 1, openMark := some n },
      if st.openIncidents.length < 8 then serial else 0) := by
  rw [Store.listIncident, opening]
  simp only [decide_eq_true_eq]
  rfl

theorem Store.listIncident_openSeg {g : Seg} (idle : st.opening = none) (opened : st.openSeg = some g) : st.listIncident n i =
    (st.mapSeg g.serial fun h => { h with
        incidents := if h.incidents.length < 8 then h.incidents ++ [i] else h.incidents
        incidentCount := h.incidentCount + 1 },
      if g.incidents.length < 8 then g.serial else 0) := by
  rw [Store.listIncident, idle, opened]
  rfl

theorem Store.listIncident_none (idle : st.opening = none) (closed : st.openSeg = none) : st.listIncident n i = (st, 0) := by
  rw [Store.listIncident, idle, closed]

theorem Store.listIncident_loops (n : Word) (i : Incident) (st : Store) : (st.listIncident n i).1.loops = st.loops := by
  unfold Store.listIncident
  split
  · rfl
  · split <;> rfl

/-- In loop mode the incident's window is protected, and its report tells how. -/
theorem Store.incident_loop (now : Time) (loop : st.loops.loop = true) :
    let a := ({ st with nextIncident := st.nextIncident + 1 } : Store).listIncident st.nextIncident i
    let p := a.1.protectWindow st.nextIncident i.time
    st.incident now i = p.1.offer now .incident (.incident st.nextIncident i.time i.peak i.source a.2 p.2.1 p.1.protectUntil p.2.2) := by
  intro a p
  have looping : a.1.loops.loop = true := (congrArg LoopSet.loop (Store.listIncident_loops _ _ _)).trans loop
  have protection : (if a.1.loops.loop then a.1.protectWindow st.nextIncident i.time else (a.1, 0, false)) = p := if_pos looping
  unfold Store.incident
  dsimp only
  rw [protection]

theorem Store.incident_noLoop (now : Time) (noLoop : st.loops.loop = false) :
    let a := ({ st with nextIncident := st.nextIncident + 1 } : Store).listIncident st.nextIncident i
    st.incident now i =
      a.1.offer now .incident (.incident st.nextIncident i.time i.peak i.source a.2 0 a.1.protectUntil false) := by
  intro a
  have quiet : ¬a.1.loops.loop = true := by
    rw [Store.listIncident_loops]
    exact Bool.eq_false_iff.1 noLoop
  have protection : (if a.1.loops.loop then a.1.protectWindow st.nextIncident i.time else (a.1, 0, false)) = (a.1, 0, false) :=
    if_neg quiet
  unfold Store.incident
  dsimp only
  rw [protection]

end

/-! ## The protection of a segment that enters (R155) -/

section
variable {now : Time} {st : Store}

/-- The incident that a segment entering the table now is protected for. -/
def Store.entryOwner (now : Time) (st : Store) : Option Word :=
  match st.protectUntil, st.untilOwner with
  | some u, some o => if now.toNat < u.toNat then some o else st.openMark
  | _, _ => st.openMark

/-- A segment with an incident to be protected for looks at the cap. -/
theorem Store.entryProtection_eq : st.entryProtection now =
    match st.entryOwner now with
    | none => (none, st.table, false)
    | some o =>
      if st.protectedCount < 8 then (some (.incident o), st.table, false)
      else if st.table.any (fun g => g.ownedBefore o) then
        (some (.incident o), mapFirst (fun g => g.ownedBefore o) (fun g => { g with owner := none }) st.table, false)
      else (none, st.table, true) := rfl

theorem Store.entryProtection_none (unmarked : st.entryOwner now = none) :
    st.entryProtection now = (none, st.table, false) := by
  rw [Store.entryProtection_eq, unmarked]

variable {o : Word} (owner : st.entryOwner now = some o)
include owner

theorem Store.entryProtection_room (room : st.protectedCount < 8) :
    st.entryProtection now = (some (.incident o), st.table, false) := by
  rw [Store.entryProtection_eq, owner]
  exact if_pos room

variable (full : 8 ≤ st.protectedCount)
include full

theorem Store.entryProtection_partial (younger : ∀ g ∈ st.table, ¬g.ownedBefore o = true) :
    st.entryProtection now = (none, st.table, true) := by
  rw [Store.entryProtection_eq, owner]
  exact (if_neg (Nat.not_lt_of_le full)).trans (if_neg (by simpa using younger))

theorem Store.entryProtection_displaces {pre post : List Seg} {v : Seg} (table : st.table = pre ++ v :: post)
    (older : v.ownedBefore o = true) (others : ∀ g ∈ pre, ¬g.ownedBefore o = true) :
    st.entryProtection now = (some (.incident o), pre ++ { v with owner := none } :: post, false) := by
  have able : st.table.any (fun g => g.ownedBefore o) = true := List.any_eq_true.2 ⟨v, by simp [table], older⟩
  rw [Store.entryProtection_eq, owner]
  refine (if_neg (Nat.not_lt_of_le full)).trans ((if_pos able).trans ?_)
  rw [table, mapFirst_append others older]

end

theorem Seg.ownedBefore_iff (g : Seg) (n : Word) :
    g.ownedBefore n = true ↔ ∃ m, g.owner = some (.incident m) ∧ m.toNat < n.toNat := by
  unfold Seg.ownedBefore
  split
  next m owner => simp [owner]
  next other =>
    refine iff_of_false Bool.false_ne_true ?_
    rintro ⟨m, owner, -⟩
    exact other m owner

theorem Seg.inWindow_iff (g : Seg) (f : Nat) : g.inWindow f = true ↔ f ≤ g.stop.toNat ∨ g.phase = .opened := by
  simp [Seg.inWindow]

/-- Settles O45: the lists and the report by the loop flag, the window by its two passes, and the entry by its owner and the cap. -/
theorem incidentsAreListedAndProtect : Obligations.IncidentsAreListedAndProtect := by
  unfold Obligations.IncidentsAreListedAndProtect
  refine ⟨fun n i st => ⟨fun _ => Store.listIncident_opening, fun _ => Store.listIncident_openSeg, Store.listIncident_none⟩,
    fun now i st => ⟨Store.incident_loop now, Store.incident_noLoop now⟩, fun n t st => (Store.kept_protectWindow n t st).guarded,
    fun n t st nodup => ?window, fun now st => ?entry⟩
  case entry =>
    refine ⟨Store.entryProtection_none, fun o owner => ⟨Store.entryProtection_room owner, fun full younger => ?_,
      fun pre v post m full table older earlier others => ?_⟩⟩
    · refine Store.entryProtection_partial owner full fun g mem before => ?_
      obtain ⟨m, own, lower⟩ := (g.ownedBefore_iff o).1 before
      exact absurd lower (Nat.not_lt_of_le (younger g mem m own))
    · refine Store.entryProtection_displaces owner full table ((v.ownedBefore_iff o).2 ⟨m, older, earlier⟩) fun g mem before => ?_
      obtain ⟨k, own, lower⟩ := (g.ownedBefore_iff o).1 before
      exact absurd lower (Nat.not_lt_of_le (others g mem k own))
  case window =>
    intro inWindow p until_ later
    obtain ⟨table, count, short⟩ := Store.protectWindow_eq n t nodup
    have byserial := Store.seg_of_map table (Store.windowed_serial n _ st)
    refine ⟨?owners, fun k g found host => ?host, fun k g m found own window lower => ?renewed, fun k g found window free => ?left,
      ⟨table, count, short⟩, fun moves => ?later, fun stays => ?earlier⟩
    case owners =>
      rw [table, List.map_map]
      exact List.map_congr_left fun g _ => Store.windowed_unowned n _ st g
    case host =>
      rw [byserial, found]
      exact congrArg some (Store.windowed_host nodup (List.mem_of_find?_eq_some found) host)
    case renewed =>
      rw [byserial, found]
      refine congrArg some (if_pos ?_)
      rw [(Seg.inWindow_iff g _).2 window, (Seg.ownedBefore_iff g n).2 ⟨m, own, lower⟩]
      rfl
    case left =>
      rw [byserial] at found
      obtain ⟨h, there, rfl⟩ := Option.map_eq_some_iff.1 found
      rw [short]
      refine decide_eq_true (Store.windowed_left nodup (List.mem_of_find?_eq_some there) ?_ free)
      rw [← Store.windowed_inWindow n _ st h]
      exact (Seg.inWindow_iff _ _).2 window
    case later =>
      exact Prod.ext_iff.1 ((Store.protectWindow_until n t st).trans (if_pos ((Store.outlasted_iff ..).2 moves)))
    case earlier =>
      exact Prod.ext_iff.1 ((Store.protectWindow_until n t st).trans (if_neg (mt (Store.outlasted_iff ..).1 stays)))

end Sys2Proof.Machine
end

section
/-! SUPPORT. The charger's steps said once: entry to a state, the safety timers' test, the begin and the resumption of charging, the pause
conditions in their order (R162 to R165, R173). -/

namespace Sys2Proof.Machine

/-! ## Entry to a state (R163, R167) -/

theorem ChState.charging_iff (st : ChState) : st.charging = true ↔ st = .precharge ∨ st = .fast ∨ st = .taper := by
  cases st <;> simp [ChState.charging]

theorem Charger.phase_charging (c : Charger) : c.phase.charging = true := by
  unfold Charger.phase
  split
  · rfl
  · split <;> rfl

section
variable {c : Charger} {st : ChState}

theorem Charger.enter_charging (charging : st.charging = true) (stays : c.state = .taper → st = .taper) :
    c.enter st = { c with state := st } := by
  unfold Charger.enter
  rw [if_pos charging, if_neg fun ⟨left, other⟩ => other (stays left)]

theorem Charger.enter_idle (idle : st.charging = false) :
    c.enter st = { c with state := st, driven := 0, term := if c.state = .taper then 0 else c.term } := by
  have other : st ≠ .taper := fun e => nomatch (e ▸ idle : ChState.taper.charging = false)
  simp [Charger.enter, idle, other]

theorem Charger.enter_idle_outside (idle : st.charging = false) (outside : c.state ≠ .taper) :
    c.enter st = { c with state := st, driven := 0 } := by
  rw [Charger.enter_idle idle, if_neg outside]

end

/-! ## The safety timers (R173) -/

section
variable {w : Work}

theorem Work.timerCheck_precharge (state : w.c.state = .precharge) :
    w.timerCheck = if 1800000000 ≤ w.c.prechargeUs then w.fault .timer 0 else w := by
  unfold Work.timerCheck
  rw [state]
  rfl

theorem Work.timerCheck_fast (state : w.c.state = .fast ∨ w.c.state = .taper) :
    w.timerCheck = if w.c.profile.fastLimit * 1000000 ≤ w.c.fastUs then w.fault .timer 1 else w := by
  unfold Work.timerCheck
  rcases state with state | state <;> (rw [state]; rfl)

theorem Work.timerCheck_idle (idle : w.c.state.charging = false) : w.timerCheck = w := by
  unfold Work.timerCheck
  cases state : w.c.state with
  | precharge | fast | taper => simp [state, ChState.charging] at idle
  | _ => rfl

/-- Timers that have just been set to 0 are below their limits. -/
theorem Work.timerCheck_zeroed (precharge : w.c.prechargeUs = 0) (fast : w.c.fastUs = 0) (limit : w.c.profile.fastLimit ≠ 0) :
    w.timerCheck = w := by
  cases charging : w.c.state.charging with
  | false => exact Work.timerCheck_idle charging
  | true =>
    rcases (ChState.charging_iff _).mp charging with state | state
    · rw [Work.timerCheck_precharge state, if_neg (by omega)]
    · rw [Work.timerCheck_fast state, if_neg (by omega)]

theorem Work.timerCheck_cases (w : Work) : w.timerCheck = w ∨ ∃ n, w.timerCheck = w.fault .timer n := by
  unfold Work.timerCheck
  split
  · split
    · exact .inr ⟨_, rfl⟩
    · exact .inl rfl
  · split
    · exact .inr ⟨_, rfl⟩
    · exact .inl rfl
  · split
    · exact .inr ⟨_, rfl⟩
    · exact .inl rfl
  · exact .inl rfl

end

/-! ## The pause conditions (R164) -/

section
variable {c : Charger}

theorem Charger.pauseCondition_path {path : PathMode} (host : c.hostPause = false) (other : path ≠ .normal) :
    c.pauseCondition path = some .path := by
  simp [Charger.pauseCondition, host, other]

theorem Charger.pauseCondition_normal (host : c.hostPause = false) : c.pauseCondition .normal =
    if c.dieCap = true then some .dieHot else if c.band = .hot then some .hot else if c.band = .cold then some .cold
    else if c.hold = true then some .budget else none := by
  simp [Charger.pauseCondition, host]

end

/-! ## The begin of charging and the pause tests (R161 to R164) -/

section
variable {w : Work} {path : PathMode} {r : PauseReason}

theorem Work.begin_pauses (cond : w.c.pauseCondition path = some r) (told : Bool) :
    w.begin path told = if told then (w.on fun c => c.enter (.paused r)).emit 0x0503 r.code else w.on fun c => c.enter (.paused r) := by
  unfold Work.begin
  rw [cond]

theorem Work.begin_charges (outside : w.c.state ≠ .taper) (free : w.c.pauseCondition path = none) (told : Bool) :
    w.begin path told = (if told then (w.on fun c => { c with state := w.c.phase }).emit 0x0504 w.c.phase.code
      else w.on fun c => { c with state := w.c.phase }).timerCheck := by
  have entered : w.c.enter w.c.phase = { w.c with state := w.c.phase } :=
    Charger.enter_charging w.c.phase_charging fun e => absurd e outside
  unfold Work.begin
  simp only [free, Work.on, entered]

theorem Work.pauseTests_continues (charging : w.c.state.charging = true) (free : w.c.pauseCondition path = none) :
    w.pauseTests path = w := by
  unfold Work.pauseTests
  cases state : w.c.state with
  | precharge | fast | taper => simp only [free]
  | _ => simp [state, ChState.charging] at charging

theorem Work.pauseTests_resumes (paused : w.c.state = .paused r) (free : w.c.pauseCondition path = none) :
    w.pauseTests path = w.begin path true := by
  unfold Work.pauseTests
  simp only [paused, free]

/-- What the pause tests can do: nothing, a pause, or out of PAUSED the begin of charging. -/
theorem Work.pauseTests_cases (w : Work) (path : PathMode) :
    w.pauseTests path = w ∨ (∃ r, w.pauseTests path = (w.on fun c => c.enter (.paused r)).emit 0x0503 r.code)
    ∨ (∃ r, w.c.state = .paused r) ∧ w.pauseTests path = w.begin path true := by
  cases charging : w.c.state.charging with
  | true =>
    cases cond : w.c.pauseCondition path with
    | some r => exact .inr (.inl ⟨r, Work.pauseTests_charging charging cond⟩)
    | none => exact .inl (Work.pauseTests_continues charging cond)
  | false =>
    by_cases paused : ∃ r, w.c.state = .paused r
    · obtain ⟨old, state⟩ := paused
      cases cond : w.c.pauseCondition path with
      | none => exact .inr (.inr ⟨⟨old, state⟩, Work.pauseTests_resumes state cond⟩)
      | some r =>
        by_cases same : r = old
        · exact .inl (Work.pauseTests_stays (same ▸ state) cond)
        · exact .inr (.inl ⟨r, Work.pauseTests_moves state same cond⟩)
    · exact .inl (Work.pauseTests_elsewhere charging fun r state => paused ⟨r, state⟩)

end

/-! ## The termination count (R163) -/

section
variable {w : Work}

theorem Work.termStep_untested (untested : ¬(w.c.state = .taper ∧ 2 * w.c.profile.iterm ≤ w.c.terms.computed)) :
    w.termStep = w := if_neg untested

theorem Work.termStep_above (state : w.c.state = .taper) (target : 2 * w.c.profile.iterm ≤ w.c.terms.computed)
    (above : (w.c.profile.iterm : Int) ≤ w.c.meas.ibat.toInt) : w.termStep = w.on fun c => { c with term := 0 } := by
  unfold Work.termStep
  simp [state, target, Int.not_lt.mpr above]

theorem Work.termStep_counts (state : w.c.state = .taper) (target : 2 * w.c.profile.iterm ≤ w.c.terms.computed)
    (below : w.c.meas.ibat.toInt < w.c.profile.iterm) (few : w.c.term < 9) :
    w.termStep = w.on fun c => { c with term := c.term + 1 } := by
  unfold Work.termStep
  simp [state, target, below, show ¬9 ≤ w.c.term by omega]
  rfl

theorem Work.termStep_ends (state : w.c.state = .taper) (target : 2 * w.c.profile.iterm ≤ w.c.terms.computed)
    (below : w.c.meas.ibat.toInt < w.c.profile.iterm) (tenth : 9 ≤ w.c.term) : w.termStep =
      (w.on fun c => { c.enter .full with prechargeUs := 0, fastUs := 0, term := 0 }).emit 0x0502 w.c.vbat := by
  unfold Work.termStep
  simp [state, target, below, tenth]

theorem Work.termStep_cases (w : Work) : w.termStep = w ∨ (∃ n, w.termStep = w.on fun c => { c with term := n })
    ∨ w.termStep = (w.on fun c => { c.enter .full with prechargeUs := 0, fastUs := 0, term := 0 }).emit 0x0502 w.c.vbat := by
  by_cases tested : w.c.state = .taper ∧ 2 * w.c.profile.iterm ≤ w.c.terms.computed
  · obtain ⟨state, target⟩ := tested
    by_cases below : w.c.meas.ibat.toInt < w.c.profile.iterm
    · by_cases few : w.c.term < 9
      · exact .inr (.inl ⟨_, Work.termStep_counts state target below few⟩)
      · exact .inr (.inr (Work.termStep_ends state target below (Nat.le_of_not_lt few)))
    · exact .inr (.inl ⟨_, Work.termStep_above state target (Int.not_lt.mp below)⟩)
  · exact .inl (Work.termStep_untested tested)

end

end Sys2Proof.Machine
end

section
/-! SUPPORT. The driven target of an evaluation: the terms it is computed from, kept from step 5 to step 8, and its bounds
(R167, R169, R170). -/

namespace Sys2Proof.Machine

/-! ## What the steps after the computation leave -/

/-- The terms of the newest evaluation stay, and everything they are computed from but the state. -/
structure TermsKept (c d : Charger) : Prop where
  terms : d.terms = c.terms
  meas : d.meas = c.meas
  profile : d.profile = c.profile
  iinLimit : d.iinLimit = c.iinLimit
  droop : d.droop = c.droop
  band : d.band = c.band
  dieCap : d.dieCap = c.dieCap

theorem TermsKept.trans {c d e : Charger} (a : TermsKept c d) (b : TermsKept d e) : TermsKept c e :=
  ⟨b.1.trans a.1, b.2.trans a.2, b.3.trans a.3, b.4.trans a.4, b.5.trans a.5, b.6.trans a.6, b.7.trans a.7⟩

theorem ChargerKept.termsKept {c d : Charger} (h : ChargerKept c d) (terms : d.terms = c.terms) : TermsKept c d :=
  ⟨terms, h.meas, h.profile, h.iinLimit, h.droop, h.band, h.dieCap⟩

theorem Charger.holdStep_eq (c : Charger) : c.holdStep = { c with hold := c.holdStep.hold } := by
  unfold Charger.holdStep
  dsimp only
  split
  · split <;> rfl
  · split <;> rfl

theorem Work.timerCheck_terms (w : Work) : w.timerCheck.c.terms = w.c.terms := by
  obtain same | ⟨n, faults⟩ := w.timerCheck_cases
  · rw [same]
  · rw [faults]
    rfl

theorem Work.begin_terms (w : Work) (path : PathMode) (told : Bool) : (w.begin path told).c.terms = w.c.terms := by
  unfold Work.begin
  split
  · cases told <;> rfl
  · refine (Work.timerCheck_terms _).trans ?_
    cases told <;> rfl

theorem Work.pauseTests_termsKept (w : Work) (path : PathMode) : TermsKept w.c (w.pauseTests path).c := by
  refine (w.kept_pauseTests path).termsKept ?_
  obtain same | ⟨r, pauses⟩ | ⟨-, begins⟩ := w.pauseTests_cases path
  · rw [same]
  · rw [pauses]
    rfl
  · rw [begins, Work.begin_terms]

theorem Work.termStep_termsKept (w : Work) : TermsKept w.c w.termStep.c := by
  obtain ⟨pre, fast, kept⟩ := w.kept_termStep
  refine ⟨?_, kept.meas, kept.profile, kept.iinLimit, kept.droop, kept.band, kept.dieCap⟩
  obtain same | ⟨n, counts⟩ | ends := w.termStep_cases
  · rw [same]
  · rw [counts]
    rfl
  · rw [ends]
    rfl

/-! ## What ends in PRECHARGE -/

/-- The phase by which the phase limit is found: the charging state, or else the phase that Vbat decides (R169). -/
def Charger.limitPhase (c : Charger) : ChState := if c.state.charging then c.state else c.phase

theorem Charger.phaseLimit_eq (c : Charger) :
    c.phaseLimit = if c.limitPhase = .precharge then c.profile.ichgMax / 10 else c.profile.ichgMax := rfl

theorem Charger.limitPhase_of_precharge {c : Charger} (h : c.state = .precharge) : c.limitPhase = .precharge := by
  simp [Charger.limitPhase, h, ChState.charging]

theorem Work.timerCheck_precharge_from {w : Work} (h : w.timerCheck.c.state = .precharge) : w.c.state = .precharge := by
  obtain same | ⟨n, faults⟩ := w.timerCheck_cases
  · rwa [same] at h
  · rw [faults] at h
    cases h

theorem Work.pauseTests_precharge_from {w : Work} {path : PathMode} (h : (w.pauseTests path).c.state = .precharge) :
    w.c.limitPhase = .precharge := by
  obtain same | ⟨r, pauses⟩ | ⟨⟨old, paused⟩, begins⟩ := w.pauseTests_cases path
  · exact Charger.limitPhase_of_precharge (same ▸ h)
  · rw [pauses] at h
    cases h
  · rw [begins] at h
    cases cond : w.c.pauseCondition path with
    | some r =>
      rw [Work.begin_pauses cond] at h
      cases h
    | none =>
      rw [Work.begin_charges (by simp [paused]) cond] at h
      have phase : w.c.phase = .precharge := Work.timerCheck_precharge_from h
      simp [Charger.limitPhase, paused, ChState.charging, phase]

theorem Work.termStep_precharge_from {w : Work} (h : w.termStep.c.state = .precharge) : w.c.state = .precharge := by
  obtain same | ⟨n, counts⟩ | ends := w.termStep_cases
  · rwa [same] at h
  · rwa [counts] at h
  · rw [ends] at h
    cases h

/-! ## The bounds of the computed target -/

/-- The loads of R168 and the droop trim together. -/
def Charger.loads (c : Charger) (a : Around) : Nat :=
  c.profile.base a.power + c.profile.classLoad a.loadClass + (if a.cardBusy then c.profile.lcard else 0) + c.droop

/-- The computed target stands in the bounds of R169 and R170. -/
structure Charger.TargetFits (c : Charger) (a : Around) : Prop where
  budget : c.terms.budget = budgetOf (c.iinLimit - c.loads a) c.meas.vin.toNat c.vbat
  byBudget : c.terms.computed ≤ c.terms.budget
  byLimit : c.terms.computed ≤ c.profile.ichgMax
  byPhase : c.state = .precharge → c.terms.computed ≤ c.profile.ichgMax / 10
  byCap : c.terms.computed ≤ c.cap
  stepped : c.terms.computed % 25 = 0

theorem toStep_le (x : Nat) : toStep x ≤ x := Nat.div_mul_le_self x 25

theorem Charger.phaseLimit_le (c : Charger) : c.phaseLimit ≤ c.profile.ichgMax := by
  rw [c.phaseLimit_eq]
  split
  · exact Nat.div_le_self ..
  · exact Nat.le_refl _

theorem Charger.compute_budget (c : Charger) (a : Around) :
    (c.compute a).terms.budget = budgetOf (c.iinLimit - c.loads a) c.meas.vin.toNat c.vbat := by
  simp only [Charger.loads, ← Nat.sub_sub]
  rfl

/-- Step 5 brings the bounds, and what leaves the terms keeps them where it does not itself enter PRECHARGE. -/
theorem Charger.TargetFits.of_compute {c d : Charger} {a : Around} (kept : TermsKept (c.compute a) d)
    (entered : d.state = .precharge → c.limitPhase = .precharge) : d.TargetFits a := by
  have least : d.terms.computed ≤ min d.terms.budget (min c.phaseLimit c.cap) := by
    rw [kept.terms]
    exact toStep_le _
  obtain ⟨byBudget, byPhase, byCap⟩ : d.terms.computed ≤ d.terms.budget ∧ d.terms.computed ≤ c.phaseLimit
      ∧ d.terms.computed ≤ c.cap := by omega
  have profile : d.profile = c.profile := kept.profile
  refine ⟨?_, byBudget, profile ▸ byPhase.trans c.phaseLimit_le, fun precharge => ?_, ?_, ?_⟩
  · rw [kept.terms, Charger.compute_budget]
    simp only [Charger.loads, Charger.vbat, kept.iinLimit, kept.profile, kept.droop, kept.meas]
    rfl
  · rwa [c.phaseLimit_eq, if_pos (entered precharge), ← profile] at byPhase
  · have cap : d.cap = c.cap := by
      simp only [Charger.cap, kept.dieCap, kept.band, kept.profile]
      rfl
    rwa [cap]
  · rw [kept.terms]
    exact Nat.mul_mod_left ..

theorem Charger.compute_holdStep_termsKept (c : Charger) (a : Around) : TermsKept (c.compute a) (c.compute a).holdStep := by
  rw [Charger.holdStep_eq]
  exact ⟨rfl, rfl, rfl, rfl, rfl, rfl, rfl⟩

theorem Charger.compute_holdStep_limitPhase (c : Charger) (a : Around) : (c.compute a).holdStep.limitPhase = c.limitPhase := by
  rw [Charger.holdStep_eq]
  rfl

/-- Steps 5 and 6 and the pause tests. -/
theorem Work.judged_fits (w : Work) (a : Around) : TermsKept (w.c.compute a)
      ((w.on fun c => (c.compute a).holdStep).pauseTests a.path).c
    ∧ (((w.on fun c => (c.compute a).holdStep).pauseTests a.path).c.state = .precharge → w.c.limitPhase = .precharge) :=
  ⟨(w.c.compute_holdStep_termsKept a).trans (Work.pauseTests_termsKept (w.on fun c => (c.compute a).holdStep) a.path),
   fun h => (w.c.compute_holdStep_limitPhase a).symm.trans (Work.pauseTests_precharge_from h)⟩

/-! ## Both evaluations -/

/-- A prompt evaluation ends with step 8 upon a target that fits. -/
theorem Work.prompt_fits (w : Work) (a : Around) : ∃ e : Charger, (w.prompt a).c = e.drive ∧ e.TargetFits a := by
  obtain ⟨kept, precharge⟩ := w.judged_fits a
  exact ⟨_, rfl, .of_compute kept precharge⟩

/-- So does a periodic evaluation, whose step 7 can only leave TAPER. -/
theorem Work.periodic_fits (w : Work) (a : Around) : ∃ e : Charger, (w.periodic a).c = e.drive ∧ e.TargetFits a := by
  obtain ⟨kept, precharge⟩ := Work.judged_fits ((w.faultTests.on fun c =>
    ({ c with band := moveBand c.band c.meas.temp.toInt, dieCap := moveDieCap c.dieCap c.meas.die.toInt }
      : Charger).droopStep).phaseStep a.path) a
  exact ⟨_, rfl, .of_compute (kept.trans (Work.termStep_termsKept _)) fun h => precharge (Work.termStep_precharge_from h)⟩

section
variable {e : Charger} {a : Around}

theorem Charger.drive_driven (e : Charger) : e.drive.driven =
    if e.state = .precharge ∨ e.state = .fast ∨ e.state = .taper then e.terms.computed else 0 := by
  simp only [Charger.drive, ChState.charging_iff]

theorem Charger.drive_le_computed (e : Charger) : e.drive.driven ≤ e.terms.computed := by
  rw [e.drive_driven]
  split
  · exact Nat.le_refl _
  · exact Nat.zero_le _

theorem Charger.TargetFits.driven_step (fits : e.TargetFits a) : e.drive.driven % 25 = 0 := by
  rw [e.drive_driven]
  split
  · exact fits.stepped
  · rfl

/-- The budget of R169 as an exact inequality, without its division. -/
theorem Charger.TargetFits.driven_power (fits : e.TargetFits a) :
    e.drive.driven * (16 * max 2000 e.vbat) ≤ (e.iinLimit - e.loads a) * e.meas.vin.toNat * 15 := by
  have byBudget : e.drive.driven ≤ budgetOf (e.iinLimit - e.loads a) e.meas.vin.toNat e.vbat :=
    fits.budget ▸ e.drive_le_computed.trans fits.byBudget
  exact (Nat.le_div_iff_mul_le (by omega)).mp byBudget

theorem Charger.cap_half (c : Charger) (h : c.band = .cool ∨ c.band = .warm) : c.cap ≤ c.profile.ichgMax / 2 := by
  unfold Charger.cap
  split
  · exact Nat.zero_le _
  · rcases h with h | h <;> rw [h]

theorem Charger.cap_zero (c : Charger) (h : c.band = .cold ∨ c.band = .hot ∨ c.dieCap = true) : c.cap = 0 := by
  unfold Charger.cap
  split
  · rfl
  · rename_i cool
    rcases h with h | h | h
    · rw [h]
    · rw [h]
    · exact absurd h cool

end

/-- Settles O50: the target computed in step 5 fits its bounds, the steps after it keep them, and step 8 drives it or 0. -/
theorem drivenTargetIsBounded : Obligations.DrivenTargetIsBounded := by
  unfold Obligations.DrivenTargetIsBounded
  intro w a d evaluated loads vbat
  obtain ⟨meas, profile, limit⟩ : d.meas = w.c.meas ∧ d.profile = w.c.profile ∧ d.iinLimit = w.c.iinLimit := by
    rcases evaluated with rfl | rfl
    · exact ⟨(w.kept_prompt a).meas, (w.kept_prompt a).profile, (w.kept_prompt a).iinLimit⟩
    · obtain ⟨_, _, kept⟩ := w.kept_periodic a
      exact ⟨kept.meas, kept.profile, kept.iinLimit⟩
  obtain ⟨e, driven, fits⟩ : ∃ e : Charger, d = e.drive ∧ e.TargetFits a := by
    rcases evaluated with rfl | rfl
    · exact w.prompt_fits a
    · exact w.periodic_fits a
  subst driven
  have computed := e.drive_le_computed
  exact ⟨meas, profile, limit, fits.budget, e.drive_driven, fits.driven_power, fits.driven_step, computed.trans fits.byLimit,
    fun precharge => computed.trans (fits.byPhase precharge), fun half => (computed.trans fits.byCap).trans (e.cap_half half),
    fun zero => Nat.le_zero.mp (e.cap_zero zero ▸ computed.trans fits.byCap)⟩

end Sys2Proof.Machine
end

section
/-! SUPPORT. The charger's work in the machine, the fault tests, the phase step, the terms of an evaluation and the budget hold
(R162, R163, R165, R168 to R171). -/

namespace Sys2Proof.Machine

/-! ## The work in the machine (R164, R168) -/

theorem ChState.shows_iff (st old : ChState) :
    st.shows old = true ↔ st.code ≠ old.code ∨ st.reasonCode ≠ old.reasonCode := by
  simp [ChState.shows]

theorem State.runCharger_eq (emit : Emit) (f : Work → Work) (s : State) : s.runCharger emit f =
    (f s.charger.work).events.foldl (fun t e => t.raise emit e.1 e.2) { s with
      charger := (f s.charger.work).c
      xchg := if (f s.charger.work).c.state.shows s.charger.state then { s.xchg with refreshAsked := true } else s.xchg
      store := (f s.charger.work).reports.foldl (fun st r => st.offer s.time .charger r) s.store } := by
  unfold State.runCharger
  dsimp only
  split <;> rfl

theorem State.around_eq (s : State) : s.around =
    { power := s.supply.power, loadClass := s.supply.loadClass, path := s.supply.mode
      cardBusy := decide (s.card.state = .writing ∨ s.card.state = .busy) } := by
  have busy : (s.card.state == .writing || s.card.state == .busy) = decide (s.card.state = .writing ∨ s.card.state = .busy) := by
    simp [Bool.decide_or, beq_eq_decide]
  simp only [State.around, busy]

/-! ## The fault tests (R165) -/

section
variable {w : Work}

theorem Work.faultTests_exempt (exempt : w.c.state.attached = false ∨ w.c.state.faulted = true) : w.faultTests = w := by
  unfold Work.faultTests
  rw [if_pos (by simpa using exempt)]

theorem Work.faultTests_tested (attached : w.c.state.attached = true) (unfaulted : w.c.state.faulted = false) : w.faultTests =
    if w.c.meas.temp.toInt < -400 then w.fault .thermistor 0
    else if w.c.profile.vreg + 100 < w.c.vbat then w.fault .overvolt 0
    else w := by
  unfold Work.faultTests
  rw [if_neg (by simp [attached, unfaulted])]

end

/-! ## The phase step (R162, R163) -/

section
variable {w : Work} (path : PathMode)

theorem Work.phaseStep_precharge (state : w.c.state = .precharge) : w.phaseStep path =
    if 3000 ≤ w.c.vbat then (w.on fun c => { c with state := .fast }).timerCheck else w := by
  have entered : w.c.enter .fast = { w.c with state := .fast } :=
    Charger.enter_charging rfl fun e => nomatch state.symm.trans e
  unfold Work.phaseStep
  simp only [state, Work.on, entered]

theorem Work.phaseStep_fast (state : w.c.state = .fast) : w.phaseStep path =
    if w.c.veff - 20 ≤ w.c.vbat then (w.on fun c => { c with state := .taper }).timerCheck else w := by
  have entered : w.c.enter .taper = { w.c with state := .taper } := Charger.enter_charging rfl fun _ => rfl
  unfold Work.phaseStep
  simp only [state, Work.on, entered]

theorem Work.phaseStep_full (state : w.c.state = .full) : w.phaseStep path =
    if w.c.vbat < w.c.veff - 100 then w.begin path true else w := by
  unfold Work.phaseStep
  rw [state]

theorem Work.phaseStep_recharges (state : w.c.state = .full) (low : w.c.vbat < w.c.veff - 100) :
    w.phaseStep path = w.begin path true := (Work.phaseStep_full path state).trans (if_pos low)

theorem Work.phaseStep_staysFull (state : w.c.state = .full) (high : w.c.veff - 100 ≤ w.c.vbat) : w.phaseStep path = w :=
  (Work.phaseStep_full path state).trans (if_neg (Nat.not_lt.mpr high))

theorem Work.phaseStep_elsewhere (precharge : w.c.state ≠ .precharge) (fast : w.c.state ≠ .fast) (full : w.c.state ≠ .full) :
    w.phaseStep path = w := by
  unfold Work.phaseStep
  cases state : w.c.state with
  | precharge => exact absurd state precharge
  | fast => exact absurd state fast
  | full => exact absurd state full
  | _ => rfl

end

/-! ## The terms (R168, R169) -/

theorem Profile.classLoad_listed (p : Profile) {cls : Nat} (h : cls ≤ 3) :
    [p.classes.a0, p.classes.a1, p.classes.a2, p.classes.a3][cls]? = some (p.classLoad cls) := by
  match cls, h with
  | 0, _ | 1, _ | 2, _ | 3, _ => rfl

theorem Charger.compute_available (c : Charger) (a : Around) : (c.compute a).terms.available =
    c.iinLimit - (c.profile.base a.power + c.profile.classLoad a.loadClass + (if a.cardBusy then c.profile.lcard else 0)
      + c.droop) := by
  simp only [← Nat.sub_sub]
  rfl

/-! ## The budget hold (R171) -/

section
variable {c : Charger}

theorem Charger.holdStep_held (held : c.hold = true) : c.holdStep =
    { c with hold := !decide (c.phase = .taper ∨ min 150 (toStep c.terms.phaseLimit) ≤ c.terms.computed) } := by
  unfold Charger.holdStep
  dsimp only
  rw [if_pos held]
  split
  next taper => simp [taper]
  next other => simp [other]

theorem Charger.holdStep_free (free : c.hold = false) : c.holdStep =
    if (c.state = .precharge ∨ c.state = .fast) ∧ c.terms.computed < min 100 (toStep c.terms.phaseLimit) then
      { c with hold := true }
    else c := by
  unfold Charger.holdStep
  dsimp only
  rw [if_neg (by simp [free])]

theorem Charger.holdStep_clears (held : c.hold = true)
    (clear : c.phase = .taper ∨ min 150 (toStep c.terms.phaseLimit) ≤ c.terms.computed) : c.holdStep = { c with hold := false } := by
  rw [Charger.holdStep_held held, decide_eq_true clear]
  rfl

theorem Charger.holdStep_holds (held : c.hold = true) (phase : c.phase ≠ .taper)
    (low : c.terms.computed < min 150 (toStep c.terms.phaseLimit)) : c.holdStep = c := by
  rw [Charger.holdStep_held held, decide_eq_false (not_or.mpr ⟨phase, Nat.not_le.mpr low⟩), Bool.not_false, ← held]

theorem Charger.holdStep_enters (free : c.hold = false) (state : c.state = .precharge ∨ c.state = .fast)
    (low : c.terms.computed < min 100 (toStep c.terms.phaseLimit)) : c.holdStep = { c with hold := true } := by
  rw [Charger.holdStep_free free, if_pos ⟨state, low⟩]

theorem Charger.holdStep_stays (free : c.hold = false) (stays : (c.state ≠ .precharge ∧ c.state ≠ .fast)
    ∨ min 100 (toStep c.terms.phaseLimit) ≤ c.terms.computed) : c.holdStep = c := by
  rw [Charger.holdStep_free free, if_neg]
  rintro ⟨state, low⟩
  rcases stays with other | enough
  · exact (not_or.mpr other) state
  · exact Nat.not_le.mpr low enough

end

/-! ## The statement -/

/-- The charger stopped in a state that drives nothing (R167), the termination count lost where it leaves TAPER (R163). -/
theorem Work.on_enter_idle {w : Work} {st : ChState} (idle : st.charging = false) : (w.on fun c => c.enter st) =
    w.on fun c => { c with state := st, driven := 0, term := if c.state = .taper then 0 else c.term } := by
  simp only [Work.on, Charger.enter_idle idle]

/-- Settles O51: the work in the machine, then each test and step of the charger by the state it acts in. -/
theorem chargerFaultsPausesAndTerminates : Obligations.ChargerFaultsPausesAndTerminates := by
  unfold Obligations.ChargerFaultsPausesAndTerminates
  refine ⟨fun s f => ?work, fun s => ⟨s.around_eq, rfl⟩, fun w path a => ?_⟩
  case work =>
    intro u reason shows
    have reasons (st : ChState) : reason st = st.reasonCode := by cases st <;> rfl
    have shown : (u.c.state.shows s.charger.state = true) = shows := by
      simp only [ChState.shows_iff, shows, reasons]
    refine (State.runCharger_eq emit f s).trans ?_
    simp only [← shown]
    rfl
  intro c vbat veff phase told stops faults
  have paused (r : PauseReason) : ((w.on fun c => c.enter (.paused r)).emit 0x0503 r.code) = told (stops (.paused r)) 0x0503 r.code :=
    congrArg (Work.emit · 0x0503 r.code) (Work.on_enter_idle rfl)
  have resumed (outside : c.state ≠ .taper) (free : c.pauseCondition path = none) : w.begin path true =
      (told { w with c := { c with state := phase } } 0x0504 phase.code).timerCheck := Work.begin_charges outside free true
  refine ⟨⟨fun attached unfaulted => ?tests, Work.faultTests_exempt, fun state => ?prechargeTimer, fun state => ?fastTimer⟩,
    fun host => Charger.pauseCondition_host host path, Charger.pauseCondition_path, fun host normal => ?conditions,
    fun charging => ⟨fun r cond => (Work.pauseTests_charging charging cond).trans (paused r), Work.pauseTests_continues charging⟩,
    fun old state => ⟨fun r cond other => (Work.pauseTests_moves state other cond).trans (paused r),
      Work.pauseTests_stays state, fun free => (Work.pauseTests_resumes state free).trans (resumed (by simp [state]) free)⟩,
    Work.pauseTests_elsewhere, Work.phaseStep_precharge path, Work.phaseStep_fast path, fun state => ?recharge,
    Work.phaseStep_elsewhere path, fun state target => ⟨Work.termStep_above state target, Work.termStep_counts state target,
      Work.termStep_ends state target⟩, fun untested => Work.termStep_untested ?untested, ?budget, rfl, rfl⟩
  case tests =>
    rw [Work.faultTests_tested attached unfaulted]
    exact ⟨fun cold => if_pos cold, fun warm high => (if_neg (Int.not_lt.mpr warm)).trans (if_pos high),
      fun warm within => (if_neg (Int.not_lt.mpr warm)).trans (if_neg (Nat.not_lt.mpr within))⟩
  case prechargeTimer =>
    rw [Work.timerCheck_precharge state]
    exact ⟨fun due => if_pos due, fun early => if_neg (Nat.not_le.mpr early)⟩
  case fastTimer =>
    rw [Work.timerCheck_fast state]
    exact ⟨fun due => if_pos due, fun early => if_neg (Nat.not_le.mpr early)⟩
  case conditions =>
    rw [normal, Charger.pauseCondition_normal host]
    exact ⟨fun die => if_pos die, fun die hot => (if_neg (by simp [die])).trans (if_pos hot),
      fun die cold => by simp [die, cold], fun die hot cold => by simp [die, hot, cold]⟩
  case recharge =>
    exact ⟨Work.phaseStep_staysFull path state, fun low =>
      ⟨fun r cond => (Work.phaseStep_recharges path state low).trans ((Work.begin_pauses cond true).trans (paused r)),
       fun free => (Work.phaseStep_recharges path state low).trans (resumed (by simp [state]) free)⟩⟩
  case untested =>
    rintro ⟨state, target⟩
    exact untested.elim (· state) (Nat.not_lt.mpr target)
  case budget =>
    intro d l
    exact ⟨rfl, c.profile.classLoad_listed, rfl, c.compute_available a, rfl, rfl, rfl, rfl, rfl,
      Charger.holdStep_enters (c := d), Charger.holdStep_stays (c := d),
      fun held taper => Charger.holdStep_clears (c := d) held (.inl taper),
      fun held _ enough => Charger.holdStep_clears (c := d) held (.inr enough), Charger.holdStep_holds (c := d)⟩

end Sys2Proof.Machine
end

section
/-! SUPPORT. The charger's settings: CHARGE_SETUP with its fault clear, INPUT_LIMIT, LOAD_CLASS (R166, R174 to R176). -/

namespace Sys2Proof.Machine

/-! ## CHARGE_SETUP on the charger (R166, R174) -/

/-- The charger with a clamped profile taken (R174). -/
def Charger.withProfile (c : Charger) (p : Profile) : Charger := { c with profile := p.clamped }

/-- The charger as a fault clear leaves it before the phase is found: both timers 0, the hold clear (R166). -/
def Charger.unfaulted (c : Charger) : Charger := { c with prechargeUs := 0, fastUs := 0, hold := false }

theorem Profile.clamped_fastLimit_pos (p : Profile) : p.clamped.fastLimit ≠ 0 := by
  have low : 1800 ≤ p.clamped.fastLimit := Nat.le_max_left ..
  omega

section
variable {w : Work} {path : PathMode}

theorem Work.clearFault_pauses {r : PauseReason} (outside : w.c.state ≠ .taper) (cond : w.c.unfaulted.pauseCondition path = some r) :
    w.clearFault path = (w.on fun c => { c.unfaulted with state := .paused r, driven := 0 }).emit 0x0503 r.code := by
  have entered : w.c.unfaulted.enter (.paused r) = { w.c.unfaulted with state := .paused r, driven := 0 } :=
    Charger.enter_idle_outside rfl outside
  refine (Work.begin_pauses (w := w.on Charger.unfaulted) cond true).trans ?_
  simp only [Work.on, entered, if_true]

theorem Work.clearFault_charges (outside : w.c.state ≠ .taper) (limit : w.c.profile.fastLimit ≠ 0)
    (free : w.c.unfaulted.pauseCondition path = none) : w.clearFault path =
      (w.on fun c => { c.unfaulted with state := c.phase }).emit 0x0504 w.c.phase.code :=
  (Work.begin_charges (w := w.on Charger.unfaulted) outside free true).trans (Work.timerCheck_zeroed rfl rfl limit)

theorem Work.setup_unclear {clear : Bool} (p : Profile) (a : Around) (h : clear = false ∨ w.c.state.faulted = false) :
    w.setup p clear a = ((w.on fun c => c.withProfile p).timerCheck).prompt a := by
  have kept : (clear && w.c.state.faulted) = false := by
    rcases h with h | h <;> simp [h]
  exact congrArg (Work.prompt · a) (if_neg (by simp [Work.on, kept]))

theorem Work.setup_clear (p : Profile) (a : Around) (faulted : w.c.state.faulted = true) :
    w.setup p true a = ((w.on fun c => c.withProfile p).clearFault a.path).prompt a :=
  congrArg (Work.prompt · a) (if_pos faulted)

end

/-! ## The commands -/

/-- Part time that passes leaves what does not read the safety timers (R173). -/
theorem Charger.pass_leaves {α : Type} (c : Charger) (us : Nat) (f : Charger → α)
    (blind : ∀ pre fast, f { c with prechargeUs := pre, fastUs := fast } = f c := by intros; rfl) : f (c.pass us) = f c := by
  obtain ⟨pre, fast, passed⟩ := c.pass_timers us
  rw [passed, blind]

section
variable (a : Ambient) {s : State} (hs : s.supply.held = false)
include hs

theorem exec_chargeSetup {p : Profile} {clear : Bool} (body : s.frameBody .control = some (.chargeSetup p clear)) :
    exec (.chargeSetup a) s = .next ((((s.arrive a).runCharger emit fun w => w.setup p clear (s.arrive a).around).finish .control
      .done (if clear = true ∧ s.charger.state.faulted = true then .cleared else .ok) 0).rest) := by
  refine (perform_free hs : execChargeSetup a s = _).trans (congrArg Host.Outcome.next ?_)
  have arrived : (s.arrive a).frameBody .control = some (.chargeSetup p clear) := body
  have state : (s.arrive a).charger.state = s.charger.state := s.charger.pass_leaves a.elapsed Charger.state
  simp only [arrived, state, Bool.and_eq_true]

theorem exec_inputLimit {ma : Nat} (body : s.frameBody .control = some (.inputLimit ma)) : exec (.inputLimit a) s = .next
    ((((s.arrive a).runCharger emit fun w => w.limit ma (s.arrive a).around).finish .control .done .ok (clampTo 100 3000 ma)).rest) := by
  refine (perform_free hs : execInputLimit a s = _).trans (congrArg Host.Outcome.next ?_)
  have arrived : (s.arrive a).frameBody .control = some (.inputLimit ma) := body
  simp only [arrived]

theorem exec_loadClass_same {c : Nat} (body : s.frameBody .control = some (.loadClass c)) (same : min c 3 = s.supply.loadClass) :
    exec (.loadClass a) s = .next ((s.arrive a).finish .control .done .ok 0) := by
  refine (perform_free hs : execLoadClass a s = _).trans (congrArg Host.Outcome.next ?_)
  have arrived : (s.arrive a).frameBody .control = some (.loadClass c) := body
  simp only [arrived]
  exact if_pos same

theorem exec_loadClass_other {c : Nat} (body : s.frameBody .control = some (.loadClass c)) (other : min c 3 ≠ s.supply.loadClass) :
    exec (.loadClass a) s = .next (((State.prompt emit { s.arrive a with supply := { s.supply with loadClass := min c 3 } }).finish
      .control .done .ok 0).rest) := by
  refine (perform_free hs : execLoadClass a s = _).trans (congrArg Host.Outcome.next ?_)
  have arrived : (s.arrive a).frameBody .control = some (.loadClass c) := body
  simp only [arrived]
  exact if_neg other

end

/-- Work on the charger whose frame is then finished: what it keeps of a charger, the command's end keeps. -/
theorem State.runCharger_finished {s : State} {c : Charger} {f : Work → Work} (kept : ChargerKept c (f s.charger.work).c)
    (st : Status) (r : Result) (v : Nat) :
    Kept { s with charger := c } ((s.runCharger emit f).finish .control st r v).rest :=
  .rest (.finish (s.runCharger_from keeps_emit c kept) _ _ _ _)

/-- Settles O47: the settings on the charger, then each command as its work on the charger and what that keeps. -/
theorem chargerFramesAreTaken : Obligations.ChargerFramesAreTaken := by
  unfold Obligations.ChargerFramesAreTaken
  refine ⟨fun w p clear a => ⟨Work.setup_unclear p a, fun asked faulted => ?clears⟩, fun w ma a => rfl, fun a s hs => ?_⟩
  case clears =>
    intro c vbat veff phase
    subst asked
    have outside : w.c.state ≠ .taper := fun e => nomatch (e ▸ faulted : ChState.taper.faulted = true)
    exact ⟨fun r cond => (Work.setup_clear p a faulted).trans
        (congrArg (Work.prompt · a) (Work.clearFault_pauses (w := w.on fun c => c.withProfile p) outside cond)),
      fun free => (Work.setup_clear p a faulted).trans (congrArg (Work.prompt · a)
        (Work.clearFault_charges (w := w.on fun c => c.withProfile p) outside p.clamped_fastLimit_pos free))⟩
  intro u clamp
  let c := s.charger
  let us := a.elapsed
  refine ⟨fun p clear body => ?setup, fun ma body => ?limit, fun cls body =>
    ⟨exec_loadClass_same a hs body, fun other => ?loadClass⟩⟩
  case setup =>
    obtain ⟨_, _, own⟩ := u.charger.work.kept_setup p clear u.around
    have kept := (State.runCharger_finished (s := u) (f := fun w => w.setup p clear u.around) own .done
      (if clear = true ∧ s.charger.state.faulted = true then .cleared else .ok) 0).charger
    exact ⟨_, exec_chargeSetup a hs body, rfl, kept.profile, kept.iinLimit.trans (c.pass_leaves us Charger.iinLimit),
      kept.droop.trans (c.pass_leaves us Charger.droop), kept.meas.trans (c.pass_leaves us Charger.meas),
      kept.band.trans (c.pass_leaves us Charger.band), kept.dieCap.trans (c.pass_leaves us Charger.dieCap)⟩
  case limit =>
    have kept := (State.runCharger_finished (s := u) (f := fun w => w.limit ma u.around)
      (Work.kept_prompt _ _) .done .ok (clamp 100 3000 ma)).charger
    exact ⟨_, exec_inputLimit a hs body, rfl, kept.iinLimit, kept.limitGiven,
      kept.droop.trans (c.pass_leaves us fun d => min d.droop (clamp 100 3000 ma)),
      kept.profile.trans (c.pass_leaves us Charger.profile), kept.meas.trans (c.pass_leaves us Charger.meas)⟩
  case loadClass =>
    have kept : Kept { u with supply := { s.supply with loadClass := min cls 3 } }
        ((State.prompt emit { u with supply := { s.supply with loadClass := min cls 3 } }).finish .control .done .ok 0).rest :=
      .rest (.finish (.prompt keeps_emit (.refl _)) _ _ _ _)
    exact ⟨_, exec_loadClass_other a hs body other, rfl, kept.supply.loadClass, kept.supply.lowRun, kept.supply.highRun,
      kept.charger.profile.trans (c.pass_leaves us Charger.profile),
      kept.charger.iinLimit.trans (c.pass_leaves us Charger.iinLimit)⟩

end Sys2Proof.Machine
end

section
/-! SUPPORT. The thermal band at every temperature, the droop trim, the periodic evaluation as a command, and a safety timer at its limit
(R165, R167, R170, R172, R173). -/

namespace Sys2Proof.Machine

/-! ## The band with its hysteresis (R170) -/

section
variable {t : Int}

theorem bandAt_cold (below : t < 0) : bandAt t = .cold := if_pos below

theorem bandAt_cool (above : 0 ≤ t) (below : t < 100) : bandAt t = .cool := by
  unfold bandAt
  rw [if_neg (by omega), if_pos below]

theorem bandAt_normal (above : 100 ≤ t) (below : t < 450) : bandAt t = .normal := by
  unfold bandAt
  rw [if_neg (by omega), if_neg (by omega), if_pos below]

theorem bandAt_warm (above : 450 ≤ t) (below : t < 550) : bandAt t = .warm := by
  unfold bandAt
  rw [if_neg (by omega), if_neg (by omega), if_neg (by omega), if_pos below]

theorem bandAt_hot (above : 550 ≤ t) : bandAt t = .hot := by
  unfold bandAt
  rw [if_neg (by omega), if_neg (by omega), if_neg (by omega), if_neg (by omega)]

theorem moveBand_cold (b : ThermalBand) (below : t < 0) : moveBand b t = .cold := by
  unfold moveBand
  rw [bandAt_cold below]
  cases b <;> rfl

theorem moveBand_cool (b : ThermalBand) (above : 0 ≤ t) (below : t < 100) :
    moveBand b t = if b = .cold ∧ t < 20 then .cold else .cool := by
  unfold moveBand
  rw [bandAt_cool above below]
  cases b with
  | cold => by_cases h : t < 20 <;> simp [h, Int.not_le.mpr, Int.not_lt.mp]
  | _ => simp

theorem moveBand_normal (b : ThermalBand) (above : 100 ≤ t) (below : t < 450) : moveBand b t =
    if (b = .cold ∨ b = .cool) ∧ t < 120 then .cool else if (b = .hot ∨ b = .warm) ∧ 430 ≤ t then .warm else .normal := by
  have past : 20 ≤ t := by omega
  have short : t < 530 := by omega
  unfold moveBand
  rw [bandAt_normal above below]
  cases b with
  | cold | cool => by_cases h : t < 120 <;> simp [h, past, Int.not_le.mpr, Int.not_lt.mp]
  | hot | warm => by_cases h : t < 430 <;> simp [h, short, Int.not_le.mpr, Int.not_lt.mp]
  | normal => simp

theorem moveBand_warm (b : ThermalBand) (above : 450 ≤ t) (below : t < 550) :
    moveBand b t = if b = .hot ∧ 530 ≤ t then .hot else .warm := by
  unfold moveBand
  rw [bandAt_warm above below]
  cases b with
  | hot => by_cases h : t < 530 <;> simp [h, Int.not_le.mpr, Int.not_lt.mp]
  | _ => simp

theorem moveBand_hot (b : ThermalBand) (above : 550 ≤ t) : moveBand b t = .hot := by
  unfold moveBand
  rw [bandAt_hot above]
  cases b <;> rfl

end

/-! ## The droop trim (R172) -/

theorem Charger.droopStep_value (c : Charger) : c.droopStep.droop =
    if c.state.attached = true then
      (if c.meas.vin.toNat < 4400 then min c.iinLimit (c.droop + 50)
       else if 4600 ≤ c.meas.vin.toNat then c.droop - 25 else c.droop)
    else c.droop := by
  unfold Charger.droopStep
  cases c.state.attached with
  | false => rfl
  | true =>
    by_cases low : c.meas.vin.toNat < 4400
    · simp [Config.vinMin, low]
    · by_cases high : 4600 ≤ c.meas.vin.toNat
      · by_cases trimmed : 0 < c.droop
        · simp [Config.vinMin, low, high, trimmed]
        · simp [Config.vinMin, low, high, Nat.eq_zero_of_not_pos trimmed]
      · simp [Config.vinMin, low, high]

/-! ## PERIODIC_EVALUATION (R167) -/

section
variable (a : Ambient) {s : State} (hs : s.supply.held = false)
include hs

theorem exec_periodicEvaluation_early (early : timeReached (s.arrive a).time s.charger.nextEval = false) :
    exec (.periodicEvaluation a) s = .next (s.arrive a) := by
  have next : (s.arrive a).charger.nextEval = s.charger.nextEval := s.charger.pass_leaves a.elapsed Charger.nextEval
  refine (perform_free hs : execPeriodicEvaluation a s = _).trans (congrArg Host.Outcome.next (if_neg ?_))
  rw [next, early]
  exact Bool.false_ne_true

theorem exec_periodicEvaluation_due (due : timeReached (s.arrive a).time s.charger.nextEval = true) :
    exec (.periodicEvaluation a) s = .next (State.runCharger emit (fun w => w.periodic (s.arrive a).around) { s.arrive a with
      charger := { (s.arrive a).charger with nextEval := timeAfter s.charger.nextEval Config.evalPeriod } }).rest := by
  have next : (s.arrive a).charger.nextEval = s.charger.nextEval := s.charger.pass_leaves a.elapsed Charger.nextEval
  refine (perform_free hs : execPeriodicEvaluation a s = _).trans (congrArg Host.Outcome.next ?_)
  rw [next, if_pos due]
  simp only [State.onCharger, next]

end

theorem Charger.pass_droopStep (c : Charger) (us : Nat) : (c.pass us).droopStep.droop = c.droopStep.droop :=
  Charger.droopStep_droop (c.pass_leaves us fun d => d.state.attached) (c.pass_leaves us Charger.meas)
    (c.pass_leaves us Charger.droop) (c.pass_leaves us Charger.iinLimit)

/-! ## SAFETY_TIMER_LIMIT (R165, R173) -/

theorem ChState.fault_shows_charging {st : ChState} (charging : st.charging = true) (r : FaultReason) :
    (ChState.fault r).shows st = true := by
  cases st with
  | precharge | fast | taper => rfl
  | _ => cases charging

/-- The charger in FAULT for a timer (R165). -/
def Charger.timedOut (c : Charger) : Charger := { c with state := .fault .timer, driven := 0, hold := false, term := 0 }

theorem State.runCharger_timerFault (emit : Emit) {s : State} {n : Nat} (charging : s.charger.state.charging = true)
    (due : s.charger.work.timerCheck = s.charger.work.fault .timer n) : s.runCharger emit Work.timerCheck =
      State.raise emit 0x0507 0 { s with
        charger := s.charger.timedOut
        store := s.store.offer s.time .charger (s.charger.faultReport .timer n s.charger.state.code)
        xchg := { s.xchg with refreshAsked := true } } := by
  have shown : (s.charger.work.fault .timer n).c.state.shows s.charger.state = true := ChState.fault_shows_charging charging .timer
  rw [State.runCharger_eq, due, shown]
  rfl

/-- The counting timer is at its limit. -/
def Charger.TimerDue (c : Charger) : Prop :=
  (c.state = .precharge ∧ 1800000000 ≤ c.prechargeUs)
    ∨ ((c.state = .fast ∨ c.state = .taper) ∧ c.profile.fastLimit * 1000000 ≤ c.fastUs)

theorem Charger.TimerDue.faults {c : Charger} (due : c.TimerDue) : c.state.charging = true
    ∧ c.work.timerCheck = c.work.fault .timer (if c.state = .precharge then 0 else 1) := by
  obtain ⟨state, limit⟩ | ⟨state, limit⟩ := due
  · refine ⟨(ChState.charging_iff _).mpr (.inl state), ?_⟩
    rw [Work.timerCheck_precharge (w := c.work) state, if_pos state]
    exact if_pos limit
  · have other : c.state ≠ .precharge := by rcases state with state | state <;> simp [state]
    refine ⟨(ChState.charging_iff _).mpr (.inr state), ?_⟩
    rw [Work.timerCheck_fast (w := c.work) state, if_neg other]
    exact if_pos limit

theorem Charger.timerCheck_early {c : Charger} (early : ¬c.TimerDue) : c.work.timerCheck = c.work := by
  cases charging : c.state.charging with
  | false => exact Work.timerCheck_idle charging
  | true =>
    rcases (ChState.charging_iff _).mp charging with state | state
    · exact (Work.timerCheck_precharge state).trans (if_neg fun limit => early (.inl ⟨state, limit⟩))
    · exact (Work.timerCheck_fast state).trans (if_neg fun limit => early (.inr ⟨state, limit⟩))

theorem Charger.pass_faultReport (c : Charger) (us : Nat) (r : FaultReason) (timer left : Nat) :
    (c.pass us).faultReport r timer left = .chargerFault r.code timer left c.meas c.profile.vreg c.veff
      ((c.pass us).prechargeUs / 1000000) ((c.pass us).fastUs / 1000000) := by
  obtain ⟨_, _, passed⟩ := c.pass_timers us
  rw [passed]
  rfl

section
variable (a : Ambient) {s : State} (hs : s.supply.held = false)
include hs

theorem exec_safetyTimerLimit_early (early : ¬(s.arrive a).charger.TimerDue) :
    exec (.safetyTimerLimit a) s = .next (s.arrive a).rest := by
  refine (perform_free hs : execSafetyTimerLimit a s = _).trans (congrArg (fun t => Host.Outcome.next (State.rest t)) ?_)
  exact State.runCharger_untold emit (Charger.timerCheck_early early) (ChState.shows_self _)

theorem exec_safetyTimerLimit_due (due : (s.arrive a).charger.TimerDue) : exec (.safetyTimerLimit a) s = .next
    (State.raise emit 0x0507 0 { s.arrive a with
      charger := (s.arrive a).charger.timedOut
      store := (s.arrive a).store.offer (s.arrive a).time .charger ((s.arrive a).charger.faultReport .timer
        (if (s.arrive a).charger.state = .precharge then 0 else 1) (s.arrive a).charger.state.code)
      xchg := { (s.arrive a).xchg with refreshAsked := true } }).rest := by
  obtain ⟨charging, faults⟩ := due.faults
  refine (perform_free hs : execSafetyTimerLimit a s = _).trans (congrArg (fun t => Host.Outcome.next (State.rest t)) ?_)
  exact State.runCharger_timerFault emit charging faults

end

/-! ## The statement -/

/-- Settles O49: a due evaluation and what it keeps, a timer at its limit or before it, and the band zone by zone. -/
theorem periodicEvaluationAndSafetyTimers : Obligations.PeriodicEvaluationAndSafetyTimers := by
  unfold Obligations.PeriodicEvaluationAndSafetyTimers
  refine ⟨fun a s hs => ⟨exec_periodicEvaluation_early a hs, fun due => ?evaluation, ?timer⟩, fun _ => rfl, fun b t =>
    ⟨moveBand_cold b, fun above below => ?leavesCold, fun above below => ?cool, fun above below => ?leavesCool,
      fun above below => ?normal, fun above below => ?leavesWarm, fun above below => ?warm, fun above below => ?leavesHot,
      moveBand_hot b⟩⟩
  case evaluation =>
    obtain ⟨t, answer, _, _, _, _, _, _, kept, own⟩ := execPeriodicEvaluation_leaves a s hs
    have next : (s.arrive a).charger.nextEval = s.charger.nextEval := s.charger.pass_leaves a.elapsed Charger.nextEval
    obtain ⟨rfl, rfl, rfl, rfl⟩ := own (next ▸ due)
    have k := kept.charger
    exact ⟨t, answer, Host.Outcome.next.inj (answer.symm.trans (exec_periodicEvaluation_due a hs due)),
      k.nextEval.trans (congrArg (timeAfter · Config.evalPeriod) next),
      k.nextMeasure.trans (s.charger.pass_leaves _ Charger.nextMeasure), k.meas.trans (s.charger.pass_leaves _ Charger.meas),
      k.profile.trans (s.charger.pass_leaves _ Charger.profile), k.iinLimit.trans (s.charger.pass_leaves _ Charger.iinLimit),
      k.band.trans (s.charger.pass_leaves _ fun d => moveBand d.band d.meas.temp.toInt),
      k.dieCap.trans (s.charger.pass_leaves _ fun d => moveDieCap d.dieCap d.meas.die.toInt),
      k.droop.trans ((s.charger.pass_droopStep _).trans s.charger.droopStep_value)⟩
  case timer =>
    let c := s.charger
    let passed := (s.arrive a).charger
    have state : passed.state = c.state := c.pass_leaves a.elapsed Charger.state
    have profile : passed.profile = c.profile := c.pass_leaves a.elapsed Charger.profile
    have tested : passed.TimerDue ↔ (c.state = .precharge ∧ 1800000000 ≤ passed.prechargeUs)
        ∨ ((c.state = .fast ∨ c.state = .taper) ∧ c.profile.fastLimit * 1000000 ≤ passed.fastUs) := by
      rw [Charger.TimerDue, state, profile]
    split
    next due =>
      refine (exec_safetyTimerLimit_due a hs (tested.mpr due)).trans ?_
      have report := c.pass_faultReport a.elapsed .timer (if c.state = .precharge then 0 else 1) c.state.code
      rw [show (s.arrive a).charger.state = c.state from state, show (s.arrive a).charger.faultReport _ _ _ = _ from report]
      rfl
    next early => exact exec_safetyTimerLimit_early a hs (mt tested.mp early)
  case leavesCold =>
    rw [moveBand_cool b above (by omega)]
    simp [below]
  case cool => rw [moveBand_cool b (by omega) below, if_neg (by omega)]
  case leavesCool =>
    rw [moveBand_normal b above (by omega)]
    simp [below, show ¬430 ≤ t by omega]
  case normal => rw [moveBand_normal b (by omega) (by omega), if_neg (by omega), if_neg (by omega)]
  case leavesWarm =>
    rw [moveBand_normal b (by omega) below, if_neg (by omega)]
    simp [above]
  case warm => rw [moveBand_warm b above (by omega), if_neg (by omega)]
  case leavesHot =>
    rw [moveBand_warm b (by omega) below]
    simp [above]

end Sys2Proof.Machine
end

section
/-! SUPPORT. A measurement: the newest values taken, input detection state by state with the attach and the loss, and the whole command
(R160, R161, R167, R179 to R181). -/

namespace Sys2Proof.Machine

/-! ## The newest values (R160, R179) -/

theorem Charger.measure_eq (c : Charger) (m : Measurement) : c.measure m = { c with
    meas := m, fresh := false
    band := if c.fresh then bandAt m.temp.toInt else c.band
    dieCap := if c.fresh then decide (1100 ≤ m.die.toInt) else c.dieCap } := by
  unfold Charger.measure
  split
  next first => rfl
  next later => simp only [← Bool.eq_false_of_not_eq_true later]

/-! ## Input detection (R161) -/

section
variable {w : Work} (path : PathMode)

theorem Work.on_enter_idle_outside {st : ChState} (idle : st.charging = false) (outside : w.c.state ≠ .taper) :
    (w.on fun c => c.enter st) = w.on fun c => { c with state := st, driven := 0 } := by
  simp only [Work.on, Charger.enter_idle_outside idle outside]

theorem Work.detect_absent_high (state : w.c.state = .absent) (high : 4000 ≤ w.c.meas.vin.toNat) :
    w.detect path = (w.on fun c => { c with state := .qualify 0, driven := 0 }, .same) := by
  unfold Work.detect
  simp only [state, if_pos high]
  rw [Work.on_enter_idle_outside rfl (by simp [state])]

theorem Work.detect_absent_low (state : w.c.state = .absent) (low : w.c.meas.vin.toNat < 4000) :
    w.detect path = (w, .same) := by
  unfold Work.detect
  simp only [state, if_neg (Nat.not_le.mpr low)]

section
variable {n : Nat} (state : w.c.state = .qualify n)
include state

theorem Work.detect_qualify_low (low : w.c.meas.vin.toNat < 4000) :
    w.detect path = (w.on fun c => { c with state := .absent, driven := 0 }, .same) := by
  unfold Work.detect
  simp only [state, if_pos low]
  rw [Work.on_enter_idle_outside rfl (by simp [state])]

theorem Work.detect_qualify_restarts (there : 4000 ≤ w.c.meas.vin.toNat) (short : w.c.meas.vin.toNat < 4300) :
    w.detect path = (w.on fun c => { c with state := .qualify 0, driven := 0 }, .same) := by
  unfold Work.detect
  simp only [state, if_neg (Nat.not_lt.mpr there), if_pos short]
  rw [Work.on_enter_idle_outside rfl (by simp [state])]

theorem Work.detect_qualify_counts (good : 4300 ≤ w.c.meas.vin.toNat) (few : n < 9) :
    w.detect path = (w.on fun c => { c with state := .qualify (n + 1), driven := 0 }, .same) := by
  unfold Work.detect
  simp only [state, if_neg (show ¬w.c.meas.vin.toNat < 4000 by omega), if_neg (Nat.not_lt.mpr good),
    if_pos (show n + 1 < 10 by omega)]
  rw [Work.on_enter_idle_outside rfl (by simp [state])]

theorem Work.detect_qualify_attaches (good : 4300 ≤ w.c.meas.vin.toNat) (tenth : 9 ≤ n) :
    w.detect path = (w.attach path, .attach) := by
  unfold Work.detect
  simp only [state, if_neg (show ¬w.c.meas.vin.toNat < 4000 by omega), if_neg (Nat.not_lt.mpr good),
    if_neg (show ¬n + 1 < 10 by omega)]

end

theorem Work.detect_attached (attached : w.c.state.attached = true) :
    w.detect path = if w.c.meas.vin.toNat < 4000 then (w.lose, .lost) else (w, .same) := by
  unfold Work.detect
  cases state : w.c.state with
  | absent | qualify => simp [state, ChState.attached] at attached
  | _ => rfl

/-! ## The attach (R161) -/

/-- What an attach sets before the charger begins: the limit not given 500, and droop trim, timers and termination count 0. -/
def Charger.onAttach (c : Charger) : Charger :=
  { c with iinLimit := if c.limitGiven then c.iinLimit else 500, droop := 0, prechargeUs := 0, fastUs := 0, term := 0 }

/-- The charger with those settings, INPUT_ATTACH emitted. -/
def Work.attaching (w : Work) : Work := (w.on Charger.onAttach).emit 0x0500 w.c.meas.vin.toNat

theorem Work.attach_eq (w : Work) : w.attach path = w.attaching.begin path false := rfl

theorem Work.attach_pauses {r : PauseReason} (outside : w.c.state ≠ .taper) (cond : w.c.onAttach.pauseCondition path = some r) :
    w.attach path = w.attaching.on fun c => { c with state := .paused r, driven := 0 } := by
  have entered : w.attaching.c.enter (.paused r) = { w.attaching.c with state := .paused r, driven := 0 } :=
    Charger.enter_idle_outside rfl outside
  rw [Work.attach_eq, Work.begin_pauses (w := w.attaching) cond false]
  simp only [Bool.false_eq_true, if_false, Work.on, entered]

theorem Work.attach_charges (outside : w.c.state ≠ .taper) (free : w.c.onAttach.pauseCondition path = none) :
    w.attach path = (w.attaching.on fun c => { c with state := w.c.phase }).timerCheck :=
  Work.begin_charges (w := w.attaching) outside free false

/-- Whether the charger is then paused, charges or faults, the attach's own settings and its event stand. -/
theorem Work.attach_leaves (outside : w.c.state ≠ .taper) : ChargerKept w.c.onAttach (w.attach path).c
    ∧ (w.attach path).c.term = 0 ∧ w.attaching.events <+: (w.attach path).events := by
  refine ⟨Work.kept_begin w.attaching path false, ?_⟩
  cases cond : w.c.onAttach.pauseCondition path with
  | some r =>
    rw [Work.attach_pauses path outside cond]
    exact ⟨rfl, List.prefix_rfl⟩
  | none =>
    rw [Work.attach_charges path outside cond]
    obtain same | ⟨timer, faults⟩ := Work.timerCheck_cases (w.attaching.on fun c => { c with state := w.c.phase })
    · rw [same]
      exact ⟨rfl, List.prefix_rfl⟩
    · rw [faults]
      exact ⟨rfl, List.prefix_append ..⟩

end

/-! ## The measurement at work (R160, R161, R180, R181) -/

theorem Work.measured_eq (w : Work) (m : Measurement) (a : Around) :
    let found := (w.on fun c => c.measure m).detect a.path
    w.measured m a = (if found.2 = .attach then found.1.prompt a else found.1, found.2) := by
  unfold Work.measured
  generalize (w.on fun c => c.measure m).detect a.path = found
  obtain ⟨v, presence⟩ := found
  cases presence <;> rfl

/-- The change of switches that an attach leaves under way: in NORMAL its own close of IN_SW, or that close owed (R180, log entry 25). -/
def State.attachChange (s : State) : Option Change :=
  if s.supply.mode = .normal then
    match s.supply.change with
    | none => some { goal := .attach, switch := .inSw, deadline := timeAfter s.time Config.confirmTime, owed := false }
    | some c => some { c with owed := true }
  else s.supply.change

theorem State.attachSwitch_eq (s : State) :
    s.attachSwitch = { s with supply := { s.supply with present := true, change := s.attachChange } } := by
  unfold State.attachSwitch State.attachChange
  dsimp only
  split
  · cases s.supply.change <;> rfl
  · rfl

/-- The machine before the charger's work of a measurement. -/
def State.detected (s : State) (presence : Presence) : State :=
  if presence = .attach then { s with supply := { s.supply with present := true, change := s.attachChange } } else s

theorem State.runCharger_congr (emit : Emit) {s : State} {c : Charger} {f g : Work → Work} (work : f c.work = g s.charger.work)
    (state : c.state = s.charger.state) : State.runCharger emit f { s with charger := c } = s.runCharger emit g := by
  simp only [State.runCharger_eq, work, state]

/-- The charger's work leaves the input's presence. -/
theorem State.runCharger_present (f : Work → Work) (s : State) : (s.runCharger emit f).supply.present = s.supply.present :=
  (State.runCharger_from keeps_emit s _ (.refl (f s.charger.work).c)).supply.present

/-- A measurement in the state: the detection, the charger's work, the collapse at a loss, then the filters. -/
theorem State.measured_eq (m : Measurement) (s : State) :
    let presence := (s.charger.work.measured m s.around).2
    let ran := (s.detected presence).runCharger emit fun w => (w.measured m s.around).1
    s.measured m =
      (((if presence = .lost ∧ s.supply.present = true then ran.collapse emit else ran).lowStep emit).shutStep emit).dieStep := by
  unfold State.measured
  generalize (s.charger.work.measured m s.around).2 = presence
  refine congrArg (fun t => State.dieStep (State.shutStep emit (State.lowStep emit t))) ?_
  cases presence with
  | same => rfl
  | attach => exact congrArg (State.runCharger emit _) s.attachSwitch_eq
  | lost =>
    simp only [State.runCharger_present, true_and]
    rfl

/-- The same of a state whose charger alone has been changed, and not in its state. -/
theorem State.measured_from {s : State} {c : Charger} (m : Measurement) (state : c.state = s.charger.state) :
    let measured := c.work.measured m s.around
    let ran := (s.detected measured.2).runCharger emit fun _ => measured.1
    State.measured m { s with charger := c } =
      (((if measured.2 = .lost ∧ s.supply.present = true then ran.collapse emit else ran).lowStep emit).shutStep emit).dieStep := by
  intro measured ran
  have charger : (s.detected measured.2).charger = s.charger := by
    unfold State.detected
    split <;> rfl
  have before : State.detected { s with charger := c } measured.2 = { s.detected measured.2 with charger := c } := by
    unfold State.detected
    split <;> rfl
  have works : State.runCharger emit (fun w => (w.measured m s.around).1) (State.detected { s with charger := c } measured.2) = ran := by
    rw [before]
    exact State.runCharger_congr emit rfl (state.trans (congrArg Charger.state charger.symm))
  rw [State.measured_eq, ← works]
  rfl

/-! ## MEASUREMENT (R160) -/

section
variable (a : Ambient) (m : Measurement) {s : State} (hs : s.supply.held = false)
include hs

theorem exec_measurement_early (early : timeReached (s.arrive a).time s.charger.nextMeasure = false) :
    exec (.measurement a m) s = .next (s.arrive a) := by
  have next : (s.arrive a).charger.nextMeasure = s.charger.nextMeasure := s.charger.pass_leaves a.elapsed Charger.nextMeasure
  refine (perform_free hs : execMeasurement a m s = _).trans (congrArg Host.Outcome.next (if_neg ?_))
  rw [next, early]
  exact Bool.false_ne_true

theorem exec_measurement_due (due : timeReached (s.arrive a).time s.charger.nextMeasure = true) :
    exec (.measurement a m) s = .next (State.measured m { s.arrive a with
      charger := { (s.arrive a).charger with nextMeasure := timeAfter s.charger.nextMeasure Config.measurePeriod } }).rest := by
  have next : (s.arrive a).charger.nextMeasure = s.charger.nextMeasure := s.charger.pass_leaves a.elapsed Charger.nextMeasure
  refine (perform_free hs : execMeasurement a m s = _).trans (congrArg Host.Outcome.next ?_)
  rw [next, if_pos due]
  simp only [State.onCharger, next]

end

/-- The charger as a due measurement leaves it before the detection: the next one scheduled, the newest values taken. -/
theorem Charger.pass_measure (c : Charger) (us : Nat) (n : Time) (m : Measurement) :
    Charger.measure { c.pass us with nextMeasure := n } m = { c.pass us with
      nextMeasure := n, meas := m, fresh := false
      band := if c.fresh then bandAt m.temp.toInt else c.band
      dieCap := if c.fresh then decide (1100 ≤ m.die.toInt) else c.dieCap } := by
  obtain ⟨_, _, passed⟩ := c.pass_timers us
  rw [passed, Charger.measure_eq]

/-- Settles O48: a due measurement as one equation for the command and one for the charger, then the detection state by state. -/
theorem measurementAndInputDetection : Obligations.MeasurementAndInputDetection := by
  unfold Obligations.MeasurementAndInputDetection
  refine ⟨fun a m s hs => ⟨exec_measurement_early a m hs, fun due => ?kept⟩, fun a m s hs due => ?command,
    fun w p n => ?attach, fun w p => ⟨fun state => ⟨Work.detect_absent_high p state, Work.detect_absent_low p state⟩,
      fun n state => ⟨Work.detect_qualify_low p state, Work.detect_qualify_restarts p state, Work.detect_qualify_counts p state,
        fun good tenth => ?settings⟩, fun attached => ?attached⟩⟩
  case kept =>
    obtain ⟨t, answer, ⟨early, -⟩ | ⟨-, _, _, _, _, _, moved⟩⟩ := execMeasurement_leaves a m s hs
    · have next : (s.arrive a).charger.nextMeasure = s.charger.nextMeasure := s.charger.pass_leaves a.elapsed Charger.nextMeasure
      exact nomatch (next ▸ early).symm.trans due
    · obtain ⟨_, kept⟩ := moved.rest
      have k := kept.charger
      simp only [State.arrive_charger, Charger.pass_measure] at k
      have next : (s.charger.pass a.elapsed).nextMeasure = s.charger.nextMeasure := s.charger.pass_leaves _ Charger.nextMeasure
      exact ⟨t, answer, k.meas, k.fresh, k.nextMeasure.trans (congrArg (timeAfter · Config.measurePeriod) next),
        k.nextEval.trans (s.charger.pass_leaves _ Charger.nextEval), k.profile.trans (s.charger.pass_leaves _ Charger.profile),
        fun later => ⟨k.band.trans (if_neg (by simp [later])), k.dieCap.trans (if_neg (by simp [later]))⟩,
        fun first => ⟨k.band.trans (if_pos first), (k.dieCap.trans (if_pos first)).symm ▸ decide_eq_true_iff⟩,
        kept.motion, kept.path.acc, kept.routes⟩
  case command =>
    intro u taken found evaluated driven before ran judged
    let c : Charger := { u.charger with nextMeasure := timeAfter s.charger.nextMeasure Config.measurePeriod }
    have newest : c.work.on (fun c => c.measure m) = taken.work := congrArg Charger.work (s.charger.pass_measure a.elapsed _ m)
    have measured : c.work.measured m u.around = (evaluated, found.2) := by
      rw [Work.measured_eq, newest]
      rfl
    have judges := State.measured_from (s := u) (c := c) m rfl
    rw [measured] at judges
    have answer : judged (if found.2 = .lost ∧ s.supply.present = true then ran.collapse emit else ran) :=
      (exec_measurement_due a m hs due).trans (congrArg (fun t => Host.Outcome.next (State.rest t)) judges)
    refine ⟨fun lost => ?_, fun stays => ?_⟩
    · rwa [if_pos lost] at answer
    · rwa [if_neg stays] at answer
  case attach =>
    intro vin vbat veff state good tenth c attached
    have outside : w.c.state ≠ .taper := by simp [state]
    have attaches := Work.detect_qualify_attaches p state good tenth
    refine ⟨fun r cond => attaches.trans (congrArg (·, Presence.attach) (Work.attach_pauses p outside cond)), fun free limit =>
      attaches.trans (congrArg (·, Presence.attach) ((Work.attach_charges p outside free).trans (Work.timerCheck_zeroed rfl rfl limit)))⟩
  case settings =>
    obtain ⟨kept, term, events⟩ := Work.attach_leaves p (w := w) (by simp [state])
    rw [Work.detect_qualify_attaches p state good tenth]
    exact ⟨rfl, kept.iinLimit, kept.droop, kept.prechargeUs, kept.fastUs, term, events⟩
  case attached =>
    rw [Work.detect_attached p attached]
    exact ⟨fun there => if_neg (Nat.not_lt.mpr there), fun low => if_pos low⟩

end Sys2Proof.Machine
end

section
/-! SUPPORT. Every command keeps the switches sound (R180 to R183) and the reserved bits of ANCHOR_LOW at 0 (R77). -/

namespace Sys2Proof.Machine

/-! ## Sound switches stay sound -/

/-- From one supply manager to another the switches stay sound. -/
def KeepsSwitches (u v : Supply) : Prop := u.SwitchesGood → v.SwitchesGood

theorem KeepsSwitches.trans {u v w : Supply} (h : KeepsSwitches u v) (k : KeepsSwitches v w) : KeepsSwitches u w :=
  fun good => k (h good)

/-- Sound switches are a matter of the switches, the path mode and the change under way alone. -/
theorem KeepsSwitches.of_path {u v : Supply} (inSw : v.inSw = u.inSw := by rfl) (batSw : v.batSw = u.batSw := by rfl)
    (mode : v.mode = u.mode := by rfl) (change : v.change = u.change := by rfl) : KeepsSwitches u v := by
  intro ⟨fed, suspended, isolated, attaching⟩
  constructor <;> simpa only [inSw, batSw, mode, change]

/-- At a reset BAT_SW is CLOSED, the path mode NORMAL and no change under way (R192). -/
theorem Supply.reset_switchesGood (cause : ResetCause) : (Supply.reset cause).SwitchesGood where
  fed := .inr rfl
  suspended mode := nomatch mode
  isolated mode := nomatch mode
  attaching _ under := nomatch under

theorem Supply.held_switchesGood (hostPower : Bool) :
    ({ Supply.reset .brownout with held := true, hostPower } : Supply).SwitchesGood :=
  (KeepsSwitches.of_path : KeepsSwitches (Supply.reset .brownout) _) (Supply.reset_switchesGood .brownout)

theorem State.linkResetByHost_keepsSwitches (s : State) : KeepsSwitches s.supply s.linkResetByHost.supply := by
  unfold State.linkResetByHost
  split
  case isTrue raced => exact .of_path
  case isFalse applied => exact .of_path

theorem State.start_keepsSwitches (s : State) : KeepsSwitches s.supply s.start.supply := by
  obtain ⟨_, _, _, _, kept, -⟩ := s.start_leaves
  exact KeepsSwitches.trans .of_path kept.supply.switches

theorem State.rest_keepsSwitches (s : State) : KeepsSwitches s.supply s.rest.supply := s.kept_rest.supply.switches

theorem State.controlWrite_keepsSwitches (value : Word) (s : State) : KeepsSwitches s.supply (s.controlWrite value).supply := by
  obtain ⟨t, reset, left⟩ := s.controlWrite_leaves value
  have before : KeepsSwitches s.supply t.supply := by
    obtain rfl | rfl := reset
    · exact .of_path
    · exact s.linkResetByHost_keepsSwitches
  obtain kept | ⟨_, _, _, _, kept, -⟩ := left
  · exact before.trans kept.supply.switches
  · exact before.trans (KeepsSwitches.trans .of_path kept.supply.switches)

/-! ## Every command of a part that is not held -/

/-- The command answers a state whose switches are sound where they were. -/
def State.AnswersSwitches (s : State) (i : Instr) : Prop := ∃ t, exec i s = .next t ∧ KeepsSwitches s.supply t.supply

section
variable {i : Instr} {s t u : State}

/-- The command's own changes leave the switches sound, and from there the part is kept. -/
theorem State.AnswersSwitches.of_kept (answer : exec i s = .next t) (kept : Kept u t)
    (own : KeepsSwitches s.supply u.supply := by exact .of_path) : s.AnswersSwitches i :=
  ⟨t, answer, own.trans kept.supply.switches⟩

theorem State.AnswersSwitches.of_moved (answer : exec i s = .next t) (moved : Moved u t)
    (own : KeepsSwitches s.supply u.supply := by exact .of_path) : s.AnswersSwitches i :=
  ⟨t, answer, own.trans moved.supply.switches⟩

/-- A command that leaves the part after its arrival. -/
theorem LeavesPart.answersSwitches {a : Ambient} {meaning : State → Host.Outcome State Fault Refusal} (h : LeavesPart a meaning)
    (hs : s.supply.held = false) (arm : exec i s = meaning s := by rfl) : s.AnswersSwitches i := by
  obtain ⟨t, answer, kept⟩ := h s hs
  exact .of_kept (arm.trans answer) kept

end

theorem State.linkDown_answersSwitches (a : Ambient) (s : State) (hs : s.supply.held = false) :
    s.AnswersSwitches (.linkDown a) := by
  refine ⟨_, (perform_free hs : execLinkDown a s = _), ?_⟩
  dsimp only
  split
  · exact KeepsSwitches.trans .of_path (State.linkResetByHost_keepsSwitches _)
  · exact .of_path

theorem State.linkReset_answersSwitches (a : Ambient) (alsoStart : Bool) (s : State) (hs : s.supply.held = false) :
    s.AnswersSwitches (.linkReset a alsoStart) := by
  refine ⟨_, (perform_free hs : execLinkReset a alsoStart s = _), ?_⟩
  have reset : KeepsSwitches s.supply (s.arrive a).linkSeen.linkResetByHost.supply :=
    KeepsSwitches.trans .of_path (State.linkResetByHost_keepsSwitches _)
  dsimp only
  split
  · exact reset.trans ((State.start_keepsSwitches _).trans (State.rest_keepsSwitches _))
  · exact reset

/-- Of the register window's writes, CONTROL alone reaches the supply manager, and DOORBELL the lanes (R77). -/
theorem State.registerWrite_answersSwitches (a : Ambient) (offset width : Nat) (value : Word) (s : State)
    (hs : s.supply.held = false) : s.AnswersSwitches (.registerWrite a offset width value) := by
  refine ⟨_, (perform_free hs : execRegisterWrite a offset width value s = _), ?_⟩
  dsimp only
  split
  case isTrue ignored => exact .of_path
  case isFalse word =>
    split
    case h_3 => exact State.controlWrite_keepsSwitches value (s.arrive a).linkSeen
    case h_4 => exact (Kept.refl (s.arrive a).linkSeen).poll.rest.supply.switches
    case h_1 | h_2 | h_5 | h_6 | h_7 => exact .of_path

theorem State.powerState_answersSwitches (a : Ambient) (s : State) (hs : s.supply.held = false) :
    s.AnswersSwitches (.powerState a) := by
  obtain ⟨t, answer, kept | ⟨_, _, _, _, kept, -⟩⟩ := execPowerState_leaves a s hs
  · exact .of_kept answer kept
  · exact .of_kept answer kept

theorem State.rawBufferReadComplete_answersSwitches (a : Ambient) (s : State) (hs : s.supply.held = false) :
    s.AnswersSwitches (.rawBufferReadComplete a) := by
  obtain ⟨t, answer, kept | ⟨_, kept⟩⟩ := execRawBufferReadComplete_leaves a s hs
  · exact .of_kept answer kept
  · exact .of_kept answer kept

theorem State.measurement_answersSwitches (a : Ambient) (values : Measurement) (s : State) (hs : s.supply.held = false) :
    s.AnswersSwitches (.measurement a values) := by
  obtain ⟨t, answer, ⟨-, rfl⟩ | ⟨-, _, _, _, _, _, moved⟩⟩ := execMeasurement_leaves a values s hs
  · exact .of_kept answer (.refl _)
  · exact .of_moved answer moved

/-- Every command of a part that is not held keeps the switches sound; the resets of the whole part make them so. -/
theorem State.answersSwitches_of_free (i : Instr) (s : State) (hs : s.supply.held = false) : s.AnswersSwitches i := by
  cases i with
  | powerOnReset a levels => exact ⟨_, exec_powerOnReset a levels s, fun _ => Supply.reset_switchesGood .powerOn⟩
  | brownoutReset a =>
    exact ⟨_, (perform_free hs : execBrownoutReset a s = _), fun _ => Supply.held_switchesGood false⟩
  | brownoutRelease a => exact .of_kept (if_neg (by simp [hs])) (.refl (s.arrive a))
  | linkDown a => exact s.linkDown_answersSwitches a hs
  | linkReset a alsoStart => exact s.linkReset_answersSwitches a alsoStart hs
  | start a =>
    obtain ⟨t, _, _, _, _, answer, kept, -⟩ := execStart_leaves a s hs
    exact .of_kept answer kept
  | anchorReadComplete a =>
    obtain ⟨t, _, answer, kept, -⟩ := execAnchorReadComplete_leaves a s hs
    exact .of_kept answer kept
  | nudge a =>
    obtain ⟨t, answer, kept⟩ := execNudge_leaves a s hs
    exact .of_kept answer kept
  | causeWrite a value =>
    obtain ⟨t, answer, kept⟩ := execCauseWrite_leaves a value s hs
    exact .of_kept answer kept
  | causeMaskWrite a value =>
    obtain ⟨t, answer, kept⟩ := execCauseMaskWrite_leaves a value s hs
    exact .of_kept answer kept
  | registerWrite a offset width value => exact s.registerWrite_answersSwitches a offset width value hs
  | scanTick a => exact (execScanTick_leaves a).answersSwitches hs
  | statusRefresh a =>
    obtain ⟨t, _, answer, kept⟩ := execStatusRefresh_leaves a s hs
    exact .of_kept answer kept
  | motionSetup a =>
    obtain ⟨t, _, _, answer, kept, -⟩ := execMotionSetup_leaves a s hs
    exact .of_kept answer kept
  | reference a => exact (execReference_leaves a).answersSwitches hs
  | exposure a =>
    obtain ⟨t, _, answer, kept⟩ := execExposure_leaves a s hs
    exact .of_kept answer kept
  | statusAck a => exact (execStatusAck_leaves a).answersSwitches hs
  | route a =>
    obtain ⟨t, answer, _, kept⟩ := execRoute_leaves a s hs
    exact .of_kept answer kept
  | lineSetup a =>
    obtain ⟨t, answer, _, kept⟩ := execLineSetup_leaves a s hs
    exact .of_kept answer kept
  | timerSetup a =>
    obtain ⟨t, answer, _, kept⟩ := execTimerSetup_leaves a s hs
    exact .of_kept answer kept
  | outputWrite a => exact (execOutputWrite_leaves a).answersSwitches hs
  | clipOpen a => exact (execClipOpen_leaves a).answersSwitches hs
  | clipClose a => exact (execClipClose_leaves a).answersSwitches hs
  | chunk a => exact (execChunk_leaves a).answersSwitches hs
  | cardAttach a => exact (execCardAttach_leaves a).answersSwitches hs
  | cardRead a => exact (execCardRead_leaves a).answersSwitches hs
  | cardWrite a => exact (execCardWrite_leaves a).answersSwitches hs
  | extentAdd a => exact (execExtentAdd_leaves a).answersSwitches hs
  | extentWithdraw a => exact (execExtentWithdraw_leaves a).answersSwitches hs
  | protect a => exact (execProtect_leaves a).answersSwitches hs
  | chargeSetup a =>
    obtain ⟨t, answer, _, _, _, kept⟩ := execChargeSetup_leaves a s hs
    exact .of_kept answer kept
  | inputLimit a =>
    obtain ⟨t, answer, _, _, _, kept⟩ := execInputLimit_leaves a s hs
    exact .of_kept answer kept
  | loadClass a =>
    obtain ⟨t, answer, _, kept⟩ := execLoadClass_leaves a s hs
    exact .of_kept answer kept
  | pathSet a =>
    obtain ⟨t, answer, moved⟩ := execPathSet_leaves a s hs
    exact .of_moved answer moved
  | powerState a => exact s.powerState_answersSwitches a hs
  | resume a => exact (execResume_leaves a).answersSwitches hs
  | abandon a => exact (execAbandon_leaves a).answersSwitches hs
  | dataReadyEdge a =>
    obtain ⟨t, answer, _, kept, -⟩ := execDataReadyEdge_leaves a s hs
    exact .of_kept answer kept
  | sampleReadComplete a sample =>
    obtain ⟨t, answer, _, _, kept, -⟩ := execSampleReadComplete_leaves a sample s hs
    exact .of_kept answer kept
  | imuSettleEnd a =>
    obtain ⟨t, answer, _, kept, -⟩ := execImuSettleEnd_leaves a s hs
    exact .of_kept answer kept
  | lossDeadline a =>
    obtain ⟨t, answer, _, kept, -⟩ := execLossDeadline_leaves a s hs
    exact .of_kept answer kept
  | lostPowerOffEnd a =>
    obtain ⟨t, answer, _, kept, -⟩ := execLostPowerOffEnd_leaves a s hs
    exact .of_kept answer kept
  | runningOneSecond a =>
    obtain ⟨t, answer, _, kept, -⟩ := execRunningOneSecond_leaves a s hs
    exact .of_kept answer kept
  | inputLineEdge a line level =>
    obtain ⟨t, answer, _, kept⟩ := execInputLineEdge_leaves a line level s hs
    exact .of_kept answer kept
  | timerExpiry a timer =>
    obtain ⟨t, answer, _, kept⟩ := execTimerExpiry_leaves a timer s hs
    exact .of_kept answer kept
  | extrapolationDeadline a => exact (execExtrapolationDeadline_leaves a).answersSwitches hs
  | chunkCopyComplete a => exact (execChunkCopyComplete_leaves a).answersSwitches hs
  | chunkPieceReadError a good => exact (execChunkPieceReadError_leaves a good).answersSwitches hs
  | cardDetectChange a => exact (execCardDetectChange_leaves a).answersSwitches hs
  | attachComplete a capacity usable => exact (execAttachComplete_leaves a capacity usable).answersSwitches hs
  | attachTimeout a => exact (execAttachTimeout_leaves a).answersSwitches hs
  | cardProgramming a => exact (execCardProgramming_leaves a).answersSwitches hs
  | cardWriteAccepted a => exact (execCardWriteAccepted_leaves a).answersSwitches hs
  | cardWriteError a => exact (execCardWriteError_leaves a).answersSwitches hs
  | cardBusyTimeout a => exact (execCardBusyTimeout_leaves a).answersSwitches hs
  | rawBufferReadComplete a => exact s.rawBufferReadComplete_answersSwitches a hs
  | rawReadComplete a ok data => exact (execRawReadComplete_leaves a ok data).answersSwitches hs
  | graceExpiry a => exact (execGraceExpiry_leaves a).answersSwitches hs
  | drainEnd a => exact (execDrainEnd_leaves a).answersSwitches hs
  | measurement a values => exact s.measurement_answersSwitches a values hs
  | periodicEvaluation a =>
    obtain ⟨t, answer, _, _, _, _, _, _, kept, -⟩ := execPeriodicEvaluation_leaves a s hs
    exact .of_kept answer kept
  | safetyTimerLimit a => exact (execSafetyTimerLimit_leaves a).answersSwitches hs
  | switchConfirm a switch =>
    obtain ⟨t, answer, moved⟩ := execSwitchConfirm_leaves a switch s hs
    exact .of_moved answer moved
  | switchConfirmTimeout a =>
    obtain ⟨t, answer, moved⟩ := execSwitchConfirmTimeout_leaves a s hs
    exact .of_moved answer moved
  | vinCollapse a =>
    obtain ⟨t, answer, moved⟩ := execVinCollapse_leaves a s hs
    exact .of_moved answer moved

/-! ## Every command of every part -/

theorem exec_keepsSwitches (i : Instr) (s : State) : s.AnswersSwitches i := by
  cases hs : s.supply.held with
  | false => exact State.answersSwitches_of_free i s hs
  | true =>
    cases hi : actsHeld i with
    | false => exact ⟨_, exec_held hs hi, id⟩
    | true =>
      cases i with
      | powerOnReset a levels => exact ⟨_, exec_powerOnReset a levels s, fun _ => Supply.reset_switchesGood .powerOn⟩
      | brownoutRelease a => exact ⟨_, if_pos hs, fun _ => Supply.reset_switchesGood .brownout⟩
      | inputLineEdge a line level => exact ⟨_, if_pos hs, id⟩
      | _ => cases hi

/-! ## The anchor's reserved bits (R77) -/

/-- The mask of ANCHOR_LOW's write clears its reserved bits. -/
theorem and_fffff000_and_fff (value : Word) : value &&& 0xFFFFF000 &&& 0x00000FFF = 0 := by
  rw [BitVec.and_assoc]
  exact BitVec.and_zero

/-- From one exchange engine to another the reserved bits of ANCHOR_LOW stay 0. -/
def KeepsAligned (x y : Exchange) : Prop := x.anchorAligned = true → y.anchorAligned = true

theorem KeepsAligned.of_low {x y : Exchange} (low : y.anchorLow = x.anchorLow) : KeepsAligned x y := by
  unfold KeepsAligned Exchange.anchorAligned
  rw [low]
  exact id

/-- A reset of the whole part leaves ANCHOR_LOW 0 (R77). -/
theorem KeepsAligned.of_zero {x y : Exchange} (low : y.anchorLow = 0) : KeepsAligned x y := by
  intro _
  rw [Exchange.anchorAligned, low]
  rfl

/-- The register window's own write sets ANCHOR_LOW with its reserved bits cleared; no other offset reaches it. -/
theorem State.registerWrite_keepsAligned (a : Ambient) (offset width : Nat) (value : Word) {s t : State}
    (hs : s.supply.held = false) (answer : exec (.registerWrite a offset width value) s = .next t) :
    KeepsAligned s.xchg t.xchg := by
  cases ((perform_free hs : execRegisterWrite a offset width value s = _).symm.trans answer)
  dsimp only
  split
  case isTrue ignored => exact .of_low rfl
  case isFalse word =>
    split
    case h_1 =>
      intro _
      exact beq_iff_eq.mpr (and_fffff000_and_fff value)
    case h_3 =>
      have same := State.controlWrite_guards value (s.arrive a).linkSeen .anchor (by simp) (by simp)
      exact .of_low (Prod.ext_iff.mp same).1
    case h_4 => exact .of_low (Kept.refl (s.arrive a).linkSeen).poll.rest.xchg.anchorLow
    case h_6 => exact .of_low (Kept.writeMask (s.arrive a).linkSeen value).xchg.anchorLow
    case h_2 | h_5 | h_7 => exact .of_low rfl

/-- Every command that may not set the ANCHOR registers leaves them; those that may set ANCHOR_LOW aligned. -/
theorem exec_keepsAligned_of_free {i : Instr} {s t : State} (hs : s.supply.held = false) (answer : exec i s = .next t) :
    KeepsAligned s.xchg t.xchg := by
  cases may : maySet i .anchor with
  | false => exact .of_low (Prod.ext_iff.mp (s.guards i hs t answer .anchor may)).1
  | true =>
    cases i with
    | powerOnReset a levels =>
      cases answer
      exact .of_zero rfl
    | brownoutReset a =>
      cases ((perform_free hs : execBrownoutReset a s = _).symm.trans answer)
      exact .of_zero rfl
    | registerWrite a offset width value => exact State.registerWrite_keepsAligned a offset width value hs answer
    | _ => cases may

theorem exec_keepsAligned {i : Instr} {s t : State} (answer : exec i s = .next t) : KeepsAligned s.xchg t.xchg := by
  cases hs : s.supply.held with
  | false => exact exec_keepsAligned_of_free hs answer
  | true =>
    cases hi : actsHeld i with
    | false =>
      cases ((exec_held hs hi).symm.trans answer)
      exact .of_low rfl
    | true =>
      cases i with
      | powerOnReset a levels =>
        cases answer
        exact .of_zero rfl
      | brownoutRelease a =>
        cases ((if_pos hs : execBrownoutRelease a s = _).symm.trans answer)
        exact .of_zero rfl
      | inputLineEdge a line level =>
        cases ((if_pos hs : execInputLineEdge a line level s = _).symm.trans answer)
        exact .of_low rfl
      | _ => cases hi

/-- Settles O57: an idle step changes nothing, and the front command keeps the switches sound and ANCHOR_LOW aligned. -/
theorem stepsKeepSwitchesAndAnchor : Obligations.StepsKeepSwitchesAndAnchor := by
  unfold Obligations.StepsKeepSwitchesAndAnchor
  intro s t ⟨switches, aligned⟩ stepped
  unfold step at stepped
  split at stepped
  case h_1 idle =>
    cases stepped
    exact ⟨switches, aligned⟩
  case h_2 front rest queued =>
    obtain ⟨u, answer, kept⟩ := exec_keepsSwitches front { s with pending := rest }
    cases answer.symm.trans stepped
    exact ⟨kept switches, exec_keepsAligned answer aligned⟩

/-- Settles O58: nothing is stored, every list is empty, the switches are those of the supply manager's reset, and ANCHOR_LOW is 0. -/
theorem resetIsSound : Obligations.ResetIsSound := by
  unfold Obligations.ResetIsSound
  exact ⟨rfl, .of_emptied, Supply.reset_switchesGood .powerOn, rfl⟩

end Sys2Proof.Machine
end

section
/-! SUPPORT. The brownout reset, its release, and the part while it is held (R186, R2). -/

namespace Sys2Proof.Machine

/-- Each input line stands reset at the level its pin has (R66). -/
theorem State.brownout_line (s : State) (n : Fin 4) : s.brownout.router.lines.get n = .reset (s.router.lines.get n).level 0 := by
  change ((s.router.lines.map (·.level)).map fun level => InLine.reset level 0).get n = _
  simp

/-- The safety timer that counted up to the reset is no value that a brownout keeps (R2, R173). -/
theorem State.arrive_brownout_charger (a : Ambient) (s : State) :
    (s.arrive a).brownout.charger = { Charger.reset with meas := s.charger.meas, terms := s.charger.terms } := by
  obtain ⟨pre, fast, passed⟩ := s.charger.pass_timers a.elapsed
  simp only [State.brownout, State.arrive_charger, passed, State.fullReset_charger]

/-- Settles O4: the reset block by block, held or released; a release of a part that is not held only arrives; a held part by its
commands. -/
theorem brownoutResetAndRelease : Obligations.BrownoutResetAndRelease := by
  unfold Obligations.BrownoutResetAndRelease
  intro a s blocks
  refine ⟨fun hs => ⟨_, (perform_free hs : execBrownoutReset a s = _), ?reset, rfl, rfl, rfl, rfl, rfl⟩,
    fun hs => ⟨_, (if_pos hs : execBrownoutRelease a s = _), ?release, rfl⟩, fun hs => if_neg (by simp [hs]), fun i hs => ?held⟩
  case reset =>
    exact ⟨rfl, rfl, rfl, rfl, rfl, rfl, rfl, rfl, s.arrive_brownout_charger a, rfl, rfl, rfl, (s.arrive a).brownout_line⟩
  case release =>
    exact ⟨rfl, rfl, rfl, rfl, rfl, rfl, rfl, rfl, rfl, rfl, rfl, rfl, (s.arriveHeld a).brownout_line⟩
  case held =>
    cases i with
    | powerOnReset | brownoutRelease | inputLineEdge => trivial
    | _ => exact exec_held hs rfl

end Sys2Proof.Machine
end

section
/-! SUPPORT. POWER_STATE: its checks, and the entry to PARKED and SLEEP (R188, R189, R16, R17, R75). -/

namespace Sys2Proof.Machine

/-! ## The checks (R188) -/

theorem powerStateOf_unknown {code : Nat} (unknown : 2 < code) : powerStateOf code = none := by
  obtain ⟨k, rfl⟩ := Nat.exists_eq_add_of_le' unknown
  rfl

theorem State.powerBusy_iff (s : State) : s.powerBusy = true ↔
    s.writer.state ≠ .idle ∨ s.xchg.stack ≠ [] ∨ s.card.state = .writing ∨ s.card.state = .busy ∨ s.card.draining = true := by
  simp [State.powerBusy, or_assoc]

/-! ## The motion front end at an entry (R16, R17, R19) -/

section
variable (m : Motion) (now : Time)

theorem Motion.park_parked : (m.park now).parked = true := by
  unfold Motion.park
  split <;> rfl

theorem Motion.park_armed : (m.park now).armed = m.armed := by
  unfold Motion.park
  split <;> rfl

/-- A FAILED port stays so in PARKED (R16). -/
theorem Motion.park_failed {m : Motion} (failed : m.port = .failed) : m.park now = { m with parked := true } := if_pos failed

theorem Motion.park_starts {m : Motion} (alive : m.port ≠ .failed) :
    m.park now = ({ m with parked := true } : Motion).enterStarting now := if_neg alive

variable (inParked : Bool)

theorem Motion.linkReset_armed : (m.linkReset now inParked).armed = true := by
  obtain ⟨_, _, _, _, shape, -⟩ := Motion.linkReset_shape (m := m) now inParked
  exact congrArg Motion.armed shape

/-- A link reset neither brings a port to FAILED nor out of it (R6, R19). -/
theorem Motion.linkReset_failed_iff : (m.linkReset now inParked).port = .failed ↔ m.port = .failed := by
  by_cases unpowered : m.port = .off ∨ m.port = .failed
  · rw [Motion.linkReset_unpowered now inParked unpowered]
    rfl
  · rw [Motion.linkReset_powered now inParked unpowered]
    exact iff_of_false (fun starting => nomatch starting) fun failed => unpowered (.inr failed)

/-- What an entry leaves of the front end in PARKED (R16). -/
theorem Motion.park_linkReset :
    let front := (m.linkReset now inParked).park now
    front.parked = true ∧ front.armed = true ∧ (m.port = .failed → front.port = .failed)
      ∧ (m.port ≠ .failed → front.port = .starting ∧ front.imuPower = true ∧ front.settleEnd = some (now + 50000)) := by
  have stays := m.linkReset_failed_iff now inParked
  refine ⟨Motion.park_parked _ _, (Motion.park_armed _ _).trans (Motion.linkReset_armed _ _ _), fun failed => ?_, fun alive => ?_⟩
  · rw [Motion.park_failed _ (stays.mpr failed)]
    exact stays.mpr failed
  · rw [Motion.park_starts _ (mt stays.mp alive)]
    exact ⟨rfl, rfl, rfl⟩

/-- What an entry leaves of the front end in SLEEP; a FAILED port follows the free value (R17, R6, log entry 50). -/
theorem Motion.sleep_linkReset :
    let front := (m.linkReset now inParked).sleep
    front.port = (if m.port = .failed ∧ Config.failedInSleep = true then .failed else .off)
      ∧ front.imuPower = false ∧ front.armed = true := by
  refine ⟨?_, rfl, Motion.linkReset_armed _ _ _⟩
  refine if_congr ?_ rfl rfl
  rw [Bool.and_eq_true, beq_iff_eq, Motion.linkReset_failed_iff]

end

/-! ## The entry (R188) -/

/-- The state of an entry before its prompt evaluation. -/
def State.entering (target : PowerState) (s : State) : State :=
  { (s.onXchg fun x => x.finishOnly .control .done .ok 0).linkReset (target == .parked) with
    motion :=
      let front := s.motion.linkReset s.time (s.supply.power == .parked)
      if target = .parked then front.park s.time else front.sleep
    supply := { s.supply with power := target, hostPower := false, wake := .none, entered := some s.time } }

theorem State.enterPower_eq (target : PowerState) (s : State) : s.enterPower target = (s.entering target).prompt emit := rfl

section
variable {a : Ambient} {s : State} {code : Nat} (hs : s.supply.held = false)
  (body : s.frameBody .control = some (.powerState code))
include hs body

theorem exec_powerState_unknown (unknown : powerStateOf code = none) :
    exec (.powerState a) s = .next ((s.arrive a).finish .control .refused .badField 0) := by
  refine (perform_free hs : execPowerState a s = _).trans (congrArg Host.Outcome.next ?_)
  rw [show (s.arrive a).frameBody .control = _ from body]
  simp only [unknown]

theorem exec_powerState_active (active : powerStateOf code = some .active) :
    exec (.powerState a) s = .next ((s.arrive a).finish .control .done .noChange 0) := by
  refine (perform_free hs : execPowerState a s = _).trans (congrArg Host.Outcome.next ?_)
  rw [show (s.arrive a).frameBody .control = _ from body]
  simp only [active]

/-- PARKED and SLEEP are entered unless the part is busy. -/
theorem exec_powerState_away {target : PowerState} (names : powerStateOf code = some target) (away : target ≠ .active) :
    exec (.powerState a) s = .next (if (s.arrive a).powerBusy then (s.arrive a).finish .control .refused .busy 0
      else (((s.arrive a).entering target).prompt emit).rest) := by
  refine (perform_free hs : execPowerState a s = _).trans (congrArg Host.Outcome.next ?_)
  rw [show (s.arrive a).frameBody .control = _ from body]
  cases target with
  | active => exact absurd rfl away
  | parked | sleep => simp only [names, State.enterPower_eq]

end

/-- Settles O54: the code, then BUSY, then the entry block by block. -/
theorem powerStateIsCheckedAndEntered : Obligations.PowerStateIsCheckedAndEntered := by
  unfold Obligations.PowerStateIsCheckedAndEntered
  intro a s code hs body u busy
  have busy_iff : u.powerBusy = true ↔ busy := u.powerBusy_iff
  refine ⟨fun unknown => exec_powerState_unknown hs body (powerStateOf_unknown unknown),
    fun active => exec_powerState_active hs body (by rw [active]; rfl), fun known isBusy => ?busy, fun known free => ?enters⟩
  case busy =>
    obtain ⟨target, names, away⟩ : ∃ target, powerStateOf code = some target ∧ target ≠ .active := by
      obtain rfl | rfl := known
      · exact ⟨.parked, rfl, by decide⟩
      · exact ⟨.sleep, rfl, by decide⟩
    exact (exec_powerState_away hs body names away).trans (congrArg _ (if_pos (busy_iff.mpr isBusy)))
  case enters =>
    have enters (target : PowerState) (names : powerStateOf code = some target) (away : target ≠ .active) :
        exec (.powerState a) s = .next ((u.entering target).prompt emit).rest :=
      (exec_powerState_away hs body names away).trans (congrArg _ (if_neg (mt busy_iff.mp free)))
    have finished := Exchange.kept_finishOnly .control .done .ok 0 u.xchg
    have writer (flying : Option Source) := s.writer.afterReset_idle flying
    obtain rfl | rfl := known
    · refine ⟨_, enters .parked rfl (by decide), rfl, rfl, rfl, rfl, rfl, rfl, rfl, rfl, rfl, rfl, rfl, finished.anchorLow,
        finished.anchorHigh, rfl, rfl, rfl, rfl, rfl, rfl, (writer _).1, (writer _).2.1, rfl, rfl, rfl,
        fun _ => Motion.park_linkReset _ _ _, fun sleeps => absurd sleeps (by decide)⟩
    · refine ⟨_, enters .sleep rfl (by decide), rfl, rfl, rfl, rfl, rfl, rfl, rfl, rfl, rfl, rfl, rfl, finished.anchorLow,
        finished.anchorHigh, rfl, rfl, rfl, rfl, rfl, rfl, (writer _).1, (writer _).2.1, rfl, rfl, rfl,
        fun parks => absurd parks (by decide), fun _ => Motion.sleep_linkReset _ _ _⟩

end Sys2Proof.Machine
end

section
/-! SUPPORT. The filters of a measurement and the wakes, each said once (R184 to R187, R190). -/

namespace Sys2Proof.Machine

/-! ## The low-battery filter (R184) -/

section
variable {u : Supply} {vbat : Nat}

theorem Supply.supplied_iff : u.supplied = true ↔ u.present = true ∧ u.inSw = true := Bool.and_eq_true_iff

theorem Supply.lowFilter_supplied (supplied : u.supplied = true) : u.lowFilter vbat =
    ({ u with lowBattery := false, lowRun := 0, highRun := 0 }, if u.lowBattery then .clears else .nothing) := if_pos supplied

theorem Supply.shutFilter_supplied (supplied : u.supplied = true) :
    u.shutFilter vbat = ({ u with shutArmed := true, deepRun := 0, rearmRun := 0 }, false) := if_pos supplied

section
variable (alone : ¬u.supplied = true)
include alone

/-- While LOW_BATTERY is clear, the third reading in a row below the close threshold asserts it. -/
theorem Supply.lowFilter_clear (clear : u.lowBattery = false) : u.lowFilter vbat =
    if vbat < closeThreshold u.loadClass then
      if 2 ≤ u.lowRun then ({ u with lowBattery := true, lowRun := 0, highRun := 0 }, .asserts)
      else ({ u with lowRun := u.lowRun + 1 }, .nothing)
    else ({ u with lowRun := 0 }, .nothing) := by
  simp [Supply.lowFilter, alone, clear]

/-- While LOW_BATTERY is set, the third reading in a row at the clear level clears it. -/
theorem Supply.lowFilter_set (set : u.lowBattery = true) : u.lowFilter vbat =
    if clearLevel u.loadClass ≤ vbat then
      if 2 ≤ u.highRun then ({ u with lowBattery := false, lowRun := 0, highRun := 0 }, .clears)
      else ({ u with highRun := u.highRun + 1 }, .nothing)
    else ({ u with highRun := 0 }, .nothing) := by
  simp [Supply.lowFilter, alone, set]

/-! ## The shutdown filter (R186) -/

/-- While armed, the third reading in a row below 3,100 gives the notice. -/
theorem Supply.shutFilter_armed (armed : u.shutArmed = true) : u.shutFilter vbat =
    if vbat < 3100 then
      if 2 ≤ u.deepRun then ({ u with shutArmed := false, deepRun := u.deepRun + 1, rearmRun := 0 }, true)
      else ({ u with deepRun := u.deepRun + 1 }, false)
    else ({ u with deepRun := 0 }, false) := by
  simp [Supply.shutFilter, alone, armed]

/-- After a notice, the third reading in a row at 3,200 arms it again. -/
theorem Supply.shutFilter_given (given : u.shutArmed = false) : u.shutFilter vbat =
    if 3200 ≤ vbat then
      if 2 ≤ u.rearmRun then ({ u with shutArmed := true, deepRun := 0, rearmRun := 0 }, false)
      else ({ u with rearmRun := u.rearmRun + 1 }, false)
    else ({ u with rearmRun := 0 }, false) := by
  simp [Supply.shutFilter, alone, given]

end

end

/-! ## What the filters bring (R185, R186, R187) -/

section
variable {s : State}

theorem State.lowStep_nothing (low : (s.supply.lowFilter s.charger.vbat).2 = .nothing) :
    s.lowStep emit = { s with supply := (s.supply.lowFilter s.charger.vbat).1 } := by
  simp only [State.lowStep, low]

theorem State.lowStep_clears (low : (s.supply.lowFilter s.charger.vbat).2 = .clears) :
    s.lowStep emit = State.lowSupplyFlag { s with supply := (s.supply.lowFilter s.charger.vbat).1 } := by
  simp only [State.lowStep, low]

theorem State.lowStep_asserts (low : (s.supply.lowFilter s.charger.vbat).2 = .asserts) : s.lowStep emit =
    (((State.raise emit 0x0505 s.charger.vbat { s with supply := (s.supply.lowFilter s.charger.vbat).1 }).lowSupplyFlag).startClose
      .lowBattery).assertGrace := by
  simp only [State.lowStep, low]

theorem State.shutStep_quiet (shut : (s.supply.shutFilter s.charger.vbat).2 = false) :
    s.shutStep emit = { s with supply := (s.supply.shutFilter s.charger.vbat).1 } := by
  simp only [State.shutStep, shut, Bool.false_eq_true, if_false]

theorem State.shutStep_notice (shut : (s.supply.shutFilter s.charger.vbat).2 = true) : s.shutStep emit =
    (State.raise emit 0x0506 s.charger.vbat { s with supply := (s.supply.shutFilter s.charger.vbat).1 }).supplyFlag := by
  simp only [State.shutStep, shut, if_true]

theorem State.assertGrace_eq (s : State) : s.assertGrace =
    if s.xchg.liveRecord = true ∧ s.card.grace = none then
      { s with card := { s.card with grace := some (s.time + 2000000) } } else s := by
  unfold State.assertGrace
  refine if_congr ?_ rfl rfl
  rw [Bool.and_eq_true, Option.isNone_iff_eq_none]

theorem State.dieStep_heats (hot : 1200 ≤ s.charger.meas.die.toInt) (cool : s.supply.dieHot = false) : s.dieStep =
    ((State.supplyFlag { s with supply := { s.supply with dieHot := true } }).startClose .dieHot).assertGrace :=
  if_pos ⟨hot, by rw [cool]; rfl⟩

theorem State.dieStep_cools (cool : s.charger.meas.die.toInt < 1000) (hot : s.supply.dieHot = true) :
    s.dieStep = State.supplyFlag { s with supply := { s.supply with dieHot := false } } :=
  (if_neg fun both => by omega).trans (if_pos ⟨cool, hot⟩)

/-- Between the levels, and at a level already taken, the die changes nothing. -/
theorem State.dieStep_stays (high : s.charger.meas.die.toInt < 1200 ∨ s.supply.dieHot = true)
    (low : 1000 ≤ s.charger.meas.die.toInt ∨ s.supply.dieHot = false) : s.dieStep = s := by
  refine (if_neg ?_).trans (if_neg ?_)
  · rintro ⟨hot, cool⟩
    obtain below | taken := high
    · omega
    · simp [taken] at cool
  · rintro ⟨cool, hot⟩
    obtain above | taken := low
    · omega
    · simp [taken] at hot

/-! ## Wakes (R190) -/

theorem State.wake_first (away : s.supply.power ≠ .active) (fresh : s.supply.wake = .none) (r : WakeReason) :
    s.wake r = { s with supply := { s.supply with wake := r, hostPower := true } } := if_pos ⟨away, fresh⟩

theorem State.wake_idle (idle : s.supply.power = .active ∨ s.supply.wake ≠ .none) (r : WakeReason) : s.wake r = s :=
  if_neg fun ⟨away, fresh⟩ => idle.elim away (· fresh)

theorem State.directWake_attach : s.directWake 0x0500 = s.wake .inputAttach := by simp [State.directWake]

theorem State.directWake_parked (parked : s.supply.power = .parked) :
    s.directWake 0x0300 = s.wake .shock ∧ s.directWake 0x0203 = s.wake .timer := by
  simp [State.directWake, parked]

theorem State.directWake_elsewhere (elsewhere : s.supply.power ≠ .parked) : s.directWake 0x0300 = s ∧ s.directWake 0x0203 = s := by
  simp [State.directWake, elsewhere]

end

/-! ## What comes before the filters at a measurement -/

/-- What the filters judge and set, with the load class that the low-battery filter reads (R176, R184 to R187). -/
def Supply.filters (u : Supply) : Bool × Nat × Nat × Bool × Nat × Nat × Bool × Nat :=
  (u.lowBattery, u.lowRun, u.highRun, u.shutArmed, u.deepRun, u.rearmRun, u.dieHot, u.loadClass)

theorem SupplyKept.filters {u v : Supply} (h : SupplyKept u v) : v.filters = u.filters := by
  unfold SupplyKept at h
  rw [h]
  rfl

theorem Supply.collapse_filters (u : Supply) : u.collapse.filters = u.filters := by
  unfold Supply.collapse
  split <;> rfl

theorem State.detected_filters (s : State) (presence : Presence) : (s.detected presence).supply.filters = s.supply.filters := by
  unfold State.detected
  split <;> rfl

/-- A collapse of the input changes the supply manager as R181 says, and keeps the part from there. -/
theorem State.kept_collapse (s : State) : Kept { s with supply := s.supply.collapse } (s.collapse emit) := by
  unfold State.collapse
  extract_lets changing t a b
  have shown : Kept { s with supply := s.supply.collapse } t := (Kept.refl _).pathShown _
  have asked : Kept { s with supply := s.supply.collapse } a := by
    unfold a
    split
    · exact shown.supplyFlag
    · exact shown
  have finished : Kept { s with supply := s.supply.collapse } b := by
    unfold b
    split
    · exact asked.finishPath _ _ _
    · exact asked
  split
  · exact finished
  · exact finished.pathRead

/-- A measurement ends with the three filters, which judge its own values; the detection before them leaves what they judge
(R160, log entry 72). -/
theorem State.measured_judged (m : Measurement) (s : State) : ∃ v : State,
    s.measured m = ((v.lowStep emit).shutStep emit).dieStep
      ∧ v.charger.meas = m ∧ v.time = s.time ∧ v.supply.filters = s.supply.filters := by
  refine ⟨_, s.measured_eq m, ?_⟩
  obtain ⟨_, _, _, _, _, work⟩ := s.charger.work.kept_measured m s.around
  generalize (s.charger.work.measured m s.around).2 = presence
  have charger : (s.detected presence).charger = s.charger := by
    unfold State.detected
    split <;> rfl
  have time : (s.detected presence).time = s.time := by
    unfold State.detected
    split <;> rfl
  have ran := (s.detected presence).runCharger_from keeps_emit _ (f := fun w => (w.measured m s.around).1) (charger ▸ work)
  generalize (s.detected presence).runCharger emit _ = u at ran
  have meas : u.charger.meas = m := ran.charger.meas.trans (by rw [Charger.measure_eq])
  have judged : u.supply.filters = s.supply.filters := ran.supply.filters.trans (s.detected_filters presence)
  split
  · have fell := u.kept_collapse
    exact ⟨fell.charger.meas.trans meas, fell.time.trans (ran.time.trans time),
      fell.supply.filters.trans (u.supply.collapse_filters.trans judged)⟩
  · exact ⟨meas, ran.time.trans time, judged⟩

end Sys2Proof.Machine
end

section
/-! The filters of a measurement, what they bring, and the wakes (O53). -/

namespace Sys2Proof.Machine

/-- Settles O53: each filter by what it judges, each step by its filter's answer, the wakes by the power state, and a measurement as the
three steps on what the detection leaves. -/
theorem supplyFiltersAndWakes : Obligations.SupplyFiltersAndWakes := by
  unfold Obligations.SupplyFiltersAndWakes
  refine ⟨fun u vbat => ?filters, fun s => ?steps, fun a m s hs due => ?measured⟩
  case filters =>
    intro threshold supplied
    have alone (h : ¬supplied) : ¬u.supplied = true := mt Supply.supplied_iff.mp h
    refine ⟨fun h => ⟨Supply.lowFilter_supplied (Supply.supplied_iff.mpr h), Supply.shutFilter_supplied (Supply.supplied_iff.mpr h)⟩,
      fun h clear => ?clear, fun h set => ?set, fun h armed => ?armed, fun h given => ?given⟩
    case clear =>
      rw [Supply.lowFilter_clear (alone h) clear]
      exact ⟨fun high => if_neg (Nat.not_lt.mpr high), fun low few => (if_pos low).trans (if_neg (Nat.not_le.mpr few)),
        fun low third => (if_pos low).trans (if_pos third)⟩
    case set =>
      rw [Supply.lowFilter_set (alone h) set]
      exact ⟨fun low => if_neg (Nat.not_le.mpr low), fun high few => (if_pos high).trans (if_neg (Nat.not_le.mpr few)),
        fun high third => (if_pos high).trans (if_pos third)⟩
    case armed =>
      rw [Supply.shutFilter_armed (alone h) armed]
      exact ⟨fun high => if_neg (Nat.not_lt.mpr high), fun low few => (if_pos low).trans (if_neg (Nat.not_le.mpr few)),
        fun low third => (if_pos low).trans (if_pos third)⟩
    case given =>
      rw [Supply.shutFilter_given (alone h) given]
      exact ⟨fun low => if_neg (Nat.not_le.mpr low), fun high few => (if_pos high).trans (if_neg (Nat.not_le.mpr few)),
        fun high third => (if_pos high).trans (if_pos third)⟩
  case steps =>
    intro vbat die low shut notice supplySet lowSet graceFrom
    refine ⟨State.lowStep_nothing, State.lowStep_clears, fun asserts => (State.lowStep_asserts asserts).trans (State.assertGrace_eq _),
      State.shutStep_quiet, State.shutStep_notice, fun hot cool => (State.dieStep_heats hot cool).trans (State.assertGrace_eq _),
      fun _ taken => State.dieStep_stays (.inr taken) (by omega), State.dieStep_cools,
      fun _ taken => State.dieStep_stays (by omega) (.inr taken), fun above below => State.dieStep_stays (.inl below) (.inl above),
      fun r away fresh => State.wake_first away fresh r, fun r idle => State.wake_idle idle r, State.directWake_attach,
      State.directWake_parked, State.directWake_elsewhere, fun f e k wakes => ?_⟩
    obtain rfl | rfl := wakes <;> rfl
  case measured =>
    obtain ⟨v, judged, meas, time, filters⟩ := State.measured_judged m { s.arrive a with
      charger := { (s.arrive a).charger with nextMeasure := timeAfter s.charger.nextMeasure Config.measurePeriod } }
    simp only [Supply.filters, Prod.mk.injEq] at filters
    exact ⟨v, (exec_measurement_due a m hs due).trans (by rw [judged]), meas, time, filters⟩

end Sys2Proof.Machine
end

section
/-! SUPPORT. PATH_SET, and the ends of a change of switches, each said once (R180 to R185). -/

namespace Sys2Proof.Machine

/-! ## Shared parts -/

/-- What neither a wake nor host power-enable touches stays where the part is kept. -/
theorem SupplyKept.leaves {α : Type} {u v : Supply} (h : SupplyKept u v) (f : Supply → α)
    (blind : ∀ wake hostPower, f { u with wake, hostPower } = f u := by intros; rfl) : f v = f u := by
  unfold SupplyKept at h
  rw [h, blind]

/-- A supply manager put in place, a refresh asked for where it shows other switches or another path mode (R180). -/
def State.showing (s : State) (w : Supply) : State :=
  { s with
    supply := w
    xchg := if w.inSw ≠ s.supply.inSw ∨ w.batSw ≠ s.supply.batSw ∨ w.mode ≠ s.supply.mode then
        { s.xchg with refreshAsked := true }
      else s.xchg }

theorem State.pathShown_eq (s : State) (f : Supply → Supply) : (s.onSupply f).pathShown s.supply = s.showing (f s.supply) := by
  have shows : (f s.supply).showsPath s.supply = true ↔
      (f s.supply).inSw ≠ s.supply.inSw ∨ (f s.supply).batSw ≠ s.supply.batSw ∨ (f s.supply).mode ≠ s.supply.mode := by
    simp [Supply.showsPath, or_assoc]
  unfold State.pathShown State.showing
  by_cases shown : (f s.supply).showsPath s.supply = true
  · rw [if_pos (shows.mp shown)]
    exact if_pos shown
  · rw [if_neg (mt shows.mpr shown)]
    exact if_neg shown

theorem State.showing_state (s : State) (w : Supply) : (s.showing w).xchg.state = s.xchg.state := by
  unfold State.showing
  dsimp only
  split <;> rfl

theorem State.showing_hand (s : State) (w : Supply) (l : Lane) : (s.showing w).xchg.hand l = s.xchg.hand l := by
  unfold State.showing
  dsimp only
  split <;> rfl

theorem Exchange.request_hand (x : Exchange) (f : BitVec 9) (l : Lane) : (x.request f).hand l = x.hand l :=
  congrArg LaneSt.hand (x.request_lane f l)

/-- Only the CONTROL lane's hand says whether a PATH_SET frame waits. -/
theorem State.pathFrame_of_hand {s t : State} (hand : t.xchg.hand .control = s.xchg.hand .control) :
    t.pathFrame = s.pathFrame := by
  unfold State.pathFrame
  rw [hand]

theorem State.finishPath_of_hand {s t : State} (hand : t.xchg.hand .control = s.xchg.hand .control) (st : Status) (r : Result)
    (value : Nat) : t.finishPath st r value = if s.pathFrame then t.finish .control st r value else t := by
  rw [State.finishPath, State.pathFrame_of_hand hand]

theorem State.finishPath_supply (s : State) (st : Status) (r : Result) (value : Nat) :
    (s.finishPath st r value).supply = s.supply := by
  unfold State.finishPath
  split <;> rfl

theorem State.finishPath_time (s : State) (st : Status) (r : Result) (value : Nat) :
    (s.finishPath st r value).time = s.time := by
  unfold State.finishPath
  split <;> rfl

/-- A step that makes the camera input-supplied starts the filters anew and, where it clears LOW_BATTERY on a RUNNING exchange, asks
for SUPPLY (R184, R185, log entry 71). -/
theorem State.suppliedFrom_eq (before : Bool) (s : State) :
    let becomes := !before && s.supply.supplied
    s.suppliedFrom before = { s with
      supply := if becomes then s.supply.nowSupplied else s.supply
      xchg := if becomes && s.supply.lowBattery && s.xchg.state == .running then s.xchg.request causeSupply else s.xchg } := by
  intro becomes
  unfold State.suppliedFrom
  by_cases supplies : becomes = true
  · simp only [show (!before && s.supply.supplied) = true from supplies, supplies, if_true, Bool.true_and]
    cases low : s.supply.lowBattery with
    | false => rfl
    | true =>
      by_cases running : s.xchg.state = .running
      · rw [if_pos rfl, State.lowSupplyFlag_running (s.onSupply Supply.nowSupplied) running, running]
        rfl
      · rw [if_pos rfl, State.lowSupplyFlag_dropped (s.onSupply Supply.nowSupplied) running, beq_eq_false_iff_ne.mpr running]
        rfl
  · simp only [show (!before && s.supply.supplied) = false from Bool.eq_false_of_not_eq_true supplies,
      Bool.eq_false_of_not_eq_true supplies, Bool.false_and, Bool.false_eq_true, if_false]

/-! ## PATH_SET (R182) -/

theorem pathModeOf_unknown {code : Nat} (unknown : 2 < code) : pathModeOf code = none := by
  obtain ⟨k, rfl⟩ := Nat.exists_eq_add_of_le' unknown
  rfl

theorem pathModeOf_code (m : PathMode) : pathModeOf m.code = some m := by
  cases m <;> rfl

section
variable {s : State}

theorem State.pathTo_suspend (ready : s.supply.batSw = true ∧ closeThreshold s.supply.loadClass + 100 ≤ s.charger.vbat) :
    s.pathTo .inputSuspend = s.beginPath .inputSuspend .batSw := if_pos ready

theorem State.pathTo_suspend_low (low : ¬(s.supply.batSw = true ∧ closeThreshold s.supply.loadClass + 100 ≤ s.charger.vbat)) :
    s.pathTo .inputSuspend = s.finish .control .refused .lowBattery 0 := if_neg low

theorem State.pathTo_isolate (ready : s.supply.present = true ∧ s.supply.inSw = true ∧ 4500 ≤ s.charger.meas.vin.toNat) :
    s.pathTo .batteryIsolate = s.beginPath .batteryIsolate .inSw := if_pos ready

theorem State.pathTo_isolate_noInput (none : ¬(s.supply.present = true ∧ s.supply.inSw = true ∧ 4500 ≤ s.charger.meas.vin.toNat)) :
    s.pathTo .batteryIsolate = s.finish .control .refused .noInput 0 := if_neg none

theorem State.pathTo_normal_of_isolate (mode : s.supply.mode = .batteryIsolate) : s.pathTo .normal = s.beginPath .normal .batSw := by
  simp only [State.pathTo, mode]

/-- From INPUT_SUSPEND the part closes IN_SW on an input, and without one returns at once. -/
theorem State.pathTo_normal_of_suspend (mode : s.supply.mode = .inputSuspend) :
    s.pathTo .normal = if s.supply.present then s.beginPath .normal .inSw else s.pathAtOnce .normal := by
  simp only [State.pathTo, mode]

end

section
variable {a : Ambient} {s : State} (hs : s.supply.held = false)
include hs

section
variable {code : Nat} (body : s.frameBody .control = some (.pathSet code))
include body

theorem exec_pathSet_unknown (unknown : pathModeOf code = none) :
    exec (.pathSet a) s = .next ((s.arrive a).finish .control .refused .badField 0) := by
  refine (perform_free hs : execPathSet a s = _).trans (congrArg Host.Outcome.next ?_)
  rw [show (s.arrive a).frameBody .control = _ from body]
  simp only [unknown]

theorem exec_pathSet_same (same : pathModeOf code = some s.supply.mode) :
    exec (.pathSet a) s = .next ((s.arrive a).finish .control .done .ok 0) := by
  refine (perform_free hs : execPathSet a s = _).trans (congrArg Host.Outcome.next ?_)
  rw [show (s.arrive a).frameBody .control = _ from body]
  simp only [same, State.arrive_supply, if_true]

theorem exec_pathSet_other {m : PathMode} (names : pathModeOf code = some m) (other : s.supply.mode ≠ m) :
    exec (.pathSet a) s = .next ((s.arrive a).pathTo m).rest := by
  refine (perform_free hs : execPathSet a s = _).trans (congrArg Host.Outcome.next ?_)
  rw [show (s.arrive a).frameBody .control = _ from body]
  simp only [names]
  exact if_neg other.symm

end

/-! ## SWITCH_CONFIRM (R180, R184) -/

theorem exec_switchConfirm_idle {sw : Switch}
    (idle : ∀ c, s.supply.change = some c → c.switch ≠ sw ∨ timeReached c.deadline (s.arrive a).time = false) :
    exec (.switchConfirm a sw) s = .next (s.arrive a) := by
  refine (perform_free hs : execSwitchConfirm a sw s = _).trans (congrArg Host.Outcome.next ?_)
  rw [State.arrive_supply]
  split
  case h_1 c under =>
    refine if_neg fun ⟨driven, inTime⟩ => ?_
    exact (idle c under).elim (· driven) fun late => Bool.false_ne_true (late.symm.trans inTime)
  case h_2 none => rfl

theorem exec_switchConfirm_inTime {c : Change} (under : s.supply.change = some c)
    (inTime : timeReached c.deadline (s.arrive a).time = true) :
    exec (.switchConfirm a c.switch) s = .next ((s.arrive a).confirmed c).rest := by
  refine (perform_free hs : execSwitchConfirm a c.switch s = _).trans (congrArg Host.Outcome.next ?_)
  rw [State.arrive_supply, under]
  exact if_pos ⟨rfl, inTime⟩

/-! ## SWITCH_CONFIRM_TIMEOUT (R183) -/

theorem exec_switchConfirmTimeout_idle (idle : ∀ c, s.supply.change = some c → timeReached (s.arrive a).time c.deadline = false) :
    exec (.switchConfirmTimeout a) s = .next (s.arrive a) := by
  refine (perform_free hs : execSwitchConfirmTimeout a s = _).trans (congrArg Host.Outcome.next ?_)
  rw [State.arrive_supply]
  split
  case h_1 c under => exact if_neg fun late => Bool.false_ne_true ((idle c under).symm.trans late)
  case h_2 none => rfl

theorem exec_switchConfirmTimeout_late {c : Change} (under : s.supply.change = some c)
    (late : timeReached (s.arrive a).time c.deadline = true) :
    exec (.switchConfirmTimeout a) s = .next ((s.arrive a).unconfirmed c).rest := by
  refine (perform_free hs : execSwitchConfirmTimeout a s = _).trans (congrArg Host.Outcome.next ?_)
  rw [State.arrive_supply, under]
  exact if_pos late

end

/-! ## A change confirmed -/

/-- The supply manager after a confirmation: the switches of the goal, and the filters anew where the camera becomes input-supplied. -/
def Supply.confirmedBy (u : Supply) (c : Change) : Supply :=
  let settled := u.settleSwitches c
  if !u.supplied && settled.supplied then settled.nowSupplied else settled

/-- The part after a confirmation, before the frame is finished and the charger reads the path mode. -/
def State.confirming (c : Change) (s : State) : State :=
  ((s.onSupply fun u => u.settleSwitches c).pathShown s.supply).suppliedFrom s.supply.supplied

section
variable (u : Supply) {c : Change}

theorem Supply.settleSwitches_attach (goal : c.goal = .attach) : u.settleSwitches c = { u with change := none, inSw := true } := by
  rw [Supply.settleSwitches, goal]

theorem Supply.settleSwitches_suspend (goal : c.goal = .mode .inputSuspend) :
    u.settleSwitches c = { u with change := none, batSw := true, inSw := false, mode := .inputSuspend } := by
  rw [Supply.settleSwitches, goal]

theorem Supply.settleSwitches_isolate (goal : c.goal = .mode .batteryIsolate) :
    u.settleSwitches c = { u with change := none, inSw := true, batSw := false, mode := .batteryIsolate } := by
  rw [Supply.settleSwitches, goal]

/-- The switch driven is CLOSED, the other as it was. -/
theorem Supply.settleSwitches_normal (goal : c.goal = .mode .normal) : u.settleSwitches c = { u with
    change := none, mode := .normal, inSw := u.inSw || c.switch == .inSw, batSw := u.batSw || c.switch == .batSw } := by
  rw [Supply.settleSwitches, goal]
  cases c.switch <;> simp

variable (c)

theorem Supply.settleSwitches_shape : ∃ inSw batSw mode, u.settleSwitches c = { u with change := none, inSw, batSw, mode } := by
  cases goal : c.goal with
  | attach => exact ⟨_, _, _, u.settleSwitches_attach goal⟩
  | mode m =>
    cases m with
    | inputSuspend => exact ⟨_, _, _, u.settleSwitches_suspend goal⟩
    | batteryIsolate => exact ⟨_, _, _, u.settleSwitches_isolate goal⟩
    | normal => exact ⟨_, _, _, u.settleSwitches_normal goal⟩

/-- What no switch, path mode or change under way touches stays through a confirmation. -/
theorem Supply.settleSwitches_leaves {α : Type} (f : Supply → α)
    (blind : ∀ inSw batSw mode, f { u with change := none, inSw, batSw, mode } = f u := by intros; rfl) :
    f (u.settleSwitches c) = f u := by
  obtain ⟨_, _, _, shape⟩ := u.settleSwitches_shape c
  rw [shape, blind]

theorem Supply.settleSwitches_change : (u.settleSwitches c).change = none := by
  obtain ⟨_, _, _, shape⟩ := u.settleSwitches_shape c
  rw [shape]

end

theorem State.confirming_eq (c : Change) (s : State) :
    let settled := s.supply.settleSwitches c
    let becomes := !s.supply.supplied && settled.supplied
    s.confirming c = { s with
      supply := s.supply.confirmedBy c
      xchg := if becomes && s.supply.lowBattery && s.xchg.state == .running then (s.showing settled).xchg.request causeSupply
        else (s.showing settled).xchg } := by
  have low : (s.showing (s.supply.settleSwitches c)).supply.lowBattery = s.supply.lowBattery :=
    s.supply.settleSwitches_leaves c Supply.lowBattery
  rw [State.confirming, State.pathShown_eq, State.suppliedFrom_eq]
  dsimp only
  rw [low, State.showing_state]
  rfl

theorem State.confirming_hand (c : Change) (s : State) (l : Lane) : (s.confirming c).xchg.hand l = s.xchg.hand l := by
  rw [State.confirming_eq]
  dsimp only
  split
  · exact (Exchange.request_hand _ _ l).trans (s.showing_hand _ l)
  · exact s.showing_hand _ l

/-- What the filters' new start does not touch follows from the switches alone. -/
theorem Supply.confirmedBy_leaves {α : Type} (u : Supply) (c : Change) (f : Supply → α)
    (blind : ∀ v : Supply, f v.nowSupplied = f v := by intros; rfl) : f (u.confirmedBy c) = f (u.settleSwitches c) := by
  unfold Supply.confirmedBy
  dsimp only
  split
  · exact blind _
  · rfl

/-- A confirmation that makes the camera input-supplied clears LOW_BATTERY and both its runs (R184). -/
theorem Supply.confirmedBy_supplied {u : Supply} {c : Change} (before : u.supplied = false)
    (after : (u.confirmedBy c).supplied = true) :
    (u.confirmedBy c).lowBattery = false ∧ (u.confirmedBy c).lowRun = 0 ∧ (u.confirmedBy c).highRun = 0 := by
  have becomes : (!u.supplied && (u.settleSwitches c).supplied) = true := by
    rw [before, ← u.confirmedBy_leaves c Supply.supplied, after]
    rfl
  rw [Supply.confirmedBy, if_pos becomes]
  exact ⟨rfl, rfl, rfl⟩

theorem State.confirmed_attach {c : Change} (goal : c.goal = .attach) (s : State) : s.confirmed c = s.confirming c := by
  unfold State.confirmed State.confirming
  rw [goal]

theorem State.confirmed_mode {c : Change} {m : PathMode} (goal : c.goal = .mode m) (s : State) : s.confirmed c =
    State.pathRead emit
      (if s.pathFrame then (s.confirming c).finish .control .done .ok m.code else s.confirming c) := by
  rw [← State.finishPath_of_hand (s.confirming_hand c .control)]
  unfold State.confirmed State.confirming
  rw [goal]

theorem State.kept_confirmed (c : Change) (s : State) : Kept (s.confirming c) (s.confirmed c) := by
  cases goal : c.goal with
  | attach =>
    rw [State.confirmed_attach goal]
    exact .refl _
  | mode m =>
    rw [State.confirmed_mode goal, ← State.finishPath_of_hand (s.confirming_hand c .control)]
    exact ((Kept.refl _).finishPath _ _ _).pathRead

theorem State.kept_confirmed_supply (c : Change) (s : State) : SupplyKept (s.supply.confirmedBy c) (s.confirmed c).rest.supply := by
  have kept := (s.kept_confirmed c).rest.supply
  rwa [State.confirming_eq] at kept

/-- The switches and the path mode at the end of a confirmation are those of its goal. -/
theorem State.confirmed_leaves {α : Type} (c : Change) (s : State) (f : Supply → α)
    (anew : ∀ w : Supply, f w.nowSupplied = f w := by intros; rfl)
    (blind : ∀ (w : Supply) wake hostPower, f { w with wake, hostPower } = f w := by intros; rfl) :
    f (s.confirmed c).rest.supply = f (s.supply.settleSwitches c) :=
  ((s.kept_confirmed_supply c).leaves f (blind _)).trans (s.supply.confirmedBy_leaves c f anew)

/-! ## A change that failed -/

/-- The part after a failed change, before the frame is finished. -/
def State.failing (c : Change) (s : State) : State :=
  ((s.onSupply fun u => u.failSwitch c.switch).pathShown s.supply).supplyFlag

/-- The failed switch is open where the other is CLOSED, and as it was where not (R183). -/
theorem Supply.failSwitch_eq (u : Supply) (sw : Switch) : u.failSwitch sw = { u with
    change := none, switchFails := u.switchFails + 1
    inSw := u.inSw && !(sw == .inSw && u.batSw), batSw := u.batSw && !(sw == .batSw && u.inSw) } := by
  unfold Supply.failSwitch
  cases sw with
  | inSw => cases u.batSw <;> simp
  | batSw => cases u.inSw <;> simp

theorem State.failing_eq (c : Change) (s : State) :
    let w := s.supply.failSwitch c.switch
    s.failing c = { s with supply := w, xchg := (s.showing w).xchg.request causeSupply } := by
  rw [State.failing, State.pathShown_eq]
  rfl

theorem State.failing_hand (c : Change) (s : State) (l : Lane) : (s.failing c).xchg.hand l = s.xchg.hand l := by
  rw [State.failing_eq]
  exact (Exchange.request_hand _ _ l).trans (s.showing_hand _ l)

theorem State.failing_supply (c : Change) (s : State) : (s.failing c).supply = s.supply.failSwitch c.switch := by
  rw [State.failing_eq]

theorem State.failing_time (c : Change) (s : State) : (s.failing c).time = s.time := by
  rw [State.failing_eq]

theorem State.unconfirmed_attach {c : Change} (goal : c.goal = .attach) (s : State) : s.unconfirmed c = s.failing c := by
  unfold State.unconfirmed State.failing
  rw [goal]

/-- After a failed change of path mode an attach that waited for it has IN_SW driven (log entry 25). -/
def Supply.redriven (w : Supply) (c : Change) (now : Time) : Supply :=
  if c.owed = true ∧ w.mode = .normal ∧ w.present = true ∧ w.inSw = false then
    { w with change := some { goal := .attach, switch := .inSw, deadline := now + 2000, owed := false } }
  else w

/-- The same in the state. -/
def State.redrive (c : Change) (f : State) : State :=
  if c.owed && f.supply.mode == .normal && f.supply.present && !f.supply.inSw then f.drive .attach .inSw false else f

theorem State.redrive_eq (c : Change) (f : State) : f.redrive c = { f with supply := f.supply.redriven c f.time } := by
  unfold State.redrive Supply.redriven
  by_cases owes : c.owed = true ∧ f.supply.mode = .normal ∧ f.supply.present = true ∧ f.supply.inSw = false
  · rw [if_pos owes, if_pos (by simpa [and_assoc] using owes)]
    rfl
  · rw [if_neg owes, if_neg (by simpa [and_assoc] using owes)]

theorem State.unconfirmed_mode {c : Change} {m : PathMode} (goal : c.goal = .mode m) (s : State) : s.unconfirmed c =
    { (if s.pathFrame then (s.failing c).finish .control .refused .switchFailed 0 else s.failing c) with
      supply := (s.supply.failSwitch c.switch).redriven c s.time } := by
  have redrives : s.unconfirmed c = ((s.failing c).finishPath .refused .switchFailed 0).redrive c := by
    unfold State.unconfirmed
    rw [goal]
    rfl
  have redriven : ((s.failing c).finishPath .refused .switchFailed 0).supply.redriven c
      ((s.failing c).finishPath .refused .switchFailed 0).time = (s.supply.failSwitch c.switch).redriven c s.time := by
    rw [State.finishPath_supply, State.finishPath_time, State.failing_supply, State.failing_time]
  rw [redrives, State.redrive_eq, redriven, State.finishPath_of_hand (s.failing_hand c .control)]

/-- The supply manager at the end of a failed change. -/
def Supply.unconfirmedBy (u : Supply) (c : Change) (now : Time) : Supply :=
  if c.goal = .attach then u.failSwitch c.switch else (u.failSwitch c.switch).redriven c now

theorem State.unconfirmed_supply (c : Change) (s : State) : (s.unconfirmed c).supply = s.supply.unconfirmedBy c s.time := by
  cases goal : c.goal with
  | attach => rw [State.unconfirmed_attach goal, State.failing_supply, Supply.unconfirmedBy, if_pos goal]
  | mode m =>
    have other : c.goal ≠ .attach := by simp [goal]
    rw [Supply.unconfirmedBy, if_neg other, State.unconfirmed_mode goal]

/-- A close driven anew is the only thing that follows the failure in the supply manager. -/
theorem Supply.unconfirmedBy_leaves {α : Type} (u : Supply) (c : Change) (now : Time) (f : Supply → α)
    (blind : ∀ (w : Supply) change, f { w with change } = f w := by intros; rfl) :
    f (u.unconfirmedBy c now) = f (u.failSwitch c.switch) := by
  unfold Supply.unconfirmedBy Supply.redriven
  split
  · rfl
  · split
    · exact blind _ _
    · rfl

theorem Supply.unconfirmedBy_change (u : Supply) (c : Change) (now : Time) : (u.unconfirmedBy c now).change =
    if c.goal ≠ .attach ∧ c.owed = true ∧ u.mode = .normal ∧ u.present = true
        ∧ (u.inSw && !(c.switch == .inSw && u.batSw)) = false then
      some { goal := .attach, switch := .inSw, deadline := now + 2000, owed := false }
    else none := by
  unfold Supply.unconfirmedBy Supply.redriven
  rw [Supply.failSwitch_eq]
  by_cases attach : c.goal = .attach
  · rw [if_pos attach, if_neg fun owes => owes.1 attach]
  · rw [if_neg attach]
    simp only [ne_eq, attach, not_false_eq_true, true_and]
    split <;> rfl

/-! ## The collapse of the input (R181) -/

theorem exec_vinCollapse {a : Ambient} {s : State} (hs : s.supply.held = false) :
    exec (.vinCollapse a) s = .next ((s.arrive a).collapse emit).rest := (perform_free hs : execVinCollapse a s = _)

/-- The part after the comparator's answer, before a frame is finished and the charger reads the path mode. -/
def State.collapsing (s : State) : State :=
  let shown := s.showing s.supply.collapse
  if s.supply.mode = .batteryIsolate then shown.supplyFlag else shown

theorem State.collapsing_eq (s : State) :
    let w := s.supply.collapse
    s.collapsing = { s with
      supply := w
      xchg := if s.supply.mode = .batteryIsolate then (s.showing w).xchg.request causeSupply else (s.showing w).xchg } := by
  unfold State.collapsing
  dsimp only
  split <;> rfl

theorem State.collapsing_supply (s : State) : s.collapsing.supply = s.supply.collapse := by
  rw [State.collapsing_eq]

theorem State.collapsing_hand (s : State) (l : Lane) : s.collapsing.xchg.hand l = s.xchg.hand l := by
  rw [State.collapsing_eq]
  dsimp only
  split
  · exact (Exchange.request_hand _ _ l).trans (s.showing_hand _ l)
  · exact s.showing_hand _ l

/-- Of the three path modes BATTERY_ISOLATE alone is left by a collapse. -/
theorem Supply.collapse_mode_iff (u : Supply) : u.mode = u.collapse.mode ↔ u.mode ≠ .batteryIsolate := by
  unfold Supply.collapse
  cases mode : u.mode <;> simp

theorem Supply.collapse_suspended {u : Supply} (suspended : u.mode = .inputSuspend) :
    u.collapse = { u with present := false, change := none } := by
  simp only [Supply.collapse, suspended]

theorem Supply.collapse_fed {u : Supply} (fed : u.mode ≠ .inputSuspend) :
    u.collapse = { u with present := false, change := none, mode := .normal, inSw := false, batSw := true } := by
  unfold Supply.collapse
  split
  case h_1 normal => rw [← normal]
  case h_2 isolated => rfl
  case h_3 suspended => exact absurd suspended fed

/-- The input is gone and no change under way, in every path mode; the filters stand. -/
theorem Supply.collapse_leaves (u : Supply) : u.collapse.present = false ∧ u.collapse.change = none
    ∧ u.collapse.lowBattery = u.lowBattery ∧ u.collapse.switchFails = u.switchFails := by
  unfold Supply.collapse
  split <;> exact ⟨rfl, rfl, rfl, rfl⟩

theorem State.collapse_eq (s : State) :
    let b := if s.supply.change = none then s.collapsing else
      if s.pathFrame then s.collapsing.finish .control .done .inputLost s.supply.collapse.mode.code else s.collapsing
    s.collapse emit = if s.supply.mode = .batteryIsolate then b.pathRead emit else b := by
  intro b
  unfold State.collapse
  extract_lets changing t a f
  have answered : a = s.collapsing := by
    unfold a t
    rw [State.pathShown_eq]
    rfl
  have finished : f = b := by
    unfold f b changing
    rw [answered, State.finishPath_of_hand (s.collapsing_hand .control), State.collapsing_supply]
    cases s.supply.change <;> rfl
  have mode : f.supply.mode = s.supply.collapse.mode := by
    rw [← State.collapsing_supply, ← answered]
    unfold f
    split
    · rw [State.finishPath_supply]
    · rfl
  rw [mode, finished]
  by_cases isolated : s.supply.mode = .batteryIsolate
  · rw [if_pos isolated, if_neg (mt s.supply.collapse_mode_iff.mp (not_not.mpr isolated))]
  · rw [if_neg isolated, if_pos (s.supply.collapse_mode_iff.mpr isolated)]

end Sys2Proof.Machine
end

section
/-! PATH_SET and the switches (O52). -/

namespace Sys2Proof.Machine

/-- Settles O52: PATH_SET by its checks and the mode in effect, then a confirmation, its limit and the collapse, each by what it makes
of the supply manager and by its equation. -/
theorem pathSetAndSwitches : Obligations.PathSetAndSwitches := by
  unfold Obligations.PathSetAndSwitches
  intro a s hs u v vbat inHand finished shown
  have meas : u.charger.meas = s.charger.meas := s.charger.pass_leaves a.elapsed Charger.meas
  refine ⟨fun code body => ?pathSet, fun sw idle => exec_switchConfirm_idle hs idle, fun c under inTime => ?confirms,
    exec_switchConfirmTimeout_idle hs, fun c under late => ?fails, exec_vinCollapse hs, ?collapses⟩
  case pathSet =>
    intro refused begins
    have turns {m : PathMode} {t : State} (names : pathModeOf code = some m) (other : v.mode ≠ m) (answers : u.pathTo m = t) :
        exec (.pathSet a) s = .next t.rest :=
      (exec_pathSet_other hs body names other).trans (congrArg (fun t => Host.Outcome.next (State.rest t)) answers)
    have level : 3400 + 50 * min v.loadClass 3 = closeThreshold v.loadClass + 100 := by
      unfold closeThreshold
      omega
    have cell : vbat = u.charger.vbat := congrArg (fun m => m.vbat.toNat) meas.symm
    refine ⟨fun unknown => exec_pathSet_unknown hs body (pathModeOf_unknown unknown), ?same, ?suspend, ?isolate, ?fromIsolate,
      ?fromSuspend, ?atOnce⟩
    case same =>
      rintro rfl
      exact exec_pathSet_same hs body (pathModeOf_code _)
    case suspend =>
      rintro rfl other
      rw [level, cell]
      exact ⟨fun ready => turns rfl other (State.pathTo_suspend ready), fun low => turns rfl other (State.pathTo_suspend_low low)⟩
    case isolate =>
      rintro rfl other
      rw [← meas]
      exact ⟨fun ready => turns rfl other (State.pathTo_isolate ready), fun none => turns rfl other (State.pathTo_isolate_noInput none)⟩
    case fromIsolate =>
      rintro rfl mode
      exact turns (m := .normal) rfl (by simp [mode]) (State.pathTo_normal_of_isolate mode)
    case fromSuspend =>
      rintro rfl mode input
      exact turns (m := .normal) rfl (by simp [mode]) ((State.pathTo_normal_of_suspend (s := u) mode).trans (if_pos input))
    case atOnce =>
      rintro rfl mode none
      exact turns (m := .normal) rfl (by simp [mode])
        ((State.pathTo_normal_of_suspend (s := u) mode).trans (if_neg (Bool.eq_false_iff.mp none)))
  case confirms =>
    have kept := u.kept_confirmed_supply c
    refine ⟨_, exec_switchConfirm_inTime hs under inTime, (u.confirmed_leaves c Supply.change).trans (v.settleSwitches_change c), ?goal,
      fun before after => ?supplied, (u.confirmed_leaves c Supply.present).trans (v.settleSwitches_leaves c Supply.present),
      (u.confirmed_leaves c Supply.loadClass).trans (v.settleSwitches_leaves c Supply.loadClass),
      (u.confirmed_leaves c Supply.switchFails).trans (v.settleSwitches_leaves c Supply.switchFails), ?whole⟩
    case goal =>
      have inSw := u.confirmed_leaves c Supply.inSw
      have batSw := u.confirmed_leaves c Supply.batSw
      have mode := u.confirmed_leaves c Supply.mode
      rw [inSw, batSw, mode]
      split
      next goal => exact v.settleSwitches_attach goal ▸ ⟨rfl, rfl, rfl⟩
      next goal => exact v.settleSwitches_suspend goal ▸ ⟨rfl, rfl, rfl⟩
      next goal => exact v.settleSwitches_isolate goal ▸ ⟨rfl, rfl, rfl⟩
      next goal => exact v.settleSwitches_normal goal ▸ ⟨rfl, rfl, rfl⟩
    case supplied =>
      obtain ⟨low, lowRun, highRun⟩ := Supply.confirmedBy_supplied before ((kept.leaves Supply.supplied).symm.trans after)
      exact ⟨kept.lowBattery.trans low, kept.lowRun.trans lowRun, kept.highRun.trans highRun⟩
    case whole =>
      intro settled becomes w z
      have settles : v.settleSwitches c = settled := by
        unfold settled
        split
        next goal => exact v.settleSwitches_attach goal
        next goal => exact v.settleSwitches_suspend goal
        next goal => exact v.settleSwitches_isolate goal
        next goal => exact v.settleSwitches_normal goal
      have confirming : u.confirming c = z := by
        rw [State.confirming_eq, Supply.confirmedBy, show u.supply.settleSwitches c = settled from settles]
        rfl
      refine ⟨fun goal => congrArg State.rest ((State.confirmed_attach goal u).trans confirming), fun m goal => ?_⟩
      rw [State.confirmed_mode goal, confirming]
      rfl
  case fails =>
    have kept : SupplyKept (v.unconfirmedBy c u.time) (u.unconfirmed c).rest.supply := by
      have rested := (u.unconfirmed c).kept_rest.supply
      rwa [State.unconfirmed_supply] at rested
    have left {α : Type} (f : Supply → α) (blind : ∀ (w : Supply) change, f { w with change } = f w := by intros; rfl)
        (asleep : ∀ (w : Supply) wake hostPower, f { w with wake, hostPower } = f w := by intros; rfl) :
        f (u.unconfirmed c).rest.supply = f (v.failSwitch c.switch) :=
      (kept.leaves f (asleep _)).trans (v.unconfirmedBy_leaves c u.time f blind)
    rw [Supply.failSwitch_eq] at left
    refine ⟨_, exec_switchConfirmTimeout_late hs under late, kept.change.trans (v.unconfirmedBy_change c u.time),
      left Supply.switchFails, left Supply.mode, left Supply.inSw, left Supply.batSw, left Supply.present, left Supply.lowBattery,
      ?whole⟩
    case whole =>
      intro w z
      have failed : v.failSwitch c.switch = w := Supply.failSwitch_eq v c.switch
      have failing : u.failing c = z := by
        rw [State.failing_eq, show u.supply.failSwitch c.switch = w from failed]
        rfl
      refine ⟨fun goal => congrArg State.rest ((State.unconfirmed_attach goal u).trans failing), fun m goal => ?_⟩
      rw [State.unconfirmed_mode goal, failing, show u.supply.failSwitch c.switch = w from failed]
      rfl
  case collapses =>
    have kept := u.kept_collapse.rest
    obtain ⟨present, change, low, fails⟩ := v.collapse_leaves
    refine ⟨_, exec_vinCollapse hs, kept.supply.present.trans present, kept.supply.change.trans change, fun suspended => ?suspended,
      fun fed => ?fed, kept.supply.lowBattery.trans low, kept.supply.switchFails.trans fails, kept.charger.meas.trans meas, ?whole⟩
    case suspended =>
      have w : u.supply.collapse = _ := Supply.collapse_suspended suspended
      exact ⟨kept.supply.mode.trans (w ▸ suspended), kept.supply.inSw.trans (w ▸ rfl), kept.supply.batSw.trans (w ▸ rfl)⟩
    case fed =>
      have w : u.supply.collapse = _ := Supply.collapse_fed fed
      exact ⟨kept.supply.mode.trans (w ▸ rfl), kept.supply.inSw.trans (w ▸ rfl), kept.supply.batSw.trans (w ▸ rfl)⟩
    case whole =>
      intro isolated w z f
      have collapsed : v.collapse = w := by
        unfold w
        split
        next suspended => exact Supply.collapse_suspended suspended
        next fed => exact Supply.collapse_fed fed
      have collapsing : u.collapsing = z := by
        rw [State.collapsing_eq, show u.supply.collapse = w from collapsed]
        rfl
      rw [State.collapse_eq, collapsing, show u.supply.collapse = w from collapsed]
      exact apply_ite State.rest _ _ _

end Sys2Proof.Machine
end

section
/-! One step of the block, by the queue of commands (O1). -/

namespace Sys2Proof.Machine

/-- The command at the front of the queue leaves it and is executed on the rest. -/
theorem step_of_pending_cons {c : Instr} {rest : List Instr} {s : State} (queued : s.pending = c :: rest) :
    step s = exec c { s with pending := rest } := by
  unfold step
  rw [queued]

/-- The idle step (log entry 4). -/
theorem step_of_pending_nil {s : State} (idle : s.pending = []) : step s = .next s := by
  unfold step
  rw [idle]

/-- Settles O1: a step is decided by whether a command is queued. -/
theorem stepRunsTheFrontCommand : Obligations.StepRunsTheFrontCommand := by
  unfold Obligations.StepRunsTheFrontCommand
  exact ⟨fun _ _ _ queued => step_of_pending_cons queued, fun _ idle => step_of_pending_nil idle⟩

end Sys2Proof.Machine
end
